-- ==== Sys2Proof/Word.lean ====
section
/-! DEFINITION. The word types of the W9 and their plainest arithmetic (spec/08_number_formats.md R162, spec/09_encoding_and_opcode_map.md R179). -/
namespace Sys2Proof

/-- A byte of memory. -/
abbrev Byte := BitVec 8
/-- A 32-bit register or instruction word. -/
abbrev Word := BitVec 32
/-- A 64-bit value: a register pair, an address, a tick. -/
abbrev Dword := BitVec 64

/-- The pair of a low and a high word (R14: a pair holds the low word in the even register). -/
def pairOf (lo hi : Word) : Dword := hi ++ lo
/-- The low word of a pair. -/
def lowWord (x : Dword) : Word := x.setWidth 32
/-- The high word of a pair. -/
def highWord (x : Dword) : Word := (x >>> 32).setWidth 32
/-- Bits h down to l of a natural number. -/
def bitsOf (x h l : Nat) : Nat := (x >>> l) % 2 ^ (h + 1 - l)

end Sys2Proof
end

