-- ==== Sys2Proof/Fields.lean ====
section
/-! DEFINITION. The fields of instruction words: element types, formats of word 0 and extension word 1 (spec/09_encoding_and_opcode_map.md R179 to R197), and the small data that device events carry. -/
namespace Sys2Proof

/-- The sixteen TYPE codes, in the order of Table 9.10 (R197). -/
inductive ElemType where
  | i32 | n32 | i16 | n16 | i8 | n8 | f64 | f32 | f16 | bf16 | e4m3 | e5m2 | e2m1 | i4x | e8m0 | i64
  deriving DecidableEq, Repr

/-- TYPE code to element type: all sixteen codes name a type. -/
def ElemType.ofCode (c : BitVec 4) : ElemType :=
  match c.toNat with
  | 0 => .i32 | 1 => .n32 | 2 => .i16 | 3 => .n16 | 4 => .i8 | 5 => .n8 | 6 => .f64 | 7 => .f32
  | 8 => .f16 | 9 => .bf16 | 10 => .e4m3 | 11 => .e5m2 | 12 => .e2m1 | 13 => .i4x | 14 => .e8m0 | _ => .i64

/-- Element type to TYPE code. -/
def ElemType.code : ElemType → BitVec 4
  | .i32 => 0 | .n32 => 1 | .i16 => 2 | .n16 => 3 | .i8 => 4 | .n8 => 5 | .f64 => 6 | .f32 => 7
  | .f16 => 8 | .bf16 => 9 | .e4m3 => 10 | .e5m2 => 11 | .e2m1 => 12 | .i4x => 13 | .e8m0 => 14 | .i64 => 15

/-- Width of an element in bits (R162, R163). -/
def ElemType.width : ElemType → Nat
  | .i64 => 64 | .f64 => 64 | .i32 => 32 | .n32 => 32 | .f32 => 32
  | .i16 => 16 | .n16 => 16 | .f16 => 16 | .bf16 => 16
  | .i8 => 8 | .n8 => 8 | .e4m3 => 8 | .e5m2 => 8 | .e8m0 => 8
  | .e2m1 => 4 | .i4x => 4

/-- A floating format of Table 8.1 (I4X is read only under R176 and is none of them). -/
def ElemType.isFloat : ElemType → Bool
  | .f64 => true | .f32 => true | .f16 => true | .bf16 => true
  | .e4m3 => true | .e5m2 => true | .e2m1 => true | .e8m0 => true
  | _ => false

/-- An integer format of R162. -/
def ElemType.isInt : ElemType → Bool
  | .i64 => true | .i32 => true | .n32 => true | .i16 => true | .n16 => true | .i8 => true | .n8 => true
  | _ => false

/-- A signed integer format of R162. -/
def ElemType.signed : ElemType → Bool
  | .i64 => true | .i32 => true | .i16 => true | .i8 => true
  | _ => false

/-- The guard code shared by (NG, GPRED) and the SB field G (R185): negate bit and predicate number. -/
structure Guard where
  neg : Bool
  pred : BitVec 3
  deriving DecidableEq, Repr

/-- Code 0000: unguarded (R185). -/
def Guard.always : Guard := ⟨false, 0⟩
/-- The four bits of a guard. -/
def Guard.code (g : Guard) : BitVec 4 := (BitVec.ofBool g.neg) ++ g.pred
/-- The guard of four bits. -/
def Guard.ofCode (c : BitVec 4) : Guard := ⟨c.getLsbD 3, c.setWidth 3⟩
/-- The code 1000 is refused (R185). -/
def Guard.ok (g : Guard) : Bool := !(g.neg && g.pred == 0)

/-- Format SA of Table 9.1 (R181). -/
structure SA where
  e : Bool
  d : BitVec 7
  a : BitVec 7
  b : BitVec 7
  bs : Bool
  deriving DecidableEq, Repr
/-- Format SI of Table 9.1 (R181). -/
structure SI where
  e : Bool
  d : BitVec 7
  a : BitVec 7
  imm : BitVec 8
  deriving DecidableEq, Repr
/-- Format SS of Table 9.1 (R181). -/
structure SS where
  e : Bool
  d : BitVec 6
  a : BitVec 6
  b : BitVec 6
  fn : BitVec 4
  deriving DecidableEq, Repr
/-- Format SB of Table 9.1 (R181). -/
structure SB where
  e : Bool
  g : Guard
  off : BitVec 18
  deriving DecidableEq, Repr
/-- Format SM of Table 9.1 (R181). -/
structure SM where
  e : Bool
  d : BitVec 7
  a : BitVec 7
  off : BitVec 8
  deriving DecidableEq, Repr
/-- Format SC of Table 9.1 (R181). -/
structure SC where
  e : Bool
  ld : BitVec 6
  st : BitVec 6
  cp : BitVec 6
  tl : BitVec 4
  deriving DecidableEq, Repr

/-- Extension word 1 (Table 9.2, R184) together with word 2. -/
structure Ext where
  g : Guard
  fn : BitVec 8
  c : BitVec 7
  cs : Bool
  ty : ElemType
  rnd : BitVec 3
  sat : Bool
  lit : Bool
  sel : BitVec 3
  w2 : Word
  deriving DecidableEq, Repr

/-- A 96-bit form whose word 0 has the SA layout (R184). -/
structure WA where
  e : Bool
  d : BitVec 7
  a : BitVec 7
  b : BitVec 7
  bs : Bool
  x : Ext
  deriving DecidableEq, Repr
/-- A 96-bit form whose word 0 has the SS layout (R184). -/
structure WS where
  e : Bool
  d : BitVec 6
  a : BitVec 6
  b : BitVec 6
  fn4 : BitVec 4
  x : Ext
  deriving DecidableEq, Repr
/-- A 96-bit form whose word 0 has the SB layout (R184). -/
structure WB where
  e : Bool
  g : Guard
  off : BitVec 18
  x : Ext
  deriving DecidableEq, Repr
/-- A 96-bit form whose word 0 has the SM layout (R184). -/
structure WM where
  e : Bool
  d : BitVec 7
  a : BitVec 7
  off : BitVec 8
  x : Ext
  deriving DecidableEq, Repr
/-- The 96-bit form of WAITC: word 0 bits [21:0] stand at 0, the limits in word 2 (R184). -/
structure WC where
  e : Bool
  low : BitVec 22
  x : Ext
  deriving DecidableEq, Repr
/-- The 160-bit form of MOVL (R189). -/
structure WL where
  e : Bool
  d : BitVec 7
  low : BitVec 15
  x : Ext
  lit : Dword
  deriving DecidableEq, Repr

/-- What an uncorrectable error strikes (Table 15.11, R340). -/
inductive Struck where
  | vreg (thread reg : Nat)
  | scratch (team off : Nat)
  | l1line (core : Nat) (fn ctx : Nat) (va : Nat)
  | line (pa : Nat)
  | accTile (core bank tile : Nat)
  | tilePart (space name part : Nat)
  | cached
  | control (fn ctx : Nat)
  | lostWrite (thread : Nat)
  | lostKeystone (fn world : Nat)
  deriving DecidableEq, Repr

/-- One rank's data as it comes over Uttenlink in a collective (R259, R260): its function, descriptor, tenant tag, sequence number, whether its device reports the tenant resident, its source and the offsets of the source's poisoned bytes. -/
structure RankData where
  rank : Nat
  fn : Nat
  desc : List Byte
  tag : Dword
  seq : Nat
  resident : Bool
  src : List Byte
  bad : List Nat
  deriving DecidableEq, Repr
end Sys2Proof

namespace Sys2Proof.Machine

/-- Operands of an atomic as captured at issue (R244). -/
structure AtomOp where
  /-- 0 ATOM, 1 ATOMC, 2 ATOMF, 3 RED, 4 CTRADD. -/
  form : Nat
  op : Nat
  ty : ElemType
  rnd : Nat
  b : Nat
  c : Nat
  deriving DecidableEq, Repr
/-- What an access from one device to another, or to the host, asks of its target: a write, a poisoned one (R135), a read, an atomic (R125), a transfer's notification (R131, R256). -/
inductive Payload where
  | write (data : List Byte)
  | poison (data : List Byte)
  | read (len : Nat)
  | atomic (o : AtomOp)
  | add
  deriving DecidableEq, Repr

end Sys2Proof.Machine
end

