-- ==== Sys2Proof/Syntax.lean ====
section
/-! DEFINITION. The instructions of the W9: one constructor for each row of spec/opcode_table.json. A row of an instruction form carries the fields of its words; a row of a device step carries what the step is about. -/
namespace Sys2Proof

/-- The 355 rows of the opcode table, in its order. -/
inductive Instr where
  /-- NOP: 32-bit no-operation; does nothing. (R204) -/
  | nop (x : SA)
  /-- NOP_WIDE: 96-bit no-operation, whose guard has no effect. (R204) -/
  | nopWide (x : WA)
  /-- MOV: Copies a v or s register into vD (32-bit form). (R204) -/
  | mov (x : SA)
  /-- MOV_WIDE: 96-bit MOV; may be guarded and may take a literal. (R204) -/
  | movWide (x : WA)
  /-- MOVI: Writes a sign-extended 15-bit immediate to vD. (R204) -/
  | movi (x : SI)
  /-- MOVI_WIDE: Writes a 32-bit literal to vD (LIT = 1 required). (R204) -/
  | moviWide (x : WA)
  /-- MOVL: 160-bit form that writes a 64-bit literal to a register pair. (R189) -/
  | movl (x : WL)
  /-- IADD: 32-bit integer add of vA and a sign-extended IMM8. (R206) -/
  | iadd (x : SI)
  /-- IADD_WIDE: 96-bit integer add with a register or literal B, a type and saturation. (R206) -/
  | iaddWide (x : WA)
  /-- ISUB: 32-bit integer subtract with IMM8. (R206) -/
  | isub (x : SI)
  /-- ISUB_WIDE: 96-bit integer subtract. (R206) -/
  | isubWide (x : WA)
  /-- IMUL: 32-bit integer multiply with IMM8. (R206) -/
  | imul (x : SI)
  /-- IMUL_WIDE: 96-bit integer multiply. (R206) -/
  | imulWide (x : WA)
  /-- IMULH: 32-bit signed high-word multiply with IMM8. (R206) -/
  | imulh (x : SI)
  /-- IMULH_WIDE: 96-bit high-word multiply, signed or unsigned by FN. (R206) -/
  | imulhWide (x : WA)
  /-- IMAD: Integer multiply-add a times b plus c. (R206) -/
  | imad (x : WA)
  /-- IMIN: 32-bit signed minimum with IMM8. (R206) -/
  | imin (x : SI)
  /-- IMIN_WIDE: 96-bit minimum, signed or unsigned. (R206) -/
  | iminWide (x : WA)
  /-- IMAX: 32-bit signed maximum with IMM8. (R206) -/
  | imax (x : SI)
  /-- IMAX_WIDE: 96-bit maximum, signed or unsigned. (R206) -/
  | imaxWide (x : WA)
  /-- IABS: 32-bit integer absolute value. (R206) -/
  | iabs (x : SA)
  /-- IABS_WIDE: 96-bit absolute value with optional saturation. (R206) -/
  | iabsWide (x : WA)
  /-- AND: Bitwise AND with a zero-extended IMM8. (R206) -/
  | and (x : SI)
  /-- AND_WIDE: 96-bit bitwise AND. (R206) -/
  | andWide (x : WA)
  /-- OR: Bitwise OR with IMM8. (R206) -/
  | or (x : SI)
  /-- OR_WIDE: 96-bit bitwise OR. (R206) -/
  | orWide (x : WA)
  /-- XOR: Bitwise XOR with IMM8. (R206) -/
  | xor (x : SI)
  /-- XOR_WIDE: 96-bit bitwise XOR. (R206) -/
  | xorWide (x : WA)
  /-- NOT: Bitwise complement. (R206) -/
  | not (x : SA)
  /-- NOT_WIDE: 96-bit bitwise complement. (R206) -/
  | notWide (x : WA)
  /-- SHL: Shift left by IMM8 (0 to 31). (R206) -/
  | shl (x : SI)
  /-- SHL_WIDE: 96-bit shift left by a full count. (R206) -/
  | shlWide (x : WA)
  /-- SHR: Logical shift right by IMM8. (R206) -/
  | shr (x : SI)
  /-- SHR_WIDE: 96-bit logical shift right. (R206) -/
  | shrWide (x : WA)
  /-- SAR: Arithmetic shift right by IMM8. (R206) -/
  | sar (x : SI)
  /-- SAR_WIDE: 96-bit arithmetic shift right. (R206) -/
  | sarWide (x : WA)
  /-- ROT: Rotate left by IMM8. (R206) -/
  | rot (x : SI)
  /-- ROT_WIDE: 96-bit rotate left. (R206) -/
  | rotWide (x : WA)
  /-- POPC: Population count. (R206) -/
  | popc (x : SA)
  /-- POPC_WIDE: 96-bit population count. (R206) -/
  | popcWide (x : WA)
  /-- CLZ: Count of leading zeros. (R206) -/
  | clz (x : SA)
  /-- CLZ_WIDE: 96-bit leading-zero count. (R206) -/
  | clzWide (x : WA)
  /-- BREV: Bit reversal. (R206) -/
  | brev (x : SA)
  /-- BREV_WIDE: 96-bit bit reversal. (R206) -/
  | brevWide (x : WA)
  /-- BFX: Extracts a bit field, zero- or sign-extended. (R207) -/
  | bfx (x : WA)
  /-- BFI: Inserts a bit field of a into c. (R207) -/
  | bfi (x : WA)
  /-- SEL: Selects vA or B by a predicate. (R204) -/
  | sel (x : WA)
  /-- ICMP: Integer compare into a predicate. (R208) -/
  | icmp (x : WA)
  /-- IADDC: Add or subtract with carry in and carry out in predicates. (R209) -/
  | iaddc (x : WA)
  /-- ADD64: Adds a sign-extended 32-bit value to a 64-bit pair. (R210) -/
  | add64 (x : SA)
  /-- ADD64_WIDE: 96-bit ADD64, guarded or with a literal. (R210) -/
  | add64Wide (x : WA)
  /-- SUB64: Subtracts a sign-extended 32-bit value from a pair. (R210) -/
  | sub64 (x : SA)
  /-- SUB64_WIDE: 96-bit SUB64. (R210) -/
  | sub64Wide (x : WA)
  /-- LEA64: Adds a scaled sign-extended index to a pair. (R210) -/
  | lea64 (x : WA)
  /-- CMP64: 64-bit compare into a predicate. (R210) -/
  | cmp64 (x : WA)
  /-- UADD: Scalar add of s registers, once per team. (R211) -/
  | uadd (x : SS)
  /-- UADD_WIDE: 96-bit scalar add. (R211) -/
  | uaddWide (x : WS)
  /-- USUB: Scalar subtract. (R211) -/
  | usub (x : SS)
  /-- USUB_WIDE: 96-bit scalar subtract. (R211) -/
  | usubWide (x : WS)
  /-- UMUL: Scalar multiply, low word. (R211) -/
  | umul (x : SS)
  /-- UMUL_WIDE: 96-bit scalar multiply. (R211) -/
  | umulWide (x : WS)
  /-- ULOG: Scalar bitwise operation selected by FN4. (R211) -/
  | ulog (x : SS)
  /-- ULOG_WIDE: 96-bit scalar bitwise operation. (R211) -/
  | ulogWide (x : WS)
  /-- USHIFT: Scalar shift or rotate selected by FN4. (R211) -/
  | ushift (x : SS)
  /-- USHIFT_WIDE: 96-bit scalar shift. (R211) -/
  | ushiftWide (x : WS)
  /-- UMOV: Scalar register move. (R211) -/
  | umov (x : SS)
  /-- UMOV_WIDE: 96-bit scalar move, or a literal move. (R211) -/
  | umovWide (x : WS)
  /-- UCMP: Compares team scalars into a per-thread predicate. (R211) -/
  | ucmp (x : WS)
  /-- UADD64: 64-bit scalar pair add. (R210) -/
  | uadd64 (x : SS)
  /-- UADD64_WIDE: 96-bit UADD64 with an optional literal. (R210) -/
  | uadd64Wide (x : WS)
  /-- UREAD: Writes sD from the lowest-lane thread's vA. (R203) -/
  | uread (x : WA)
  /-- UCONST: Loads constant-table entry k into a pair. (R204) -/
  | uconst (x : SI)
  /-- UCONST_WIDE: 96-bit UCONST with k in word 2. (R204) -/
  | uconstWide (x : WA)
  /-- PLOG: Per-thread predicate logic selected by FN4. (R211) -/
  | plog (x : SS)
  /-- PLOG_WIDE: 96-bit predicate logic. (R211) -/
  | plogWide (x : WS)
  /-- SPRD: Reads a special register. (R212) -/
  | sprd (x : SI)
  /-- SPRD_WIDE: 96-bit guarded special-register read. (R212) -/
  | sprdWide (x : WA)
  /-- SPWR: Writes FLAGS, MODE or LEASE. (R212) -/
  | spwr (x : SI)
  /-- SPWR_WIDE: 96-bit guarded special-register write. (R212) -/
  | spwrWide (x : WA)
  /-- SHFL: Collective register shuffle among convergence members. (R215) -/
  | shfl (x : WA)
  /-- VOTE: Collective vote ANY, ALL or BALLOT. (R216) -/
  | vote (x : WA)
  /-- VRED: Collective exact cross-thread reduction. (R277) -/
  | vred (x : WA)
  /-- BR: Per-thread conditional relative branch. (R217) -/
  | br (x : SB)
  /-- BR_WIDE: 96-bit branch, with a literal offset or an indirect target. (R217) -/
  | brWide (x : WB)
  /-- BRU: Team-uniform branch with an optional uniformity check. (R217) -/
  | bru (x : SB)
  /-- BRU_WIDE: 96-bit uniform branch, relative or indirect. (R217) -/
  | bruWide (x : WB)
  /-- JMP: Each thread jumps to its own register target. (R218) -/
  | jmp (x : SA)
  /-- JMP_WIDE: 96-bit guarded jump. (R218) -/
  | jmpWide (x : WA)
  /-- CALL: Relative call linking in v126:127. (R218) -/
  | call (x : SB)
  /-- CALL_WIDE: 96-bit call with a named link, relative or indirect. (R218) -/
  | callWide (x : WB)
  /-- RET: Return through a register pair. (R218) -/
  | ret (x : SA)
  /-- RET_WIDE: 96-bit guarded return. (R218) -/
  | retWide (x : WA)
  /-- EXIT: Thread becomes EXITING. (R139) -/
  | exit (x : SA)
  /-- EXIT_WIDE: 96-bit guarded exit. (R139) -/
  | exitWide (x : WA)
  /-- YIELD: Ends the span; the thread is READY with age 0. (R218) -/
  | yield (x : SA)
  /-- YIELD_WIDE: 96-bit guarded yield. (R218) -/
  | yieldWide (x : WA)
  /-- CINIT: Sets a convergence register's member set. (R213) -/
  | cinit (x : WA)
  /-- CSIGN: Signs a convergence register with no other effect. (R214) -/
  | csign (x : WA)
  /-- REGROUP: Parks the thread for a team-wide regroup by key. (R222) -/
  | regroup (x : SI)
  /-- REGROUP_WIDE: 96-bit regroup with n in word 2. (R222) -/
  | regroupWide (x : WA)
  /-- CLAIM: Takes a free register block if one exists and sets the predicate. (R142) -/
  | claim (x : SS)
  /-- CLAIM_WIDE: 96-bit CLAIM. (R142) -/
  | claimWide (x : WS)
  /-- CLAIMW: Takes a block, or parks in CLAIM_WAIT. (R142) -/
  | claimw (x : SS)
  /-- CLAIMW_WIDE: 96-bit CLAIMW. (R142) -/
  | claimwWide (x : WS)
  /-- GIVE: Returns the thread's last claimed block. (R142) -/
  | give (x : SS)
  /-- GIVE_WIDE: 96-bit GIVE. (R142) -/
  | giveWide (x : WS)
  /-- WAITC: Holds the thread until every counter is at or below its limit. (R219) -/
  | waitc (x : SC)
  /-- WAITC_WIDE: 96-bit WAITC with limits in word 2. (R219) -/
  | waitcWide (x : WC)
  /-- SLEEPT: Sleeps until the view of GTICK reaches a tick. (R220) -/
  | sleept (x : SA)
  /-- SLEEPT_WIDE: 96-bit guarded SLEEPT. (R220) -/
  | sleeptWide (x : WA)
  /-- BAR_SYNC: Arrives at a barrier and waits for the phase to complete. (R221) -/
  | barSync (x : SS)
  /-- BAR_SYNC_WIDE: 96-bit BAR.SYNC, with an optional literal count. (R221) -/
  | barSyncWide (x : WS)
  /-- BAR_ARRIVE: Arrives at a barrier without waiting. (R221) -/
  | barArrive (x : SS)
  /-- BAR_ARRIVE_WIDE: 96-bit BAR.ARRIVE. (R221) -/
  | barArriveWide (x : WS)
  /-- BAR_WAIT: Waits for the phase of the thread's last arrival. (R221) -/
  | barWait (x : SS)
  /-- BAR_WAIT_WIDE: 96-bit BAR.WAIT. (R221) -/
  | barWaitWide (x : WS)
  /-- TRAP_SVC: Writes a service record and parks the threads with cause SERVICE. (R224) -/
  | trapSvc (x : SS)
  /-- TRAP_SVC_WIDE: 96-bit guarded TRAP.SVC. (R224) -/
  | trapSvcWide (x : WS)
  /-- TRAP_BRK: Stops the true-guard threads with cause BREAK. (R225) -/
  | trapBrk (x : SS)
  /-- TRAP_BRK_WIDE: 96-bit guarded BRK. (R225) -/
  | trapBrkWide (x : WS)
  /-- LAUNCH: Releases, reads a launch record and submits a child grid. (R226) -/
  | launch (x : WA)
  /-- SPAWN: Releases at cluster scope and queues a task if there is room. (R227) -/
  | spawn (x : WA)
  /-- CTRADD: Releases at device scope and atomically adds to a 64-bit counter. (R228) -/
  | ctradd (x : WA)
  /-- CTRWAIT: Reads a counter and acquires, or parks until the threshold is met. (R228) -/
  | ctrwait (x : WA)
  /-- RESUME: Requests a fault-service action on a fault or service record. (R229) -/
  | resume (x : WA)
  /-- LD: Global load (32-bit form: plain .X1 I32). (R234) -/
  | ld (x : SM)
  /-- LD_WIDE: 96-bit global load with count, type and acquire. (R234) -/
  | ldWide (x : WM)
  /-- ST: Global store (32-bit form). (R235) -/
  | st (x : SM)
  /-- ST_WIDE: 96-bit global store with count, type and release. (R235) -/
  | stWide (x : WM)
  /-- LDS: Scratchpad load. (R237) -/
  | lds (x : SM)
  /-- LDS_WIDE: 96-bit scratchpad load. (R237) -/
  | ldsWide (x : WM)
  /-- STS: Scratchpad store. (R237) -/
  | sts (x : SM)
  /-- STS_WIDE: 96-bit scratchpad store. (R237) -/
  | stsWide (x : WM)
  /-- LDU: Per-team load into s registers. (R236) -/
  | ldu (x : SM)
  /-- LDU_WIDE: 96-bit LDU. (R236) -/
  | lduWide (x : WM)
  /-- STU: Per-team store of s registers. (R236) -/
  | stu (x : SM)
  /-- STU_WIDE: 96-bit STU. (R236) -/
  | stuWide (x : WM)
  /-- LDT: Loads through a layout handle. (R239) -/
  | ldt (x : WA)
  /-- STT: Stores through a layout handle. (R239) -/
  | stt (x : WA)
  /-- GLD: Gather load through the collector. (R241) -/
  | gld (x : SM)
  /-- GLD_WIDE: 96-bit gather load. (R241) -/
  | gldWide (x : WM)
  /-- GST: Scatter store through the collector. (R241) -/
  | gst (x : SM)
  /-- GST_WIDE: 96-bit scatter store. (R241) -/
  | gstWide (x : WM)
  /-- PREF: Prefetches a line; never faults. (R242) -/
  | pref (x : SM)
  /-- PREF_WIDE: 96-bit prefetch. (R242) -/
  | prefWide (x : WM)
  /-- ATOM: Returning integer atomic at the home slice. (R244) -/
  | atom (x : WA)
  /-- ATOMC: Compare-and-swap atomic. (R244) -/
  | atomc (x : WA)
  /-- ATOMF: Returning floating-point atomic. (R245) -/
  | atomf (x : WA)
  /-- RED: Non-returning reduction, buffered in DET launches (R247). (R246) -/
  | red (x : WA)
  /-- AFLUSH: Flush-point arrival in DET, or FENCE.AR.DEV otherwise. (R248) -/
  | aflush (x : SA)
  /-- AFLUSH_WIDE: 96-bit guarded AFLUSH. (R248) -/
  | aflushWide (x : WA)
  /-- FENCE_REL: Performs a release of the named scope. (R249) -/
  | fenceRel (x : SS)
  /-- FENCE_REL_WIDE: 96-bit release fence with scope in SC/SEL. (R249) -/
  | fenceRelWide (x : WS)
  /-- FENCE_ACQ: Performs an acquire. (R249) -/
  | fenceAcq (x : SS)
  /-- FENCE_ACQ_WIDE: 96-bit acquire fence. (R249) -/
  | fenceAcqWide (x : WS)
  /-- FENCE_AR: Performs a release followed by an acquire. (R249) -/
  | fenceAr (x : SS)
  /-- FENCE_AR_WIDE: 96-bit acquire-release fence. (R249) -/
  | fenceArWide (x : WS)
  /-- INVL1: Drops clean L1 copies of one line granted before now. (R250) -/
  | invl1 (x : SM)
  /-- INVL1_WIDE: 96-bit INVL1 over up to 4,096 lines. (R250) -/
  | invl1Wide (x : WM)
  /-- PIN: Pins a line in L2 for the team. (R251) -/
  | pin (x : SM)
  /-- PIN_WIDE: 96-bit PIN of several lines. (R251) -/
  | pinWide (x : WM)
  /-- UNPIN: Clears the context's pin of a line. (R251) -/
  | unpin (x : SM)
  /-- UNPIN_WIDE: 96-bit UNPIN of several lines. (R251) -/
  | unpinWide (x : WM)
  /-- HBIND: Binds a layout handle to a record. (R238) -/
  | hbind (x : SA)
  /-- HBIND_WIDE: 96-bit guarded HBIND. (R238) -/
  | hbindWide (x : WA)
  /-- HQRY: Reads a field of a bound layout record. (R240) -/
  | hqry (x : WA)
  /-- CPY: Submits a copy-engine request and returns a promise. (R252) -/
  | cpy (x : WA)
  /-- CPYQ: Returns the largest current copy promise, revising passed ones. (R254) -/
  | cpyq (x : SA)
  /-- CPYQ_WIDE: 96-bit guarded CPYQ. (R254) -/
  | cpyqWide (x : WA)
  /-- DSEND: Dispatches a token row to an expert queue on a peer. (R256) -/
  | dsend (x : WA)
  /-- DCOMB: Combines expert output rows into a local row with an exact sum. (R257) -/
  | dcomb (x : WA)
  /-- COLL: Posts a participation in a multi-device collective. (R258) -/
  | coll (x : WA)
  /-- FADD: F32 add (32-bit form). (R265) -/
  | fadd (x : SA)
  /-- FADD_WIDE: 96-bit floating add with type, rounding and saturation. (R265) -/
  | faddWide (x : WA)
  /-- FSUB: F32 subtract. (R265) -/
  | fsub (x : SA)
  /-- FSUB_WIDE: 96-bit floating subtract. (R265) -/
  | fsubWide (x : WA)
  /-- FMUL: F32 multiply. (R265) -/
  | fmul (x : SA)
  /-- FMUL_WIDE: 96-bit floating multiply. (R265) -/
  | fmulWide (x : WA)
  /-- FFMA: Fused multiply-add rounded once. (R265) -/
  | ffma (x : WA)
  /-- FMINMAX: F32 MIN (32-bit form). (R266) -/
  | fminmax (x : SA)
  /-- FMINMAX_WIDE: 96-bit MIN, MAX, MINIMUM or MAXIMUM. (R266) -/
  | fminmaxWide (x : WA)
  /-- FCMP: Floating compare into a predicate. (R267) -/
  | fcmp (x : WA)
  /-- FSPC: F32 special function selected in B[7:1]. (R269) -/
  | fspc (x : SA)
  /-- FSPC_WIDE: 96-bit special function with a type. (R269) -/
  | fspcWide (x : WA)
  /-- FCLASS: Classifies an F32 value into a one-hot mask. (R268) -/
  | fclass (x : SA)
  /-- FCLASS_WIDE: 96-bit classify with a type and selector. (R268) -/
  | fclassWide (x : WA)
  /-- CVT: Converts one element between formats. (R271) -/
  | cvt (x : WA)
  /-- PACK: Converts two values into adjacent packed elements. (R272) -/
  | pack (x : WA)
  /-- UNPK: Unpacks two adjacent elements into registers. (R273) -/
  | unpk (x : WA)
  /-- FFMAP: Paired 16-bit fused multiply-add. (R274) -/
  | ffmap (x : WA)
  /-- QDOT: Exact 8-bit or 4-bit float dot product into F32. (R275) -/
  | qdot (x : WA)
  /-- IDOT: Integer dot product into I32. (R276) -/
  | idot (x : WA)
  /-- MXSC: Collective computation of an MX block's scale and elements. (R278) -/
  | mxsc (x : WA)
  /-- QNT_ROW: Quantises one value against a row scale. (R279) -/
  | qntRow (x : WA)
  /-- QNT_BLOCK: Quantises a 32-value block held by one thread. (R280) -/
  | qntBlock (x : WA)
  /-- MMA: Collective matrix multiply-accumulate into an accumulator tile. (R285) -/
  | mma (x : WA)
  /-- MMAS: MMA with operands fetched through layout handles. (R286) -/
  | mmas (x : WA)
  /-- AMOV_FROM: Moves an accumulator tile into members' registers. (R287) -/
  | amovFrom (x : WA)
  /-- AMOV_INTO: Writes members' registers into an accumulator tile. (R287) -/
  | amovInto (x : WA)
  /-- AMOV_ZERO: Zeroes an accumulator tile. (R287) -/
  | amovZero (x : WA)
  /-- TDEF: Defines a part of a tile name. (R78) -/
  | tdef (x : WA)
  /-- TLD: Reads a part of a defined tile name. (R79) -/
  | tld (x : WA)
  /-- TKILL: Counts one kill per thread against a tile name. (R80) -/
  | tkill (x : WA)
  /-- EQRY: Asks the query walker for a range of a world query. (R291) -/
  | eqry (x : WA)
  /-- ELOOK: Resolves an entity handle to a component address. (R293) -/
  | elook (x : WA)
  /-- EEDIT_NEW: Queues an entity creation. (R294) -/
  | eeditNew (x : WA)
  /-- EEDIT_DEL: Queues an entity destruction. (R294) -/
  | eeditDel (x : WA)
  /-- EEDIT_ADD: Queues adding a component type. (R294) -/
  | eeditAdd (x : WA)
  /-- EEDIT_REM: Queues removing a component type. (R294) -/
  | eeditRem (x : WA)
  /-- EVIEW_OPEN: Opens a shadow view pinning the published generation. (R295) -/
  | eviewOpen (x : WA)
  /-- EVIEW_CLOSE: Closes the team's shadow view. (R295) -/
  | eviewClose (x : WA)
  /-- KEYS: Releases and parks the thread until a keystone publishes. (R296) -/
  | keys (x : SA)
  /-- KEYS_WIDE: 96-bit guarded KEYS. (R296) -/
  | keysWide (x : WA)
  /-- ECOL: Returns a column address for a range word and a type up to 255. (R292) -/
  | ecol (x : SI)
  /-- ECOL_WIDE: 96-bit ECOL with a literal type up to 1,023. (R292) -/
  | ecolWide (x : WA)
  /-- SPROJ: Projects a Gaussian into a splat and emits its tile keys. (R299) -/
  | sproj (x : WA)
  /-- SBIN: Queues a binner request to sort keys and build the tile table. (R300) -/
  | sbin (x : WA)
  /-- SBLEND_FWD: Composites one pixel front to back. (R301) -/
  | sblendFwd (x : WA)
  /-- SBLEND_BACK: Replays one pixel back to front and reduces gradients. (R302) -/
  | sblendBack (x : WA)
  /-- SCTL_SET: Writes a team splat register. (R297) -/
  | sctlSet (x : WA)
  /-- SCTL_GET: Reads a team splat register. (R297) -/
  | sctlGet (x : WA)
  /-- GTICK_ADVANCE: The 1 GHz global tick count advances by one. (R3) -/
  | gtickAdvance 
  /-- ISSUE_GRANT: A free issue slot seeds and forms a wave that executes a span. (R146) -/
  | issueGrant (core : Nat) (slot : Nat)
  /-- REGROUP_EXECUTE: Once every live thread waits, the regroup unit re-sorts the team. (R154) -/
  | regroupExecute (team : Nat)
  /-- THREAD_EXITED: An EXITING thread's counters reach 0 and it becomes EXITED. (R139) -/
  | threadExited (th : Nat)
  /-- TEAM_RETIRE: The team retires once its exit release and CP work complete. (R139) -/
  | teamRetire (team : Nat)
  /-- GRID_RETIRE: The grid retires; its completion record and counter add are written. (R316) -/
  | gridRetire (grid : Nat)
  /-- SLEEP_WAKE: The view reaches a sleeper's tick and the R69 check is made. (R220) -/
  | sleepWake (th : Nat)
  /-- LOAD_REPLY: A load's data returns, registers are written and LD falls. (R234) -/
  | loadReply (req : Nat)
  /-- L2_SERVE_FILL: A home slice serves a fill and grants a read lease. (R48) -/
  | l2ServeFill (req : Nat)
  /-- L2_ACCEPT_WRITE: A home slice accepts a write and assigns its completion tick. (R53) -/
  | l2AcceptWrite (req : Nat)
  /-- ATOMIC_PERFORM: An atomic performs indivisibly at its home slice. (R125) -/
  | atomicPerform (req : Nat)
  /-- L1_EVICTION: The device evicts an L1 line, writing it back if dirty. (R46) -/
  | l1Eviction (core : Nat) (fn : Nat) (ctx : Nat) (va : Nat)
  /-- RELEASE_COMPLETE: A waiting release completes when GTICK reaches its target tick. (R120) -/
  | releaseComplete (th : Nat)
  /-- PAGE_WALK: A walker walks the page tables for a missed translation. (R23) -/
  | pageWalk (core : Nat) (fn : Nat) (ctx : Nat) (va : Dword)
  /-- TRANSLATION_EVICT: The device evicts a cached translation. (R35) -/
  | translationEvict (n : Nat)
  /-- LAYOUT_CACHE_REFETCH: An evicted layout record is refetched and checked. (R62) -/
  | layoutCacheRefetch (team : Nat) (h : Nat)
  /-- COLLECTOR_WINDOW_EXPIRY: A collector entry's window expires. (R65) -/
  | collectorWindowExpiry (core : Nat) (n : Nat)
  /-- COPY_START: A queued copy gets its lock entries and starts moving bytes. (R70) -/
  | copyStart (copy : Nat) (n : Nat)
  /-- COPY_COMPLETE: A copy completes, releases its locks and decrements CP. (R67) -/
  | copyComplete (copy : Nat)
  /-- COPY_FAULT_STOP: A copy stops at a translation fault with its progress offset. (R69) -/
  | copyFaultStop (copy : Nat)
  /-- METADATA_LINE_ARRIVE: A side-array line arrives in the cluster metadata cache. (R64) -/
  | metadataLineArrive (cluster : Nat) (entry : Nat)
  /-- HOST_TRANSLATION_RESPONSE: The host answers an ATS translation request. (R41) -/
  | hostTranslationResponse (req : Nat) (present : Bool)
  /-- PAGE_REQUEST_RESPONSE: The host answers a page request; waiters translate again or fault. (R41) -/
  | pageRequestResponse (req : Nat) (success : Bool)
  /-- HOST_TRANSLATION_TIMEOUT: No host response within 10,000,000 ticks raises PAGE_NOT_PRESENT. (R41) -/
  | hostTranslationTimeout (req : Nat)
  /-- HOST_INVALIDATION_REQUEST: A host invalidation request is completed after the shootdown conditions hold. (R41) -/
  | hostInvalidationRequest (fn : Nat) (ctx : Nat) (va : Nat) (len : Nat)
  /-- HOST_ACCESS_COMPLETION: A host-window access completes at the host. (R42) -/
  | hostAccessCompletion (req : Nat) (data : List Byte)
  /-- INBOUND_WRITE: A PCIe or Uttenlink write to device memory is accepted in arrival order. (R132) -/
  | inboundWrite (stream : Nat) (pa : Nat) (data : List Byte) (relaxed : Bool)
  /-- INBOUND_READ: A read from outside the device is served at L2. (R132) -/
  | inboundRead (pa : Nat) (len : Nat)
  /-- PEER_ACCESS_ARRIVAL: A peer access arrives and is checked against the tenant tag. (R359) -/
  | peerAccessArrival (tag : Dword) (stream : Nat) (relaxed : Bool) (pa : Nat) (x : Machine.Payload)
  /-- FLIT_CRC_RESEND: A flit whose CRC fails is resent. (R359) -/
  | flitCrcResend (port : Nat)
  /-- FLIT_LOST: A flit lost after retries poisons or faults its accesses. (R359) -/
  | flitLost (req : Nat)
  /-- XINV_GO: XINV_CTL GO starts a translation shootdown. (R37) -/
  | xinvGo (fn : Nat) (v : Word)
  /-- SHOOTDOWN_DONE: The shootdown's conditions hold; DONE and XINV_TICK are written. (R38) -/
  | shootdownDone (fn : Nat)
  /-- MIGRATE: MIG_CTL GO locks a page and starts the page copier. (R34) -/
  | migrate (fn : Nat) (v : Word)
  /-- MIGRATE_SWAP: After the copy, the new leaf is written, shot down and waiters released. (R34) -/
  | migrateSwap (fn : Nat)
  /-- GRANTCMD_GO: Sets a run of granule owner bytes or refuses. (R29) -/
  | grantcmdGo (v : Dword)
  /-- GRANTAB_WRITE: Moves the owner table, ignored while GRANTCMD.GO reads 1. (R29) -/
  | grantabWrite (v : Dword)
  /-- ACCDATA_READ: Reads an access counter, clearing it when CLR is set. (R33) -/
  | accdataRead 
  /-- L2SCRUB_GO: Scrubs one way of one slice and clears its fill history. (R59) -/
  | l2scrubGo (v : Word)
  /-- TAG_PARITY: A tag parity error kills the way's fill-history functions and scrubs it. (R59) -/
  | tagParity (slice : Nat) (way : Nat)
  /-- WDESC_BIND: A WDESC write with V = 1 validates and binds a world. (R90) -/
  | wdescBind (fn : Nat) (w : Nat) (v : Dword)
  /-- WDESC_UNBIND: A WDESC write with V = 0 unbinds an idle world. (R92) -/
  | wdescUnbind (fn : Nat) (w : Nat) (v : Dword)
  /-- WSTAT_RESUME: Resumes a keystone stopped at a fault. (R107) -/
  | wstatResume (fn : Nat) (w : Nat)
  /-- EDIT_QUEUE_ACCEPT: The world's edit queue accepts or refuses a thread's edit. (R101) -/
  | editQueueAccept (req : Nat)
  /-- WORLD_REPLY: The world table engine answers a query or lookup. (R291) -/
  | worldReply (req : Nat)
  /-- KEYSTONE_START: At its drain point a keystone runs phases 1 to 5. (R103) -/
  | keystoneStart (fn : Nat) (w : Nat)
  /-- KEYSTONE_PUBLISH: Publishes the new generation, writes the report and wakes waiters. (R103) -/
  | keystonePublish (fn : Nat) (w : Nat)
  /-- REDUCTION_SPILL: The reduction buffer spills entries to the launch's log. (R247) -/
  | reductionSpill (grid : Nat)
  /-- REDUCTION_FLUSH: At a reached flush point, the deterministic reductions are applied. (R127) -/
  | reductionFlush (grid : Nat)
  /-- REDUCTION_FLUSH_COMPLETE: The flush completes at GTICK ≥ its writes' Tw and waiters resume. (R127) -/
  | reductionFlushComplete (grid : Nat)
  /-- TILE_DIRECTORY_ACCEPT: The cluster tile directory accepts a tile instruction. (R77) -/
  | tileDirectoryAccept (req : Nat)
  /-- TILE_DELIVERY: A TLD's part is written into registers and TL falls. (R79) -/
  | tileDelivery (req : Nat)
  /-- TILE_PART_MOVE: The cluster moves a defined part among its stores. (R83) -/
  | tilePartMove (space : Nat) (name : Nat) (part : Nat) (place : Nat)
  /-- RESERVATION_ACCEPT: A matrix request enters the cluster reservation table. (R285) -/
  | reservationAccept (req : Nat)
  /-- MATRIX_PASS_GRANT: An engine cycle grants one pass to one ready entry. (R320) -/
  | matrixPassGrant (cluster : Nat)
  /-- DEFERRED_FAULT: An engine fault is raised at the issuing thread's next boundary. (R324) -/
  | deferredFault (req : Nat)
  /-- BINNER_SERVE: The binner serves a queued SBIN request. (R300) -/
  | binnerServe (cluster : Nat)
  /-- BINNER_PREEMPT: The merge tree writes its resume record on pre-emption. (R304) -/
  | binnerPreempt (cluster : Nat)
  /-- SPLAT_COMPLETE: SPROJ or SBLEND work completes and TL falls. (R303) -/
  | splatComplete (req : Nat)
  /-- DISPATCH_SLOT_REPLY: The peer fill-counter add returns the slot number. (R256) -/
  | dispatchSlotReply (req : Nat) (q : Nat)
  /-- DISPATCH_NOTIFY: The notification counter is added once the row writes reach Tw. (R131) -/
  | dispatchNotify (req : Nat)
  /-- DISPATCH_ACK: The peer's acknowledgement arrives and CP falls. (R256) -/
  | dispatchAck (req : Nat)
  /-- DCOMB_COMPLETE: A combine's output writes reach Tw and CP falls. (R257) -/
  | dcombComplete (req : Nat) (rows : List Byte)
  /-- COLL_RENDEZVOUS_START: All ranks have posted; descriptors are compared and the collective starts. (R259) -/
  | collRendezvousStart (req : Nat) (ranks : List RankData)
  /-- COLL_COMPLETE: DST writes reach Tw; CTR is incremented and CP falls. (R260) -/
  | collComplete (req : Nat)
  /-- CTRWAIT_REREAD: A write to the counter's line makes a CTR_WAIT thread re-read it. (R228) -/
  | ctrwaitReread (th : Nat)
  /-- QDESC_WRITE: A QDESC write reads the queue descriptor and resumes the queue. (R307) -/
  | qdescWrite (fn : Nat) (q : Nat) (v : Dword)
  /-- QDOOR_WRITE: A doorbell write sets a queue's tail. (R307) -/
  | qdoorWrite (fn : Nat) (q : Nat) (v : Dword)
  /-- QUEUE_SLOT_TAKE: A pending queue takes a free hardware slot. (R307) -/
  | queueSlotTake (q : Nat)
  /-- QUEUE_ENTRY_NOP: A NOP queue entry is consumed. (R307) -/
  | queueEntryNop (q : Nat)
  /-- QUEUE_ENTRY_LAUNCH: A LAUNCH queue entry submits a launch record. (R307) -/
  | queueEntryLaunch (q : Nat)
  /-- QUEUE_ENTRY_WAIT: A WAIT queue entry reads a counter against a threshold. (R307) -/
  | queueEntryWait (q : Nat)
  /-- QUEUE_WAIT_REREAD: A write to a WAIT counter's line makes the queue re-read it. (R307) -/
  | queueWaitReread (q : Nat)
  /-- QUEUE_ENTRY_ADD: An ADD queue entry releases and adds to a counter. (R307) -/
  | queueEntryAdd (q : Nat)
  /-- TEAM_PLACE: The launch unit places the next fitting team on a core. (R310) -/
  | teamPlace (core : Nat)
  /-- PLACEMENT_HOLD: After 100,000 ticks unplaced, later grids are held back. (R310) -/
  | placementHold 
  /-- LOGICAL_CORE_REMAP: A DET logical core moves to another physical core. (R312) -/
  | logicalCoreRemap (grid : Nat) (lc : Nat) (core : Nat)
  /-- TIME_SLICE_EXPIRY: The active context's TSLICE elapses. (R313) -/
  | timeSliceExpiry (core : Nat)
  /-- BANK_SWITCH: The core switches its active shadow bank in 96 cycles. (R313) -/
  | bankSwitch (core : Nat)
  /-- BANK_SAVE: A bank's context is saved to an image slot. (R332) -/
  | bankSave (core : Nat) (bank : Nat)
  /-- TEAM_SAVE: One waiting team is saved to free resources. (R314) -/
  | teamSave (team : Nat)
  /-- CONTEXT_RESTORE: A saved slot's teams are restored onto a core. (R333) -/
  | contextRestore (slot : Nat) (core : Nat)
  /-- TASK_COUNTER_REREAD: A write to a DEP counter's line re-checks task eligibility. (R318) -/
  | taskCounterReread (task : Nat)
  /-- TASK_TEAM_FORM: The cluster gathers eligible tasks into a task team. (R319) -/
  | taskTeamForm (cluster : Nat) (core : Nat)
  /-- TASK_GATHER_TIMEOUT: 1,024 ticks after the oldest became eligible, a task team is formed. (R319) -/
  | taskGatherTimeout (cluster : Nat) (core : Nat)
  /-- FAULT_RECORD_WRITE: A fault record is written into the ring when it has room. (R327) -/
  | faultRecordWrite (fn : Nat) (ctx : Nat)
  /-- SERVICE_RECORD_WRITE: A waiting service record is written when the ring frees. (R328) -/
  | serviceRecordWrite (fn : Nat) (ctx : Nat)
  /-- FSVC_RETRY: RETRY on a record: threads reissue or engine work continues. (R330) -/
  | fsvcRetry (fn : Nat)
  /-- FSVC_SKIP: SKIP on a record: threads pass the instruction or engine work is abandoned. (R330) -/
  | fsvcSkip (fn : Nat)
  /-- FSVC_KILL: KILL on a record kills the context. (R330) -/
  | fsvcKill (fn : Nat)
  /-- FSVC_ANSWER: ANSWER on a service record loads answers or refuses the threads. (R330) -/
  | fsvcAnswer (fn : Nat)
  /-- VFKILL: Kills every context of a function. (R343) -/
  | vfkill (v : Word)
  /-- BREAKPOINT_HIT: A thread reaches an armed address breakpoint and stops. (R336) -/
  | breakpointHit (th : Nat)
  /-- DBG_RELEASE: Returns matched stopped threads to their prior states. (R338) -/
  | dbgRelease (fn : Nat) (v : Word)
  /-- DBG_STEP: Issues one instruction for threads stopped at DBGPC. (R338) -/
  | dbgStep (fn : Nat) (v : Word)
  /-- DBG_HALT: Stops every matched live thread. (R338) -/
  | dbgHalt (fn : Nat) (v : Word)
  /-- DBG_SAVE: Saves the context on every core that holds it. (R338) -/
  | dbgSave (fn : Nat) (v : Word)
  /-- WATCHDOG: A team's idle count reaches WDOG and its threads fault. (R339) -/
  | watchdog (team : Nat)
  /-- UNCORRECTABLE_ERROR: An uncorrectable soft error is contained by poison or kill. (R340) -/
  | uncorrectableError (what : Struck)
  /-- CORRECTABLE_ERROR: A correctable error is corrected silently. (R340) -/
  | correctableError 
  /-- PCMD_ASSIGN: Assigns or unassigns a cluster after scrubbing it. (R345) -/
  | pcmdAssign (v : Word)
  /-- PCMD_LEND: Lends a margin cluster to a borrower. (R345) -/
  | pcmdLend (v : Word)
  /-- PCMD_REVOKE: Starts revocation of a lent cluster. (R346) -/
  | pcmdRevoke (v : Word)
  /-- AUTO_REVOKE: The device revokes after the owner waits 100,000 ticks. (R346) -/
  | autoRevoke (cluster : Nat)
  /-- REVOKE_SAVE_DEADLINE: Borrower contexts unsaved at T0 + 140,000 are killed. (R346) -/
  | revokeSaveDeadline (cluster : Nat)
  /-- REVOCATION_SCRUB: After saves, the cluster is scrubbed and returned home. (R346) -/
  | revocationScrub (cluster : Nat)
  /-- FLOOR_WRITE: Writes a function's bandwidth floor, ignored if the sum exceeds the cap. (R347) -/
  | floorWrite (f : Nat) (v : Dword)
  /-- BANDWIDTH_WINDOW: A 10,000-tick arbitration window ends and shares restart. (R348) -/
  | bandwidthWindow 
  /-- VFSCHED_RUN: Runs a function again and stops its STOLEN count. (R349) -/
  | vfschedRun (v : Word)
  /-- VFSCHED_DESCHEDULE: Deschedules a function; its threads stop issuing. (R349) -/
  | vfschedDeschedule (v : Word)
  /-- DECKROLE_GO: Starts a deck role change with its drain step, or refuses. (R353) -/
  | deckroleGo (v : Word)
  /-- DECK_FLUSH: Flush step of a role change after the drain ends. (R353) -/
  | deckFlush 
  /-- DECK_REENUMERATE: Re-enumerates the deck, changes backing and clock ceiling. (R353) -/
  | deckReenumerate 
  /-- SUPPLY_SAG_STRETCH: A supply droop stretches a deck's core clock. (R354) -/
  | supplySagStretch (deck : Nat)
  /-- POWER_LIMIT_STEP: The base die lowers a deck clock by 25 MHz to hold package power. (R354) -/
  | powerLimitStep (deck : Nat)
  /-- SNAPCTL_GO: Arms a snapshot at the next cut, or refuses. (R355) -/
  | snapctlGo (fn : Nat) (v : Word)
  /-- SNAPSHOT_CUT: At the cut tick, region pages become copy-on-write. (R355) -/
  | snapshotCut (fn : Nat)
  /-- COW_PAGE_COPY: A held write proceeds after its page is copied aside. (R355) -/
  | cowPageCopy (req : Nat)
  /-- SNAPSHOT_STREAM_DONE: The writer finishes shards, writes the manifest and sets DONE. (R356) -/
  | snapshotStreamDone (fn : Nat)
  /-- RESTCTL_GO: Loads the newest usable checkpoint step into regions. (R357) -/
  | restctlGo (fn : Nat) (v : Word)
  /-- PERFSEL_WRITE: Selects an event and clears the counter. (R351) -/
  | perfselWrite (fn : Nat) (n : Nat) (v : Dword)
  /-- PERFCNT_WRITE: Sets a performance counter's value. (R351) -/
  | perfcntWrite (fn : Nat) (n : Nat) (v : Dword)
  /-- ATTREQ_WRITE: Requests a signed attestation report. (R360) -/
  | attreqWrite (fn : Nat) (v : Dword)
  /-- FIRMWARE_IMAGE_LOAD: The service controller verifies a firmware image before running it. (R360) -/
  | firmwareImageLoad (image : List Byte) (rollback : Nat) (sig : List Byte)
  /-- ENCOWN_WRITE: Assigns an encoder and scrubs it, ignored while a job is in hand. (R361) -/
  | encownWrite (e : Nat) (v : Word)
  /-- ENCDOOR_WRITE: Sets an encoder ring tail, submitting jobs. (R361) -/
  | encdoorWrite (fn : Nat) (e : Nat) (v : Dword)
  /-- ENCODER_JOB_COMPLETE: An encoder job writes its bitstream and result and increments CTR. (R361) -/
  | encoderJobComplete (e : Nat)
  /-- ENCODER_PAUSE: An encoder pauses at a 64-line row while its owner is descheduled. (R361) -/
  | encoderPause (e : Nat)
  /-- REGISTER_WRITE: A write to a device register without its own row. (R7) -/
  | registerWrite (fn : Nat) (priv : Bool) (off : Nat) (v : Dword)
  /-- DEVICE_RESET: Reset of the device, after which registers take their reset values, every function runs, the eviction horizons are 0 and the service controller sets the deck roles. (R349) -/
  | deviceReset 
  /-- GRANTCMD_DONE: The owner-byte write of a GRANTCMD command finishes and every cached copy is dropped, so GO reads 0 and later walks bind to the new owners. (R29) -/
  | grantcmdDone 
  /-- L2SCRUB_DONE: A scrub started through L2SCRUB finishes its write-backs and invalidations, and GO reads 0. (R59) -/
  | l2scrubDone 
  /-- SUPPLY_RECOVERY: A deck's supply recovers from a droop and the clock stretching ends. (R354) -/
  | supplyRecovery (deck : Nat)
  /-- PEER_WRITE_ACKNOWLEDGEMENT: A peer-window write's completion reaches the issuing device over Uttenlink, so a system-scope release covering it can complete. (R359) -/
  | peerWriteAcknowledgement (req : Nat)
  deriving DecidableEq, Repr

end Sys2Proof
end

