-- ==== Sys2Proof/WellFormed.lean ====
section
/-! DEFINITION. When the fields of an instruction are what the encoding admits: the FN values of Tables 9.4 to 9.7 (R192, otherwise ILLEGAL_OPCODE) and the field rules of R181 to R189 and of each instruction's entry (otherwise RESERVED_FIELD). -/
namespace Sys2Proof

/-- A register pair is named by its even register (R181). -/
def evenReg {n : Nat} (r : BitVec n) : Bool := !r.getLsbD 0
/-- A field naming a predicate or convergence register uses its three low bits (R181). -/
def lowThree {n : Nat} (r : BitVec n) : Bool := r.toNat < 8

/-- The high bits of a literal under R187; a type the table does not list admits none. -/
def litOk (ty : ElemType) (w : Word) : Bool :=
  match ty with
  | .i32 | .n32 | .f32 | .f64 | .i64 => true
  | .i16 => w == (w.setWidth 16).signExtend 32
  | .n16 | .f16 | .bf16 => w.toNat < 2 ^ 16
  | .i8 => w == (w.setWidth 8).signExtend 32
  | .n8 | .e4m3 | .e5m2 => w.toNat < 2 ^ 8
  | _ => false

/-- A 64-bit element type. -/
def ElemType.wide (t : ElemType) : Bool := t.width == 64
/-- Selector values that R173 allows for a type. -/
def selOk (t : ElemType) (s : BitVec 3) : Bool :=
  match t.width with
  | 16 => s.toNat < 2
  | 8 => s.toNat < 4
  | 4 => true
  | _ => s == 0
/-- The scope codes of R119. -/
def scopeOk (s : BitVec 3) : Bool := s.toNat < 5
/-- The four formats of the floating vector instructions (R262). -/
def vecFloat (t : ElemType) : Bool := t == .f64 || t == .f32 || t == .f16 || t == .bf16
/-- The element types of loads and stores (R193). -/
def memType (t : ElemType) : Bool := t.isInt || t == .f32 || t == .f64
/-- 32-bit element types of R193. -/
def wordType (t : ElemType) : Bool := t == .i32 || t == .n32 || t == .f32

/-- R188 with the entry's accepted TYPE, RND, SAT and SC/SEL, and the guard rule of R185. -/
def Ext.accepts (x : Ext) (ty : ElemType → Bool) (rnd sat sel : Bool) : Bool :=
  x.g.ok && ty x.ty && (if rnd then x.rnd.toNat < 5 else x.rnd == 0) && (sat || !x.sat) && sel
/-- The common case: TYPE 0000, RND 000, SAT 0 and SC/SEL 0. -/
def Ext.plain (x : Ext) : Bool := x.accepts (· == .i32) false false (x.sel == 0)
/-- C and CS unused (R181). -/
def Ext.noC (x : Ext) : Bool := x.c == 0 && !x.cs
/-- C names a v or s register, a pair where asked (R184). -/
def Ext.opC (x : Ext) (pair : Bool) : Bool := !(x.cs && x.c.getLsbD 6) && !(pair && x.c.getLsbD 0)

/-- B of the SA layout names a v or s register (Table 9.1). -/
def SA.opB (x : SA) : Bool := !(x.bs && x.b.getLsbD 6)
/-- B unused. -/
def SA.noB (x : SA) : Bool := x.b == 0 && !x.bs
/-- Every format field 0. -/
def SA.zero (x : SA) : Bool := x.d == 0 && x.a == 0 && x.noB

/-- B operand of a wide form: a literal of the given format, sB or vB (R187, R201). Without a literal word 2 is 0. -/
def WA.opB (x : WA) (ty : ElemType) (pair : Bool) : Bool :=
  if x.x.lit then x.b == 0 && !x.bs && litOk ty x.x.w2
  else !(x.bs && x.b.getLsbD 6) && !(pair && x.b.getLsbD 0) && x.x.w2 == 0
/-- No B operand: B, BS and LIT are 0 (R187). -/
def WA.noB (x : WA) : Bool := x.b == 0 && !x.bs && !x.x.lit
/-- B operand v or s where word 2 carries fields. -/
def WA.regB (x : WA) : Bool := !x.x.lit && !(x.bs && x.b.getLsbD 6)
/-- Word 2 carries only its low n bits. -/
def Ext.low (x : Ext) (n : Nat) : Bool := x.w2.toNat < 2 ^ n
/-- Word 2 of a collective is its convergence register (R184). -/
def Ext.conv (x : Ext) : Bool := x.low 3
/-- B of a world or splat instruction that names a predicate in word 2 [2:0] (R290): with a literal, word 2 is both. -/
def WA.worldB (x : WA) : Bool :=
  x.x.low 3 && (if x.x.lit then x.b == 0 && !x.bs else !(x.bs && x.b.getLsbD 6))
/-- Every field but guard 0 in an SA layout wide form. -/
def WA.zero (x : WA) : Bool := x.d == 0 && x.a == 0 && x.noB && x.x.noC && x.x.plain && x.x.w2 == 0

/-- B of the SS layout wide form: literal or sB (R211). -/
def WS.opB (x : WS) (pair : Bool) : Bool :=
  if x.x.lit then x.b == 0 else x.x.w2 == 0 && !(pair && x.b.getLsbD 0)
/-- No literal and word 2 zero. -/
def WS.bare (x : WS) : Bool := !x.x.lit && x.x.w2 == 0

/-- Offset of the SM layout: with LIT the literal replaces OFF8 (R187). -/
def WM.off? (x : WM) : Bool := if x.x.lit then x.off == 0 else x.x.w2 == 0

/-- Load and store FN of R193: count above 1 needs a 32-bit type. -/
def memFnOk (fn : BitVec 8) (ty : ElemType) (order : Bool) : Bool :=
  fn.toNat < 16 && (bitsOf fn.toNat 3 2 == 0 || (order && bitsOf fn.toNat 3 2 == 1)) &&
  (bitsOf fn.toNat 1 0 == 0 || wordType ty)
/-- Register count of FN[1:0]. -/
def countOf (fn : BitVec 8) : Nat := bitsOf fn.toNat 1 0 + 1
/-- Registers of the data operand: a pair counts 2. -/
def dataRegs (fn : BitVec 8) (ty : ElemType) : Nat := if ty.wide then 2 else countOf fn
/-- Fields of a global or scratchpad access (R193, R233). -/
def WM.access (x : WM) (pairA : Bool) (limit : Nat) : Bool :=
  x.x.accepts memType false false
    (if bitsOf x.x.fn.toNat 3 2 == 1 then scopeOk x.x.sel else x.x.sel == 0) &&
  x.x.noC && x.off? && !(pairA && x.a.getLsbD 0) && !(x.x.ty.wide && x.d.getLsbD 0) &&
  x.d.toNat + dataRegs x.x.fn x.x.ty ≤ limit && (limit == 128 || x.a.toNat < 64)

/-- Atomic FN of R194 with operations below n. -/
def atomFnOk (fn : BitVec 8) (n : Nat) (order : Bool) : Bool :=
  bitsOf fn.toNat 3 0 < n && fn.toNat < 64 && (order || fn.toNat < 16)
/-- Integer types of the atomics. -/
def atomInt (t : ElemType) : Bool := t == .i32 || t == .n32 || t == .i64
/-- SC/SEL of an atomic: a scope where an order is given (R194). -/
def Ext.atomSel (x : Ext) : Bool := if x.fn.toNat < 16 then x.sel == 0 else scopeOk x.sel

/-- SPRD and SPWR indices of Table 10.5 (R192). -/
def sprIndex (k : Nat) : Bool := k == 0 || k == 2 || (4 ≤ k && k ≤ 0x17)
/-- The writable special registers: FLAGS, MODE, LEASE. -/
def sprWritable (k : Nat) : Bool := k == 0x11 || k == 0x12 || k == 0x13
/-- SPRD destination: a pair for GTICK and STOLEN (R212). -/
def sprdOk (k : Nat) (d : BitVec 7) : Bool := sprIndex k && (k ≥ 4 || evenReg d)

/-- Operand TYPE with accumulator code FN[3:0] (Table 13.1). -/
def mmaPair (t : ElemType) (acc : Nat) : Bool :=
  match t with
  | .f64 => acc == 6
  | .f32 | .f16 | .bf16 | .e4m3 | .e5m2 | .e2m1 => acc == 7
  | .i8 | .n8 => acc == 0
  | .i4x => acc == 7 || acc == 0
  | _ => false
/-- Fragment width W of Table 13.1. -/
def mmaW (t : ElemType) : Nat :=
  match t with
  | .f64 => 16 | .f32 => 32 | .f16 | .bf16 => 16 | _ => 8
/-- Types that take MX scales (R284). -/
def mxType (t : ElemType) : Bool := t == .e4m3 || t == .e5m2 || t == .e2m1 || t == .i4x
/-- FN of MMA and MMAS (Table 9.7). -/
def mmaFnOk (fn : BitVec 8) : Bool :=
  let a := bitsOf fn.toNat 3 0
  (a == 0 || a == 6 || a == 7) && fn.toNat < 64
/-- What MMA and MMAS share (R282, R284). -/
def WA.mmaCommon (x : WA) : Bool :=
  let acc := bitsOf x.x.fn.toNat 3 0
  x.x.accepts (fun t => mmaPair t acc && (!x.x.fn.getLsbD 5 || mxType t)) (acc != 0) (acc == 0) (x.x.sel == 0) &&
  x.d.toNat < 16 && !x.bs && !x.x.lit && !x.x.cs && !x.x.w2.getLsbD 3
/-- TYPE of AMOV FROM and INTO (R287). -/
def amovType (t : ElemType) : Bool := t == .f64 || t == .f32 || t == .i32
/-- W′ of AMOV (R287). -/
def amovW (t : ElemType) : Nat := if t == .f64 then 16 else 32
/-- Word 2 of AMOV: N in [2:0], T in [7:4] (R287). -/
def Ext.amov (x : Ext) : Bool := x.low 8 && !x.w2.getLsbD 3
/-- Word 2 of the tile instructions (R289): reserved bits, and [9:6] = 0 when the name is an s register. -/
def Ext.tileName (x : Ext) : Bool :=
  bitsOf x.w2.toNat 14 10 == 0 && (!x.w2.getLsbD 15 || bitsOf x.w2.toNat 9 6 == 0)

/-- The conversions CVT admits (R271, R172). -/
def cvtPair (dst src : ElemType) : Bool :=
  dst != .i4x && src != .i4x && (src != .e8m0 || dst == .f32 || dst == .f64)
/-- A type of at most 16 bits other than I4X. -/
def narrowType (t : ElemType) : Bool := t.width ≤ 16 && t != .i4x
/-- Source TYPE code carried in FN[3:0]. -/
def srcType (fn : BitVec 8) : ElemType := ElemType.ofCode (fn.setWidth 4)
/-- Formats of MXSC (R278). -/
def mxFmt (t : ElemType) : Bool := t == .e4m3 || t == .e5m2 || t == .e2m1

/-- Table 12.4: functions, types and fields of VRED. -/
def vredOk (x : Ext) : Bool :=
  match x.fn.toNat with
  | 0 => x.accepts (fun t => vecFloat t || atomInt t) (vecFloat x.ty) true (selOk x.ty x.sel)
  | 1 | 2 => x.accepts (fun t => vecFloat t || atomInt t) false false (selOk x.ty x.sel)
  | 6 => x.accepts vecFloat false true (selOk x.ty x.sel)
  | _ => x.accepts atomInt false false (selOk x.ty x.sel)

/-- The FN the instruction carries is assigned to its major and stands for this row (Tables 9.4 to 9.7). Otherwise ILLEGAL_OPCODE (R191 item 5). -/
def Instr.fnOk : Instr → Bool
  | .uadd x => x.fn == 0
  | .usub x => x.fn == 0
  | .umul x => x.fn == 0
  | .ulog x => x.fn.toNat < 5
  | .ushift x => x.fn.toNat < 4
  | .umov x => x.fn == 0
  | .uadd64 x => x.fn == 0
  | .plog x => x.fn.toNat < 7
  | .claim x => x.fn == 0
  | .claimw x => x.fn == 1
  | .give x => x.fn == 2
  | .barSync x => x.fn == 0
  | .barArrive x => x.fn == 1
  | .barWait x => x.fn == 2
  | .trapSvc x => x.fn == 0
  | .trapBrk x => x.fn == 1
  | .fenceRel x => x.fn == 0
  | .fenceAcq x => x.fn == 1
  | .fenceAr x => x.fn == 2
  | .fspc x => x.b.toNat < 7
  | .nopWide x => x.x.fn == 0
  | .movWide x => x.x.fn == 0
  | .moviWide x => x.x.fn == 0
  | .iaddWide x => x.x.fn == 0
  | .isubWide x => x.x.fn == 0
  | .imulWide x => x.x.fn == 0
  | .imulhWide x => x.x.fn.toNat < 2
  | .imad x => x.x.fn == 0
  | .iminWide x => x.x.fn.toNat < 2
  | .imaxWide x => x.x.fn.toNat < 2
  | .iabsWide x => x.x.fn == 0
  | .andWide x => x.x.fn == 0
  | .orWide x => x.x.fn == 0
  | .xorWide x => x.x.fn == 0
  | .notWide x => x.x.fn == 0
  | .shlWide x => x.x.fn == 0
  | .shrWide x => x.x.fn == 0
  | .sarWide x => x.x.fn == 0
  | .rotWide x => x.x.fn == 0
  | .popcWide x => x.x.fn == 0
  | .clzWide x => x.x.fn == 0
  | .brevWide x => x.x.fn == 0
  | .bfx x => x.x.fn.toNat < 2
  | .bfi x => x.x.fn == 0
  | .sel x => x.x.fn == 0
  | .icmp x => x.x.fn.toNat < 10
  | .iaddc x => x.x.fn.toNat < 2
  | .add64Wide x => x.x.fn == 0
  | .sub64Wide x => x.x.fn == 0
  | .lea64 x => x.x.fn == 0
  | .cmp64 x => x.x.fn.toNat < 10
  | .uaddWide x => x.x.fn == 0
  | .usubWide x => x.x.fn == 0
  | .umulWide x => x.x.fn == 0
  | .ulogWide x => x.x.fn.toNat < 5
  | .ushiftWide x => x.x.fn.toNat < 4
  | .umovWide x => x.x.fn == 0
  | .ucmp x => x.x.fn.toNat < 10
  | .uadd64Wide x => x.x.fn == 0
  | .uread x => x.x.fn == 0
  | .uconstWide x => x.x.fn == 0
  | .plogWide x => x.x.fn.toNat < 7
  | .sprdWide x => x.x.fn == 0
  | .spwrWide x => x.x.fn == 0
  | .shfl x => x.x.fn.toNat < 4
  | .vote x => x.x.fn.toNat < 3
  | .vred x => x.x.fn.toNat < 7
  | .brWide x => x.x.fn.toNat < 2
  | .bruWide x => x.x.fn.toNat < 2
  | .jmpWide x => x.x.fn == 0
  | .callWide x => x.x.fn.toNat < 2
  | .retWide x => x.x.fn == 0
  | .exitWide x => x.x.fn == 0
  | .yieldWide x => x.x.fn == 0
  | .cinit x => x.x.fn == 0
  | .csign x => x.x.fn == 0
  | .regroupWide x => x.x.fn == 0
  | .claimWide x => x.x.fn == 0
  | .claimwWide x => x.x.fn == 1
  | .giveWide x => x.x.fn == 2
  | .waitcWide x => x.x.fn == 0
  | .sleeptWide x => x.x.fn == 0
  | .barSyncWide x => x.x.fn == 0
  | .barArriveWide x => x.x.fn == 1
  | .barWaitWide x => x.x.fn == 2
  | .trapSvcWide x => x.x.fn == 0
  | .trapBrkWide x => x.x.fn == 1
  | .launch x => x.x.fn == 0
  | .spawn x => x.x.fn == 1
  | .ctradd x => x.x.fn == 2
  | .ctrwait x => x.x.fn == 3
  | .resume x => x.x.fn == 4
  | .ldWide x => memFnOk x.x.fn x.x.ty true
  | .stWide x => memFnOk x.x.fn x.x.ty true
  | .ldsWide x => memFnOk x.x.fn x.x.ty false
  | .stsWide x => memFnOk x.x.fn x.x.ty false
  | .lduWide x => memFnOk x.x.fn x.x.ty true
  | .stuWide x => memFnOk x.x.fn x.x.ty true
  | .ldt x => memFnOk x.x.fn x.x.ty false
  | .stt x => memFnOk x.x.fn x.x.ty false
  | .gldWide x => memFnOk x.x.fn x.x.ty false
  | .gstWide x => memFnOk x.x.fn x.x.ty false
  | .prefWide x => x.x.fn == 0
  | .atom x => atomFnOk x.x.fn 7 true
  | .atomc x => atomFnOk x.x.fn 1 true
  | .atomf x => atomFnOk x.x.fn 3 true
  | .red x => atomFnOk x.x.fn 6 false
  | .aflushWide x => x.x.fn == 0
  | .fenceRelWide x => x.x.fn == 0
  | .fenceAcqWide x => x.x.fn == 1
  | .fenceArWide x => x.x.fn == 2
  | .invl1Wide x => x.x.fn == 0
  | .pinWide x => x.x.fn == 0
  | .unpinWide x => x.x.fn == 0
  | .hbindWide x => x.x.fn == 0
  | .hqry x => x.x.fn == 0
  | .cpy x => x.x.fn.toNat < 4
  | .cpyqWide x => x.x.fn == 0
  | .dsend x => x.x.fn == 0
  | .dcomb x => x.x.fn.toNat < 2
  | .coll x => x.x.fn.toNat < 5
  | .faddWide x => x.x.fn == 0
  | .fsubWide x => x.x.fn == 0
  | .fmulWide x => x.x.fn == 0
  | .ffma x => x.x.fn == 0
  | .fminmaxWide x => x.x.fn.toNat < 4
  | .fcmp x => x.x.fn.toNat < 8
  | .fspcWide x => x.x.fn.toNat < 7
  | .fclassWide x => x.x.fn == 0
  | .cvt x => x.x.fn.toNat < 16
  | .pack x => x.x.fn.toNat < 16
  | .unpk x => x.x.fn.toNat < 16
  | .ffmap x => x.x.fn == 0
  | .qdot x => x.x.fn == 0
  | .idot x => x.x.fn == 0
  | .mxsc x => x.x.fn == 0
  | .qntRow x => x.x.fn == 0
  | .qntBlock x => x.x.fn == 1
  | .mma x => mmaFnOk x.x.fn
  | .mmas x => mmaFnOk x.x.fn
  | .amovFrom x => x.x.fn == 0
  | .amovInto x => x.x.fn == 1
  | .amovZero x => x.x.fn == 2
  | .tdef x => x.x.fn == 0
  | .tld x => x.x.fn == 0
  | .tkill x => x.x.fn == 0
  | .eqry x => x.x.fn == 0
  | .elook x => x.x.fn == 0
  | .eeditNew x => x.x.fn == 0
  | .eeditDel x => x.x.fn == 1
  | .eeditAdd x => x.x.fn == 2
  | .eeditRem x => x.x.fn == 3
  | .eviewOpen x => x.x.fn == 0
  | .eviewClose x => x.x.fn == 1
  | .keysWide x => x.x.fn == 0
  | .ecolWide x => x.x.fn == 0
  | .sproj x => x.x.fn == 0
  | .sbin x => x.x.fn == 0
  | .sblendFwd x => x.x.fn == 0
  | .sblendBack x => x.x.fn == 1
  | .sctlSet x => x.x.fn == 0
  | .sctlGet x => x.x.fn == 1
  | .movl x => x.x.fn == 0
  | _ => true

/-- The fields are what the entry admits. Otherwise RESERVED_FIELD (R191 item 6). -/
def Instr.fieldsOk : Instr → Bool
  | .nop x => x.zero
  | .mov x => x.a == 0 && x.opB
  | .iabs x => x.noB
  | .not x => x.noB
  | .shl x => x.imm.toNat < 32
  | .shr x => x.imm.toNat < 32
  | .sar x => x.imm.toNat < 32
  | .rot x => x.imm.toNat < 32
  | .popc x => x.noB
  | .clz x => x.noB
  | .brev x => x.noB
  | .add64 x => evenReg x.d && evenReg x.a && x.opB
  | .sub64 x => evenReg x.d && evenReg x.a && x.opB
  | .ulog x => (x.fn != 4 || x.b == 0)
  | .umov x => x.b == 0
  | .uadd64 x => evenReg x.d && evenReg x.a && evenReg x.b
  | .uconst x => evenReg x.d && x.a == 0 && x.imm.toNat < 64
  | .plog x => lowThree x.d && lowThree x.a && lowThree x.b && (x.fn.toNat < 5 || x.b == 0)
  | .sprd x => x.a == 0 && sprdOk x.imm.toNat x.d
  | .spwr x => x.d == 0 && sprWritable x.imm.toNat
  | .br x => x.g.ok
  | .bru x => x.g.ok
  | .jmp x => x.d == 0 && evenReg x.a && x.noB
  | .call x => x.g.ok
  | .ret x => x.d == 0 && evenReg x.a && x.noB
  | .exit x => x.zero
  | .yield x => x.zero
  | .regroup x => x.d == 0 && 1 ≤ x.imm.toNat && x.imm.toNat ≤ 128
  | .claim x => lowThree x.d && x.a == 0 && x.b == 0
  | .claimw x => x.d == 0 && x.a == 0 && x.b == 0
  | .give x => x.d == 0 && x.a == 0 && x.b == 0
  | .sleept x => x.d == 0 && evenReg x.a && x.noB
  | .barSync x => x.d.toNat < 16 && x.b.toNat < 2 && (x.b == 1 || x.a == 0)
  | .barArrive x => x.d.toNat < 16 && x.b.toNat < 2 && (x.b == 1 || x.a == 0)
  | .barWait x => x.d.toNat < 16 && x.a == 0 && x.b == 0
  | .trapSvc x => x.a.toNat % 8 == 0 && x.a.toNat ≤ 56 && x.b == 0
  | .trapBrk x => x.a == 0 && x.b == 0
  | .ld x => evenReg x.a
  | .st x => evenReg x.a
  | .ldu x => evenReg x.a && x.a.toNat < 64 && x.d.toNat < 64
  | .stu x => evenReg x.a && x.a.toNat < 64 && x.d.toNat < 64
  | .gld x => evenReg x.a
  | .gst x => evenReg x.a
  | .pref x => x.d == 0 && evenReg x.a
  | .aflush x => x.zero
  | .fenceRel x => x.d.toNat < 5 && x.a == 0 && x.b == 0
  | .fenceAcq x => x.d.toNat < 5 && x.a == 0 && x.b == 0
  | .fenceAr x => x.d.toNat < 5 && x.a == 0 && x.b == 0
  | .invl1 x => x.d == 0 && evenReg x.a
  | .pin x => x.d == 0 && evenReg x.a
  | .unpin x => x.d == 0 && evenReg x.a
  | .hbind x => x.d.toNat < 16 && evenReg x.a && x.noB
  | .cpyq x => evenReg x.d && x.a == 0 && x.noB
  | .fadd x => x.opB
  | .fsub x => x.opB
  | .fmul x => x.opB
  | .fminmax x => x.opB
  | .fspc x => !x.bs
  | .fclass x => x.noB
  | .keys x => x.zero
  | .ecol x => evenReg x.d
  | .nopWide x => x.zero
  | .movWide x => x.a == 0 && x.opB .i32 false && x.x.plain && x.x.noC
  | .moviWide x => x.a == 0 && x.x.lit && x.opB .i32 false && x.x.plain && x.x.noC
  | .iaddWide x => x.x.accepts (fun t => t == .i32 || t == .n32) false true (x.x.sel == 0) && x.x.noC && x.opB x.x.ty false
  | .isubWide x => x.x.accepts (fun t => t == .i32 || t == .n32) false true (x.x.sel == 0) && x.x.noC && x.opB x.x.ty false
  | .imulWide x => x.x.accepts (fun t => t == .i32 || t == .n32) false true (x.x.sel == 0) && x.x.noC && x.opB x.x.ty false
  | .imulhWide x => x.x.plain && x.x.noC && x.opB .i32 false
  | .imad x => x.x.accepts (fun t => t == .i32 || t == .n32) false true (x.x.sel == 0) && x.x.opC false && x.opB x.x.ty false
  | .iminWide x => x.x.plain && x.x.noC && x.opB .i32 false
  | .imaxWide x => x.x.plain && x.x.noC && x.opB .i32 false
  | .iabsWide x => x.x.accepts (fun t => t == .i32) false true (x.x.sel == 0) && x.x.noC && x.noB && x.x.w2 == 0
  | .andWide x => x.x.plain && x.x.noC && x.opB .i32 false
  | .orWide x => x.x.plain && x.x.noC && x.opB .i32 false
  | .xorWide x => x.x.plain && x.x.noC && x.opB .i32 false
  | .notWide x => x.x.plain && x.x.noC && x.noB && x.x.w2 == 0
  | .shlWide x => x.x.plain && x.x.noC && x.opB .i32 false
  | .shrWide x => x.x.plain && x.x.noC && x.opB .i32 false
  | .sarWide x => x.x.plain && x.x.noC && x.opB .i32 false
  | .rotWide x => x.x.plain && x.x.noC && x.opB .i32 false
  | .popcWide x => x.x.plain && x.x.noC && x.noB && x.x.w2 == 0
  | .clzWide x => x.x.plain && x.x.noC && x.noB && x.x.w2 == 0
  | .brevWide x => x.x.plain && x.x.noC && x.noB && x.x.w2 == 0
  | .bfx x => x.x.plain && x.x.noC && x.opB .i32 false
  | .bfi x => x.x.plain && x.x.opC false && x.opB .i32 false
  | .sel x => x.x.plain && lowThree x.x.c && !x.x.cs && x.opB .i32 false
  | .icmp x => x.x.plain && x.x.noC && lowThree x.d && x.opB .i32 false
  | .iaddc x => x.x.plain && !x.x.cs && !x.x.c.getLsbD 3 && x.opB .i32 false
  | .add64Wide x => x.x.plain && x.x.noC && evenReg x.d && evenReg x.a && x.opB .i32 false
  | .sub64Wide x => x.x.plain && x.x.noC && evenReg x.d && evenReg x.a && x.opB .i32 false
  | .lea64 x => x.x.plain && evenReg x.d && evenReg x.a && !x.x.cs && x.x.c.toNat < 16 && x.opB .i32 false
  | .cmp64 x => x.x.plain && x.x.noC && lowThree x.d && evenReg x.a && x.opB .i64 true
  | .uaddWide x => x.x.accepts (fun t => t == .i32 || t == .n32) false true (x.x.sel == 0) && x.x.noC && x.fn4 == 0 && x.opB false
  | .usubWide x => x.x.accepts (fun t => t == .i32 || t == .n32) false true (x.x.sel == 0) && x.x.noC && x.fn4 == 0 && x.opB false
  | .umulWide x => x.x.accepts (fun t => t == .i32 || t == .n32) false true (x.x.sel == 0) && x.x.noC && x.fn4 == 0 && x.opB false
  | .ulogWide x => x.x.plain && x.x.noC && x.fn4 == 0 && x.opB false && (x.x.fn != 4 || (x.b == 0 && !x.x.lit))
  | .ushiftWide x => x.x.plain && x.x.noC && x.fn4 == 0 && x.opB false
  | .umovWide x => x.x.plain && x.x.noC && x.fn4 == 0 && x.b == 0 && x.opB false && (!x.x.lit || x.a == 0)
  | .ucmp x => x.x.plain && x.x.noC && x.fn4 == 0 && lowThree x.d && x.opB false
  | .uadd64Wide x => x.x.plain && x.x.noC && x.fn4 == 0 && evenReg x.d && evenReg x.a && x.opB true
  | .uread x => x.x.plain && x.x.noC && x.d.toNat < 64 && x.noB && x.x.w2 == 0
  | .uconstWide x => x.x.plain && x.x.noC && evenReg x.d && x.a == 0 && x.noB && x.x.low 6
  | .plogWide x => x.x.plain && x.x.noC && x.fn4 == 0 && x.bare && lowThree x.d && lowThree x.a && lowThree x.b && (x.x.fn.toNat < 5 || x.b == 0)
  | .sprdWide x => x.x.plain && x.x.noC && x.a == 0 && x.noB && x.x.low 8 && sprdOk x.x.w2.toNat x.d
  | .spwrWide x => x.x.plain && x.x.noC && x.d == 0 && x.noB && x.x.low 8 && sprWritable x.x.w2.toNat
  | .shfl x => x.x.plain && x.x.noC && x.regB && x.x.conv
  | .vote x => x.x.plain && x.x.noC && x.noB && x.x.conv && lowThree x.a && (x.x.fn == 2 || lowThree x.d)
  | .vred x => vredOk x.x && x.x.noC && x.noB && x.x.conv && !(x.x.ty.wide && (x.a.getLsbD 0 || x.d.getLsbD 0))
  | .brWide x => x.x.plain && x.g.ok && x.x.g == Guard.always && x.off == 0 && (if x.x.fn == 0 then x.x.lit && x.x.noC else !x.x.lit && x.x.w2 == 0 && !x.x.cs && evenReg x.x.c)
  | .bruWide x => x.x.plain && x.g.ok && x.x.g == Guard.always && x.off == 0 && (if x.x.fn == 0 then x.x.lit && x.x.noC else !x.x.lit && x.x.w2 == 0 && !x.x.cs && evenReg x.x.c)
  | .jmpWide x => x.x.plain && x.x.noC && x.d == 0 && evenReg x.a && x.noB && x.x.w2 == 0
  | .callWide x => x.x.plain && x.g.ok && x.x.g == Guard.always && !x.x.lit && x.x.low 7 && evenReg x.x.w2 && (if x.x.fn == 0 then x.x.noC else x.off == 0 && !x.x.cs && evenReg x.x.c)
  | .retWide x => x.x.plain && x.x.noC && x.d == 0 && evenReg x.a && x.noB && x.x.w2 == 0
  | .exitWide x => x.zero
  | .yieldWide x => x.zero
  | .cinit x => x.x.plain && x.x.noC && lowThree x.d && x.opB .i32 false
  | .csign x => x.x.plain && x.x.noC && x.d == 0 && x.a == 0 && x.noB && x.x.conv
  | .regroupWide x => x.x.plain && x.x.noC && x.d == 0 && x.noB && 1 ≤ x.x.w2.toNat && x.x.w2.toNat ≤ 128
  | .claimWide x => x.x.plain && x.x.noC && x.fn4 == 0 && x.bare && lowThree x.d && x.a == 0 && x.b == 0
  | .claimwWide x => x.x.plain && x.x.noC && x.fn4 == 0 && x.bare && x.d == 0 && x.a == 0 && x.b == 0
  | .giveWide x => x.x.plain && x.x.noC && x.fn4 == 0 && x.bare && x.d == 0 && x.a == 0 && x.b == 0
  | .waitcWide x => x.x.plain && x.x.noC && x.low == 0 && !x.x.lit && x.x.low 24
  | .sleeptWide x => x.x.plain && x.x.noC && x.d == 0 && evenReg x.a && x.noB && x.x.w2 == 0
  | .barSyncWide x => x.x.plain && x.x.noC && x.fn4 == 0 && x.d.toNat < 16 && x.b.toNat < 2 && (x.b == 1 || x.a == 0) && x.opB false
  | .barArriveWide x => x.x.plain && x.x.noC && x.fn4 == 0 && x.d.toNat < 16 && x.b.toNat < 2 && (x.b == 1 || x.a == 0) && x.opB false
  | .barWaitWide x => x.x.plain && x.x.noC && x.fn4 == 0 && x.bare && x.d.toNat < 16 && x.a == 0 && x.b == 0
  | .trapSvcWide x => x.x.plain && x.x.noC && x.fn4 == 0 && x.bare && x.a.toNat % 8 == 0 && x.a.toNat ≤ 56 && x.b == 0
  | .trapBrkWide x => x.x.plain && x.x.noC && x.fn4 == 0 && x.bare && x.a == 0 && x.b == 0
  | .launch x => x.x.plain && x.x.noC && x.d == 0 && evenReg x.a && x.noB && x.x.w2 == 0
  | .spawn x => x.x.plain && x.x.noC && lowThree x.d && evenReg x.a && x.noB && x.x.w2 == 0
  | .ctradd x => x.x.plain && x.x.noC && x.d == 0 && evenReg x.a && x.opB .i32 false
  | .ctrwait x => x.x.plain && x.x.noC && x.d == 0 && evenReg x.a && x.opB .i64 true
  | .resume x => x.x.plain && x.x.noC && x.d == 0 && evenReg x.a && x.opB .i32 false
  | .ldWide x => x.access true 128
  | .stWide x => x.access true 128
  | .ldsWide x => x.access false 128
  | .stsWide x => x.access false 128
  | .lduWide x => x.access true 64
  | .stuWide x => x.access true 64
  | .ldt x => x.x.plain && !x.x.lit && x.x.low 13 && x.d.toNat + countOf x.x.fn ≤ 128 && (if bitsOf x.x.w2.toNat 5 4 == 0 then x.b == 0 && !x.bs else !(x.bs && x.b.getLsbD 6)) && (if bitsOf x.x.w2.toNat 5 4 < 2 then x.x.noC else x.x.opC false) && (bitsOf x.x.w2.toNat 5 4 == 3 || bitsOf x.x.w2.toNat 12 6 == 0)
  | .stt x => x.x.plain && !x.x.lit && x.x.low 13 && x.d.toNat + countOf x.x.fn ≤ 128 && (if bitsOf x.x.w2.toNat 5 4 == 0 then x.b == 0 && !x.bs else !(x.bs && x.b.getLsbD 6)) && (if bitsOf x.x.w2.toNat 5 4 < 2 then x.x.noC else x.x.opC false) && (bitsOf x.x.w2.toNat 5 4 == 3 || bitsOf x.x.w2.toNat 12 6 == 0)
  | .gldWide x => x.access true 128
  | .gstWide x => x.access true 128
  | .prefWide x => x.x.plain && x.x.noC && x.d == 0 && evenReg x.a && x.off?
  | .atom x => x.x.accepts atomInt false false x.x.atomSel && x.x.noC && evenReg x.a && x.opB x.x.ty x.x.ty.wide && !(x.x.ty.wide && x.d.getLsbD 0)
  | .atomc x => x.x.accepts atomInt false false x.x.atomSel && x.x.opC x.x.ty.wide && evenReg x.a && x.opB x.x.ty x.x.ty.wide && !(x.x.ty.wide && x.d.getLsbD 0)
  | .atomf x => x.x.accepts vecFloat (bitsOf x.x.fn.toNat 3 0 == 0) false x.x.atomSel && x.x.noC && evenReg x.a && x.opB x.x.ty x.x.ty.wide && !(x.x.ty.wide && x.d.getLsbD 0)
  | .red x => x.x.accepts (fun t => atomInt t || (vecFloat t && bitsOf x.x.fn.toNat 3 0 < 3)) (vecFloat x.x.ty && x.x.fn == 0) false x.x.atomSel && x.x.noC && x.d == 0 && evenReg x.a && x.opB x.x.ty x.x.ty.wide
  | .aflushWide x => x.zero
  | .fenceRelWide x => x.x.accepts (· == .i32) false false (scopeOk x.x.sel) && x.x.noC && x.fn4 == 0 && x.bare && x.d == 0 && x.a == 0 && x.b == 0
  | .fenceAcqWide x => x.x.accepts (· == .i32) false false (scopeOk x.x.sel) && x.x.noC && x.fn4 == 0 && x.bare && x.d == 0 && x.a == 0 && x.b == 0
  | .fenceArWide x => x.x.accepts (· == .i32) false false (scopeOk x.x.sel) && x.x.noC && x.fn4 == 0 && x.bare && x.d == 0 && x.a == 0 && x.b == 0
  | .invl1Wide x => x.x.plain && x.x.noC && x.d == 0 && evenReg x.a && !x.x.lit && x.x.low 12
  | .pinWide x => x.x.plain && x.x.noC && x.d == 0 && evenReg x.a && !x.x.lit && x.x.low 12
  | .unpinWide x => x.x.plain && x.x.noC && x.d == 0 && evenReg x.a && !x.x.lit && x.x.low 12
  | .hbindWide x => x.x.plain && x.x.noC && x.d.toNat < 16 && evenReg x.a && x.noB && x.x.w2 == 0
  | .hqry x => x.x.plain && x.x.noC && x.a == 0 && x.noB && x.x.low 8
  | .cpy x => x.x.plain && evenReg x.d && !x.x.cs && (x.x.fn.toNat % 2 == 1 || evenReg x.a) && (x.x.fn.toNat ≥ 2 || evenReg x.x.c) && x.opB .i32 false
  | .cpyqWide x => x.x.plain && x.x.noC && evenReg x.d && x.a == 0 && x.noB && x.x.w2 == 0
  | .dsend x => x.x.plain && evenReg x.a && x.x.opC false && x.opB .i32 false
  | .dcomb x => x.x.accepts vecFloat true false (x.x.sel == 0) && x.d == 0 && evenReg x.a && !x.bs && !x.x.cs && !x.x.lit && x.x.low 7 && (x.x.fn == 1 || x.x.c == 0)
  | .coll x => x.x.plain && x.x.noC && x.d == 0 && evenReg x.a && x.noB && x.x.w2 == 0
  | .faddWide x => x.x.accepts vecFloat true true (selOk x.x.ty x.x.sel) && x.x.noC && x.opB x.x.ty x.x.ty.wide && !(x.x.ty.wide && (x.d.getLsbD 0 || x.a.getLsbD 0))
  | .fsubWide x => x.x.accepts vecFloat true true (selOk x.x.ty x.x.sel) && x.x.noC && x.opB x.x.ty x.x.ty.wide && !(x.x.ty.wide && (x.d.getLsbD 0 || x.a.getLsbD 0))
  | .fmulWide x => x.x.accepts vecFloat true true (selOk x.x.ty x.x.sel) && x.x.noC && x.opB x.x.ty x.x.ty.wide && !(x.x.ty.wide && (x.d.getLsbD 0 || x.a.getLsbD 0))
  | .ffma x => x.x.accepts vecFloat true true (selOk x.x.ty x.x.sel) && x.x.opC x.x.ty.wide && x.opB x.x.ty x.x.ty.wide && !(x.x.ty.wide && (x.d.getLsbD 0 || x.a.getLsbD 0))
  | .fminmaxWide x => x.x.accepts vecFloat false false (selOk x.x.ty x.x.sel) && x.x.noC && x.opB x.x.ty x.x.ty.wide && !(x.x.ty.wide && (x.d.getLsbD 0 || x.a.getLsbD 0))
  | .fcmp x => x.x.accepts vecFloat false false (selOk x.x.ty x.x.sel) && x.x.noC && lowThree x.d && x.opB x.x.ty x.x.ty.wide && !(x.x.ty.wide && x.a.getLsbD 0)
  | .fspcWide x => x.x.accepts (fun t => t == .f32 || t == .f16 || (t == .f64 && x.x.fn.toNat < 3)) false true (selOk x.x.ty x.x.sel) && x.x.noC && x.noB && x.x.w2 == 0 && !(x.x.ty.wide && (x.d.getLsbD 0 || x.a.getLsbD 0))
  | .fclassWide x => x.x.accepts (fun t => t.isFloat && t != .e8m0) false false (selOk x.x.ty x.x.sel) && x.x.noC && x.noB && x.x.w2 == 0 && !(x.x.ty.wide && x.a.getLsbD 0)
  | .cvt x => x.x.accepts (fun t => cvtPair t (srcType x.x.fn)) true true (selOk x.x.ty x.x.sel) && x.x.noC && x.noB && x.x.low 3 && selOk (srcType x.x.fn) (x.x.w2.setWidth 3) && !(x.x.ty.wide && x.d.getLsbD 0) && !((srcType x.x.fn).wide && x.a.getLsbD 0)
  | .pack x => x.x.accepts (fun t => narrowType t && (srcType x.x.fn == t || (srcType x.x.fn).width ≥ 32)) true true (selOk x.x.ty x.x.sel && !x.x.sel.getLsbD 0) && x.x.noC && x.opB (srcType x.x.fn) (srcType x.x.fn).wide && !((srcType x.x.fn).wide && x.a.getLsbD 0)
  | .unpk x => x.x.accepts (fun t => narrowType (srcType x.x.fn) && (t.width ≥ 32 || t == srcType x.x.fn) && (srcType x.x.fn != .e8m0 || t == .f32 || t == .f64)) true true (selOk (srcType x.x.fn) x.x.sel && !x.x.sel.getLsbD 0) && x.x.noC && x.noB && x.x.w2 == 0 && !(x.x.ty.wide && x.d.getLsbD 0) && x.d.toNat + (if x.x.ty.wide then 4 else 2) ≤ 128
  | .ffmap x => x.x.accepts (fun t => t == .f16 || t == .bf16) true true (x.x.sel == 0) && x.x.opC false && x.opB x.x.ty false
  | .qdot x => x.x.accepts mxFmt true true (x.x.sel == 0) && x.x.opC false && x.opB x.x.ty false
  | .idot x => x.x.accepts (fun t => t == .i8 || t == .n8 || t == .i16 || t == .n16 || t == .i4x) false true (x.x.sel == 0) && x.x.opC false && x.opB x.x.ty false
  | .mxsc x => x.x.accepts mxFmt false false (selOk x.x.ty x.x.sel) && !x.x.cs && x.noB && x.x.low 6 && !x.x.w2.getLsbD 3
  | .qntRow x => x.x.accepts (fun t => mxFmt t || t == .i8) true true (selOk x.x.ty x.x.sel) && x.x.noC && x.opB .f32 false
  | .qntBlock x => x.x.accepts mxType false false (x.x.sel == 0) && !x.x.cs && x.noB && x.x.low 2 && x.a.toNat ≤ 96 && x.d.toNat + x.x.ty.width ≤ 128
  | .mma x => x.mmaCommon && x.x.low 24 && (if x.x.fn.getLsbD 4 then evenReg x.x.c else x.x.c == 0 && bitsOf x.x.w2.toNat 7 4 == 0) && (x.x.fn.getLsbD 5 || bitsOf x.x.w2.toNat 23 8 == 0) && x.a.toNat + mmaW x.x.ty ≤ 128 && x.b.toNat + mmaW x.x.ty ≤ 128
  | .mmas x => x.mmaCommon && x.x.low 28 && x.x.c == 0 && evenReg x.a && evenReg x.b && (x.x.fn.getLsbD 5 || bitsOf x.x.w2.toNat 27 12 == 0)
  | .amovFrom x => x.x.accepts amovType false false (x.x.sel == 0) && x.x.noC && x.a == 0 && x.noB && x.x.amov && x.d.toNat + amovW x.x.ty ≤ 128
  | .amovInto x => x.x.accepts amovType false false (x.x.sel == 0) && x.x.noC && x.d == 0 && x.noB && x.x.amov && x.a.toNat + amovW x.x.ty ≤ 128
  | .amovZero x => x.x.plain && x.x.noC && x.d == 0 && x.a == 0 && x.noB && x.x.amov
  | .tdef x => x.x.plain && x.x.noC && x.d == 0 && !x.bs && !x.x.lit && x.x.tileName
  | .tld x => x.x.plain && x.x.noC && x.a == 0 && !x.bs && !x.x.lit && x.x.tileName
  | .tkill x => x.x.plain && x.x.noC && x.d == 0 && x.a == 0 && x.noB && x.x.low 16 && x.x.tileName
  | .eqry x => x.x.plain && x.x.noC && evenReg x.d && evenReg x.a && x.worldB
  | .elook x => x.x.plain && x.x.noC && evenReg x.d && evenReg x.a && x.worldB
  | .eeditNew x => x.x.plain && x.x.noC && x.d == 0 && evenReg x.a && evenReg x.b && !x.bs && !x.x.lit && x.x.low 3
  | .eeditDel x => x.x.plain && x.x.noC && x.d == 0 && evenReg x.a && x.noB && x.x.low 3
  | .eeditAdd x => x.x.plain && x.x.noC && x.d == 0 && evenReg x.a && x.worldB
  | .eeditRem x => x.x.plain && x.x.noC && x.d == 0 && evenReg x.a && x.worldB
  | .eviewOpen x => x.x.plain && x.x.noC && x.d == 0 && x.a == 0 && x.noB && x.x.low 3
  | .eviewClose x => x.x.plain && x.x.noC && x.d == 0 && x.a == 0 && x.noB && x.x.low 3
  | .keysWide x => x.zero
  | .ecolWide x => x.x.plain && x.x.noC && evenReg x.d && x.x.lit && x.b == 0 && !x.bs && x.x.low 10
  | .sproj x => x.x.plain && x.x.noC && evenReg x.a && x.worldB
  | .sbin x => x.x.plain && x.x.noC && x.d == 0 && x.a == 0 && x.noB && x.x.low 3
  | .sblendFwd x => x.x.plain && x.x.noC && x.opB .i32 false && x.x.w2 == 0
  | .sblendBack x => x.x.plain && x.x.noC && x.d == 0 && x.opB .i32 false && x.x.w2 == 0
  | .sctlSet x => x.x.plain && x.x.noC && x.d == 0 && x.noB && x.x.w2.toNat < 3 && (x.x.w2 != 0 || evenReg x.a)
  | .sctlGet x => x.x.plain && x.x.noC && x.a == 0 && x.noB && x.x.w2.toNat < 4 && (x.x.w2 != 0 || evenReg x.d)
  | .movl x => evenReg x.d && x.low == 0 && !x.x.lit && x.x.w2 == 0 && x.x.plain && x.x.noC
  | _ => true

/-- Both checks: the instructions that the encoder writes and the decoder gives back. -/
def Instr.wf (i : Instr) : Bool := i.fnOk && i.fieldsOk

end Sys2Proof
end

