-- ==== Sys2Proof/Machine/Flags.lean ====
section
/-! DEFINITION. Floating formats, flags and the one rounding rule (spec/08_number_formats.md R163 to R170). A finite value is a sign, a natural mantissa and a power of two; every operation is exact up to its one rounding. -/
namespace Sys2Proof.Machine

/-- The five sticky flags of Table 8.4: NX UF OF DZ NV, from bit 4 down. -/
abbrev Flags := BitVec 5
/-- Invalid (Table 8.4). -/
def flagNV : Flags := 1
/-- Division by zero (Table 8.4). -/
def flagDZ : Flags := 2
/-- Overflow (Table 8.4). -/
def flagOF : Flags := 4
/-- Underflow (Table 8.4). -/
def flagUF : Flags := 8
/-- Inexact (Table 8.4). -/
def flagNX : Flags := 16
/-- A flag set when a condition holds. -/
def flagIf (c : Bool) (f : Flags) : Flags := if c then f else 0

/-- A number read from a format: NaN (signalling or not), infinity, or (−1)^neg × m × 2^e. -/
inductive FVal where
  | nan (signalling : Bool)
  | inf (neg : Bool)
  | fin (neg : Bool) (m : Nat) (e : Int)
  deriving DecidableEq, Repr

/-- Mantissa bits, bias and exponent-field bits (Table 8.1). -/
structure Format where
  man : Nat
  bias : Nat
  exp : Nat
  deriving DecidableEq, Repr

/-- The formats of Table 8.1; E8M0 and the integers are handled apart. -/
def formatOf (t : ElemType) : Format :=
  match t with
  | .f64 => ⟨52, 1023, 11⟩
  | .f16 => ⟨10, 15, 5⟩
  | .bf16 => ⟨7, 127, 8⟩
  | .e5m2 => ⟨2, 15, 5⟩
  | .e4m3 => ⟨3, 7, 4⟩
  | .e2m1 => ⟨1, 1, 2⟩
  | _ => ⟨23, 127, 8⟩

/-- The formats that have an infinity (Table 8.1). -/
def hasInf (t : ElemType) : Bool := t == .f64 || t == .f32 || t == .f16 || t == .bf16 || t == .e5m2
/-- Largest finite mantissa as an integer of man + 1 bits (Table 8.1). -/
def maxMant (t : ElemType) : Nat := if t == .e4m3 then 14 else 2 ^ ((formatOf t).man + 1) - 1
/-- Power of two of the largest finite value's last mantissa bit. -/
def maxQuantum (t : ElemType) : Int :=
  let f := formatOf t
  let top := if hasInf t then 2 ^ f.exp - 2 else 2 ^ f.exp - 1
  (top : Int) - f.bias - f.man
/-- Power of two of the smallest subnormal. -/
def minQuantum (t : ElemType) : Int := 1 - ((formatOf t).bias : Int) - (formatOf t).man

/-- Canonical NaN bits (Table 8.2); a format without NaN has none and gives 0. -/
def canonNaN (t : ElemType) : Nat :=
  match t with
  | .f64 => 0x7FF8000000000000 | .f32 => 0x7FC00000 | .f16 => 0x7E00 | .bf16 => 0x7FC0
  | .e5m2 => 0x7E | .e4m3 => 0x7F | .e8m0 => 0xFF | _ => 0
/-- Infinity's bits. -/
def infBits (t : ElemType) (neg : Bool) : Nat :=
  let f := formatOf t
  (2 ^ f.exp - 1) * 2 ^ f.man + (if neg then 2 ^ (f.exp + f.man) else 0)
/-- The largest finite value's bits (Table 8.1). -/
def maxBits (t : ElemType) (neg : Bool) : Nat :=
  let f := formatOf t
  let top := if hasInf t then 2 ^ f.exp - 2 else 2 ^ f.exp - 1
  top * 2 ^ f.man + (maxMant t - 2 ^ f.man) + (if neg then 2 ^ (f.exp + f.man) else 0)
/-- A signed zero's bits. -/
def zeroBits (t : ElemType) (neg : Bool) : Nat := if neg then 2 ^ ((formatOf t).exp + (formatOf t).man) else 0

/-- The number that bits of a floating format stand for (R163, R164). -/
def unpack (t : ElemType) (x : Nat) : FVal :=
  if t == .e8m0 then (if x == 0xFF then .nan false else .fin false 1 ((x : Int) - 127))
  else
    let f := formatOf t
    let m := x % 2 ^ f.man
    let e := x / 2 ^ f.man % 2 ^ f.exp
    let neg := x / 2 ^ (f.man + f.exp) % 2 == 1
    if hasInf t && e == 2 ^ f.exp - 1 then
      (if m == 0 then .inf neg else .nan (m < 2 ^ (f.man - 1)))
    else if t == .e4m3 && e == 15 && m == 7 then .nan false
    else if e == 0 then .fin neg m (minQuantum t)
    else .fin neg (m + 2 ^ f.man) ((e : Int) - f.bias - f.man)

/-- Number of significant bits of a natural number. -/
def bitLen (m : Nat) : Nat := if m = 0 then 0 else m.log2 + 1

/-- Rounds m / 2^s to a natural number under RND (Table 8.3); the second part says whether it was inexact. -/
def roundShift (rnd : Nat) (neg : Bool) (m s : Nat) : Nat × Bool :=
  let n := m / 2 ^ s
  let r := m % 2 ^ s
  let up :=
    match rnd with
    | 0 => decide (2 ^ s < 2 * r) || (2 * r == 2 ^ s && n % 2 == 1)
    | 1 => false
    | 2 => neg && r != 0
    | 3 => !neg && r != 0
    | _ => decide (2 ^ s ≤ 2 * r) && r != 0
  (n + (if up then 1 else 0), r != 0)

/-- Rounds m × 2^e to a multiple of 2^q. -/
def roundQuantum (rnd : Nat) (neg : Bool) (m : Nat) (e q : Int) : Nat × Bool :=
  if q ≤ e then (m * 2 ^ (e - q).toNat, false) else roundShift rnd neg m (q - e).toNat

/-- What an overflow gives under RND (R168). -/
def overflowBits (t : ElemType) (rnd : Nat) (neg : Bool) : Nat :=
  let toInf := rnd == 0 || rnd == 4 || (rnd == 2 && neg) || (rnd == 3 && !neg)
  if hasInf t && toInf then infBits t neg else maxBits t neg

/-- round(x, RND, format) of a finite x = (−1)^neg × m × 2^e, with its flags (R167, R168). -/
def roundTo (t : ElemType) (rnd : Nat) (neg : Bool) (m : Nat) (e : Int) : Nat × Flags :=
  if m = 0 then (zeroBits t neg, 0)
  else
    let f := formatOf t
    let p := f.man + 1
    let qu := e + bitLen m - p
    let q := max qu (minQuantum t)
    let (n, inexact) := roundQuantum rnd neg m e q
    if q > maxQuantum t || (q == maxQuantum t && n > maxMant t) then
      (overflowBits t rnd neg, flagOF ||| flagNX)
    else
      let (nu, _) := roundQuantum rnd neg m e qu
      let tiny := qu < minQuantum t && !(qu + 1 == minQuantum t && nu == 2 ^ p)
      let bits :=
        if n < 2 ^ f.man then n
        else if n == 2 ^ p then ((q + 1 + f.man + f.bias).toNat) * 2 ^ f.man
        else ((q + f.man + f.bias).toNat) * 2 ^ f.man + (n - 2 ^ f.man)
      (bits + zeroBits t neg, flagIf inexact flagNX ||| flagIf (tiny && inexact) flagUF)

/-- sat() on a floating result (R169): an infinity becomes the largest finite value of its sign. -/
def satBits (t : ElemType) (x : Nat) : Nat :=
  match unpack t x with
  | .inf neg => maxBits t neg
  | _ => x

/-- Rounds any value into a format, with SAT; a NaN becomes canonical. -/
def finish (t : ElemType) (rnd : Nat) (sat : Bool) (v : FVal) : Nat × Flags :=
  match v with
  | .nan _ => (canonNaN t, 0)
  | .inf neg => ((if sat then maxBits t neg else infBits t neg), 0)
  | .fin neg m e =>
    let (b, fl) := roundTo t rnd neg m e
    ((if sat then satBits t b else b), fl)

end Sys2Proof.Machine
end

