-- ==== Sys2Proof/Machine/Float.lean ====
section
/-! DEFINITION. Floating arithmetic, compares, minimum and maximum, exact sums (spec/08_number_formats.md R165, R166, R177; spec/12_vector_arithmetic_instructions.md R263 to R268, R245). -/
namespace Sys2Proof.Machine

/-- Is it a NaN. -/
def FVal.isNaN : FVal → Bool
  | .nan _ => true
  | _ => false
/-- Is it a signalling NaN. -/
def FVal.isSignalling : FVal → Bool
  | .nan s => s
  | _ => false
/-- Is it a zero. -/
def FVal.isZero : FVal → Bool
  | .fin _ m _ => m == 0
  | _ => false
/-- Sign of a number. -/
def FVal.neg : FVal → Bool
  | .nan _ => false
  | .inf n => n
  | .fin n _ _ => n
/-- The same number with its sign flipped. -/
def FVal.negate : FVal → FVal
  | .nan s => .nan s
  | .inf n => .inf !n
  | .fin n m e => .fin (!n) m e
/-- Magnitude. -/
def FVal.abs : FVal → FVal
  | .nan s => .nan s
  | .inf _ => .inf false
  | .fin _ m e => .fin false m e

/-- A finite value as an integer multiple of 2^q, for q at or below its exponent. -/
def scaled (neg : Bool) (m : Nat) (e q : Int) : Int :=
  let x : Int := (m * 2 ^ (e - q).toNat : Nat)
  if neg then -x else x
/-- The finite value n × 2^q, with the sign to give an exact zero. -/
def ofScaled (n : Int) (q : Int) (zeroNeg : Bool) : FVal :=
  if n = 0 then .fin zeroNeg 0 q else .fin (decide (n < 0)) n.natAbs q

/-- Exact product (R165, R166). NaN stands for an invalid product too; the flag says which. -/
def mulV (a b : FVal) : FVal × Bool :=
  match a, b with
  | .nan _, _ | _, .nan _ => (.nan false, false)
  | .inf n, y => if y.isZero then (.nan false, true) else (.inf (n != y.neg), false)
  | x, .inf n => if x.isZero then (.nan false, true) else (.inf (n != x.neg), false)
  | .fin n m e, .fin n' m' e' => (.fin (n != n') (m * m') (e + e'), false)

/-- Exact sum of two values (R165, R166). -/
def addV (rnd : Nat) (a b : FVal) : FVal × Bool :=
  match a, b with
  | .nan _, _ | _, .nan _ => (.nan false, false)
  | .inf n, .inf n' => if n == n' then (.inf n, false) else (.nan false, true)
  | .inf n, _ => (.inf n, false)
  | _, .inf n => (.inf n, false)
  | .fin n m e, .fin n' m' e' =>
    let q := min e e'
    let zneg := if m == 0 && m' == 0 && n == n' then n else rnd == 2
    (ofScaled (scaled n m e q + scaled n' m' e' q) q zneg, false)

/-- Exact quotient, as a mantissa with the remainder folded into its last bit (R165, R166). DZ is reported by the caller's rule. -/
def divV (a b : FVal) : FVal × Flags :=
  match a, b with
  | .nan _, _ | _, .nan _ => (.nan false, 0)
  | .inf n, y => match y with
    | .inf _ => (.nan false, flagNV)
    | y => (.inf (n != y.neg), 0)
  | .fin n _ _, .inf n' => (.fin (n != n') 0 0, 0)
  | .fin n m e, .fin n' m' e' =>
    if m' = 0 then (if m = 0 then (.nan false, flagNV) else (.inf (n != n'), flagDZ))
    else
      let k := 70 + bitLen m'
      let q := m * 2 ^ k / m'
      let r := m * 2 ^ k % m'
      (.fin (n != n') (2 * q + (if r = 0 then 0 else 1)) (e - e' - k - 1), 0)

/-- NV when an operand is a signalling NaN (R165). -/
def sigFlag (vs : List FVal) : Flags := flagIf (vs.any FVal.isSignalling) flagNV

/-- FADD, FSUB (with b negated), of one element (R265). -/
def fAdd (t : ElemType) (rnd : Nat) (sat : Bool) (a b : FVal) : Nat × Flags :=
  let (v, inv) := addV rnd a b
  let (r, fl) := finish t rnd sat v
  (r, fl ||| flagIf inv flagNV ||| sigFlag [a, b])
/-- FMUL of one element (R265). -/
def fMul (t : ElemType) (rnd : Nat) (sat : Bool) (a b : FVal) : Nat × Flags :=
  let (v, inv) := mulV a b
  let (r, fl) := finish t rnd sat v
  (r, fl ||| flagIf inv flagNV ||| sigFlag [a, b])
/-- FFMA of one element: one rounding; 0 × ∞ is invalid even with a quiet NaN c (R265). -/
def fFma (t : ElemType) (rnd : Nat) (sat : Bool) (a b c : FVal) : Nat × Flags :=
  let (p, inv) := mulV a b
  let (v, inv') := addV rnd p c
  let (r, fl) := finish t rnd sat v
  (r, fl ||| flagIf (inv || inv') flagNV ||| sigFlag [a, b, c])
/-- One rounded quotient (R298). -/
def fDiv (t : ElemType) (rnd : Nat) (a b : FVal) : Nat × Flags :=
  let (v, f0) := divV a b
  let (r, fl) := finish t rnd false v
  (r, fl ||| f0 ||| sigFlag [a, b])

/-- Order of two numbers, −0 and +0 equal; none when unordered (R267). -/
def compareV (a b : FVal) : Option Ordering :=
  match a, b with
  | .nan _, _ | _, .nan _ => none
  | .inf n, .inf n' => some (if n == n' then .eq else if n then .lt else .gt)
  | .inf n, _ => some (if n then .lt else .gt)
  | _, .inf n => some (if n then .gt else .lt)
  | .fin n m e, .fin n' m' e' =>
    let q := min e e'
    some (compare (scaled n m e q) (scaled n' m' e' q))
/-- The order of R266: −0 below +0. -/
def lessV (a b : FVal) : Bool :=
  match compareV a b with
  | some .lt => true
  | some .eq => a.neg && !b.neg
  | _ => false

/-- FMINMAX of one element, on bits (R266): max picks the larger, propagating is MINIMUM and MAXIMUM. -/
def fMinMax (t : ElemType) (max propagating : Bool) (x y : Nat) : Nat × Flags :=
  let a := unpack t x
  let b := unpack t y
  let fl := sigFlag [a, b]
  match a.isNaN, b.isNaN with
  | true, true => (canonNaN t, fl)
  | true, false => ((if propagating then canonNaN t else y), fl)
  | false, true => ((if propagating then canonNaN t else x), fl)
  | false, false =>
    let xFirst := lessV a b
    ((if max then (if xFirst then y else x) else (if xFirst then x else y)), fl)

/-- FCMP conditions 0 to 7 (R267). -/
def fCmp (cc : Nat) (a b : FVal) : Bool × Flags :=
  let o := compareV a b
  let unord := o.isNone
  let r :=
    match cc with
    | 0 => o == some .eq
    | 1 => o != some .eq
    | 2 => o == some .lt
    | 3 => o == some .lt || o == some .eq
    | 4 => o == some .gt
    | 5 => o == some .gt || o == some .eq
    | 6 => unord
    | _ => !unord
  (r, sigFlag [a, b] ||| flagIf (unord && 2 ≤ cc && cc ≤ 5) flagNV)

/-- FCLASS mask of Table 12.2 (R268). -/
def fClass (t : ElemType) (x : Nat) : Nat :=
  match unpack t x with
  | .nan s => if s then 2 ^ 8 else 2 ^ 9
  | .inf n => if n then 1 else 2 ^ 7
  | .fin n m _ =>
    if m = 0 then (if n then 2 ^ 3 else 2 ^ 4)
    else if m < 2 ^ (formatOf t).man then (if n then 2 ^ 2 else 2 ^ 5)
    else (if n then 2 ^ 1 else 2 ^ 6)

/-- How an exact zero sum takes its sign: the matrix engine's +0 (R177), the exact instructions' rule (R263), IEEE 754 (R166). -/
inductive ZeroRule where
  | matrix | exact | ieee
  deriving DecidableEq, Repr

/-- Sign of an exact zero sum of the given terms. -/
def zeroSign (rule : ZeroRule) (rnd : Nat) (terms : List FVal) : Bool :=
  let allNeg := !terms.isEmpty && terms.all (fun v => v.isZero && v.neg)
  let allPos := terms.all (fun v => v.isZero && !v.neg)
  match rule with
  | .matrix => false
  | .exact => rnd == 2 || allNeg
  | .ieee => if allPos then false else allNeg || rnd == 2

/-- Exact integer multiple of 2^q of a finite term. -/
def termAt (q : Int) (v : FVal) : Int :=
  match v with
  | .fin n m e => scaled n m e q
  | _ => 0
/-- The least exponent among finite terms. -/
def leastExp (vs : List FVal) : Int :=
  vs.foldl (fun q v => match v with | .fin _ _ e => min q e | _ => q) 0

/-- The exact sum of terms, special values under R177 steps 1 and 2 (NV for a quiet NaN as well), then one rounding. -/
def exactSum (t : ElemType) (rnd : Nat) (sat : Bool) (rule : ZeroRule) (terms : List FVal) : Nat × Flags :=
  let posInf := terms.any (· == .inf false)
  let negInf := terms.any (· == .inf true)
  if terms.any FVal.isNaN || (posInf && negInf) then (canonNaN t, flagNV)
  else if posInf || negInf then finish t rnd sat (.inf negInf)
  else
    let q := leastExp terms
    let n := terms.foldl (fun s v => s + termAt q v) 0
    let (r, fl) := finish t rnd sat (ofScaled n q (zeroSign rule rnd terms))
    ((if rule == .matrix && r == zeroBits t true then 0 else r), fl)

/-- A term a × b of an exact sum: an invalid product is a NaN term (R177 step 1). -/
def productTerm (a b : FVal) : FVal := (mulV a b).1

end Sys2Proof.Machine
end

