-- ==== Sys2Proof/Machine/Convert.lean ====
section
/-! DEFINITION. Elements packed in registers, conversions, MX blocks and I4X (spec/08_number_formats.md R172 to R176; spec/12_vector_arithmetic_instructions.md R271 to R280). -/
namespace Sys2Proof.Machine

/-- Element i of width w of a register (R173). -/
def elemOf (w i : Nat) (r : Word) : Nat := r.toNat / 2 ^ (w * i) % 2 ^ w
/-- The register with element i of width w replaced (R173). -/
def setElem (w i : Nat) (r : Word) (x : Nat) : Word :=
  if w ≥ 32 then BitVec.ofNat 32 x
  else BitVec.ofNat 32 (r.toNat - elemOf w i r * 2 ^ (w * i) + (x % 2 ^ w) * 2 ^ (w * i))

/-- The integer that bits of an integer type stand for (R162). -/
def intOf (t : ElemType) (x : Nat) : Int :=
  let w := t.width
  let x := x % 2 ^ w
  if t.signed && x ≥ 2 ^ (w - 1) then (x : Int) - (2 ^ w : Nat) else x
/-- Least value of an integer type. -/
def intMin (t : ElemType) : Int := if t.signed then -((2 ^ (t.width - 1) : Nat) : Int) else 0
/-- Greatest value of an integer type. -/
def intMax (t : ElemType) : Int := if t.signed then (2 ^ (t.width - 1) : Nat) - 1 else (2 ^ t.width : Nat) - 1
/-- Clamp to an integer type's range (R162). -/
def clampInt (t : ElemType) (x : Int) : Int := max (intMin t) (min (intMax t) x)
/-- The low bits of an exact integer (R162). -/
def wrapInt (t : ElemType) (x : Int) : Nat := (x % (2 ^ t.width : Nat)).toNat
/-- Wrapping or saturating integer result (R162). -/
def intResult (t : ElemType) (sat : Bool) (x : Int) : Nat := wrapInt t (if sat then clampInt t x else x)

/-- A finite value rounded to an integer under RND; the second part says whether it was inexact. -/
def roundToInt (rnd : Nat) (neg : Bool) (m : Nat) (e : Int) : Int × Bool :=
  let (n, inexact) := roundQuantum rnd neg m e 0
  ((if neg then -(n : Int) else n), inexact)

/-- Float to integer (Table 8.5). -/
def floatToInt (dst : ElemType) (rnd : Nat) (v : FVal) : Nat × Flags :=
  match v with
  | .nan _ => (0, flagNV)
  | .inf neg => (wrapInt dst (if neg then intMin dst else intMax dst), flagNV)
  | .fin neg m e =>
    let (n, inexact) := roundToInt rnd neg m e
    let c := clampInt dst n
    (wrapInt dst c, if c != n then flagNV else flagIf inexact flagNX)

/-- Float to E8M0 (Table 8.5): to a power of two first, then the bounds. -/
def toE8M0 (rnd : Nat) (sat : Bool) (v : FVal) : Nat × Flags :=
  match v with
  | .fin false m e =>
    if m = 0 then (0xFF, flagNV)
    else
      let k : Int := e + bitLen m - 1
      let low := 2 ^ (bitLen m - 1)
      let r := m - low
      let up :=
        match rnd with
        | 0 => decide (2 * r > low) || (2 * r == low && (k + 127) % 2 != 0)
        | 1 | 2 => false
        | 3 => r != 0
        | _ => decide (2 * r ≥ low) && r != 0
      let y := k + 127 + (if up then 1 else 0)
      let nx := flagIf (r != 0) flagNX
      if y < 0 then (0, flagUF ||| flagNX)
      else if y > 254 then ((if sat then 0xFE else 0xFF), flagOF ||| flagNX)
      else (y.toNat, nx)
  | _ => (0xFF, flagNV)

/-- convert(x, dst, RND, SAT) from a floating value (Table 8.5). -/
def floatTo (dst : ElemType) (rnd : Nat) (sat : Bool) (v : FVal) : Nat × Flags :=
  if dst.isInt then floatToInt dst rnd v
  else
    match dst with
    | .e8m0 => toE8M0 rnd sat v
    | .e4m3 =>
      match v with
      | .nan s => (0x7F, flagIf s flagNV)
      | .inf neg => if sat then (maxBits .e4m3 neg, 0) else (0x7F, flagNV)
      | .fin neg m e => roundTo .e4m3 rnd neg m e
    | .e2m1 =>
      match v with
      | .nan _ => (0, flagNV)
      | .inf neg => (maxBits .e2m1 neg, flagOF ||| flagNX)
      | .fin neg m e => roundTo .e2m1 rnd neg m e
    | t =>
      let (r, fl) := finish t rnd sat v
      (r, fl ||| sigFlag [v])

/-- Integer to float (Table 8.5). DESIGN CHOICE (notes/assumptions 78): an integer of 0 or below, which E8M0 cannot hold, gives what a float of its value gives, 0xFF with NV. -/
def intToFloat (dst : ElemType) (rnd : Nat) (sat : Bool) (x : Int) : Nat × Flags :=
  floatTo dst rnd sat (.fin (decide (x < 0)) x.natAbs 0)

/-- Integer to integer (Table 8.5). -/
def intToInt (dst : ElemType) (sat : Bool) (x : Int) : Nat := intResult dst sat x

/-- convert(x, dst, RND, SAT) of source bits (Table 8.5). -/
def convert (dst src : ElemType) (rnd : Nat) (sat : Bool) (x : Nat) : Nat × Flags :=
  if src.isInt then
    (if dst.isInt then (intToInt dst sat (intOf src x), 0) else intToFloat dst rnd sat (intOf src x))
  else floatTo dst rnd sat (unpack src x)

/-- The value times 2^k, exact. -/
def FVal.scale (v : FVal) (k : Int) : FVal :=
  match v with
  | .fin n m e => .fin n m (e + k)
  | v => v
/-- floor(log2) of a positive finite value. -/
def floorLog2 (v : FVal) : Int :=
  match v with
  | .fin _ m e => e + bitLen m - 1
  | _ => 0
/-- Largest magnitude of a list of finite values. -/
def maxAbs (vs : List FVal) : FVal :=
  vs.foldl (fun a v => if lessV a v.abs then v.abs else a) (.fin false 0 0)
/-- emax of R175. -/
def mxEmax (fmt : ElemType) : Int := match fmt with | .e4m3 => 8 | .e5m2 => 15 | _ => 2

/-- One MX block: scale code, elements and flags (R175). -/
def mxBlock (fmt : ElemType) (vs : List FVal) : Nat × List Nat × Flags :=
  if vs.any (fun v => match v with | .fin .. => false | _ => true) then
    (0xFF, vs.map (fun _ => 0), flagNV)
  else if vs.all FVal.isZero then (0x7F, vs.map (fun v => zeroBits fmt v.neg), 0)
  else
    let x := min (max (floorLog2 (maxAbs vs) - mxEmax fmt) (-127)) 127
    let es := vs.map (fun v => floatTo fmt 0 true (v.scale (-x)))
    ((x + 127).toNat, es.map (·.1), es.foldl (fun f e => f ||| e.2) 0)

/-- A nibble of I4X as a number (R176). -/
def nibbleVal (n : Nat) : FVal := if n < 8 then .fin false n 0 else .fin true (16 - n) 0
/-- One I4X quad under R176, for a floating accumulator (NaN) or an I32 one (0 with NV). -/
def quadVals (i32 : Bool) (n0 n1 n2 n3 : Nat) : List FVal × Flags :=
  let one (n : Nat) : FVal × Flags :=
    if n == 8 then ((if i32 then .fin false 0 0 else .nan false), flagNV) else (nibbleVal n, 0)
  let (v3, f3) := one n3
  if n0 == 8 then
    let zero := FVal.fin false 0 0
    match unpack .e4m3 (n1 * 16 + n2) with
    | .fin s m e =>
      if i32 then
        let (k, inexact) := roundToInt 1 s m e
        ([.fin (decide (k < 0)) k.natAbs 0, zero, zero, v3], flagIf inexact flagNX ||| f3)
      else ([.fin s m e, zero, zero, v3], f3)
    | v => ([(if i32 then zero else v), zero, zero, v3], flagIf i32 flagNV ||| f3)
  else
    let (v0, _) := one n0
    let (v1, f1) := one n1
    let (v2, f2) := one n2
    ([v0, v1, v2, v3], f1 ||| f2 ||| f3)
/-- A row of I4X nibbles, read quad by quad (R176). -/
def i4xVals (i32 : Bool) : List Nat → List FVal × Flags
  | a :: b :: c :: d :: rest =>
    let (q, f) := quadVals i32 a b c d
    let (r, f') := i4xVals i32 rest
    (q ++ r, f ||| f')
  | _ => ([], 0)

/-- The values of a list of elements of one type, I4X under R176. -/
def elemVals (t : ElemType) (i32 : Bool) (xs : List Nat) : List FVal × Flags :=
  match t with
  | .i4x => i4xVals i32 xs
  | t => (xs.map (fun x => if t.isInt then .fin (decide (intOf t x < 0)) (intOf t x).natAbs 0 else unpack t x), 0)

/-- A clamped nibble: its value and whether the clamp moved it. -/
def clampNibble (n : Int) : Int × Bool := (max (-7) (min 7 n), decide (n < -7 ∨ 7 < n))
/-- A nibble's four bits. -/
def nibbleBits (n : Int) : Nat := if n < 0 then (16 + n).toNat else n.toNat
/-- One quad of QNT.BLOCK to I4X: nibbles and the OF flag (R280). -/
def qntQuad (us : List FVal) : List Nat × Flags :=
  let near (v : FVal) : Int := match v with | .fin s m e => (roundToInt 0 s m e).1 | _ => 0
  match us with
  | [u0, u1, u2, u3] =>
    let (c1, o1) := clampNibble (near u1)
    let (c2, o2) := clampNibble (near u2)
    let (c3, o3) := clampNibble (near u3)
    if (near u0).natAbs ≤ 7 then
      ([nibbleBits (near u0), nibbleBits c1, nibbleBits c2, nibbleBits c3], flagIf (o1 || o2 || o3) flagOF)
    else
      let (b, f) := floatTo .e4m3 0 true u0
      ([8, b / 16 % 16, b % 16, nibbleBits c3], flagIf o3 flagOF ||| (f &&& flagOF))
  | _ => ([], 0)
/-- The quads of a block. -/
def qntQuads : List FVal → List Nat × Flags
  | a :: b :: c :: d :: rest =>
    let (q, f) := qntQuad [a, b, c, d]
    let (r, f') := qntQuads rest
    (q ++ r, f ||| f')
  | _ => ([], 0)
/-- The values not at a quad's first position. -/
def offQuad : List FVal → List FVal
  | _ :: b :: c :: d :: rest => b :: c :: d :: offQuad rest
  | _ => []
/-- Do two finite values differ. -/
def differ (a b : FVal) : Bool := compareV a b != some .eq
/-- One block quantised to I4X (R280). -/
def i4xBlock (vs : List FVal) : Nat × List Nat × Flags :=
  if vs.any (fun v => match v with | .fin .. => false | _ => true) then (0xFF, vs.map (fun _ => 0), flagNV)
  else if vs.all FVal.isZero then (0x7F, vs.map (fun _ => 0), 0)
  else
    let m0 := maxAbs (offQuad vs)
    let m := if m0.isZero then maxAbs vs else m0
    let x := min (max (floorLog2 m - 2) (-127)) 127
    let (ns, fo) := qntQuads (vs.map (fun v => v.scale (-x)))
    let back := (i4xVals false ns).1.map (fun v => v.scale x)
    let nx := (back.zip vs).any (fun p => differ p.1 p.2)
    ((x + 127).toNat, ns, fo ||| flagIf nx flagNX)

/-- QNT.ROW of one value against a scale (R279). -/
def qntRowElem (fmt : ElemType) (rnd : Nat) (sat : Bool) (a b : FVal) : Nat × Flags :=
  let bad := (canonNaN fmt, flagNV)
  match b with
  | .fin false 0 _ => if a.isZero then (if fmt.isInt then 0 else zeroBits fmt a.neg, 0) else bad
  | .fin false _ _ =>
    let (q, _) := divV a b
    let (r, f) := floatTo fmt rnd sat (match a with | .nan s => .nan s | _ => q)
    (r, f)
  | _ => bad

/-- Exact integer sum with wrap or clamp and the I4X flags (R276, R177 step 5). -/
def intSum (sat : Bool) (c : Int) (terms : List FVal) : Nat × Flags :=
  let q := leastExp terms
  let s := terms.foldl (fun s v => s + termAt q v) (c * (2 ^ (-q).toNat : Nat))
  let (n, inexact) := roundToInt 0 (decide (s < 0)) s.natAbs q
  (intResult .i32 sat n, flagIf inexact flagNX)

end Sys2Proof.Machine
end

