-- ==== Sys2Proof/Decode.lean ====
section
/-! DEFINITION. From instruction words to instructions and back (spec/09_encoding_and_opcode_map.md R179 to R192). Decoding is total; every word that is not an instruction is refused by the name of its fault, in the order of R191. -/
namespace Sys2Proof

/-- What the words at a PC are (R191 items 2, 3, 5 and 6). -/
inductive Decoded where
  | instr (i : Instr)
  | illegalOpcode
  | safeDecode
  | reservedField
  deriving DecidableEq, Repr

/-- Extension word 1 (Table 9.2). -/
def Ext.word (x : Ext) : Word :=
  x.g.code ++ x.fn ++ x.c ++ BitVec.ofBool x.cs ++ x.ty.code ++ x.rnd ++ BitVec.ofBool x.sat ++ BitVec.ofBool x.lit ++ x.sel
/-- The fields of extension word 1 and word 2 (Table 9.2). -/
def Ext.ofWords (w w2 : Word) : Ext :=
  ⟨Guard.ofCode (w.extractLsb' 28 4), w.extractLsb' 20 8, w.extractLsb' 13 7, w.getLsbD 12,
   ElemType.ofCode (w.extractLsb' 8 4), w.extractLsb' 5 3, w.getLsbD 4, w.getLsbD 3, w.extractLsb' 0 3, w2⟩
/-- Word 0 of a 32-bit SA form (Table 9.1). -/
def SA.word (x : SA) (major : BitVec 7) : Word := 0#2 ++ BitVec.ofBool x.e ++ major ++ x.d ++ x.a ++ x.b ++ BitVec.ofBool x.bs
/-- The fields of a 32-bit SA form (Table 9.1). -/
def SA.ofWord (w : Word) : SA := ⟨w.getLsbD 29, w.extractLsb' 15 7, w.extractLsb' 8 7, w.extractLsb' 1 7, w.getLsbD 0⟩
/-- Word 0 of a 32-bit SI form (Table 9.1). -/
def SI.word (x : SI) (major : BitVec 7) : Word := 0#2 ++ BitVec.ofBool x.e ++ major ++ x.d ++ x.a ++ x.imm
/-- The fields of a 32-bit SI form (Table 9.1). -/
def SI.ofWord (w : Word) : SI := ⟨w.getLsbD 29, w.extractLsb' 15 7, w.extractLsb' 8 7, w.extractLsb' 0 8⟩
/-- Word 0 of a 32-bit SS form (Table 9.1). -/
def SS.word (x : SS) (major : BitVec 7) : Word := 0#2 ++ BitVec.ofBool x.e ++ major ++ x.d ++ x.a ++ x.b ++ x.fn
/-- The fields of a 32-bit SS form (Table 9.1). -/
def SS.ofWord (w : Word) : SS := ⟨w.getLsbD 29, w.extractLsb' 16 6, w.extractLsb' 10 6, w.extractLsb' 4 6, w.extractLsb' 0 4⟩
/-- Word 0 of a 32-bit SM form (Table 9.1). -/
def SM.word (x : SM) (major : BitVec 7) : Word := 0#2 ++ BitVec.ofBool x.e ++ major ++ x.d ++ x.a ++ x.off
/-- The fields of a 32-bit SM form (Table 9.1). -/
def SM.ofWord (w : Word) : SM := ⟨w.getLsbD 29, w.extractLsb' 15 7, w.extractLsb' 8 7, w.extractLsb' 0 8⟩
/-- Word 0 of a 32-bit SC form (Table 9.1). -/
def SC.word (x : SC) (major : BitVec 7) : Word := 0#2 ++ BitVec.ofBool x.e ++ major ++ x.ld ++ x.st ++ x.cp ++ x.tl
/-- The fields of a 32-bit SC form (Table 9.1). -/
def SC.ofWord (w : Word) : SC := ⟨w.getLsbD 29, w.extractLsb' 16 6, w.extractLsb' 10 6, w.extractLsb' 4 6, w.extractLsb' 0 4⟩
/-- Word 0 of a 32-bit SB form (Table 9.1). -/
def SB.word (x : SB) (major : BitVec 7) : Word := 0#2 ++ BitVec.ofBool x.e ++ major ++ x.g.code ++ x.off
/-- The fields of a 32-bit SB form (Table 9.1). -/
def SB.ofWord (w : Word) : SB := ⟨w.getLsbD 29, Guard.ofCode (w.extractLsb' 18 4), w.extractLsb' 0 18⟩
/-- The three words of a 96-bit WA form (R184). -/
def WA.words (x : WA) (major : BitVec 7) : List Word :=
  [1#2 ++ BitVec.ofBool x.e ++ major ++ x.d ++ x.a ++ x.b ++ BitVec.ofBool x.bs, x.x.word, x.x.w2]
/-- The fields of a 96-bit WA form (R184). -/
def WA.ofWords (w w1 w2 : Word) : WA := ⟨w.getLsbD 29, w.extractLsb' 15 7, w.extractLsb' 8 7, w.extractLsb' 1 7, w.getLsbD 0, Ext.ofWords w1 w2⟩
/-- The three words of a 96-bit WS form (R184). -/
def WS.words (x : WS) (major : BitVec 7) : List Word :=
  [1#2 ++ BitVec.ofBool x.e ++ major ++ x.d ++ x.a ++ x.b ++ x.fn4, x.x.word, x.x.w2]
/-- The fields of a 96-bit WS form (R184). -/
def WS.ofWords (w w1 w2 : Word) : WS := ⟨w.getLsbD 29, w.extractLsb' 16 6, w.extractLsb' 10 6, w.extractLsb' 4 6, w.extractLsb' 0 4, Ext.ofWords w1 w2⟩
/-- The three words of a 96-bit WB form (R184). -/
def WB.words (x : WB) (major : BitVec 7) : List Word :=
  [1#2 ++ BitVec.ofBool x.e ++ major ++ x.g.code ++ x.off, x.x.word, x.x.w2]
/-- The fields of a 96-bit WB form (R184). -/
def WB.ofWords (w w1 w2 : Word) : WB := ⟨w.getLsbD 29, Guard.ofCode (w.extractLsb' 18 4), w.extractLsb' 0 18, Ext.ofWords w1 w2⟩
/-- The three words of a 96-bit WM form (R184). -/
def WM.words (x : WM) (major : BitVec 7) : List Word :=
  [1#2 ++ BitVec.ofBool x.e ++ major ++ x.d ++ x.a ++ x.off, x.x.word, x.x.w2]
/-- The fields of a 96-bit WM form (R184). -/
def WM.ofWords (w w1 w2 : Word) : WM := ⟨w.getLsbD 29, w.extractLsb' 15 7, w.extractLsb' 8 7, w.extractLsb' 0 8, Ext.ofWords w1 w2⟩
/-- The three words of a 96-bit WC form (R184). -/
def WC.words (x : WC) (major : BitVec 7) : List Word :=
  [1#2 ++ BitVec.ofBool x.e ++ major ++ x.low, x.x.word, x.x.w2]
/-- The fields of a 96-bit WC form (R184). -/
def WC.ofWords (w w1 w2 : Word) : WC := ⟨w.getLsbD 29, w.extractLsb' 0 22, Ext.ofWords w1 w2⟩
/-- The five words of MOVL (R189). -/
def WL.words (x : WL) (major : BitVec 7) : List Word :=
  [2#2 ++ BitVec.ofBool x.e ++ major ++ x.d ++ x.low, x.x.word, x.x.w2, lowWord x.lit, highWord x.lit]
/-- The fields of MOVL (R189). -/
def WL.ofWords (w w1 w2 w3 w4 : Word) : WL := ⟨w.getLsbD 29, w.extractLsb' 15 7, w.extractLsb' 0 15, Ext.ofWords w1 w2, pairOf w3 w4⟩

/-- LEN [31:30] of word 0: the number of words, none for 11 (R179). -/
def wordCount (w : Word) : Option Nat :=
  match bitsOf w.toNat 31 30 with
  | 0 => some 1
  | 1 => some 3
  | 2 => some 5
  | _ => none
/-- OP [28:22] of word 0 (R181). -/
def majorOf (w : Word) : Nat := bitsOf w.toNat 28 22

/-- The 32-bit form that word 0 names (Tables 9.4 to 9.7). -/
def shortInstr (w : Word) : Option Instr :=
  match majorOf w with
  | 0x00 => some (.nop (.ofWord w))
  | 0x01 => some (.mov (.ofWord w))
  | 0x02 => some (.movi (.ofWord w))
  | 0x04 => some (.iadd (.ofWord w))
  | 0x05 => some (.isub (.ofWord w))
  | 0x06 => some (.imul (.ofWord w))
  | 0x07 => some (.imulh (.ofWord w))
  | 0x09 => some (.imin (.ofWord w))
  | 0x0A => some (.imax (.ofWord w))
  | 0x0B => some (.iabs (.ofWord w))
  | 0x0C => some (.and (.ofWord w))
  | 0x0D => some (.or (.ofWord w))
  | 0x0E => some (.xor (.ofWord w))
  | 0x0F => some (.not (.ofWord w))
  | 0x10 => some (.shl (.ofWord w))
  | 0x11 => some (.shr (.ofWord w))
  | 0x12 => some (.sar (.ofWord w))
  | 0x13 => some (.rot (.ofWord w))
  | 0x14 => some (.popc (.ofWord w))
  | 0x15 => some (.clz (.ofWord w))
  | 0x16 => some (.brev (.ofWord w))
  | 0x1C => some (.add64 (.ofWord w))
  | 0x1D => some (.sub64 (.ofWord w))
  | 0x20 => some (.uadd (.ofWord w))
  | 0x21 => some (.usub (.ofWord w))
  | 0x22 => some (.umul (.ofWord w))
  | 0x23 => some (.ulog (.ofWord w))
  | 0x24 => some (.ushift (.ofWord w))
  | 0x25 => some (.umov (.ofWord w))
  | 0x27 => some (.uadd64 (.ofWord w))
  | 0x29 => some (.uconst (.ofWord w))
  | 0x2A => some (.plog (.ofWord w))
  | 0x2B => some (.sprd (.ofWord w))
  | 0x2C => some (.spwr (.ofWord w))
  | 0x30 => some (.br (.ofWord w))
  | 0x31 => some (.bru (.ofWord w))
  | 0x32 => some (.jmp (.ofWord w))
  | 0x33 => some (.call (.ofWord w))
  | 0x34 => some (.ret (.ofWord w))
  | 0x35 => some (.exit (.ofWord w))
  | 0x36 => some (.yield (.ofWord w))
  | 0x39 => some (.regroup (.ofWord w))
  | 0x3A =>
    match bitsOf w.toNat 3 0 with
    | 0 => some (.claim (.ofWord w))
    | 1 => some (.claimw (.ofWord w))
    | 2 => some (.give (.ofWord w))
    | _ => none
  | 0x3B => some (.waitc (.ofWord w))
  | 0x3C => some (.sleept (.ofWord w))
  | 0x3D =>
    match bitsOf w.toNat 3 0 with
    | 0 => some (.barSync (.ofWord w))
    | 1 => some (.barArrive (.ofWord w))
    | 2 => some (.barWait (.ofWord w))
    | _ => none
  | 0x3E =>
    match bitsOf w.toNat 3 0 with
    | 0 => some (.trapSvc (.ofWord w))
    | 1 => some (.trapBrk (.ofWord w))
    | _ => none
  | 0x40 => some (.ld (.ofWord w))
  | 0x41 => some (.st (.ofWord w))
  | 0x42 => some (.lds (.ofWord w))
  | 0x43 => some (.sts (.ofWord w))
  | 0x44 => some (.ldu (.ofWord w))
  | 0x45 => some (.stu (.ofWord w))
  | 0x48 => some (.gld (.ofWord w))
  | 0x49 => some (.gst (.ofWord w))
  | 0x4A => some (.pref (.ofWord w))
  | 0x4F => some (.aflush (.ofWord w))
  | 0x50 =>
    match bitsOf w.toNat 3 0 with
    | 0 => some (.fenceRel (.ofWord w))
    | 1 => some (.fenceAcq (.ofWord w))
    | 2 => some (.fenceAr (.ofWord w))
    | _ => none
  | 0x51 => some (.invl1 (.ofWord w))
  | 0x52 => some (.pin (.ofWord w))
  | 0x53 => some (.unpin (.ofWord w))
  | 0x54 => some (.hbind (.ofWord w))
  | 0x57 => some (.cpyq (.ofWord w))
  | 0x60 => some (.fadd (.ofWord w))
  | 0x61 => some (.fsub (.ofWord w))
  | 0x62 => some (.fmul (.ofWord w))
  | 0x64 => some (.fminmax (.ofWord w))
  | 0x66 => some (.fspc (.ofWord w))
  | 0x67 => some (.fclass (.ofWord w))
  | 0x7A => some (.keys (.ofWord w))
  | 0x7B => some (.ecol (.ofWord w))
  | _ => none

/-- The 96-bit form that words 0 and 1 name (Tables 9.4 to 9.7). -/
def wideInstr (w w1 w2 : Word) : Option Instr :=
  match majorOf w with
  | 0x00 => some (.nopWide (.ofWords w w1 w2))
  | 0x01 => some (.movWide (.ofWords w w1 w2))
  | 0x02 => some (.moviWide (.ofWords w w1 w2))
  | 0x04 => some (.iaddWide (.ofWords w w1 w2))
  | 0x05 => some (.isubWide (.ofWords w w1 w2))
  | 0x06 => some (.imulWide (.ofWords w w1 w2))
  | 0x07 => some (.imulhWide (.ofWords w w1 w2))
  | 0x08 => some (.imad (.ofWords w w1 w2))
  | 0x09 => some (.iminWide (.ofWords w w1 w2))
  | 0x0A => some (.imaxWide (.ofWords w w1 w2))
  | 0x0B => some (.iabsWide (.ofWords w w1 w2))
  | 0x0C => some (.andWide (.ofWords w w1 w2))
  | 0x0D => some (.orWide (.ofWords w w1 w2))
  | 0x0E => some (.xorWide (.ofWords w w1 w2))
  | 0x0F => some (.notWide (.ofWords w w1 w2))
  | 0x10 => some (.shlWide (.ofWords w w1 w2))
  | 0x11 => some (.shrWide (.ofWords w w1 w2))
  | 0x12 => some (.sarWide (.ofWords w w1 w2))
  | 0x13 => some (.rotWide (.ofWords w w1 w2))
  | 0x14 => some (.popcWide (.ofWords w w1 w2))
  | 0x15 => some (.clzWide (.ofWords w w1 w2))
  | 0x16 => some (.brevWide (.ofWords w w1 w2))
  | 0x17 => some (.bfx (.ofWords w w1 w2))
  | 0x18 => some (.bfi (.ofWords w w1 w2))
  | 0x19 => some (.sel (.ofWords w w1 w2))
  | 0x1A => some (.icmp (.ofWords w w1 w2))
  | 0x1B => some (.iaddc (.ofWords w w1 w2))
  | 0x1C => some (.add64Wide (.ofWords w w1 w2))
  | 0x1D => some (.sub64Wide (.ofWords w w1 w2))
  | 0x1E => some (.lea64 (.ofWords w w1 w2))
  | 0x1F => some (.cmp64 (.ofWords w w1 w2))
  | 0x20 => some (.uaddWide (.ofWords w w1 w2))
  | 0x21 => some (.usubWide (.ofWords w w1 w2))
  | 0x22 => some (.umulWide (.ofWords w w1 w2))
  | 0x23 => some (.ulogWide (.ofWords w w1 w2))
  | 0x24 => some (.ushiftWide (.ofWords w w1 w2))
  | 0x25 => some (.umovWide (.ofWords w w1 w2))
  | 0x26 => some (.ucmp (.ofWords w w1 w2))
  | 0x27 => some (.uadd64Wide (.ofWords w w1 w2))
  | 0x28 => some (.uread (.ofWords w w1 w2))
  | 0x29 => some (.uconstWide (.ofWords w w1 w2))
  | 0x2A => some (.plogWide (.ofWords w w1 w2))
  | 0x2B => some (.sprdWide (.ofWords w w1 w2))
  | 0x2C => some (.spwrWide (.ofWords w w1 w2))
  | 0x2D => some (.shfl (.ofWords w w1 w2))
  | 0x2E => some (.vote (.ofWords w w1 w2))
  | 0x2F => some (.vred (.ofWords w w1 w2))
  | 0x30 => some (.brWide (.ofWords w w1 w2))
  | 0x31 => some (.bruWide (.ofWords w w1 w2))
  | 0x32 => some (.jmpWide (.ofWords w w1 w2))
  | 0x33 => some (.callWide (.ofWords w w1 w2))
  | 0x34 => some (.retWide (.ofWords w w1 w2))
  | 0x35 => some (.exitWide (.ofWords w w1 w2))
  | 0x36 => some (.yieldWide (.ofWords w w1 w2))
  | 0x37 => some (.cinit (.ofWords w w1 w2))
  | 0x38 => some (.csign (.ofWords w w1 w2))
  | 0x39 => some (.regroupWide (.ofWords w w1 w2))
  | 0x3A =>
    match bitsOf w1.toNat 27 20 with
    | 0 => some (.claimWide (.ofWords w w1 w2))
    | 1 => some (.claimwWide (.ofWords w w1 w2))
    | 2 => some (.giveWide (.ofWords w w1 w2))
    | _ => none
  | 0x3B => some (.waitcWide (.ofWords w w1 w2))
  | 0x3C => some (.sleeptWide (.ofWords w w1 w2))
  | 0x3D =>
    match bitsOf w1.toNat 27 20 with
    | 0 => some (.barSyncWide (.ofWords w w1 w2))
    | 1 => some (.barArriveWide (.ofWords w w1 w2))
    | 2 => some (.barWaitWide (.ofWords w w1 w2))
    | _ => none
  | 0x3E =>
    match bitsOf w1.toNat 27 20 with
    | 0 => some (.trapSvcWide (.ofWords w w1 w2))
    | 1 => some (.trapBrkWide (.ofWords w w1 w2))
    | _ => none
  | 0x3F =>
    match bitsOf w1.toNat 27 20 with
    | 0 => some (.launch (.ofWords w w1 w2))
    | 1 => some (.spawn (.ofWords w w1 w2))
    | 2 => some (.ctradd (.ofWords w w1 w2))
    | 3 => some (.ctrwait (.ofWords w w1 w2))
    | 4 => some (.resume (.ofWords w w1 w2))
    | _ => none
  | 0x40 => some (.ldWide (.ofWords w w1 w2))
  | 0x41 => some (.stWide (.ofWords w w1 w2))
  | 0x42 => some (.ldsWide (.ofWords w w1 w2))
  | 0x43 => some (.stsWide (.ofWords w w1 w2))
  | 0x44 => some (.lduWide (.ofWords w w1 w2))
  | 0x45 => some (.stuWide (.ofWords w w1 w2))
  | 0x46 => some (.ldt (.ofWords w w1 w2))
  | 0x47 => some (.stt (.ofWords w w1 w2))
  | 0x48 => some (.gldWide (.ofWords w w1 w2))
  | 0x49 => some (.gstWide (.ofWords w w1 w2))
  | 0x4A => some (.prefWide (.ofWords w w1 w2))
  | 0x4B => some (.atom (.ofWords w w1 w2))
  | 0x4C => some (.atomc (.ofWords w w1 w2))
  | 0x4D => some (.atomf (.ofWords w w1 w2))
  | 0x4E => some (.red (.ofWords w w1 w2))
  | 0x4F => some (.aflushWide (.ofWords w w1 w2))
  | 0x50 =>
    match bitsOf w1.toNat 27 20 with
    | 0 => some (.fenceRelWide (.ofWords w w1 w2))
    | 1 => some (.fenceAcqWide (.ofWords w w1 w2))
    | 2 => some (.fenceArWide (.ofWords w w1 w2))
    | _ => none
  | 0x51 => some (.invl1Wide (.ofWords w w1 w2))
  | 0x52 => some (.pinWide (.ofWords w w1 w2))
  | 0x53 => some (.unpinWide (.ofWords w w1 w2))
  | 0x54 => some (.hbindWide (.ofWords w w1 w2))
  | 0x55 => some (.hqry (.ofWords w w1 w2))
  | 0x56 => some (.cpy (.ofWords w w1 w2))
  | 0x57 => some (.cpyqWide (.ofWords w w1 w2))
  | 0x58 => some (.dsend (.ofWords w w1 w2))
  | 0x59 => some (.dcomb (.ofWords w w1 w2))
  | 0x5A => some (.coll (.ofWords w w1 w2))
  | 0x60 => some (.faddWide (.ofWords w w1 w2))
  | 0x61 => some (.fsubWide (.ofWords w w1 w2))
  | 0x62 => some (.fmulWide (.ofWords w w1 w2))
  | 0x63 => some (.ffma (.ofWords w w1 w2))
  | 0x64 => some (.fminmaxWide (.ofWords w w1 w2))
  | 0x65 => some (.fcmp (.ofWords w w1 w2))
  | 0x66 => some (.fspcWide (.ofWords w w1 w2))
  | 0x67 => some (.fclassWide (.ofWords w w1 w2))
  | 0x68 => some (.cvt (.ofWords w w1 w2))
  | 0x69 => some (.pack (.ofWords w w1 w2))
  | 0x6A => some (.unpk (.ofWords w w1 w2))
  | 0x6B => some (.ffmap (.ofWords w w1 w2))
  | 0x6C => some (.qdot (.ofWords w w1 w2))
  | 0x6D => some (.idot (.ofWords w w1 w2))
  | 0x6E => some (.mxsc (.ofWords w w1 w2))
  | 0x6F =>
    match bitsOf w1.toNat 27 20 with
    | 0 => some (.qntRow (.ofWords w w1 w2))
    | 1 => some (.qntBlock (.ofWords w w1 w2))
    | _ => none
  | 0x70 => some (.mma (.ofWords w w1 w2))
  | 0x71 => some (.mmas (.ofWords w w1 w2))
  | 0x72 =>
    match bitsOf w1.toNat 27 20 with
    | 0 => some (.amovFrom (.ofWords w w1 w2))
    | 1 => some (.amovInto (.ofWords w w1 w2))
    | 2 => some (.amovZero (.ofWords w w1 w2))
    | _ => none
  | 0x73 => some (.tdef (.ofWords w w1 w2))
  | 0x74 => some (.tld (.ofWords w w1 w2))
  | 0x75 => some (.tkill (.ofWords w w1 w2))
  | 0x76 => some (.eqry (.ofWords w w1 w2))
  | 0x77 => some (.elook (.ofWords w w1 w2))
  | 0x78 =>
    match bitsOf w1.toNat 27 20 with
    | 0 => some (.eeditNew (.ofWords w w1 w2))
    | 1 => some (.eeditDel (.ofWords w w1 w2))
    | 2 => some (.eeditAdd (.ofWords w w1 w2))
    | 3 => some (.eeditRem (.ofWords w w1 w2))
    | _ => none
  | 0x79 =>
    match bitsOf w1.toNat 27 20 with
    | 0 => some (.eviewOpen (.ofWords w w1 w2))
    | 1 => some (.eviewClose (.ofWords w w1 w2))
    | _ => none
  | 0x7A => some (.keysWide (.ofWords w w1 w2))
  | 0x7B => some (.ecolWide (.ofWords w w1 w2))
  | 0x7C => some (.sproj (.ofWords w w1 w2))
  | 0x7D => some (.sbin (.ofWords w w1 w2))
  | 0x7E =>
    match bitsOf w1.toNat 27 20 with
    | 0 => some (.sblendFwd (.ofWords w w1 w2))
    | 1 => some (.sblendBack (.ofWords w w1 w2))
    | _ => none
  | 0x7F =>
    match bitsOf w1.toNat 27 20 with
    | 0 => some (.sctlSet (.ofWords w w1 w2))
    | 1 => some (.sctlGet (.ofWords w w1 w2))
    | _ => none
  | _ => none

/-- The instruction that a whole word sequence names, before its field checks. -/
def shapeOf (ws : List Word) : Option Instr :=
  match ws with
  | [w] => if bitsOf w.toNat 31 30 = 0 then shortInstr w else none
  | [w, w1, w2] => if bitsOf w.toNat 31 30 = 1 then wideInstr w w1 w2 else none
  | [w, w1, w2, w3, w4] =>
    if bitsOf w.toNat 31 30 = 2 ∧ majorOf w = 3 then some (.movl (.ofWords w w1 w2 w3 w4)) else none
  | _ => none

/-- Items 5 and 6 of R191. -/
def decodeWords (ws : List Word) : Decoded :=
  match shapeOf ws with
  | none => .illegalOpcode
  | some i => if !i.fnOk then .illegalOpcode else if !i.fieldsOk then .reservedField else .instr i

/-- Items 2 and 3 of R191: what word 0 alone decides, otherwise the number of words. -/
def firstWord (safe : Bool) (w : Word) : Decoded ⊕ Nat :=
  match wordCount w with
  | none => .inl .illegalOpcode
  | some n => if safe && n != 1 then .inl .safeDecode else .inr n

/-- The words of an instruction, in memory order; a device step has none. -/
def encode : Instr → List Word
  | .nop x => [x.word 0x00]
  | .mov x => [x.word 0x01]
  | .movi x => [x.word 0x02]
  | .iadd x => [x.word 0x04]
  | .isub x => [x.word 0x05]
  | .imul x => [x.word 0x06]
  | .imulh x => [x.word 0x07]
  | .imin x => [x.word 0x09]
  | .imax x => [x.word 0x0A]
  | .iabs x => [x.word 0x0B]
  | .and x => [x.word 0x0C]
  | .or x => [x.word 0x0D]
  | .xor x => [x.word 0x0E]
  | .not x => [x.word 0x0F]
  | .shl x => [x.word 0x10]
  | .shr x => [x.word 0x11]
  | .sar x => [x.word 0x12]
  | .rot x => [x.word 0x13]
  | .popc x => [x.word 0x14]
  | .clz x => [x.word 0x15]
  | .brev x => [x.word 0x16]
  | .add64 x => [x.word 0x1C]
  | .sub64 x => [x.word 0x1D]
  | .uadd x => [x.word 0x20]
  | .usub x => [x.word 0x21]
  | .umul x => [x.word 0x22]
  | .ulog x => [x.word 0x23]
  | .ushift x => [x.word 0x24]
  | .umov x => [x.word 0x25]
  | .uadd64 x => [x.word 0x27]
  | .uconst x => [x.word 0x29]
  | .plog x => [x.word 0x2A]
  | .sprd x => [x.word 0x2B]
  | .spwr x => [x.word 0x2C]
  | .br x => [x.word 0x30]
  | .bru x => [x.word 0x31]
  | .jmp x => [x.word 0x32]
  | .call x => [x.word 0x33]
  | .ret x => [x.word 0x34]
  | .exit x => [x.word 0x35]
  | .yield x => [x.word 0x36]
  | .regroup x => [x.word 0x39]
  | .claim x => [x.word 0x3A]
  | .claimw x => [x.word 0x3A]
  | .give x => [x.word 0x3A]
  | .waitc x => [x.word 0x3B]
  | .sleept x => [x.word 0x3C]
  | .barSync x => [x.word 0x3D]
  | .barArrive x => [x.word 0x3D]
  | .barWait x => [x.word 0x3D]
  | .trapSvc x => [x.word 0x3E]
  | .trapBrk x => [x.word 0x3E]
  | .ld x => [x.word 0x40]
  | .st x => [x.word 0x41]
  | .lds x => [x.word 0x42]
  | .sts x => [x.word 0x43]
  | .ldu x => [x.word 0x44]
  | .stu x => [x.word 0x45]
  | .gld x => [x.word 0x48]
  | .gst x => [x.word 0x49]
  | .pref x => [x.word 0x4A]
  | .aflush x => [x.word 0x4F]
  | .fenceRel x => [x.word 0x50]
  | .fenceAcq x => [x.word 0x50]
  | .fenceAr x => [x.word 0x50]
  | .invl1 x => [x.word 0x51]
  | .pin x => [x.word 0x52]
  | .unpin x => [x.word 0x53]
  | .hbind x => [x.word 0x54]
  | .cpyq x => [x.word 0x57]
  | .fadd x => [x.word 0x60]
  | .fsub x => [x.word 0x61]
  | .fmul x => [x.word 0x62]
  | .fminmax x => [x.word 0x64]
  | .fspc x => [x.word 0x66]
  | .fclass x => [x.word 0x67]
  | .keys x => [x.word 0x7A]
  | .ecol x => [x.word 0x7B]
  | .nopWide x => x.words 0x00
  | .movWide x => x.words 0x01
  | .moviWide x => x.words 0x02
  | .iaddWide x => x.words 0x04
  | .isubWide x => x.words 0x05
  | .imulWide x => x.words 0x06
  | .imulhWide x => x.words 0x07
  | .imad x => x.words 0x08
  | .iminWide x => x.words 0x09
  | .imaxWide x => x.words 0x0A
  | .iabsWide x => x.words 0x0B
  | .andWide x => x.words 0x0C
  | .orWide x => x.words 0x0D
  | .xorWide x => x.words 0x0E
  | .notWide x => x.words 0x0F
  | .shlWide x => x.words 0x10
  | .shrWide x => x.words 0x11
  | .sarWide x => x.words 0x12
  | .rotWide x => x.words 0x13
  | .popcWide x => x.words 0x14
  | .clzWide x => x.words 0x15
  | .brevWide x => x.words 0x16
  | .bfx x => x.words 0x17
  | .bfi x => x.words 0x18
  | .sel x => x.words 0x19
  | .icmp x => x.words 0x1A
  | .iaddc x => x.words 0x1B
  | .add64Wide x => x.words 0x1C
  | .sub64Wide x => x.words 0x1D
  | .lea64 x => x.words 0x1E
  | .cmp64 x => x.words 0x1F
  | .uaddWide x => x.words 0x20
  | .usubWide x => x.words 0x21
  | .umulWide x => x.words 0x22
  | .ulogWide x => x.words 0x23
  | .ushiftWide x => x.words 0x24
  | .umovWide x => x.words 0x25
  | .ucmp x => x.words 0x26
  | .uadd64Wide x => x.words 0x27
  | .uread x => x.words 0x28
  | .uconstWide x => x.words 0x29
  | .plogWide x => x.words 0x2A
  | .sprdWide x => x.words 0x2B
  | .spwrWide x => x.words 0x2C
  | .shfl x => x.words 0x2D
  | .vote x => x.words 0x2E
  | .vred x => x.words 0x2F
  | .brWide x => x.words 0x30
  | .bruWide x => x.words 0x31
  | .jmpWide x => x.words 0x32
  | .callWide x => x.words 0x33
  | .retWide x => x.words 0x34
  | .exitWide x => x.words 0x35
  | .yieldWide x => x.words 0x36
  | .cinit x => x.words 0x37
  | .csign x => x.words 0x38
  | .regroupWide x => x.words 0x39
  | .claimWide x => x.words 0x3A
  | .claimwWide x => x.words 0x3A
  | .giveWide x => x.words 0x3A
  | .waitcWide x => x.words 0x3B
  | .sleeptWide x => x.words 0x3C
  | .barSyncWide x => x.words 0x3D
  | .barArriveWide x => x.words 0x3D
  | .barWaitWide x => x.words 0x3D
  | .trapSvcWide x => x.words 0x3E
  | .trapBrkWide x => x.words 0x3E
  | .launch x => x.words 0x3F
  | .spawn x => x.words 0x3F
  | .ctradd x => x.words 0x3F
  | .ctrwait x => x.words 0x3F
  | .resume x => x.words 0x3F
  | .ldWide x => x.words 0x40
  | .stWide x => x.words 0x41
  | .ldsWide x => x.words 0x42
  | .stsWide x => x.words 0x43
  | .lduWide x => x.words 0x44
  | .stuWide x => x.words 0x45
  | .ldt x => x.words 0x46
  | .stt x => x.words 0x47
  | .gldWide x => x.words 0x48
  | .gstWide x => x.words 0x49
  | .prefWide x => x.words 0x4A
  | .atom x => x.words 0x4B
  | .atomc x => x.words 0x4C
  | .atomf x => x.words 0x4D
  | .red x => x.words 0x4E
  | .aflushWide x => x.words 0x4F
  | .fenceRelWide x => x.words 0x50
  | .fenceAcqWide x => x.words 0x50
  | .fenceArWide x => x.words 0x50
  | .invl1Wide x => x.words 0x51
  | .pinWide x => x.words 0x52
  | .unpinWide x => x.words 0x53
  | .hbindWide x => x.words 0x54
  | .hqry x => x.words 0x55
  | .cpy x => x.words 0x56
  | .cpyqWide x => x.words 0x57
  | .dsend x => x.words 0x58
  | .dcomb x => x.words 0x59
  | .coll x => x.words 0x5A
  | .faddWide x => x.words 0x60
  | .fsubWide x => x.words 0x61
  | .fmulWide x => x.words 0x62
  | .ffma x => x.words 0x63
  | .fminmaxWide x => x.words 0x64
  | .fcmp x => x.words 0x65
  | .fspcWide x => x.words 0x66
  | .fclassWide x => x.words 0x67
  | .cvt x => x.words 0x68
  | .pack x => x.words 0x69
  | .unpk x => x.words 0x6A
  | .ffmap x => x.words 0x6B
  | .qdot x => x.words 0x6C
  | .idot x => x.words 0x6D
  | .mxsc x => x.words 0x6E
  | .qntRow x => x.words 0x6F
  | .qntBlock x => x.words 0x6F
  | .mma x => x.words 0x70
  | .mmas x => x.words 0x71
  | .amovFrom x => x.words 0x72
  | .amovInto x => x.words 0x72
  | .amovZero x => x.words 0x72
  | .tdef x => x.words 0x73
  | .tld x => x.words 0x74
  | .tkill x => x.words 0x75
  | .eqry x => x.words 0x76
  | .elook x => x.words 0x77
  | .eeditNew x => x.words 0x78
  | .eeditDel x => x.words 0x78
  | .eeditAdd x => x.words 0x78
  | .eeditRem x => x.words 0x78
  | .eviewOpen x => x.words 0x79
  | .eviewClose x => x.words 0x79
  | .keysWide x => x.words 0x7A
  | .ecolWide x => x.words 0x7B
  | .sproj x => x.words 0x7C
  | .sbin x => x.words 0x7D
  | .sblendFwd x => x.words 0x7E
  | .sblendBack x => x.words 0x7E
  | .sctlSet x => x.words 0x7F
  | .sctlGet x => x.words 0x7F
  | .movl x => x.words 0x03
  | .gtickAdvance => []
  | .issueGrant _ _ => []
  | .regroupExecute _ => []
  | .threadExited _ => []
  | .teamRetire _ => []
  | .gridRetire _ => []
  | .sleepWake _ => []
  | .loadReply _ => []
  | .l2ServeFill _ => []
  | .l2AcceptWrite _ => []
  | .atomicPerform _ => []
  | .l1Eviction _ _ _ _ => []
  | .releaseComplete _ => []
  | .pageWalk _ _ _ _ => []
  | .translationEvict _ => []
  | .layoutCacheRefetch _ _ => []
  | .collectorWindowExpiry _ _ => []
  | .copyStart _ _ => []
  | .copyComplete _ => []
  | .copyFaultStop _ => []
  | .metadataLineArrive _ _ => []
  | .hostTranslationResponse _ _ => []
  | .pageRequestResponse _ _ => []
  | .hostTranslationTimeout _ => []
  | .hostInvalidationRequest _ _ _ _ => []
  | .hostAccessCompletion _ _ => []
  | .inboundWrite _ _ _ _ => []
  | .inboundRead _ _ => []
  | .peerAccessArrival _ _ _ _ _ => []
  | .flitCrcResend _ => []
  | .flitLost _ => []
  | .xinvGo _ _ => []
  | .shootdownDone _ => []
  | .migrate _ _ => []
  | .migrateSwap _ => []
  | .grantcmdGo _ => []
  | .grantabWrite _ => []
  | .accdataRead => []
  | .l2scrubGo _ => []
  | .tagParity _ _ => []
  | .wdescBind _ _ _ => []
  | .wdescUnbind _ _ _ => []
  | .wstatResume _ _ => []
  | .editQueueAccept _ => []
  | .worldReply _ => []
  | .keystoneStart _ _ => []
  | .keystonePublish _ _ => []
  | .reductionSpill _ => []
  | .reductionFlush _ => []
  | .reductionFlushComplete _ => []
  | .tileDirectoryAccept _ => []
  | .tileDelivery _ => []
  | .tilePartMove _ _ _ _ => []
  | .reservationAccept _ => []
  | .matrixPassGrant _ => []
  | .deferredFault _ => []
  | .binnerServe _ => []
  | .binnerPreempt _ => []
  | .splatComplete _ => []
  | .dispatchSlotReply _ _ => []
  | .dispatchNotify _ => []
  | .dispatchAck _ => []
  | .dcombComplete _ _ => []
  | .collRendezvousStart _ _ => []
  | .collComplete _ => []
  | .ctrwaitReread _ => []
  | .qdescWrite _ _ _ => []
  | .qdoorWrite _ _ _ => []
  | .queueSlotTake _ => []
  | .queueEntryNop _ => []
  | .queueEntryLaunch _ => []
  | .queueEntryWait _ => []
  | .queueWaitReread _ => []
  | .queueEntryAdd _ => []
  | .teamPlace _ => []
  | .placementHold => []
  | .logicalCoreRemap _ _ _ => []
  | .timeSliceExpiry _ => []
  | .bankSwitch _ => []
  | .bankSave _ _ => []
  | .teamSave _ => []
  | .contextRestore _ _ => []
  | .taskCounterReread _ => []
  | .taskTeamForm _ _ => []
  | .taskGatherTimeout _ _ => []
  | .faultRecordWrite _ _ => []
  | .serviceRecordWrite _ _ => []
  | .fsvcRetry _ => []
  | .fsvcSkip _ => []
  | .fsvcKill _ => []
  | .fsvcAnswer _ => []
  | .vfkill _ => []
  | .breakpointHit _ => []
  | .dbgRelease _ _ => []
  | .dbgStep _ _ => []
  | .dbgHalt _ _ => []
  | .dbgSave _ _ => []
  | .watchdog _ => []
  | .uncorrectableError _ => []
  | .correctableError => []
  | .pcmdAssign _ => []
  | .pcmdLend _ => []
  | .pcmdRevoke _ => []
  | .autoRevoke _ => []
  | .revokeSaveDeadline _ => []
  | .revocationScrub _ => []
  | .floorWrite _ _ => []
  | .bandwidthWindow => []
  | .vfschedRun _ => []
  | .vfschedDeschedule _ => []
  | .deckroleGo _ => []
  | .deckFlush => []
  | .deckReenumerate => []
  | .supplySagStretch _ => []
  | .powerLimitStep _ => []
  | .snapctlGo _ _ => []
  | .snapshotCut _ => []
  | .cowPageCopy _ => []
  | .snapshotStreamDone _ => []
  | .restctlGo _ _ => []
  | .perfselWrite _ _ _ => []
  | .perfcntWrite _ _ _ => []
  | .attreqWrite _ _ => []
  | .firmwareImageLoad _ _ _ => []
  | .encownWrite _ _ => []
  | .encdoorWrite _ _ _ => []
  | .encoderJobComplete _ => []
  | .encoderPause _ => []
  | .registerWrite _ _ _ _ => []
  | .deviceReset => []
  | .grantcmdDone => []
  | .l2scrubDone => []
  | .supplyRecovery _ => []
  | .peerWriteAcknowledgement _ => []

/-- Bytes the instruction takes in memory (R179). -/
def Instr.bytes (i : Instr) : Nat := 4 * (encode i).length

/-- A word's four bytes, little-endian (R179). -/
def wordBytes (w : Word) : List Byte :=
  [w.extractLsb' 0 8, w.extractLsb' 8 8, w.extractLsb' 16 8, w.extractLsb' 24 8]
/-- The word of four little-endian bytes. -/
def wordOfBytes (a b c d : Byte) : Word := d ++ c ++ b ++ a
/-- The words of a byte list; a rest of fewer than four bytes is dropped. -/
def wordsOfBytes : List Byte → List Word
  | a :: b :: c :: d :: rest => wordOfBytes a b c d :: wordsOfBytes rest
  | _ => []
/-- The bytes of an instruction in memory. -/
def encodeBytes (i : Instr) : List Byte := (encode i).flatMap wordBytes

/-- Decoding of a byte sequence: the instruction at its start and the bytes after it. -/
def decode (safe : Bool) (bytes : List Byte) : Decoded × List Byte :=
  match wordsOfBytes (bytes.take 4) with
  | [w] =>
    match firstWord safe w with
    | .inl d => (d, bytes)
    | .inr n =>
      match decodeWords (wordsOfBytes (bytes.take (4 * n))) with
      | .instr i => (.instr i, bytes.drop (4 * n))
      | d => (d, bytes)
  | _ => (.illegalOpcode, bytes)

/-- Word k of a table word: bits 32k + 31 to 32k (spec/opcode_table.json). -/
def tableWords (w : Nat) : Nat → List Word
  | 0 => []
  | n + 1 => BitVec.ofNat 32 w :: tableWords (w / 2 ^ 32) n
/-- The words of a table word, up to the longest instruction. -/
def tableBytes (w : Nat) : List Byte := (tableWords w 5).flatMap wordBytes

/-- The instruction the decoder reads from the bits w as the opcode table numbers them: bits above nbits are 0. -/
def decodeTableWord (nbits w : Nat) : Option Instr :=
  match decode false (tableBytes (w % 2 ^ nbits)) with
  | (.instr i, _) => some i
  | _ => none

end Sys2Proof
end

