-- ==== Sys2Proof/Config.lean ====
section
/-! DEFINITION. What the spec leaves to the device or to the world outside it: constants without a body, so that no proof can rest on a value (notes/assumptions 3, 4 and 5). -/
namespace Sys2Proof.Config

/-- A free choice below a bound: which victim, which core, which order. Applied to State.free and to a number that names the choice. The caller reduces it modulo the number of candidates. -/
opaque choose : Nat → Nat → Nat
/-- A free 64-bit value: a copy's promise beyond its floor (R67), a view of a device timer. Applied to State.free. -/
opaque value : Nat → BitVec 64
/-- A free byte: the device's own formats (R247, R333, R304). Applied to State.free and an offset. -/
opaque byte : Nat → Nat → BitVec 8
/-- The set of an L2 slice that a line number maps to (R54 gives 64 sets and no index). -/
opaque l2Set : Nat → Nat
/-- Deck roles that the service controller sets at boot (R352): true for a compute deck. -/
opaque bootCompute : Nat → Bool
/-- A deck that is a compute deck at boot: set-up refuses a device without one (R2). -/
opaque bootDeck : Nat
/-- Bytes of a shape-table entry, whose format is the engine's own (R90). -/
opaque shapeEntry : Nat
/-- The device's own index on Uttenlink (R256, R258). -/
opaque device : Nat
/-- Ticks that a bank switch takes: the spec gives it in cycles (R331, R5). Applied to State.free. -/
opaque switchTicks : Nat → Nat
/-- SHA3-512 (R360): the standard's function, not restated in the spec. -/
opaque sha3 : List Byte → List Byte
/-- ML-DSA-87 signature by the device key (R360). -/
opaque sign : List Byte → List Byte
/-- ML-DSA-87 verification of an image's signature (R360). -/
opaque verify : List Byte → List Byte → Bool
/-- The device certificate (R360). -/
opaque certificate : List Byte
/-- The rollback counter that fuses hold at reset (R360). -/
opaque fusedRollback : Nat
/-- Digest of the firmware image that runs at reset (R360). -/
opaque bootDigest : List Byte
/-- An encoder's bitstream for its inputs (R361). -/
opaque encode : List Byte → List Byte
/-- The clock in MHz to which a supply stretch brings a deck (R354). -/
opaque stretchClock : Nat → Nat

end Sys2Proof.Config
end

