-- ==== Sys2Proof/Machine/State.lean ====
section
/-! DEFINITION. The state of a TS-W9 as plain data: memory and its caches, threads, teams, grids, contexts, queues, clusters, worlds, device registers, and the model's own agenda and counters. -/
namespace Sys2Proof.Machine

/-- Why a step stops where the spec gives no next state. -/
inductive Fault where
  /-- Raised by exec of a wave instruction when no wave is issuing: the spec issues instructions only from a wave (R148). Safe: the machine never gets there by itself. -/
  | noWave
  /-- Raised by exec of a device step whose work the state does not hold, or whose time has not come (a reply to no request, a wake before its tick). Safe: the device takes no such step. -/
  | notPending
  /-- Raised by exec of a device step that another rule holds back for now: an older access of the same thread to the same line, a lock, a full table. Safe: the device takes another step first. -/
  | heldBack
  deriving DecidableEq, Repr

/-- Why a step has no meaning. -/
inductive Refusal where
  /-- Raised by exec for an instruction the model does not give yet. Safe. -/
  | notModelled (mnemonic : String)
  /-- Raised by step when the agenda names an instruction of a wave instead of a device step. Safe: the agenda is the model's own and holds device steps only. -/
  | agendaNotDeviceStep
  deriving DecidableEq, Repr

/-- The outcome of a step. -/
abbrev Out (σ : Type) := Host.Outcome σ Fault Refusal

/-- Bytes by address in rising order, none listed that equals what an unlisted address reads as (0). -/
abbrev Memory := List Host.Cell

/-- Causes of PARKED (Table 7.3). -/
inductive ParkCause where
  | tileWait | copyWait | migrate | pageRequest | launchFull | ctrWait | keys | service
  deriving DecidableEq, Repr
/-- Causes of STOPPED (Table 7.3). -/
inductive StopCause where
  | brk | step | dbgstop
  deriving DecidableEq, Repr
/-- Thread states (Table 7.3); STOPPED is held beside the state it covers. -/
inductive Phase where
  | ready | issuing | stalled | counterWait | sleep | barrier | convWait | claimWait | regroupWait
  | parked (c : ParkCause)
  | faulted | exiting | exited
  deriving DecidableEq, Repr

/-- Fault codes (Table 15.1). -/
inductive Cause where
  | illegalOpcode | reservedField | safeDecode | uniformBranch | uniformMix | claimDeadlock | depthLimit | convLane
  | pageNotPresent | pageProtection | alignment | bounds | rangeLock | promiseMissed | staleHandle | tileName
  | poison | fenceLost | service | brk | step | engineFault | metadata | tagParity | watchdog
  deriving DecidableEq, Repr

/-- What a fault reports beside its cause (R325, R326). -/
structure Detail where
  kind : Nat := 0
  addr : Nat := 0
  prog : Nat := 0
  aux : Nat := 0
  deriving DecidableEq, Repr

/-- Counter classes (R231). -/
inductive Cls where
  | ld | st | cp | tl | none
  deriving DecidableEq, Repr

/-- A release under way (R120): its scope, whether its write-backs have started, its target tick, and the instruction that issued it. -/
structure Release where
  scope : Nat
  started : Bool
  target : Nat
  issue : Nat
  deriving DecidableEq, Repr

/-- What a waiting thread waits for; only the fields of its wait are used. -/
structure Wait where
  /-- SLEEPT tick on the view (R220), or a park's order. -/
  tick : Nat := 0
  /-- WAITC limits LD, ST, CP, TL (R219). -/
  limits : List Nat := []
  /-- Barrier, predicate or convergence register. -/
  reg : Nat := 0
  /-- BAR: 0 waits for the phase of its last arrival, 1 arrives in the next phase, 2 arrives and waits (R221). -/
  mode : Nat := 0
  /-- Count of a deferred arrival: none for every live thread. -/
  count : Option Nat := none
  /-- REGROUP key and register count (R222). -/
  key : Word := 0
  num : Nat := 0
  /-- CTRWAIT counter and threshold (R228); the record of a service or page request. -/
  addr : Nat := 0
  thr : Nat := 0
  /-- Order of parking. -/
  order : Nat := 0
  /-- Registers a STALLED thread's instruction names (R148): v, p, s, h, and the counter it raises. -/
  uv : List Nat := []
  up : List Nat := []
  us : List Nat := []
  uh : List Nat := []
  ucls : Cls := .none
  /-- Stalled on a full binner queue (R300). -/
  hold : Bool := false
  /-- Stalled until the LD counter is 0 (FENCE.ACQ, R121). -/
  drain : Bool := false
  /-- Stalled until this request no longer holds its thread (R235, R41); 0 for none. -/
  req : Nat := 0
  /-- The instruction has issued: the thread goes on at its next PC. -/
  go : Bool := false
  deriving DecidableEq, Repr

/-- One thread (R137 to R143, R158). -/
structure Thread where
  uid : Nat
  team : Nat
  tid : Nat
  lane : Nat
  slot : Nat
  role : Nat
  pc : Dword
  /-- Where the thread goes after the instruction that is issuing (the model's own). -/
  npc : Dword
  v : List Word
  /-- p0 to p7; bit 0 is always 1 (R186). -/
  p : BitVec 8
  flags : Flags
  ld : Nat
  st : Nat
  cp : Nat
  tl : Nat
  age : Nat
  phase : Phase
  stopped : Option StopCause
  /-- The phase a deferred or wait fault interrupted (R324). -/
  under : Phase
  blocks : List Nat
  editSeq : Nat
  redSeq : Nat
  pendV : List Nat
  pendP : List Nat
  poison : List Nat
  /-- Bit b: has arrived in the current phase of barrier b (R221). -/
  arrived : BitVec 16
  wait : Wait
  rel : Option Release
  /-- A release that the re-issued instruction at the PC has already completed (R122). -/
  relDone : Bool
  /-- Largest completion tick of the thread's writes accepted at L2 (R120 item 4). -/
  maxTw : Nat
  flushPoints : Nat
  /-- Release-complete tick of a parked KEYS (R296). -/
  keysTick : Nat
  /-- Virtual lines of accepted writes lost before their Tw (R134). -/
  lost : List Nat
  /-- The breakpoint at the PC does not stop the thread again (R336). -/
  passBp : Bool
  /-- While it is saved: address and last written bytes of its thread record (R335). -/
  imageAt : Nat
  image : List Byte
  /-- It stops with STEP once it has issued one instruction (R338). -/
  step : Bool
  /-- TRAP.BRK's code, until the thread stops after the instruction (R225). -/
  brk : Option Nat
  /-- Physical lines of its accepted writes with their Tw and virtual line, while these lie ahead (R134). -/
  tail : List (Nat × Nat × Nat)
  deriving DecidableEq, Repr

/-- Convergence register (R151, R152): members as thread numbers of the team by index, and signatures. -/
structure Conv where
  base : Nat
  mask : Word
  pc : Dword
  /-- Signers: (TID, active). -/
  signed : List (Nat × Bool)
  deriving DecidableEq, Repr

/-- A barrier (R221): parity, the count its phase's first arrival fixed, arrivals, and accesses its arrivals wait for. -/
structure Bar where
  parity : Bool
  /-- none: no arrival yet; some none: every live thread; some (some n): n arrivals. -/
  count : Option (Option Nat)
  arrivals : Nat
  reqs : List Nat
  deriving DecidableEq, Repr

/-- One team (R137, R151 to R157, R297). -/
structure Team where
  uid : Nat
  grid : Nat
  /-- Team id (R137), or the task team's id (R319). -/
  id : Nat
  x : Nat
  y : Nat
  z : Nat
  size : Nat
  core : Nat
  bank : Nat
  /-- Resident team slot 0 to 63. -/
  slot : Nat
  /-- Saved in this save slot of its context (R333). -/
  saved : Option Nat
  /-- Tick of the last save (R116). -/
  saveTick : Nat
  s : List Word
  /-- Threads that made the last write of each s register (R156). -/
  sLast : List (List Nat)
  /-- s registers that hold a poisoned value (R135). -/
  sPoison : List Nat
  pendS : List Nat
  pendH : List Nat
  /-- Layout handles: the address of the record each is bound to (R60, R238). -/
  h : List (Option Nat)
  /-- Writers of the last write of each h register (R156). -/
  hLast : List (List Nat)
  c : List Conv
  cLast : List (List Nat)
  bars : List Bar
  mode : Word
  teamstat : Word
  lease : Nat
  view : Word
  /-- Last writers of MODE, LEASE, VIEW and the splat registers. -/
  tLast : List (List Nat)
  frame : Dword
  tcut : Word
  near : Word
  binstat : Word
  scratch : Memory
  scratchSize : Nat
  scratchPoison : List Nat
  flagWord : Flags
  /-- Free extension blocks of each lane (R142). -/
  pool : List (List Nat)
  /-- Exit release (R139) and the PC of the EXIT of the last thread (R341). -/
  exitRel : Option Release
  exitPc : Dword
  pinRevoked : Bool
  /-- Ticks since the watchdog last counted (R339). -/
  watch : Nat
  /-- A task team (R318). -/
  task : Bool
  deriving DecidableEq, Repr

/-- One L1 line (R46 to R51): keyed by core, function, context and virtual line number. -/
structure L1Line where
  core : Nat
  fn : Nat
  ctx : Nat
  line : Nat
  /-- Leased copy: 128 bytes, expiry, grant tick, poisoned. -/
  copy : Option (List Byte × Nat × Nat × Bool)
  /-- Dirty bytes by offset; empty when clean. -/
  dirty : Memory
  dirtyPoison : Bool
  team : Nat
  /-- A write-back of the line failed (R40). -/
  held : Bool
  /-- Earliest store tick of the dirty bytes (R325 AUX). -/
  since : Nat
  deriving DecidableEq, Repr

/-- Metadata of a line resident in L2 (R49, R53, R57); its bytes stand in State.mem. -/
structure L2Line where
  line : Nat
  way : Nat
  fn : Nat
  h : Nat
  tw : Nat
  /-- Tick of the last access (R112). -/
  last : Nat
  dirty : Bool
  /-- Pin owner: function, context, team, and the virtual line it was pinned by (R251, R39). -/
  pin : Option (Nat × Nat × Nat × Nat)
  deriving DecidableEq, Repr

/-- A cached translation (R35): core level, or cluster level of deck-wide cluster number. -/
structure Tlb where
  atCore : Bool
  place : Nat
  fn : Nat
  ctx : Nat
  va : Nat
  size : Nat
  /-- Leaf entry as read. -/
  leaf : Dword
  leafPa : Nat
  deriving DecidableEq, Repr
/-- A walk-cache entry: a non-leaf entry by its physical address (R35). -/
structure WalkEntry where
  fn : Nat
  pa : Nat
  value : Dword
  deriving DecidableEq, Repr

/-- One element of a load: where from, how many bytes, and the register it writes. -/
inductive Source where
  | glob (va pa mt : Nat)
  | scratch (off : Nat)
  | const (bits : Nat)
  deriving DecidableEq, Repr
/-- An element of a load or store with its register and conversion; nib selects a nibble of a 4-bit type. -/
structure Elem where
  src : Source
  size : Nat
  reg : Nat
  ty : ElemType
  nib : Option Bool
  deriving DecidableEq, Repr

/-- Where a store's bytes go. -/
structure Part where
  dst : Source
  bytes : List Byte
  nib : Option Bool
  deriving DecidableEq, Repr

/-- A request of the cluster reservation table (R285 to R287, R320). -/
structure Matrix where
  instr : Instr
  /-- Active members: (thread, member). -/
  members : List (Nat × Nat)
  /-- Members that wait in CONV_WAIT until the table accepts the request. -/
  waiting : List Nat
  /-- Registers read at issue, by active member. -/
  frags : List (List Word)
  /-- Layout records read at issue. -/
  recs : List (List Byte)
  /-- Side-array lines that have arrived: virtual line and bytes. -/
  side : List (Nat × List Byte)
  /-- Operands fetched through handles, by active member: elements of A and of B. -/
  fetched : Option (List (List Nat) × List (List Nat))
  accepted : Bool
  /-- Passes still to be granted; none before the entry is ready. -/
  left : Option Nat
  age : Nat
  deriving DecidableEq, Repr

/-- Outstanding work of the memory system and the engines. -/
inductive Work where
  /-- LD, GLD, LDS, LDT: elements of one thread. -/
  | load (th : Nat) (elems : List Elem)
  /-- LDU: elements of a team's s registers, with the partial judgement made at issue (R236). -/
  | loadTeam (elems : List Elem) (full : Bool) (writers : List Nat)
  /-- Stores that perform at L2, the host or a peer, or that wait behind an older access (R235). -/
  | store (th : Nat) (parts : List Part)
  /-- PREF of a line (R242). -/
  | prefetch (va pa mt : Nat)
  /-- An atomic's reply on its way (R244, Table 15.8). -/
  | reply (th : Nat) (dst : Option Nat) (pair : Bool) (value : Nat) (bad : Bool) (flags : Flags)
  | atomic (th : Nat) (va pa mt : Nat) (o : AtomOp) (dst : Option Nat)
  /-- HBIND (R238). -/
  | hbind (h : Nat) (va pa mt : Nat) (full : Bool) (writers : List Nat)
  /-- A world instruction waiting for the table engine (R290 to R294): kind, operands. -/
  | world (th : Nat) (kind : Nat) (args : List Nat) (dst pred : Nat)
  /-- A tile request (R78, R79). -/
  | tile (th : Nat) (deliver : Bool) (space name shape part reg : Nat) (data : List Word)
  /-- A matrix request. -/
  | matrix (m : Matrix)
  /-- A splat request. -/
  | splat (th : Nat) (instr : Instr) (args : List Nat) (pc : Dword)
  /-- DSEND, DCOMB, COLL with their descriptor and stage. -/
  | dispatch (th : Nat) (instr : Instr) (desc : List Byte) (args : List Nat) (stage prog : Nat) (pc : Dword)
  deriving DecidableEq, Repr

/-- An outstanding request; its threads' counter of its class falls when none of its group is left (R231). -/
structure Req where
  id : Nat
  group : Nat
  cls : Cls
  threads : List Nat
  core : Nat
  team : Nat
  work : Work
  /-- PC of the instruction. -/
  pc : Dword
  /-- Tick of issue. -/
  tick : Nat
  /-- The threads are held until the request is done (R235). -/
  hold : Bool
  /-- A deferred fault that waits to be raised (R324). -/
  fault : Option (Cause × Detail)
  /-- A host translation is outstanding (R41): 1 asked, 2 page request sent, 3 waiting to send a page request. -/
  ats : Nat
  /-- Tick at which the outstanding translation or page request was sent. -/
  asked : Nat := 0
  deriving DecidableEq, Repr

/-- An entry of the gather collector (R65). -/
structure CollEntry where
  core : Nat
  fn : Nat
  ctx : Nat
  team : Nat
  store : Bool
  line : Nat
  opened : Nat
  /-- Requests of threads merged in the entry. -/
  reqs : List Req
  deriving DecidableEq, Repr

/-- A copy request (R67 to R71, R252 to R254). -/
structure Copy where
  id : Nat
  th : Nat
  core : Nat
  team : Nat
  fn : Nat
  ctx : Nat
  dstGlobal : Bool
  dst : Nat
  srcGlobal : Bool
  src : Nat
  len : Nat
  prog : Nat
  promise : Nat
  maxTw : Nat
  locked : Bool
  started : Bool
  fault : Option (Cause × Detail)
  /-- Waits for fault service (R324). -/
  stopped : Bool
  pc : Dword
  deriving DecidableEq, Repr

/-- A fault record waiting or written (R323 to R327). -/
structure FaultRec where
  id : Nat
  cause : Cause
  detail : Detail
  fn : Nat
  ctx : Nat
  grid : Nat
  gridId : Nat
  team : Nat
  teamId : Nat
  fpc : Dword
  spc : Dword
  mask : Word
  threads : List Nat
  tick : Nat
  loc : Nat
  wide : Bool
  issue : Nat
  /-- Engine work the record stands for (R324); 0 for a precise fault. -/
  work : Nat
  deferred : Bool
  /-- Number of the record once written (R327). -/
  written : Option Nat
  /-- STATE (Table 15.2). -/
  state : Nat
  deriving DecidableEq, Repr

/-- A service record waiting or written (R224, R328). -/
structure SvcRec where
  id : Nat
  fn : Nat
  ctx : Nat
  gridId : Nat
  teamId : Nat
  code : Nat
  pc : Dword
  /-- (lane, thread, first register, eight argument words). -/
  lanes : List (Nat × Nat × Nat × List Word)
  written : Option Nat
  deriving DecidableEq, Repr

/-- A buffered reduction (R247): team id, thread index and sequence; the core whose buffer took it; spilled to the launch's log. -/
structure RedEntry where
  team : Nat
  tid : Nat
  seq : Nat
  core : Nat
  va : Nat
  o : AtomOp
  spilled : Bool
  /-- Its operand rests on a poisoned byte (R303). -/
  bad : Bool
  deriving DecidableEq, Repr

/-- One accepted grid: its launch record's fields (Table 14.4) and its progress. -/
structure Grid where
  uid : Nat
  gridId : Nat
  fn : Nat
  ctx : Nat
  depth : Nat
  parent : Nat
  queue : Option Nat
  record : List Byte
  consts : List Dword
  htab : List Dword
  ncores : Nat
  next : Nat
  /-- Core whose pending-launch queue holds it (R311). -/
  pendingOn : Option Nat
  waitSince : Nat
  retired : Nat
  tasks : Nat
  taskTeams : Nat
  flagWord : Flags
  tstat : Word
  stale : Nat
  faults : Nat
  reds : List RedEntry
  logCap : Nat
  logFull : Bool
  flushed : Nat
  /-- Flush under way: completion tick (R127). -/
  flushTick : Option Nat
  /-- The flush at the launch's end is done. -/
  ended : Bool
  keysReq : Bool
  world : Option Nat
  done : Bool
  killed : Bool
  /-- Physical core of each logical core plus 1, 0 where none is mapped yet; teams placed of each (R312). -/
  lmap : List Nat
  lnext : List Nat
  /-- Later grids are held back (R310). -/
  hold : Bool
  /-- The completion record is written; its release completes at this tick (R316). -/
  closing : Option Nat
  /-- The launch's end has requested its keystone (R102). -/
  endKey : Bool
  /-- Lines of the launch's own writes (flushes, its completion record) with their Tw, and those lost before it (R134). -/
  tail : List (Nat × Nat)
  lost : List Nat
  deriving DecidableEq, Repr

/-- A live context (R305): the descriptor it was read from and its counters. -/
structure Context where
  fn : Nat
  ctx : Nat
  desc : List Byte
  nslot : Nat
  /-- Fault records written (R325). -/
  seq : Nat
  /-- The release before the add to FCTR, and to SCTR, completes at this tick (R327, R328). -/
  fpost : Option Nat
  spost : Option Nat
  deriving DecidableEq, Repr

/-- A work queue (R306, R307). -/
structure Queue where
  q : Nat
  fn : Nat
  qdesc : Dword
  tail : Nat
  head : Nat
  ctxdesc : Nat
  ring : Nat
  rsize : Nat
  prio : Nat
  err : Nat
  errAt : Nat
  resident : Bool
  /-- Order of the doorbell write that made it pending. -/
  order : Nat
  /-- The context descriptor has been read since the last QDESC write (R305). -/
  admitted : Bool
  /-- Its context was killed; it consumes nothing until its QDESC is written (R342). -/
  held : Bool
  /-- The end of one of its launches was never reported to it (R316). -/
  unreported : Bool
  /-- The context it names, as its admission read it (R305). -/
  ctxId : Nat
  deriving DecidableEq, Repr

/-- A task (R317, R318). -/
structure Task where
  id : Nat
  grid : Nat
  cluster : Nat
  bytes : List Byte
  /-- It holds an entry of the fallback table, or needs none. -/
  entry : Bool
  /-- Its counters have met their thresholds. -/
  ready : Bool
  /-- Tick at which it became eligible. -/
  since : Option Nat
  /-- Its task team, once that is placed. -/
  team : Option Nat
  /-- The serial of the task team it has been gathered into (R319). -/
  formed : Option Nat
  deriving DecidableEq, Repr

/-- A core's shadow bank (R313). -/
structure Bank where
  ctx : Option (Nat × Nat)
  since : Nat
  /-- Accumulator tiles a0 to a15 of the bank's set, 4,096 bytes each; an empty or absent one is all zero. -/
  acc : List (List Byte)
  accPoison : List Nat
  deriving DecidableEq, Repr
/-- A core (R313, R146). -/
structure Core where
  core : Nat
  banks : List Bank
  active : Nat
  switchUntil : Nat
  since : Nat
  pointer : Nat
  split : Nat
  deriving DecidableEq, Repr

/-- A wave that holds an issue slot (R146, R148). -/
structure Wave where
  core : Nat
  slot : Nat
  members : List Nat
  count : Nat
  deriving DecidableEq, Repr

/-- A tile name entry (R72 to R84). -/
structure TileName where
  name : Nat
  state : Nat
  parts : List Nat
  krem : Nat
  kills : Nat
  ty : Nat
  rows : Nat
  cols : Nat
  epoch : Nat
  data : Memory
  poison : List Nat
  /-- Place of each part: 2 the backing area; else 4 c for the register file of core c of the cluster, 4 c + 1 for its SRAM (R83). -/
  places : List Nat
  deriving DecidableEq, Repr
/-- A tile space (R73, R86): a context's names on a cluster, or saved. -/
structure Space where
  id : Nat
  fn : Nat
  ctx : Nat
  cluster : Option Nat
  slot : Nat
  names : List TileName
  deriving DecidableEq, Repr

/-- A cluster's ownership and arbiter (Table 16.1, R320). -/
structure Cluster where
  cluster : Nat
  /-- Assigned (V). -/
  v : Bool
  owner : Nat
  borrower : Nat
  cstate : Nat
  auto : Bool
  margin : Bool
  deadline : Nat
  lastCore : Nat
  lastGrant : Nat
  /-- The serial of the next task team (R319). -/
  serial : Nat
  deriving DecidableEq, Repr

/-- A shape of a world: its id, and its component types with their element sizes, in ascending type order (R96). -/
structure Shape where
  id : Nat
  types : List (Nat × Nat)
  deriving DecidableEq, Repr
/-- A column segment (R97): its shape, its high-water mark and, bit for row, its live mask. -/
structure Segment where
  seg : Nat
  shape : Nat
  high : Nat
  mask : Nat
  deriving DecidableEq, Repr
/-- A directory entry of an index that has been used (R93, R94). -/
structure Entity where
  index : Nat
  gen : Nat
  live : Bool
  shape : Nat
  seg : Nat
  row : Nat
  deriving DecidableEq, Repr
/-- A queued edit (R100): 0 NEW, 1 DEL, 2 ADD, 3 REM; the system rank and the number of its launch, which gives the acceptance order; its operands. -/
structure Edit where
  op : Nat
  rank : Nat
  grid : Nat
  team : Nat
  tid : Nat
  seq : Nat
  /-- Handle, or the address of a NEW's component list. -/
  handle : Nat
  /-- Type, or the address of a NEW's result slot. -/
  arg : Nat
  deriving DecidableEq, Repr
/-- The tables of one generation (R99): shapes, segments in list order, directory; open views of it. -/
structure Tables where
  gen : Nat
  shapes : List Shape
  segs : List Segment
  entities : List Entity
  views : Nat
  deriving DecidableEq, Repr
/-- A piece of a keystone's work (R103, R104): the edits taken, the edits of one entity, one creation, the planning of compaction, one copied segment, one moved row, the release of a shape's empty segments and of the shape. -/
inductive KTask where
  | drain (edits : List Edit) (head : Nat)
  | destroy (edits : List Edit)
  | change (edits : List Edit)
  | create (e : Edit)
  | plan
  | copySeg (src dst : Nat)
  | moveRow (shape sseg srow dseg drow : Nat)
  | release (shape : Nat)
  deriving DecidableEq, Repr
/-- A world (R90 to R111). -/
structure World where
  fn : Nat
  id : Nat
  desc : List Byte
  /-- The published generation and the pinned ones. -/
  tables : List Tables
  cur : Nat
  edits : List Edit
  /-- QHEAD, QTAIL, FHEAD, FTAIL, FREADY, NEXTNEW of the control block (Table 5.7). -/
  qhead : Nat
  qtail : Nat
  fifo : List Nat
  fhead : Nat
  ftail : Nat
  fready : Nat
  nextNew : Nat
  /-- Teams with an open view, and its generation. -/
  viewTeams : List (Nat × Nat)
  /-- Grids with a request for a keystone, and those that the running keystone satisfies (R102). -/
  keyReq : List Nat
  taken : List Nat
  /-- The keystone that runs: what is left of it, the tables it builds, its report counts, its largest Tw, the tick its publish is set for. -/
  todo : List KTask
  next : Option Tables
  counts : List Nat
  maxTw : Nat
  pubAt : Option Nat
  /-- Stopped at a fault (R107). -/
  stopped : Bool
  /-- A write of the running keystone was lost before its Tw (R134). -/
  lost : Bool
  deriving DecidableEq, Repr

/-- A binner request (R300, R304). -/
structure BinReq where
  id : Nat
  cluster : Nat
  team : Nat
  threads : List Nat
  pred : Nat
  frame : Nat
  started : Bool
  saved : Bool
  pc : Dword
  fault : Option (Cause × Detail)
  /-- The tick at which its writes are complete, once they are made. -/
  target : Option Nat
  /-- Whether P becomes true, and BINSTAT. -/
  result : Nat
  /-- The merge tree's resume record, once the request was interrupted, and its address while it stands in the image (R304). -/
  record : List Byte
  recordAt : Nat
  deriving DecidableEq, Repr

/-- A save slot's contents, held as the device's own record (R333). -/
structure SaveSlot where
  fn : Nat
  ctx : Nat
  slot : Nat
  team : Bool
  teams : List Nat
  /-- The context's tile space on the cluster that was left (R86). -/
  space : Option Nat
  acc : List (List Byte)
  accPoison : List Nat
  tick : Nat
  deriving DecidableEq, Repr

/-- A region of a snapshot or a restore (R355): its 96-byte entry and, at the cut, the physical 4 KiB page of each of its virtual ones. -/
structure SnapRegion where
  entry : List Byte
  map : List (Nat × Nat)
  deriving DecidableEq, Repr
/-- An armed or streaming snapshot (R355, R356). -/
structure Snap where
  fn : Nat
  /-- SNAPCTL, SNAPLIST, SNAPDST, SNAPJOB as they stood at GO. -/
  ctl : Nat
  list : Nat
  dst : Nat
  job : Nat
  /-- The event of the cut has happened (R355), in this context. -/
  due : Option Nat
  cut : Option Nat
  regions : List SnapRegion
  /-- The worlds of the world regions as they stood at the cut. -/
  worlds : List World
  /-- Physical 4 KiB pages of the regions that are still copy-on-write. -/
  pages : List Nat
  /-- Pages copied aside: page, bytes, poisoned lines. -/
  pre : List (Nat × List Byte × List Nat)
  /-- Shards and manifest written (1), COMPLETE written (2), and the tick at which the release after it completes. -/
  stage : Nat
  target : Nat
  deriving DecidableEq, Repr

/-- A signal that leaves the device (R358, R359, R41, R259). -/
inductive Signal where
  | msix (fn vector : Nat)
  /-- An access to the host window: link, PASID, physical address. -/
  | host (link pasid pa : Nat) (x : Payload)
  /-- An access to a peer window: the requester's tenant tag, physical address. -/
  | peer (tag : Dword) (pa : Nat) (x : Payload)
  /-- What a read from outside returns, and whether a line of it is poisoned (R135). -/
  | readReply (pa : Nat) (data : List Byte) (poisoned : Bool)
  /-- A translation or page request for a waiting request (0: for a unit's access): link, PASID. -/
  | hostRequest (req link pasid : Nat) (pageRequest : Bool)
  | reject (pa : Nat)
  /-- A rank leaves a collective: function, group, sequence number (R260). -/
  | collectiveOver (fn group seq : Nat)
  deriving DecidableEq, Repr

/-- A device register: function, privileged page, offset; unlisted registers hold their reset value. -/
structure Reg where
  fn : Nat
  priv : Bool
  off : Nat
  value : Dword
  deriving DecidableEq, Repr

/-- A translation shootdown under way (R37, R38): the register page it was asked through (none: the host's ATC), what it names, and the number that tells older accesses from later ones. -/
structure Shoot where
  page : Option Nat
  fn : Nat
  ctx : Nat
  /-- 0 pages, 1 whole context, 2 whole function. -/
  scope : Nat
  lo : Nat
  len : Nat
  id : Nat
  deriving DecidableEq, Repr

/-- A page that is being migrated (R32, R34): the register page it was asked through, the page, its destination. -/
structure Mig where
  page : Nat
  fn : Nat
  ctx : Nat
  va : Nat
  size : Nat
  dst : Nat
  /-- Its physical address when it was locked. -/
  src : Nat
  /-- The number that tells older accesses from later ones. -/
  id : Nat
  deriving DecidableEq, Repr

/-- A deck's clock (R354): steps of 25 MHz below the ceiling, stretch events, a sag that lasts. -/
structure DeckClock where
  deck : Nat
  steps : Nat
  stretches : Nat
  sag : Bool
  deriving DecidableEq, Repr

/-- An encoder (R361): the index of its next job, whether it is paused, the owner's view when its job started, and the tick at which the release after the job's writes completes. -/
structure Encoder where
  engine : Nat
  head : Nat
  paused : Bool
  start : Nat
  post : Option Nat
  deriving DecidableEq, Repr

/-- A line of a cluster's metadata cache (R64). -/
structure MetaLine where
  cluster : Nat
  fn : Nat
  ctx : Nat
  line : Nat
  expiry : Nat
  bytes : List Byte
  deriving DecidableEq, Repr
/-- An entry of a core's layout cache, tagged by context and record address (R62). -/
structure LayoutLine where
  core : Nat
  fn : Nat
  ctx : Nat
  addr : Nat
  bytes : List Byte
  deriving DecidableEq, Repr
/-- Memory and caches. -/
structure Mem where
  bytes : Memory
  /-- Poisoned 128-byte lines. -/
  poison : List Nat
  l1 : List L1Line
  l2 : List L2Line
  /-- (slice, eviction horizon), 0 where unlisted (R49). -/
  horizon : List (Nat × Nat)
  /-- (slice, way, bitmap), 0 where unlisted (R58). -/
  history : List (Nat × Nat × Nat)
  /-- (64 KiB block, count), 0 where unlisted (R33). -/
  access : List (Nat × Nat)
  tlb : List Tlb
  walk : List WalkEntry
  /-- ATC: (function, PASID context, host page) (R41). -/
  atc : List (Nat × Nat × Nat)
  metaLines : List MetaLine
  migrating : List Mig
  /-- (line, Tw) of the last write to a line that its slice no longer holds, while Tw lies ahead (R53). -/
  late : List (Nat × Nat)
  /-- Counter lines that the launch unit watches for a team saved alone: team, line, and whether a write to it has been seen (R314). -/
  watches : List (Nat × Nat × Bool)
  /-- Layout caches of the cores (R62). -/
  layouts : List LayoutLine
  /-- Last Tw of each inbound stream (R132). -/
  streams : List (Nat × Nat)
  deriving DecidableEq, Repr

/-- The whole machine. -/
structure State where
  gtick : Nat
  mem : Mem
  threads : List Thread
  teams : List Team
  grids : List Grid
  contexts : List Context
  queues : List Queue
  /-- Owner bytes of queues: (q, owner), 0 where unlisted (R306). -/
  qown : List (Nat × Nat)
  tasks : List Task
  cores : List Core
  clusters : List Cluster
  waves : List Wave
  reqs : List Req
  coll : List CollEntry
  copies : List Copy
  bins : List BinReq
  spaces : List Space
  worlds : List World
  faults : List FaultRec
  services : List SvcRec
  slots : List SaveSlot
  snaps : List Snap
  shoots : List Shoot
  regs : List Reg
  /-- Deck roles: true compute, false memory-only (R2, R352). -/
  decks : List Bool
  /-- TOPO: GEN, STEP, DECK (Table 16.6). -/
  topo : Nat × Nat × Nat
  /-- Deck clocks; an unlisted deck runs at the ceiling (R354). -/
  clock : List DeckClock
  /-- Descheduled functions with the tick it happened, and STOLEN counts (R349, R350). -/
  halted : List (Nat × Nat)
  stolen : List (Nat × Nat)
  /-- Bytes served at an HBM4E channel to a function in the current bandwidth window, under 17 times the channel plus the function, and the window's first tick (R348). -/
  served : List (Nat × Nat)
  window : Nat
  /-- Atomics that a slice has served for a function in the present round, under 17 times the slice plus the function (R348). -/
  turns : List (Nat × Nat)
  /-- Collective sequence numbers: (function, group, next) (R259). -/
  collSeq : List (Nat × Nat × Nat)
  /-- Running firmware digest and rollback counter (R360). -/
  firmware : List Byte × Nat
  enc : List Encoder
  /-- Worlds that this device has written into checkpoints, by the shard's digest (R356, R357). -/
  kept : List (List Byte × World)
  outbox : List Signal
  /-- Tick up to which the watchdogs have counted (the model's own). -/
  watched : Nat
  /-- Device steps that come next (the model's own). -/
  agenda : List Instr
  /-- Counter the free values are applied to (the model's own). -/
  free : Nat
  /-- Number of issued instructions, which groups an instruction's faults (the model's own). -/
  issue : Nat
  /-- Next fresh number (the model's own). -/
  nextId : Nat
  /-- Which kind of device step the default schedule tries next (the model's own). -/
  beat : Nat
  /-- Writes of running keystones whose Tw lies ahead: function, world, line, Tw (R105, R134). -/
  keyTail : List (Nat × Nat × Nat × Nat)
  /-- A unit's write of the step that runs meets a page under migration: the step is not taken now (R34; the model's own, false between steps). -/
  waits : Bool
  deriving DecidableEq, Repr

/-- No bytes, no lines, no translations. -/
def Mem.reset : Mem :=
  ⟨[], [], [], [], [], [], [], [], [], [], [], [], [], [], [], []⟩

/-- Clusters at reset: not assigned (Table 16.1). -/
def Cluster.reset (n : Nat) : Cluster := ⟨n, false, 0, 0, 0, false, false, 0, 0, 0, 0⟩
/-- A bank at reset: no context. -/
def Bank.reset : Bank := ⟨none, 0, [], []⟩
/-- A core at reset: bank 0 active, split 0. -/
def Core.reset (n : Nat) : Core := ⟨n, [Bank.reset, Bank.reset], 0, 0, 0, 0, 0⟩

/-- The machine right after reset (R349, R352): every function runs, nothing is resident; deck roles come from the service controller at boot. -/
def State.reset : State :=
  { gtick := 0, mem := Mem.reset, threads := [], teams := [], grids := [], contexts := [], queues := [], qown := [],
    tasks := [], cores := [], clusters := [], waves := [], reqs := [], coll := [],
    copies := [], bins := [], spaces := [], worlds := [], faults := [], services := [], slots := [], snaps := [], shoots := [], regs := [],
    decks := (List.range 8).map (fun d => Config.bootCompute d || d == Config.bootDeck % 8), topo := (0, 0, 0), clock := [], halted := [], stolen := [], served := [], window := 0, turns := [],
    collSeq := [], firmware := (Config.bootDigest, Config.fusedRollback), enc := [], kept := [], outbox := [], watched := 0,
    agenda := [], free := 0, issue := 0, nextId := 1, beat := 0, keyTail := [], waits := false }

end Sys2Proof.Machine
end

