-- ==== Sys2Proof/Machine/Ops.lean ====
section
/-! DEFINITION. The named operations over memory, registers, threads, teams and device registers; raising a fault; issuing an instruction of a wave (spec/07_execution_model.md R141 to R158, spec/10_control_and_integer_instructions.md R201 to R203, spec/15_faults_and_preemption.md R322 to R326). -/
namespace Sys2Proof.Machine

/-! ### Bytes -/

/-- The byte at an address: 0 where nothing is listed (notes/assumptions 1). -/
def Memory.read : Memory → Nat → Byte
  | [], _ => 0
  | (b, x) :: m, a => if a = b then x else if a < b then 0 else Memory.read m a
/-- The memory with one byte written, in the canonical form. -/
def Memory.write : Memory → Nat → Byte → Memory
  | [], a, y => if y = 0 then [] else [(a, y)]
  | (b, x) :: m, a, y =>
    if a < b then (if y = 0 then (b, x) :: m else (a, y) :: (b, x) :: m)
    else if a = b then (if y = 0 then m else (a, y) :: m)
    else (b, x) :: Memory.write m a y
/-- Addresses strictly rise from a bound on, and no listed byte is 0. -/
def Memory.wfFrom : Nat → Memory → Bool
  | _, [] => true
  | lo, (b, x) :: m => decide (lo ≤ b) && x != 0 && Memory.wfFrom (b + 1) m
/-- The canonical form of a memory. -/
def Memory.wf (m : Memory) : Bool := Memory.wfFrom 0 m
/-- n bytes from an address on. -/
def Memory.readN (m : Memory) (a : Nat) : Nat → List Byte
  | 0 => []
  | n + 1 => m.read a :: Memory.readN m (a + 1) n
/-- Bytes written from an address on. -/
def Memory.writeN (m : Memory) (a : Nat) : List Byte → Memory
  | [] => m
  | b :: bs => Memory.writeN (m.write a b) (a + 1) bs

/-- The number of little-endian bytes. -/
def leNat : List Byte → Nat
  | [] => 0
  | b :: bs => b.toNat + 256 * leNat bs
/-- A number as n little-endian bytes. -/
def leBytes (x : Nat) : Nat → List Byte
  | 0 => []
  | n + 1 => BitVec.ofNat 8 x :: leBytes (x / 256) n
/-- Field of n bytes at an offset of a record, as a number. -/
def fieldOf (bs : List Byte) (off n : Nat) : Nat := leNat ((bs.drop off).take n)

/-! ### Lists with keys -/

/-- Value of a key in a sparse list, with a default. -/
def lookupD {β : Type} (d : β) : List (Nat × β) → Nat → β
  | [], _ => d
  | (k, v) :: l, n => if k = n then v else lookupD d l n
/-- A key's value set in a sparse list. -/
def insertKey {β : Type} (l : List (Nat × β)) (n : Nat) (v : β) : List (Nat × β) :=
  (n, v) :: l.filter (fun p => p.1 ≠ n)
/-- Element n of a list, with a default. -/
def nth {α : Type} (d : α) (l : List α) (n : Nat) : α := l.getD n d
/-- Element n replaced; the list grows with the default where it is shorter. -/
def setNth {α : Type} (d : α) : List α → Nat → α → List α
  | [], 0, x => [x]
  | [], n + 1, x => d :: setNth d [] n x
  | _ :: l, 0, x => x :: l
  | y :: l, n + 1, x => y :: setNth d l n x
/-- Inserts by a key in rising order, after equals. -/
def insertBy {α : Type} (key : α → Nat) (x : α) : List α → List α
  | [] => [x]
  | y :: l => if key x < key y then x :: y :: l else y :: insertBy key x l
/-- Sorts by a key, keeping the order of equals. -/
def sortBy {α : Type} (key : α → Nat) (l : List α) : List α := l.foldr (fun x acc => insertFront x acc) []
where
  /-- Inserts before equals, so that folding from the right keeps their order. -/
  insertFront (x : α) : List α → List α
    | [] => [x]
    | y :: l => if key x ≤ key y then x :: y :: l else y :: insertFront x l

/-! ### Threads, teams, grids, contexts -/

/-- A thread that does not exist, as a default of lookups. -/
def Thread.blank : Thread :=
  ⟨0, 0, 0, 0, 0, 0, 0, 0, [], 1, 0, 0, 0, 0, 0, 0, .exited, none, .exited, [], 0, 0, [], [], [], 0, {}, none, false, 0, 0, 0, [], false, 0, [], false, none, []⟩
/-- A team that does not exist. -/
def Team.blank : Team :=
  ⟨0, 0, 0, 0, 0, 0, 0, 0, 0, 0, none, 0, [], [], [], [], [], [], [], [], [], [], 0, 0, 2048, 0, [], 0, 0, 0, 0, [], 0, [], 0, [], none, 0, false, 0, false⟩
/-- A grid that does not exist. -/
def Grid.blank : Grid :=
  ⟨0, 0, 0, 0, 0, 0, none, [], [], [], 0, 0, none, 0, 0, 0, 0, 0, 0, 0, 0, [], 0, false, 0, none, false, false, none, true, false, [], [], false, none, false, [], []⟩

/-- The thread of a number. -/
def State.thr (s : State) (u : Nat) : Thread := (s.threads.find? (fun t => t.uid == u)).getD Thread.blank
/-- Applies a change to one thread. -/
def State.modThr (s : State) (u : Nat) (f : Thread → Thread) : State :=
  { s with threads := s.threads.map (fun (t : Thread) => if t.uid = u then f t else t) }
/-- The team of a number. -/
def State.tm (s : State) (u : Nat) : Team := (s.teams.find? (fun t => t.uid == u)).getD Team.blank
/-- Applies a change to one team. -/
def State.modTeam (s : State) (u : Nat) (f : Team → Team) : State :=
  { s with teams := s.teams.map (fun t => if t.uid = u then f t else t) }
/-- The grid of a number. -/
def State.gr (s : State) (u : Nat) : Grid := (s.grids.find? (fun g => g.uid == u)).getD Grid.blank
/-- Applies a change to one grid. -/
def State.modGrid (s : State) (u : Nat) (f : Grid → Grid) : State :=
  { s with grids := s.grids.map (fun g => if g.uid = u then f g else g) }
/-- The team of a thread. -/
def State.teamOf (s : State) (u : Nat) : Team := s.tm (s.thr u).team
/-- The grid of a thread. -/
def State.gridOf (s : State) (u : Nat) : Grid := s.gr (s.teamOf u).grid
/-- The context of a function and id. -/
def State.context? (s : State) (fn ctx : Nat) : Option Context := s.contexts.find? (fun c => c.fn == fn && c.ctx == ctx)
/-- Applies a change to a context. -/
def State.modCtx (s : State) (fn ctx : Nat) (f : Context → Context) : State :=
  { s with contexts := s.contexts.map (fun c => if c.fn = fn ∧ c.ctx = ctx then f c else c) }
/-- A core's state; an unlisted core is as at reset. -/
def State.core (s : State) (n : Nat) : Core := (s.cores.find? (fun c => c.core == n)).getD (Core.reset n)
/-- Sets a core's state. -/
def State.setCore (s : State) (c : Core) : State := { s with cores := c :: s.cores.filter (fun d => d.core != c.core) }
/-- A cluster's state; an unlisted cluster is as at reset. -/
def State.cluster (s : State) (n : Nat) : Cluster := (s.clusters.find? (fun c => c.cluster == n)).getD (Cluster.reset n)
/-- Sets a cluster's state. -/
def State.setCluster (s : State) (c : Cluster) : State := { s with clusters := c :: s.clusters.filter (fun d => d.cluster != c.cluster) }
/-- A bank of a core. -/
def State.bank (s : State) (core bank : Nat) : Bank := nth Bank.reset (s.core core).banks bank
/-- Sets a bank of a core. -/
def State.setBank (s : State) (core bank : Nat) (b : Bank) : State :=
  let c := s.core core
  s.setCore { c with banks := setNth Bank.reset c.banks bank b }
/-- The cluster of a core: four cores to a cluster (R1). -/
def clusterOf (core : Nat) : Nat := core / 4
/-- The deck of a core: 64 cores to a deck (R1). -/
def deckOf (core : Nat) : Nat := core / 64

/-- Threads of a team. -/
def State.threadsOf (s : State) (team : Nat) : List Thread := s.threads.filter (fun t => t.team == team)
/-- A live thread is one that is not EXITED (R139). -/
def Thread.live (t : Thread) : Bool := t.phase != .exited
/-- Live threads of a team. -/
def State.liveOf (s : State) (team : Nat) : List Thread := (s.threadsOf team).filter Thread.live
/-- Teams of a grid. -/
def State.teamsOf (s : State) (grid : Nat) : List Team := s.teams.filter (fun t => t.grid == grid)

/-! ### Launch record fields (Table 14.4) -/

/-- A field of the grid's launch record. -/
def Grid.field (g : Grid) (off n : Nat) : Nat := fieldOf g.record off n
/-- Base register count B. -/
def Grid.bregs (g : Grid) : Nat := g.field 26 1
/-- DET flag. -/
def Grid.det (g : Grid) : Bool := (g.field 29 1).testBit 0
/-- SAFE flag. -/
def Grid.safe (g : Grid) : Bool := (g.field 29 1).testBit 1
/-- PRIORITY. -/
def Grid.priority (g : Grid) : Nat := bitsOf (g.field 29 1) 4 2
/-- Entry PC. -/
def Grid.entry (g : Grid) : Nat := g.field 0 8
/-- Threads of a team: the product of the team dimensions. -/
def Grid.teamSize (g : Grid) : Nat := g.field 20 2 * g.field 22 2 * g.field 24 2
/-- Teams of the grid. -/
def Grid.teamCount (g : Grid) : Nat := g.field 8 4 * g.field 12 4 * g.field 16 4
/-- A write of the launch's own has been accepted at L2 with its Tw (R134). -/
def Grid.wrote (line tw now : Nat) (g : Grid) : Grid :=
  { g with tail := (if now < tw then [(line, tw)] else []) ++ g.tail.filter (fun w => decide (now < w.2)) }
/-- DET of a team's launch. -/
def State.det (s : State) (team : Nat) : Bool := (s.gr (s.tm team).grid).det

/-! ### Time and device registers -/

/-- Ticks withheld from a function (R350). -/
def State.stolenOf (s : State) (fn : Nat) : Nat :=
  let base := lookupD 0 s.stolen fn
  match s.halted.find? (fun p => p.1 == fn) with
  | some (_, t) => base + (s.gtick - t)
  | none => base
/-- The function's view of GTICK (R112, R350). -/
def State.viewOf (s : State) (fn : Nat) : Nat := s.gtick - s.stolenOf fn

/-- Reset value of a device register the spec names; 0 for every other (notes/assumptions 2). -/
def regReset (fn : Nat) (priv : Bool) (off : Nat) : Dword :=
  if priv then
    (if 0x1000 ≤ off ∧ off ≤ 0x1040 ∧ off % 4 = 0 then 0xFFFF
     else if 0x1600 ≤ off ∧ off ≤ 0x1680 ∧ off % 8 = 0 then 0x100000000
     else 0)
  else (if off = 0x700 ∧ fn ≤ 16 then 10000000000 else 0)
/-- A device register's value. -/
def State.reg (s : State) (fn : Nat) (priv : Bool) (off : Nat) : Dword :=
  match s.regs.find? (fun r => r.fn == fn && r.priv == priv && r.off == off) with
  | some r => r.value
  | none => regReset fn priv off
/-- Sets a device register. -/
def State.setReg (s : State) (fn : Nat) (priv : Bool) (off : Nat) (v : Dword) : State :=
  { s with regs := ⟨fn, priv, off, v⟩ :: s.regs.filter (fun r => !(r.fn == fn && r.priv == priv && r.off == off)) }

/-- k events of a code are counted in a function's performance counters, while it runs (R351). -/
def State.count (s : State) (fn code k : Nat) : State :=
  if s.regs.isEmpty || s.halted.any (fun h => h.1 == fn) then s
  else
    (List.range 8).foldl (fun s n =>
      if (s.reg fn false (0x900 + 8 * n)).toNat % 256 == code then s.setReg fn false (0x980 + 8 * n) (s.reg fn false (0x980 + 8 * n) + BitVec.ofNat 64 k) else s) s

/-- A fresh number. -/
def State.fresh (s : State) : Nat × State := (s.nextId, { s with nextId := s.nextId + 1 })
/-- A free choice among n candidates. -/
def State.pick (s : State) (n : Nat) : Nat × State :=
  if n ≤ 1 then (0, s) else (Config.choose s.free n % n, { s with free := s.free + 1 })
/-- Free bytes: the device's own formats, and what a unit reads in host or peer memory (notes/assumptions 6 and 30). -/
def freeBytes (n : Nat) (s : State) : List Byte × State := ((List.range n).map (Config.byte s.free), { s with free := s.free + 1 })
/-- A signal leaves the device. -/
def State.send (s : State) (x : Signal) : State := { s with outbox := s.outbox ++ [x] }

/-! ### Registers of a thread -/

/-- v register n. -/
def Thread.rv (t : Thread) (n : Nat) : Word := nth 0 t.v n
/-- v pair n. -/
def Thread.rpair (t : Thread) (n : Nat) : Dword := pairOf (t.rv n) (t.rv (n + 1))
/-- A v register written; a register the thread does not own is left alone. Writing clears its poison mark. -/
def Thread.wv (t : Thread) (n : Nat) (x : Word) : Thread :=
  { t with v := t.v.set n x, poison := t.poison.filter (· ≠ n) }
/-- A v pair written, low word in the even register. -/
def Thread.wpair (t : Thread) (n : Nat) (x : Dword) : Thread := (t.wv n (lowWord x)).wv (n + 1) (highWord x)
/-- Predicate n; p0 reads true (R186). -/
def Thread.rp (t : Thread) (n : Nat) : Bool := n == 0 || t.p.getLsbD n
/-- A predicate written; a write to p0 is discarded (R186). -/
def Thread.wp (t : Thread) (n : Nat) (b : Bool) : Thread :=
  if n = 0 then t else { t with p := if b then t.p ||| (1#8 <<< n) else t.p &&& ~~~(1#8 <<< n) }
/-- Flags ORed into FLAGS (R170). -/
def Thread.orFlags (t : Thread) (f : Flags) : Thread := { t with flags := t.flags ||| f }
/-- A write of the thread has been accepted at L2 with its Tw (R120 item 4, R134). -/
def Thread.wrote (line va tw now : Nat) (t : Thread) : Thread :=
  { t with maxTw := max t.maxTw tw, tail := (if now < tw then [(line, tw, va / 128)] else []) ++ t.tail.filter (fun w => decide (now < w.2.1)) }
/-- A write of an engine's for the thread has been accepted: it can be lost until its Tw (R134), and no release waits for it (R120). -/
def Thread.traced (line va tw now : Nat) (t : Thread) : Thread :=
  { t with tail := (if now < tw then [(line, tw, va / 128)] else []) ++ t.tail.filter (fun w => decide (now < w.2.1)) }
/-- Registers the thread owns (R141): base count and claimed blocks. -/
def Thread.owned (t : Thread) : Nat := t.v.length
/-- A guard's value in a thread (R185). -/
def Thread.guard (t : Thread) (g : Guard) : Bool := if g.pred == 0 then true else t.rp g.pred.toNat != g.neg

/-- Flags of work that ends after its thread's exit go into the team's flag word (R170, R171). -/
def State.lateFlags (s : State) (u : Nat) (f : Flags) : State :=
  let s := s.modThr u (fun t => t.orFlags f)
  if (s.thr u).phase == .exited then s.modTeam (s.thr u).team (fun tm => { tm with flagWord := tm.flagWord ||| f }) else s
/-- A counter of a class. -/
def Thread.counter (t : Thread) : Cls → Nat
  | .ld => t.ld | .st => t.st | .cp => t.cp | .tl => t.tl | .none => 0
/-- A counter raised by one. -/
def Thread.countUp (t : Thread) : Cls → Thread
  | .ld => { t with ld := t.ld + 1 } | .st => { t with st := t.st + 1 }
  | .cp => { t with cp := t.cp + 1 } | .tl => { t with tl := t.tl + 1 } | .none => t
/-- A counter lowered by one. -/
def Thread.countDown (t : Thread) : Cls → Thread
  | .ld => { t with ld := t.ld - 1 } | .st => { t with st := t.st - 1 }
  | .cp => { t with cp := t.cp - 1 } | .tl => { t with tl := t.tl - 1 } | .none => t
/-- Every counter at or below its limit (R219). -/
def Thread.within (t : Thread) (l : List Nat) : Bool :=
  decide (t.ld ≤ nth 63 l 0) && decide (t.st ≤ nth 63 l 1) && decide (t.cp ≤ nth 63 l 2) && decide (t.tl ≤ nth 63 l 3)

/-- The thread becomes READY at its next PC, age 0 (Table 7.4, R147); under a deferred fault its wait is over (R324). -/
def Thread.wake (t : Thread) : Thread :=
  if t.phase == .faulted then { t with under := .ready, pc := t.npc, wait := {}, passBp := false } else { t with phase := .ready, pc := t.npc, age := 0, wait := {}, passBp := false }
/-- The thread becomes READY at the same PC, to issue the instruction afresh. -/
def Thread.wakeAfresh (t : Thread) : Thread :=
  if t.phase == .faulted then { t with under := .ready, wait := {} } else { t with phase := .ready, age := 0, wait := {} }

/-- s register n of a team. -/
def Team.rs (t : Team) (n : Nat) : Word := nth 0 t.s n
/-- s pair n. -/
def Team.rspair (t : Team) (n : Nat) : Dword := pairOf (t.rs n) (t.rs (n + 1))
/-- The context a thread belongs to. -/
def State.ctxOf (s : State) (u : Nat) : Nat × Nat := let g := s.gridOf u; (g.fn, g.ctx)

/-! ### Faults -/

/-- The numeric code of a cause (Table 15.1). -/
def Cause.code : Cause → Nat
  | .illegalOpcode => 0x01 | .reservedField => 0x02 | .safeDecode => 0x03
  | .uniformBranch => 0x08 | .uniformMix => 0x09 | .claimDeadlock => 0x0A | .depthLimit => 0x0B | .convLane => 0x0C
  | .pageNotPresent => 0x10 | .pageProtection => 0x11 | .alignment => 0x12 | .bounds => 0x13 | .rangeLock => 0x14
  | .promiseMissed => 0x15 | .staleHandle => 0x16 | .tileName => 0x17 | .poison => 0x18 | .fenceLost => 0x19
  | .service => 0x20 | .brk => 0x21 | .step => 0x22 | .engineFault => 0x30 | .metadata => 0x31
  | .tagParity => 0x38 | .watchdog => 0x3F

/-- Access numbers of KIND [3:0] (R326). -/
def accLoad : Nat := 1
/-- A store. -/
def accStore : Nat := 2
/-- An atomic or reduction. -/
def accAtomic : Nat := 3
/-- An instruction fetch. -/
def accFetch : Nat := 4
/-- An engine read. -/
def accEngineRead : Nat := 5
/-- An engine write. -/
def accEngineWrite : Nat := 6
/-- Marks of KIND [15:4] (R326). -/
def markNonCanonical : Nat := 0x10
/-- Mark: malformed entry. -/
def markMalformed : Nat := 0x20
/-- Mark: unbacked address. -/
def markUnbacked : Nat := 0x40
/-- Mark: layout. -/
def markLayout : Nat := 0x80
/-- Mark: register. -/
def markRegister : Nat := 0x100
/-- Mark: counter. -/
def markCounter : Nat := 0x200
/-- Mark: service. -/
def markService : Nat := 0x400
/-- Mark: world. -/
def markWorld : Nat := 0x800
/-- Mark: reduction log. -/
def markRedLog : Nat := 0x1000
/-- Mark: soft error. -/
def markSoft : Nat := 0x2000
/-- Mark: copy. -/
def markCopy : Nat := 0x4000

/-- WHERE of a record (Table 15.2): core in deck, cluster in deck, deck, bank, saved. -/
def whereOf (t : Team) : Nat :=
  t.core % 64 + (t.core % 64 / 4) * 2 ^ 6 + deckOf t.core * 2 ^ 10 + t.bank * 2 ^ 13 + (if t.saved.isSome then 2 ^ 14 else 0)

/-- A thread takes a precise fault: it becomes FAULTED and keeps its PC (R323). -/
def Thread.fault (t : Thread) : Thread := { t with phase := .faulted, under := .ready, step := false, brk := none }
/-- A thread takes a fault over the state it is in, to which RETRY returns it: a deferred fault, or the watchdog's (R324, R330). -/
def Thread.faultOver (t : Thread) : Thread :=
  match t.phase with
  | .faulted | .exited => t
  | .issuing => { t with phase := .faulted, under := .ready }
  | p => { t with phase := .faulted, under := p }
/-- The thread is in a waiting state, or a deferred fault lies over it (R324). -/
def Thread.waitsIn (t : Thread) (p : Phase) : Bool := t.phase == p || (t.phase == .faulted && t.under == p)

/-- Adds a thread to a record, or starts one. Within an issued instruction there is one record for each team and cause (R323). -/
def addRecord (cause : Cause) (d : Detail) (u : Nat) (fpc spc : Dword) (deferred : Bool) (work : Nat) (s : State) : State :=
  let t := s.thr u
  let tm := s.tm t.team
  let g := s.gr tm.grid
  let bit : Word := 1#32 <<< t.lane
  let same (r : FaultRec) : Bool :=
    !deferred && !r.deferred && r.issue == s.issue && r.team == t.team && r.cause == cause && r.written.isNone && !r.wide
  if s.faults.any same then
    { s with faults := s.faults.map (fun r => if same r then { r with mask := r.mask ||| bit, threads := r.threads ++ [u] } else r) }
  else
    let (id, s) := s.fresh
    let r : FaultRec :=
      ⟨id, cause, d, g.fn, g.ctx, tm.grid, g.gridId, t.team, tm.id, fpc, spc, bit, [u], s.gtick, whereOf tm, false, s.issue, work, deferred, none, 0⟩
    ({ s with faults := s.faults ++ [r] }).modGrid tm.grid (fun g => { g with faults := g.faults + 1 })

/-- TAKING A PRECISE FAULT (R323): the thread becomes FAULTED with its PC at the instruction, and a record names it. -/
def raise (cause : Cause) (d : Detail) (u : Nat) (s : State) : State :=
  let t := s.thr u
  let s := s.modThr u Thread.fault
  addRecord cause d u t.pc t.pc false 0 s

/-- The same fault in several threads, in ascending lane order. -/
def raiseAll (cause : Cause) (d : Detail) (us : List Nat) (s : State) : State :=
  us.foldl (fun s u => raise cause d u s) s

/-- Work that belongs to an earlier instruction: its faults join that instruction's records (R323). -/
def withIssue (k : Nat) (f : State → State) (s : State) : State := { f { s with issue := k } with issue := s.issue }

/-- A fault of a whole team: one record with WIDE = 1 naming every live thread (R323). -/
def raiseWideBy (f : Thread → Thread) (cause : Cause) (d : Detail) (team : Nat) (s : State) : State :=
  let ths := sortBy Thread.tid (s.liveOf team)
  match ths with
  | [] => s
  | t :: _ =>
    let tm := s.tm team
    let g := s.gr tm.grid
    let (id, s) := s.fresh
    let mask := ths.foldl (fun m t => m ||| (1#32 <<< t.lane)) 0
    let r : FaultRec :=
      ⟨id, cause, d, g.fn, g.ctx, tm.grid, g.gridId, team, tm.id, t.pc, t.pc, mask, ths.map (·.uid), s.gtick, whereOf tm, true, s.issue, 0, false, none, 0⟩
    let s := ths.foldl (fun s t => s.modThr t.uid f) s
    ({ s with faults := s.faults ++ [r] }).modGrid tm.grid (fun g => { g with faults := g.faults + 1 })
/-- A precise fault of a whole team. -/
def raiseWide (cause : Cause) (d : Detail) (team : Nat) (s : State) : State := raiseWideBy Thread.fault cause d team s

/-- A deferred fault of engine work (R324): the issuing thread becomes FAULTED at its boundary, the record's FPC is the originating instruction. An EXITED thread stays EXITED. -/
def raiseDeferred (cause : Cause) (d : Detail) (u : Nat) (fpc : Dword) (work : Nat) (s : State) : State :=
  let t := s.thr u
  let s := if t.phase == .exited then s else s.modThr u Thread.faultOver
  let s := { s with waves := s.waves.map (fun w => { w with members := w.members.filter (· ≠ u) }) }
  addRecord cause d u fpc t.pc true work s

/-! ### Scalar writes (R156, R203) -/

/-- What one team-scope write names: an s register, an h register, a c register, or a team-scope special register. -/
inductive TeamReg where
  | s (n : Nat) | h (n : Nat) | c (n : Nat) | special (n : Nat)
  deriving DecidableEq, Repr

/-- The threads that made the register's last write; none for a register never written (notes/assumptions 14). -/
def Team.lastWriters (t : Team) : TeamReg → List Nat
  | .s n => nth [] t.sLast n
  | .h n => nth [] t.hLast n
  | .c n => nth [] t.cLast n
  | .special n => nth [] t.tLast n
/-- Records the writers of a register. -/
def Team.setWriters (t : Team) (r : TeamReg) (w : List Nat) : Team :=
  match r with
  | .s n => { t with sLast := setNth [] t.sLast n w }
  | .h n => { t with hLast := setNth [] t.hLast n w }
  | .c n => { t with cLast := setNth [] t.cLast n w }
  | .special n => { t with tLast := setNth [] t.tLast n w }
/-- The rule of R156 around a write: a partial one sets TEAMSTAT.UMIX when the writers differ and the value differs. -/
def Team.noteWrite (t : Team) (full differs : Bool) (w : List Nat) (r : TeamReg) : Team :=
  let mix := !full && t.lastWriters r != w && differs
  ({ t with teamstat := if mix then t.teamstat ||| 1 else t.teamstat }).setWriters r w
/-- An s register written for a team (R156). -/
def Team.ws (t : Team) (full : Bool) (w : List Nat) (n : Nat) (x : Word) : Team :=
  let t' := t.noteWrite full (t.rs n != x) w (.s n)
  { t' with s := setNth 0 t'.s n x, sPoison := t'.sPoison.filter (· ≠ n) }
/-- An s pair written for a team. -/
def Team.wspair (t : Team) (full : Bool) (w : List Nat) (n : Nat) (x : Dword) : Team :=
  (t.ws full w n (lowWord x)).ws full w (n + 1) (highWord x)

/-! ### Spans and waves -/

/-- The wave that issues now: the first one. -/
def State.wave? (s : State) : Option Wave := s.waves.head?
/-- Threads of a list in ascending lane order. -/
def State.byLane (s : State) (us : List Nat) : List Nat := sortBy (fun u => (s.thr u).lane) us
/-- Ends the first wave's span: its threads still ISSUING become READY with age 0 (R148, R147). -/
def endSpan (s : State) : State :=
  match s.waves with
  | [] => s
  | w :: ws =>
    { s with
      waves := ws
      threads := s.threads.map (fun (t : Thread) => if w.members.contains t.uid && t.phase == .issuing then { t with phase := .ready, age := 0 } else t) }
/-- Whether a wave holds every live thread of a team (R156). -/
def State.holdsAll (s : State) (members : List Nat) (team : Nat) : Bool :=
  (s.liveOf team).all (fun t => members.contains t.uid)
/-- The wave's threads of a team as writers of a register. -/
def writersOf (s : State) (members : List Nat) (team : Nat) : List Nat :=
  sortBy id ((members.filter (fun u => (s.thr u).team == team)).map (fun u => (s.thr u).tid))
/-- The distinct teams of some threads, in the order of their first thread. -/
def teamsIn (s : State) (us : List Nat) : List Nat :=
  us.foldl (fun l u => let t := (s.thr u).team; if l.contains t then l else l ++ [t]) []

/-- The registers an instruction reads and writes, its guard, length and span rule. -/
structure Use where
  g : Guard := Guard.always
  bytes : Nat
  e : Bool
  rv : List Nat := []
  wv : List Nat := []
  rs : List Nat := []
  ws : List Nat := []
  rp : List Nat := []
  wp : List Nat := []
  rh : List Nat := []
  /-- v registers that a thread's operands in memory name, or its guard does (R218, R239, R257): pending, they hold the instruction. -/
  hv : State → Nat → List Nat := fun _ _ => []
  cls : Cls := .none
  /-- Access number that a POISON record of an operand carries (R326). -/
  kind : Nat := 0

/-- A scoreboard stall of one thread (R148, R202, R231): a register it names is pending, or its counter is full. -/
def blocked (u : Use) (s : State) (th : Nat) : Bool :=
  let t := s.thr th
  let tm := s.tm t.team
  (u.g.pred != 0 && t.pendP.contains u.g.pred.toNat) ||
  (t.guard u.g &&
    ((u.rv ++ u.wv).any t.pendV.contains || (u.hv s th).any t.pendV.contains || (u.rp ++ u.wp).any t.pendP.contains ||
     (u.rs ++ u.ws).any tm.pendS.contains || u.rh.any tm.pendH.contains ||
     (u.cls != .none && decide (63 ≤ t.counter u.cls))))

/-- Ownership (R141) and poison (R135) of the registers a true-guard thread names. -/
def checkRegs (u : Use) (s : State) (th : Nat) : Option (Cause × Detail) :=
  let t := s.thr th
  if (u.rv ++ u.wv).any (fun r => decide (t.owned ≤ r)) then some (.reservedField, { kind := markRegister })
  else if u.rv.any t.poison.contains || u.rs.any (s.tm t.team).sPoison.contains then some (.poison, { kind := u.kind })
  else none

/-- A true-guard thread whose operands fault takes its fault (R141, R135). -/
def operandFault (u : Use) (s : State) (m : Nat) : State :=
  match checkRegs u s m with
  | some (c, d) => raise c d m s
  | none => s

/-- After an instruction: threads still ISSUING move to their next PC, and the span ends if the rule says so (R148 items 1, 2, 4; transfers and waits pass ends = true). A thread that the instruction holds as a scoreboard stall ends it too: the next instruction cannot issue for it (R148, R249). -/
def advance (ends : Bool) (s : State) : State :=
  match s.waves with
  | [] => s
  | w :: ws =>
    let ths := s.threads.map (fun (t : Thread) => if w.members.contains t.uid && t.phase == .issuing then { t with pc := t.npc, passBp := false } else t)
    let left := w.members.filter (fun u => (s.thr u).phase == .issuing)
    let s := { s with threads := ths, waves := { w with members := left, count := w.count + 1 } :: ws }
    if ends || decide (24 ≤ w.count + 1) || left.isEmpty || w.members.any (fun u => (s.thr u).phase == .stalled) then endSpan s else s

/-- A scoreboard stall ends the span before the instruction: the blocked threads become STALLED, the others READY (R148). -/
def stallSpan (u : Use) (w : Wave) (s : State) : State :=
  let bl := w.members.filter (blocked u s)
  let held (t : Thread) : Wait :=
    { uv := u.rv ++ u.wv ++ u.hv s t.uid, up := u.g.pred.toNat :: (u.rp ++ u.wp), us := u.rs ++ u.ws, uh := u.rh, ucls := u.cls }
  endSpan { s with threads := s.threads.map (fun (t : Thread) => if bl.contains t.uid then { t with phase := .stalled, wait := held t } else t) }

/-- Whether what a STALLED thread waits for is still outstanding: a pending register, a full counter, a release, a full binner queue (Table 7.4, R202, R249, R300). -/
def stillPending (s : State) (t : Thread) : Bool :=
  let tm := s.tm t.team
  t.rel.isSome || t.wait.uv.any t.pendV.contains || t.wait.up.any t.pendP.contains ||
  t.wait.us.any tm.pendS.contains || t.wait.uh.any tm.pendH.contains ||
  (t.wait.ucls != .none && decide (63 ≤ t.counter t.wait.ucls)) ||
  (t.wait.drain && t.ld != 0) || s.reqs.any (fun r => r.id == t.wait.req && (r.hold || r.ats != 0)) ||
  (t.wait.hold && decide (4 ≤ (s.bins.filter (fun b => b.cluster == clusterOf tm.core && !b.saved && b.fault.isNone)).length))

/-- A barrier in a phase with no arrival. -/
def Bar.fresh (parity : Bool) : Bar := ⟨parity, none, 0, []⟩
/-- A team's barrier b. -/
def Team.bar (t : Team) (b : Nat) : Bar := nth (Bar.fresh false) t.bars b
/-- Sets a team's barrier b. -/
def Team.setBar (t : Team) (b : Nat) (x : Bar) : Team := { t with bars := setNth (Bar.fresh false) t.bars b x }
/-- One arrival; the phase's first arrival fixes the count (R221), and the barrier waits for the arrival's earlier accesses (R123). -/
def Bar.arrive (x : Bar) (count : Option Nat) (reqs : List Nat) : Bar :=
  { x with arrivals := x.arrivals + 1, count := match x.count with | none => some count | c => c, reqs := x.reqs ++ reqs }
/-- A thread's share of a completed phase: its arrival clears, and it wakes if it waits for that phase. -/
def Thread.leaveBarrier (t : Thread) (b : Nat) : Thread :=
  let t := { t with arrived := t.arrived &&& ~~~(1#16 <<< b) }
  if t.waitsIn .barrier && t.wait.reg == b && t.wait.mode == 0 then t.wake else t
/-- A deferred arrival takes effect in the next phase. -/
def Thread.lateArrival (t : Thread) (b : Nat) : Thread :=
  let t := { t with arrived := t.arrived ||| (1#16 <<< b) }
  if t.wait.mode == 1 then t.wake else { t with wait := { t.wait with mode := 0 } }

/-- Every request outstanding, those in the gather collector included. -/
def State.allReqs (s : State) : List Req := s.reqs ++ s.coll.flatMap (·.reqs)
/-- Whether a request is a load, store, gather, scatter or atomic (R120 items 1 and 2). -/
def Req.isAccess (r : Req) : Bool :=
  match r.work with
  | .load _ _ | .loadTeam _ _ _ | .store _ _ | .atomic _ _ _ _ _ _ | .reply _ _ _ _ _ _ | .hbind _ _ _ _ _ _ => true
  | _ => false
/-- Requests a thread's arrival waits for (R123). -/
def arrivalReqs (u : Nat) (s : State) : List Nat := (s.allReqs.filter (fun r => r.isAccess && r.threads.contains u)).map (·.id)
/-- Barrier b of a team completes: the parity flips, waiters wake, and deferred arrivals arrive in the next phase, with the accesses that they wait for (R221, R123). -/
def completeBarrier (team b : Nat) (s : State) : State :=
  let s := s.modTeam team (fun t => t.setBar b (Bar.fresh (!(t.bar b).parity)))
  let s := { s with threads := s.threads.map (fun (t : Thread) => if t.team = team then t.leaveBarrier b else t) }
  let late := (s.threadsOf team).filter (fun (t : Thread) => t.waitsIn .barrier && t.wait.reg == b && t.wait.mode != 0)
  late.foldl (fun s (t : Thread) =>
    (s.modTeam team (fun tm => tm.setBar b ((tm.bar b).arrive t.wait.count (arrivalReqs t.uid s)))).modThr t.uid (fun t => t.lateArrival b)) s

/-- Whether barrier b of a team has reached its count and its arrivals' earlier accesses are done (R221, R123). -/
def barrierDone (team b : Nat) (s : State) : Bool :=
  let tm := s.tm team
  let x := tm.bar b
  let waiting := x.reqs.any (fun r => s.allReqs.any (fun q => q.id == r))
  match x.count with
  | none => false
  | some (some n) => decide (n ≤ x.arrivals) && !waiting
  | some none => (s.liveOf team).all (fun t => t.arrived.getLsbD b) && decide (0 < x.arrivals) && !waiting

/-- Completes every barrier of every team that is done. -/
def settleBarriers (s : State) : State :=
  s.teams.foldl (fun s t =>
    (List.range t.bars.length).foldl (fun s b => if barrierDone t.uid b s then completeBarrier t.uid b s else s) s) s

/-- Waits that end by themselves: WAITC whose counters have fallen (R219), stalls whose registers are written (Table 7.4). -/
def settleThreads (s : State) : State :=
  { s with threads := s.threads.map (fun (t : Thread) =>
      if t.phase == .counterWait && t.within t.wait.limits then t.wake
      else if t.phase == .stalled && !stillPending s t then (if t.wait.go then t.wake else t.wakeAfresh) else t) }

/-- The first free block of the thread's lane, given to it (R142). -/
def giveBlock (u b pred : Nat) (s : State) : State :=
  let t := s.thr u
  let s := s.modTeam t.team (fun tm => { tm with pool := setNth [] tm.pool t.lane ((nth [] tm.pool t.lane).filter (· ≠ b)) })
  s.modThr u (fun t => ({ t with v := t.v ++ List.replicate 16 0, blocks := t.blocks ++ [b] }).wp pred true)
/-- The lowest-numbered free block of a lane. -/
def freeBlock (tm : Team) (lane : Nat) : Option Nat := (sortBy id (nth [] tm.pool lane)).head?
/-- Threads parked in CLAIMW are served in the order in which they parked (R142). -/
def settleClaims (s : State) : State :=
  let ws := sortBy (fun t => t.wait.order) (s.threads.filter (fun t => t.phase == .claimWait))
  ws.foldl (fun s t =>
    match freeBlock (s.tm t.team) t.lane with
    | some b => (giveBlock t.uid b 0 s).modThr t.uid Thread.wake
    | none => s) s
/-- CLAIM_DEADLOCK: every live thread of a team is in CLAIM_WAIT (R142). -/
def settleDeadlock (s : State) : State :=
  s.teams.foldl (fun s tm =>
    let l := s.liveOf tm.uid
    if !l.isEmpty && l.all (fun t => t.phase == .claimWait && t.stopped.isNone) then raiseWide .claimDeadlock {} tm.uid s else s) s

/-! ### Thread records (R335) and the watchdog's count (R339) -/

/-- Number of a state in the row order of Table 7.3. -/
def Phase.number : Phase → Nat
  | .ready => 0 | .issuing => 1 | .stalled => 2 | .counterWait => 3 | .sleep => 4 | .barrier => 5 | .convWait => 6
  | .claimWait => 7 | .regroupWait => 8 | .parked _ => 9 | .faulted => 11 | .exiting => 12 | .exited => 13
/-- Number of a park's cause (Table 15.9). -/
def ParkCause.number : ParkCause → Nat
  | .tileWait => 0x80 | .copyWait => 0x81 | .migrate => 0x82 | .pageRequest => 0x83 | .launchFull => 0x84 | .ctrWait => 0x85
  | .keys => 0x86 | .service => 0x87
/-- Number of a stop's cause (Table 15.9). -/
def StopCause.number : StopCause → Nat
  | .brk => 0x21 | .step => 0x22 | .dbgstop => 0x88
/-- STATE and CAUSE of a thread record. -/
def recordState (s : State) (t : Thread) : Nat × Nat :=
  match t.stopped with
  | some c => (10, c.number)
  | none =>
    match t.phase with
    | .parked c => (9, c.number)
    | .faulted => (11, match s.faults.find? (fun r => r.threads.contains t.uid && r.state == 0 && r.cause != .brk && r.cause != .step) with | some r => r.cause.code | none => 0)
    | p => (p.number, 0)
/-- Bits of a list of numbers. -/
def bitsOfList (l : List Nat) : Nat := (List.range 128).foldl (fun m n => if l.contains n then m + 2 ^ n else m) 0
/-- The 640 bytes of a thread record (Table 15.9). -/
def threadRecord (s : State) (t : Thread) : List Byte :=
  let (st, c) := recordState s t
  ((List.range 128).flatMap (fun n => leBytes (t.rv n).toNat 4)) ++ leBytes t.pc.toNat 8 ++ leBytes t.p.toNat 1 ++ leBytes st 1 ++ leBytes c 1 ++ [0] ++
  leBytes t.flags.toNat 4 ++ leBytes (t.ld + t.st * 2 ^ 8 + t.cp * 2 ^ 16 + t.tl * 2 ^ 24) 4 ++ leBytes t.age 2 ++ leBytes t.blocks.length 2 ++
  leBytes t.tid 4 ++ leBytes (s.tm t.team).id 4 ++ leBytes (bitsOfList t.poison) 16 ++ leBytes (bitsOfList t.pendV) 16 ++ leBytes 0 64
/-- Bytes that differ are written from an address on. -/
def writeChanged (m : Memory) (a : Nat) : List Byte → List Byte → Memory
  | x :: xs, y :: ys => writeChanged (if x = y then m else m.write a y) (a + 1) xs ys
  | _, _ => m
/-- A page under a cut that is still copy-on-write is copied aside before the first write to it (R355). -/
def keepPage (page : Nat) (s : State) : State :=
  { s with snaps := s.snaps.map (fun p =>
      if p.pages.contains page then
        { p with
          pages := p.pages.filter (· ≠ page)
          pre := (page, s.mem.bytes.readN (page * 4096) 4096, (span32 (page * 32)).filter s.mem.poison.contains) :: p.pre }
      else p) }
where
  /-- The 32 lines of a page. -/
  span32 (l : Nat) : List Nat := (List.range 32).map (l + ·)
/-- A saved thread's record becomes r in its image. -/
def writeRecord (s : State) (t : Thread) (r : List Byte) : State :=
  let s := keepPage ((t.imageAt + 639) / 4096) (keepPage (t.imageAt / 4096) (s.modThr t.uid (fun t => { t with image := r })))
  { s with mem := { s.mem with bytes := writeChanged s.mem.bytes t.imageAt t.image r } }
/-- What changes in a saved thread is written into its thread record, once (R334). -/
def settleImages (s : State) : State :=
  s.threads.foldl (fun s t => if t.image.isEmpty || threadRecord s t == t.image then s else writeRecord s t (threadRecord s t)) s
/-- Ticks of a team that the watchdog counts (R339). -/
def watchCounts (s : State) (tm : Team) : Bool :=
  let ths := s.threadsOf tm.uid
  let fn := (s.gr tm.grid).fn
  ths.any Thread.live && !s.halted.any (fun h => h.1 == fn) && !ths.any (fun t => t.phase == .faulted || t.stopped.isSome) &&
  (match tm.saved with
   | none => (s.core tm.core).active == tm.bank
   | some n => s.slots.any (fun (x : SaveSlot) => x.team && x.slot == n && x.teams.contains tm.uid))
/-- The watchdogs count the ticks that have passed; a team that issues starts again (R339). No unit waits any more. -/
def settleWatch (s : State) : State :=
  let d := s.gtick - s.watched
  let s := if d = 0 || s.regs.isEmpty then s else (List.range 17).foldl (fun s fn => s.count fn 9 d) s
  { s with
    watched := s.gtick, waits := false
    teams := s.teams.map (fun (tm : Team) =>
      if s.threads.any (fun t => t.team == tm.uid && t.phase == .issuing) then { tm with watch := 0 }
      else if d != 0 && watchCounts s tm then { tm with watch := tm.watch + d } else tm) }

/-- What follows by itself from the state an instruction or event leaves. -/
def settle (s : State) : State := settleImages (settleWatch (settleDeadlock (settleClaims (settleThreads (settleBarriers s)))))
/-- The next state, settled. -/
def done (s : State) : Out State := .next (settle s)
/-- The next state of a unit's step, unless one of its writes meets a page under migration: then the unit takes the step later (R34). -/
def unitDone (s : State) : Out State := if s.waits then .fault .heldBack else done s

/-! ### Stops (R336, R337) -/

/-- A thread is held by debug over the state it is in; a FAULTED or STOPPED one is not stopped again (R336). -/
def Thread.stop (c : StopCause) (t : Thread) : Thread :=
  if t.stopped.isSome || t.phase == .faulted || t.phase == .exited then { t with step := false, brk := none }
  else
    let t := { t with stopped := some c, step := false, brk := none }
    if t.phase == .issuing then { t with phase := .ready, age := 0 } else t
/-- Threads stop and leave their waves (R150). -/
def stopAll (c : StopCause) (us : List Nat) (s : State) : State :=
  { s with
    threads := s.threads.map (fun (t : Thread) => if us.contains t.uid then t.stop c else t)
    waves := (s.waves.map (fun w => { w with members := w.members.filter (fun u => !us.contains u) })).filter (fun w => !w.members.isEmpty) }
/-- The other threads that stop with a thread of a team, by the team's MODE.DBGSTOP (R337). -/
def stopsWith (team : Nat) (s : State) : List Nat :=
  let tm := s.tm team
  let g := s.gr tm.grid
  match bitsOf tm.mode.toNat 2 1 with
  | 1 => (s.liveOf team).map Thread.uid
  | 2 =>
    (s.teams.filter (fun (t : Team) => t.core == tm.core && t.saved.isNone && (s.gr t.grid).fn == g.fn && (s.gr t.grid).ctx == g.ctx)).flatMap (fun t => (s.liveOf t.uid).map Thread.uid)
  | _ => []
/-- A debug event of some threads of a team: one record, and these threads stop (R336 to R338). -/
def stopOwn (c : StopCause) (cause : Cause) (kind : Nat) (fpc spc : Dword) (us : List Nat) (team : Nat) (s : State) : State :=
  let tm := s.tm team
  let g := s.gr tm.grid
  let mine := (s.byLane us).filter (fun u => (s.thr u).team == team)
  let (id, s) := s.fresh
  let mask := mine.foldl (fun m u => m ||| (1#32 <<< (s.thr u).lane)) 0
  let r : FaultRec :=
    ⟨id, cause, { kind := kind }, g.fn, g.ctx, tm.grid, g.gridId, team, tm.id, fpc, spc, mask, mine, s.gtick, whereOf tm, false, s.issue, 0, false, none, 0⟩
  stopAll c mine { s with faults := s.faults ++ [r] }
/-- The other threads follow DBGSTOP (R337). -/
def stopOthers (team : Nat) (s : State) : State := stopAll .dbgstop (stopsWith team s) s
/-- A debug event of some threads of a team, and the stop of the others that follow it (R336 to R338). -/
def stopTeam (c : StopCause) (cause : Cause) (kind : Nat) (fpc spc : Dword) (us : List Nat) (team : Nat) (s : State) : State :=
  stopOthers team (stopOwn c cause kind fpc spc us team s)
/-- Threads that the instruction at pc marked for a stop (TRAP.BRK), and threads that were stepped, stop after it; then the others follow DBGSTOP (R225, R337, R338). -/
def stopMarked (members : List Nat) (pc : Dword) (s : State) : State :=
  let br := members.filter (fun u => (s.thr u).brk.isSome)
  let st := members.filter (fun u => (s.thr u).step && (s.thr u).brk.isNone && ((s.thr u).phase != .stalled || (s.thr u).wait.go))
  if br.isEmpty && st.isEmpty then s
  else
    let code := (s.thr (br.headD 0)).brk.getD 0
    let first (us : List Nat) (tm : Nat) (s : State) : Dword := (s.thr (((s.byLane us).filter (fun u => (s.thr u).team == tm)).headD 0)).pc
    let s := (teamsIn s br).foldl (fun s tm => stopOwn .brk .brk code pc (first br tm s) br tm s) s
    let s := (teamsIn s st).foldl (fun s tm => stopOwn .step .step 0 pc (first st tm s) st tm s) s
    (teamsIn s (br ++ st)).foldl (fun s tm => stopOthers tm s) s

/-- ISSUING AN INSTRUCTION for the wave (R148, R149, R201): a scoreboard stall ends the span; otherwise true-guard threads with an operand fault leave, the body acts for the remaining true-guard threads (with `all`, for every remaining thread) in ascending lane order, and the wave moves on. `ends` says that the instruction always ends its span. -/
def issueFor (all : Bool) (u : Use) (ends : Bool) (body : List Nat → State → State) (s : State) : Out State :=
  match s.wave? with
  | none => .fault .noWave
  | some w =>
    if w.members.any (blocked u s) then done (stallSpan u w s)
    else
      let s := s.count (s.ctxOf (w.members.headD 0)).1 1 w.members.length
      let s := { s with
        issue := s.issue + 1
        threads := s.threads.map (fun (t : Thread) => if w.members.contains t.uid then { t with npc := t.pc + BitVec.ofNat 64 u.bytes } else t) }
      let act := s.byLane (w.members.filter (fun m => (s.thr m).guard u.g))
      let s := act.foldl (operandFault u) s
      let us := (if all then s.byLane w.members else act).filter (fun m => (s.thr m).phase == .issuing)
      let pc := (s.thr (w.members.headD 0)).pc
      done (stopMarked w.members pc (advance (ends || u.e) (body us s)))
/-- An instruction that acts for the true-guard threads. -/
def issue (u : Use) (ends : Bool) (body : List Nat → State → State) (s : State) : Out State := issueFor false u ends body s

/-- The members of the wave that issues. -/
def State.members (s : State) : List Nat :=
  match s.wave? with
  | some w => w.members
  | none => []

/-- A per-thread effect over the active threads. -/
def each (f : Thread → Thread) (us : List Nat) (s : State) : State :=
  us.foldl (fun s u => s.modThr u f) s
/-- A per-thread effect that reads the thread's team. -/
def eachTeam (f : Team → Thread → Thread) (us : List Nat) (s : State) : State :=
  us.foldl (fun s u => s.modThr u (f (s.teamOf u))) s

/-- A write for each team of the active threads under R156; a partial one in a DET launch raises UNIFORM_MIX in the wave's threads of that team (still issuing) and writes nothing. -/
def teamWrite (f : Bool → List Nat → Team → Team) (us : List Nat) (s : State) : State :=
  let members := s.members
  (teamsIn s us).foldl (fun s tm =>
    let full := s.holdsAll members tm
    if !full && s.det tm then
      raiseAll .uniformMix {} (s.byLane (members.filter (fun m => (s.thr m).team == tm && (s.thr m).phase == .issuing))) s
    else s.modTeam tm (f full (writersOf s members tm))) s

/-- A park with a cause; the PC stays, and the order of parking is kept (Table 7.4). -/
def parkThread (c : ParkCause) (w : Wait) (u : Nat) (s : State) : State :=
  let (n, s) := s.fresh
  s.modThr u (fun t => { t with phase := .parked c, wait := { w with order := n } })

end Sys2Proof.Machine
end

