-- ==== Sys2Proof/Machine/Operands.lean ====
section
/-! DEFINITION. Operand forms: which registers a form names and what value each operand has (spec/09_encoding_and_opcode_map.md R181, R184, R187; spec/10_control_and_integer_instructions.md R201). -/
namespace Sys2Proof.Machine

/-- A register number field. -/
abbrev rn {n : Nat} (r : BitVec n) : Nat := r.toNat
/-- The registers of a run of n from r. -/
def span (r n : Nat) : List Nat := (List.range n).map (r + ·)
/-- One register, or a pair. -/
def regs (r : Nat) (pair : Bool) : List Nat := if pair then [r, r + 1] else [r]

/-- An operand that is a v or an s register, or a value. -/
inductive Opnd where
  | v (n : Nat) | s (n : Nat) | imm (x : Word)
  deriving DecidableEq, Repr
/-- Its 32-bit value in a thread. -/
def Opnd.val (o : Opnd) (tm : Team) (t : Thread) : Word :=
  match o with
  | .v n => t.rv n
  | .s n => tm.rs n
  | .imm x => x
/-- Its value as a pair; a literal is sign-extended (R187). -/
def Opnd.pair (o : Opnd) (tm : Team) (t : Thread) : Dword :=
  match o with
  | .v n => t.rpair n
  | .s n => tm.rspair n
  | .imm x => x.signExtend 64
/-- v registers it names. -/
def Opnd.vs (o : Opnd) (pair : Bool) : List Nat := match o with | .v n => regs n pair | _ => []
/-- s registers it names. -/
def Opnd.ss (o : Opnd) (pair : Bool) : List Nat := match o with | .s n => regs n pair | _ => []

end Sys2Proof.Machine

namespace Sys2Proof
open Sys2Proof.Machine

/-- B of the SA layout (R201). -/
def SA.ob (x : SA) : Opnd := if x.bs then .s (x.b.toNat % 64) else .v x.b.toNat
/-- B of an SA layout wide form: literal, sB or vB (R201). -/
def WA.ob (x : WA) : Opnd := if x.x.lit then .imm x.x.w2 else if x.bs then .s (x.b.toNat % 64) else .v x.b.toNat
/-- C: vC or sC (R184). -/
def Ext.oc (x : Ext) : Opnd := if x.cs then .s (x.c.toNat % 64) else .v x.c.toNat
/-- B of an SS layout wide form: literal or sB. -/
def WS.ob (x : WS) : Opnd := if x.x.lit then .imm x.x.w2 else .s x.b.toNat

/-- Sign-extended IMM8 (R198). -/
def SI.sx (x : SI) : Word := x.imm.signExtend 32
/-- Zero-extended IMM8 (R198). -/
def SI.zx (x : SI) : Word := x.imm.setWidth 32

end Sys2Proof

namespace Sys2Proof.Machine

/-- Registers of operands added to a use. -/
def Use.reads (u : Use) (os : List Opnd) (pair : Bool) : Use :=
  { u with rv := u.rv ++ os.flatMap (·.vs pair), rs := u.rs ++ os.flatMap (·.ss pair) }

/-- A 32-bit form: unguarded. -/
def use4 (e : Bool) (rv wv : List Nat) : Use := { bytes := 4, e := e, rv := rv, wv := wv }
/-- A 96-bit form with its guard. -/
def use12 (e : Bool) (g : Guard) (rv wv : List Nat) : Use := { g := g, bytes := 12, e := e, rv := rv, wv := wv }

/-- vD ← f(vA, imm) in an SI short form. -/
def siOp (x : SI) (imm : Word) (f : Word → Word → Word) (s : State) : Out State :=
  issue (use4 x.e [rn x.a] [rn x.d]) false (each (fun t => t.wv (rn x.d) (f (t.rv (rn x.a)) imm))) s
/-- vD ← f(vA) in an SA short form. -/
def saUn (x : SA) (f : Word → Word) (s : State) : Out State :=
  issue (use4 x.e [rn x.a] [rn x.d]) false (each (fun t => t.wv (rn x.d) (f (t.rv (rn x.a))))) s
/-- vD ← f(vA) in a wide form. -/
def waUn (x : WA) (f : Word → Word) (s : State) : Out State :=
  issue (use12 x.e x.x.g [rn x.a] [rn x.d]) false (each (fun t => t.wv (rn x.d) (f (t.rv (rn x.a))))) s
/-- vD ← f(vA, B) in a wide form. -/
def waBin (x : WA) (f : Word → Word → Word) (s : State) : Out State :=
  issue ((use12 x.e x.x.g [rn x.a] [rn x.d]).reads [x.ob] false) false
    (eachTeam (fun tm t => t.wv (rn x.d) (f (t.rv (rn x.a)) (x.ob.val tm t)))) s
/-- vD ← f(vA, B, C) in a wide form. -/
def waTer (x : WA) (f : Word → Word → Word → Word) (s : State) : Out State :=
  issue ((use12 x.e x.x.g [rn x.a] [rn x.d]).reads [x.ob, x.x.oc] false) false
    (eachTeam (fun tm t => t.wv (rn x.d) (f (t.rv (rn x.a)) (x.ob.val tm t) (x.x.oc.val tm t)))) s

end Sys2Proof.Machine
end

