-- ==== Sys2Proof/Machine/Int.lean ====
section
/-! DEFINITION. Moves, integer arithmetic and logic, bit fields, compares, carries, 64-bit address arithmetic (spec/10_control_and_integer_instructions.md R204 to R210). -/
namespace Sys2Proof.Machine

/-! ### Arithmetic on words (R206, R207) -/

/-- op on exact integers, wrapped or saturated (R206). -/
def intOp (ty : ElemType) (sat : Bool) (f : Int → Int → Int) (a b : Word) : Word :=
  BitVec.ofNat 32 (intResult ty sat (f (intOf ty a.toNat) (intOf ty b.toNat)))
/-- a × b + c (R206). -/
def intMad (ty : ElemType) (sat : Bool) (a b c : Word) : Word :=
  BitVec.ofNat 32 (intResult ty sat (intOf ty a.toNat * intOf ty b.toNat + intOf ty c.toNat))
/-- floor(a × b / 2^32), signed or unsigned (R206). -/
def mulHigh (unsigned : Bool) (a b : Word) : Word :=
  if unsigned then BitVec.ofNat 32 (a.toNat * b.toNat / 2 ^ 32) else BitVec.ofInt 32 (a.toInt * b.toInt / 2 ^ 32)
/-- Smaller of two (R206). -/
def intMinOp (unsigned : Bool) (a b : Word) : Word :=
  if (if unsigned then a.ult b else a.slt b) then a else b
/-- Larger of two (R206). -/
def intMaxOp (unsigned : Bool) (a b : Word) : Word :=
  if (if unsigned then a.ult b else a.slt b) then b else a
/-- abs(a) (R206). -/
def intAbs (sat : Bool) (a : Word) : Word := BitVec.ofNat 32 (intResult .i32 sat (a.toInt.natAbs : Int))
/-- a << n, 0 from 32 on (R206). -/
def shiftLeft (a n : Word) : Word := if n.toNat < 32 then a <<< n.toNat else 0
/-- a >> n logical, 0 from 32 on (R206). -/
def shiftRight (a n : Word) : Word := if n.toNat < 32 then a >>> n.toNat else 0
/-- a >> min(n, 31) arithmetic (R206). -/
def shiftArith (a n : Word) : Word := a.sshiftRight (min n.toNat 31)
/-- Rotate left by n mod 32 (R206). -/
def rotate (a n : Word) : Word := a.rotateLeft (n.toNat % 32)
/-- Count of ones among the low n bits. -/
def onesBelow (a : Word) : Nat → Nat
  | 0 => 0
  | n + 1 => onesBelow a n + (if a.getLsbD n then 1 else 0)
/-- Count of ones (R206). -/
def popCount (a : Word) : Word := BitVec.ofNat 32 (onesBelow a 32)
/-- Leading zeros, 32 for 0 (R206). -/
def leadingZeros (a : Word) : Word := BitVec.ofNat 32 (32 - bitLen a.toNat)
/-- Bit reversal (R206). -/
def reverseBits (a : Word) : Word := a.reverse
/-- Width of the field of a control word: 0 when empty (R207). -/
def fieldWidth (c : Word) : Nat :=
  let pos := bitsOf c.toNat 7 0
  if 32 ≤ pos then 0 else min (bitsOf c.toNat 15 8) (32 - pos)
/-- BFX (R207). -/
def bitExtract (signed : Bool) (a c : Word) : Word :=
  let w := fieldWidth c
  let f := a.toNat / 2 ^ (bitsOf c.toNat 7 0) % 2 ^ w
  if w = 0 then 0
  else if signed && f ≥ 2 ^ (w - 1) then BitVec.ofInt 32 ((f : Int) - (2 ^ w : Nat)) else BitVec.ofNat 32 f
/-- BFI: c with a's low bits inserted (R207). -/
def bitInsert (a ctl c : Word) : Word :=
  let w := fieldWidth ctl
  let pos := bitsOf ctl.toNat 7 0
  let m : Word := (BitVec.ofNat 32 (2 ^ w - 1)) <<< pos
  if w = 0 then c else (c &&& ~~~m) ||| ((a <<< pos) &&& m)

/-- Conditions 0 to 9 of Table 9.8. -/
def condition {n : Nat} (cc : Nat) (a b : BitVec n) : Bool :=
  match cc with
  | 0 => a == b
  | 1 => a != b
  | 2 => a.slt b
  | 3 => a.sle b
  | 4 => b.slt a
  | 5 => b.sle a
  | 6 => a.ult b
  | 7 => a.ule b
  | 8 => b.ult a
  | _ => b.ule a

/-! ### Moves (R204, R189) -/

/-- NOP (R204). -/
def execNop (x : SA) (s : State) : Out State := issue (use4 x.e [] []) false (fun _ s => s) s
/-- NOP, 96-bit (R204). -/
def execNopWide (x : WA) (s : State) : Out State := issue (use12 x.e x.x.g [] []) false (fun _ s => s) s
/-- MOV (R204). -/
def execMov (x : SA) (s : State) : Out State :=
  issue ((use4 x.e [] [rn x.d]).reads [x.ob] false) false (eachTeam (fun tm t => t.wv (rn x.d) (x.ob.val tm t))) s
/-- MOV, 96-bit (R204). -/
def execMovWide (x : WA) (s : State) : Out State :=
  issue ((use12 x.e x.x.g [] [rn x.d]).reads [x.ob] false) false (eachTeam (fun tm t => t.wv (rn x.d) (x.ob.val tm t))) s
/-- MOVI: sext(word0[14:0]) (R204). -/
def execMovi (x : SI) (s : State) : Out State :=
  issue (use4 x.e [] [rn x.d]) false (each (fun t => t.wv (rn x.d) ((x.a ++ x.imm).signExtend 32))) s
/-- MOVI, 96-bit (R204). -/
def execMoviWide (x : WA) (s : State) : Out State :=
  issue (use12 x.e x.x.g [] [rn x.d]) false (each (fun t => t.wv (rn x.d) x.x.w2)) s
/-- MOVL (R189, R204). -/
def execMovl (x : WL) (s : State) : Out State :=
  issue { g := x.x.g, bytes := 20, e := x.e, wv := regs (rn x.d) true } false (each (fun t => t.wpair (rn x.d) x.lit)) s
/-- SEL (R204). -/
def execSel (x : WA) (s : State) : Out State :=
  let u := (use12 x.e x.x.g [rn x.a] [rn x.d]).reads [x.ob] false
  issue { u with rp := [rn x.x.c] } false
    (eachTeam (fun tm t => t.wv (rn x.d) (if t.rp (rn x.x.c) then t.rv (rn x.a) else x.ob.val tm t))) s
/-- The constant-table entry of each thread's own grid (R205). -/
def constPair (k d : Nat) (us : List Nat) (s : State) : State :=
  us.foldl (fun s u => let c := nth 0 (s.gridOf u).consts k; s.modThr u (fun t => t.wpair d c)) s
/-- UCONST (R204, R205). -/
def execUconst (x : SI) (s : State) : Out State :=
  issue (use4 x.e [] (regs (rn x.d) true)) false (constPair (rn x.imm) (rn x.d)) s
/-- UCONST, 96-bit (R204, R205). -/
def execUconstWide (x : WA) (s : State) : Out State :=
  issue (use12 x.e x.x.g [] (regs (rn x.d) true)) false (constPair (rn x.x.w2) (rn x.d)) s

/-! ### Integer arithmetic and logic (R206, R207) -/

/-- IADD (R206). -/
def execIadd (x : SI) (s : State) : Out State := siOp x x.sx (intOp .i32 false (· + ·)) s
/-- IADD, 96-bit (R206). -/
def execIaddWide (x : WA) (s : State) : Out State := waBin x (intOp x.x.ty x.x.sat (· + ·)) s
/-- ISUB (R206). -/
def execIsub (x : SI) (s : State) : Out State := siOp x x.sx (intOp .i32 false (· - ·)) s
/-- ISUB, 96-bit (R206). -/
def execIsubWide (x : WA) (s : State) : Out State := waBin x (intOp x.x.ty x.x.sat (· - ·)) s
/-- IMUL (R206). -/
def execImul (x : SI) (s : State) : Out State := siOp x x.sx (intOp .i32 false (· * ·)) s
/-- IMUL, 96-bit (R206). -/
def execImulWide (x : WA) (s : State) : Out State := waBin x (intOp x.x.ty x.x.sat (· * ·)) s
/-- IMULH (R206). -/
def execImulh (x : SI) (s : State) : Out State := siOp x x.sx (mulHigh false) s
/-- IMULH, 96-bit (R206). -/
def execImulhWide (x : WA) (s : State) : Out State := waBin x (mulHigh (x.x.fn == 1)) s
/-- IMAD (R206). -/
def execImad (x : WA) (s : State) : Out State := waTer x (intMad x.x.ty x.x.sat) s
/-- IMIN (R206). -/
def execImin (x : SI) (s : State) : Out State := siOp x x.sx (intMinOp false) s
/-- IMIN, 96-bit (R206). -/
def execIminWide (x : WA) (s : State) : Out State := waBin x (intMinOp (x.x.fn == 1)) s
/-- IMAX (R206). -/
def execImax (x : SI) (s : State) : Out State := siOp x x.sx (intMaxOp false) s
/-- IMAX, 96-bit (R206). -/
def execImaxWide (x : WA) (s : State) : Out State := waBin x (intMaxOp (x.x.fn == 1)) s
/-- IABS (R206). -/
def execIabs (x : SA) (s : State) : Out State := saUn x (intAbs false) s
/-- IABS, 96-bit (R206). -/
def execIabsWide (x : WA) (s : State) : Out State := waUn x (intAbs x.x.sat) s
/-- AND (R206). -/
def execAnd (x : SI) (s : State) : Out State := siOp x x.zx (· &&& ·) s
/-- AND, 96-bit (R206). -/
def execAndWide (x : WA) (s : State) : Out State := waBin x (· &&& ·) s
/-- OR (R206). -/
def execOr (x : SI) (s : State) : Out State := siOp x x.zx (· ||| ·) s
/-- OR, 96-bit (R206). -/
def execOrWide (x : WA) (s : State) : Out State := waBin x (· ||| ·) s
/-- XOR (R206). -/
def execXor (x : SI) (s : State) : Out State := siOp x x.zx (· ^^^ ·) s
/-- XOR, 96-bit (R206). -/
def execXorWide (x : WA) (s : State) : Out State := waBin x (· ^^^ ·) s
/-- NOT (R206). -/
def execNot (x : SA) (s : State) : Out State := saUn x (~~~ ·) s
/-- NOT, 96-bit (R206). -/
def execNotWide (x : WA) (s : State) : Out State := waUn x (~~~ ·) s
/-- SHL (R206). -/
def execShl (x : SI) (s : State) : Out State := siOp x x.zx shiftLeft s
/-- SHL, 96-bit (R206). -/
def execShlWide (x : WA) (s : State) : Out State := waBin x shiftLeft s
/-- SHR (R206). -/
def execShr (x : SI) (s : State) : Out State := siOp x x.zx shiftRight s
/-- SHR, 96-bit (R206). -/
def execShrWide (x : WA) (s : State) : Out State := waBin x shiftRight s
/-- SAR (R206). -/
def execSar (x : SI) (s : State) : Out State := siOp x x.zx shiftArith s
/-- SAR, 96-bit (R206). -/
def execSarWide (x : WA) (s : State) : Out State := waBin x shiftArith s
/-- ROT (R206). -/
def execRot (x : SI) (s : State) : Out State := siOp x x.zx rotate s
/-- ROT, 96-bit (R206). -/
def execRotWide (x : WA) (s : State) : Out State := waBin x rotate s
/-- POPC (R206). -/
def execPopc (x : SA) (s : State) : Out State := saUn x popCount s
/-- POPC, 96-bit (R206). -/
def execPopcWide (x : WA) (s : State) : Out State := waUn x popCount s
/-- CLZ (R206). -/
def execClz (x : SA) (s : State) : Out State := saUn x leadingZeros s
/-- CLZ, 96-bit (R206). -/
def execClzWide (x : WA) (s : State) : Out State := waUn x leadingZeros s
/-- BREV (R206). -/
def execBrev (x : SA) (s : State) : Out State := saUn x reverseBits s
/-- BREV, 96-bit (R206). -/
def execBrevWide (x : WA) (s : State) : Out State := waUn x reverseBits s
/-- BFX (R207). -/
def execBfx (x : WA) (s : State) : Out State := waBin x (bitExtract (x.x.fn == 1)) s
/-- BFI (R207). -/
def execBfi (x : WA) (s : State) : Out State := waTer x bitInsert s

/-! ### Compares and carries (R208, R209) -/

/-- ICMP (R208). -/
def execIcmp (x : WA) (s : State) : Out State :=
  let u := (use12 x.e x.x.g [rn x.a] []).reads [x.ob] false
  issue { u with wp := [rn x.d] } false
    (eachTeam (fun tm t => t.wp (rn x.d) (condition (rn x.x.fn) (t.rv (rn x.a)) (x.ob.val tm t)))) s
/-- IADDC's sum and carry out (R209). -/
def carryOp (sub : Bool) (a b : Word) (cin : Bool) : Word × Bool :=
  let c := if cin then 1 else 0
  if sub then (a - b - BitVec.ofNat 32 c, decide (a.toNat < b.toNat + c))
  else (a + b + BitVec.ofNat 32 c, decide (2 ^ 32 ≤ a.toNat + b.toNat + c))
/-- IADDC (R209). -/
def execIaddc (x : WA) (s : State) : Out State :=
  let ci := bitsOf (rn x.x.c) 2 0
  let co := bitsOf (rn x.x.c) 6 4
  let u := (use12 x.e x.x.g [rn x.a] [rn x.d]).reads [x.ob] false
  issue { u with rp := [ci], wp := [co] } false
    (eachTeam (fun tm t =>
      let r := carryOp (x.x.fn == 1) (t.rv (rn x.a)) (x.ob.val tm t) (ci != 0 && t.rp ci)
      (t.wv (rn x.d) r.1).wp co r.2)) s

/-! ### 64-bit address arithmetic (R210) -/

/-- ADD64 and SUB64 with a 32-bit operand (R210). -/
def pairOp (u : Use) (b : Opnd) (d a : Nat) (f : Dword → Dword → Dword) (s : State) : Out State :=
  issue ({ u with rv := regs a true, wv := regs d true }.reads [b] false) false
    (eachTeam (fun tm t => t.wpair d (f (t.rpair a) ((b.val tm t).signExtend 64)))) s
/-- ADD64 (R210). -/
def execAdd64 (x : SA) (s : State) : Out State := pairOp (use4 x.e [] []) x.ob (rn x.d) (rn x.a) (· + ·) s
/-- ADD64, 96-bit (R210). -/
def execAdd64Wide (x : WA) (s : State) : Out State := pairOp (use12 x.e x.x.g [] []) x.ob (rn x.d) (rn x.a) (· + ·) s
/-- SUB64 (R210). -/
def execSub64 (x : SA) (s : State) : Out State := pairOp (use4 x.e [] []) x.ob (rn x.d) (rn x.a) (· - ·) s
/-- SUB64, 96-bit (R210). -/
def execSub64Wide (x : WA) (s : State) : Out State := pairOp (use12 x.e x.x.g [] []) x.ob (rn x.d) (rn x.a) (· - ·) s
/-- LEA64 (R210). -/
def execLea64 (x : WA) (s : State) : Out State :=
  pairOp (use12 x.e x.x.g [] []) x.ob (rn x.d) (rn x.a) (fun a b => a + (b <<< (rn x.x.c))) s
/-- CMP64 (R210). -/
def execCmp64 (x : WA) (s : State) : Out State :=
  let u := (use12 x.e x.x.g (regs (rn x.a) true) []).reads [x.ob] true
  issue { u with wp := [rn x.d] } false
    (eachTeam (fun tm t => t.wp (rn x.d) (condition (rn x.x.fn) (t.rpair (rn x.a)) (x.ob.pair tm t)))) s

end Sys2Proof.Machine
end

