-- ==== Sys2Proof/Machine/Scalar.lean ====
section
/-! DEFINITION. Scalar and predicate instructions and the special registers (spec/10_control_and_integer_instructions.md R211, R212; R156, R203). -/
namespace Sys2Proof.Machine

/-- A scalar instruction: once for each team with a true-guard thread, from that team's s registers (R211). -/
def scalarOp (u : Use) (d : Nat) (f : Team → Word) (s : State) : Out State :=
  issue { u with ws := [d] } false (teamWrite (fun full w t => t.ws full w d (f t))) s
/-- A scalar instruction on pairs. -/
def scalarPairOp (u : Use) (d : Nat) (f : Team → Dword) (s : State) : Out State :=
  issue { u with ws := regs d true } false (teamWrite (fun full w t => t.wspair full w d (f t))) s
/-- A team's value of an operand. -/
def Opnd.team (o : Opnd) (t : Team) : Word := match o with | .s n => t.rs n | .imm x => x | .v _ => 0
/-- A team's value of a pair operand. -/
def Opnd.teamPair (o : Opnd) (t : Team) : Dword := match o with | .s n => t.rspair n | .imm x => x.signExtend 64 | .v _ => 0

/-- Use of an SS short form. -/
def ssUse (x : SS) (rs : List Nat) : Use := { bytes := 4, e := x.e, rs := rs }
/-- Use of an SS layout wide form. -/
def wsUse (x : WS) (rs : List Nat) : Use := { g := x.x.g, bytes := 12, e := x.e, rs := rs }
/-- sD ← f(sA, sB), short. -/
def ssBin (x : SS) (f : Word → Word → Word) (s : State) : Out State :=
  scalarOp (ssUse x [rn x.a, rn x.b]) (rn x.d) (fun t => f (t.rs (rn x.a)) (t.rs (rn x.b))) s
/-- sD ← f(sA, sB or literal), wide. -/
def wsBin (x : WS) (f : Word → Word → Word) (s : State) : Out State :=
  scalarOp ((wsUse x [rn x.a]).reads [x.ob] false) (rn x.d) (fun t => f (t.rs (rn x.a)) (x.ob.team t)) s

/-- UADD (R211). -/
def execUadd (x : SS) (s : State) : Out State := ssBin x (intOp .i32 false (· + ·)) s
/-- UADD, 96-bit (R211). -/
def execUaddWide (x : WS) (s : State) : Out State := wsBin x (intOp x.x.ty x.x.sat (· + ·)) s
/-- USUB (R211). -/
def execUsub (x : SS) (s : State) : Out State := ssBin x (intOp .i32 false (· - ·)) s
/-- USUB, 96-bit (R211). -/
def execUsubWide (x : WS) (s : State) : Out State := wsBin x (intOp x.x.ty x.x.sat (· - ·)) s
/-- UMUL (R211). -/
def execUmul (x : SS) (s : State) : Out State := ssBin x (intOp .i32 false (· * ·)) s
/-- UMUL, 96-bit (R211). -/
def execUmulWide (x : WS) (s : State) : Out State := wsBin x (intOp x.x.ty x.x.sat (· * ·)) s
/-- ULOG functions (Table 10.4). -/
def logicFn (fn : Nat) (a b : Word) : Word :=
  match fn with
  | 0 => a &&& b
  | 1 => a ||| b
  | 2 => a ^^^ b
  | 3 => a &&& ~~~b
  | _ => ~~~a
/-- ULOG (R211). -/
def execUlog (x : SS) (s : State) : Out State := ssBin x (logicFn (rn x.fn)) s
/-- ULOG, 96-bit (R211). -/
def execUlogWide (x : WS) (s : State) : Out State := wsBin x (logicFn (rn x.x.fn)) s
/-- USHIFT functions (Table 10.4). -/
def shiftFn (fn : Nat) (a b : Word) : Word :=
  match fn with
  | 0 => shiftLeft a b
  | 1 => shiftRight a b
  | 2 => shiftArith a b
  | _ => rotate a b
/-- USHIFT (R211). -/
def execUshift (x : SS) (s : State) : Out State := ssBin x (shiftFn (rn x.fn)) s
/-- USHIFT, 96-bit (R211). -/
def execUshiftWide (x : WS) (s : State) : Out State := wsBin x (shiftFn (rn x.x.fn)) s
/-- UMOV (R211). -/
def execUmov (x : SS) (s : State) : Out State := scalarOp (ssUse x [rn x.a]) (rn x.d) (fun t => t.rs (rn x.a)) s
/-- UMOV, 96-bit: the literal where LIT = 1 (R211). -/
def execUmovWide (x : WS) (s : State) : Out State :=
  scalarOp (wsUse x [rn x.a]) (rn x.d) (fun t => if x.x.lit then x.x.w2 else t.rs (rn x.a)) s
/-- UCMP: each thread receives its own team's result (R211). -/
def execUcmp (x : WS) (s : State) : Out State :=
  let u := (wsUse x [rn x.a]).reads [x.ob] false
  issue { u with wp := [rn x.d] } false
    (eachTeam (fun tm t => t.wp (rn x.d) (condition (rn x.x.fn) (tm.rs (rn x.a)) (x.ob.team tm)))) s
/-- UADD64 (R210). -/
def execUadd64 (x : SS) (s : State) : Out State :=
  scalarPairOp (ssUse x (regs (rn x.a) true ++ regs (rn x.b) true)) (rn x.d) (fun t => t.rspair (rn x.a) + t.rspair (rn x.b)) s
/-- UADD64, 96-bit (R210). -/
def execUadd64Wide (x : WS) (s : State) : Out State :=
  scalarPairOp ((wsUse x (regs (rn x.a) true)).reads [x.ob] true) (rn x.d) (fun t => t.rspair (rn x.a) + x.ob.teamPair t) s

/-- A team-scope write from a per-thread operand: the lowest-lane true-guard thread of each team supplies it (R203). -/
def teamWriteFrom (f : Thread → Bool → List Nat → Team → Team) (us : List Nat) (s : State) : State :=
  (teamsIn s us).foldl (fun s tm =>
    let mine := us.filter (fun u => (s.thr u).team == tm)
    match mine with
    | [] => s
    | u :: _ => teamWrite (f (s.thr u)) mine s) s
/-- UREAD (R203, R211). -/
def execUread (x : WA) (s : State) : Out State :=
  issue { use12 x.e x.x.g [rn x.a] [] with ws := [rn x.d] } false
    (teamWriteFrom (fun t full w tm => tm.ws full w (rn x.d) (t.rv (rn x.a)))) s

/-- PLOG functions (Table 10.4). -/
def predFn (fn : Nat) (a b : Bool) : Bool :=
  match fn with
  | 0 => a && b
  | 1 => a || b
  | 2 => a != b
  | 3 => a && !b
  | 4 => a || !b
  | 5 => a
  | _ => !a
/-- PLOG (R211). -/
def execPlog (x : SS) (s : State) : Out State :=
  issue { bytes := 4, e := x.e, rp := [rn x.a, rn x.b], wp := [rn x.d] } false
    (each (fun t => t.wp (rn x.d) (predFn (rn x.fn) (t.rp (rn x.a)) (t.rp (rn x.b))))) s
/-- PLOG, 96-bit (R211). -/
def execPlogWide (x : WS) (s : State) : Out State :=
  issue { g := x.x.g, bytes := 12, e := x.e, rp := [rn x.a, rn x.b], wp := [rn x.d] } false
    (each (fun t => t.wp (rn x.d) (predFn (rn x.x.fn) (t.rp (rn x.a)) (t.rp (rn x.b))))) s

/-! ### Special registers (R212, Tables 10.5 to 10.7) -/

/-- TOPO (Table 16.6). -/
def topoWord (s : State) : Nat :=
  let role := (List.range 8).foldl (fun r d => r + (if nth false s.decks d then 2 ^ d else 0)) 0
  s.topo.1 % 2 ^ 16 * 2 ^ 16 + role * 2 ^ 8 + s.topo.2.1 % 8 * 2 ^ 5 + s.topo.2.2 % 8
/-- What SPRD of an index returns in a thread (Table 10.5). -/
def specialRead (k u : Nat) (s : State) : Nat :=
  let t := s.thr u
  let tm := s.tm t.team
  let g := s.gr tm.grid
  match k with
  | 0x00 => s.viewOf g.fn
  | 0x02 => s.stolenOf g.fn
  | 0x04 => t.lane
  | 0x05 => t.slot
  | 0x06 => t.tid
  | 0x07 => tm.x
  | 0x08 => tm.y
  | 0x09 => tm.z
  | 0x0A => g.gridId
  | 0x0B => g.depth
  | 0x0C => t.role
  | 0x0D => tm.core % 64
  | 0x0E => tm.core % 64 / 4
  | 0x0F => deckOf tm.core
  | 0x10 => tm.teamstat.toNat
  | 0x11 => t.flags.toNat
  | 0x12 => tm.mode.toNat
  | 0x13 => tm.lease
  | 0x14 => topoWord s
  | 0x15 => g.ncores
  | 0x16 => match g.world with | some w => w | none => 0xFFFFFFFF
  | _ => tm.view.toNat
/-- A special register delivered to each active thread, a pair for the 64-bit ones. -/
def readSpecial (k d : Nat) (us : List Nat) (s : State) : State :=
  us.foldl (fun s u =>
    let x := specialRead k u s
    s.modThr u (fun t => if k < 4 then t.wpair d (BitVec.ofNat 64 x) else t.wv d (BitVec.ofNat 32 x))) s
/-- SPRD (R212). -/
def execSprd (x : SI) (s : State) : Out State :=
  issue (use4 x.e [] (regs (rn x.d) (decide (rn x.imm < 4)))) false (readSpecial (rn x.imm) (rn x.d)) s
/-- SPRD, 96-bit (R212). -/
def execSprdWide (x : WA) (s : State) : Out State :=
  issue (use12 x.e x.x.g [] (regs (rn x.d) (decide (rn x.x.w2 < 4)))) false (readSpecial (rn x.x.w2) (rn x.d)) s

/-- MODE after a write: STRICTH, DBGSTOP (11 leaves it) and UBCHK (Table 10.6). -/
def modeWrite (old x : Word) : Word :=
  let dbg := if bitsOf x.toNat 2 1 = 3 then bitsOf old.toNat 2 1 else bitsOf x.toNat 2 1
  BitVec.ofNat 32 (bitsOf old.toNat 5 4 * 16 + bitsOf x.toNat 3 3 * 8 + dbg * 2 + bitsOf x.toNat 0 0)
/-- LEASE clamped to 256 to 65,536 (R47). -/
def clampLease (x : Nat) : Nat := max 256 (min 65536 x)
/-- SPWR of FLAGS, MODE or LEASE (R212, R170, R203). -/
def writeSpecial (k a : Nat) (us : List Nat) (s : State) : State :=
  match k with
  | 0x11 => each (fun t => { t with flags := (t.rv a).setWidth 5 }) us s
  | 0x12 => teamWriteFrom (fun t full w tm =>
      let m := modeWrite tm.mode (t.rv a)
      { tm.noteWrite full (m != tm.mode) w (.special 0) with mode := m }) us s
  | _ => teamWriteFrom (fun t full w tm =>
      let l := clampLease (t.rv a).toNat
      { tm.noteWrite full (l != tm.lease) w (.special 1) with lease := l }) us s
/-- SPWR (R212). -/
def execSpwr (x : SI) (s : State) : Out State := issue (use4 x.e [rn x.a] []) false (writeSpecial (rn x.imm) (rn x.a)) s
/-- SPWR, 96-bit (R212). -/
def execSpwrWide (x : WA) (s : State) : Out State :=
  issue (use12 x.e x.x.g [rn x.a] []) false (writeSpecial (rn x.x.w2) (rn x.a)) s

end Sys2Proof.Machine
end

