-- ==== Sys2Proof/Machine/Conv.lean ====
section
/-! DEFINITION. Convergence registers and the cross-thread collectives (spec/07_execution_model.md R151 to R153; spec/10_control_and_integer_instructions.md R213 to R216; spec/12_vector_arithmetic_instructions.md R277). -/
namespace Sys2Proof.Machine

/-- The empty set, no signature. -/
def Conv.empty : Conv := ⟨0, 0, 0, []⟩
/-- A team's convergence register n. -/
def Team.conv (t : Team) (n : Nat) : Conv := nth Conv.empty t.c n
/-- Sets a team's convergence register n. -/
def Team.setConv (t : Team) (n : Nat) (c : Conv) : Team := { t with c := setNth Conv.empty t.c n c }
/-- Members of a set: (index, TID). -/
def Conv.members (c : Conv) : List (Nat × Nat) :=
  ((List.range 32).filter (fun i => c.mask.getLsbD i)).map (fun i => (i, c.base + i))
/-- Whether a TID is a member. -/
def Conv.isMember (c : Conv) (tid : Nat) : Bool := c.members.any (fun m => m.2 == tid)
/-- The thread of a TID in a team. -/
def State.byTid (s : State) (team tid : Nat) : Option Thread := s.threads.find? (fun t => t.team == team && t.tid == tid)
/-- Two threads of the list share a lane. -/
def sharesLane : List Nat → Bool
  | [] => false
  | l :: ls => ls.contains l || sharesLane ls

/-- CINIT for one team from its supplying thread (R151, R213). DESIGN CHOICE (notes/assumptions 74): two member sets with different bases are different values for UMIX, also where both are empty. -/
def convInit (n base : Nat) (mask : Word) (full : Bool) (w : List Nat) (t : Team) : Team :=
  let c : Conv := ⟨base, mask, 0, []⟩
  (t.noteWrite full ((t.conv n).base != base || (t.conv n).mask != mask) w (.c n)).setConv n c
/-- The cases of R151 and R213 in which CINIT raises CONV_LANE. -/
def convBad (n base : Nat) (mask : Word) (team : Nat) (s : State) : Bool :=
  let tm := s.tm team
  let tids := (Conv.members ⟨base, mask, 0, []⟩).map (·.2)
  base % 32 != 0 || tids.any (fun i => decide (tm.size ≤ i)) || !(tm.conv n).signed.isEmpty ||
  sharesLane (tids.filterMap (fun i => (s.byTid team i).map (·.lane)))
/-- CINIT (R213). -/
def execCinit (x : WA) (s : State) : Out State :=
  let n := rn x.d
  issue ((use12 x.e x.x.g [rn x.a] []).reads [x.ob] false) false (fun us s =>
    (teamsIn s us).foldl (fun s tm =>
      let mine := us.filter (fun u => (s.thr u).team == tm)
      match mine with
      | [] => s
      | u :: _ =>
        let t := s.thr u
        let base := (t.rv (rn x.a)).toNat
        let mask := x.ob.val (s.tm tm) t
        if convBad n base mask tm s then raiseAll .convLane {} mine s
        else teamWrite (convInit n base mask) mine s) s) s

/-- Members that still wait on the register become READY at their next PC (R152). -/
def wakeMembers (us : List Nat) (s : State) : State :=
  us.foldl (fun s u => s.modThr u (fun t => if t.waitsIn .convWait then t.wake else t)) s

/-- One signature (R152, R153). The body acts for the single issue of all members: (index, thread, active). -/
def sign (n : Nat) (body : Nat → List (Nat × Nat × Bool) → State → State) (u : Nat) (active : Bool) (s : State) : State :=
  let t := s.thr u
  let tm := s.tm t.team
  let c := tm.conv n
  if !c.isMember t.tid || (!c.signed.isEmpty && c.pc != t.pc) then raise .convLane {} u s
  else
    let c := { c with pc := t.pc, signed := c.signed ++ [(t.tid, active)] }
    let s := s.modThr u (fun t => { t with phase := .convWait, wait := { t.wait with reg := n } })
    if c.members.all (fun m => c.signed.any (fun g => g.1 == m.2)) then
      let ms := c.members.filterMap (fun m =>
        (s.byTid t.team m.2).map (fun th => (m.1, th.uid, c.signed.any (fun g => g.1 == m.2 && g.2))))
      let us := ms.map (·.2.1)
      let s := s.modTeam t.team (fun tm => tm.setConv n { c with signed := [] })
      if sharesLane (us.map (fun u => (s.thr u).lane)) then raiseAll .convLane {} us s
      else if ms.any (·.2.2) then body t.team ms s
      else wakeMembers us s
    else s.modTeam t.team (fun tm => tm.setConv n c)

/-- A COLLECTIVE (R152): every thread of the wave signs, a false guard as an inactive member; the span ends. Operand faults keep a thread from signing. -/
def collective (u : Use) (n : Nat) (body : Nat → List (Nat × Nat × Bool) → State → State) (s : State) : Out State :=
  issueFor true u true (fun us s => us.foldl (fun s m => sign n body m ((s.thr m).guard u.g) s) s) s

/-- Registers that a collective's true-guard signers name; a false guard is checked for none. -/
def collUse (x : WA) (rv wv : List Nat) : Use := use12 x.e x.x.g rv wv

/-- CSIGN (R214). -/
def execCsign (x : WA) (s : State) : Out State :=
  collective (collUse x [] []) (rn x.x.w2) (fun _ ms s => wakeMembers (ms.map (·.2.1)) s) s

/-- SHFL's source member (R215). -/
def shflSource (fn i : Nat) (b : Word) : Option Nat :=
  let n := b.toNat
  match fn with
  | 0 => some (n % 32)
  | 1 => if i < n then none else some (i - n)
  | 2 => if 31 < i + n then none else some (i + n)
  | _ => some (Nat.xor i (n % 32))
/-- SHFL (R215). -/
def execShfl (x : WA) (s : State) : Out State :=
  collective ((collUse x [rn x.a] [rn x.d]).reads [x.ob] false) (rn x.x.w2) (fun tm ms s =>
    let act := ms.filter (·.2.2)
    let vals : List (Nat × Word) := act.map (fun m => (m.1, (s.thr m.2.1).rv (rn x.a)))
    let s := act.foldl (fun s m =>
      let t := s.thr m.2.1
      let r : Option Word := match shflSource (rn x.x.fn) m.1 (x.ob.val (s.tm tm) t) with
        | some j => (vals.find? (fun (p : Nat × Word) => p.1 == j)).map (fun p => p.2)
        | none => none
      s.modThr m.2.1 (fun t => t.wv (rn x.d) (r.getD (t.rv (rn x.a))))) s
    wakeMembers (ms.map (·.2.1)) s) s

/-- VOTE (R216). -/
def execVote (x : WA) (s : State) : Out State :=
  let ballot := x.x.fn == 2
  let u := collUse x [] (if ballot then [rn x.d] else [])
  collective { u with rp := [rn x.a], wp := if ballot then [] else [rn x.d] } (rn x.x.w2) (fun _ ms s =>
    let act := ms.filter (·.2.2)
    let votes := act.map (fun m => (m.1, (s.thr m.2.1).rp (rn x.a)))
    let mask : Word := votes.foldl (fun w v => if v.2 then w ||| (1#32 <<< v.1) else w) 0
    let r := if x.x.fn == 0 then votes.any (·.2) else votes.all (·.2)
    let s := each (fun t => if ballot then t.wv (rn x.d) mask else t.wp (rn x.d) r) (act.map (·.2.1)) s
    wakeMembers (ms.map (·.2.1)) s) s

/-- The register or pair an element operand of a type stands in, as bits (R262). -/
def elemRead (t : ElemType) (sel : Nat) (th : Thread) (r : Nat) : Nat :=
  if t.wide then (th.rpair r).toNat else elemOf (min t.width 32) sel (th.rv r)
/-- An element result written (R262). -/
def elemWrite (t : ElemType) (sel : Nat) (th : Thread) (r : Nat) (x : Nat) : Thread :=
  if t.wide then th.wpair r (BitVec.ofNat 64 x) else th.wv r (setElem t.width sel (th.rv r) x)

/-- VRED over the active members' values (Table 12.4). -/
def vredOp (x : Ext) (vals : List Nat) : Nat × Flags :=
  let t := x.ty
  if t.isFloat then
    match rn x.fn with
    | 0 => exactSum t (rn x.rnd) x.sat .exact (vals.map (unpack t))
    | 6 =>
      let vs := vals.map (unpack t)
      if vs.any FVal.isNaN then (canonNaN t, sigFlag vs)
      else
        let m := vals.foldl (fun m v => if lessV (unpack t m) (unpack t v).abs then v % 2 ^ (t.width - 1) else m) 0
        ((if x.sat then satBits t m else m), 0)
    | fn =>
      match vals with
      | [] => (0, 0)
      | v :: vs =>
        let first := if (unpack t v).isNaN then (canonNaN t, sigFlag [unpack t v]) else (v, (0 : Flags))
        let (r, f) := vs.foldl (fun (a : Nat × Flags) v => let r := fMinMax t (fn == 2) false a.1 v; (r.1, a.2 ||| r.2)) first
        (r, f)
  else
    let is := vals.map (intOf t)
    let r : Int :=
      match rn x.fn with
      | 0 => is.foldl (· + ·) 0
      | 1 => is.foldl min (is.headD 0)
      | 2 => is.foldl max (is.headD 0)
      | 3 => (vals.foldl Nat.land (vals.headD 0) : Nat)
      | 4 => (vals.foldl Nat.lor 0 : Nat)
      | _ => (vals.foldl Nat.xor 0 : Nat)
    (intResult t x.sat r, 0)
/-- VRED (R277). -/
def execVred (x : WA) (s : State) : Out State :=
  let p := x.x.ty.wide
  collective (collUse x (regs (rn x.a) p) (regs (rn x.d) p)) (rn x.x.w2) (fun _ ms s =>
    let act := ms.filter (·.2.2)
    let (r, f) := vredOp x.x (act.map (fun m => elemRead x.x.ty (rn x.x.sel) (s.thr m.2.1) (rn x.a)))
    let s := each (fun t => (elemWrite x.x.ty (rn x.x.sel) t (rn x.d) r).orFlags f) (act.map (·.2.1)) s
    wakeMembers (ms.map (·.2.1)) s) s

end Sys2Proof.Machine
end

