-- ==== Sys2Proof/Machine/Slice.lean ====
section
/-! DEFINITION. The physical map, granule owners, and the L2 slices with their lines, ways, leases and completion ticks (spec/02_address_spaces.md R27 to R33; spec/03_memory_hierarchy.md R49, R53 to R58; spec/06_memory_ordering.md R112, R113). -/
namespace Sys2Proof.Machine

/-- What a physical address names (Table 2.4). -/
inductive Region where
  | hbm | deck (d : Nat) | lpddr | registers | peer (p : Nat) | host | nothing
  deriving DecidableEq, Repr

/-- Table 2.4. -/
def regionOf (pa : Nat) : Region :=
  if pa < 0x6000000000 then .hbm
  else if 0x8000000000 ≤ pa ∧ pa < 0x8080000000 then .deck ((pa - 0x8000000000) / 0x10000000)
  else if 0x10000000000 ≤ pa ∧ pa < 0x28000000000 then .lpddr
  else if 0x6000000000000 ≤ pa ∧ pa < 0x7000000000000 then .registers
  else if 0x7000000000000 ≤ pa ∧ pa < 0x8000000000000 then .peer ((pa - 0x7000000000000) / 0x80000000000)
  else if 0x8000000000000 ≤ pa ∧ pa < 0x10000000000000 then .host
  else .nothing
/-- Local memory rows: HBM4E, deck memory, LPDDR. -/
def Region.local : Region → Bool
  | .hbm | .deck _ | .lpddr => true
  | _ => false
/-- A deck window is backed only while its deck is memory-only (R27). -/
def State.backed (s : State) (pa : Nat) : Bool :=
  match regionOf pa with
  | .deck d => !nth true s.decks d
  | .nothing => false
  | .peer p => decide (p < 32)
  | _ => true
/-- PASID of a context (Table 14.1, R20). -/
def State.pasidOf (s : State) (fn ctx : Nat) : Nat :=
  match s.context? fn ctx with
  | some c => fieldOf c.desc 12 4 % 2 ^ 20
  | none => 0
/-- The link on which a function's host-window accesses leave (R358). -/
def State.linkOf (s : State) (fn : Nat) : Nat := (s.reg 0 true (0x1D00 + 4 * fn)).toNat % 2
/-- Tenant tag of a function (R359). -/
def State.tagOf (s : State) (fn : Nat) : Dword := s.reg 0 true (0x1A00 + 8 * fn)
/-- An access of a context leaves for the host, on its link and under its PASID, or for a peer, under its tenant tag (R41, R42, R358, R359). -/
def State.leave (s : State) (fn ctx pa : Nat) (x : Payload) : State :=
  s.send (match regionOf pa with | .peer _ => .peer (s.tagOf fn) pa x | _ => .host (s.linkOf fn) (s.pasidOf fn ctx) pa x)
/-- Bytes leave for the host or a peer, poisoned or not (R42, R135). -/
def State.sendOut (s : State) (fn ctx pa : Nat) (bs : List Byte) (poison : Bool) : State := s.leave fn ctx pa (if poison then .poison bs else .write bs)
/-- A translation or page request leaves for the host (R41). -/
def State.askHost (s : State) (fn ctx req : Nat) (page : Bool) : State := s.send (.hostRequest req (s.linkOf fn) (s.pasidOf fn ctx) page)
/-- Backed local memory, where tables must lie (R27). -/
def State.backedLocal (s : State) (pa : Nat) : Bool := (regionOf pa).local && s.backed pa

/-- Granule number of a local physical address (Table 2.8). -/
def granuleOf (pa : Nat) : Nat :=
  match regionOf pa with
  | .hbm => pa / 0x200000
  | .deck _ => 196608 + (pa - 0x8000000000) / 0x200000
  | _ => 197632 + (pa - 0x10000000000) / 0x200000
/-- Owner byte of a granule (R28, R29): free in a deck window that is not backed; else 0x00 while GRANTAB is 0, and the table's byte. -/
def State.ownerOf (s : State) (g : Nat) : Nat :=
  let tab := (s.reg 0 true 0x1E00).toNat
  if 196608 ≤ g ∧ g < 197632 ∧ nth true s.decks ((g - 196608) / 128) = true then 0xFF
  else if tab = 0 then 0 else (s.mem.bytes.read (tab + g)).toNat
/-- The granule of a local address is owned by a function that carries the tag (R359). -/
def tagMatches (tag : Dword) (pa : Nat) (s : State) : Bool :=
  let o := s.ownerOf (granuleOf pa)
  decide (o ≤ 16) && s.tagOf o == tag
/-- Every granule of a physical range is owned by a function. -/
def State.ownsRange (s : State) (fn pa size : Nat) : Bool :=
  (List.range ((pa % 0x200000 + size + 0x1FFFFF) / 0x200000)).all (fun i => s.ownerOf (granuleOf (pa + i * 0x200000)) == fn)

/-! ### L2 (R49, R53 to R58, R112) -/

/-- HBM4E channel of a physical address (R30). -/
def channelOf (a : Nat) : Nat :=
  Nat.xor (Nat.xor (bitsOf a 15 8) (bitsOf a 23 16)) (Nat.xor (bitsOf a 31 24) (bitsOf a 38 32))
/-- Home slice of a 128-byte line (R54). -/
def sliceOf (line : Nat) : Nat :=
  let a := line * 128
  12 * channelOf a + 2 * (bitsOf a 23 16 % 6) + bitsOf a 7 7
/-- GTICK moves on by one: a slice performs at most one access to a line in one tick (R112). -/
def State.bump (s : State) : State := { s with gtick := s.gtick + 1 }
/-- The resident line, if any. -/
def State.l2line? (s : State) (line : Nat) : Option L2Line := s.mem.l2.find? (fun l => l.line == line)
/-- Sets a resident line. -/
def State.setL2 (s : State) (l : L2Line) : State :=
  { s with mem := { s.mem with l2 := l :: s.mem.l2.filter (fun x => x.line != l.line) } }
/-- A slice's eviction horizon (R49). -/
def State.horizonAt (s : State) (slice : Nat) : Nat := lookupD 0 s.mem.horizon slice
/-- Completion tick of the last write accepted for a line that its slice does not hold, while it lies ahead (R53). -/
def State.lateTw (s : State) (line : Nat) : Nat := lookupD 0 s.mem.late line
/-- Keeps the completion tick of a line's last write where it lies ahead. -/
def State.keepTw (s : State) (line tw : Nat) : State :=
  { s with mem := { s.mem with late := (if s.gtick < tw then [(line, tw)] else []) ++ s.mem.late.filter (fun p => p.1 != line && decide (s.gtick < p.2)) } }
/-- Raises a slice's eviction horizon. -/
def State.raiseHorizon (s : State) (slice h : Nat) : State :=
  { s with mem := { s.mem with horizon := insertKey s.mem.horizon slice (max h (s.horizonAt slice)) } }
/-- The 64 KiB block whose access counter a line belongs to (R33). -/
def blockOf (pa : Nat) : Option Nat :=
  match regionOf pa with
  | .lpddr => some ((pa - 0x10000000000) / 0x10000)
  | .deck d => some (25165824 + 4096 * d + (pa - 0x8000000000) / 0x10000 % 4096)
  | _ => none
/-- A fill or write-back of a line counts, saturating (R33). -/
def State.countBlock (s : State) (line : Nat) : State :=
  match blockOf (line * 128) with
  | none => s
  | some b => { s with mem := { s.mem with access := insertKey s.mem.access b (min 0xFFFF (lookupD 0 s.mem.access b + 1)) } }
/-- Bytes that a channel has served to a function in the current window (R348). -/
def State.servedAt (s : State) (channel fn : Nat) : Nat := lookupD 0 s.served (17 * channel + fn)
/-- 128 bytes move between a slice and HBM4E for a function, at the line's channel (R348, R351). -/
def State.countHbm (s : State) (fn line : Nat) : State :=
  if regionOf (line * 128) == .hbm then
    ({ s with served := insertKey s.served (17 * channelOf (line * 128) + fn) (s.servedAt (channelOf (line * 128)) fn + 128) }).count fn 5 1
  else s
/-- A scrub sets a slice's eviction horizon to 0 (R49). -/
def State.zeroHorizon (s : State) (slice : Nat) : State := { s with mem := { s.mem with horizon := insertKey s.mem.horizon slice 0 } }
/-- A line leaves its slice: its horizon goes into the eviction horizon, dirty data go to memory (R49, R55). -/
def evictL2 (l : L2Line) (s : State) : State :=
  let s := if l.last == s.gtick then s.bump else s
  let s := { s with mem := { s.mem with l2 := s.mem.l2.filter (fun x => x.line != l.line) } }
  let s := s.keepTw l.line l.tw
  let s := s.raiseHorizon (sliceOf l.line) l.h
  if l.dirty then (s.countBlock l.line).countHbm l.fn l.line else s
/-- Ways a function's mask permits (R56). -/
def State.waysOf (s : State) (fn : Nat) : List Nat := (List.range 16).filter (s.reg 0 true (0x1000 + 4 * fn)).toNat.testBit
/-- A way for a fill and the line it replaces, or none: the access is then served without allocation (R55, R56). DESIGN CHOICE (notes/assumptions 59): of several free permitted ways the lowest-numbered one is filled, and of several lines that may be replaced a free choice is; the set is asked for only where no permitted way of the slice is free. -/
def wayFor (fn line : Nat) (s : State) : State × Option (Nat × Option L2Line) :=
  let mine := s.mem.l2.filter (fun l => sliceOf l.line == sliceOf line)
  let ok := s.waysOf fn
  match ok.find? (fun w => !mine.any (fun l => l.way == w)) with
  | some w => (s, some (w, none))
  | none =>
    let set := mine.filter (fun l => Config.l2Set l.line % 64 == Config.l2Set line % 64)
    match ok.find? (fun w => !set.any (fun l => l.way == w)) with
    | some w => (s, some (w, none))
    | none =>
      let victims := set.filter (fun l => ok.contains l.way && l.pin.isNone)
      let (i, s) := s.pick victims.length
      match victims[i]? with
      | some v => (s, some (v.way, some v))
      | none => (s, none)
/-- Fill history of a way (R58). -/
def State.historyOf (s : State) (slice way : Nat) : Nat :=
  match s.mem.history.find? (fun h => h.1 == slice && h.2.1 == way) with
  | some h => h.2.2
  | none => 0
/-- Sets the fill history of a way. -/
def State.setHistory (s : State) (slice way bits : Nat) : State :=
  { s with mem := { s.mem with history := (slice, way, bits) :: s.mem.history.filter (fun h => !(h.1 == slice && h.2.1 == way)) } }
/-- One access of a function to a line at its home slice, at the tick State.gtick shows afterwards: a hit, a fill, or a bypass; a line that the slice does not hold is accessed at a new tick (R54, R55, R112). -/
def l2Touch (fn line : Nat) (s : State) : State :=
  match s.l2line? line with
  | some l =>
    let s := if l.last == s.gtick then s.bump else s
    s.setL2 { l with last := s.gtick }
  | none =>
    match wayFor fn line s.bump with
    | (s, none) => s.countHbm fn line
    | (s, some (w, v)) =>
      let s := match v with | some v => evictL2 v s | none => s
      let s := (s.setHistory (sliceOf line) w (s.historyOf (sliceOf line) w ||| 2 ^ fn)).countBlock line
      let s := (s.count fn 4 1).countHbm fn line
      s.setL2 ⟨line, w, fn, s.horizonAt (sliceOf line), s.lateTw line, s.gtick, false, none⟩
/-- A lease granted for a line until a tick (R49); a line that bypasses the slice keeps it in the eviction horizon. -/
def grantLease (line e : Nat) (s : State) : State :=
  match s.l2line? line with
  | some l => s.setL2 { l with h := max l.h e }
  | none => s.raiseHorizon (sliceOf line) e

/-- Whether a page under a cut is still copy-on-write. -/
def State.isCow (s : State) (page : Nat) : Bool := s.snaps.any (fun p => p.pages.contains page)

/-- Bytes at offsets of a line written into memory; a write of all 128 bytes clears the line's poison, a poisoned write sets it (R135). The launch unit sees the write where it watches the line (R314). -/
def putCells (line : Nat) (cells : Memory) (poison : Bool) (s : State) : State :=
  let bytes := cells.foldl (fun m c => m.write (line * 128 + c.1) c.2) s.mem.bytes
  let others := s.mem.poison.filter (· ≠ line)
  let p := if poison then line :: others else if cells.length = 128 then others else s.mem.poison
  { s with mem := { s.mem with bytes := bytes, poison := p, watches := s.mem.watches.map (fun w => if w.2.1 = line then (w.1, line, true) else w) } }
/-- A WRITE ACCEPTED AT L2 (R53): the bytes are applied at the acceptance tick, and the write receives its Tw. -/
def acceptWrite (fn line : Nat) (cells : Memory) (poison : Bool) (s : State) : State × Nat :=
  let s := l2Touch fn line (keepPage (line / 32) s)
  let s := putCells line cells poison s
  match s.l2line? line with
  | some l =>
    let tw := max s.gtick (max l.h l.tw)
    (s.setL2 { l with tw := tw, dirty := true }, tw)
  | none =>
    let tw := max s.gtick (max (s.horizonAt (sliceOf line)) (s.lateTw line))
    (s.keepTw line tw, tw)
/-- The bytes of one write as cells of its line: at most up to the line's end. -/
def cellsOf (pa : Nat) (bytes : List Byte) : Memory := (List.range bytes.length).zip bytes |>.map (fun c => (pa % 128 + c.1, c.2))
/-- Bytes split at line ends. -/
def splitLines {α : Type} : Nat → Nat → List α → List (Nat × List α)
  | 0, _, _ => []
  | n + 1, pa, bytes =>
    if bytes.isEmpty then []
    else (pa, bytes.take (128 - pa % 128)) :: splitLines n (pa + (128 - pa % 128)) (bytes.drop (128 - pa % 128))
/-- Bytes written at L2 from a physical address on, in ascending order, one accepted write for each line; the largest Tw. -/
def acceptBytes (fn pa : Nat) (bytes : List Byte) (s : State) : State × Nat :=
  (splitLines (bytes.length / 128 + 2) pa bytes).foldl (fun (r : State × Nat) p =>
    let (s, tw) := acceptWrite fn (p.1 / 128) (cellsOf p.1 p.2) false r.1
    (s, max r.2 tw)) (s, 0)
/-- Bytes written as acceptBytes does, each poisoned or not: the write of a line is poisoned where one of its bytes is (R135). -/
def acceptMarked (fn pa : Nat) (cells : List (Byte × Bool)) (s : State) : State × Nat :=
  (splitLines (cells.length / 128 + 2) pa cells).foldl (fun (r : State × Nat) p =>
    let (s, tw) := acceptWrite fn (p.1 / 128) (cellsOf p.1 (p.2.map (·.1))) (p.2.any (·.2)) r.1
    (s, max r.2 tw)) (s, 0)
/-- Bytes read at L2 without a lease, and whether any line is poisoned. -/
def readL2 (fn pa n : Nat) (s : State) : State × List Byte × Bool :=
  let lines := (List.range ((pa % 128 + n + 127) / 128)).map (pa / 128 + ·)
  let s := lines.foldl (fun s l => l2Touch fn l s) s
  (s, s.mem.bytes.readN pa n, lines.any s.mem.poison.contains)

end Sys2Proof.Machine
end

