-- ==== Sys2Proof/Machine/Translate.lean ====
section
/-! DEFINITION. Page walks and cached translations (spec/02_address_spaces.md R19 to R35, R40). -/
namespace Sys2Proof.Machine

/-- Bits [63:57] equal bit 56 (R19). -/
def canonical (va : Nat) : Bool := decide (va < 2 ^ 56) || (decide (2 ^ 64 - 2 ^ 56 ≤ va) && decide (va < 2 ^ 64))

/-- Memory Type of a leaf (Table 2.2). -/
def leafMt (e : Nat) : Nat := bitsOf e 11 10
/-- Page base or next table. -/
def entryAddr (e : Nat) : Nat := bitsOf e 51 12 * 0x1000

/-- Reserved bits of a valid entry (R24). -/
def entryReserved (e : Nat) : Bool := e.testBit 63 || e.testBit 61 || e.testBit 60
/-- A leaf at a level is malformed (R23, R24, R25, R31). -/
def leafMalformed (e level idx size : Nat) : Bool :=
  entryReserved e || decide (4 ≤ level) ||
  (e.testBit 9 && (level != 1 || idx % 16 != 0)) ||
  (e.testBit 3 && !e.testBit 2) || (e.testBit 5 && !e.testBit 3) || leafMt e == 3 ||
  (e.testBit 62 && leafMt e != 2) || entryAddr e % size != 0 ||
  (size == 0x40000000 && (match regionOf (entryAddr e) with | .deck _ | .peer _ | .host => true | _ => false))
/-- Page size of a leaf at a level. -/
def leafSize (e level : Nat) : Nat :=
  match level with
  | 1 => if e.testBit 9 then 0x10000 else 0x1000
  | 2 => 0x200000
  | _ => 0x40000000

/-- The result of a walk: a leaf with its page size and its entry's address, or the fault's cause and mark. -/
inductive Walked where
  | leaf (e size pa : Nat)
  | bad (cause : Cause) (mark : Nat)
  deriving DecidableEq, Repr

/-- An 8-byte page-table entry as memory holds it. -/
def State.entry (s : State) (pa : Nat) : Nat := leNat (s.mem.bytes.readN pa 8)
/-- Bits ORed into an entry by an atomic at its home slice (R26, R54). -/
def orEntry (fn pa bits : Nat) (s : State) : State :=
  (acceptWrite fn (pa / 128) (cellsOf pa (leBytes (s.entry pa ||| bits) 8)) false s).1

/-- The owner bytes of a physical range of local memory are read from the table, which the device may have cached (R28, R29). -/
def touchOwners (fn base size : Nat) (s : State) : State :=
  let tab := (s.reg 0 true 0x1E00).toNat
  if tab = 0 then s
  else
    let lo := tab + granuleOf base
    (List.range ((lo % 128 + size / 0x200000) / 128 + 1)).foldl (fun s i => l2Touch fn (lo / 128 + i) s) s
/-- A leaf that the walker reaches: A is set, then it is checked (R25, R26, R28). -/
def walkLeaf (fn level idx pa : Nat) (s : State) : State × Walked :=
  let s := orEntry fn pa 0x80 s
  let e := s.entry pa
  let size := leafSize e level
  if leafMalformed e level idx size then (s, .bad .pageNotPresent markMalformed)
  else
    let base := entryAddr e
    if fn != 0 && regionOf base == .registers then (s, .bad .pageProtection 0)
    else if fn != 0 && (regionOf base).local then
      let s := touchOwners fn base size s
      if s.ownsRange fn base size then (s, .leaf e size pa) else (s, .bad .pageProtection 0)
    else (s, .leaf e size pa)

/-- The walk from a table down the levels in the list; entries that the walk cache does not hold are read at their home slice (R23, R24, R26, R54). -/
def walkFrom (fn va : Nat) : List Nat → Nat → State → State × Walked
  | [], _, s => (s, .bad .pageNotPresent markMalformed)
  | level :: rest, table, s =>
    if !s.backedLocal table then (s, .bad .pageNotPresent markUnbacked)
    else
      let idx := va / 2 ^ (12 + 9 * (level - 1)) % 512
      let first := table + 8 * (idx - idx % 16)
      let held := s.mem.walk.find? (fun w => w.fn == fn && w.pa == table + 8 * idx)
      -- The sixteen entries of a group share one 128-byte line.
      let s := if held.isSome then s else l2Touch fn (first / 128) s
      let g := s.entry first
      let isGroup := level == 1 && g.testBit 0 && g.testBit 1 && g.testBit 9
      let idx := if isGroup then idx - idx % 16 else idx
      let pa := table + 8 * idx
      let e := match held with | some w => w.value.toNat | none => s.entry pa
      if !e.testBit 0 then (s, .bad .pageNotPresent 0)
      else if e.testBit 1 then walkLeaf fn level idx pa s
      else if entryReserved e || level == 1 then (s, .bad .pageNotPresent markMalformed)
      else
        let s := { s with mem := { s.mem with walk := (⟨fn, pa, BitVec.ofNat 64 e⟩ :: s.mem.walk.filter (fun w => !(w.fn == fn && w.pa == pa))).take 16384 } }
        walkFrom fn va rest (entryAddr e) s

/-- The page-table root of a context (Table 14.1). -/
def State.rootOf (s : State) (fn ctx : Nat) : Nat :=
  match s.context? fn ctx with
  | some c => fieldOf c.desc 0 8
  | none => 0
/-- A whole walk (R23). -/
def walk (fn ctx va : Nat) (s : State) : State × Walked := walkFrom fn va [5, 4, 3, 2, 1] (s.rootOf fn ctx) s

/-- A cached translation that covers an address, of the core or of its cluster (R35). -/
def tlbHit (core fn ctx va : Nat) (s : State) : Option Tlb :=
  s.mem.tlb.find? (fun t => t.fn == fn && t.ctx == ctx && decide (t.va ≤ va) && decide (va < t.va + t.size) &&
    t.place == (if t.atCore then core else clusterOf core))
/-- Caches a successful walk in the core and its cluster (R35); the oldest entries beyond the capacity leave. -/
def tlbFill (core fn ctx va e size pa : Nat) (s : State) : State :=
  let base := va - va % size
  let mk (c : Bool) (p : Nat) : Tlb := ⟨c, p, fn, ctx, base, size, BitVec.ofNat 64 e, pa⟩
  let stale (t : Tlb) : Bool := t.fn == fn && t.ctx == ctx && decide (t.va ≤ va) && decide (va < t.va + t.size)
  let mine := s.mem.tlb.filter (fun t => t.atCore && t.place == core && !stale t)
  let clu := s.mem.tlb.filter (fun t => !t.atCore && t.place == clusterOf core && !stale t)
  let other := s.mem.tlb.filter (fun t => !(t.atCore && t.place == core) && !(!t.atCore && t.place == clusterOf core))
  { s with mem := { s.mem with tlb := mk true core :: mine.take 127 ++ mk false (clusterOf core) :: clu.take 4095 ++ other } }

/-- Permission an access needs (R21, R25); shardRead and shardWrite are those of the checkpoint writer and loader (R18). -/
inductive Need where
  | read | write | exec | atomic | shardRead | shardWrite
  deriving DecidableEq, Repr
/-- The access writes. -/
def Need.writes : Need → Bool
  | .write | .atomic | .shardWrite => true
  | _ => false
/-- The leaf grants what the access needs; an E page is open to the table engine, the page copier and the checkpoint writer alone (R18). -/
def granted (n : Need) (e : Nat) : Bool :=
  match n with
  | .read => !e.testBit 6 && e.testBit 2
  | .write => !e.testBit 6 && e.testBit 3
  | .exec => !e.testBit 6 && e.testBit 4
  | .atomic => !e.testBit 6 && e.testBit 5
  | .shardRead => e.testBit 2
  | .shardWrite => e.testBit 3

/-- Result of a translation: physical address, memory type, leaf; or the fault. -/
inductive Xlated where
  | ok (pa mt leaf : Nat)
  | bad (cause : Cause) (mark : Nat)
  deriving DecidableEq, Repr

/-- The first write through a cached translation whose D is 0 sets D in the entry and in the cached copies (R26). -/
def setDirty (core fn ctx va : Nat) (s : State) : State :=
  match tlbHit core fn ctx va s with
  | none => s
  | some t =>
    if t.leaf.getLsbD 8 then s
    else
      let s := orEntry fn t.leafPa 0x100 s
      { s with mem := { s.mem with tlb := s.mem.tlb.map (fun t =>
          if t.fn == fn && t.ctx == ctx && decide (t.va ≤ va) && decide (va < t.va + t.size) then { t with leaf := t.leaf ||| 0x100 } else t) } }

/-- What a leaf answers an access (R21, R25, R27). -/
def judge (n : Need) (va e size : Nat) (s : State) : Xlated :=
  if !granted n e then .bad .pageProtection 0
  else
    let pa := entryAddr e + va % size
    if !s.backed pa then .bad .pageNotPresent markUnbacked else .ok pa (leafMt e) e
/-- A walk for an access; only a walk that serves the access is cached (R35). -/
def walkFresh (n : Need) (core fn ctx va : Nat) (s : State) : State × Xlated :=
  match walk fn ctx va s with
  | (s, .bad c m) => (s, .bad c m)
  | (s, .leaf e size pa) =>
    match judge n va e size s with
    | .ok p mt l => (tlbFill core fn ctx va e size pa s, .ok p mt l)
    | r => (s, r)
/-- Translation of one address for an access, before any D bit (R19, R25 to R28). A cached translation that refuses the access is walked afresh: faults are never cached (R35, R330). -/
def xlate (n : Need) (core fn ctx va : Nat) (s : State) : State × Xlated :=
  if !canonical va then (s, .bad .pageProtection markNonCanonical)
  else
    match tlbHit core fn ctx va s with
    | none => walkFresh n core fn ctx va s
    | some t =>
      match judge n va t.leaf.toNat t.size s with
      | .ok pa mt l => (s, .ok pa mt l)
      | _ => walkFresh n core fn ctx va s
/-- Translation of one address for an access that performs now: a write sets D (R26). -/
def translate (n : Need) (core fn ctx va : Nat) (s : State) : State × Xlated :=
  match xlate n core fn ctx va s with
  | (s, .ok pa mt e) => (if n.writes then setDirty core fn ctx va s else s, .ok pa mt e)
  | r => r

/-- Whether the page of an address is being migrated (R34). -/
def State.isMigrating (s : State) (fn ctx va : Nat) : Bool :=
  s.mem.migrating.any (fun m => m.fn == fn && m.ctx == ctx && decide (m.va ≤ va) && decide (va < m.va + m.size))

/-- A physical range lies in a page that is being moved away (R34). -/
def State.migratesFrom (s : State) (pa n : Nat) : Bool :=
  s.mem.migrating.any (fun m => decide (pa < m.src + m.size) && decide (m.src < pa + n))

/-! ### Accesses of units (R41, R34) -/

/-- A host page enters the ATC, which holds 8,192 (R41). -/
def State.fillAtc (s : State) (fn ctx page : Nat) : State :=
  { s with mem := { s.mem with atc := ((fn, ctx, page) :: s.mem.atc.filter (· ≠ (fn, ctx, page))).take 8192 } }
/-- A unit's access to a host page that the ATC does not hold asks the host and waits: present, the page enters the ATC; not present, a page request follows where PRI allows. The host's answers are free, and the wait lies within the unit's step (R41, notes/assumptions 71). True where the access goes on. -/
def hostPage (fn ctx pa leaf : Nat) (s : State) : State × Bool :=
  if regionOf pa != .host || s.mem.atc.contains (fn, ctx, pa / 4096) then (s, true)
  else
    let (a, s) := (s.askHost fn ctx 0 false).pick 2
    if a = 0 then (s.fillAtc fn ctx (pa / 4096), true)
    else if !leaf.testBit 62 then (s, false)
    else
      let (b, s) := (s.askHost fn ctx 0 true).pick 2
      if b = 0 then ((s.askHost fn ctx 0 false).fillAtc fn ctx (pa / 4096), true) else (s, false)
/-- Translation of a unit's access, the host's translation of a host page included; one that writes to a page under migration marks the step as one that waits (R34, R41). -/
def xlateUnit (n : Need) (core fn ctx va : Nat) (s : State) : State × Xlated :=
  let s := if n.writes && s.isMigrating fn ctx va then { s with waits := true } else s
  match xlate n core fn ctx va s with
  | (s, .ok pa mt e) =>
    match hostPage fn ctx pa e s with
    | (s, true) => (if n.writes then setDirty core fn ctx va s else s, .ok pa mt e)
    | (s, false) => (s, .bad .pageNotPresent 0)
  | r => r

end Sys2Proof.Machine
end

