-- ==== Sys2Proof/Machine/Cache.lean ====
section
/-! DEFINITION. L1 lines, write-backs, releases and the reading and writing of memory under them (spec/03_memory_hierarchy.md R46 to R58, spec/06_memory_ordering.md R112 to R124, spec/02_address_spaces.md R40, spec/15_faults_and_preemption.md R341). -/
namespace Sys2Proof.Machine

/-! ### L1 (R46 to R53, R116, R117) -/

/-- The L1 line of a core for a virtual line. -/
def State.l1? (s : State) (core fn ctx line : Nat) : Option L1Line :=
  s.mem.l1.find? (fun x => x.core == core && x.fn == fn && x.ctx == ctx && x.line == line)
/-- Whether two L1 lines are the same place. -/
def L1Line.same (x y : L1Line) : Bool := x.core == y.core && x.fn == y.fn && x.ctx == y.ctx && x.line == y.line
/-- Drops an L1 line. -/
def State.dropL1 (s : State) (x : L1Line) : State := { s with mem := { s.mem with l1 := s.mem.l1.filter (fun y => !x.same y) } }
/-- Sets an L1 line. -/
def State.setL1 (s : State) (x : L1Line) : State := { s with mem := { s.mem with l1 := x :: s.mem.l1.filter (fun y => !x.same y) } }
/-- Drops the clean copy of a line, and the line where nothing is dirty (R117, R124). -/
def State.dropCopy (s : State) (x : L1Line) : State := if x.dirty.isEmpty then s.dropL1 x else s.setL1 { x with copy := none }
/-- A copy serves a team's load: its lease runs and it was granted at or after the team's last save (R48, R116). -/
def usable (tm : Team) (x : L1Line) (s : State) : Bool :=
  match x.copy with
  | some (_, e, g, _) => decide (s.gtick < e) && decide (tm.saveTick ≤ g)
  | none => false
/-- Lines that a core's L1 holds at most: 512 KiB for each step of its split (R45). -/
def State.l1Lines (s : State) (core : Nat) : Nat := 4096 * ((s.core core).split + 1)
/-- A core's L1 has no place for one line more. -/
def State.l1Full (s : State) (core : Nat) : Bool := decide (s.l1Lines core ≤ (s.mem.l1.filter (fun x => x.core == core)).length)
/-- Where an L1 is full, a clean line of it, by free choice, is evicted (R46). -/
def dropClean (core : Nat) (s : State) : State :=
  if s.l1Full core then
    let clean := s.mem.l1.filter (fun x => x.core == core && x.dirty.isEmpty)
    let (i, s) := s.pick clean.length
    match clean[i]? with | some x => s.dropL1 x | none => s
  else s
/-- A fill from L2 with a lease of the team's LEASE; dirty bytes stay (R48, R50). A line that a full L1 has no place for is evicted at once (R46). -/
def fillL1 (tm : Team) (fn ctx line pa : Nat) (s : State) : State :=
  let pl := pa / 128
  let s := l2Touch fn pl s
  let e := s.gtick + tm.lease
  let s := grantLease pl e s
  let keep (x : L1Line) (s : State) : State :=
    s.setL1 { x with copy := some (s.mem.bytes.readN (pl * 128) 128, e, s.gtick, s.mem.poison.contains pl) }
  match s.l1? tm.core fn ctx line with
  | some x => keep x s
  | none =>
    let s := dropClean tm.core s
    if s.l1Full tm.core then s else keep ⟨tm.core, fn, ctx, line, none, [], false, 0, false, 0⟩ s
/-- Dirty bytes at offsets of an L1 line. -/
def L1Line.dirtyAt (x : L1Line) (o : Nat) : Option Byte := (x.dirty.find? (fun c => c.1 == o)).map (·.2)
/-- Bytes of an L1 line: dirty bytes over its copy, and whether one is poisoned. -/
def L1Line.bytes (x : L1Line) (o n : Nat) : List Byte × Bool :=
  let offs := (List.range n).map (o + ·)
  let copy := match x.copy with | some (b, _, _, _) => b | none => []
  let bad := match x.copy with | some (_, _, _, p) => p | none => false
  (offs.map (fun i => (x.dirtyAt i).getD (nth 0 copy i)),
   offs.any (fun i => if (x.dirtyAt i).isSome then x.dirtyPoison else bad))
/-- A LOAD of bytes of one line under R114: from the team's dirty bytes, from a leased copy, or from L2; outside the device whatever stands there (notes/assumptions 30); another team's dirty line is passed by (R48). -/
def loadBytes (tm : Team) (fn ctx va pa mt n : Nat) (s : State) : State × List Byte × Bool :=
  if 2 ≤ mt then let (bs, s) := freeBytes n s; (s, bs, false)
  else if mt != 0 then readL2 fn pa n s
  else
    let line := va / 128
    match s.l1? tm.core fn ctx line with
    | some x =>
      if !x.dirty.isEmpty && x.team != tm.uid then readL2 fn pa n s
      else if usable tm x s || (List.range n).all (fun i => (x.dirtyAt (va % 128 + i)).isSome) then (s.count fn 3 1, x.bytes (va % 128) n)
      else
        let s := fillL1 tm fn ctx line pa s
        (s, ((s.l1? tm.core fn ctx line).getD x).bytes (va % 128) n)
    | none =>
      let s := fillL1 tm fn ctx line pa s
      match s.l1? tm.core fn ctx line with
      | some x => (s, x.bytes (va % 128) n)
      | none => (s, s.mem.bytes.readN pa n, s.mem.poison.contains (pa / 128))

/-- The largest Tw of a team's writes grows (R120 item 4). -/
def noteTw (team line va tw : Nat) (s : State) : State :=
  { s with threads := s.threads.map (fun (t : Thread) => if t.team = team then t.wrote line va tw s.gtick else t) }
/-- A WRITE-BACK (R40, R52): the virtual line translates afresh. The line is gone once its bytes are accepted, is held where the page takes no write, and stays while the page migrates. -/
def writeBack (x : L1Line) (s : State) : State :=
  if x.dirty.isEmpty || s.isMigrating x.fn x.ctx (x.line * 128) then s
  else
    match translate .write x.core x.fn x.ctx (x.line * 128) s with
    | (s, .ok pa _ _) =>
      if (regionOf pa).local then
        let (s, tw) := acceptWrite x.fn (pa / 128) x.dirty x.dirtyPoison s
        noteTw x.team (pa / 128) (x.line * 128) tw (s.dropL1 x)
      else (x.dirty.foldl (fun s c => s.sendOut x.fn x.ctx (pa / 128 * 128 + c.1) [c.2] x.dirtyPoison) s).dropL1 x
    | (s, .bad _ _) => s.setL1 { x with held := true }
/-- A team's dirty lines. -/
def State.dirtyOf (s : State) (team : Nat) : List L1Line := s.mem.l1.filter (fun x => x.team == team && !x.dirty.isEmpty)
/-- Every dirty line of a team is written back (R52). -/
def writeBackTeam (team : Nat) (s : State) : State := (s.dirtyOf team).foldl (fun s x => writeBack x s) s
/-- Write-backs of the team's dirty lines that overlap a virtual range an engine reads (R52, R68). -/
def writeBackRange (team lo n : Nat) (s : State) : State :=
  ((s.dirtyOf team).filter (fun x => decide (x.line * 128 < lo + n) && decide (lo < x.line * 128 + 128))).foldl (fun s x => writeBack x s) s

/-- Dirty bytes of a line with some bytes more. -/
def L1Line.dirtied (x : L1Line) (tm : Team) (now o : Nat) (bytes : List Byte) : L1Line :=
  { x with dirty := Memory.overlay x.dirty o bytes, team := tm.uid, since := if x.dirty.isEmpty then now else x.since }
where
  /-- Sets bytes in a list of (offset, byte) in rising order; a byte 0 is kept, for a dirty byte may be 0. -/
  Memory.overlay (m : Memory) (o : Nat) : List Byte → Memory
    | [] => m
    | b :: bs => Memory.overlay (insertBy (·.1) (o, b) (m.filter (fun c => c.1 ≠ o))) (o + 1) bs
/-- An atomic's or a unit's own write at L2 comes after the write-back of the team's dirty copy of the line, and the core's clean copy goes (R52, R53, R117). -/
def yieldLine (tm : Team) (fn ctx va : Nat) (s : State) : State :=
  let s := match s.l1? tm.core fn ctx (va / 128) with
    | some x => if !x.dirty.isEmpty && x.team == tm.uid then writeBack x s else s
    | none => s
  match s.l1? tm.core fn ctx (va / 128) with
  | some x => s.dropCopy x
  | none => s
/-- What a read at L2 has observed is not undone by an older leased copy: the core's clean copy of the line goes (R113). -/
def State.forget (s : State) (core fn ctx va : Nat) : State :=
  match s.l1? core fn ctx (va / 128) with
  | some x => s.dropCopy x
  | none => s
/-- A place in a core's L1 for one line more: a clean line goes, else a dirty one is written back and goes (R46, R52). -/
def makeRoom (core : Nat) (s : State) : State :=
  let s := dropClean core s
  if s.l1Full core then
    let mine := s.mem.l1.filter (fun x => x.core == core && !x.held && !s.isMigrating x.fn x.ctx (x.line * 128))
    let (i, s) := s.pick mine.length
    match mine[i]? with | some x => writeBack x s | none => s
  else s
/-- Another team's dirty line that a store meets is written back first; where that fails, the store translates afresh and performs at L2, or faults (R51). -/
def claimLine (tm : Team) (fn ctx : Nat) (p : Source) (s : State) : State × (Source ⊕ (Cause × Detail)) :=
  match p with
  | .glob va pa 0 =>
    let others (s : State) : Option L1Line := (s.l1? tm.core fn ctx (va / 128)).filter (fun x => !x.dirty.isEmpty && x.team != tm.uid)
    match others s with
    | none => (s, .inl p)
    | some x =>
      let s := writeBack x s
      if (others s).isNone then (s, .inl p)
      else
        match walkFresh .write tm.core fn ctx va s with
        | (s, .ok pa _ _) => (setDirty tm.core fn ctx va s, .inl (.glob va pa (if (regionOf pa).local then 1 else 2)))
        | (s, .bad c m) => (s, .inr (c, { kind := accStore ||| m, addr := va }))
  | p => (s, .inl p)
/-- A STORE of bytes of one line into the team's L1 copy (R50); where the L1 has no place for the line, the store performs at L2 (notes/assumptions 72). -/
def storeL1 (tm : Team) (fn ctx va pa : Nat) (bytes : List Byte) (s : State) : State :=
  let line := va / 128
  let s := if (s.l1? tm.core fn ctx line).isNone then makeRoom tm.core s else s
  let x := (s.l1? tm.core fn ctx line).getD ⟨tm.core, fn, ctx, line, none, [], false, 0, false, 0⟩
  if (!x.dirty.isEmpty && x.team != tm.uid) || ((s.l1? tm.core fn ctx line).isNone && s.l1Full tm.core) then
    let (s, tw) := acceptWrite fn (pa / 128) (cellsOf pa bytes) false s
    noteTw tm.uid (pa / 128) va tw s
  else s.setL1 (x.dirtied tm s.gtick (va % 128) bytes)

/-- Bytes that a unit reads of one line: at L2, or, in host or peer memory, whatever stands there (R42, notes/assumptions 30). -/
def readPlace (fn pa n : Nat) (s : State) : State × List Byte × Bool :=
  if (regionOf pa).local then readL2 fn pa n s else let (bs, s) := freeBytes n s; (s, bs, false)
/-- Bytes of one line that a unit of a context writes: at L2, with their Tw, or outside the device (R42, R53). -/
def writePlace (fn ctx pa : Nat) (bs : List Byte) (poison : Bool) (s : State) : State × Nat :=
  if (regionOf pa).local then acceptWrite fn (pa / 128) (cellsOf pa bs) poison s else (s.sendOut fn ctx pa bs poison, s.gtick)
end Sys2Proof.Machine
end

