-- ==== Sys2Proof/Machine/Access.lean ====
section
/-! DEFINITION. Memory accesses of threads: addresses, the checks made before any byte performs, requests and their completion (spec/11_memory_instructions.md R230 to R232, R234, R235; spec/03_memory_hierarchy.md R70; spec/02_address_spaces.md R15, R22, R34, R41). -/
namespace Sys2Proof.Machine

/-! ### Forms and addresses (R183, R187, R193, R230) -/

/-- One access of the load and store majors. -/
structure Acc where
  g : Guard
  bytes : Nat
  e : Bool
  d : Nat
  a : Nat
  off : Int
  ty : ElemType
  n : Nat
  /-- Scope of .ACQ or .REL. -/
  order : Option Nat
  deriving DecidableEq, Repr

/-- Size in bytes of an element (R15, R183). -/
def elemBytes (t : ElemType) : Nat := t.width / 8
/-- An SM short form: one I32 (R193); e is the offset's unit. -/
def smAcc (x : SM) (unit : Nat) : Acc := ⟨Guard.always, 4, x.e, rn x.d, rn x.a, (x.off.toNat * unit : Nat), .i32, 1, none⟩
/-- An SM layout wide form. -/
def wmAcc (x : WM) (unit : Nat) : Acc :=
  ⟨x.x.g, 12, x.e, rn x.d, rn x.a, if x.x.lit then x.x.w2.toInt else ((x.off.toNat * unit : Nat) : Int), x.x.ty, countOf x.x.fn,
   if bitsOf x.x.fn.toNat 3 2 == 1 then some (rn x.x.sel) else none⟩
/-- An SM layout wide form of a load or store: the unit is the element's size. -/
def wmData (x : WM) : Acc := wmAcc x (elemBytes x.x.ty)
/-- Address of a pair plus the offset, modulo 2^64. -/
def Acc.addr (x : Acc) (base : Dword) : Nat := (base + BitVec.ofInt 64 x.off).toNat
/-- Registers of the data operand. -/
def Acc.regs (x : Acc) : List Nat := if x.ty.wide then [x.d, x.d + 1] else span x.d x.n
/-- Elements: (offset, register). -/
def Acc.elems (x : Acc) : List (Nat × Nat) := (List.range x.n).map (fun i => (i * elemBytes x.ty, x.d + i))

/-! ### Range locks (R70) -/

/-- Two ranges share a byte. -/
def overlaps (a n b m : Nat) : Bool := decide (a < b + m) && decide (b < a + n)
/-- An access of a context's thread on a core hits a locked global range. -/
def lockedGlobal (core fn ctx : Nat) (store : Bool) (va n : Nat) (s : State) : Bool :=
  s.copies.any (fun c => c.core == core && c.fn == fn && c.ctx == ctx && !c.stopped && c.len != 0 &&
    ((c.dstGlobal && overlaps va n c.dst c.len) || (store && c.srcGlobal && overlaps va n c.src c.len)))
/-- An access of a team hits a locked scratchpad range. -/
def lockedScratch (team : Nat) (store : Bool) (off n : Nat) (s : State) : Bool :=
  s.copies.any (fun c => c.team == team && !c.stopped && c.len != 0 &&
    ((!c.dstGlobal && overlaps off n c.dst c.len) || (store && !c.srcGlobal && overlaps off n c.src c.len)))

/-! ### Checks (R234) -/

/-- What the checks of an access answer: its places, a fault, or a page that migrates (R34). -/
inductive Checked where
  | ok (places : List Source)
  | bad (cause : Cause) (d : Detail)
  | migrating
  deriving DecidableEq, Repr

/-- The place of a translated address: MT 0 in L1 and L2, 1 in L2 only, 2 outside the device (host, peer, register window), 3 outside with PRI (R42, R46, R54). -/
def placeOf (va pa mt leaf : Nat) : Source :=
  .glob va pa (if (regionOf pa).local then min mt 1 else if leaf.testBit 62 then 3 else 2)
/-- One element's checks in the order of R234; the address may lie outside 64 bits (R61). -/
def checkElem (n : Need) (kind : Nat) (store : Bool) (core fn ctx : Nat) (a : Int) (size : Nat) (s : State) : State × Checked :=
  let va := (BitVec.ofInt 64 a).toNat
  if a < 0 || decide ((2 : Int) ^ 64 ≤ a) || !canonical va then
    (s, .bad .pageProtection { kind := kind ||| markNonCanonical, addr := va })
  else if va % size != 0 then (s, .bad .alignment { kind := kind, addr := va })
  else
    match xlate n core fn ctx va s with
    | (s, .bad c m) => (s, .bad c { kind := kind ||| m, addr := va })
    | (s, .ok pa mt leaf) =>
      if lockedGlobal core fn ctx store va size s then (s, .bad .rangeLock { kind := kind, addr := va })
      else if store && s.isMigrating fn ctx va then (s, .migrating)
      else (s, .ok [placeOf va pa mt leaf])
/-- The checks of every element, in order; the first that fails decides. -/
def checkAll (n : Need) (kind : Nat) (store : Bool) (core fn ctx : Nat) : List (Int × Nat) → State → State × Checked
  | [], s => (s, .ok [])
  | (a, size) :: rest, s =>
    match checkElem n kind store core fn ctx a size s with
    | (s, .ok p) =>
      match checkAll n kind store core fn ctx rest s with
      | (s, .ok ps) => (s, .ok (p ++ ps))
      | r => r
    | (s, .migrating) =>
      match checkAll n kind store core fn ctx rest s with
      | (s, .bad c d) => (s, .bad c d)
      | (s, _) => (s, .migrating)
    | r => r
/-- The checks of an access of a thread. -/
def checkThread (n : Need) (kind : Nat) (store : Bool) (u : Nat) (l : List (Int × Nat)) (s : State) : State × Checked :=
  let g := s.gridOf u
  checkAll n kind store (s.teamOf u).core g.fn g.ctx l s
/-- D is set for the pages an access writes (R26). -/
def dirtyPlaces (core fn ctx : Nat) (ps : List Source) (s : State) : State :=
  ps.foldl (fun s p => match p with | .glob va _ _ => setDirty core fn ctx va s | _ => s) s

/-! ### Requests (R231) -/

/-- A place outside the device. -/
def Source.outside : Source → Bool
  | .glob _ _ mt => decide (2 ≤ mt)
  | _ => false
/-- A place on a peer (Table 2.4). -/
def Source.onPeer : Source → Bool
  | .glob _ pa mt => decide (2 ≤ mt) && (match regionOf pa with | .peer _ => true | _ => false)
  | _ => false
/-- A host page whose translation the ATC does not hold (R41). -/
def Source.needsAts (fn ctx : Nat) (s : State) : Source → Bool
  | .glob _ pa mt => decide (2 ≤ mt) && regionOf pa == .host && !s.mem.atc.contains (fn, ctx, pa / 4096)
  | _ => false
/-- A new request: its threads' counter rises; an acquiring access, or one that waits for a host translation, holds them (R231, R235, R41). -/
def addReq (cls : Cls) (us : List Nat) (team : Nat) (work : Work) (pc : Dword) (hold : Bool) (ps : List Source) (s : State) : State :=
  let tm := s.tm team
  let g := s.gr tm.grid
  let (id, s) := s.fresh
  let ats := ps.any (Source.needsAts g.fn g.ctx s)
  let s := { s with reqs := s.reqs ++ [⟨id, s.issue, cls, us, tm.core, team, work, pc, s.gtick, hold, none, if ats then 1 else 0, s.gtick⟩] }
  let s := if ats then s.askHost g.fn g.ctx id false else s
  us.foldl (fun s u => s.modThr u (fun t =>
    let t := t.countUp cls
    if hold || ats then { t with phase := .stalled, wait := { req := id, go := true } } else t)) s
/-- Bytes of a source outside the memory system: (space, start, bytes). -/
def Source.extent (n : Nat) : Source → List (Nat × Nat × Nat)
  | .glob va _ _ => [(0, va, n)]
  | .scratch o => [(1, o, n)]
  | .const _ => []
/-- Bytes that an outstanding request reads or writes for its threads. -/
def Work.extents : Work → List (Nat × Nat × Nat)
  | .load _ l => l.flatMap (fun e => e.src.extent e.size)
  | .loadTeam l _ _ => l.flatMap (fun e => e.src.extent e.size)
  | .store _ l => l.flatMap (fun p => p.dst.extent p.bytes.length)
  | .atomic _ va _ _ o _ => [(0, va, elemBytes o.ty)]
  | .hbind _ va _ _ _ _ => [(0, va, 64)]
  | _ => []
/-- Places of a request. -/
def Work.places : Work → List Source
  | .load _ l => l.map (·.src)
  | .loadTeam l _ _ => l.map (·.src)
  | .store _ l => l.map (·.dst)
  | .atomic _ va pa mt _ _ => [.glob va pa mt]
  | .hbind _ va pa mt _ _ => [.glob va pa mt]
  | _ => []
/-- Two lists of extents share a byte. -/
def extentsMeet (a b : List (Nat × Nat × Nat)) : Bool :=
  a.any (fun x => b.any (fun y => x.1 == y.1 && overlaps x.2.1 x.2.2 y.2.1 y.2.2))
/-- An older request of one of the threads, or of the same instruction, touches one of the bytes: a thread's accesses to one byte perform in program order, lanes of one store in lane order (R113, R235). -/
def olderMeets (before group : Nat) (us : List Nat) (l : List (Nat × Nat × Nat)) (s : State) : Bool :=
  s.allReqs.any (fun q => decide (q.id < before) && (q.group == group || q.threads.any us.contains) && extentsMeet l q.work.extents)
/-- A request that an older one holds back. -/
def Req.heldBack (r : Req) (s : State) : Bool := olderMeets r.id r.group r.threads r.work.extents s
/-- The request is done: its threads' counters fall when nothing of the same instruction is left for them (R231). -/
def complete (r : Req) (s : State) : State :=
  let s := { s with reqs := s.reqs.filter (fun q => q.id != r.id) }
  r.threads.foldl (fun s u =>
    if s.allReqs.any (fun q => q.group == r.group && q.cls == r.cls && q.threads.contains u) then s
    else s.modThr u (fun t => t.countDown r.cls)) s
/-- The request of a number. -/
def State.req? (s : State) (id : Nat) : Option Req := s.reqs.find? (fun r => r.id == id)
/-- Changes a request. -/
def State.modReq (s : State) (id : Nat) (f : Req → Req) : State := { s with reqs := s.reqs.map (fun r => if r.id = id then f r else r) }

/-! ### Delivery (R234, R235) -/

/-- The register value of a narrow element: sign-extended for I8 and I16, else zero-extended; a nibble where one is selected (R193, R239). -/
def Elem.word (e : Elem) (n : Nat) : Word :=
  match e.nib with
  | some hi => BitVec.ofNat 32 (if hi then n / 16 % 16 else n % 16)
  | none =>
    match e.ty with
    | .i8 => (BitVec.ofNat 8 n).signExtend 32
    | .i16 => (BitVec.ofNat 16 n).signExtend 32
    | _ => BitVec.ofNat 32 n
/-- Registers an element is delivered into. -/
def Elem.regs (e : Elem) : List Nat := if e.size == 8 then [e.reg, e.reg + 1] else [e.reg]
/-- An element delivered into v registers; poisoned bytes are delivered marked (R135). -/
def Thread.deliver (e : Elem) (bs : List Byte) (poisoned : Bool) (t : Thread) : Thread :=
  let n := leNat bs
  let t := if e.size == 8 then t.wpair e.reg (BitVec.ofNat 64 n) else t.wv e.reg (e.word n)
  let t := { t with pendV := t.pendV.filter (fun r => !e.regs.contains r) }
  if poisoned then { t with poison := t.poison ++ e.regs.filter (· < t.owned) } else t
/-- An element delivered into a team's s registers under the judgement made at issue (R236). -/
def Team.deliver (full : Bool) (w : List Nat) (e : Elem) (bs : List Byte) (poisoned : Bool) (t : Team) : Team :=
  let n := leNat bs
  let t := if e.size == 8 then t.wspair full w e.reg (BitVec.ofNat 64 n) else t.ws full w e.reg (e.word n)
  let t := { t with pendS := t.pendS.filter (fun r => !e.regs.contains r) }
  if poisoned then { t with sPoison := t.sPoison ++ e.regs } else t
/-- Bytes of a place as a team's load returns them (R114, R118). -/
def readSource (tm : Team) (fn ctx : Nat) (p : Source) (n : Nat) (s : State) : State × List Byte × Bool :=
  match p with
  | .glob va pa mt => loadBytes tm fn ctx va pa mt n s
  | .scratch o => (s, (s.tm tm.uid).scratch.readN o n, (span o n).any (s.tm tm.uid).scratchPoison.contains)
  | .const bits => (s, leBytes bits n, false)
/-- Bytes of one part written where the part's place says (R235); a nibble leaves the other one (R239). A saved team has no L1: its store performs at L2, where its later loads on any core find it (R136). -/
def writePart (team : Nat) (us : List Nat) (p : Part) (s : State) : State :=
  let tm := s.tm team
  let g := s.gr tm.grid
  match p.dst with
  | .scratch o => s.modTeam team (fun tm => { tm with scratch := tm.scratch.writeN o p.bytes, scratchPoison := tm.scratchPoison.filter (fun i => !(span o p.bytes.length).contains i) })
  | .const _ => s
  | .glob va pa mt =>
    let (s, bytes) :=
      match p.nib with
      | none => (s, p.bytes)
      | some hi =>
        let (s, old, _) := loadBytes tm g.fn g.ctx va pa mt 1 s
        let o := leNat old
        let n := leNat p.bytes % 16
        (s, leBytes (if hi then o % 16 + 16 * n else o - o % 16 + n) 1)
    if mt == 0 && tm.saved.isNone then storeL1 tm g.fn g.ctx va pa bytes s
    else if mt ≤ 1 then
      let (s, tw) := acceptWrite g.fn (pa / 128) (cellsOf pa bytes) false s
      us.foldl (fun s u => s.modThr u (Thread.wrote (pa / 128) va tw s.gtick)) s
    else s.sendOut g.fn g.ctx pa bytes false
/-- The places of parts after R51, or the first fault. -/
def claimParts (tm : Team) (fn ctx : Nat) : List Part → State → State × (List Part ⊕ (Cause × Detail))
  | [], s => (s, .inl [])
  | p :: ps, s =>
    match claimLine tm fn ctx p.dst s with
    | (s, .inr f) => (s, .inr f)
    | (s, .inl q) =>
      match claimParts tm fn ctx ps s with
      | (s, .inl qs) => (s, .inl ({ p with dst := q } :: qs))
      | r => r
/-- A request ends without its effect: its counts are withdrawn and its registers are no longer awaited (R231). -/
def withdraw (r : Req) (s : State) : State :=
  let s := complete r s
  let s := r.threads.foldl (fun s u => s.modThr u (fun t =>
    let ds := match r.work with | .load _ l => l.flatMap Elem.regs | .atomic _ _ _ _ o d => (match d with | some d => regs d o.ty.wide | none => []) | _ => []
    { t with pendV := t.pendV.filter (fun x => !ds.contains x), phase := match t.phase with | .parked .pageRequest => .stalled | p => p })) s
  match r.work with
  | .loadTeam l _ _ => s.modTeam r.team (fun tm => { tm with pendS := tm.pendS.filter (fun x => !(l.flatMap Elem.regs).contains x) })
  | .hbind h _ _ _ _ _ => s.modTeam r.team (fun tm => { tm with pendH := tm.pendH.filter (· ≠ h) })
  | _ => s
/-- A request's fault, raised once its threads have gone on: their record's faulting PC is the access (R51, R359). -/
def failLate (r : Req) (c : Cause) (d : Detail) (s : State) : State :=
  (s.byLane r.threads).foldl (fun s u => raiseDeferred c d u r.pc 0 s) (withdraw r s)
/-- The parts of a request's store perform (R51, R235). -/
def landParts (r : Req) (parts : List Part) (s : State) : State :=
  let tm := s.tm r.team
  let g := s.gr tm.grid
  match claimParts tm g.fn g.ctx parts s with
  | (s, .inr (c, d)) => failLate r c d s
  | (s, .inl ps) => complete r (ps.foldl (fun s p => writePart r.team r.threads p s) s)

/-! ### Arbiters (R348) -/

/-- A page of the places migrates, or is copy-on-write under a cut (R34, R355). -/
def Work.waitsPage (w : Work) (fn ctx : Nat) (s : State) : Bool :=
  w.places.any (fun p => match p with | .glob va pa _ => s.isMigrating fn ctx va || s.isCow (pa / 4096) | _ => false)
/-- A store that waits for the releases of its threads (R235, R236). -/
def Req.waitsRelease (r : Req) : Bool :=
  r.hold && (match r.work with | .store _ _ => true | _ => false)
/-- A store waits for a release of its threads that comes before it (R120). -/
def Req.waitsFence (r : Req) (s : State) : Bool := r.waitsRelease && r.threads.any (fun u => (s.thr u).rel.isSome)
/-- Function of a request. -/
def Req.fn (r : Req) (s : State) : Nat := (s.gr (s.tm r.team).grid).fn
/-- A request stands before an arbiter: nothing but the arbiters holds it back. -/
def Req.stands (r : Req) (s : State) : Bool :=
  let g := s.gr (s.tm r.team).grid
  r.ats == 0 && r.fault.isNone && !r.heldBack s && !r.waitsFence s && !((match r.work with | .store _ _ | .atomic _ _ _ _ _ _ => true | _ => false) && r.work.waitsPage g.fn g.ctx s)
/-- The HBM4E channel at which a request needs its first fill. -/
def Req.channel? (r : Req) (s : State) : Option Nat :=
  (r.work.places.filterMap (fun p => match p with
    | .glob _ pa mt => if mt ≤ 1 && regionOf pa == .hbm && (s.l2line? (pa / 128)).isNone then some (channelOf pa) else none
    | _ => none)).head?
/-- Floor share of a function at each channel, in bytes of a window: FLOOR units of 65,536 bytes over 256 channels. -/
def State.shareOf (s : State) (fn : Nat) : Nat := bitsOf (s.reg 0 true (0x1600 + 8 * fn)).toNat 15 0 * 256
/-- Share weight of a function. -/
def State.weightOf (s : State) (fn : Nat) : Nat := max 1 (bitsOf (s.reg 0 true (0x1600 + 8 * fn)).toNat 39 32)
/-- A function has had its floor share at a channel in the current window. -/
def State.beyondShare (s : State) (channel fn : Nat) : Bool := decide (s.shareOf fn ≤ s.servedAt channel fn)
/-- At a channel, function g with a request goes before f: f is beyond its floor share and g is not, or both are and g has had less of the remainder for its weight. -/
def State.goesFirst (s : State) (channel f g : Nat) : Bool :=
  s.beyondShare channel f &&
  (!s.beyondShare channel g ||
   decide ((s.servedAt channel g - s.shareOf g) * s.weightOf f < (s.servedAt channel f - s.shareOf f) * s.weightOf g))
/-- A request of another function goes first at the channel where this one needs its first fill (R348). -/
def Req.outranked (r : Req) (s : State) : Bool :=
  match r.channel? s with
  | none => false
  | some c => s.reqs.any (fun q => q.fn s != r.fn s && q.channel? s == some c && q.stands s && s.goesFirst c (r.fn s) (q.fn s))
/-- The slice at which a request's atomic performs. -/
def Req.atomicSlice? (r : Req) : Option Nat :=
  match r.work with
  | .atomic _ _ pa mt _ _ => if mt ≤ 1 then some (sliceOf (pa / 128)) else none
  | _ => none
/-- A function has had its turns of a slice's round, one for each unit of its weight. -/
def State.turnsSpent (s : State) (slice fn : Nat) : Bool := decide (s.weightOf fn ≤ lookupD 0 s.turns (17 * slice + fn))
/-- An atomic waits for the next round of its slice: its function's turns are spent, and an atomic of a function that has turns left can perform (R348). -/
def Req.outOfTurn (r : Req) (s : State) : Bool :=
  match r.atomicSlice? with
  | none => false
  | some sl => s.turnsSpent sl (r.fn s) && s.reqs.any (fun q => q.atomicSlice? == some sl && !s.turnsSpent sl (q.fn s) && q.stands s && !q.outranked s)
/-- An atomic of a function takes a turn at a slice; where none is left, a new round begins (R348). -/
def takeTurn (slice fn : Nat) (s : State) : State :=
  let l := if s.turnsSpent slice fn then s.turns.filter (fun t => t.1 / 17 != slice) else s.turns
  { s with turns := insertKey l (17 * slice + fn) (lookupD 0 l (17 * slice + fn) + 1) }
/-- The arbiters hold a request back. -/
def Req.yields (r : Req) (s : State) : Bool := r.outranked s || r.outOfTurn s

end Sys2Proof.Machine
end

