-- ==== Sys2Proof/Machine/Release.lean ====
section
/-! DEFINITION. The gather collector's entries, and releases (spec/03_memory_hierarchy.md R65, R66; spec/06_memory_ordering.md R120 to R122; spec/15_faults_and_preemption.md R341). -/
namespace Sys2Proof.Machine

/-! ### The gather collector (R65, R66) -/

/-- The virtual line of a place. -/
def Source.line : Source → Nat
  | .glob va _ _ => va / 128
  | _ => 0
/-- The distinct lines of places, in order. -/
def linesOf (ps : List Source) : List Nat := ps.foldl (fun l p => if l.contains p.line then l else l ++ [p.line]) []
/-- A scatter entry waits: an older access of one of its threads, or an older store of its team, outside the entry touches one of its bytes, or its page migrates (R34, R66, R113). -/
def CollEntry.waits (e : CollEntry) (s : State) : Bool :=
  e.store && e.reqs.any (fun r =>
    (s.allReqs.filter (fun q => !e.reqs.contains q)).any (fun q =>
      decide (q.id < r.id) && (q.threads.any r.threads.contains || (q.cls == .st && q.team == r.team)) && extentsMeet r.work.extents q.work.extents) ||
    r.work.places.any (fun p => match p with | .glob va _ _ => s.isMigrating e.fn e.ctx va | _ => false))
/-- A collector entry departs: gathers go to L1 or L2 as requests, a scatter's bytes are written under its team's tag, in lane order (R65, R66). -/
def depart (e : CollEntry) (s : State) : State :=
  let s := { s.count e.fn 8 1 with coll := s.coll.filter (fun x => x != e) }
  let s := { s with reqs := s.reqs ++ e.reqs }
  if e.store then e.reqs.foldl (fun s r => match r.work with | .store _ parts => landParts r parts s | _ => s) s else s
/-- Departure of an entry that nothing holds back. -/
def departNow (e : CollEntry) (s : State) : State := if e.waits s then s else depart e s
/-- A core's collector entries in the order in which they opened. -/
def State.collOf (s : State) (core : Nat) : List CollEntry := s.coll.filter (fun e => e.core == core)
/-- Entries with a thread's requests depart, but for those that wait (R65, R120). -/
def departThread (u : Nat) (s : State) : State :=
  (s.coll.filter (fun e => e.reqs.any (fun r => r.threads.contains u))).foldl (fun s e => departNow e s) s
/-- The oldest entries of a core depart until n are free (R65). -/
def makeEntries (core n : Nat) (s : State) : State :=
  let mine := s.collOf core
  (mine.take (mine.length + n - 512)).foldl (fun s e => departNow e s) s
/-- A lane's request for one line joins a matching open entry, or opens one; where no entry can be freed it goes on by itself. -/
def collect (store : Bool) (line : Nat) (r : Req) (s : State) : State :=
  let g := s.gr (s.tm r.team).grid
  let fits (e : CollEntry) : Bool :=
    e.core == r.core && e.fn == g.fn && e.ctx == g.ctx && e.store == store && e.line == line && (!store || e.team == r.team)
  if s.coll.any fits then { s with coll := s.coll.map (fun e => if fits e then { e with reqs := e.reqs ++ [r] } else e) }
  else if 512 ≤ (s.collOf r.core).length then { s with reqs := s.reqs ++ [r] }
  else { s with coll := s.coll ++ [⟨r.core, g.fn, g.ctx, r.team, store, line, s.gtick, [r]⟩] }

/-! ### Releases (R120, R341) -/

/-- A thread has accesses that have not performed. -/
def memPending (u : Nat) (s : State) : Bool := s.allReqs.any (fun r => r.isAccess && !r.waitsRelease && r.threads.contains u)
/-- A transfer of the thread writes to peers and is not acknowledged yet (R131). -/
def ackPending (u : Nat) (s : State) : Bool :=
  s.reqs.any (fun r => r.threads.contains u && (match r.work with | .dispatch _ (.dsend _) _ _ _ _ _ => true | .dispatch _ (.coll _) _ _ _ _ _ => true | _ => false))
/-- A store whose release fails does not perform; its count is withdrawn (R231). -/
def dropWaiting (u : Nat) (s : State) : State :=
  (s.reqs.filter (fun r => r.waitsRelease && r.threads.contains u)).foldl (fun s r =>
    r.threads.foldl (fun s u => s.modThr u (fun t => t.countDown r.cls)) { s with reqs := s.reqs.filter (fun q => q.id != r.id) }) s

/-- FENCE_LOST for each held line of a team, in the threads that issued the release together (R341). -/
def fenceLost (team : Nat) (us : List Nat) (pc : Dword) (s : State) : State :=
  let tm := s.tm team
  let g := s.gr tm.grid
  let held := (s.dirtyOf team).filter (·.held)
  let s := us.foldl (fun s u => (dropWaiting u s).modThr u (fun t => ({ t with rel := none, relDone := false }).fault)) s
  held.foldl (fun s x =>
    if s.faults.any (fun r => r.cause == .fenceLost && r.team == team && r.detail.addr == x.line * 128 && r.threads == us) then s
    else
      let (id, s) := s.fresh
      let mask := us.foldl (fun m u => m ||| (1#32 <<< (s.thr u).lane)) 0
      let r : FaultRec :=
        ⟨id, .fenceLost, { kind := accStore, addr := x.line * 128, aux := x.since }, g.fn, g.ctx, tm.grid, g.gridId, team, tm.id, pc, pc,
         mask, us, s.gtick, whereOf tm, false, s.issue, 0, false, none, 0⟩
      ({ s with faults := s.faults ++ [r] }).modGrid tm.grid (fun g => { g with faults := g.faults + 1 })) s

/-- A release has reached its target tick and, at system scope, the acknowledgements of R131 (R120 items 4 and 5). DEDUCED: item 5 holds for system scope, and the rule's list of what a release does not wait for holds for the narrower scopes (notes/assumptions 73). -/
def Release.reached (r : Release) (u : Nat) (s : State) : Bool := r.started && decide (r.target ≤ s.gtick) && !(decide (4 ≤ r.scope) && ackPending u s)
/-- A release goes as far as it can: its write-backs once the thread's accesses have performed, its completion once its target tick is reached (R120). FENCE_LOST and POISON, a write lost while it waits included, end it (R40, R134). -/
def advanceRelease (u : Nat) (s : State) : State :=
  let t := s.thr u
  match t.rel with
  | none => s
  | some r =>
    let s :=
      if !r.started && memPending u s then s
      else if !t.lost.isEmpty then
        raise .poison { kind := accStore, addr := t.lost.headD 0 * 128 } u ((dropWaiting u s).modThr u (fun t => { t with rel := none }))
      else if r.started then s
      else
        let s := if 1 ≤ r.scope then writeBackTeam t.team s else s
        let left := if 1 ≤ r.scope then s.dirtyOf t.team else []
        if left.any (·.held) then
          let us := s.byLane (((s.threadsOf t.team).filter (fun (v : Thread) => match v.rel with | some q => q.issue == r.issue | none => false)).map (·.uid))
          fenceLost t.team us t.pc s
        else if !left.isEmpty then s
        else s.modThr u (fun t => { t with rel := some { r with started := true, target := if 2 ≤ r.scope then t.maxTw else 0 } })
    match (s.thr u).rel with
    | some r =>
      if r.reached u s then s.modThr u (fun t => { t with rel := none, relDone := t.wait.req == 0 }) else s
    | none => s
/-- Whether a release would move. -/
def releaseReady (u : Nat) (s : State) : Bool :=
  match (s.thr u).rel with
  | none => false
  | some r => if r.started then r.reached u s || !(s.thr u).lost.isEmpty else !memPending u s
/-- A release of a scope starts in some threads at once: their collector entries depart, and each release goes as far as it can (R65, R120, R341). -/
def startReleases (scope : Nat) (us : List Nat) (s : State) : State :=
  let s := us.foldl (fun s u => s.modThr u (fun t => { t with rel := some ⟨scope, false, 0, s.issue⟩ })) s
  let s := us.foldl (fun s u => departThread u s) s
  us.foldl (fun s u => advanceRelease u s) s

/-- An instruction that performs a release of a scope before its own effect (R120, R122): a thread issues nothing further until its release completes; the instruction then issues afresh. DEDUCED (notes/assumptions 25): the thread is held as a scoreboard stall is (R249), so it is STALLED and its span ends. -/
def withRelease (scope : Nat) (body : Nat → State → State) (us : List Nat) (s : State) : State :=
  let s := startReleases scope (us.filter (fun u => (s.thr u).phase == .issuing && !(s.thr u).relDone)) s
  us.foldl (fun s u =>
    let t := s.thr u
    if t.phase != .issuing then s
    else if t.relDone then body u (s.modThr u (fun t => { t with relDone := false }))
    else s.modThr u (fun t => { t with phase := .stalled, wait := {} })) s
/-- RELEASE_COMPLETE: a waiting release moves on (R120). -/
def execReleaseComplete (th : Nat) (s : State) : Out State :=
  match (s.thr th).rel with
  | some r => if releaseReady th s then done (withIssue r.issue (advanceRelease th) s) else .fault .notPending
  | none => .fault .notPending

/-- POISON of an exit release that covers a lost write: a record that names no thread (R134, R341). -/
def exitLost (team : Nat) (s : State) : State :=
  let tm := s.tm team
  let g := s.gr tm.grid
  let line := ((s.threadsOf team).flatMap Thread.lost).headD 0
  let (id, s) := s.fresh
  let r : FaultRec :=
    ⟨id, .poison, { kind := accStore, addr := line * 128 }, g.fn, g.ctx, tm.grid, g.gridId, team, tm.id, tm.exitPc, tm.exitPc,
     0, [], s.gtick, whereOf tm, false, s.issue, 0, false, none, 0⟩
  ({ s with faults := s.faults ++ [r] }).modGrid tm.grid (fun g => { g with faults := g.faults + 1 })
/-- A write of the team was lost (R134). -/
def teamLost (team : Nat) (s : State) : Bool := (s.threadsOf team).any (fun (t : Thread) => !t.lost.isEmpty)
/-- The exit release of a team (R139): write-backs under R40, then its target tick. -/
def advanceExit (team : Nat) (s : State) : State :=
  match (s.tm team).exitRel with
  | none => s
  | some r =>
    if r.started then (if teamLost team s then exitLost team s else s)
    else
      let s := writeBackTeam team s
      let left := s.dirtyOf team
      if left.any (·.held) then fenceLost team [] (s.tm team).exitPc s
      else if teamLost team s then exitLost team s
      else if !left.isEmpty then s
      else
        let tw := (s.threadsOf team).foldl (fun m (t : Thread) => max m t.maxTw) 0
        s.modTeam team (fun tm => { tm with exitRel := some { r with started := true, target := tw } })


end Sys2Proof.Machine
end

