-- ==== Sys2Proof/Machine/Control.lean ====
section
/-! DEFINITION. Control transfers, exit, register blocks, regrouping, counter waits and sleeps (spec/10_control_and_integer_instructions.md R217 to R223; spec/07_execution_model.md R139, R142, R154; spec/03_memory_hierarchy.md R69). -/
namespace Sys2Proof.Machine

/-! ### Transfers (R182, R217, R218) -/

/-- A target: relative to the PC in words, or a register pair. -/
inductive Target where
  | rel (words : Dword) | pair (r : Nat)
  deriving DecidableEq, Repr
/-- The target's address in a thread. -/
def Target.addr (g : Target) (t : Thread) : Dword :=
  match g with
  | .rel w => t.pc + 4 * w
  | .pair r => t.rpair r
/-- Registers the target names. -/
def Target.vs : Target → List Nat
  | .pair r => regs r true
  | _ => []
/-- Bits [1:0] are 0 (R182). -/
def aligned4 (a : Dword) : Bool := a.toNat % 4 == 0
/-- A thread that takes a transfer moves, or raises ALIGNMENT and stays (R182). -/
def take (g : Target) (u : Nat) (s : State) : State :=
  let a := g.addr (s.thr u)
  if aligned4 a then s.modThr u (fun t => { t with npc := a }) else raise .alignment { addr := a.toNat } u s
/-- BR: each thread for itself (R217). -/
def branch (c : Guard) (g : Target) (us : List Nat) (s : State) : State :=
  us.foldl (fun s u => if (s.thr u).guard c then take g u s else s) s
/-- BRU for one team: its lowest-lane thread decides (R217, R182). -/
def branchTeam (c : Guard) (g : Target) (mine : List Nat) (s : State) : State :=
  match mine with
  | [] => s
  | l :: _ =>
    let t := s.thr l
    let cond := t.guard c
    let indirect := !g.vs.isEmpty
    let differs := mine.any (fun u =>
      (s.thr u).guard c != cond || (cond && indirect && g.addr (s.thr u) != g.addr t))
    if (s.tm t.team).mode.getLsbD 0 && differs then raiseAll .uniformBranch {} mine s
    else if !cond then s
    else if !aligned4 (g.addr t) then raiseAll .alignment { addr := (g.addr t).toNat } mine s
    else each (fun t' => { t' with npc := g.addr t }) mine s
/-- BRU for every team of the wave (R217). -/
def branchUniform (c : Guard) (g : Target) (us : List Nat) (s : State) : State :=
  (teamsIn s us).foldl (fun s tm => branchTeam c g (us.filter (fun u => (s.thr u).team == tm)) s) s
/-- The target of an SB short form. -/
def SBtarget (x : SB) : Target := .rel (x.off.signExtend 64)
/-- The target of BR and BRU, 96-bit: PC + 4 × literal, or vC:C+1. -/
def WBtarget (x : WB) : Target := if x.x.fn == 0 then .rel (x.x.w2.signExtend 64) else .pair (rn x.x.c)
/-- The target of CALL, 96-bit: OFF18, or vC:C+1. -/
def WBcallTarget (x : WB) : Target := if x.x.fn == 0 then .rel (x.off.signExtend 64) else .pair (rn x.x.c)
/-- Use of an SB short form. -/
def sbUse (x : SB) : Use := { bytes := 4, e := x.e, rp := [rn x.g.pred] }
/-- Use of an SB layout wide form. -/
def wbUse (x : WB) (g : Target) : Use := { bytes := 12, e := x.e, rp := [rn x.g.pred], rv := g.vs }

/-- BR (R217). -/
def execBr (x : SB) (s : State) : Out State := issue (sbUse x) true (branch x.g (SBtarget x)) s
/-- BR, 96-bit (R217). -/
def execBrWide (x : WB) (s : State) : Out State := issue (wbUse x (WBtarget x)) true (branch x.g (WBtarget x)) s
/-- BRU (R217). -/
def execBru (x : SB) (s : State) : Out State := issue (sbUse x) true (branchUniform x.g (SBtarget x)) s
/-- BRU, 96-bit (R217). -/
def execBruWide (x : WB) (s : State) : Out State := issue (wbUse x (WBtarget x)) true (branchUniform x.g (WBtarget x)) s
/-- JMP (R218). -/
def execJmp (x : SA) (s : State) : Out State :=
  issue (use4 x.e (regs (rn x.a) true) []) true (fun us s => us.foldl (fun s u => take (.pair (rn x.a)) u s) s) s
/-- JMP, 96-bit (R218). -/
def execJmpWide (x : WA) (s : State) : Out State :=
  issue (use12 x.e x.x.g (regs (rn x.a) true) []) true (fun us s => us.foldl (fun s u => take (.pair (rn x.a)) u s) s) s
/-- CALL in the threads whose condition is true: link, then transfer (R218, R182). -/
def callThreads (c : Guard) (g : Target) (link bytes : Nat) (us : List Nat) (s : State) : State :=
  us.foldl (fun s u =>
    let t := s.thr u
    if !t.guard c then s
    else if t.owned < link + 2 then raise .reservedField { kind := markRegister } u s
    else if aligned4 (g.addr t) then
      (s.modThr u (fun t => t.wpair link (t.pc + BitVec.ofNat 64 bytes))).modThr u (fun t' => { t' with npc := g.addr t })
    else raise .alignment { addr := (g.addr t).toNat } u s) s
/-- CALL: the link is v126:127 (R218). -/
def execCall (x : SB) (s : State) : Out State := issue { sbUse x with hv := fun s u => if (s.thr u).guard x.g then [126, 127] else [] } true (callThreads x.g (SBtarget x) 126 4) s
/-- CALL, 96-bit (R218). -/
def execCallWide (x : WB) (s : State) : Out State :=
  issue { wbUse x (WBcallTarget x) with hv := fun s u => if (s.thr u).guard x.g then regs (rn x.x.w2) true else [] } true (callThreads x.g (WBcallTarget x) (rn x.x.w2) 12) s
/-- RET (R218). -/
def execRet (x : SA) (s : State) : Out State :=
  issue (use4 x.e (regs (rn x.a) true) []) true (fun us s => us.foldl (fun s u => take (.pair (rn x.a)) u s) s) s
/-- RET, 96-bit (R218). -/
def execRetWide (x : WA) (s : State) : Out State :=
  issue (use12 x.e x.x.g (regs (rn x.a) true) []) true (fun us s => us.foldl (fun s u => take (.pair (rn x.a)) u s) s) s
/-- EXIT (R139). -/
def execExit (x : SA) (s : State) : Out State :=
  issue (use4 x.e [] []) true (each (fun t => { t with phase := .exiting })) s
/-- EXIT, 96-bit (R139). -/
def execExitWide (x : WA) (s : State) : Out State :=
  issue (use12 x.e x.x.g [] []) true (each (fun t => { t with phase := .exiting })) s
/-- YIELD: the span ends, and its threads are READY with age 0 (R218). -/
def execYield (x : SA) (s : State) : Out State := issue (use4 x.e [] []) true (fun _ s => s) s
/-- YIELD, 96-bit (R218). -/
def execYieldWide (x : WA) (s : State) : Out State := issue (use12 x.e x.x.g [] []) true (fun _ s => s) s

/-! ### Exit (R139, R153, R171) -/

/-- A thread's claimed blocks go back to its lane's pool (R139, R142). -/
def returnBlocks (u : Nat) (s : State) : State :=
  let t := s.thr u
  let s := s.modTeam t.team (fun tm => { tm with pool := setNth [] tm.pool t.lane (nth [] tm.pool t.lane ++ t.blocks) })
  s.modThr u (fun t => { t with v := t.v.take (t.owned - 16 * t.blocks.length), blocks := [] })
/-- Case 4 of R153: a member that has not signed is EXITED while others have signed. -/
def exitConv (tid team : Nat) (s : State) : State :=
  (List.range 8).foldl (fun s n =>
    let c := (s.tm team).conv n
    if c.isMember tid && !c.signed.isEmpty && !c.signed.any (fun g => g.1 == tid) then
      let us := c.signed.filterMap (fun g => (s.byTid team g.1).map (·.uid))
      (raiseAll .convLane {} us s).modTeam team (fun tm => tm.setConv n { c with signed := [] })
    else s) s
/-- An EXITING thread whose LD, ST and TL counters are 0 becomes EXITED; the last one starts the team's exit release (R139, R171). -/
def execThreadExited (th : Nat) (s : State) : Out State :=
  let t := s.thr th
  if t.phase == .exiting && t.ld == 0 && t.st == 0 && t.tl == 0 && t.stopped.isNone then
    let s := returnBlocks th s
    let s := s.modThr th (fun t => { t with phase := .exited })
    let s := s.modTeam t.team (fun tm => { tm with flagWord := tm.flagWord ||| t.flags })
    let s := exitConv t.tid t.team s
    let s :=
      if (s.liveOf t.team).isEmpty then
        advanceExit t.team (s.modTeam t.team (fun tm => { tm with exitRel := some ⟨3, false, 0, s.issue⟩, exitPc := t.pc }))
      else s
    done s
  else .fault .notPending

/-! ### Register blocks (R142, R223) -/

/-- CLAIM in one thread. -/
def claimOne (pred u : Nat) (s : State) : State :=
  let t := s.thr u
  match freeBlock (s.tm t.team) t.lane with
  | some b => if t.owned + 16 ≤ 128 then giveBlock u b pred s else s.modThr u (fun t => t.wp pred false)
  | none => s.modThr u (fun t => t.wp pred false)
/-- CLAIM (R223). -/
def execClaim (x : SS) (s : State) : Out State :=
  issue { bytes := 4, e := x.e, wp := [rn x.d] } false (fun us s => us.foldl (fun s u => claimOne (rn x.d) u s) s) s
/-- CLAIM, 96-bit (R223). -/
def execClaimWide (x : WS) (s : State) : Out State :=
  issue { g := x.x.g, bytes := 12, e := x.e, wp := [rn x.d] } false (fun us s => us.foldl (fun s u => claimOne (rn x.d) u s) s) s
/-- CLAIMW in one thread: the block, or CLAIM_WAIT. -/
def claimWait (u : Nat) (s : State) : State :=
  let t := s.thr u
  if 128 < t.owned + 16 then raise .reservedField {} u s
  else
    match freeBlock (s.tm t.team) t.lane with
    | some b => giveBlock u b 0 s
    | none =>
      let (n, s) := s.fresh
      s.modThr u (fun t => { t with phase := .claimWait, wait := { order := n } })
/-- CLAIMW (R223). -/
def execClaimw (x : SS) (s : State) : Out State :=
  issue { bytes := 4, e := x.e } false (fun us s => us.foldl (fun s u => claimWait u s) s) s
/-- CLAIMW, 96-bit (R223). -/
def execClaimwWide (x : WS) (s : State) : Out State :=
  issue { g := x.x.g, bytes := 12, e := x.e } false (fun us s => us.foldl (fun s u => claimWait u s) s) s
/-- GIVE in one thread: block k − 1 goes back and its values are discarded, marks included; with k = 0 nothing happens. -/
def giveOne (u : Nat) (s : State) : State :=
  let t := s.thr u
  match t.blocks.getLast? with
  | none => s
  | some b =>
    let s := s.modTeam t.team (fun tm => { tm with pool := setNth [] tm.pool t.lane (nth [] tm.pool t.lane ++ [b]) })
    s.modThr u (fun t => { t with v := t.v.take (t.owned - 16), poison := t.poison.filter (· < t.owned - 16), blocks := t.blocks.dropLast })
/-- GIVE (R223). -/
def execGive (x : SS) (s : State) : Out State :=
  issue { bytes := 4, e := x.e } false (fun us s => us.foldl (fun s u => giveOne u s) s) s
/-- GIVE, 96-bit (R223). -/
def execGiveWide (x : WS) (s : State) : Out State :=
  issue { g := x.x.g, bytes := 12, e := x.e } false (fun us s => us.foldl (fun s u => giveOne u s) s) s

/-! ### Regrouping (R154, R222) -/

/-- REGROUP in the true-guard threads: each waits with its key and count. -/
def regroupThreads (a n : Nat) (us : List Nat) (s : State) : State :=
  us.foldl (fun s u =>
    if (s.gridOf u).bregs < n then raise .reservedField {} u s
    else s.modThr u (fun t => { t with phase := .regroupWait, wait := { key := t.rv a, num := n } })) s
/-- REGROUP (R222). -/
def execRegroup (x : SI) (s : State) : Out State := issue (use4 x.e [rn x.a] []) true (regroupThreads (rn x.a) (rn x.imm)) s
/-- REGROUP, 96-bit (R222). -/
def execRegroupWide (x : WA) (s : State) : Out State :=
  issue (use12 x.e x.x.g [rn x.a] []) true (regroupThreads (rn x.a) (rn x.x.w2)) s
/-- A regrouped thread: carried registers, new place, READY after its REGROUP with age 0 (R154 items 3 to 5). -/
def Thread.regroup (t : Thread) (n b lane slot : Nat) : Thread :=
  let t := { t with
    v := (t.v.take (min n b)) ++ List.replicate (b - min n b) 0
    poison := t.poison.filter (· < n)
    blocks := [], lane := lane, slot := slot, pendV := t.pendV.filter (· < n) }
  t.wake
/-- The team's slots of a lane in rising order (R140); an EXITED thread's stale place counts once with the one that has it now. -/
def State.slotsIn (s : State) (team lane : Nat) : List Nat :=
  (sortBy id (((s.threadsOf team).filter (fun t => t.lane % 32 == lane)).map (·.slot))).foldl (fun l x => if l.contains x then l else l ++ [x]) []
/-- Every live thread of the team is parked in REGROUP_WAIT with LD and TL 0: the regroup unit acts (R154). -/
def execRegroupExecute (team : Nat) (s : State) : Out State :=
  let ths := s.liveOf team
  if !ths.isEmpty && ths.all (fun t => t.phase == .regroupWait && t.ld == 0 && t.tl == 0 && t.stopped.isNone) then
    let b := (s.gr (s.tm team).grid).bregs
    let n := ths.foldl (fun n t => max n t.wait.num) 0
    let s := ths.foldl (fun s t => returnBlocks t.uid s) s
    let order := sortBy (fun t => t.wait.key.toNat * 1024 + t.tid) (s.liveOf team)
    let slots := (List.range 32).map (s.slotsIn team)
    let first := (nth [] slots 0).headD 0
    let s := (order.zip (List.range order.length)).foldl (fun s (p : Thread × Nat) =>
      let lane := p.2 % 32
      s.modThr p.1.uid (fun t => t.regroup n b lane (nth (first + p.2 / 32) (nth [] slots lane) (p.2 / 32)))) s
    done s
  else .fault .notPending

/-! ### Waits (R219, R220, R69) -/

/-- WAITC: the condition holds and the thread is READY at the next instruction, or it becomes COUNTER_WAIT (R219). -/
def waitCounters (l : List Nat) (us : List Nat) (s : State) : State :=
  each (fun t => if t.within l then t else { t with phase := .counterWait, wait := { limits := l } }) us s
/-- WAITC (R219). -/
def execWaitc (x : SC) (s : State) : Out State :=
  issue { bytes := 4, e := x.e } true (waitCounters [rn x.ld, rn x.st, rn x.cp, if x.tl == 15 then 63 else rn x.tl]) s
/-- WAITC, 96-bit: limits in word 2 (R184). -/
def execWaitcWide (x : WC) (s : State) : Out State :=
  let w := rn x.x.w2
  issue { g := x.x.g, bytes := 12, e := x.e } true
    (waitCounters [bitsOf w 23 18, bitsOf w 17 12, bitsOf w 11 6, bitsOf w 5 0]) s

/-- A promise at or above a floor on the view; how far above is the device's choice (R67, R254). -/
def newPromise (floor : Nat) (s : State) : Nat × State :=
  (floor + (Config.value s.free).toNat % 2 ^ 32, { s with free := s.free + 1 })
/-- The thread's incomplete copies whose promise the view has passed (R69). -/
def missedCopies (u : Nat) (s : State) : List Copy :=
  s.copies.filter (fun c => c.th == u && decide (c.promise ≤ s.viewOf c.fn))
/-- Gives every passed promise of the thread a new one at or above the view (R254). -/
def revisePromises (u : Nat) (s : State) : State :=
  (missedCopies u s).foldl (fun s c =>
    let (p, s) := newPromise (s.viewOf c.fn) s
    { s with copies := s.copies.map (fun d => if d.id == c.id then { d with promise := p } else d) }) s
/-- The check of R69: PROMISE_MISSED with the first byte offset not performed, or nothing. -/
def promiseCheck (u : Nat) (s : State) : State :=
  match missedCopies u s with
  | [] => s
  | c :: _ => revisePromises u ((raise .promiseMissed { kind := markCopy, prog := c.prog } u s).count c.fn 7 1)
/-- SLEEPT (R220). -/
def sleepThreads (a : Nat) (us : List Nat) (s : State) : State :=
  us.foldl (fun s u =>
    let t := (s.thr u).rpair a
    if s.viewOf (s.gridOf u).fn < t.toNat then
      s.modThr u (fun th => { th with phase := .sleep, wait := { tick := t.toNat } })
    else promiseCheck u s) s
/-- SLEEPT (R220). -/
def execSleept (x : SA) (s : State) : Out State := issue (use4 x.e (regs (rn x.a) true) []) true (sleepThreads (rn x.a)) s
/-- SLEEPT, 96-bit (R220). -/
def execSleeptWide (x : WA) (s : State) : Out State :=
  issue (use12 x.e x.x.g (regs (rn x.a) true) []) true (sleepThreads (rn x.a)) s
/-- The view reaches a sleeper's tick: the check of R69, then READY at the next instruction (R220). A saved sleeper wakes at its restore. -/
def execSleepWake (th : Nat) (s : State) : Out State :=
  let t := s.thr th
  if t.phase == .sleep && decide (t.wait.tick ≤ s.viewOf (s.gridOf th).fn) && (s.teamOf th).saved.isNone && t.stopped.isNone then
    let s := { s with issue := s.issue + 1 }
    let s := promiseCheck th s
    done (if (s.thr th).phase == .sleep then s.modThr th Thread.wake else s)
  else .fault .notPending

end Sys2Proof.Machine
end

