-- ==== Sys2Proof/Machine/Special.lean ====
section
/-! DEFINITION. The special functions RCP, RSQ, SQRT, EXP2, LOG2, SIN and COS (spec/12_vector_arithmetic_instructions.md R269, R270, Table 12.3). The transcendental ones are evaluated in fixed point with 512 fraction bits, far beyond the p + 16 bits to which R270 rounds first. -/
namespace Sys2Proof.Machine

/-- Integer square root by one bit at a time, from bit k down. -/
def sqrtBits (n : Nat) : Nat → Nat → Nat
  | 0, r => r
  | k + 1, r =>
    let r' := r + 2 ^ k
    sqrtBits n k (if r' * r' ≤ n then r' else r)
/-- Floor of the square root. -/
def natSqrt (n : Nat) : Nat := sqrtBits n ((bitLen n + 1) / 2) 0

/-- Square root of a positive finite value, the remainder folded into the last bit. -/
def sqrtFin (m : Nat) (e : Int) : FVal :=
  let k : Nat := 140 + (if (e % 2 == 0) then 0 else 1)
  let x := m * 2 ^ k
  let r := natSqrt x
  .fin false (2 * r + (if r * r = x then 0 else 1)) ((e - k) / 2 - 1)

/-- Fraction bits of the fixed-point evaluation. -/
def fracBits : Nat := 512
/-- One in fixed point. -/
def fxOne : Nat := 2 ^ fracBits

/-- atanh(1/d) × 2^F by its series: sum of 1 / ((2k+1) d^(2k+1)). -/
def atanhInv (d : Nat) : Nat → Nat → Nat → Nat
  | 0, _, _ => 0
  | n + 1, k, p => p / (2 * k + 1) + atanhInv d n (k + 1) (p / (d * d))
/-- ln 2 = 2 atanh(1/3). -/
def fxLn2 : Nat := 2 * atanhInv 3 170 0 (fxOne / 3)
/-- atan(1/d) by its alternating series. -/
def atanInv (d : Nat) : Nat → Nat → Int → Int
  | 0, _, _ => 0
  | n + 1, k, p => (if k % 2 = 0 then p / (2 * k + 1) else -(p / (2 * k + 1))) + atanInv d n (k + 1) (p / (d * d))
/-- π = 16 atan(1/5) − 4 atan(1/239). -/
def fxPi : Nat := (16 * atanInv 5 120 0 ((fxOne : Int) / 5) - 4 * atanInv 239 40 0 ((fxOne : Int) / 239)).toNat

/-- exp(x) for 0 ≤ x < 1 in fixed point: term by term. -/
def fxExp (x : Nat) : Nat → Nat → Nat → Nat
  | 0, _, _ => 0
  | n + 1, k, p => p + fxExp x n (k + 1) (p * x / fxOne / (k + 1))
/-- 2^f for a fraction f in fixed point. -/
def fxExp2 (f : Nat) : Nat := fxExp (f * fxLn2 / fxOne) 110 0 fxOne
/-- atanh(z) in fixed point. -/
def fxAtanh (z2 : Nat) : Nat → Nat → Nat → Nat
  | 0, _, _ => 0
  | n + 1, k, p => p / (2 * k + 1) + fxAtanh z2 n (k + 1) (p * z2 / fxOne)
/-- log2 of m × 2^−(L−1), a number in [1, 2), in fixed point. -/
def fxLog2 (m : Nat) : Nat :=
  let one := 2 ^ (bitLen m - 1)
  let z := (m - one) * fxOne / (m + one)
  2 * fxAtanh (z * z / fxOne) 170 0 z * fxOne / fxLn2
/-- sin or cos series: alternating terms x^j / j!, from the given first power. -/
def fxTrig (x2 : Nat) : Nat → Nat → Int → Int
  | 0, _, _ => 0
  | n + 1, j, p => p - fxTrig x2 n (j + 2) (p * x2 / fxOne / ((j + 1) * (j + 2) : Nat))
/-- sin(π r) for 0 ≤ r ≤ 1/2 in fixed point. -/
def fxSinPi (r : Nat) : Nat :=
  let x := r * fxPi / fxOne
  (fxTrig (x * x / fxOne) 60 1 (x : Int)).toNat

/-- RNE(y′, TYPE) with NX, where y′ is y rounded to p + 16 bits (R270). -/
def doubleRound (t : ElemType) (sat neg : Bool) (m : Nat) (e : Int) : Nat × Flags :=
  let p := (formatOf t).man + 17
  let q := e + bitLen m - p
  let (n, _) := roundQuantum 0 neg m e q
  let (r, fl) := finish t 0 sat (.fin neg n q)
  (r, fl ||| flagNX)

/-- EXP2 of a finite value that is no integer, or of an integer (exact, R270). -/
def exp2Fin (t : ElemType) (sat neg : Bool) (m : Nat) (e : Int) : Nat × Flags :=
  if m = 0 then finish t 0 sat (.fin false 1 0)
  else if e + bitLen m > 14 then finish t 0 sat (.fin false 1 (if neg then -16384 else 16384))
  else if e ≥ 0 then
    let k : Int := (m * 2 ^ e.toNat : Nat)
    finish t 0 sat (.fin false 1 (if neg then -k else k))
  else
    let s := (-e).toNat
    let ip : Int := if neg then -((m / 2 ^ s : Nat) : Int) else (m / 2 ^ s : Nat)
    let fr := m % 2 ^ s
    if fr = 0 then finish t 0 sat (.fin false 1 ip)
    else
      let (ip, num) := if neg then (ip - 1, 2 ^ s - fr) else (ip, fr)
      doubleRound t sat false (fxExp2 (num * fxOne / 2 ^ s)) (ip - fracBits)

/-- LOG2 of a positive finite value; exact for powers of two (R270). -/
def log2Fin (t : ElemType) (sat : Bool) (m : Nat) (e : Int) : Nat × Flags :=
  let k : Int := e + bitLen m - 1
  if m = 2 ^ (bitLen m - 1) then finish t 0 sat (.fin (decide (k < 0)) k.natAbs 0)
  else
    let y : Int := k * fxOne + fxLog2 m
    doubleRound t sat (decide (y < 0)) y.natAbs (-(fracBits : Int))

/-- SIN of a finite value in half-turns (Table 12.3). -/
def sinFin (t : ElemType) (sat neg : Bool) (m : Nat) (e : Int) : Nat × Flags :=
  if e ≥ 0 || m = 0 then (zeroBits t neg, 0)
  else
    let s := (-e).toNat
    let fr := m % 2 ^ s
    let odd := m / 2 ^ s % 2 == 1
    if fr = 0 then (zeroBits t neg, 0)
    else
      let sg := neg != odd
      if 2 * fr = 2 ^ s then finish t 0 sat (.fin sg 1 0)
      else
        let r := min fr (2 ^ s - fr)
        doubleRound t sat sg (fxSinPi (r * fxOne / 2 ^ s)) (-(fracBits : Int))

/-- COS of a finite value in half-turns: cos(πx) = sin(π(x + ½)) with the zeros of Table 12.3 positive. -/
def cosFin (t : ElemType) (sat : Bool) (m : Nat) (e : Int) : Nat × Flags :=
  if m = 0 then finish t 0 sat (.fin false 1 0)
  else if e ≥ 0 then finish t 0 sat (.fin (e == 0 && m % 2 == 1) 1 0)
  else
    let s := (-e).toNat
    let fr := m % 2 ^ s
    let odd := m / 2 ^ s % 2 == 1
    if fr = 0 then finish t 0 sat (.fin odd 1 0)
    else if 2 * fr = 2 ^ s then (0, 0)
    else
      -- cos(π f) for f in (0, 1): sin(π(½ − f)) up to ½, its negative beyond
      let past := 2 * fr > 2 ^ s
      let num := if past then 2 * fr - 2 ^ s else 2 ^ s - 2 * fr
      doubleRound t sat (odd != past) (fxSinPi (num * fxOne / 2 ^ (s + 1))) (-(fracBits : Int))

/-- FSPC of one element (R269, R270, Table 12.3). -/
def fSpc (t : ElemType) (fn : Nat) (sat : Bool) (x : Nat) : Nat × Flags :=
  let v := unpack t x
  match v with
  | .nan s => (canonNaN t, flagIf s flagNV)
  | .inf neg =>
    match fn, neg with
    | 0, n => (zeroBits t n, 0)
    | 1, false => (0, 0)
    | 3, true => (0, 0)
    | 2, false | 3, false | 4, false => finish t 0 sat (.inf false)
    | _, _ => (canonNaN t, flagNV)
  | .fin neg m e =>
    match fn with
    | 0 =>
      let (q, fl) := divV (.fin false 1 0) v
      let (r, fl') := finish t 0 sat q
      (r, fl ||| fl')
    | 1 =>
      if m = 0 then
        let (r, fl) := finish t 0 sat (.inf neg)
        (r, fl ||| flagDZ)
      else if neg then (canonNaN t, flagNV)
      else
        -- 1/√(m 2^e) = √(1 / (m 2^e)), the reciprocal taken to 400 bits with its remainder folded in
        let k := 400 + bitLen m
        let q := 2 ^ k / m
        let r := 2 ^ k % m
        finishRsq t sat (2 * q + (if r = 0 then 0 else 1)) (-e - k - 1)
    | 2 => if m = 0 then (x, 0) else if neg then (canonNaN t, flagNV) else finish t 0 sat (sqrtFin m e)
    | 3 => exp2Fin t sat neg m e
    | 4 =>
      if m = 0 then
        let (r, fl) := finish t 0 sat (.inf true)
        (r, fl ||| flagDZ)
      else if neg then (canonNaN t, flagNV) else log2Fin t sat m e
    | 5 => sinFin t sat neg m e
    | _ => cosFin t sat m e
where
  /-- Rounds the square root of a reciprocal. -/
  finishRsq (t : ElemType) (sat : Bool) (m : Nat) (e : Int) : Nat × Flags := finish t 0 sat (sqrtFin m e)

end Sys2Proof.Machine
end

