-- ==== Sys2Proof/Machine/FloatOps.lean ====
section
/-! DEFINITION. Floating arithmetic, special functions, conversions, dot products, block scales and quantisation (spec/12_vector_arithmetic_instructions.md R262 to R280). -/
namespace Sys2Proof.Machine

/-- The F64 bits of an F32 value widened exactly (R187); a NaN keeps its bits. -/
def widenF32 (x : Nat) : Nat :=
  match unpack .f32 x with
  | .nan _ => x / 2 ^ 31 % 2 * 2 ^ 63 + 0x7FF * 2 ^ 52 + x % 2 ^ 23 * 2 ^ 29
  | v => (finish .f64 0 false v).1
/-- An operand's element of a type (R262, R187). -/
def Opnd.elem (o : Opnd) (ty : ElemType) (sel : Nat) (tm : Team) (t : Thread) : Nat :=
  match o with
  | .imm x => if ty == .f64 then widenF32 x.toNat else if ty.wide then (x.signExtend 64).toNat else x.toNat % 2 ^ ty.width
  | o => if ty.wide then (o.pair tm t).toNat else elemOf (min ty.width 32) sel (o.val tm t)

/-- A floating result with its flags, written into the element (R262). -/
def putElem (ty : ElemType) (sel d : Nat) (r : Nat × Flags) (t : Thread) : Thread := (elemWrite ty sel t d r.1).orFlags r.2

/-- vD ← f(vA, B), 32-bit form in F32 (R181). -/
def fShort (x : SA) (f : Nat → Nat → Nat × Flags) (s : State) : Out State :=
  issue ((use4 x.e [rn x.a] [rn x.d]).reads [x.ob] false) false
    (eachTeam (fun tm t => putElem .f32 0 (rn x.d) (f (t.rv (rn x.a)).toNat (x.ob.val tm t).toNat) t)) s
/-- vD ← f(vA, B) in TYPE (R262). -/
def fWide (x : WA) (f : Nat → Nat → Nat × Flags) (s : State) : Out State :=
  let p := x.x.ty.wide
  issue ((use12 x.e x.x.g (regs (rn x.a) p) (regs (rn x.d) p)).reads [x.ob] p) false
    (eachTeam (fun tm t => putElem x.x.ty (rn x.x.sel) (rn x.d)
      (f (elemRead x.x.ty (rn x.x.sel) t (rn x.a)) (x.ob.elem x.x.ty (rn x.x.sel) tm t)) t)) s

/-- FADD on bits. -/
def addBits (t : ElemType) (rnd : Nat) (sat : Bool) (a b : Nat) : Nat × Flags := fAdd t rnd sat (unpack t a) (unpack t b)
/-- FSUB on bits: the second operand's sign flips. -/
def subBits (t : ElemType) (rnd : Nat) (sat : Bool) (a b : Nat) : Nat × Flags := fAdd t rnd sat (unpack t a) (unpack t b).negate
/-- FMUL on bits. -/
def mulBits (t : ElemType) (rnd : Nat) (sat : Bool) (a b : Nat) : Nat × Flags := fMul t rnd sat (unpack t a) (unpack t b)
/-- FFMA on bits. -/
def fmaBits (t : ElemType) (rnd : Nat) (sat : Bool) (a b c : Nat) : Nat × Flags := fFma t rnd sat (unpack t a) (unpack t b) (unpack t c)

/-- FADD (R265). -/
def execFadd (x : SA) (s : State) : Out State := fShort x (addBits .f32 0 false) s
/-- FADD, 96-bit (R265). -/
def execFaddWide (x : WA) (s : State) : Out State := fWide x (addBits x.x.ty (rn x.x.rnd) x.x.sat) s
/-- FSUB (R265). -/
def execFsub (x : SA) (s : State) : Out State := fShort x (subBits .f32 0 false) s
/-- FSUB, 96-bit (R265). -/
def execFsubWide (x : WA) (s : State) : Out State := fWide x (subBits x.x.ty (rn x.x.rnd) x.x.sat) s
/-- FMUL (R265). -/
def execFmul (x : SA) (s : State) : Out State := fShort x (mulBits .f32 0 false) s
/-- FMUL, 96-bit (R265). -/
def execFmulWide (x : WA) (s : State) : Out State := fWide x (mulBits x.x.ty (rn x.x.rnd) x.x.sat) s
/-- FFMA (R265). -/
def execFfma (x : WA) (s : State) : Out State :=
  let p := x.x.ty.wide
  let sel := rn x.x.sel
  issue ((use12 x.e x.x.g (regs (rn x.a) p) (regs (rn x.d) p)).reads [x.ob, x.x.oc] p) false
    (eachTeam (fun tm t => putElem x.x.ty sel (rn x.d)
      (fmaBits x.x.ty (rn x.x.rnd) x.x.sat (elemRead x.x.ty sel t (rn x.a)) (x.ob.elem x.x.ty sel tm t) (x.x.oc.elem x.x.ty sel tm t)) t)) s
/-- FMINMAX: MIN in F32 (R266). -/
def execFminmax (x : SA) (s : State) : Out State := fShort x (fMinMax .f32 false false) s
/-- FMINMAX, 96-bit: FN 0 MIN, 1 MAX, 2 MINIMUM, 3 MAXIMUM (R266). -/
def execFminmaxWide (x : WA) (s : State) : Out State :=
  fWide x (fMinMax x.x.ty (x.x.fn.getLsbD 0) (x.x.fn.getLsbD 1)) s
/-- FCMP (R267). -/
def execFcmp (x : WA) (s : State) : Out State :=
  let p := x.x.ty.wide
  let sel := rn x.x.sel
  let u := (use12 x.e x.x.g (regs (rn x.a) p) []).reads [x.ob] p
  issue { u with wp := [rn x.d] } false
    (eachTeam (fun tm t =>
      let r := fCmp (rn x.x.fn) (unpack x.x.ty (elemRead x.x.ty sel t (rn x.a))) (unpack x.x.ty (x.ob.elem x.x.ty sel tm t))
      (t.wp (rn x.d) r.1).orFlags r.2)) s
/-- FSPC, F32: FN in B[7:1] (R269). -/
def execFspc (x : SA) (s : State) : Out State :=
  issue (use4 x.e [rn x.a] [rn x.d]) false
    (each (fun t => putElem .f32 0 (rn x.d) (fSpc .f32 (rn x.b) false (t.rv (rn x.a)).toNat) t)) s
/-- FSPC, 96-bit (R269). -/
def execFspcWide (x : WA) (s : State) : Out State :=
  let p := x.x.ty.wide
  issue (use12 x.e x.x.g (regs (rn x.a) p) (regs (rn x.d) p)) false
    (each (fun t => putElem x.x.ty (rn x.x.sel) (rn x.d)
      (fSpc x.x.ty (rn x.x.fn) x.x.sat (elemRead x.x.ty (rn x.x.sel) t (rn x.a))) t)) s
/-- FCLASS, F32 (R268). -/
def execFclass (x : SA) (s : State) : Out State :=
  issue (use4 x.e [rn x.a] [rn x.d]) false
    (each (fun t => t.wv (rn x.d) (BitVec.ofNat 32 (fClass .f32 (t.rv (rn x.a)).toNat)))) s
/-- FCLASS, 96-bit (R268). -/
def execFclassWide (x : WA) (s : State) : Out State :=
  issue (use12 x.e x.x.g (regs (rn x.a) x.x.ty.wide) [rn x.d]) false
    (each (fun t => t.wv (rn x.d) (BitVec.ofNat 32 (fClass x.x.ty (elemRead x.x.ty (rn x.x.sel) t (rn x.a)))))) s

/-! ### Conversions (R271 to R273) -/

/-- Between equal types: bits, with a NaN made canonical and SAT's clamp (R271). -/
def cvtBits (dst src : ElemType) (rnd : Nat) (sat : Bool) (x : Nat) : Nat × Flags := convert dst src rnd sat x
/-- CVT (R271). -/
def execCvt (x : WA) (s : State) : Out State :=
  let src := srcType x.x.fn
  issue (use12 x.e x.x.g (regs (rn x.a) src.wide) (regs (rn x.d) x.x.ty.wide)) false
    (each (fun t => putElem x.x.ty (rn x.x.sel) (rn x.d)
      (cvtBits x.x.ty src (rn x.x.rnd) x.x.sat (elemRead src (rn x.x.w2) t (rn x.a))) t)) s
/-- Conversion of PACK and UNPK: equal types carry bits unchanged (R272, R273). -/
def packBits (dst src : ElemType) (rnd : Nat) (sat : Bool) (x : Nat) : Nat × Flags :=
  if dst == src then (x, 0) else convert dst src rnd sat x
/-- PACK (R272). -/
def execPack (x : WA) (s : State) : Out State :=
  let src := srcType x.x.fn
  let j := rn x.x.sel
  issue ((use12 x.e x.x.g (regs (rn x.a) src.wide) [rn x.d]).reads [x.ob] src.wide) false
    (eachTeam (fun tm t =>
      let a := packBits x.x.ty src (rn x.x.rnd) x.x.sat (elemRead src 0 t (rn x.a))
      let b := packBits x.x.ty src (rn x.x.rnd) x.x.sat (x.ob.elem src 0 tm t)
      putElem x.x.ty (j + 1) (rn x.d) b (putElem x.x.ty j (rn x.d) a t))) s
/-- UNPK (R273). -/
def execUnpk (x : WA) (s : State) : Out State :=
  let src := srcType x.x.fn
  let j := rn x.x.sel
  let p := x.x.ty.wide
  let step := if p then 2 else 1
  issue (use12 x.e x.x.g [rn x.a] (regs (rn x.d) p ++ regs (rn x.d + step) p)) false
    (each (fun t =>
      let a := packBits x.x.ty src (rn x.x.rnd) x.x.sat (elemRead src j t (rn x.a))
      let b := packBits x.x.ty src (rn x.x.rnd) x.x.sat (elemRead src (j + 1) t (rn x.a))
      let put (r : Nat) (v : Nat × Flags) (t : Thread) : Thread :=
        (if p then t.wpair r (BitVec.ofNat 64 v.1) else t.wv r (BitVec.ofNat 32 v.1)).orFlags v.2
      put (rn x.d + step) b (put (rn x.d) a t))) s

/-! ### Paired and dot-product forms (R274 to R276) -/

/-- FFMAP: both halves (R274). A literal stands for both. -/
def execFfmap (x : WA) (s : State) : Out State :=
  let ty := x.x.ty
  issue ((use12 x.e x.x.g [rn x.a] [rn x.d]).reads [x.ob, x.x.oc] false) false
    (eachTeam (fun tm t =>
      let half (h : Nat) : Nat × Flags :=
        fmaBits ty (rn x.x.rnd) x.x.sat (elemRead ty h t (rn x.a)) (x.ob.elem ty h tm t) (x.x.oc.elem ty h tm t)
      putElem ty 1 (rn x.d) (half 1) (putElem ty 0 (rn x.d) (half 0) t))) s
/-- The elements of a packed register. -/
def packedElems (w : Nat) (r : Word) : List Nat := (List.range (32 / w)).map (fun i => elemOf w i r)
/-- The elements of a dot product's B: a literal element stands for every one (R275, R276). -/
def dotB (x : WA) (tm : Team) (t : Thread) : List Nat :=
  let w := x.x.ty.width
  if x.x.lit then List.replicate (32 / w) (x.x.w2.toNat % 2 ^ w) else packedElems w (x.ob.val tm t)
/-- Products of two element lists, as terms. -/
def dotTerms (as bs : List FVal) : List FVal := (as.zip bs).map (fun p => productTerm p.1 p.2)
/-- QDOT (R275). -/
def execQdot (x : WA) (s : State) : Out State :=
  issue ((use12 x.e x.x.g [rn x.a] [rn x.d]).reads [x.ob, x.x.oc] false) false
    (eachTeam (fun tm t =>
      let as := (packedElems x.x.ty.width (t.rv (rn x.a))).map (unpack x.x.ty)
      let bs := (dotB x tm t).map (unpack x.x.ty)
      let c := unpack .f32 (x.x.oc.val tm t).toNat
      putElem .f32 0 (rn x.d) (exactSum .f32 (rn x.x.rnd) x.x.sat .exact (c :: dotTerms as bs)) t)) s
/-- IDOT (R276). -/
def execIdot (x : WA) (s : State) : Out State :=
  issue ((use12 x.e x.x.g [rn x.a] [rn x.d]).reads [x.ob, x.x.oc] false) false
    (eachTeam (fun tm t =>
      let (as, fa) := elemVals x.x.ty true (packedElems x.x.ty.width (t.rv (rn x.a)))
      let (bs, fb) := elemVals x.x.ty true (dotB x tm t)
      let (r, f) := intSum x.x.sat (x.x.oc.val tm t).toInt (dotTerms as bs)
      putElem .f32 0 (rn x.d) (r, f ||| fa ||| fb) t)) s

/-! ### Block scales and quantisation (R278 to R280) -/

/-- MXSC: one MX block over a convergence set (R278). -/
def execMxsc (x : WA) (s : State) : Out State :=
  let kb := bitsOf (rn x.x.w2) 5 4
  collective (collUse x [rn x.a, rn x.x.c, rn x.d] [rn x.d, rn x.x.c]) (rn x.x.w2 % 8) (fun _ ms s =>
    let act := ms.filter (·.2.2)
    let vs := (List.range 32).map (fun i =>
      match act.find? (fun m => m.1 == i) with
      | some m => unpack .f32 ((s.thr m.2.1).rv (rn x.a)).toNat
      | none => .fin false 0 0)
    let (k, es, f) := mxBlock x.x.ty vs
    let s := act.foldl (fun s m => s.modThr m.2.1 (fun t =>
      let t := elemWrite x.x.ty (rn x.x.sel) t (rn x.d) (nth 0 es m.1)
      (t.wv (rn x.x.c) (setElem 8 kb (t.rv (rn x.x.c)) k)).orFlags f)) s
    wakeMembers (ms.map (·.2.1)) s) s
/-- QNT.ROW (R279). -/
def execQntRow (x : WA) (s : State) : Out State :=
  issue ((use12 x.e x.x.g [rn x.a] [rn x.d]).reads [x.ob] false) false
    (eachTeam (fun tm t => putElem x.x.ty (rn x.x.sel) (rn x.d)
      (qntRowElem x.x.ty (rn x.x.rnd) x.x.sat (unpack .f32 (t.rv (rn x.a)).toNat) (unpack .f32 (x.ob.val tm t).toNat)) t)) s
/-- A block's elements packed into registers from d (R280). -/
def putBlock (w d : Nat) (es : List Nat) (t : Thread) : Thread :=
  (es.zip (List.range es.length)).foldl (fun t (p : Nat × Nat) =>
    let r := d + p.2 / (32 / w)
    t.wv r (setElem w (p.2 % (32 / w)) (t.rv r) p.1)) t
/-- QNT.BLOCK (R280). -/
def execQntBlock (x : WA) (s : State) : Out State :=
  let w := x.x.ty.width
  issue (use12 x.e x.x.g (span (rn x.a) 32 ++ [rn x.x.c]) (span (rn x.d) w ++ [rn x.x.c])) false
    (each (fun t =>
      let vs := (span (rn x.a) 32).map (fun r => unpack .f32 (t.rv r).toNat)
      let (k, es, f) := if x.x.ty == .i4x then i4xBlock vs else mxBlock x.x.ty vs
      let t := putBlock w (rn x.d) es t
      (t.wv (rn x.x.c) (setElem 8 (rn x.x.w2) (t.rv (rn x.x.c)) k)).orFlags f)) s

end Sys2Proof.Machine
end

