-- ==== Sys2Proof/Machine/Mem.lean ====
section
/-! DEFINITION. Loads, stores, layout handles, gathers and scatters, prefetches, pins and the memory system's own steps (spec/11_memory_instructions.md R233 to R242, R250, R251; spec/03_memory_hierarchy.md R46 to R66; spec/02_address_spaces.md R41, R42). -/
namespace Sys2Proof.Machine

/-! ### LD, ST (R234, R235) -/

/-- Elements of an access at an address. -/
def Acc.at (x : Acc) (addr : Nat) : List (Int × Nat) :=
  x.elems.map (fun (o, _) => (((BitVec.ofNat 64 (addr + o)).toNat : Int), elemBytes x.ty))
/-- LD in one thread (R234). -/
def loadThread (x : Acc) (u : Nat) (s : State) : State :=
  let t := s.thr u
  match checkThread .read accLoad false u (x.at (x.addr (t.rpair x.a))) s with
  | (s, .bad c d) => raise c d u s
  | (s, .migrating) => s
  | (s, .ok ps) =>
    let elems := (ps.zip x.elems).map (fun (p, _, r) => (⟨p, elemBytes x.ty, r, x.ty, none⟩ : Elem))
    addReq .ld [u] t.team (.load u elems) t.pc x.order.isSome ps (s.modThr u (fun t => { t with pendV := t.pendV ++ x.regs }))
/-- Registers of a load through a pair. -/
def loadUse (x : Acc) : Use := { g := x.g, bytes := x.bytes, e := x.e, rv := regs x.a true, wv := x.regs, cls := .ld, kind := accLoad }
/-- LD in the true-guard threads. -/
def load (x : Acc) (s : State) : Out State := issue (loadUse x) false (fun us s => us.foldl (fun s u => loadThread x u s) s) s
/-- LD (R234). -/
def execLd (x : SM) (s : State) : Out State := load (smAcc x 4) s
/-- LD, 96-bit (R234). -/
def execLdWide (x : WM) (s : State) : Out State := load (wmData x) s

/-- Data of a store from registers: bytes of each element (R193, R231). -/
def Acc.data (x : Acc) (rd : Nat → Word) : List (List Byte) :=
  if x.ty.wide then [leBytes (pairOf (rd x.d) (rd (x.d + 1))).toNat 8]
  else x.elems.map (fun (_, r) => leBytes (rd r).toNat (elemBytes x.ty))
/-- A checked store performs: into scratchpad or L1 in this step, unless an older access of its threads to the bytes is outstanding or a part performs elsewhere; else as a request (R235). Another team's dirty line in its way is written back first, and where it must translate afresh it may fault (R51). -/
def performStore (fail : Cause → Detail → State → State) (us : List Nat) (u : Nat) (parts : List Part) (s : State) : State :=
  let t := s.thr u
  let tm := s.tm t.team
  let g := s.gr tm.grid
  let ps := parts.map (·.dst)
  let s := dirtyPlaces tm.core g.fn g.ctx ps s
  let here := ps.all (fun p => match p with | .glob _ _ mt => mt == 0 | _ => true)
  if here && !olderMeets s.nextId s.issue us (Work.store u parts).extents s then
    match claimParts tm g.fn g.ctx parts s with
    | (s, .inl ps) => ps.foldl (fun s p => writePart t.team us p s) s
    | (s, .inr (c, d)) => fail c d s
  else addReq .st us t.team (.store u parts) t.pc false ps s
/-- The accesses of some threads, each after its checks; with a release order, the release of its scope comes before them (R122, R235). -/
def storeOrdered (order : Option Nat) (check : Nat → State → State × Checked) (perform : Nat → List Source → State → State) (us : List Nat) (s : State) : State :=
  let go (u : Nat) (s : State) : State :=
    match check u s with
    | (s, .bad c d) => raise c d u s
    | (s, .migrating) => parkThread .migrate {} u s
    | (s, .ok ps) => perform u ps s
  match order with
  | none => us.foldl (fun s u => go u s) s
  | some sc =>
    withRelease sc go us (us.foldl (fun s u =>
      match check u s with
      | (s, .bad c d) => raise c d u s
      | (s, _) => s) s)
/-- ST in some threads (R235). -/
def storeThreads (x : Acc) (us : List Nat) (s : State) : State :=
  storeOrdered x.order (fun u s => checkThread .write accStore true u (x.at (x.addr ((s.thr u).rpair x.a))) s)
    (fun u ps s => performStore (fun c d s => raise c d u s) [u] u ((ps.zip (x.data (s.thr u).rv)).map (fun (p, b) => ⟨p, b, none⟩)) s) us s
/-- Registers of a store through a pair. -/
def storeUse (x : Acc) : Use := { g := x.g, bytes := x.bytes, e := x.e, rv := regs x.a true ++ x.regs, cls := .st, kind := accStore }
/-- ST in the true-guard threads, in ascending lane order, so that the higher lane's byte is kept. -/
def store (x : Acc) (s : State) : Out State := issue (storeUse x) false (storeThreads x) s
/-- ST (R235). -/
def execSt (x : SM) (s : State) : Out State := store (smAcc x 4) s
/-- ST, 96-bit (R235). -/
def execStWide (x : WM) (s : State) : Out State := store (wmData x) s

/-! ### LDU, STU (R236) -/

/-- Threads of a team in the wave that are still issuing. -/
def waveOf (s : State) (team : Nat) : List Nat :=
  s.byLane (s.members.filter (fun m => (s.thr m).team == team && (s.thr m).phase == .issuing))
/-- LDU for one team: a partial one in a DET launch raises UNIFORM_MIX; a fault strikes every thread of the team in the wave. -/
def loadTeam (x : Acc) (mine : List Nat) (team : Nat) (s : State) : State :=
  let tm := s.tm team
  let g := s.gr tm.grid
  let full := s.holdsAll s.members team
  if !full && s.det team then raiseAll .uniformMix {} (waveOf s team) s
  else
    match checkAll .read accLoad false tm.core g.fn g.ctx (x.at (x.addr (tm.rspair x.a))) s with
    | (s, .bad c d) => raiseAll c d (waveOf s team) s
    | (s, .migrating) => s
    | (s, .ok ps) =>
      let elems := (ps.zip x.elems).map (fun (p, _, r) => (⟨p, elemBytes x.ty, r, x.ty, none⟩ : Elem))
      let s := s.modTeam team (fun tm => { tm with pendS := tm.pendS ++ x.regs })
      addReq .ld mine team (.loadTeam elems full (writersOf s s.members team)) (s.thr (mine.headD 0)).pc x.order.isSome ps s
/-- LDU for every team with a true-guard thread. -/
def loadTeams (x : Acc) (s : State) : Out State :=
  issue { g := x.g, bytes := x.bytes, e := x.e, rs := regs x.a true, ws := x.regs, cls := .ld, kind := accLoad } false
    (fun us s => (teamsIn s us).foldl (fun s tm => loadTeam x (us.filter (fun u => (s.thr u).team == tm)) tm s) s) s
/-- LDU (R236). -/
def execLdu (x : SM) (s : State) : Out State := loadTeams (smAcc x 4) s
/-- LDU, 96-bit (R236). -/
def execLduWide (x : WM) (s : State) : Out State := loadTeams (wmData x) s
/-- STU for one team. -/
def storeTeam (x : Acc) (mine : List Nat) (team : Nat) (s : State) : State :=
  let tm := s.tm team
  let g := s.gr tm.grid
  let data := x.data tm.rs
  let check (s : State) := checkAll .write accStore true tm.core g.fn g.ctx (x.at (x.addr (tm.rspair x.a))) s
  let fail (c : Cause) (d : Detail) (s : State) := raiseAll c d (waveOf s team) s
  let perform (ps : List Source) (s : State) :=
    performStore fail mine (mine.headD 0) ((ps.zip data).map (fun (p, b) => ⟨p, b, none⟩)) s
  match check s with
  | (s, .bad c d) => fail c d s
  | (s, .migrating) => mine.foldl (fun s u => parkThread .migrate {} u s) s
  | (s, .ok ps) =>
    match x.order with
    | none => perform ps s
    | some sc =>
      -- The one store waits, with its threads, until each thread's release has completed.
      let s := dirtyPlaces tm.core g.fn g.ctx ps s
      startReleases sc mine (addReq .st mine team (.store (mine.headD 0) ((ps.zip data).map (fun (p, b) => ⟨p, b, none⟩))) (s.thr (mine.headD 0)).pc true ps s)
/-- STU for every team with a true-guard thread. -/
def storeTeams (x : Acc) (s : State) : Out State :=
  issue { g := x.g, bytes := x.bytes, e := x.e, rs := regs x.a true ++ x.regs, cls := .st, kind := accStore } false
    (fun us s => (teamsIn s us).foldl (fun s tm => storeTeam x (us.filter (fun u => (s.thr u).team == tm)) tm s) s) s
/-- STU (R236). -/
def execStu (x : SM) (s : State) : Out State := storeTeams (smAcc x 4) s
/-- STU, 96-bit (R236). -/
def execStuWide (x : WM) (s : State) : Out State := storeTeams (wmData x) s

/-! ### LDS, STS (R237, R16, R118) -/

/-- The offset of a scratchpad access in a thread, or its fault: the sum must fit 32 bits, be aligned, lie in the window, and miss the locks. -/
def scratchCheck (x : Acc) (store : Bool) (u : Nat) (s : State) : Nat ⊕ (Cause × Detail) :=
  let t := s.thr u
  let tm := s.tm t.team
  let o : Int := ((t.rv x.a).toNat : Int) + x.off
  let size := if x.ty.wide then 8 else x.n * elemBytes x.ty
  let kind := if store then accStore else accLoad
  let d : Detail := { kind := kind, addr := (BitVec.ofInt 32 o).toNat }
  if o < 0 || decide ((2 : Int) ^ 32 ≤ o) then .inr (.bounds, d)
  else if o.toNat % elemBytes x.ty != 0 then .inr (.alignment, d)
  else if decide (tm.scratchSize < o.toNat + size) then .inr (.bounds, d)
  else if lockedScratch t.team store o.toNat size s then .inr (.rangeLock, d)
  else .inl o.toNat
/-- LDS in one thread: the window is read and the registers written in this step; LD rises and falls. -/
def scratchLoad (x : Acc) (u : Nat) (s : State) : State :=
  match scratchCheck x false u s with
  | .inr (c, d) => raise c d u s
  | .inl o =>
    x.elems.foldl (fun s (off, r) =>
      let tm := s.teamOf u
      let (s, bs, p) := readSource tm 0 0 (.scratch (o + off)) (elemBytes x.ty) s
      s.modThr u (fun t => t.deliver ⟨.scratch (o + off), elemBytes x.ty, r, x.ty, none⟩ bs p)) s
/-- STS in one thread; ST rises and falls. -/
def scratchStore (x : Acc) (u : Nat) (s : State) : State :=
  match scratchCheck x true u s with
  | .inr (c, d) => raise c d u s
  | .inl o =>
    let t := s.thr u
    ((x.elems.zip (x.data t.rv))).foldl (fun s ((off, _), b) => writePart t.team [u] ⟨.scratch (o + off), b, none⟩ s) s
/-- LDS in the true-guard threads. -/
def loadScratch (x : Acc) (s : State) : Out State :=
  issue { g := x.g, bytes := x.bytes, e := x.e, rv := [x.a], wv := x.regs, cls := .ld, kind := accLoad } false
    (fun us s => us.foldl (fun s u => scratchLoad x u s) s) s
/-- STS in the true-guard threads. -/
def storeScratch (x : Acc) (s : State) : Out State :=
  issue { g := x.g, bytes := x.bytes, e := x.e, rv := x.a :: x.regs, cls := .st, kind := accStore } false
    (fun us s => us.foldl (fun s u => scratchStore x u s) s) s
/-- LDS (R237). -/
def execLds (x : SM) (s : State) : Out State := loadScratch (smAcc x 4) s
/-- LDS, 96-bit (R237). -/
def execLdsWide (x : WM) (s : State) : Out State := loadScratch (wmData x) s
/-- STS (R237). -/
def execSts (x : SM) (s : State) : Out State := storeScratch (smAcc x 4) s
/-- STS, 96-bit (R237). -/
def execStsWide (x : WM) (s : State) : Out State := storeScratch (wmData x) s

/-! ### Layout records (R60 to R62) -/

/-- Extent of dimension i. -/
def layExt (b : List Byte) (i : Nat) : Nat := fieldOf b (16 + 4 * i) 4
/-- Byte stride of dimension i, 48-bit signed. -/
def layStr (b : List Byte) (i : Nat) : Int := (BitVec.ofNat 48 (fieldOf b (32 + 6 * i) 6)).toInt
/-- Control word. -/
def layCtl (b : List Byte) : Nat := fieldOf b 56 8
/-- Element type. -/
def layTy (b : List Byte) : ElemType := ElemType.ofCode (BitVec.ofNat 4 (layCtl b))
/-- Rank, 1 to 4. -/
def layRank (b : List Byte) : Nat := bitsOf (layCtl b) 5 4 + 1
/-- Out-of-bounds mode. -/
def layPad (b : List Byte) : Nat := bitsOf (layCtl b) 7 6
/-- Side-array granularity. -/
def layGran (b : List Byte) : Nat := bitsOf (layCtl b) 11 10
/-- A malformed record (R60). -/
def layMalformed (b : List Byte) : Bool :=
  let four := (layTy b).width == 4
  bitsOf (layCtl b) 31 12 != 0 || layGran b == 3 ||
  (List.range 4).any (fun i => layExt b i == 0 || (decide (layRank b ≤ i) && layExt b i != 1) || (!four && layStr b i % ((elemBytes (layTy b) : Nat) : Int) != 0)) ||
  (four && layStr b 0 != 0) || (layTy b == .i4x && layExt b 0 % 4 != 0)

/-- Where an element of a layout lies (R61). -/
inductive Placed where
  | addr (a : Int) (nib : Option Bool)
  | pad (bits : Nat)
  | discard
  | bounds
  deriving DecidableEq, Repr
/-- PADVAL in the element's type (Table 3.8). -/
def layPadBits (b : List Byte) : Nat :=
  let v := bitsOf (layCtl b) 63 32
  match layTy b with
  | .f64 => (convert .f64 .f32 0 false v).1
  | .i64 => ((BitVec.ofNat 32 v).signExtend 64).toNat
  | t => v % 2 ^ t.width
/-- The address of coordinates taken as in bounds. -/
def layAddr (b : List Byte) (x : List Int) : Placed :=
  let four := (layTy b).width == 4
  let base : Int := (fieldOf b 0 8 : Nat)
  let a := (List.range 4).foldl (fun a i => a + nth 0 x i * layStr b i) base
  .addr (if four then a + nth 0 x 0 / 2 else a) (if four then some (nth 0 x 0 % 2 == 1) else none)
/-- An access through a layout at signed coordinates (R61). -/
def layPlace (b : List Byte) (store : Bool) (x : List Int) : Placed :=
  if (List.range 4).any (fun i => decide (layRank b ≤ i) && nth 0 x i != 0) then .bounds
  else if (List.range 4).all (fun i => decide (0 ≤ nth 0 x i) && decide (nth 0 x i < layExt b i)) then layAddr b x
  else if layPad b == 3 then .bounds
  else if store then .discard
  else
    match layPad b with
    | 0 => .pad 0
    | 1 => .pad (layPadBits b)
    | _ => layAddr b ((List.range 4).map (fun i => max 0 (min (nth 0 x i) ((layExt b i : Nat) - 1 : Int))))

/-- The record at an address, read as a 64-byte load under R114: its bytes, or the fault it raises (R238, R60, R135). -/
def readRecord (team : Nat) (va : Nat) (s : State) : State × (List Byte ⊕ (Cause × Detail)) :=
  let tm := s.tm team
  let g := s.gr tm.grid
  match checkElem .read accLoad false tm.core g.fn g.ctx va 64 s with
  | (s, .bad c d) => (s, .inr (c, d))
  | (s, .migrating) => (s, .inr (.pageNotPresent, { kind := accLoad, addr := va }))
  | (s, .ok ps) =>
    match ps with
    | .glob va pa mt :: _ =>
      let (s, bs, p) := loadBytes tm g.fn g.ctx va pa mt 64 s
      if p then (s, .inr (.poison, { kind := accLoad, addr := va }))
      else if layMalformed bs then (s, .inr (.reservedField, { kind := accLoad ||| markLayout, addr := va }))
      else (s, .inl bs)
    | _ => (s, .inr (.pageNotPresent, { kind := accLoad, addr := va }))
/-- Whether a layout-cache entry is the one of a core, a context and a record address. -/
def LayoutLine.is (l : LayoutLine) (core fn ctx addr : Nat) : Bool := l.core == core && l.fn == fn && l.ctx == ctx && l.addr == addr
/-- The record that a core's layout cache holds for a context and an address (R62). -/
def State.layout? (s : State) (core fn ctx addr : Nat) : Option (List Byte) := (s.mem.layouts.find? (fun l => l.is core fn ctx addr)).map (·.bytes)
/-- A record leaves a core's layout cache (R62). -/
def State.dropLayout (s : State) (core fn ctx addr : Nat) : State :=
  { s with mem := { s.mem with layouts := s.mem.layouts.filter (fun l => !l.is core fn ctx addr) } }
/-- A record enters a core's layout cache, which has 64 entries; where it is full, one by free choice is evicted (R62). -/
def keepLayout (core fn ctx addr : Nat) (b : List Byte) (s : State) : State :=
  let s := s.dropLayout core fn ctx addr
  let mine := s.mem.layouts.filter (fun l => l.core == core)
  let s :=
    if mine.length < 64 then s
    else
      let (i, s) := s.pick mine.length
      match mine[i]? with | some l => s.dropLayout core l.fn l.ctx l.addr | none => s
  { s with mem := { s.mem with layouts := ⟨core, fn, ctx, addr, b⟩ :: s.mem.layouts } }
/-- A record read into the layout cache of a team's core (R62, R238). -/
def fetchLayout (team va : Nat) (s : State) : State × (List Byte ⊕ (Cause × Detail)) :=
  let tm := s.tm team
  let g := s.gr tm.grid
  match readRecord team va s with
  | (s, .inl b) => (keepLayout tm.core g.fn g.ctx va b s, .inl b)
  | r => r
/-- The address a team's handle is bound to. -/
def Team.handle (t : Team) (h : Nat) : Option Nat := nth none t.h h
/-- The record bound to a team's handle, from the layout cache, or fetched again where it was evicted; a fault of the fetch is the access's (R62). -/
def useLayout (team h : Nat) (s : State) : State × Option (List Byte ⊕ (Cause × Detail)) :=
  let tm := s.tm team
  let g := s.gr tm.grid
  match tm.handle h with
  | none => (s, none)
  | some va =>
    match s.layout? tm.core g.fn g.ctx va with
    | some b => (s, some (.inl b))
    | none => let (s, r) := fetchLayout team va s; (s, some r)
/-- LAYOUT_CACHE_REFETCH: the entry that a team's handle uses is evicted and its record fetched again; where that fails, the access that needs the record fetches it anew and takes the fault (R62). -/
def execLayoutCacheRefetch (team h : Nat) (s : State) : Out State :=
  let tm := s.tm team
  let g := s.gr tm.grid
  match tm.handle h with
  | none => .fault .notPending
  | some va => done (fetchLayout team va (s.dropLayout tm.core g.fn g.ctx va)).1

/-! ### HBIND, HQRY (R238, R240) -/

/-- HBIND for one team, from its lowest-lane thread's address. -/
def bindTeam (h a : Nat) (mine : List Nat) (team : Nat) (s : State) : State :=
  let tm := s.tm team
  let g := s.gr tm.grid
  let full := s.holdsAll s.members team
  let w := writersOf s s.members team
  match mine with
  | [] => s
  | u :: _ =>
    let va := ((s.thr u).rpair a).toNat
    if !full && s.det team then raiseAll .uniformMix {} (waveOf s team) s
    else if va = 0 then
      s.modTeam team (fun tm =>
        let t' := tm.noteWrite full (tm.handle h).isSome w (.h h)
        { t' with h := setNth none t'.h h none })
    else
      match checkElem .read accLoad false tm.core g.fn g.ctx va 64 s with
      | (s, .ok (.glob va pa mt :: ps)) =>
        let s := s.modTeam team (fun tm => { tm with pendH := tm.pendH ++ [h] })
        addReq .ld mine team (.hbind h va pa mt full w) (s.thr u).pc true (.glob va pa mt :: ps) s
      | (s, .bad c d) => raiseAll c d mine s
      | (s, _) => s
/-- HBIND for every team with a true-guard thread. -/
def bind (u : Use) (h a : Nat) (s : State) : Out State :=
  issue { u with rh := [h], cls := .ld, kind := accLoad } false
    (fun us s => (teamsIn s us).foldl (fun s tm => bindTeam h a (us.filter (fun u => (s.thr u).team == tm)) tm s) s) s
/-- HBIND (R238). -/
def execHbind (x : SA) (s : State) : Out State := bind (use4 x.e (regs (rn x.a) true) []) (rn x.d) (rn x.a) s
/-- HBIND, 96-bit (R238). -/
def execHbindWide (x : WA) (s : State) : Out State := bind (use12 x.e x.x.g (regs (rn x.a) true) []) (rn x.d) (rn x.a) s
/-- The field of a record that HQRY's sel names (R240). -/
def layField (b : List Byte) (sel : Nat) : Word :=
  BitVec.ofNat 32 (match sel with
    | 0 | 1 | 2 | 3 => layExt b sel
    | 4 => layCtl b % 16
    | 5 => layRank b
    | 6 => layPad b
    | 7 => bitsOf (layCtl b) 8 8 + 2 * bitsOf (layCtl b) 9 9
    | 8 => fieldOf b 0 4
    | 9 => fieldOf b 4 4
    | _ => layGran b)
/-- HQRY (R240). -/
def execHqry (x : WA) (s : State) : Out State :=
  let h := bitsOf (rn x.x.w2) 3 0
  let sel := bitsOf (rn x.x.w2) 7 4
  issue { use12 x.e x.x.g [] [rn x.d] with rh := [h] } false (fun us s =>
    us.foldl (fun s u =>
      if 10 < sel then raise .reservedField {} u s
      else
        match useLayout (s.thr u).team h s with
        | (s, some (.inl b)) => s.modThr u (fun t => t.wv (rn x.d) (layField b sel))
        | (s, some (.inr (c, d))) => raise c d u s
        | (s, none) => raise .reservedField {} u s) s) s

/-! ### LDT, STT (R239) -/

/-- Coordinates of a thread: x0 to x3, those beyond NC 0. -/
def layCoords (x : WA) (tm : Team) (t : Thread) : List Int :=
  let nc := bitsOf (rn x.x.w2) 5 4
  [(t.rv (rn x.a)).toInt,
   if 1 ≤ nc then (x.ob.val tm t).toInt else 0,
   if 2 ≤ nc then (x.x.oc.val tm t).toInt else 0,
   if nc = 3 then (t.rv (bitsOf (rn x.x.w2) 12 6)).toInt else 0]
/-- The second register of a 64-bit element, as the record in the layout cache has it (R231, R239). -/
def laySecond (x : WA) (s : State) (u : Nat) : List Nat :=
  let tm := s.teamOf u
  let g := s.gr tm.grid
  match (tm.handle (bitsOf (rn x.x.w2) 3 0)).bind (s.layout? tm.core g.fn g.ctx) with
  | some b => if (layTy b).width == 64 then [rn x.d + 1] else []
  | none => []
/-- A thread whose record, fetched again just now, has 64-bit elements while the second register is pending is held as by the scoreboard (R148, R239). -/
def layPending (x : WA) (b : List Byte) (u : Nat) (s : State) : Bool := (layTy b).width == 64 && (s.thr u).pendV.contains (rn x.d + 1)
/-- Registers an LDT or STT reads besides its data. -/
def layUse (x : WA) (store : Bool) : Use :=
  let nc := bitsOf (rn x.x.w2) 5 4
  let data := span (rn x.d) (countOf x.x.fn)
  let u := use12 x.e x.x.g ([rn x.a] ++ (if nc = 3 then [bitsOf (rn x.x.w2) 12 6] else []) ++ (if store then data else []))
    (if store then [] else data)
  let u := u.reads ((if 1 ≤ nc then [x.ob] else []) ++ (if 2 ≤ nc then [x.x.oc] else [])) false
  { u with rh := [bitsOf (rn x.x.w2) 3 0], cls := if store then .st else .ld, kind := if store then accStore else accLoad, hv := laySecond x }
/-- What an LDT or STT of one thread meets before its elements: a record it may use, or a fault. -/
def layStart (x : WA) (store : Bool) (u : Nat) (s : State) : State × (List Byte ⊕ (Cause × Detail)) :=
  let h := bitsOf (rn x.x.w2) 3 0
  let kind := if store then accStore else accLoad
  match useLayout (s.thr u).team h s with
  | (s, none) => (s, .inr (.reservedField, { kind := kind ||| markLayout }))
  | (s, some (.inr f)) => (s, .inr f)
  | (s, some (.inl b)) =>
    let w := (layTy b).width
    let t := s.thr u
    if countOf x.x.fn != 1 && w != 32 then (s, .inr (.reservedField, { kind := kind ||| markLayout }))
    else if w == 64 && (rn x.d % 2 == 1 || decide (t.owned ≤ rn x.d + 1)) then (s, .inr (.reservedField, { kind := kind ||| markLayout }))
    else if w == 64 && store && t.poison.contains (rn x.d + 1) then (s, .inr (.poison, { kind := kind }))
    else if !(layCtl b).testBit (if store then 9 else 8) then (s, .inr (.pageProtection, { kind := kind ||| markLayout }))
    else (s, .inl b)
/-- Elements of an access through a layout: (place, element number). -/
def layElems (x : WA) (b : List Byte) (store : Bool) (u : Nat) (s : State) : List (Placed × Nat) :=
  let c := layCoords x (s.teamOf u) (s.thr u)
  (List.range (countOf x.x.fn)).map (fun (i : Nat) => (layPlace b store ((nth 0 c 0 + Int.ofNat i) :: c.drop 1), i))
/-- Bytes an element of a layout takes. -/
def layBytes (b : List Byte) : Nat := max 1 (elemBytes (layTy b))
/-- Registers of LDT's element that a record's type makes a pair. -/
def layRegs (x : WA) (b : List Byte) : List Nat :=
  if (layTy b).width == 64 then [rn x.d, rn x.d + 1] else span (rn x.d) (countOf x.x.fn)
/-- LDT in one thread. -/
def layLoad (x : WA) (u : Nat) (s : State) : State :=
  match layStart x false u s with
  | (s, .inr (c, d)) => raise c d u s
  | (s, .inl b) =>
    let l := layElems x b false u s
    if layPending x b u s then s.modThr u (fun t => { t with phase := .stalled, wait := { uv := [rn x.d + 1] } })
    else if l.any (fun p => p.1 == .bounds) then raise .bounds { kind := accLoad } u s
    else
      let g := s.gridOf u
      let r := l.foldl (fun (r : State × Checked) (p : Placed × Nat) =>
        match r with
        | (s, .ok ps) =>
          match p.1 with
          | .addr a _ =>
            match checkElem .read accLoad false (s.teamOf u).core g.fn g.ctx a (layBytes b) s with
            | (s, .ok q) => (s, .ok (ps ++ q))
            | r => r
          | .pad v => (s, .ok (ps ++ [.const v]))
          | _ => (s, .ok ps)
        | r => r) (s, .ok [])
      match r with
      | (s, .bad c d) => raise c d u s
      | (s, .migrating) => s
      | (s, .ok ps) =>
        let t := s.thr u
        let elems := (ps.zip l).map (fun (p, q) =>
          (⟨p, layBytes b, rn x.d + q.2, layTy b, match q.1 with | .addr _ n => n | _ => if (layTy b).width == 4 then some false else none⟩ : Elem))
        addReq .ld [u] t.team (.load u elems) t.pc false ps (s.modThr u (fun t => { t with pendV := t.pendV ++ layRegs x b }))
/-- LDT (R239). -/
def execLdt (x : WA) (s : State) : Out State := issue (layUse x false) false (fun us s => us.foldl (fun s u => layLoad x u s) s) s
/-- STT in one thread. -/
def layStore (x : WA) (u : Nat) (s : State) : State :=
  match layStart x true u s with
  | (s, .inr (c, d)) => raise c d u s
  | (s, .inl b) =>
    let l := layElems x b true u s
    if layPending x b u s then s.modThr u (fun t => { t with phase := .stalled, wait := { uv := [rn x.d + 1] } })
    else if l.any (fun p => p.1 == .bounds) then raise .bounds { kind := accStore } u s
    else
      let g := s.gridOf u
      let t := s.thr u
      let kept := l.filterMap (fun p => match p.1 with | .addr a n => some (a, n, p.2) | _ => none)
      match checkAll .write accStore true (s.teamOf u).core g.fn g.ctx (kept.map (fun k => (k.1, layBytes b))) s with
      | (s, .bad c d) => raise c d u s
      | (s, .migrating) => parkThread .migrate {} u s
      | (s, .ok ps) =>
        let data (i : Nat) : List Byte :=
          if (layTy b).width == 64 then leBytes (t.rpair (rn x.d)).toNat 8 else leBytes (t.rv (rn x.d + i)).toNat (layBytes b)
        performStore (fun c d s => raise c d u s) [u] u ((ps.zip kept).map (fun (p, k) => ⟨p, data k.2.2, k.2.1⟩)) s
/-- STT (R239). -/
def execStt (x : WA) (s : State) : Out State := issue (layUse x true) false (fun us s => us.foldl (fun s u => layStore x u s) s) s

/-! ### GLD, GST (R65, R66, R241) -/

/-- A lane's gather or scatter enters the collector, one request a line, once there is a place for each; what lies outside the device goes directly. -/
def collectLane (cls : Cls) (u : Nat) (mk : Nat → Work) (ps : List Source) (s : State) : State :=
  let t := s.thr u
  let tm := s.tm t.team
  let lines := linesOf ps
  let s := (makeEntries tm.core lines.length s).modThr u (fun t => t.countUp cls)
  lines.foldl (fun s line =>
    let (id, s) := s.fresh
    collect (cls == .st) line ⟨id, s.issue, cls, [u], tm.core, t.team, mk line, t.pc, s.gtick, false, none, 0, 0⟩ s) s
/-- GLD in one thread (R241); true where its elements will perform. -/
def gatherThread (x : Acc) (u : Nat) (s : State) : State × Bool :=
  let t := s.thr u
  match checkThread .read accLoad false u (x.at (x.addr (t.rpair x.a))) s with
  | (s, .bad c d) => (raise c d u s, false)
  | (s, .migrating) => (s, false)
  | (s, .ok ps) =>
    let elems := (ps.zip x.elems).map (fun (p, _, r) => (⟨p, elemBytes x.ty, r, x.ty, none⟩ : Elem))
    let s := s.modThr u (fun t => { t with pendV := t.pendV ++ x.regs })
    if ps.any Source.outside then (addReq .ld [u] t.team (.load u elems) t.pc false ps s, true)
    else (collectLane .ld u (fun line => .load u (elems.filter (fun e => e.src.line == line))) ps s, true)
/-- GST in one thread; true where its elements will perform. -/
def scatterThread (x : Acc) (u : Nat) (s : State) : State × Bool :=
  let t := s.thr u
  match checkThread .write accStore true u (x.at (x.addr (t.rpair x.a))) s with
  | (s, .bad c d) => (raise c d u s, false)
  | (s, .migrating) => (parkThread .migrate {} u s, false)
  | (s, .ok ps) =>
    let g := s.gridOf u
    let s := dirtyPlaces (s.teamOf u).core g.fn g.ctx ps s
    let parts := (ps.zip (x.data t.rv)).map (fun (p, b) => (⟨p, b, none⟩ : Part))
    if ps.any Source.outside then (addReq .st [u] t.team (.store u parts) t.pc false ps s, true)
    else (collectLane .st u (fun line => .store u (parts.filter (fun p => p.dst.line == line))) ps s, true)
/-- The threads of a gather or scatter in lane order; the records of those that fault carry the completion mask (R241). -/
def collectAll (f : Nat → State → State × Bool) (us : List Nat) (s : State) : State :=
  let (s, mask) := us.foldl (fun (r : State × Word) u =>
    let (s, ok) := f u r.1
    (s, if ok then r.2 ||| (1#32 <<< (s.thr u).lane) else r.2)) (s, 0#32)
  { s with faults := s.faults.map (fun r => if r.issue == s.issue && r.written.isNone && !r.deferred then { r with detail := { r.detail with prog := mask.toNat } } else r) }
/-- GLD (R241). -/
def execGld (x : SM) (s : State) : Out State := issue (loadUse (smAcc x 4)) false (collectAll (gatherThread (smAcc x 4))) s
/-- GLD, 96-bit (R241). -/
def execGldWide (x : WM) (s : State) : Out State := issue (loadUse (wmData x)) false (collectAll (gatherThread (wmData x))) s
/-- GST (R241). -/
def execGst (x : SM) (s : State) : Out State := issue (storeUse (smAcc x 4)) false (collectAll (scatterThread (smAcc x 4))) s
/-- GST, 96-bit (R241). -/
def execGstWide (x : WM) (s : State) : Out State := issue (storeUse (wmData x)) false (collectAll (scatterThread (wmData x))) s
/-- COLLECTOR_WINDOW_EXPIRY: entry n of a core departs (R65). -/
def execCollectorWindowExpiry (core n : Nat) (s : State) : Out State :=
  match (s.collOf core)[n]? with
  | some e => if e.waits s then .fault .heldBack else done (depart e s)
  | none => .fault .notPending

/-! ### PREF, INVL1, PIN, UNPIN (R242, R250, R251) -/

/-- PREF in one thread: a request for the line, or nothing. -/
def prefetchThread (x : Acc) (u : Nat) (s : State) : State :=
  let t := s.thr u
  let g := s.gridOf u
  let va := x.addr (t.rpair x.a) / 128 * 128
  match xlate .read (s.teamOf u).core g.fn g.ctx va s with
  | (s, .ok pa mt leaf) =>
    match placeOf va pa mt leaf with
    | .glob va pa 0 =>
      if (s.l1? (s.teamOf u).core g.fn g.ctx (va / 128)).isSome then s
      else addReq .none [] t.team (.prefetch va pa 0) t.pc false [] s
    | .glob va pa 1 => if (s.l2line? (pa / 128)).isSome then s else addReq .none [] t.team (.prefetch va pa 1) t.pc false [] s
    | _ => s
  | (s, .bad _ _) => s
/-- Use of an instruction that names a pair only. -/
def lineUse (x : Acc) (kind : Nat) : Use := { g := x.g, bytes := x.bytes, e := x.e, rv := regs x.a true, kind := kind }
/-- PREF (R242). -/
def execPref (x : SM) (s : State) : Out State :=
  issue (lineUse (smAcc x 128) accLoad) false (fun us s => us.foldl (fun s u => prefetchThread (smAcc x 128) u s) s) s
/-- PREF, 96-bit (R242). -/
def execPrefWide (x : WM) (s : State) : Out State :=
  issue (lineUse (wmAcc x 128) accLoad) false (fun us s => us.foldl (fun s u => prefetchThread (wmAcc x 128) u s) s) s
/-- Virtual lines of a run from an address. -/
def lineRun (addr n : Nat) : List Nat := (List.range n).map (fun i => (addr / 128 + i) % 2 ^ 57)
/-- Lines of the 96-bit forms: word 2 [11:0] + 1. -/
def lineCount (x : WM) : Nat := bitsOf (rn x.x.w2) 11 0 + 1
/-- INVL1 in one thread (R124, R250). -/
def invalidate (x : Acc) (n u : Nat) (s : State) : State :=
  let g := s.gridOf u
  let core := (s.teamOf u).core
  (lineRun (x.addr ((s.thr u).rpair x.a)) n).foldl (fun s line =>
    match s.l1? core g.fn g.ctx line with
    | some y => (match y.copy with | some (_, _, gr, _) => if gr < s.gtick then s.dropCopy y else s | none => s)
    | none => s) s
/-- INVL1 (R250). -/
def execInvl1 (x : SM) (s : State) : Out State :=
  issue (lineUse (smAcc x 128) 0) false (fun us s => us.foldl (fun s u => invalidate (smAcc x 128) 1 u s) s) s
/-- The 96-bit form's offset is OFF8 × 128; word 2 counts lines (R250). -/
def runAcc (x : WM) : Acc := ⟨x.x.g, 12, x.e, rn x.d, rn x.a, ((x.off.toNat * 128 : Nat) : Int), .i32, 1, none⟩
/-- INVL1, 96-bit (R250). -/
def execInvl1Wide (x : WM) (s : State) : Out State :=
  issue (lineUse (runAcc x) 0) false (fun us s => us.foldl (fun s u => invalidate (runAcc x) (lineCount x) u s) s) s
/-- A line pinned for a team where it can be (R251, R55). -/
def pinLine (fn ctx team : Nat) (p : Source) (s : State) : State :=
  match p with
  | .glob va pa mt =>
    if 2 ≤ mt then s
    else
      let s := l2Touch fn (pa / 128) s
      match s.l2line? (pa / 128) with
      | none => s
      | some l =>
        let pinned := s.mem.l2.filter (fun y => sliceOf y.line == sliceOf l.line && y.pin.isSome)
        let full := decide (8 ≤ pinned.length) &&
          decide (8 ≤ (pinned.filter (fun y => Config.l2Set y.line % 64 == Config.l2Set l.line % 64)).length)
        if l.pin.isSome || full || (s.waysOf fn).isEmpty then s else s.setL2 { l with pin := some (fn, ctx, team, va / 128) }
  | _ => s
/-- PIN in one thread: every line is checked as a load, then pinned. -/
def pinThread (x : Acc) (n u : Nat) (s : State) : State :=
  let g := s.gridOf u
  let t := s.thr u
  match checkThread .read accLoad false u ((lineRun (x.addr (t.rpair x.a)) n).map (fun l => (((l * 128 : Nat) : Int), 1))) s with
  | (s, .bad c d) => raise c d u s
  | (s, .migrating) => s
  | (s, .ok ps) => ps.foldl (fun s p => pinLine g.fn g.ctx t.team p s) s
/-- PIN (R251). -/
def execPin (x : SM) (s : State) : Out State :=
  issue (lineUse (smAcc x 128) accLoad) false (fun us s => us.foldl (fun s u => pinThread (smAcc x 128) 1 u s) s) s
/-- PIN, 96-bit (R251). -/
def execPinWide (x : WM) (s : State) : Out State :=
  issue (lineUse (runAcc x) accLoad) false (fun us s => us.foldl (fun s u => pinThread (runAcc x) (lineCount x) u s) s) s
/-- UNPIN in one thread. -/
def unpinThread (x : Acc) (n u : Nat) (s : State) : State :=
  let g := s.gridOf u
  (lineRun (x.addr ((s.thr u).rpair x.a)) n).foldl (fun s l =>
    match xlate .read (s.teamOf u).core g.fn g.ctx (l * 128) s with
    | (s, .ok pa _ _) =>
      match s.l2line? (pa / 128) with
      | some y => (match y.pin with | some (f, c, _, _) => if f == g.fn && c == g.ctx then s.setL2 { y with pin := none } else s | none => s)
      | none => s
    | (s, .bad _ _) => s) s
/-- UNPIN (R251). -/
def execUnpin (x : SM) (s : State) : Out State :=
  issue (lineUse (smAcc x 128) 0) false (fun us s => us.foldl (fun s u => unpinThread (smAcc x 128) 1 u s) s) s
/-- UNPIN, 96-bit (R251). -/
def execUnpinWide (x : WM) (s : State) : Out State :=
  issue (lineUse (runAcc x) 0) false (fun us s => us.foldl (fun s u => unpinThread (runAcc x) (lineCount x) u s) s) s

end Sys2Proof.Machine
end

