-- ==== Sys2Proof/Machine/MemEvents.lean ====
section
/-! DEFINITION. The memory system's own steps: replies, fills, accepted writes, evictions, walks and the host's answers (spec/11_memory_instructions.md R234 to R238; spec/03_memory_hierarchy.md R46 to R53; spec/02_address_spaces.md R23, R35, R41, R42; spec/06_memory_ordering.md R132). -/
namespace Sys2Proof.Machine

/-- Bytes of the elements of a load: those outside the device come from the data the target returned, in order. -/
def takeData (l : List Elem) (data : List Byte) : List (Elem × Option (List Byte)) :=
  match l with
  | [] => []
  | e :: rest =>
    if e.src.outside then (e, some (data.take e.size)) :: takeData rest (data.drop e.size)
    else (e, none) :: takeData rest data
/-- One element read and delivered. -/
def deliverElem (team : Nat) (put : Elem → List Byte → Bool → State → State) (p : Elem × Option (List Byte)) (s : State) : State :=
  let tm := s.tm team
  let g := s.gr tm.grid
  match p.2 with
  | some bs => put p.1 bs false s
  | none =>
    let (s, bs, poisoned) := readSource tm g.fn g.ctx p.1.src p.1.size s
    put p.1 bs poisoned s
/-- HBIND's read, or the data that came from outside: the record is validated and bound, or the fault is raised in its threads (R238, R62). -/
def performBind (r : Req) (h va mt : Nat) (full : Bool) (w : List Nat) (data : List Byte) (s : State) : State :=
  let s := s.modTeam r.team (fun tm => { tm with pendH := tm.pendH.filter (· ≠ h) })
  let tm := s.tm r.team
  let g := s.gr tm.grid
  let got : State × (List Byte ⊕ (Cause × Detail)) :=
    if 2 ≤ mt then
      if layMalformed (data.take 64) then (s, .inr (.reservedField, { kind := accLoad ||| markLayout, addr := va }))
      else (keepLayout tm.core g.fn g.ctx va (data.take 64) s, .inl (data.take 64))
    else fetchLayout r.team va s
  match got with
  | (s, .inl _) =>
    complete r (s.modTeam r.team (fun tm =>
      let t' := tm.noteWrite full (tm.handle h != some va) w (.h h)
      { t' with h := setNth none t'.h h (some va) }))
  | (s, .inr (c, d)) => withIssue r.group (raiseAll c d (s.byLane r.threads)) (complete r s)
/-- What an outstanding load of a saved team observes is not undone after its restore: leases granted before serve it no longer (R113, R116). -/
def observed (team : Nat) (s : State) : State := s.modTeam team (fun tm => if tm.saved.isSome then { tm with saveTick := s.gtick } else tm)
/-- A request's load performs and is delivered. -/
def performLoad (r : Req) (data : List Byte) (s : State) : Out State :=
  match r.work with
  | .load th l =>
    done (observed r.team (complete r ((takeData l data).foldl (fun s p => deliverElem r.team (fun e bs b s => s.modThr th (Thread.deliver e bs b)) p s) s)))
  | .loadTeam l full w =>
    done (observed r.team (complete r ((takeData l data).foldl (fun s p => deliverElem r.team (fun e bs b s => s.modTeam r.team (Team.deliver full w e bs b)) p s) s)))
  | .hbind h va _ mt full w => done (performBind r h va mt full w data s)
  | .reply th dst pair v bad fl =>
    let s := s.modThr th (fun t =>
      let t := match dst with
        | some d => (if pair then t.wpair d (BitVec.ofNat 64 v) else t.wv d (BitVec.ofNat 32 v))
        | none => t
      let ds := match dst with | some d => regs d pair | none => []
      ({ t with pendV := t.pendV.filter (fun x => !ds.contains x), poison := if bad then t.poison ++ ds else t.poison }).orFlags fl)
    done (complete r s)
  | _ => .fault .notPending
/-- LOAD_REPLY: an outstanding load performs, its registers are written and its count falls (R234). -/
def execLoadReply (req : Nat) (s : State) : Out State :=
  match s.req? req with
  | none => .fault .notPending
  | some r =>
    if r.ats != 0 || r.work.places.any Source.outside then .fault .notPending
    else if r.heldBack s || r.yields s then .fault .heldBack
    else performLoad r [] s

/-- A line filled into L1 for a place of MT 00, unless a usable copy or another team's dirty line is there. -/
def fillPlace (team : Nat) (p : Source) (s : State) : State :=
  let tm := s.tm team
  let g := s.gr tm.grid
  match p with
  | .glob va pa 0 =>
    match s.l1? tm.core g.fn g.ctx (va / 128) with
    | some x => if usable tm x s || (!x.dirty.isEmpty && x.team != tm.uid) then s else fillL1 tm g.fn g.ctx (va / 128) pa s
    | none => fillL1 tm g.fn g.ctx (va / 128) pa s
  | .glob _ pa 1 => l2Touch g.fn (pa / 128) s
  | _ => s
/-- L2_SERVE_FILL: the home slice serves a fill for a prefetch or for an outstanding load (R48, R242). -/
def execL2ServeFill (req : Nat) (s : State) : Out State :=
  match s.req? req with
  | none => .fault .notPending
  | some r =>
    match r.work with
    | .prefetch va pa mt => done (complete r (fillPlace r.team (.glob va pa mt) s))
    | .load _ _ | .loadTeam _ _ _ | .hbind _ _ _ _ _ _ =>
      if r.ats != 0 || r.work.places.any Source.outside then .fault .notPending
      else if r.outranked s then .fault .heldBack
      else done (r.work.places.foldl (fun s p => fillPlace r.team p s) s)
    | _ => .fault .notPending

/-- L2_ACCEPT_WRITE: an outstanding store performs where its parts go (R53, R235). -/
def execL2AcceptWrite (req : Nat) (s : State) : Out State :=
  match s.req? req with
  | none => .fault .notPending
  | some r =>
    let g := s.gr (s.tm r.team).grid
    match r.work with
    | .store _ parts =>
      if r.ats != 0 || r.work.places.any Source.outside then .fault .notPending
      else if r.heldBack s || r.work.waitsPage g.fn g.ctx s || r.waitsFence s || r.yields s then .fault .heldBack
      else done (landParts r parts s)
    | _ => .fault .notPending

/-- L1_EVICTION: the device evicts an L1 line, writing it back if dirty (R46, R52). -/
def execL1Eviction (core fn ctx va : Nat) (s : State) : Out State :=
  match s.l1? core fn ctx (va / 128) with
  | none => .fault .notPending
  | some x =>
    if x.dirty.isEmpty then done (s.dropL1 x)
    else if s.isMigrating fn ctx (x.line * 128) then .fault .heldBack
    else done (writeBack x s)

/-- PAGE_WALK: a walk for an address, cached when it succeeds (R23, R35). -/
def execPageWalk (core fn ctx : Nat) (va : Dword) (s : State) : Out State :=
  if (s.context? fn ctx).isNone || !canonical va.toNat then .fault .notPending
  else
    match walk fn ctx va.toNat s with
    | (s, .leaf e size pa) => done (tlbFill core fn ctx va.toNat e size pa s)
    | (s, .bad _ _) => done s
/-- TRANSLATION_EVICT: cached translation n, then the walk cache's and the ATC's entries, is dropped (R35). -/
def execTranslationEvict (n : Nat) (s : State) : Out State :=
  let m := s.mem
  if n < m.tlb.length then done { s with mem := { m with tlb := m.tlb.eraseIdx n } }
  else if n < m.tlb.length + m.walk.length then done { s with mem := { m with walk := m.walk.eraseIdx (n - m.tlb.length) } }
  else if n < m.tlb.length + m.walk.length + m.atc.length then
    done { s with mem := { m with atc := m.atc.eraseIdx (n - m.tlb.length - m.walk.length) } }
  else .fault .notPending

/-! ### Host translation (R41) -/

/-- Host pages a request needs. -/
def Req.hostPages (r : Req) : List Nat :=
  r.work.places.filterMap (fun p => match p with | .glob _ pa mt => if 2 ≤ mt && regionOf pa == .host then some (pa / 4096) else none | _ => none)
/-- PRI of the request's leaves. -/
def Req.pri (r : Req) : Bool := r.work.places.any (fun p => match p with | .glob _ _ 3 => true | _ => false)
/-- Access kind and address of a request outside the device. -/
def Req.detail (r : Req) : Detail :=
  let addr := match (r.work.places.filter Source.outside).head? with | some (.glob va _ _) => va | _ => 0
  { kind := match r.work with | .store _ _ => accStore | .atomic _ _ _ _ _ _ => accAtomic | _ => accLoad, addr := addr }
/-- The access raises PAGE_NOT_PRESENT for the waiting threads (R41). -/
def failHost (r : Req) (s : State) : State :=
  let s := withdraw r s
  withIssue r.group (raiseAll .pageNotPresent r.detail (s.byLane r.threads)) s
/-- A peer refuses the access: PAGE_PROTECTION in its threads, whose record's faulting PC is the access (R359). -/
def refusePeer (r : Req) (s : State) : State := failLate r .pageProtection r.detail s
/-- A waiting state becomes another one, also under a deferred fault (R324). -/
def Thread.shift (p q : Phase) (t : Thread) : Thread :=
  if t.phase == p then { t with phase := q } else if t.phase == .faulted && t.under == p then { t with under := q } else t
/-- Page requests of a function that the host has not answered (R41). -/
def State.pageRequests (s : State) (fn : Nat) : Nat :=
  (s.reqs.filter (fun r => r.ats == 2 && (s.gr (s.tm r.team).grid).fn == fn)).length
/-- A request's page request goes out, or waits while the function has 1,024 outstanding (R41). -/
def sendPageRequest (r : Req) (s : State) : State :=
  let g := s.gr (s.tm r.team).grid
  if s.pageRequests g.fn < 1024 then (s.modReq r.id (fun r => { r with ats := 2, asked := s.gtick })).askHost g.fn g.ctx r.id true
  else s.modReq r.id (fun r => { r with ats := 3 })
/-- Where a function's page request has ended, the oldest that waits goes out (R41). -/
def nextPageRequest (fn : Nat) (s : State) : State :=
  match s.reqs.find? (fun r => r.ats == 3 && (s.gr (s.tm r.team).grid).fn == fn) with
  | some r => sendPageRequest r s
  | none => s
/-- HOST_TRANSLATION_RESPONSE: present, the page enters the ATC and the access goes on; not present, a page request is sent where PRI allows, and the threads park; else PAGE_NOT_PRESENT (R41). -/
def execHostTranslationResponse (req : Nat) (present : Bool) (s : State) : Out State :=
  match s.req? req with
  | none => .fault .notPending
  | some r =>
    let g := s.gr (s.tm r.team).grid
    if r.ats != 1 then .fault .notPending
    else if present then done ((r.hostPages.reverse.foldl (fun s p => s.fillAtc g.fn g.ctx p) s).modReq req (fun r => { r with ats := 0 }))
    else if r.pri then done (r.threads.foldl (fun s u => s.modThr u (Thread.shift .stalled (.parked .pageRequest))) (sendPageRequest r s))
    else done (failHost r s)
/-- PAGE_REQUEST_RESPONSE: success lets the accesses translate again, their threads held until then; failure faults the waiting threads (R41). -/
def execPageRequestResponse (req : Nat) (success : Bool) (s : State) : Out State :=
  match s.req? req with
  | none => .fault .notPending
  | some r =>
    let g := s.gr (s.tm r.team).grid
    if r.ats != 2 then .fault .notPending
    else if success then
      let s := (s.modReq req (fun r => { r with ats := 1, asked := s.gtick })).askHost g.fn g.ctx req false
      done (nextPageRequest g.fn (r.threads.foldl (fun s u => s.modThr u (Thread.shift (.parked .pageRequest) .stalled)) s))
    else done (nextPageRequest g.fn (failHost r s))
/-- HOST_TRANSLATION_TIMEOUT: no response within 10,000,000 ticks of a translation or page request (R41). -/
def execHostTranslationTimeout (req : Nat) (s : State) : Out State :=
  match s.req? req with
  | none => .fault .notPending
  | some r =>
    if (r.ats == 1 || r.ats == 2) && decide (r.asked + 10000000 ≤ s.gtick) then done (nextPageRequest (s.gr (s.tm r.team).grid).fn (failHost r s)) else .fault .notPending

/-! ### From outside (R132) -/

/-- A write of a requester's stream is accepted at L2 as it arrives: without Relaxed Ordering its Tw is at or above the previous write's (R132). -/
def streamWrite (fn stream pa : Nat) (data : List (Byte × Bool)) (relaxed : Bool) (s : State) : State × Nat :=
  let (s, tw) := acceptMarked fn pa data s
  let prev := lookupD 0 s.mem.streams stream
  let top := max tw prev
  let tw := if relaxed then tw else top
  let s := { s with mem := { s.mem with streams := insertKey s.mem.streams stream top } }
  let lines := (splitLines (data.length / 128 + 2) pa data).map (fun p => p.1 / 128)
  (lines.foldl (fun s l => match s.l2line? l with | some y => s.setL2 { y with tw := max y.tw tw } | none => s.keepTw l (max (s.lateTw l) tw)) s, tw)
/-- Bytes from outside lie in one backed row of local memory. -/
def State.reachable (s : State) (pa n : Nat) : Bool := (regionOf pa).local && s.backed pa && s.backed (pa + n - 1) && (regionOf (pa + n - 1)) == regionOf pa
/-- Bytes that a peer may reach under a tenant tag: every granule of them is owned by a function that carries it (R359). -/
def State.admits (s : State) (tag : Dword) (pa n : Nat) : Bool :=
  n != 0 && s.reachable pa n && (List.range ((pa % 0x200000 + n + 0x1FFFFF) / 0x200000)).all (fun i => tagMatches tag (pa - pa % 0x200000 + i * 0x200000) s)
/-- INBOUND_WRITE: a write from outside is accepted in arrival order (R132); one to a page that is being moved away waits (R34). -/
def execInboundWrite (stream pa : Nat) (data : List Byte) (relaxed : Bool) (s : State) : Out State :=
  if s.migratesFrom pa data.length then .fault .heldBack
  else if s.reachable pa data.length then done (streamWrite 0 (2 * stream) pa (data.map (·, false)) relaxed s).1 else done (s.send (.reject pa))
/-- INBOUND_READ: a read from outside is served at L2 (R132). -/
def execInboundRead (pa len : Nat) (s : State) : Out State :=
  if s.reachable pa len then
    let (s, bs, p) := readL2 0 pa len s
    done (s.send (.readReply pa bs p))
  else done (s.send (.reject pa))

end Sys2Proof.Machine
end

