-- ==== Sys2Proof/Machine/Atomic.lean ====
section
/-! DEFINITION. Atomics, fences, and the accesses that complete outside the device (spec/11_memory_instructions.md R243 to R246, R249; spec/10_control_and_integer_instructions.md R228; spec/06_memory_ordering.md R117, R119 to R126; spec/02_address_spaces.md R42). -/
namespace Sys2Proof.Machine

/-- The new value an atomic computes, and its flags (R244, R245). -/
def AtomOp.apply (o : AtomOp) (old : Nat) : Nat × Flags :=
  let w := 2 ^ o.ty.width
  if o.form = 1 then (if old = o.c then o.b else old, 0)
  else if o.ty.isFloat then
    match o.op with
    | 0 => addBits o.ty o.rnd false old o.b
    | 1 => fMinMax o.ty false false old o.b
    | _ => fMinMax o.ty true false old o.b
  else
    let less (x y : Nat) : Bool := decide (intOf o.ty x < intOf o.ty y)
    (match o.op with
      | 0 => (old + o.b) % w
      | 1 => if less o.b old then o.b else old
      | 2 => if less old o.b then o.b else old
      | 3 => Nat.land old o.b
      | 4 => Nat.lor old o.b
      | 5 => Nat.xor old o.b
      | _ => o.b, 0)

/-- An atomic form: its guard, length, operation, registers and order. -/
structure AForm where
  x : WA
  form : Nat
  returning : Bool
  deriving DecidableEq, Repr
/-- Operation number. -/
def AForm.op (f : AForm) : Nat := bitsOf (rn f.x.x.fn) 3 0
/-- Order: 0 none, 1 acquire, 2 release, 3 both (R194). -/
def AForm.order (f : AForm) : Nat := bitsOf (rn f.x.x.fn) 5 4
/-- Registers and counter class. -/
def AForm.use (f : AForm) : Use :=
  let p := f.x.x.ty.wide
  let u := use12 f.x.e f.x.x.g (regs (rn f.x.a) true) (if f.returning && f.x.d != 0 then regs (rn f.x.d) p else [])
  let u := u.reads (if f.form = 1 then [f.x.ob, f.x.x.oc] else [f.x.ob]) p
  { u with cls := if f.returning then .ld else .st, kind := accAtomic }
/-- Operands captured at issue (R231). -/
def AForm.operands (f : AForm) (tm : Team) (t : Thread) : AtomOp :=
  ⟨f.form, f.op, f.x.x.ty, rn f.x.x.rnd, f.x.ob.elem f.x.x.ty 0 tm t, if f.form = 1 then f.x.x.oc.elem f.x.x.ty 0 tm t else 0⟩
/-- Checks of an atomic on an address (R244). -/
def atomCheck (ty : ElemType) (va u : Nat) (s : State) : State × Checked :=
  checkThread .atomic accAtomic true u [((va : Int), elemBytes ty)] s
/-- A checked atomic becomes a request (R244). -/
def atomSubmit (cls : Cls) (hold : Bool) (o : AtomOp) (dst : Option Nat) (u : Nat) (p : Source) (s : State) : State :=
  match p with
  | .glob va pa mt =>
    let t := s.thr u
    let g := s.gridOf u
    let s := dirtyPlaces (s.teamOf u).core g.fn g.ctx [p] s
    let ds := match dst with | some d => regs d o.ty.wide | none => []
    addReq cls [u] t.team (.atomic u va pa mt o dst) t.pc hold [p] (s.modThr u (fun t => { t with pendV := t.pendV ++ ds }))
  | _ => s
/-- TEAMSTAT.NDET is set (R125, R256). -/
def setNdet (team : Nat) (s : State) : State := s.modTeam team (fun tm => { tm with teamstat := tm.teamstat ||| 2 })
/-- ATOM, ATOMC, ATOMF, and RED outside DET in some threads (R244, R246). -/
def atomThreads (f : AForm) (us : List Nat) (s : State) : State :=
  let perform (u : Nat) (ps : List Source) (s : State) : State :=
    let o := f.operands (s.teamOf u) (s.thr u)
    let s := if f.returning && s.det (s.thr u).team then setNdet (s.thr u).team s else s
    atomSubmit (if f.returning then .ld else .st) (f.order % 2 == 1) o (if f.returning && f.x.d != 0 then some (rn f.x.d) else none) u (ps.headD (.const 0)) s
  storeOrdered (if 2 ≤ f.order then some (rn f.x.x.sel) else none)
    (fun u s => atomCheck f.x.x.ty ((s.thr u).rpair (rn f.x.a)).toNat u s) perform us s
/-- An atomic in the true-guard threads. -/
def atomAll (f : AForm) (s : State) : Out State := issue f.use false (atomThreads f) s
/-- ATOM (R244). -/
def execAtom (x : WA) (s : State) : Out State := atomAll ⟨x, 0, true⟩ s
/-- ATOMC (R244). -/
def execAtomc (x : WA) (s : State) : Out State := atomAll ⟨x, 1, true⟩ s
/-- ATOMF (R245). -/
def execAtomf (x : WA) (s : State) : Out State := atomAll ⟨x, 2, true⟩ s

/-- An atomic has its old value: it is answered by a reply, which carries poison (R135), or, without a reply, done (R244, R246, R228). -/
def atomAnswer (r : Req) (th : Nat) (o : AtomOp) (dst : Option Nat) (old : Nat) (bad : Bool) (fl : Flags) (s : State) : State :=
  if o.form ≤ 2 then s.modReq r.id (fun r => { r with work := .reply th dst o.ty.wide old bad fl })
  else complete r (s.modThr th (fun t => t.orFlags fl))
/-- One indivisible read-modify-write at the home slice (R125, R244); the issuing team's dirty copy of the line is written back first, the core's clean copy dropped (R117). -/
def performAtomic (r : Req) (th va pa : Nat) (o : AtomOp) (dst : Option Nat) (s : State) : State :=
  let tm := s.tm r.team
  let g := s.gr tm.grid
  let s := yieldLine tm g.fn g.ctx va s
  let old := leNat (s.mem.bytes.readN pa (elemBytes o.ty))
  let bad := s.mem.poison.contains (pa / 128)
  let (new, fl) := o.apply old
  let (s, tw) := acceptWrite g.fn (pa / 128) (cellsOf pa (leBytes new (elemBytes o.ty))) false s
  let s := s.modThr th (Thread.wrote (pa / 128) va tw s.gtick)
  atomAnswer r th o dst old bad fl s
/-- ATOMIC_PERFORM: an outstanding atomic of local memory performs (R125). -/
def execAtomicPerform (req : Nat) (s : State) : Out State :=
  match s.req? req with
  | none => .fault .notPending
  | some r =>
    let g := s.gr (s.tm r.team).grid
    match r.work with
    | .atomic th va pa mt o dst =>
      if r.ats != 0 || 2 ≤ mt then .fault .notPending
      else if r.heldBack s || r.work.waitsPage g.fn g.ctx s || r.yields s then .fault .heldBack
      else done (takeTurn (sliceOf (pa / 128)) g.fn (performAtomic r th va pa o dst s))
    | _ => .fault .notPending

/-- Places of a store that lie on a peer complete by the peer's acknowledgement (R359). -/
def toPeer (parts : List Part) : Bool := parts.any (fun p => p.dst.onPeer)
/-- The accesses of a load or atomic that lie outside the device leave for their targets (R42, R125). -/
def sendAccess (r : Req) (s : State) : State :=
  let g := s.gr (s.tm r.team).grid
  let out (n : Nat) (p : Source) (s : State) : State := match p with | .glob _ pa mt => if 2 ≤ mt then s.leave g.fn g.ctx pa (.read n) else s | _ => s
  match r.work with
  | .load _ l | .loadTeam l _ _ => l.foldl (fun s e => out e.size e.src s) s
  | .hbind _ va pa mt _ _ => out 64 (.glob va pa mt) s
  | .atomic _ _ pa mt o _ => if 2 ≤ mt then s.leave g.fn g.ctx pa (.atomic o) else s
  | _ => s
/-- HOST_ACCESS_COMPLETION: an access to the host, a peer or the register window performs at its target; data are what the target returned; a peer that refuses the access returns nothing (R42, R125, R359). -/
def execHostAccessCompletion (req : Nat) (data : List Byte) (s : State) : Out State :=
  match s.req? req with
  | none => .fault .notPending
  | some r =>
    if r.ats != 0 || !r.work.places.any Source.outside then .fault .notPending
    else if r.heldBack s then .fault .heldBack
    else if data.isEmpty && r.work.places.any Source.onPeer then done (refusePeer r s)
    else
      match r.work with
      | .store _ parts =>
        if r.waitsFence s then .fault .heldBack
        else if toPeer parts then .fault .notPending
        else done (landParts r parts s)
      | .atomic th _ _ _ o dst =>
        let old := leNat (data.take (elemBytes o.ty))
        done (atomAnswer r th o dst old false (o.apply old).2 (sendAccess r s))
      | _ => performLoad r data (sendAccess r s)
/-- PEER_WRITE_ACKNOWLEDGEMENT: the completion of a peer-window write reaches the issuing device (R359). -/
def execPeerWriteAcknowledgement (req : Nat) (s : State) : Out State :=
  match s.req? req with
  | none => .fault .notPending
  | some r =>
    match r.work with
    | .store _ parts =>
      if r.ats != 0 || !toPeer parts then .fault .notPending
      else if r.heldBack s || r.waitsFence s then .fault .heldBack
      else done (landParts r parts s)
    | _ => .fault .notPending

/-! ### FENCE (R249) -/

/-- The effects of every FENCE: collector entries depart, and a posted PIN_REVOKED is delivered (R65, R39). -/
def fenceEffects (u : Nat) (s : State) : State :=
  (departThread u s).modTeam (s.thr u).team (fun tm =>
    if tm.pinRevoked then { tm with pinRevoked := false, teamstat := tm.teamstat ||| 4 } else tm)
/-- The acquire part: the thread waits until its earlier loads have delivered (R121). -/
def acquireWait (u : Nat) (s : State) : State :=
  if (s.thr u).ld = 0 then s else s.modThr u (fun t => { t with phase := .stalled, wait := { drain := true } })
/-- A fence: a release, an acquire, or both (R249, R122); a thread that must wait is STALLED and issues it afresh. -/
def fence (rel : Bool) (scope : Nat) (us : List Nat) (s : State) : State :=
  let s := us.foldl (fun s u => fenceEffects u s) s
  if rel then withRelease scope (fun _ s => s) us s else us.foldl (fun s u => acquireWait u s) s
/-- FENCE.REL (R249). -/
def execFenceRel (x : SS) (s : State) : Out State := issue { bytes := 4, e := x.e } false (fence true (rn x.d)) s
/-- FENCE.REL, 96-bit (R249). -/
def execFenceRelWide (x : WS) (s : State) : Out State := issue { g := x.x.g, bytes := 12, e := x.e } false (fence true (rn x.x.sel)) s
/-- FENCE.ACQ (R249): every scope gives the same ordering (R121). -/
def execFenceAcq (x : SS) (s : State) : Out State := issue { bytes := 4, e := x.e } false (fence false (rn x.d)) s
/-- FENCE.ACQ, 96-bit (R249). -/
def execFenceAcqWide (x : WS) (s : State) : Out State := issue { g := x.x.g, bytes := 12, e := x.e } false (fence false (rn x.x.sel)) s
/-- FENCE.AR: the release has waited for every earlier load, so the acquire waits for nothing more (R122, R120). -/
def execFenceAr (x : SS) (s : State) : Out State := issue { bytes := 4, e := x.e } false (fence true (rn x.d)) s
/-- FENCE.AR, 96-bit (R249). -/
def execFenceArWide (x : WS) (s : State) : Out State := issue { g := x.x.g, bytes := 12, e := x.e } false (fence true (rn x.x.sel)) s

/-! ### CTRADD, CTRWAIT (R228) -/

/-- A counter's page must have MT 00 or 01 (R228), as its leaf says. -/
def counterPlace (n : Need) (kind : Nat) (store : Bool) (va u : Nat) (s : State) : State × Checked :=
  match checkThread n kind store u [((va : Int), 8)] s with
  | (s, .ok ps) =>
    let g := s.gridOf u
    match tlbHit (s.teamOf u).core g.fn g.ctx va s with
    | some t => if 2 ≤ leafMt t.leaf.toNat then (s, .bad .pageProtection { kind := kind ||| markCounter, addr := va }) else (s, .ok ps)
    | none => (s, .ok ps)
  | r => r
/-- CTRADD in some threads: a release of device scope, then the add (R228). -/
def counterAdd (x : WA) (us : List Nat) (s : State) : State :=
  storeOrdered (some 3) (fun u s => counterPlace .atomic accAtomic true ((s.thr u).rpair (rn x.a)).toNat u s)
    (fun u ps s => atomSubmit .st false ⟨4, 0, .i64, 0, (x.ob.val (s.teamOf u) (s.thr u)).toNat, 0⟩ none u (ps.headD (.const 0)) s) us s
/-- CTRADD (R228). -/
def execCtradd (x : WA) (s : State) : Out State :=
  issue { (use12 x.e x.x.g (regs (rn x.a) true) []).reads [x.ob] false with cls := .st, kind := accAtomic } false (counterAdd x) s
/-- The threshold of CTRWAIT: a pair, or zext of the literal (R228). -/
def ctrThreshold (x : WA) (tm : Team) (t : Thread) : Nat := if x.x.lit then rn x.x.w2 else (x.ob.pair tm t).toNat
/-- A counter read at L2 without a lease, or where its page lies outside the device; later loads of the thread's core observe it (R228, R113). -/
def readCounter (core fn ctx va pa : Nat) (s : State) : State × Nat × Bool :=
  let (s, bs, p) := readPlace fn pa 8 s
  (s.forget core fn ctx va, leNat bs, p)
/-- CTRWAIT in one thread: the read satisfies the threshold, or the thread parks with CTR_WAIT. -/
def counterWait (x : WA) (u : Nat) (s : State) : State :=
  let t := s.thr u
  let va := (t.rpair (rn x.a)).toNat
  match counterPlace .read accLoad false va u s with
  | (s, .ok (.glob va pa _ :: _)) =>
    let g := s.gridOf u
    let (s, v, p) := readCounter (s.teamOf u).core g.fn g.ctx va pa s
    if p then raise .poison { kind := accLoad, addr := va } u s
    else if ctrThreshold x (s.teamOf u) t ≤ v then s
    else parkThread .ctrWait { addr := va, thr := ctrThreshold x (s.teamOf u) t } u s
  | (s, .bad c d) => raise c d u s
  | (s, _) => s
/-- CTRWAIT (R228). -/
def execCtrwait (x : WA) (s : State) : Out State :=
  issue { (use12 x.e x.x.g (regs (rn x.a) true) []).reads (if x.x.lit then [] else [x.ob]) true with kind := accLoad } false
    (fun us s => us.foldl (fun s u => counterWait x u s) s) s
/-- CTRWAIT_REREAD: a parked waiter reads its counter again; the read that satisfies the threshold makes it READY (R228). -/
def execCtrwaitReread (th : Nat) (s : State) : Out State :=
  let t := s.thr th
  if t.phase != .parked .ctrWait || t.stopped.isSome || (s.teamOf th).saved.isSome then .fault .notPending
  else
    match counterPlace .read accLoad false t.wait.addr th s with
    | (s, .ok (.glob _ pa _ :: _)) =>
      let g := s.gridOf th
      let (s, v, p) := readCounter (s.teamOf th).core g.fn g.ctx t.wait.addr pa s
      if p then done (raise .poison { kind := accLoad, addr := t.wait.addr } th { s with issue := s.issue + 1 })
      else done (if t.wait.thr ≤ v then s.modThr th Thread.wake else s)
    | (s, .bad c d) => done (raise c d th { s with issue := s.issue + 1 })
    | (s, _) => done s

end Sys2Proof.Machine
end

