-- ==== Sys2Proof/Machine/Red.lean ====
section
/-! DEFINITION. Reductions, the reduction buffer and log, and flush points (spec/11_memory_instructions.md R246 to R248; spec/06_memory_ordering.md R126, R127, R382). -/
namespace Sys2Proof.Machine

/-- Unspilled entries of a core's reduction buffer: 2,048 at most (R247). -/
def bufferOf (core : Nat) (s : State) : Nat := s.grids.foldl (fun n g => n + (g.reds.filter (fun r => !r.spilled && r.core == core)).length) 0
/-- Entries in a launch's log. -/
def Grid.logUsed (g : Grid) : Nat := (g.reds.filter (·.spilled)).length
/-- RLOG of the launch record (Table 14.4). -/
def Grid.rlog (g : Grid) : Nat := g.field 96 8
/-- One entry of the grid on a core goes to the log, in the device's own format (notes/assumptions 6); a write that faults leaves it in the buffer, and the log then counts as full (R247). True where an entry was spilled. -/
def spillOne (grid core : Nat) (s : State) : State × Bool :=
  let g := s.gr grid
  match g.reds.find? (fun r => !r.spilled && r.core == core) with
  | none => (s, false)
  | some r =>
    if g.logFull || decide (g.logCap ≤ g.logUsed) then (s, false)
    else
      let va := g.rlog + 64 + 32 * g.logUsed
      match xlateUnit .write core g.fn g.ctx va s with
      | (s, .bad _ _) => (s.modGrid grid (fun g => { g with logFull := true }), false)
      | (s, .ok pa _ _) =>
        let bytes := (List.range 32).map (Config.byte s.free)
        let (s, _) := acceptBytes g.fn pa bytes { s with free := s.free + 1 }
        (s.modGrid grid (fun g => { g with reds := g.reds.map (fun q => if q == r then { q with spilled := true } else q) }), true)
/-- REDUCTION_SPILL: the buffer spills an entry of a launch to its log (R247). -/
def execReductionSpill (grid : Nat) (s : State) : Out State :=
  match (s.gr grid).reds.find? (fun r => !r.spilled) with
  | none => .fault .notPending
  | some r =>
    let g := s.gr grid
    if g.logFull || decide (g.logCap ≤ g.logUsed) then .fault .heldBack
    else unitDone (spillOne grid r.core s).1

/-- A full buffer spills an entry: of a launch, else of another one with entries of the core (R247). True where there is room now. -/
def spillAny (grid core : Nat) (s : State) : State × Bool :=
  let others := (s.grids.filter (fun g => g.uid != grid && g.reds.any (fun r => !r.spilled && r.core == core))).map (·.uid)
  (grid :: others).foldl (fun (r : State × Bool) g => if r.2 then r else spillOne g core r.1) (s, false)
/-- A checked RED of a DET launch enters the core's buffer, or, where that stays full, the launch's log, and its thread's sequence advances; false with buffer and log full (R247). -/
def pushRed (va : Nat) (o : AtomOp) (bad : Bool) (u : Nat) (s : State) : State × Bool :=
  let t := s.thr u
  let tm := s.tm t.team
  let e : RedEntry := ⟨tm.id, t.tid, t.redSeq, tm.core, va, o, false, bad⟩
  let enter (s : State) : State := (s.modGrid tm.grid (fun g => { g with reds := g.reds ++ [e] })).modThr u (fun t => { t with redSeq := (t.redSeq + 1) % 2 ^ 32 })
  let (s, room) := if bufferOf tm.core s < 2048 then (s, true) else spillAny tm.grid tm.core s
  if room then (enter s, true)
  else
    match spillOne tm.grid tm.core (enter s) with
    | (s, true) => (s, true)
    | (_, false) => (s.modGrid tm.grid (fun g => { g with logFull := true }), false)
/-- The same of a RED instruction; with buffer and log full it raises ENGINE_FAULT (R247). -/
def bufferRed (va : Nat) (o : AtomOp) (u : Nat) (s : State) : State :=
  match pushRed va o false u s with
  | (s, true) => s
  | (s, false) => raise .engineFault { kind := accAtomic ||| markRedLog, addr := va } u s
/-- RED of a thread in a DET launch (R246, R247); where the spill it needs meets a page under migration, the thread parks as a store there does (R34). -/
def redThread (x : WA) (u : Nat) (s : State) : State :=
  let va := ((s.thr u).rpair (rn x.a)).toNat
  match atomCheck x.x.ty va u s with
  | (s, .bad c d) => raise c d u s
  | (s, .migrating) => parkThread .migrate {} u s
  | (s, .ok _) =>
    let s' := bufferRed va (AForm.operands ⟨x, 3, false⟩ (s.teamOf u) (s.thr u)) u s
    if s'.waits then parkThread .migrate {} u s else s'
/-- RED (R246). -/
def execRed (x : WA) (s : State) : Out State :=
  issue (AForm.use ⟨x, 3, false⟩) false (fun us s =>
    let s := (us.filter (fun u => s.det (s.thr u).team)).foldl (fun s u => redThread x u s) s
    atomThreads ⟨x, 3, false⟩ (us.filter (fun u => !s.det (s.thr u).team)) s) s

/-! ### Flush points (R248) -/

/-- AFLUSH: in a DET launch the thread parks with cause KEYS at its next flush point; outside, it is FENCE.AR.DEV (R248). Wait.mode is 0 for AFLUSH and 1 for KEYS. -/
def flushPoint (us : List Nat) (s : State) : State :=
  let (det, free) := us.partition (fun u => s.det (s.thr u).team)
  let s := det.foldl (fun s u => parkThread .keys { mode := 0 } u (s.modThr u (fun t => { t with flushPoints := t.flushPoints + 1 }))) s
  fence true 3 free s
/-- AFLUSH (R248). -/
def execAflush (x : SA) (s : State) : Out State := issue (use4 x.e [] []) false flushPoint s
/-- AFLUSH, 96-bit (R248). -/
def execAflushWide (x : WA) (s : State) : Out State := issue (use12 x.e x.x.g [] []) false flushPoint s

/-- Every team of the launch has been placed. -/
def Grid.allPlaced (g : Grid) : Bool := decide (g.teamCount ≤ g.next)
/-- The k-th flush point is reached: each placed team's live threads are parked at their k-th flush-point instruction (R248). -/
def flushReached (grid k : Nat) (s : State) : Bool :=
  let ths := (s.teamsOf grid).flatMap (fun tm => s.liveOf tm.uid)
  (s.gr grid).allPlaced && !ths.isEmpty &&
  ths.all (fun (t : Thread) => t.flushPoints == k && t.phase == .parked .keys && t.stopped.isNone)
/-- The launch's end: every team placed and exited, every task done (R127, R316). -/
def gridEnded (grid : Nat) (s : State) : Bool :=
  (s.gr grid).allPlaced && (s.teamsOf grid).isEmpty && (s.tasks.filter (fun t => t.grid == grid)).isEmpty &&
  (s.grids.filter (fun g => g.parent == grid && !g.done)).isEmpty
/-- Core through which a launch's flush translates. -/
def flushCore (grid : Nat) (s : State) : Nat := match (s.gr grid).reds.head? with | some r => r.core | none => match (s.teamsOf grid).head? with | some t => t.core | none => 0
/-- The record of a flush address that faults; it names no thread (R382). -/
def flushFault (grid : Nat) (kind va : Nat) (s : State) : State :=
  let g := s.gr grid
  let (id, s) := s.fresh
  let r : FaultRec :=
    ⟨id, .engineFault, { kind := kind ||| markRedLog, addr := va }, g.fn, g.ctx, grid, g.gridId, 0, 0xFFFFFFFF, 0, 0, 0, [], s.gtick, 0, false, s.issue, 0, false, none, 0⟩
  { s with faults := s.faults ++ [r] }
/-- The reductions of one address are applied in the order of (team, thread, sequence) and written once; a fault leaves them in the log (R127, R382). -/
def flushAddr (grid core va size : Nat) (s : State) : State :=
  let g := s.gr grid
  let mine := (g.reds.filter (fun r => r.va == va && elemBytes r.o.ty == size))
  match xlateUnit .read core g.fn g.ctx va s with
  | (s, .bad _ m) => flushFault grid (accEngineRead ||| m) va s
  | (s, .ok _ _ _) =>
    match xlateUnit .write core g.fn g.ctx va s with
    | (s, .bad _ m) => flushFault grid (accEngineWrite ||| m) va s
    | (s, .ok pa _ _) =>
      if !(regionOf pa).local then flushFault grid (accEngineWrite ||| markUnbacked) va s
      else
        let ordered := sortBy (fun r => (r.team * 1024 + r.tid) * 2 ^ 32 + r.seq) mine
        let (s, bs, _) := readL2 g.fn pa size s
        let (new, fl) := ordered.foldl (fun (a : Nat × Flags) r => let (v, f) := r.o.apply a.1; (v, a.2 ||| f)) (leNat bs, 0)
        let (s, tw) := acceptWrite g.fn (pa / 128) (cellsOf pa (leBytes new size)) (mine.any (·.bad)) s
        s.modGrid grid (fun g => { g.wrote (pa / 128) tw s.gtick with
          reds := g.reds.filter (fun r => !(r.va == va && elemBytes r.o.ty == size))
          flagWord := g.flagWord ||| fl
          flushTick := some (max tw (g.flushTick.getD 0)) })
/-- Every buffered address of a launch, with its width, once. -/
def flushAddrs (g : Grid) : List (Nat × Nat) :=
  (sortBy (·.1) (g.reds.map (fun r => (r.va, elemBytes r.o.ty)))).foldl (fun l p => if l.contains p then l else l ++ [p]) []
/-- A flush of a launch: every address is applied or reported (R127). -/
def flush (grid : Nat) (s : State) : State :=
  let core := flushCore grid s
  let s := s.modGrid grid (fun g => { g with flushTick := some (max s.gtick (g.flushTick.getD 0)) })
  (flushAddrs (s.gr grid)).foldl (fun s p => flushAddr grid core p.1 p.2 s) { s with issue := s.issue + 1 }
/-- REDUCTION_FLUSH: at a reached flush point, or at the launch's end, the reductions are applied (R127, R248). -/
def execReductionFlush (grid : Nat) (s : State) : Out State :=
  let g := s.gr grid
  if !g.done && g.det && g.flushTick.isNone && (flushReached grid (g.flushed + 1) s || (gridEnded grid s && !g.ended)) then unitDone (flush grid s)
  else .fault .notPending
/-- A flush record that has not been acted on (R382). -/
def flushOpen (grid : Nat) (s : State) : Bool :=
  s.faults.any (fun r => r.grid == grid && r.cause == .engineFault && r.threads.isEmpty && r.teamId == 0xFFFFFFFF)
/-- REDUCTION_FLUSH_COMPLETE: at GTICK ≥ every Tw the waiters at AFLUSH go on; waiters at KEYS request a keystone (R127, R248, R296). -/
def execReductionFlushComplete (grid : Nat) (s : State) : Out State :=
  let g := s.gr grid
  match g.flushTick with
  | none => .fault .notPending
  | some tick =>
    if s.gtick < tick then .fault .notPending
    else if flushOpen grid s || !g.lost.isEmpty then .fault .heldBack
    else if flushReached grid (g.flushed + 1) s then
      let ths := (s.teamsOf grid).flatMap (fun tm => s.liveOf tm.uid)
      let keys := ths.any (fun t => t.wait.mode == 1)
      let s := s.modGrid grid (fun g => { g with flushTick := none, flushed := g.flushed + 1, keysReq := g.keysReq || keys })
      done (ths.foldl (fun s (t : Thread) =>
        if t.wait.mode == 0 then s.modThr t.uid Thread.wake else s.modThr t.uid (fun t => { t with keysTick := max s.gtick 1 })) s)
    else done (s.modGrid grid (fun g => { g with flushTick := none, ended := true }))

end Sys2Proof.Machine
end

