-- ==== Sys2Proof/Machine/Copy.lean ====
section
/-! DEFINITION. The copy engine (spec/03_memory_hierarchy.md R67 to R71; spec/11_memory_instructions.md R252 to R254; spec/06_memory_ordering.md R128). -/
namespace Sys2Proof.Machine

/-- A copy not yet submitted. -/
def copyOf (x : WA) (u : Nat) (s : State) : Copy :=
  let t := s.thr u
  let tm := s.tm t.team
  let g := s.gr tm.grid
  let fn := rn x.x.fn
  let dg := fn % 2 == 0
  let sg := decide (fn < 2)
  ⟨0, u, tm.core, t.team, g.fn, g.ctx, dg, if dg then (t.rpair (rn x.a)).toNat else (t.rv (rn x.a)).toNat,
   sg, if sg then (t.rpair (rn x.x.c)).toNat else (t.rv (rn x.x.c)).toNat,
   (x.ob.val tm t).toNat, 0, 0, 0, false, false, none, false, t.pc⟩
/-- A global range is not canonical or wraps past 2^64 (R252). -/
def rangeBad (a n : Nat) : Bool := n != 0 && (decide (2 ^ 64 < a + n) || !canonical a || !canonical (a + n - 1))
/-- The refusals of a CPY, in the order of R252's table. -/
def copyRefusal (c : Copy) (window : Nat) : Option (Cause × Detail) :=
  if (!c.dstGlobal && decide (window < c.dst + c.len)) then some (.bounds, { kind := accEngineWrite ||| markCopy, addr := c.dst })
  else if (!c.srcGlobal && decide (window < c.src + c.len)) then some (.bounds, { kind := accEngineRead ||| markCopy, addr := c.src })
  else if c.dstGlobal && rangeBad c.dst c.len then some (.pageProtection, { kind := accEngineWrite ||| markCopy ||| markNonCanonical, addr := c.dst })
  else if c.srcGlobal && rangeBad c.src c.len then some (.pageProtection, { kind := accEngineRead ||| markCopy ||| markNonCanonical, addr := c.src })
  else if c.dstGlobal == c.srcGlobal && c.len != 0 && overlaps c.dst c.len c.src c.len then some (.bounds, { kind := accEngineWrite ||| markCopy, addr := c.dst })
  else none
/-- Requests in a core's copy queue, 32 at most; one that has stopped at a fault keeps its place until it completes (R67, R69). -/
def queued (core : Nat) (s : State) : Nat := (s.copies.filter (fun c => c.core == core)).length
/-- CPY in one thread (R253). -/
def copyThread (x : WA) (u : Nat) (s : State) : State :=
  let c := copyOf x u s
  match copyRefusal c (s.teamOf u).scratchSize with
  | some (cause, d) => raise cause d u s
  | none =>
    if c.len = 0 then s.modThr u (fun t => t.wpair (rn x.d) (BitVec.ofNat 64 (s.viewOf c.fn)))
    else if 32 ≤ queued c.core s then parkThread .copyWait {} u s
    else
      let (id, s) := s.fresh
      let (p, s) := newPromise (s.viewOf c.fn) s
      let s := { s with copies := s.copies ++ [{ c with id := id, promise := p }] }
      s.modThr u (fun t => (t.wpair (rn x.d) (BitVec.ofNat 64 p)).countUp .cp)
/-- CPY (R252, R253). -/
def execCpy (x : WA) (s : State) : Out State :=
  let fn := rn x.x.fn
  let rv := regs (rn x.a) (fn % 2 == 0) ++ regs (rn x.x.c) (decide (fn < 2))
  issue { (use12 x.e x.x.g rv (regs (rn x.d) true)).reads [x.ob] false with cls := .cp } false
    (fun us s => us.foldl (fun s u => copyThread x u s) s) s

/-- CPYQ in one thread: passed promises are revised, then the largest is answered, or the view (R254). -/
def copyQuery (d u : Nat) (s : State) : State :=
  let s := revisePromises u s
  let mine := s.copies.filter (fun c => c.th == u)
  let v := match mine with | [] => s.viewOf (s.gridOf u).fn | _ => mine.foldl (fun m c => max m c.promise) 0
  s.modThr u (fun t => t.wpair d (BitVec.ofNat 64 v))
/-- CPYQ (R254). -/
def execCpyq (x : SA) (s : State) : Out State :=
  issue (use4 x.e [] (regs (rn x.d) true)) false (fun us s => us.foldl (fun s u => copyQuery (rn x.d) u s) s) s
/-- CPYQ, 96-bit (R254). -/
def execCpyqWide (x : WA) (s : State) : Out State :=
  issue (use12 x.e x.x.g [] (regs (rn x.d) true)) false (fun us s => us.foldl (fun s u => copyQuery (rn x.d) u s) s) s

/-! ### The engine's work -/

/-- What the engine meets at its next bytes: bytes, a pause (a migrating page), or a fault. -/
inductive Moved where
  | bytes (bs : List (Byte × Bool))
  | pause
  | bad (cause : Cause) (d : Detail)
  deriving DecidableEq, Repr
/-- Source bytes of a thread's engine work are still to be written: by a store or scatter of the thread older than the work, or by the write-back of a team's dirty line whose page migrates (R68, R128, R131, R34). -/
def sourceLate (before th team va n : Nat) (s : State) : Bool :=
  s.allReqs.any (fun q => decide (q.id < before) && q.cls == .st && q.threads.contains th && extentsMeet [(0, va, n)] q.work.extents) ||
  (s.dirtyOf team).any (fun x => !x.held && decide (x.line * 128 < va + n) && decide (va < x.line * 128 + 128))
/-- n source bytes of a copy from an offset, within one 128-byte line where global, each with its poison: the team's dirty lines are written back, and older stores of the thread have performed (R68, R128, R135). -/
def readSrc (c : Copy) (off n : Nat) (s : State) : State × Moved :=
  if !c.srcGlobal then
    let tm := s.tm c.team
    (s, .bytes ((span (c.src + off) n).map (fun o => (tm.scratch.read o, tm.scratchPoison.contains o))))
  else
    let va := c.src + off
    let s := writeBackRange c.team va n s
    if sourceLate c.id c.th c.team va n s then (s, .pause)
    else
      match xlateUnit .read c.core c.fn c.ctx va s with
      | (s, .bad cause m) => (s, .bad cause { kind := accEngineRead ||| markCopy ||| m, addr := va, prog := c.prog })
      | (s, .ok pa _ _) =>
        if s.isMigrating c.fn c.ctx va then (s, .pause)
        else
          let (s, bs, p) := readPlace c.fn pa n s
          (s, .bytes (bs.map (·, p)))
/-- One piece of a copy, at most up to a 128-byte boundary of either global range, is read and written; true where the copy moved. -/
def movePiece (c : Copy) (n : Nat) (s : State) : State × Copy × Bool :=
  let dst := c.dst + c.prog
  let toEnd := if c.srcGlobal then 128 - (c.src + c.prog) % 128 else 128
  let k := min (min n toEnd) (min (c.len - c.prog) (128 - dst % 128))
  match readSrc c c.prog k s with
  | (s, .pause) => (s, c, false)
  | (s, .bad cause d) => (s, { c with fault := some (cause, d) }, false)
  | (s, .bytes bs) =>
    let data := bs.map (·.1)
    if c.dstGlobal then
      if s.isMigrating c.fn c.ctx dst then (s, c, false)
      else
        match xlateUnit .write c.core c.fn c.ctx dst s with
        | (s, .bad cause m) => (s, { c with fault := some (cause, { kind := accEngineWrite ||| markCopy ||| m, addr := dst, prog := c.prog }) }, false)
        | (s, .ok pa _ _) =>
          let (s, tw) := writePlace c.fn c.ctx pa data (bs.any (·.2)) s
          (s.modThr c.th (Thread.traced (pa / 128) dst tw s.gtick), { c with prog := c.prog + k, maxTw := max c.maxTw tw }, true)
    else
      let bad := ((span dst k).zip bs).filterMap (fun p => if p.2.2 then some p.1 else none)
      let s := s.modTeam c.team (fun tm => { tm with
        scratch := tm.scratch.writeN dst data
        scratchPoison := tm.scratchPoison.filter (fun o => !(decide (dst ≤ o) && decide (o < dst + k))) ++ bad })
      (s, { c with prog := c.prog + k }, true)
/-- Pieces of a copy until n bytes are moved, or it pauses or faults. -/
def moveBytes : Nat → Nat → Copy → State → State × Copy
  | 0, _, c, s => (s, c)
  | fuel + 1, n, c, s =>
    if n = 0 || c.prog == c.len || c.fault.isSome then (s, c)
    else
      let p := c.prog
      match movePiece c n s with
      | (s, c, true) => moveBytes fuel (n - (c.prog - p)) c s
      | (s, c, false) => (s, c)
/-- Two requests' ranges conflict: they share a byte, other than source against source (R70). -/
def copiesConflict (a b : Copy) : Bool :=
  let meets (ag bg : Bool) (x y : Nat) : Bool := ag == bg && (if ag then a.fn == b.fn && a.ctx == b.ctx else a.team == b.team) && overlaps x a.len y b.len
  meets a.dstGlobal b.dstGlobal a.dst b.dst || meets a.dstGlobal b.srcGlobal a.dst b.src || meets a.srcGlobal b.dstGlobal a.src b.dst
/-- A request may start: the lock table has two entries, fewer than four requests move, and no earlier request conflicts (R67, R70). -/
def mayStart (c : Copy) (s : State) : Bool :=
  let on := s.copies.filter (fun d => d.core == c.core && !d.stopped)
  c.started || (decide ((on.filter (·.locked)).length < 32) && decide ((on.filter (·.started)).length < 4) &&
    !on.any (fun d => decide (d.id < c.id) && copiesConflict c d))
/-- COPY_START: a queued copy has its lock entries and moves n bytes (R70, R253). -/
def execCopyStart (copy n : Nat) (s : State) : Out State :=
  match s.copies.find? (fun c => c.id == copy) with
  | none => .fault .notPending
  | some c =>
    if c.stopped || c.fault.isSome || c.prog == c.len then .fault .notPending
    else if !mayStart c s then .fault .heldBack
    else
      let (s, c) := moveBytes (n + 1) n { c with started := true, locked := true } s
      done { s with copies := s.copies.map (fun d => if d.id == copy then c else d) }
/-- A copy leaves the queue: its locks are released, its thread's CP falls, and threads that found the queue full issue afresh (R67, R253). -/
def endCopy (c : Copy) (s : State) : State :=
  let s := { s with copies := s.copies.filter (fun d => d.id != c.id) }
  let s := s.modThr c.th (fun t => t.countDown .cp)
  { s with threads := s.threads.map (fun (t : Thread) =>
      if t.waitsIn (.parked .copyWait) && (s.tm t.team).core == c.core then (if t.wait.go then t.wake else t.wakeAfresh) else t) }
/-- COPY_COMPLETE: every byte is performed and GTICK is at or above every Tw (R67). -/
def execCopyComplete (copy : Nat) (s : State) : Out State :=
  match s.copies.find? (fun c => c.id == copy) with
  | none => .fault .notPending
  | some c =>
    if c.stopped || c.prog != c.len || decide (s.gtick < c.maxTw) then .fault .notPending
    else done (endCopy c s)
/-- COPY_FAULT_STOP: a copy that met a translation fault stops with its progress, and its thread takes the deferred fault (R69, R324). -/
def execCopyFaultStop (copy : Nat) (s : State) : Out State :=
  match s.copies.find? (fun c => c.id == copy) with
  | none => .fault .notPending
  | some c =>
    match c.fault with
    | none => .fault .notPending
    | some (cause, d) =>
      if c.stopped then .fault .notPending
      else if (s.thr c.th).phase == .faulted || (s.thr c.th).stopped.isSome then .fault .heldBack
      else
        let s := { s with copies := s.copies.map (fun (e : Copy) => if e.id == copy then { e with stopped := true, started := false, locked := false } else e) }
        done (raiseDeferred cause d c.th c.pc copy { s with issue := s.issue + 1 })

end Sys2Proof.Machine
end

