-- ==== Sys2Proof/Machine/Engine.lean ====
section
/-! DEFINITION. Accesses of the device's own units to virtual and physical memory (spec/02_address_spaces.md R28; spec/06_memory_ordering.md R125; spec/10_control_and_integer_instructions.md R228; spec/14_scheduling.md R305, R307, R316). -/
namespace Sys2Proof.Machine

/-- Number under which the units of the base die translate; no core has it. -/
def baseDie : Nat := 512

/-- What a unit's read of virtual memory meets: bytes and whether one is poisoned, or the fault with its mark and address. -/
inductive Got where
  | bytes (bs : List Byte) (poisoned : Bool)
  | bad (cause : Cause) (mark addr : Nat)
  deriving DecidableEq, Repr

/-- Bytes read by a unit from a virtual address on under a permission, line by line. -/
def readVaFrom (need : Need) (core fn ctx : Nat) : Nat → Nat → Nat → State → State × Got
  | 0, _, _, s => (s, .bytes [] false)
  | fuel + 1, va, n, s =>
    if n = 0 then (s, .bytes [] false)
    else
      let k := min n (128 - va % 128)
      match xlateUnit need core fn ctx va s with
      | (s, .bad c m) => (s, .bad c m va)
      | (s, .ok pa _ _) =>
        let (s, bs, p) := readPlace fn pa k s
        match readVaFrom need core fn ctx fuel (va + k) (n - k) s with
        | (s, .bytes r q) => (s, .bytes (bs ++ r) (p || q))
        | r => r
/-- n bytes read by a unit. -/
def readVa (core fn ctx va n : Nat) (s : State) : State × Got := readVaFrom .read core fn ctx (n / 128 + 2) va n s

/-- What a unit's write meets: its largest Tw, or the fault. -/
inductive Put where
  | tw (t : Nat)
  | bad (cause : Cause) (mark addr : Nat)
  deriving DecidableEq, Repr
/-- Bytes written by a unit from a virtual address on under a permission, line by line; a fault leaves the earlier lines written. -/
def writeVaFrom (need : Need) (core fn ctx : Nat) : Nat → Nat → List Byte → State → State × Put
  | 0, _, _, s => (s, .tw 0)
  | fuel + 1, va, bs, s =>
    if bs.isEmpty then (s, .tw 0)
    else
      let k := 128 - va % 128
      match xlateUnit need core fn ctx va s with
      | (s, .bad c m) => (s, .bad c m va)
      | (s, .ok pa _ _) =>
        let (s, tw) := writePlace fn ctx pa (bs.take k) false s
        match writeVaFrom need core fn ctx fuel (va + k) (bs.drop k) s with
        | (s, .tw t) => (s, .tw (max tw t))
        | r => r
/-- Bytes written by a unit. -/
def writeVa (core fn ctx va : Nat) (bs : List Byte) (s : State) : State × Put := writeVaFrom .write core fn ctx (bs.length / 128 + 2) va bs s

/-- The physical line of an address that a unit has just accessed. -/
def lineAt (core fn ctx va : Nat) (s : State) : Nat :=
  match tlbHit core fn ctx va s with
  | some t => (entryAddr t.leaf.toNat + va % t.size) / 128
  | none => 0
/-- A 64-bit counter of a context by the rules of R228: 8-byte aligned, MT 00 or 01, permission. -/
def counterPa (n : Need) (core fn ctx va : Nat) (s : State) : State × (Nat ⊕ (Cause × Nat)) :=
  if va % 8 != 0 then (s, .inr (.alignment, 0))
  else
    match xlateUnit n core fn ctx va s with
    | (s, .bad c m) => (s, .inr (c, m))
    | (s, .ok pa mt _) => if 2 ≤ mt then (s, .inr (.pageProtection, markCounter)) else (s, .inl pa)
/-- An atomic add to a physical 64-bit counter: at its home slice, with its Tw, or outside the device (R125). -/
def addPa (fn ctx pa inc : Nat) (s : State) : State × Nat :=
  if (regionOf pa).local then acceptWrite fn (pa / 128) (cellsOf pa (leBytes ((leNat (s.mem.bytes.readN pa 8) + inc) % 2 ^ 64) 8)) false s
  else (s.leave fn ctx pa (.atomic ⟨4, 0, .i64, 0, inc, 0⟩), s.gtick)
/-- An atomic add to a counter of a context. -/
def addVa (core fn ctx va inc : Nat) (s : State) : State × Put :=
  match counterPa .atomic core fn ctx va s with
  | (s, .inr (c, m)) => (s, .bad c m va)
  | (s, .inl pa) => let (s, tw) := addPa fn ctx pa inc s; (s, .tw tw)

/-- Physical memory that a unit may read or write for a function: backed, local and owned by it (R27, R28). -/
def State.physOk (s : State) (fn pa n : Nat) : Bool := s.backedLocal pa && s.backedLocal (pa + n - 1) && s.ownsRange fn pa n
/-- n bytes of a function's physical memory; none where they cannot be read or a line is poisoned. -/
def readPhys (fn pa n : Nat) (s : State) : State × Option (List Byte) :=
  if !s.physOk fn pa n then (s, none)
  else
    let (s, bs, p) := readL2 fn pa n s
    (s, if p then none else some bs)
/-- Bytes written to a function's physical memory; nothing where it may not be written. -/
def writePhys (fn pa : Nat) (bs : List Byte) (s : State) : State × Nat :=
  if !s.physOk fn pa bs.length then (s, s.gtick) else acceptBytes fn pa bs s

/-- ENGINE_FAULT of a grid's own work, which no thread issued (R316, R382). -/
def gridFault (grid : Nat) (d : Detail) (s : State) : State :=
  let g := s.gr grid
  let (id, s) := s.fresh
  let r : FaultRec :=
    ⟨id, .engineFault, d, g.fn, g.ctx, grid, g.gridId, 0, 0xFFFFFFFF, 0, 0, 0, [], s.gtick, 0, false, s.issue, 0, false, none, 0⟩
  { s with faults := s.faults ++ [r] }

end Sys2Proof.Machine
end

