-- ==== Sys2Proof/Machine/Launch.lean ====
section
/-! DEFINITION. Contexts, work queues, launches, placement, tasks and completion (spec/14_scheduling.md R305 to R319; spec/10_control_and_integer_instructions.md R226, R227; spec/07_execution_model.md R137 to R140, R143; spec/03_memory_hierarchy.md R43 to R45). -/
namespace Sys2Proof.Machine

/-! ### Contexts (R305) -/

/-- A descriptor that breaks Table 14.1. -/
def contextBad (b : List Byte) : Bool :=
  let slice := fieldOf b 44 4
  fieldOf b 0 8 % 4096 != 0 || decide (4096 ≤ fieldOf b 8 4) || decide (2 ^ 20 ≤ fieldOf b 12 4) || fieldOf b 16 8 % 4096 != 0 ||
  decide (128 < fieldOf b 24 4) || decide (2 ≤ fieldOf b 28 4) || fieldOf b 40 4 == 0 || decide (4096 < fieldOf b 40 4) ||
  (slice != 0 && (decide (slice < 10000) || decide (100000000 < slice))) || fieldOf b 56 72 != 0
/-- A context is live while it has an unretired grid or a saved slot, and until it is killed. -/
def State.ctxLive (s : State) (fn ctx : Nat) : Bool :=
  s.grids.any (fun g => g.fn == fn && g.ctx == ctx && !g.killed) || s.slots.any (fun (x : SaveSlot) => x.fn == fn && x.ctx == ctx)
/-- PA of the image area. -/
def Context.imageArea (c : Context) : Nat := fieldOf c.desc 48 8
/-- TSLICE in ticks. -/
def Context.slice (c : Context) : Nat := let t := fieldOf c.desc 44 4; if t = 0 then 2000000 else t
/-- Reads a context descriptor and NSLOT: the context is new, unchanged, or refused (R305); the context's id where it is admitted. -/
def admitContext (fn pa : Nat) (s : State) : State × Option Nat :=
  match readPhys fn pa 128 s with
  | (s, none) => (s, none)
  | (s, some b) =>
    if pa % 64 != 0 || contextBad b then (s, none)
    else
      match readPhys fn (fieldOf b 48 8) 20 s with
      | (s, none) => (s, none)
      | (s, some h) =>
        let ctx := fieldOf b 8 4
        let n := fieldOf h 16 4
        if 1024 < n then (s, none)
        else if s.ctxLive fn ctx then
          (s, match s.context? fn ctx with | some c => if c.desc == b && c.nslot == n then some ctx else none | none => none)
        else
          ({ s with contexts := ⟨fn, ctx, b, n, fieldOf h 0 4, none, none⟩ :: s.contexts.filter (fun c => !(c.fn == fn && c.ctx == ctx)) }, some ctx)

/-! ### Work queues (R306, R307) -/

/-- A queue as it stands before any write of its registers. -/
def Queue.blank (q fn : Nat) : Queue := ⟨q, fn, 0, 0, 0, 0, 0, 0, 0, 0, 0, false, 0, false, false, false, 0⟩
/-- The queue of a number. -/
def State.queue (s : State) (q : Nat) : Queue := (s.queues.find? (fun x => x.q == q)).getD (Queue.blank q (lookupD 0 s.qown q))
/-- Sets a queue. -/
def State.setQueue (s : State) (x : Queue) : State := { s with queues := x :: s.queues.filter (fun y => y.q != x.q) }
/-- PA of the queue descriptor. -/
def Queue.desc (x : Queue) : Nat := bitsOf x.qdesc.toNat 63 6 * 64
/-- Entries of the ring that are not consumed. -/
def Queue.used (x : Queue) : Nat := (x.tail + 2 ^ 32 - x.head) % 2 ^ 32
/-- A queue is pending (R307). -/
def Queue.pending (x : Queue) : Bool := x.qdesc.getLsbD 0 && x.err == 0 && x.used != 0 && !x.held
/-- A pending queue is served only while its owner byte holds its function (R306). -/
def State.serves (s : State) (x : Queue) : Bool := x.pending && lookupD 0 s.qown x.q == x.fn
/-- A queue's slot is given up where its ring is empty (R307). -/
def Queue.settled (x : Queue) : Queue := { x with resident := x.resident && x.used != 0 }
/-- A queue stops with an error, which QSTAT names (Table 14.2); vector 2 tells its function (R358, notes/assumptions 75). -/
def queueError (q code : Nat) (s : State) : State :=
  let x := s.queue q
  let s := s.setQueue { x with err := code, errAt := x.head % 2 ^ 24, resident := false }
  ((writePhys x.fn (x.desc + 28) (leBytes (x.head % 2 ^ 24 + code * 2 ^ 24) 4) s).1).send (.msix x.fn 2)
/-- The descriptor breaks Table 14.2 (DEDUCED: ERR = DESC). -/
def queueBad (b : List Byte) : Bool :=
  let n := fieldOf b 16 4
  fieldOf b 8 8 % 64 != 0 || decide (n < 16) || decide (65536 < n) || decide (Nat.land n (n - 1) ≠ 0) || decide (8 ≤ fieldOf b 24 4) || fieldOf b 32 32 != 0
/-- The admission read: the context the queue names (R305). -/
def admitQueue (q : Nat) (s : State) : State × Bool :=
  let x := s.queue q
  match admitContext x.fn x.ctxdesc s with
  | (s, some ctx) => (s.setQueue { x with admitted := true, ctxId := ctx }, true)
  | (s, none) => (queueError q 1 s, false)
/-- QDESC_WRITE: the queue descriptor is read and the queue goes on from its HEAD (R306, R307). -/
def execQdescWrite (fn q : Nat) (v : Dword) (s : State) : Out State :=
  if lookupD 0 s.qown q != fn || 4096 ≤ q then done s
  else
    let x := { s.queue q with fn := fn, qdesc := v &&& 0xFFFFFFFFFFFFFFC1, admitted := false, held := false }
    if !v.getLsbD 0 then done (s.setQueue { x with resident := false })
    else
      match readPhys fn x.desc 64 s with
      | (s, none) => done (queueError q 1 (s.setQueue x))
      | (s, some b) =>
        let x := { x with ctxdesc := fieldOf b 0 8, ring := fieldOf b 8 8, rsize := fieldOf b 16 4, head := fieldOf b 20 4, prio := fieldOf b 24 4,
                          err := fieldOf b 31 1, errAt := fieldOf b 28 3 }
        let x := x.settled
        let s := s.setQueue x
        if queueBad b then done (queueError q 1 s)
        else if x.err != 0 then done (s.setQueue { x with resident := false })
        else if x.rsize < x.used then done (queueError q 2 s)
        else if x.resident then done (admitQueue q s).1
        else
          let (n, s) := s.fresh
          done (s.setQueue { x with order := n })
/-- QDOOR_WRITE: the tail is set (R306); a tail too far stops the queue (R307). -/
def execQdoorWrite (fn q : Nat) (v : Dword) (s : State) : Out State :=
  if lookupD 0 s.qown q != fn || 4096 ≤ q then done s
  else
    let x := s.queue q
    let y := Queue.settled { x with fn := fn, tail := v.toNat % 2 ^ 32 }
    let (n, s) := s.fresh
    let s := s.setQueue (if x.pending then y else { y with order := n })
    if y.qdesc.getLsbD 0 && y.err == 0 && decide (y.rsize < y.used) then done (queueError q 2 s) else done s
/-- QUEUE_SLOT_TAKE: the first pending queue without a slot takes a free one, by QPRIO and then by its doorbell (R307). -/
def execQueueSlotTake (q : Nat) (s : State) : Out State :=
  let x := s.queue q
  let rank (y : Queue) : Nat := (7 - y.prio) * 2 ^ 64 + y.order
  if !s.serves x || x.resident then .fault .notPending
  else if 256 ≤ (s.queues.filter (·.resident)).length || s.queues.any (fun y => s.serves y && !y.resident && decide (rank y < rank x)) then .fault .heldBack
  else if x.admitted then done (s.setQueue { x with resident := true })
  else
    match admitQueue q s with
    | (s, true) => done (s.setQueue { s.queue q with resident := true })
    | (s, false) => done s
/-- The context of a queue, as its admission read it (R305). -/
def queueCtx (q : Nat) (s : State) : Nat := (s.queue q).ctxId
/-- An entry is consumed: HEAD advances; an empty ring gives up the slot (R307). -/
def consume (q : Nat) (s : State) : State :=
  let x := s.queue q
  let x := Queue.settled { x with head := (x.head + 1) % 2 ^ 32 }
  let s := s.setQueue x
  (writePhys x.fn (x.desc + 20) (leBytes x.head 4) s).1
/-- A reserved field of an entry is not 0 (Table 14.3). -/
def entryBad (b : List Byte) : Bool :=
  decide (3 < fieldOf b 0 1) || decide (1 < fieldOf b 1 1) || fieldOf b 2 6 != 0 || fieldOf b 24 40 != 0 || (fieldOf b 0 1 == 1 && fieldOf b 16 8 != 0)
/-- The head entry of a resident queue, when it may be consumed as operation op (R307). -/
def queueEntry (op q : Nat) (f : Nat → Nat → State → Out State) (s : State) : Out State :=
  let x := s.queue q
  if !s.serves x || !x.resident then .fault .notPending
  else
    match readPhys x.fn (x.ring + 64 * (x.head % x.rsize)) 64 s with
    | (s, none) => done (queueError q 2 s)
    | (s, some b) =>
      if entryBad b then (if op == 0 || fieldOf b 0 1 == op then done (queueError q 2 s) else .fault .notPending)
      else if fieldOf b 0 1 != op then .fault .notPending
      else if fieldOf b 1 1 == 1 && (x.unreported || s.grids.any (fun g => g.queue == some q)) then .fault .heldBack
      else f (fieldOf b 8 8) (fieldOf b 16 8) s
/-- QUEUE_ENTRY_NOP (R307). -/
def execQueueEntryNop (q : Nat) (s : State) : Out State := queueEntry 0 q (fun _ _ s => done (consume q s)) s
/-- A WAIT entry's counter is read at L2 against its threshold; unsatisfied, the queue gives up its slot where another waits for one (R307). -/
def queueWait (q : Nat) (s : State) : Out State :=
  queueEntry 2 q (fun va thr s =>
    let x := s.queue q
    match counterPa .read baseDie x.fn (queueCtx q s) va s with
    | (s, .inr _) => done (queueError q 2 s)
    | (s, .inl pa) =>
      let (s, bs, p) := readL2 x.fn pa 8 s
      if p then done (queueError q 2 s)
      else if thr ≤ leNat bs then done (consume q s)
      else if s.queues.any (fun y => s.serves y && !y.resident) then done (s.setQueue { x with resident := false })
      else done s) s
/-- QUEUE_ENTRY_WAIT (R307). -/
def execQueueEntryWait (q : Nat) (s : State) : Out State := queueWait q s
/-- QUEUE_WAIT_REREAD: a write to the counter's line makes the queue read it again (R307). -/
def execQueueWaitReread (q : Nat) (s : State) : Out State := queueWait q s
/-- QUEUE_ENTRY_ADD: a release of system scope, which covers nothing of the queue's own, then the atomic add (R307, R125). -/
def execQueueEntryAdd (q : Nat) (s : State) : Out State :=
  queueEntry 3 q (fun va inc s =>
    let x := s.queue q
    match addVa baseDie x.fn (queueCtx q s) va inc s with
    | (s, .bad _ _ _) => done (queueError q 2 s)
    | (s, .tw _) => unitDone (consume q s)) s

/-! ### Launch records (R308, R309) -/

/-- Bytes of scratchpad that a split leaves (R45). -/
def scratchOf (split : Nat) : Nat := (4096 - 512 * (split + 1)) * 1024
/-- A window in bytes (R16). -/
def windowOf (n : Nat) : Nat := (n + 255) / 256 * 256
/-- Register words a team takes in every lane (R43). -/
def wordsOf (size bregs xblk : Nat) : Nat := (size + 31) / 32 * bregs + 16 * xblk
/-- Role ranges of a record: (first, last, role), valid ones (R143). -/
def rolesOf (b : List Byte) : List (Nat × Nat × Nat) :=
  (List.range 8).filterMap (fun i =>
    let r := fieldOf b (104 + 8 * i) 8
    if r.testBit 36 then some (bitsOf r 15 0, bitsOf r 31 16, bitsOf r 35 32) else none)
/-- Two ranges of a list overlap, or one is reversed. -/
def rolesBad : List (Nat × Nat × Nat) → Bool
  | [] => false
  | (a, b, r) :: l => decide (b < a) || r == 0 || l.any (fun p => decide (a ≤ p.2.1) && decide (p.1 ≤ b)) || rolesBad l
/-- A field breaks Table 14.4, or a team does not fit an empty core (R309, R43). -/
def launchBad (b : List Byte) : Bool :=
  let f (o n : Nat) := fieldOf b o n
  let grid := f 8 4 * f 12 4 * f 16 4
  let team := f 20 2 * f 22 2 * f 24 2
  f 0 8 % 4 != 0 || grid == 0 || decide (2 ^ 31 < grid) || team == 0 || decide (1024 < team) ||
  decide (f 26 1 < 16) || decide (128 < f 26 1) || f 26 1 % 8 != 0 || decide (32 < f 27 1) || decide (3 < f 28 1) || decide (32 ≤ f 29 1) || decide (1 < f 31 1) ||
  decide (scratchOf (f 28 1) < f 32 4) || (f 40 4 != 0 && (decide (f 40 4 < 8) || decide (512 < f 40 4))) ||
  decide (512 < f 44 4) || (f 44 4 != 0 && !(f 29 1).testBit 0) || decide (65536 < f 88 4) || f 168 88 != 0 ||
  (List.range 8).any (fun i => decide (2 ^ 37 ≤ f (104 + 8 * i) 8)) || rolesBad (rolesOf b) ||
  decide (4096 < wordsOf team (f 26 1) (f 27 1))
/-- The world a launch declares is bound to its context (R90). -/
def worldBound (fn ctx w : Nat) (s : State) : Bool := s.worlds.any (fun x => x.fn == fn && x.id == w && fieldOf x.desc 8 2 == ctx)
/-- Cores in a function's guaranteed clusters (R312, R344). -/
def guaranteedCores (fn : Nat) (s : State) : Nat := 4 * (s.clusters.filter (fun (c : Cluster) => c.v && c.owner == fn && !c.margin)).length
/-- Eight-byte fields of some bytes. -/
def dwordsOf (n : Nat) (b : List Byte) : List Dword := (List.range n).map (fun i => BitVec.ofNat 64 (fieldOf b (8 * i) 8))
/-- Each record that HTAB names can be read and is well formed (R309). -/
def recordsOk (core fn ctx : Nat) : List Dword → State → State × Bool
  | [], s => (s, true)
  | a :: l, s =>
    if a = 0 then recordsOk core fn ctx l s
    else
      match readVa core fn ctx a.toNat 64 s with
      | (s, .bytes b false) => if a.toNat % 64 == 0 && !layMalformed b then recordsOk core fn ctx l s else (s, false)
      | (s, _) => (s, false)
/-- What acceptance reads: constants, handle table, log capacity, N (R205, R238, R247, R312); none where the launch is refused (R309). -/
def checkLaunch (core fn ctx : Nat) (b : List Byte) (s : State) : State × Option (List Dword × List Dword × Nat × Nat) :=
  let det := (fieldOf b 29 1).testBit 0
  let n := if det && fieldOf b 44 4 != 0 then fieldOf b 44 4 else guaranteedCores fn s
  if launchBad b || (fieldOf b 31 1 == 1 && !worldBound fn ctx (fieldOf b 30 1) s) || (det && n == 0) then (s, none)
  else
    match readVa core fn ctx (fieldOf b 48 8) 512 s with
    | (s, .bytes c false) =>
      let tab : State × Got := if fieldOf b 56 8 = 0 then (s, .bytes (leBytes 0 128) false) else readVa core fn ctx (fieldOf b 56 8) 128 s
      match tab with
      | (s, .bytes h false) =>
        match recordsOk core fn ctx (dwordsOf 16 h) s with
        | (s, false) => (s, none)
        | (s, true) =>
          if det && fieldOf b 96 8 != 0 then
            match readVa core fn ctx (fieldOf b 96 8) 8 s with
            | (s, .bytes l false) => (s, some (dwordsOf 64 c, dwordsOf 16 h, leNat l, n))
            | (s, _) => (s, none)
          else (s, some (dwordsOf 64 c, dwordsOf 16 h, 0, n))
      | (s, _) => (s, none)
    | (s, _) => (s, none)
/-- A GRIDID from a number on that no unretired grid of the context has (Table 10.5). -/
def freeGridId (fn ctx n : Nat) (s : State) : Nat :=
  let used := (s.grids.filter (fun g => g.fn == fn && g.ctx == ctx)).map (·.gridId)
  (((List.range (used.length + 1)).map (fun i => (n + i) % 2 ^ 32)).find? (fun k => !used.contains k)).getD 0
/-- A grid enters with what acceptance read: it has its GRIDID and its place in the acceptance order (R309). -/
def enterLaunch (fn ctx depth parent : Nat) (queue pendingOn : Option Nat) (b : List Byte) (r : List Dword × List Dword × Nat × Nat) (s : State) : State :=
  let (uid, s) := s.fresh
  let det := (fieldOf b 29 1).testBit 0
  let n := r.2.2.2
  { s with grids := s.grids ++ [
    { Grid.blank with
      uid := uid, gridId := freeGridId fn ctx uid s, fn := fn, ctx := ctx, depth := depth, parent := parent, queue := queue, record := b, consts := r.1, htab := r.2.1,
      ncores := n, logCap := r.2.2.1, pendingOn := pendingOn, waitSince := s.gtick, done := false,
      lmap := if det then List.replicate n 0 else [], lnext := if det then List.replicate n 0 else [],
      world := if fieldOf b 31 1 = 1 then some (fieldOf b 30 1) else none }] }
/-- QUEUE_ENTRY_LAUNCH: the record is read through the queue's context, and the launch is accepted, or refused with ERR = RECORD (R307 to R309). -/
def execQueueEntryLaunch (q : Nat) (s : State) : Out State :=
  queueEntry 1 q (fun va _ s =>
    let x := s.queue q
    let ctx := queueCtx q s
    let refuse (s : State) : Out State := done (queueErrorConsumed q s)
    if va % 256 != 0 then refuse s
    else
      match readVa baseDie x.fn ctx va 256 s with
      | (s, .bytes b false) =>
        match checkLaunch baseDie x.fn ctx b s with
        | (s, some r) => done (consume q (enterLaunch x.fn ctx 0 0 (some q) none b r s))
        | (s, none) => refuse s
      | (s, _) => refuse s) s
where
  /-- A refused LAUNCH is consumed, and QSTAT names it (R307). -/
  queueErrorConsumed (q : Nat) (s : State) : State :=
    let x := s.queue q
    let s := queueError q 3 s
    consume q s |>.setQueue { s.queue q with head := (x.head + 1) % 2 ^ 32, resident := false }

/-! ### LAUNCH (R226, R311) -/

/-- Grids in a core's pending-launch queue. -/
def pendingLaunches (core : Nat) (s : State) : Nat := (s.grids.filter (fun g => g.pendingOn == some core)).length
/-- LAUNCH after its release. -/
def launchThread (va u : Nat) (s : State) : State :=
  let g := s.gridOf u
  let tm := s.teamOf u
  match readVa tm.core g.fn g.ctx va 256 s with
  | (s, .bad c m a) => raise c { kind := accLoad ||| m, addr := a } u s
  | (s, .bytes _ true) => raise .poison { kind := accLoad, addr := va } u s
  | (s, .bytes b false) =>
    match checkLaunch tm.core g.fn g.ctx b s with
    | (s, none) => raise .reservedField { kind := accLoad, addr := va } u s
    | (s, some r) =>
      if 4 ≤ pendingLaunches tm.core s then parkThread .launchFull {} u s
      else enterLaunch g.fn g.ctx (g.depth + 1) g.uid none (some tm.core) b r s
/-- What refuses a LAUNCH before its release: TID, DEPTH, alignment (R226, R138). -/
def launchCheck (a u : Nat) (s : State) : State :=
  let t := s.thr u
  let va := (t.rpair a).toNat
  if t.tid != 0 then raise .reservedField {} u s
  else if 10 ≤ (s.gridOf u).depth then raise .depthLimit {} u s
  else if va % 256 != 0 then raise .alignment { kind := accLoad, addr := va } u s
  else s
/-- LAUNCH (R226). -/
def execLaunch (x : WA) (s : State) : Out State :=
  issue { use12 x.e x.x.g (regs (rn x.a) true) [] with kind := accLoad } false (fun us s =>
    withRelease 3 (fun u s => launchThread ((s.thr u).rpair (rn x.a)).toNat u s) us (us.foldl (fun s u => launchCheck (rn x.a) u s) s)) s

/-! ### Tasks (R227, R317 to R319) -/

/-- A task record breaks Table 14.6 (R317). -/
def taskBad (b : List Byte) : Bool :=
  fieldOf b 0 8 % 4 != 0 || fieldOf b 16 8 % 8 != 0 || ((fieldOf b 40 4).testBit 31 && fieldOf b 40 4 % 2 ^ 20 == 0) ||
  fieldOf b 48 8 % 64 != 0 || fieldOf b 56 8 % 64 != 0
/-- Read range (start, bytes). -/
def Task.rd (t : Task) : Nat × Nat := (fieldOf t.bytes 48 8, 64 * fieldOf t.bytes 44 2)
/-- Write range. -/
def Task.wr (t : Task) : Nat × Nat := (fieldOf t.bytes 56 8, 64 * fieldOf t.bytes 46 2)
/-- A task takes an entry of the fallback table (R318). -/
def Task.ranged (t : Task) : Bool := t.rd.2 != 0 || t.wr.2 != 0
/-- A later task conflicts with an earlier one (R318); an empty range overlaps nothing. -/
def tasksConflict (early late : Task) : Bool :=
  let meets (a b : Nat × Nat) : Bool := a.2 != 0 && b.2 != 0 && overlaps a.1 a.2 b.1 b.2
  meets late.wr early.rd || meets late.wr early.wr || meets late.rd early.wr
/-- Counters of a task: (VA, threshold). -/
def Task.deps (t : Task) : List (Nat × Nat) :=
  (List.range 4).filterMap (fun i =>
    let d := fieldOf t.bytes (24 + 4 * i) 4
    if d.testBit 31 then some (fieldOf t.bytes 16 8 + 8 * bitsOf d 30 20, bitsOf d 19 0) else none)
/-- Each counter is read at L2; one that cannot be read has not met its threshold. -/
def depsMet (core fn ctx : Nat) : List (Nat × Nat) → State → State × Bool
  | [], s => (s, true)
  | (va, thr) :: l, s =>
    match counterPa .read core fn ctx va s with
    | (s, .inr _) => (s, false)
    | (s, .inl pa) =>
      let (s, bs, p) := readL2 fn pa 8 s
      if !p && decide (thr ≤ leNat bs) then depsMet core fn ctx l s else (s, false)
/-- A task that awaits eligibility: its counters are read again, and where all the conditions of R318 hold at once it is eligible. -/
def tryTask (id : Nat) (s : State) : State :=
  match s.tasks.find? (fun t => t.id == id) with
  | none => s
  | some t =>
    let g := s.gr t.grid
    if t.since.isSome then s
    else
      let (s, ok) := depsMet (4 * t.cluster) g.fn g.ctx t.deps s
      let clear := t.entry && !s.tasks.any (fun (e : Task) => e.cluster == t.cluster && decide (e.id < id) && e.entry && e.ranged && tasksConflict e t)
      { s with tasks := s.tasks.map (fun (t : Task) => if t.id == id then { t with ready := ok, since := if ok && clear then some s.gtick else none } else t) }
/-- Table entries are given in acceptance order, and the tasks of the cluster are looked at again (R318). -/
def refreshTasks (cluster : Nat) (s : State) : State :=
  let mine := s.tasks.filter (fun (t : Task) => t.cluster == cluster)
  let used := (mine.filter (fun t => t.entry && t.ranged)).length
  let waiting := ((mine.filter (fun t => !t.entry)).take (256 - used)).map (·.id)
  let s := { s with tasks := s.tasks.map (fun (t : Task) => if waiting.contains t.id then { t with entry := true } else t) }
  mine.foldl (fun s t => tryTask t.id s) s
/-- TASK_COUNTER_REREAD: a write to a counter's line makes the task's counters be read again (R318). -/
def execTaskCounterReread (task : Nat) (s : State) : Out State :=
  match s.tasks.find? (fun t => t.id == task) with
  | none => .fault .notPending
  | some t => if t.since.isSome then .fault .notPending else done (tryTask task s)
/-- SPAWN after its release: the record is read, and the task is queued if queue and pool have room (R227, R317). -/
def spawnThread (pred va u : Nat) (s : State) : State :=
  let g := s.gridOf u
  let tm := s.teamOf u
  match readVa tm.core g.fn g.ctx va 64 s with
  | (s, .bad c m a) => raise c { kind := accLoad ||| m, addr := a } u s
  | (s, .bytes _ true) => raise .poison { kind := accLoad, addr := va } u s
  | (s, .bytes b false) =>
    let cl := clusterOf tm.core
    if taskBad b then raise .reservedField { kind := accLoad, addr := va } u s
    else if 4096 ≤ (s.tasks.filter (fun (t : Task) => t.cluster == cl && t.team.isNone)).length || g.field 88 4 ≤ (s.tasks.filter (fun (t : Task) => t.grid == g.uid)).length then
      s.modThr u (fun t => t.wp pred false)
    else
      let (id, s) := s.fresh
      let t : Task := ⟨id, g.uid, cl, b, false, false, none, none, none⟩
      let s := { s with tasks := s.tasks ++ [{ t with entry := !t.ranged }] }
      let s := (if g.det then setNdet tm.uid s else s).modThr u (fun t => t.wp pred true)
      refreshTasks cl s
/-- A task record that is not 64-byte aligned (R227). -/
def spawnCheck (a u : Nat) (s : State) : State :=
  let va := ((s.thr u).rpair a).toNat
  if va % 64 != 0 then raise .alignment { kind := accLoad, addr := va } u s else s
/-- SPAWN (R227): a release of cluster scope, then the task. -/
def execSpawn (x : WA) (s : State) : Out State :=
  issue { use12 x.e x.x.g (regs (rn x.a) true) [] with wp := [rn x.d % 8], kind := accLoad } false (fun us s =>
    withRelease 2 (fun u s => spawnThread (rn x.d % 8) ((s.thr u).rpair (rn x.a)).toNat u s) us (us.foldl (fun s u => spawnCheck (rn x.a) u s) s)) s

/-! ### Fitting and placing a team (R310, R312, R43 to R45, R140) -/

/-- A cluster belongs to a running function's placement set (R344, R349); the clusters of a memory-only or changing deck do not (R353). -/
def inPartition (fn cluster : Nat) (s : State) : Bool :=
  let c := s.cluster cluster
  c.v && nth true s.decks (cluster / 16) && !s.halted.any (fun h => h.1 == fn) && !(s.topo.2.1 != 0 && s.topo.2.2 == cluster / 16) && ((c.owner == fn && c.cstate == 0) || (c.borrower == fn && c.cstate == 1))
/-- Teams resident on a core. -/
def residents (core : Nat) (s : State) : List Team := s.teams.filter (fun t => t.core == core && t.saved.isNone)
/-- The bank of a core that holds a context, or a free one. -/
def bankFor (core fn ctx : Nat) (s : State) : Option Nat :=
  match [0, 1].find? (fun b => (s.bank core b).ctx == some (fn, ctx)) with
  | some b => some b
  | none => [0, 1].find? (fun b => (s.bank core b).ctx.isNone)
/-- Slots a team takes in every lane. -/
def slotsOf (size : Nat) : Nat := (size + 31) / 32
/-- A team of a grid fits a core in every respect but the banks, in bank b where one is named (R310). -/
def fitsCore (core : Nat) (bank : Option Nat) (g : Grid) (size : Nat) (s : State) : Bool :=
  let here := residents core s
  let mine := match bank with | some b => here.filter (fun (t : Team) => t.bank == b) | none => []
  let words (t : Team) : Nat := let h := s.gr t.grid; wordsOf t.size h.bregs (h.field 27 1)
  inPartition g.fn (clusterOf core) s && decide (core < 512) &&
  decide ((mine.map (fun (t : Team) => slotsOf t.size)).sum + slotsOf size ≤ 64) &&
  decide ((mine.map words).sum + wordsOf size g.bregs (g.field 27 1) ≤ 4096) &&
  decide (mine.length + 1 ≤ 64) &&
  decide ((here.map Team.scratchSize).sum + windowOf (g.field 32 4) ≤ scratchOf (g.field 28 1)) &&
  (here.isEmpty || (s.core core).split == g.field 28 1)
/-- A team of a grid fits a core (R310). -/
def fits (core : Nat) (g : Grid) (size : Nat) (s : State) : Bool :=
  match bankFor core g.fn g.ctx s with
  | none => false
  | some b => fitsCore core (some b) g size s
/-- Physical core of a logical core, none where it is not mapped yet (R312). -/
def Grid.home (g : Grid) (lc : Nat) : Option Nat := match nth 0 g.lmap lc with | 0 => none | n + 1 => some n
/-- The next team of a grid for a core: the lowest unplaced one, or, with DET, the lowest of the core's logical cores (R310, R312). -/
def nextTeam (g : Grid) (core : Nat) : Option Nat :=
  if !g.det then (if g.next < g.teamCount then some g.next else none)
  else
    ((List.range g.ncores).filterMap (fun lc =>
      let n := lc + g.ncores * nth 0 g.lnext lc
      if n < g.teamCount && (g.home lc == none || g.home lc == some core) then some n else none)).min?
/-- The grid's next team fits a core. -/
def placeable (g : Grid) (core : Nat) (s : State) : Bool := (nextTeam g core).isSome && fits core g g.teamSize s
/-- Order of grids with unplaced teams: PRIORITY, DEPTH, acceptance (R310). -/
def Grid.rank (g : Grid) : Nat := ((7 - g.priority) * 16 + (10 - g.depth)) * 2 ^ 64 + g.uid
/-- Grids that wait for placement, in order. -/
def waitingGrids (s : State) : List Grid := sortBy Grid.rank (s.grids.filter (fun g => !g.allPlaced && !g.killed))
/-- Role of a thread (R143). -/
def roleOf (g : Grid) (tid : Nat) : Nat := match (rolesOf g.record).find? (fun r => decide (r.1 ≤ tid) && decide (tid ≤ r.2.1)) with | some r => r.2.2 | none => 0
/-- The core is made ready for a team: an empty core takes the split after its dirty lines are written back, its clean lines going where the split changes; the context takes its bank (R45, R313). -/
def openCore (core bank : Nat) (g : Grid) (s : State) : State :=
  let s := if (residents core s).isEmpty then
      let s := (s.mem.l1.filter (fun x => x.core == core && !x.dirty.isEmpty)).foldl (fun s x => writeBack x s) s
      let s := if (s.core core).split == g.field 28 1 then s else { s with mem := { s.mem with l1 := s.mem.l1.filter (fun x => x.core != core || !x.dirty.isEmpty) } }
      s.setCore { s.core core with split := g.field 28 1 }
    else s
  let s := if (s.bank core bank).ctx.isNone then s.setBank core bank { Bank.reset with ctx := some (g.fn, g.ctx), since := s.gtick } else s
  let c := s.core core
  if (nth Bank.reset c.banks c.active).ctx.isNone then s.setCore { c with active := bank, since := s.gtick } else s
/-- The k lowest free thread slots of a bank's lanes (R140). -/
def freeSlots (core bank k : Nat) (s : State) : List Nat :=
  let used := ((residents core s).filter (fun (t : Team) => t.bank == bank)).flatMap (fun t => (s.threadsOf t.uid).map Thread.slot)
  ((List.range 64).filter (fun n => !used.contains n)).take k
/-- The lowest free resident team slot of a bank. -/
def freeTeamSlot (core bank : Nat) (s : State) : Nat :=
  ((List.range 64).filter (fun n => !((residents core s).any (fun (t : Team) => t.bank == bank && t.slot == n)))).headD 0
/-- A thread at its first instruction (R137). -/
def startThread (uid team tid slot role : Nat) (pc : Dword) (v : List Word) : Thread :=
  { Thread.blank with uid := uid, team := team, tid := tid, lane := tid % 32, slot := slot, role := role, pc := pc, npc := pc, v := v, phase := .ready, under := .ready }
/-- MODE at a team's start (Table 10.6). -/
def startMode (g : Grid) : Word := BitVec.ofNat 32 (3 + (if g.det then 16 else 0) + (if g.safe then 32 else 0))
/-- LEASE at a team's start (Table 14.4). -/
def startLease (g : Grid) : Nat := let l := g.field 92 4; if l = 0 then 2048 else max 256 (min 65536 l)
/-- A team at its start (R137). -/
def startTeam (uid id x y z size core bank slot : Nat) (g : Grid) (task : Bool) : Team :=
  { Team.blank with
    uid := uid, grid := g.uid, id := id, x := x, y := y, z := z, size := size, core := core, bank := bank, slot := slot
    s := List.replicate 64 0, h := List.replicate 16 none, mode := startMode g, lease := startLease g, view := 0xFFFFFFFF, tcut := 0x39000000, near := 0x3E4CCCCD
    scratchSize := windowOf (g.field 32 4), pool := List.replicate 32 (List.range (g.field 27 1)), task := task }
/-- The handles of a team are bound from HTAB; the first fault strikes the whole team before it issues (R238). -/
def bindHandles (team : Nat) (s : State) : State :=
  let g := s.gr (s.tm team).grid
  let r := (g.htab.zip (List.range 16)).foldl (fun (r : State × Option (Cause × Detail)) (p : Dword × Nat) =>
    if p.1 = 0 || (nth none (s.tm team).h p.2).isSome then r
    else
      match fetchLayout team p.1.toNat r.1 with
      | (s, .inl _) => (s.modTeam team (fun tm => { tm with h := setNth none tm.h p.2 (some p.1.toNat) }), r.2)
      | (s, .inr f) => (s, match r.2 with | none => some f | f => f)) (s, none)
  match r with
  | (s, none) => s
  | (s, some (c, d)) => raiseWide c d team s
/-- A team starts on a core: threads of the given entry PCs and registers, in their lanes and slots, handles bound (R137, R140, R238). -/
def startOn (core id x y z size : Nat) (task : Bool) (pc : Dword) (init : Nat → List Word) (g : Grid) (s : State) : State × Nat :=
  match bankFor core g.fn g.ctx s with
  | none => (s, 0)
  | some bank =>
    let s := openCore core bank g s
    let slots := freeSlots core bank (slotsOf size) s
    let ts := freeTeamSlot core bank s
    let team := s.nextId
    let s := { s with
      nextId := s.nextId + size + 1
      teams := s.teams ++ [startTeam team id x y z size core bank ts g task]
      threads := s.threads ++ (List.range size).map (fun tid =>
        startThread (team + 1 + tid) team tid (nth 0 slots (tid / 32)) (if task then 0 else roleOf g tid) pc
          ((init tid) ++ List.replicate (g.bregs - (init tid).length) 0)) }
    (bindHandles team { s with issue := s.issue + 1 }, team)
/-- An entry of a core's pending-launch queue is free: the first thread that parked for it issues its LAUNCH afresh (R226). -/
def wakeLaunch (core : Nat) (s : State) : State :=
  match (sortBy (fun t => t.wait.order) (s.threads.filter (fun t => t.waitsIn (.parked .launchFull) && (s.tm t.team).core == core && (s.tm t.team).saved.isNone))).head? with
  | some t => s.modThr t.uid Thread.wakeAfresh
  | none => s
/-- A placed team is counted; with the grid's last team its pending entry leaves (R311). -/
def countPlaced (grid n core : Nat) (s : State) : State :=
  let s := s.modGrid grid (fun g =>
    let lc := n % max 1 g.ncores
    { g with
      next := g.next + 1, hold := false, waitSince := s.gtick
      lmap := if g.det then setNth 0 g.lmap lc (core + 1) else g.lmap
      lnext := if g.det then setNth 0 g.lnext lc (nth 0 g.lnext lc + 1) else g.lnext })
  let g := s.gr grid
  match g.pendingOn with
  | some c => if g.allPlaced then wakeLaunch c (s.modGrid grid (fun g => { g with pendingOn := none })) else s
  | none => s
/-- A team saved alone, with a save slot of its own. -/
def savedAlone (tm : Team) (s : State) : Bool := tm.saved.isSome && s.slots.any (fun x => x.team && x.teams.contains tm.uid)
/-- A team saved alone, the cause of one of whose threads has cleared, waits to be placed again (R314). -/
def resumable (team : Nat) (s : State) : Bool :=
  let fn := (s.gr (s.tm team).grid).fn
  (s.liveOf team).any (fun t =>
    match t.phase with
    | .parked .ctrWait => s.mem.watches.any (fun w => w.1 == team && w.2.2)
    | .parked .launchFull => (List.range 512).any (fun c => decide (pendingLaunches c s < 4))
    | .sleep => decide (t.wait.tick ≤ s.viewOf fn)
    | .parked _ | .barrier | .convWait | .claimWait | .regroupWait | .counterWait => false
    | _ => true)
/-- The tile space of a slot permits a core: it is live on the core's cluster, or saved while the context has no other space live there (R86). -/
def spacePermits (x : SaveSlot) (core : Nat) (s : State) : Bool :=
  match x.space.bind (fun n => s.spaces.find? (fun p => p.id == n)) with
  | none => true
  | some sp =>
    match sp.cluster with
    | some c => c == clusterOf core
    | none => !s.spaces.any (fun p => p.fn == x.fn && p.ctx == x.ctx && p.cluster == some (clusterOf core))
/-- A core on which a team saved alone may resume: one that it fits, that its tile space permits and that holds its logical core, or can (R86, R312, R314). -/
def mayResume (tm : Team) (core : Nat) (s : State) : Bool :=
  let g := s.gr tm.grid
  fits core g tm.size s && s.slots.all (fun x => !(x.team && x.teams.contains tm.uid) || spacePermits x core s) && (!g.det || tm.task || g.home (tm.id % g.ncores) == none || g.home (tm.id % g.ncores) == some core)
/-- A team of the grid that was saved alone may resume on some core. -/
def resumesSome (g : Grid) (s : State) : Bool :=
  (s.teamsOf g.uid).any (fun t => savedAlone t s && resumable t.uid s && (List.range 512).any (fun c => mayResume t c s))
/-- Task teams gathered and not placed: cluster, serial, tasks (R319). -/
def formedTeams (s : State) : List (Nat × Nat × List Task) :=
  let l := s.tasks.filter (fun (t : Task) => t.formed.isSome && t.team.isNone && !(s.gr t.grid).killed)
  let ids := l.foldl (fun (k : List (Nat × Nat)) t => let p := (t.cluster, t.formed.getD 0); if k.contains p then k else k ++ [p]) []
  ids.map (fun p => (p.1, p.2, l.filter (fun t => t.cluster == p.1 && t.formed == some p.2)))
/-- A gathered task team fits a core of its cluster (R319). -/
def taskFits (core : Nat) (x : Nat × Nat × List Task) (s : State) : Bool :=
  clusterOf core == x.1 && (match x.2.2 with | t :: _ => fits core (s.gr t.grid) x.2.2.length s | [] => false)
/-- Some team of the grid that waits fits some core: a resumed one, a task team, or its next one (R310, R314, R319). -/
def waitsAndFits (g : Grid) (s : State) : Bool :=
  (!g.allPlaced && (List.range 512).any (fun c => placeable g c s)) || resumesSome g s ||
  (formedTeams s).any (fun x => (x.2.2.head?.map (·.grid)) == some g.uid && (List.range 512).any (fun c => taskFits c x s))
/-- A grid that comes first in the order has a team that fits, or holds the later ones back (R310). -/
def preceded (g : Grid) (s : State) : Bool :=
  s.grids.any (fun h => decide (h.rank < g.rank) && !h.killed && !h.done && ((!h.allPlaced && h.hold) || waitsAndFits h s))
/-- TEAM_PLACE: the next team of the first grid whose next team fits some core is placed on a core that it fits, after that grid's resumed teams (R310, R311, R312, R314). -/
def execTeamPlace (core : Nat) (s : State) : Out State :=
  match (waitingGrids s).find? (fun g => (List.range 512).any (fun c => placeable g c s)) with
  | none => .fault .notPending
  | some g =>
    if !placeable g core s then .fault .notPending
    else if preceded g s || resumesSome g s then .fault .heldBack
    else
      match nextTeam g core with
      | none => .fault .notPending
      | some n =>
        let gx := g.field 8 4
        let gy := g.field 12 4
        let (s, _) := startOn core n (n % gx) (n / gx % gy) (n / (gx * gy)) g.teamSize false (BitVec.ofNat 64 g.entry) (fun _ => []) g s
        done (countPlaced g.uid n core s)
/-- PLACEMENT_HOLD: the first grid's next team has fitted no core for 100,000 ticks, and later grids are held back (R310). -/
def execPlacementHold (s : State) : Out State :=
  match waitingGrids s with
  | [] => .fault .notPending
  | g :: _ =>
    if !g.hold && decide (g.waitSince + 100000 ≤ s.gtick) && !(List.range 512).any (fun c => placeable g c s) then
      done (s.modGrid g.uid (fun g => { g with hold := true }))
    else .fault .notPending
/-- LOGICAL_CORE_REMAP: a logical core with no resident team moves to another core of the partition (R312). -/
def execLogicalCoreRemap (grid lc core : Nat) (s : State) : Out State :=
  let g := s.gr grid
  if g.det && !g.done && decide (lc < g.ncores) && decide (core < 512) && inPartition g.fn (clusterOf core) s &&
      !(s.teamsOf grid).any (fun t => t.saved.isNone && !t.task && t.id % g.ncores == lc) then
    done (s.modGrid grid (fun g => { g with lmap := setNth 0 g.lmap lc (core + 1) }))
  else .fault .notPending

/-! ### Task teams (R319) -/

/-- Eligible tasks of the oldest eligible task's launch and ENTRY, in acceptance order, up to 32. -/
def gathered (cluster : Nat) (s : State) : List Task :=
  let el := s.tasks.filter (fun (t : Task) => t.cluster == cluster && t.since.isSome && t.formed.isNone && !(s.gr t.grid).killed)
  match el with
  | [] => []
  | t :: _ => (el.filter (fun u => u.grid == t.grid && u.bytes.take 8 == t.bytes.take 8)).take 32
/-- Tasks become a task team with the cluster's next serial; no further task joins it (R319). -/
def gather (cluster : Nat) (l : List Task) (s : State) : State :=
  let c := s.cluster cluster
  let ids := l.map (·.id)
  let s := { s with tasks := s.tasks.map (fun (t : Task) => if ids.contains t.id then { t with formed := some c.serial } else t) }
  s.setCluster { c with serial := c.serial + 1 }
/-- A gathered task team is placed on a core of its cluster, in the order of R310 (R319). -/
def placeTasks (core : Nat) (x : Nat × Nat × List Task) (s : State) : State :=
  match x.2.2 with
  | [] => s
  | t :: _ =>
    let g := s.gr t.grid
    let l := x.2.2
    let init (k : Nat) : List Word :=
      let a := match l[k]? with | some t => BitVec.ofNat 64 (fieldOf t.bytes 8 8) | none => 0
      [lowWord a, highWord a, BitVec.ofNat 32 k]
    let (s, team) := startOn core (2 ^ 31 + x.2.1 % 2 ^ 31) (x.2.1 % 2 ^ 32) 0xFFFFFFFF 0xFFFFFFFF l.length true (BitVec.ofNat 64 (fieldOf t.bytes 0 8)) init g s
    let ids := l.map (·.id)
    { s with tasks := s.tasks.map (fun (t : Task) => if ids.contains t.id then { t with team := some team } else t) }.modGrid g.uid (fun g => { g with taskTeams := g.taskTeams + 1 })
/-- The first gathered task team that fits the core and that no earlier grid precedes. -/
def nextTasks (core : Nat) (s : State) : Option (Nat × Nat × List Task) :=
  (formedTeams s).find? (fun x => taskFits core x s && (match x.2.2 with | t :: _ => !preceded (s.gr t.grid) s | [] => false))
/-- Tasks are gathered into a team, which is placed on the core where it fits it, and else waits (R319, R310). -/
def formTasks (cluster core : Nat) (l : List Task) (s : State) : Out State :=
  if clusterOf core != cluster then .fault .notPending
  else
    let s := if l.isEmpty then s else gather cluster l s
    match nextTasks core s with
    | some x => done (placeTasks core x s)
    | none => if l.isEmpty then .fault .notPending else done s
/-- TASK_TEAM_FORM: 32 tasks are eligible, or the device forms the team earlier than it must; a team already formed is placed (R319). -/
def execTaskTeamForm (cluster core : Nat) (s : State) : Out State := formTasks cluster core (gathered cluster s) s
/-- TASK_GATHER_TIMEOUT: 1,024 ticks after the oldest became eligible (R319). -/
def execTaskGatherTimeout (cluster core : Nat) (s : State) : Out State :=
  let l := gathered cluster s
  match (l.filterMap (·.since)).min? with
  | some t => if t + 1024 ≤ s.gtick then formTasks cluster core l s else .fault .notPending
  | none => .fault .notPending

/-! ### Completion (R139, R316) -/

/-- CP-class requests of a team's threads (R139). -/
def cpPending (team : Nat) (s : State) : Bool :=
  s.copies.any (fun c => c.team == team) ||
  s.reqs.any (fun r => r.team == team && (match r.work with | .dispatch _ _ _ _ _ _ _ => true | _ => false)) ||
  s.faults.any (fun r => r.team == team && r.deferred)
/-- Pins of a team are released at its retirement (R251). -/
def unpinTeam (team : Nat) (s : State) : State :=
  { s with mem := { s.mem with l2 := s.mem.l2.map (fun l => match l.pin with | some (_, _, t, _) => if t == team then { l with pin := none } else l | none => l) } }
/-- A view closes; the last view of an unpublished generation frees its tables (R108). -/
def closeView (team : Nat) (s : State) : State :=
  { s with worlds := s.worlds.map (fun (w : World) =>
      let gens := (w.viewTeams.filter (fun v => v.1 == team)).map (·.2)
      let tabs := w.tables.map (fun (t : Tables) => if gens.contains t.gen then { t with views := t.views - 1 } else t)
      { w with
        viewTeams := w.viewTeams.filter (fun v => v.1 != team)
        tables := tabs.filter (fun (t : Tables) => t.views != 0 || t.gen == w.cur) }) }
/-- Completed tasks add their increments and free their entries (R319). -/
def finishTasks (team : Nat) (s : State) : State :=
  let mine := s.tasks.filter (fun (t : Task) => t.team == some team)
  let tm := s.tm team
  let g := s.gr tm.grid
  let s := mine.foldl (fun s t =>
    let d := fieldOf t.bytes 40 4
    if d.testBit 31 then
      match addVa tm.core g.fn g.ctx (fieldOf t.bytes 16 8 + 8 * bitsOf d 30 20) (bitsOf d 19 0) s with
      | (s, .tw _) => s
      | (s, .bad _ m a) => gridFault g.uid { kind := accEngineWrite ||| m, addr := a } s
    else s) s
  let s := { s with tasks := s.tasks.filter (fun (t : Task) => t.team != some team) }
  refreshTasks (clusterOf tm.core) s
/-- TEAM_RETIRE: a failed or waiting exit release goes on; once it has completed and no CP-class work is left the team retires (R139, R171). -/
def execTeamRetire (team : Nat) (s : State) : Out State :=
  let tm := s.tm team
  match tm.exitRel with
  | none => .fault .notPending
  | some r =>
    if !r.started || teamLost team s then
      if s.faults.any (fun r => r.team == team && (r.cause == .fenceLost || r.cause == .poison) && r.threads.isEmpty) then .fault .heldBack
      else
        let s := advanceExit team { s with issue := s.issue + 1 }
        done s
    else if s.gtick < r.target then .fault .notPending
    else if cpPending team s || tm.saved.isSome then .fault .heldBack
    else
      let s := finishTasks team s
      let s := closeView team (unpinTeam team s)
      let s := s.modGrid tm.grid (fun g => { g with
        retired := g.retired + 1
        flagWord := g.flagWord ||| tm.flagWord
        tstat := g.tstat ||| (tm.teamstat &&& 7)
        stale := min 0xFFFFFFFF (g.stale + bitsOf tm.teamstat.toNat 15 8) })
      let s := { s with teams := s.teams.filter (fun t => t.uid != team), threads := s.threads.filter (fun t => t.team != team) }
      unitDone s

/-- The completion record (Table 14.5). -/
def completionRecord (g : Grid) (tick : Nat) : List Byte :=
  leBytes (if g.killed then 2 else 1) 4 ++ leBytes (g.flagWord.toNat % 32) 4 ++ leBytes g.tstat.toNat 4 ++ leBytes g.stale 4 ++ leBytes g.retired 8 ++
  leBytes g.faults 4 ++ leBytes 0 4 ++ leBytes tick 8 ++ leBytes 0 24
/-- An armed snapshot's cut at the next retirement on a queue is due (R355). -/
def cutQueue (g : Grid) (s : State) : State :=
  match g.queue with
  | none => s
  | some q => { s with snaps := s.snaps.map (fun p => if p.fn == g.fn && p.cut.isNone && p.due.isNone && bitsOf p.ctl 25 24 == 1 && bitsOf p.ctl 11 0 == q then { p with due := some g.ctx } else p) }
/-- The grid leaves: a context with nothing left is no longer live; its tile spaces and its banks go (R305, R73). -/
def removeGrid (grid : Nat) (s : State) : State :=
  let g := s.gr grid
  let s := cutQueue g { s with grids := s.grids.filter (fun h => h.uid != grid) }
  if s.ctxLive g.fn g.ctx then s
  else
    { s with
      spaces := s.spaces.filter (fun x => !(x.fn == g.fn && x.ctx == g.ctx))
      cores := s.cores.map (fun c => { c with banks := c.banks.map (fun b => if b.ctx == some (g.fn, g.ctx) then Bank.reset else b) }) }
/-- A write of the launch's end faults: it is reported, no later step runs, and the queue is never told (R316). -/
def failEnd (grid : Nat) (d : Detail) (s : State) : State :=
  let s := match (s.gr grid).queue with
    | some q => { s with queues := s.queues.map (fun (x : Queue) => if x.q == q then { x with unreported := true } else x) }
    | none => s
  removeGrid grid (gridFault grid d s)
/-- The launch's end: every team and task done, flushed where DET, or killed (R138, R127, R102). -/
def mayRetire (grid : Nat) (s : State) : Bool :=
  let g := s.gr grid
  !g.done && (g.killed || (gridEnded grid s && (!g.det || g.reds.isEmpty || g.ended) && g.flushTick.isNone)) &&
  (s.teamsOf grid).isEmpty && !s.grids.any (fun h => h.parent == grid)
/-- A host launch's retirement is reported to its queue, and vector 2 tells the function (R316 item 4, R358, notes/assumptions 75). -/
def reportEnd (grid : Nat) (s : State) : State :=
  let g := s.gr grid
  let s := removeGrid grid s
  if g.queue.isSome then s.send (.msix g.fn 2) else s
/-- The last steps: the counter add, and the grid is gone (R316 items 3 and 4). -/
def finishGrid (grid : Nat) (s : State) : State :=
  let g := s.gr grid
  if g.field 64 8 = 0 then reportEnd grid s
  else
    match addVa baseDie g.fn g.ctx (g.field 64 8) (g.field 72 8) s with
    | (s, .tw _) => reportEnd grid s
    | (s, .bad _ m a) => failEnd grid { kind := accEngineWrite ||| m, addr := a } s
/-- The completion record is written at STATUS; until its Tw it can be lost (R316, R134). -/
def writeCompletion (grid : Nat) (s : State) : State × Put :=
  let g := s.gr grid
  let va := g.field 80 8
  match writeVa baseDie g.fn g.ctx va (completionRecord g s.gtick) s with
  | (s, .tw t) =>
    let mark (va : Nat) (s : State) : State := s.modGrid grid (Grid.wrote (lineAt baseDie g.fn g.ctx va s) t s.gtick)
    (mark (va + 63) (mark va s), .tw t)
  | r => r
/-- GRID_RETIRE: the launch's end requests its keystone; then the completion record is written, its release waits for the record's Tw, and the completion counter is added to (R316, R102). A write that faults is reported, and no later step runs; over a lost write no completion is reported (R134). -/
def execGridRetire (grid : Nat) (s : State) : Out State :=
  let g := s.gr grid
  if !mayRetire grid s then .fault .notPending
  else if !g.lost.isEmpty then .fault .heldBack
  else
    match g.closing with
    | some tick => if s.gtick < tick then .fault .notPending else unitDone (finishGrid grid s)
    | none =>
      let busy := match g.world with | some w => !g.killed && s.worlds.any (fun (x : World) => x.fn == g.fn && x.id == w && (x.keyReq.contains grid || x.taken.contains grid)) | none => false
      if busy then .fault .heldBack
      else if g.world.isSome && !g.killed && !g.endKey then
        let s := s.modGrid grid (fun g => { g with endKey := true })
        done { s with worlds := s.worlds.map (fun (x : World) => if x.fn == g.fn && some x.id == g.world then { x with keyReq := x.keyReq ++ [grid] } else x) }
      else if g.field 80 8 = 0 then unitDone (finishGrid grid s)
      else
        match writeCompletion grid s with
        | (s, .tw t) => if t ≤ s.gtick then unitDone (finishGrid grid s) else unitDone (s.modGrid grid (fun g => { g with closing := some t }))
        | (s, .bad _ m a) => unitDone (failEnd grid { kind := accEngineWrite ||| m, addr := a } s)

end Sys2Proof.Machine
end

