-- ==== Sys2Proof/Machine/Matrix.lean ====
section
/-! DEFINITION. The matrix engine: signing, the reservation table, side arrays, operand fetches, passes and accumulator moves; deferred faults of engine work (spec/13_matrix_tile_world_splat_instructions.md R281 to R288; spec/08_number_formats.md R174, R176, R177; spec/03_memory_hierarchy.md R63, R64; spec/14_scheduling.md R320; spec/15_faults_and_preemption.md R324). -/
namespace Sys2Proof.Machine

/-! ### Shapes and tiles (R281, R288) -/

/-- M = N and K of an operand TYPE (Table 13.1). -/
def mmaDims (t : ElemType) : Nat × Nat := match t with | .f64 => (16, 16) | .e2m1 | .i4x => (32, 64) | _ => (32, 32)
/-- Elements of a part. -/
def mmaPart (t : ElemType) : Nat := (mmaDims t).1 * (mmaDims t).2 / 32
/-- The A regions of the engine passes: (first row, rows, first K, columns) (Table 13.1). -/
def mmaPasses (t : ElemType) : List (Nat × Nat × Nat × Nat) :=
  match t with
  | .f64 => [(0, 16, 0, 8), (0, 16, 8, 8)]
  | .f32 => [0, 0, 16, 16].flatMap (fun r => [(r, 16, 0, 16), (r, 16, 16, 16)])
  | .f16 | .bf16 => [(0, 32, 0, 16), (0, 32, 16, 16)]
  | _ => [(0, (mmaDims t).1, 0, (mmaDims t).2)]
/-- Accumulator type of FN[3:0]. -/
def mmaAcc (x : WA) : ElemType := ElemType.ofCode (x.x.fn.setWidth 4)
/-- FN[4], .ZS. -/
def mmaZs (x : WA) : Bool := x.x.fn.getLsbD 4
/-- FN[5], .MX. -/
def mmaMx (x : WA) : Bool := x.x.fn.getLsbD 5
/-- Tile T of a bank's set, 4,096 bytes. -/
def Bank.tile (b : Bank) (t : Nat) : List Byte := let x := nth [] b.acc t; if x.isEmpty then List.replicate 4096 0 else x
/-- Sets a tile. -/
def Bank.setTile (b : Bank) (t : Nat) (x : List Byte) : Bank := { b with acc := setNth [] b.acc t x }
/-- The elements of some bytes. -/
def elemsOf (w : Nat) (b : List Byte) : List Nat :=
  if w = 4 then b.flatMap (fun x => [x.toNat % 16, x.toNat / 16])
  else (List.range (b.length * 8 / w)).map (fun i => fieldOf b (i * w / 8) (w / 8))
/-- Bytes of register words. -/
def wordBytes (l : List Word) : List Byte := l.flatMap (fun w => leBytes w.toNat 4)

/-! ### Marks (R63, R283) -/

/-- Virtual address and bit of an element's block in plane (0, 0) of the side array (R63). -/
def blockBit (b : List Byte) (x0 x1 : Nat) : Nat × Nat :=
  let g := if layGran b = 1 then 8 else 32
  let bit := x0 / g + x1 / g * ((layExt b 0 + g - 1) / g)
  ((fieldOf b 8 8 + bit / 8) % 2 ^ 64, bit % 8)
/-- Coordinates in bounds of dimensions 0 and 1. -/
def inPlane (b : List Byte) (x0 x1 : Int) : Bool := decide (0 ≤ x0) && decide (x0 < layExt b 0) && decide (0 ≤ x1) && decide (x1 < layExt b 1)
/-- Side-array lines that a row of n elements needs. -/
def rowLines (b : List Byte) (x0 x1 : Int) (n : Nat) : List Nat :=
  (List.range n).foldl (fun l (k : Nat) =>
    if inPlane b (x0 + k) x1 then
      let a := (blockBit b (x0 + k).toNat x1.toNat).1 / 128
      if l.contains a then l else l ++ [a]
    else l) []
/-- Whether an element is marked, by the lines that have arrived (R283). -/
def marked (b : List Byte) (side : List (Nat × List Byte)) (x0 x1 : Int) : Bool :=
  if inPlane b x0 x1 then
    let (a, i) := blockBit b x0.toNat x1.toNat
    match side.find? (fun l => l.1 == a / 128) with
    | some l => (nth 0 l.2 (a % 128)).getLsbD i
    | none => false
  else layPad b == 0
/-- Registers of an MMA's member in order: A fragment, B fragment, SA, SB, origin pair. -/
def mmaFrag (x : WA) (t : Thread) : List Word :=
  let w := x.x.w2.toNat
  (span (rn x.a) (mmaW x.x.ty) ++ span (rn x.b) (mmaW x.x.ty) ++ [bitsOf w 14 8, bitsOf w 21 15, rn x.x.c, rn x.x.c + 1]).map t.rv
/-- Registers of an MMAS's member in order: SA, SB, origin of A, origin of B. -/
def mmasFrag (x : WA) (t : Thread) : List Word :=
  let w := x.x.w2.toNat
  [bitsOf w 18 12, bitsOf w 25 19, rn x.a, rn x.a + 1, rn x.b, rn x.b + 1].map t.rv
/-- Origin of a member's A row. -/
def Matrix.origin (m : Matrix) (i : Nat) : Int × Int :=
  let f := nth [] m.frags i
  match m.instr with
  | .mma x => ((nth 0 f (2 * mmaW x.x.ty + 2)).toInt, (nth 0 f (2 * mmaW x.x.ty + 3)).toInt)
  | _ => ((nth 0 f 2).toInt, (nth 0 f 3).toInt)
/-- The instruction's fields. -/
def Matrix.form (m : Matrix) : Option WA := match m.instr with | .mma x | .mmas x | .amovFrom x | .amovInto x | .amovZero x => some x | _ => none
/-- Whether it is an MMA or MMAS. -/
def Matrix.multiplies (m : Matrix) : Bool := match m.instr with | .mma _ | .mmas _ => true | _ => false
/-- Tile T. -/
def Matrix.tile (m : Matrix) : Nat :=
  match m.instr with
  | .mma x | .mmas x => rn x.d % 16
  | .amovFrom x | .amovInto x | .amovZero x => bitsOf x.x.w2.toNat 7 4
  | _ => 0
/-- Side-array lines that have not arrived. -/
def Matrix.lacks (m : Matrix) : List Nat :=
  match m.form with
  | some x =>
    if m.multiplies && mmaZs x then
      let b := nth [] m.recs 0
      ((List.range m.members.length).flatMap (fun i => let o := m.origin i; rowLines b o.1 o.2 (mmaPart x.x.ty))).filter (fun l => !m.side.any (fun p => p.1 == l))
    else []
  | none => []
/-- Marks of A, part by part and element by element: inactive and absent members count as marked (R283). -/
def Matrix.marks (m : Matrix) (x : WA) : List (List Bool) :=
  let b := nth [] m.recs 0
  (List.range 32).map (fun p =>
    match (List.range m.members.length).find? (fun i => (nth (0, 0) m.members i).2 == p) with
    | none => List.replicate (mmaPart x.x.ty) true
    | some i => let o := m.origin i; (List.range (mmaPart x.x.ty)).map (fun (k : Nat) => mmaZs x && marked b m.side (o.1 + k) o.2))
/-- Passes to grant (R283). -/
def Matrix.passes (m : Matrix) : Nat :=
  match m.form with
  | some x =>
    if m.multiplies then
      if mmaZs x then
        let marks := (m.marks x).flatten
        let k := (mmaDims x.x.ty).2
        ((mmaPasses x.x.ty).filter (fun (r0, rs, k0, ks) =>
          !(List.range rs).all (fun i => (List.range ks).all (fun j => nth false marks ((r0 + i) * k + k0 + j))))).length
      else (mmaPasses x.x.ty).length
    else 1
  | none => 1

/-! ### Deferred faults of engine work (R324) -/

/-- One record for threads of a deferred fault that stand at one PC; each becomes FAULTED and keeps its PC. -/
def raiseDeferredAll (cause : Cause) (d : Detail) (us : List Nat) (fpc : Dword) (work : Nat) (s : State) : State :=
  match us with
  | [] => s
  | u :: rest =>
    let s := raiseDeferred cause d u fpc work s
    let (masks, s) := rest.foldl (fun (r : List Nat × State) v =>
      let t := r.2.thr v
      let s := if t.phase == .exited then r.2 else r.2.modThr v Thread.faultOver
      (r.1 ++ [t.lane], { s with waves := s.waves.map (fun w => { w with members := w.members.filter (· ≠ v) }) })) ([], s)
    { s with faults := s.faults.map (fun (r : FaultRec) =>
        if r.work == work && r.deferred && r.written.isNone && r.threads == [u] then
          { r with threads := us, mask := masks.foldl (fun m l => m ||| (1#32 <<< l)) r.mask } else r) }
/-- A deferred fault in some threads: one record for each PC at which they stand, which is the record's stop PC (R285, R324). -/
def raiseBySpc (cause : Cause) (d : Detail) (us : List Nat) (fpc : Dword) (work : Nat) (s : State) : State :=
  let pcs := us.foldl (fun (l : List Dword) u => if l.contains (s.thr u).pc then l else l ++ [(s.thr u).pc]) []
  let groups := pcs.map (fun pc => us.filter (fun u => (s.thr u).pc == pc))
  groups.foldl (fun s g => raiseDeferredAll cause d g fpc work s) s
/-- An open record of the work names the thread. -/
def faultNamed (work u : Nat) (s : State) : Bool :=
  s.faults.any (fun (f : FaultRec) => f.deferred && f.work == work && f.state == 0 && f.threads.contains u)
/-- Threads of a request's engine work. -/
def Req.issuers (r : Req) : List Nat :=
  match r.work with
  | .matrix m => m.members.map (·.1)
  | _ => r.threads
/-- DEFERRED_FAULT: an engine fault is raised in each issuing thread at its next boundary, at once where it waits; a stopped or faulted thread takes it when it is so no longer (R324). -/
def execDeferredFault (req : Nat) (s : State) : Out State :=
  let work : Option (Option (Cause × Detail) × List Nat × Dword) :=
    match s.req? req with
    | some r => some (r.fault, r.issuers, r.pc)
    | none => (s.bins.find? (fun b => b.id == req)).map (fun b => (b.fault, b.threads, b.pc))
  match work with
  | some (some (c, d), us, pc) =>
    let left := us.filter (fun u => !faultNamed req u s)
    let now := left.filter (fun u => (s.thr u).phase != .faulted && (s.thr u).stopped.isNone)
    if left.isEmpty then .fault .notPending
    else if now.isEmpty then .fault .heldBack
    else done (raiseBySpc c d (s.byLane now) pc req { s with issue := s.issue + 1 })
  | _ => .fault .notPending

/-! ### The reservation table (R285, R320) -/

/-- Entries of a cluster's table: 16 at most; a faulted one that was saved with its bank has left it (R288). -/
def tableOf (cluster : Nat) (s : State) : List Req :=
  s.reqs.filter (fun r => clusterOf r.core == cluster && (s.tm r.team).saved.isNone && (match r.work with | .matrix m => m.accepted | _ => false))
/-- The matrix work of a request. -/
def Req.matrix? (r : Req) : Option Matrix := match r.work with | .matrix m => some m | _ => none
/-- Sets a request's matrix work. -/
def State.setMatrix (s : State) (id : Nat) (m : Matrix) : State := s.modReq id (fun r => { r with work := .matrix m })
/-- A handle-fetched element: its bits, or the fault that stops the fetch (R61, R129, R286). -/
def fetchElem (r : Req) (b : List Byte) (x0 x1 : Int) (s : State) : State × (Nat ⊕ (Cause × Detail)) :=
  let g := s.gr (s.tm r.team).grid
  match layPlace b false [x0, x1, 0, 0] with
  | .pad v => (s, .inl v)
  | .discard => (s, .inl 0)
  | .bounds => (s, .inr (.bounds, { kind := accEngineRead }))
  | .addr a nib =>
    let va := (BitVec.ofInt 64 a).toNat
    if a < 0 || decide ((2 : Int) ^ 64 ≤ a) || !canonical va then (s, .inr (.pageProtection, { kind := accEngineRead ||| markNonCanonical, addr := va }))
    else if va % layBytes b != 0 then (s, .inr (.alignment, { kind := accEngineRead, addr := va }))
    else
      let s := writeBackRange r.team va (layBytes b) s
      -- A dirty line whose page migrates is written back later, and the fetch waits for it.
      let s := if (s.dirtyOf r.team).any (fun x => !x.held && x.line == va / 128) then { s with waits := true } else s
      match readVa r.core g.fn g.ctx va (layBytes b) s with
      | (s, .bad c m a) => (s, .inr (c, { kind := accEngineRead ||| m, addr := a }))
      | (s, .bytes _ true) => (s, .inr (.poison, { kind := accEngineRead, addr := va }))
      | (s, .bytes bs false) =>
        let n := leNat bs
        (s, .inl (match nib with | some true => n / 16 | some false => n % 16 | none => n))
/-- A row of n elements; marked ones are not fetched. -/
def fetchRow (r : Req) (b : List Byte) (x0 x1 : Int) (marks : List Bool) : Nat → Nat → State → State × (List Nat ⊕ (Cause × Detail))
  | 0, _, s => (s, .inl [])
  | n + 1, k, s =>
    let e : State × (Nat ⊕ (Cause × Detail)) := if nth false marks k then (s, .inl 0) else fetchElem r b (x0 + k) x1 s
    match e with
    | (s, .inr f) => (s, .inr f)
    | (s, .inl v) =>
      match fetchRow r b x0 x1 marks n (k + 1) s with
      | (s, .inl l) => (s, .inl (v :: l))
      | q => q
/-- Rows of every active member, A then B. -/
def fetchRows (r : Req) (m : Matrix) (x : WA) : Nat → Nat → State → State × ((List (List Nat) × List (List Nat)) ⊕ (Cause × Detail))
  | 0, _, s => (s, .inl ([], []))
  | n + 1, i, s =>
    let f := nth [] m.frags i
    let marks := nth [] (m.marks x) (nth (0, 0) m.members i).2
    let e := mmaPart x.x.ty
    match fetchRow r (nth [] m.recs 0) (nth 0 f 2).toInt (nth 0 f 3).toInt marks e 0 s with
    | (s, .inr q) => (s, .inr q)
    | (s, .inl a) =>
      match fetchRow r (nth [] m.recs 1) (nth 0 f 4).toInt (nth 0 f 5).toInt [] e 0 s with
      | (s, .inr q) => (s, .inr q)
      | (s, .inl b) =>
        match fetchRows r m x n (i + 1) s with
        | (s, .inl (as, bs)) => (s, .inl (a :: as, b :: bs))
        | q => q
/-- Passes that are skipped. -/
def skippedPasses (m : Matrix) : Nat := match m.form with | some x => if m.multiplies then (mmaPasses x.x.ty).length - m.passes else 0 | none => 0
/-- Once every side-array line is there, an MMAS fetches its operands, and the entry's passes are known. A fetch that must wait for a write-back is made later. -/
def progressMatrix (id : Nat) (s : State) : State :=
  match s.req? id with
  | none => s
  | some r =>
    match r.matrix? with
    | none => s
    | some m =>
      if !m.accepted || r.fault.isSome || m.left.isSome || !m.lacks.isEmpty || (s.tm r.team).saved.isSome then s
      else
        match m.instr with
        | .mmas x =>
          let old := s
          match fetchRows r m x m.members.length 0 s with
          | (s, .inl f) => if s.waits && !old.waits then old else (s.setMatrix id { m with fetched := some f, left := some m.passes }).count (s.gr (s.tm r.team).grid).fn 6 (skippedPasses m)
          | (s, .inr f) => if s.waits && !old.waits then old else s.modReq id (fun r => { r with fault := some f })
        | _ => (s.setMatrix id { m with left := some m.passes }).count (s.gr (s.tm r.team).grid).fn 6 (skippedPasses m)
/-- The table takes a request: TL rises in the active members, and the members go on (R285). -/
def enterTable (id : Nat) (s : State) : State :=
  match s.req? id with
  | none => s
  | some r =>
    match r.matrix? with
    | none => s
    | some m =>
      let us := m.members.map (·.1)
      let s := s.modReq id (fun r => { r with cls := .tl, threads := us, work := .matrix { m with accepted := true, waiting := [] } })
      let s := us.foldl (fun s u => s.modThr u (fun t => t.countUp .tl)) s
      progressMatrix id (wakeMembers m.waiting s)
/-- A request of the cluster that the table has not taken yet. -/
def tableHeld (cluster before : Nat) (s : State) : Bool :=
  s.reqs.any (fun q => decide (q.id < before) && clusterOf q.core == cluster && (s.tm q.team).saved.isNone && (match q.matrix? with | some n => !n.accepted | none => false))
/-- A request is submitted at its last signature; a full table holds the issue, and those after it, so that the table takes requests in the order of their numbers (R285, R129). -/
def submitMatrix (instr : Instr) (team : Nat) (ms : List (Nat × Nat × Bool)) (frag : Thread → List Word) (recs : List (List Byte)) (wv : List Nat) (s : State) : State :=
  let act := (ms.filter (·.2.2)).map (fun m => (m.2.1, m.1))
  let us := ms.map (·.2.1)
  let m : Matrix := ⟨instr, act, us, act.map (fun a => frag (s.thr a.1)), recs, [], none, false, none, 0⟩
  let tm := s.tm team
  let (id, s) := s.fresh
  let s := act.foldl (fun s a => s.modThr a.1 (fun t => { t with pendV := t.pendV ++ wv })) s
  let pc := (s.thr (us.headD 0)).pc
  let s := { s with reqs := s.reqs ++ [⟨id, s.issue, .none, [], tm.core, team, .matrix m, pc, s.gtick, false, none, 0, 0⟩] }
  if (tableOf (clusterOf tm.core) s).length < 16 && !tableHeld (clusterOf tm.core) id s then enterTable id s else s
/-- RESERVATION_ACCEPT: the oldest held request of a cluster enters the table (R285). -/
def execReservationAccept (req : Nat) (s : State) : Out State :=
  match s.req? req with
  | none => .fault .notPending
  | some r =>
    match r.matrix? with
    | none => .fault .notPending
    | some m =>
      if m.accepted then .fault .notPending
      else if 16 ≤ (tableOf (clusterOf r.core) s).length || tableHeld (clusterOf r.core) r.id s || (s.tm r.team).saved.isSome then .fault .heldBack
      else done (enterTable req s)

/-! ### MMA, MMAS, AMOV (R282, R286, R287) -/

/-- The active members fault; the others go on. -/
def failMembers (c : Cause) (d : Detail) (ms : List (Nat × Nat × Bool)) (s : State) : State :=
  wakeMembers (ms.map (·.2.1)) (raiseAll c d (s.byLane ((ms.filter (·.2.2)).map (·.2.1))) s)
/-- The record of a zero map, or its fault (R283). -/
def zeroMap (team h : Nat) (i4x : Bool) (origins : List Int) (s : State) : State × (List Byte ⊕ (Cause × Detail)) :=
  let bad : Cause × Detail := (.reservedField, { kind := markLayout })
  match useLayout team h s with
  | (s, none) => (s, .inr bad)
  | (s, some (.inr f)) => (s, .inr f)
  | (s, some (.inl b)) =>
    if layGran b == 0 || !(layCtl b).testBit 8 || (i4x && origins.any (fun o => o % 4 != 0)) then (s, .inr bad) else (s, .inl b)
/-- Registers an MMA reads, which its signers must own; poison is judged at the issue (R285). -/
def mmaRegs (x : WA) : List Nat :=
  let w := x.x.w2.toNat
  span (rn x.a) (mmaW x.x.ty) ++ span (rn x.b) (mmaW x.x.ty) ++ (if mmaMx x then [bitsOf w 14 8, bitsOf w 21 15] else []) ++ (if mmaZs x then [rn x.x.c, rn x.x.c + 1] else [])
/-- A marked register of an active member. -/
def anyPoison (regs : List Nat) (ms : List (Nat × Nat × Bool)) (s : State) : Bool := ms.any (fun m => m.2.2 && regs.any (s.thr m.2.1).poison.contains)
/-- MMA (R282). -/
def execMma (x : WA) (s : State) : Out State :=
  let h := bitsOf x.x.w2.toNat 7 4
  let u := { use12 x.e x.x.g [] (mmaRegs x) with cls := .tl, rh := if mmaZs x then [h] else [] }
  collective u (rn x.x.w2 % 8) (fun team ms s =>
    if anyPoison (mmaRegs x) ms s then failMembers .poison {} ms s
    else if !mmaZs x then submitMatrix (.mma x) team ms (mmaFrag x) [] [] s
    else
      match zeroMap team h (x.x.ty == .i4x) ((ms.filter (·.2.2)).map (fun m => ((s.thr m.2.1).rv (rn x.x.c)).toInt)) s with
      | (s, .inr (c, d)) => failMembers c d ms s
      | (s, .inl b) => submitMatrix (.mma x) team ms (mmaFrag x) [b] [] s) s
/-- An operand record of MMAS: R = 1 and the operand TYPE (R286). -/
def operandRecord (team h : Nat) (t : ElemType) (s : State) : State × (List Byte ⊕ (Cause × Detail)) :=
  let bad : Cause × Detail := (.reservedField, { kind := markLayout })
  match useLayout team h s with
  | (s, none) => (s, .inr bad)
  | (s, some (.inr f)) => (s, .inr f)
  | (s, some (.inl b)) => if (layCtl b).testBit 8 && layTy b == t then (s, .inl b) else (s, .inr bad)
/-- Registers an MMAS reads. -/
def mmasRegs (x : WA) : List Nat :=
  let w := x.x.w2.toNat
  [rn x.a, rn x.a + 1, rn x.b, rn x.b + 1] ++ (if mmaMx x then [bitsOf w 18 12, bitsOf w 25 19] else [])
/-- MMAS (R286). -/
def execMmas (x : WA) (s : State) : Out State :=
  let ha := bitsOf x.x.w2.toNat 7 4
  let hb := bitsOf x.x.w2.toNat 11 8
  let u := { use12 x.e x.x.g [] (mmasRegs x) with cls := .tl, rh := [ha, hb] }
  collective u (rn x.x.w2 % 8) (fun team ms s =>
    if anyPoison (mmasRegs x) ms s then failMembers .poison {} ms s
    else
      match operandRecord team ha x.x.ty s with
      | (s, .inr (c, d)) => failMembers c d ms s
      | (s, .inl a) =>
        match operandRecord team hb x.x.ty s with
        | (s, .inr (c, d)) => failMembers c d ms s
        | (s, .inl b) =>
          let z : State × (List Byte ⊕ (Cause × Detail)) :=
            if mmaZs x then zeroMap team ha (x.x.ty == .i4x) ((ms.filter (·.2.2)).map (fun m => ((s.thr m.2.1).rv (rn x.a)).toInt)) s else (s, .inl a)
          match z with
          | (s, .inr (c, d)) => failMembers c d ms s
          | (s, .inl _) => submitMatrix (.mmas x) team ms (mmasFrag x) [a, b] [] s) s
/-- AMOV.FROM (R287). -/
def execAmovFrom (x : WA) (s : State) : Out State :=
  let regs := span (rn x.d) (amovW x.x.ty)
  collective { collUse x [] regs with cls := .tl } (rn x.x.w2 % 8) (fun team ms s => submitMatrix (.amovFrom x) team ms (fun _ => []) [] regs s) s
/-- AMOV.INTO (R287). -/
def execAmovInto (x : WA) (s : State) : Out State :=
  let regs := span (rn x.a) (amovW x.x.ty)
  collective { collUse x regs [] with cls := .tl } (rn x.x.w2 % 8) (fun team ms s => submitMatrix (.amovInto x) team ms (fun t => regs.map t.rv) [] [] s) s
/-- AMOV.ZERO (R287). -/
def execAmovZero (x : WA) (s : State) : Out State :=
  collective { collUse x [] [] with cls := .tl } (rn x.x.w2 % 8) (fun team ms s => submitMatrix (.amovZero x) team ms (fun _ => []) [] [] s) s

/-! ### Side-array lines (R64) -/

/-- METADATA_LINE_ARRIVE: the next side-array line that an entry lacks is there, from the cluster's cache or from L2 with a lease; a fault or poison is METADATA (R64). -/
def execMetadataLineArrive (cluster entry : Nat) (s : State) : Out State :=
  match s.req? entry with
  | none => .fault .notPending
  | some r =>
    match r.matrix? with
    | none => .fault .notPending
    | some m =>
      if clusterOf r.core != cluster || !m.accepted || r.fault.isSome then .fault .notPending
      else
        match m.lacks with
        | [] => .fault .notPending
        | line :: _ =>
          let tm := s.tm r.team
          let g := s.gr tm.grid
          match s.mem.metaLines.find? (fun l => l.cluster == cluster && l.fn == g.fn && l.ctx == g.ctx && l.line == line && decide (s.gtick < l.expiry)) with
          | some l => done (progressMatrix entry (s.setMatrix entry { m with side := (line, l.bytes) :: m.side }))
          | none =>
            let fail (mark : Nat) (s : State) : Out State :=
              done (s.modReq entry (fun r => { r with fault := some (.metadata, { kind := accEngineRead ||| mark, addr := line * 128 }) }))
            match xlateUnit .read r.core g.fn g.ctx (line * 128) s with
            | (s, .bad _ mark) => fail mark s
            | (s, .ok pa _ _) =>
              if !(regionOf pa).local then fail markUnbacked s
              else
                let (s, bs, p) := readL2 g.fn pa 128 s
                if p then fail 0 s
                else
                  let e := s.gtick + tm.lease
                  let s := grantLease (pa / 128) e s
                  let mine := s.mem.metaLines.filter (fun l => l.cluster == cluster && !(l.fn == g.fn && l.ctx == g.ctx && l.line == line))
                  let other := s.mem.metaLines.filter (fun l => l.cluster != cluster)
                  let s := { s with mem := { s.mem with metaLines := (⟨cluster, g.fn, g.ctx, line, e, bs⟩ : MetaLine) :: mine.take 127 ++ other } }
                  done (progressMatrix entry (s.setMatrix entry { m with side := (line, bs) :: m.side }))

/-! ### Applying an entry (R177, R285, R287) -/

/-- A row's values under marks and scales: a marked element, or an I4X quad that holds one, is +0; a scale multiplies its block; scale 0xFF makes it NaN (R174, R176, R283, R284). -/
def rowVals (t : ElemType) (i32 : Bool) (xs : List Nat) (marks : List Bool) (scale : Option (Nat → Nat)) : List FVal × Flags :=
  let hit (k : Nat) : Bool := if t == .i4x then (List.range 4).any (fun q => nth false marks (k / 4 * 4 + q)) else nth false marks k
  let idx := List.range xs.length
  let (vs, f) := elemVals t i32 ((xs.zip idx).map (fun p => if hit p.2 then 0 else p.1))
  match scale with
  | none => (vs, f)
  | some sc =>
    let bad := idx.any (fun k => !hit k && sc (k / 32) == 255)
    ((vs.zip idx).map (fun p =>
      if hit p.2 then .fin false 0 0
      else if sc (p.2 / 32) == 255 then (if i32 then .fin false 0 0 else .nan false)
      else p.1.scale ((sc (p.2 / 32) : Int) - 127)), f ||| flagIf bad flagNV)
/-- The parts of an operand as rows of K values with their flags; absent parts are +0. -/
def operandRows (x : WA) (parts : List (List FVal × Flags)) : List (List FVal) × Flags :=
  let k := (mmaDims x.x.ty).2
  let all := parts.flatMap (·.1)
  ((List.range (mmaDims x.x.ty).1).map (fun i => (all.drop (i * k)).take k), parts.foldl (fun f p => f ||| p.2) 0)
/-- One output element: the exact sum, rounded once (R177). -/
def mmaElem (acc : ElemType) (rnd : Nat) (sat : Bool) (c : Nat) (a b : List FVal) : Nat × Flags :=
  let terms := dotTerms a b
  if acc == .i32 then intSum sat (intOf .i32 c) terms else exactSum acc rnd false .matrix (unpack acc c :: terms)
/-- The tile after an MMA or MMAS, with the flags of every element. -/
def Matrix.multiply (m : Matrix) (x : WA) (tile : List Byte) : List Byte × Flags :=
  let acc := mmaAcc x
  let i32 := acc == .i32
  let t := x.x.ty
  let w := mmaW t
  let e := mmaPart t
  let bsel := match m.instr with | .mma _ => bitsOf x.x.w2.toNat 23 22 | _ => bitsOf x.x.w2.toNat 27 26
  let marks := m.marks x
  let part (isA : Bool) (p : Nat) : List FVal × Flags :=
    match (List.range m.members.length).find? (fun i => (nth (0, 0) m.members i).2 == p) with
    | none => (List.replicate e (.fin false 0 0), 0)
    | some i =>
      let f := nth [] m.frags i
      let xs := match m.instr, m.fetched with
        | .mmas _, some (as, bs) => nth [] (if isA then as else bs) i
        | _, _ => (elemsOf t.width (wordBytes ((f.drop (if isA then 0 else w)).take w))).take e
      let sreg := match m.instr with | .mma _ => nth 0 f (2 * w + if isA then 0 else 1) | _ => nth 0 f (if isA then 0 else 1)
      let sc (b : Nat) : Nat := elemOf 8 ((bsel + b) % 4) sreg
      rowVals t i32 xs (if isA then nth [] marks p else []) (if mmaMx x then some sc else none)
  let (as, fa) := operandRows x ((List.range 32).map (part true))
  let (bs, fb) := operandRows x ((List.range 32).map (part false))
  let n := (mmaDims t).1
  let aw := acc.width / 8
  let outs := (as.zip (List.range n)).flatMap (fun (a, i) =>
    (bs.zip (List.range n)).map (fun (b, j) => mmaElem acc (rn x.x.rnd) x.x.sat (fieldOf tile ((i * n + j) * aw) aw) a b))
  let bytes := outs.flatMap (fun o => leBytes o.1 aw)
  (bytes ++ tile.drop bytes.length, outs.foldl (fun f o => f ||| o.2) (fa ||| fb))
/-- Bytes replaced in a tile. -/
def putTile (tile : List Byte) (o : Nat) (bs : List Byte) : List Byte := tile.take o ++ bs ++ tile.drop (o + bs.length)
/-- An entry is applied whole: the tile, or the members' registers, and TL falls (R285, R287). -/
def applyMatrix (r : Req) (m : Matrix) (s : State) : State :=
  let tm := s.tm r.team
  let bank := s.bank tm.core tm.bank
  let tile := bank.tile m.tile
  let put (b : Bank) (s : State) : State := s.setBank tm.core tm.bank b
  let s :=
    match m.instr with
    | .mma x | .mmas x =>
      let (t, f) := m.multiply x tile
      m.members.foldl (fun s a => s.modThr a.1 (fun t => t.orFlags f)) (put (bank.setTile m.tile t) s)
    | .amovFrom x =>
      let w := amovW x.x.ty
      let bad := bank.accPoison.contains m.tile
      m.members.foldl (fun s a => s.modThr a.1 (fun t =>
        let t := (span (rn x.d) w).foldl (fun (t : Thread) r => t.wv r (BitVec.ofNat 32 (fieldOf tile (a.2 * 4 * w + 4 * (r - rn x.d)) 4))) t
        { t with pendV := t.pendV.filter (fun r => !(span (rn x.d) w).contains r), poison := if bad then t.poison ++ span (rn x.d) w else t.poison })) s
    | .amovInto x =>
      let w := amovW x.x.ty
      let t := (m.members.zip m.frags).foldl (fun t p => putTile t (p.1.2 * 4 * w) (wordBytes p.2)) tile
      let b := bank.setTile m.tile t
      put (if m.members.length = 32 then { b with accPoison := b.accPoison.filter (· ≠ m.tile) } else b) s
    | _ => put { bank.setTile m.tile [] with accPoison := bank.accPoison.filter (· ≠ m.tile) } s
  complete r s
/-- An entry is ready: its lines and operands have arrived, its set is in its bank, and every entry of its tile that was accepted earlier has been applied (R285, R288, R320). -/
def matrixReady (r : Req) (s : State) : Bool :=
  match r.matrix? with
  | none => false
  | some m =>
    let b := (s.tm r.team).bank
    m.accepted && r.fault.isNone && m.left.isSome && (s.tm r.team).saved.isNone &&
    !s.reqs.any (fun q => decide (q.id < r.id) && q.core == r.core && (s.tm q.team).bank == b &&
      (match q.matrix? with | some n => n.accepted && n.tile == m.tile | none => false))
/-- The entry that takes the grant: one with no pass left at once; an aged one, oldest first; else the highest PRIORITY, oldest first (R320). -/
def grantee (l : List Req) (s : State) : Option Req :=
  let age (r : Req) : Nat := match r.matrix? with | some m => m.age | none => 0
  match l.find? (fun r => match r.matrix? with | some m => m.left == some 0 | none => false) with
  | some r => some r
  | none =>
    match (sortBy Req.id (l.filter (fun r => decide (256 ≤ age r)))).head? with
    | some r => some r
    | none => (sortBy (fun r => (7 - (s.gr (s.tm r.team).grid).priority) * 2 ^ 64 + r.id) l).head?
/-- MATRIX_PASS_GRANT: fetches that had to wait are made; then one engine cycle grants one pass, and the last pass applies the entry (R320, R285). -/
def execMatrixPassGrant (cluster : Nat) (s : State) : Out State :=
  let s := (tableOf cluster s).foldl (fun s r => progressMatrix r.id s) s
  let l := (tableOf cluster s).filter (fun r => matrixReady r s)
  match grantee l s with
  | none => .fault .notPending
  | some r =>
    match r.matrix? with
    | none => .fault .notPending
    | some m =>
      let left := m.left.getD 0
      let s := if left = 0 then s
        else
          (l.filter (fun q => q.id != r.id)).foldl (fun s q => match q.matrix? with | some n => s.setMatrix q.id { n with age := n.age + 1 } | none => s) s
      if left ≤ 1 then done (applyMatrix r m s) else done (s.setMatrix r.id { m with left := some (left - 1) })

end Sys2Proof.Machine
end

