-- ==== Sys2Proof/Machine/Tile.lean ====
section
/-! DEFINITION. The shared tile file: spaces, names, the directory, deliveries, parts and saved name tables (spec/04_shared_tile_file.md R72 to R89; spec/13_matrix_tile_world_splat_instructions.md R289). -/
namespace Sys2Proof.Machine

/-! ### Shapes (R74, R75) -/

/-- Rows or columns of a two-bit code. -/
def tileDim (c : Nat) : Nat := 8 * 2 ^ c
/-- Payload of a TSHAPE in bytes. -/
def tilePayload (sh : Nat) : Nat := tileDim (bitsOf sh 9 8) * tileDim (bitsOf sh 7 6) * (ElemType.ofCode (BitVec.ofNat 4 sh)).width / 8
/-- Registers of a part. -/
def tileWords (sh : Nat) : Nat := tilePayload sh / 128
/-- TYPE, ROWS and COLS of a TSHAPE. -/
def tileShape (sh : Nat) : Nat × Nat × Nat := (bitsOf sh 3 0, bitsOf sh 9 8, bitsOf sh 7 6)
/-- An undefined name in an epoch. -/
def TileName.undefined (name epoch : Nat) : TileName := ⟨name, 0, [], 0, 0, 0, 0, 0, epoch, [], [], []⟩
/-- The name's entry. -/
def Space.entry (x : Space) (n : Nat) : TileName := (x.names.find? (fun e => e.name == n)).getD (TileName.undefined n 0)
/-- Sets a name's entry. -/
def Space.setEntry (x : Space) (e : TileName) : Space := { x with names := e :: x.names.filter (fun y => y.name != e.name) }
/-- The shape of a name's epoch. -/
def TileName.shape (e : TileName) : Nat × Nat × Nat := (e.ty, e.rows, e.cols)
/-- Payload of a name's epoch in bytes. -/
def TileName.payload (e : TileName) : Nat := tileDim e.rows * tileDim e.cols * (ElemType.ofCode (BitVec.ofNat 4 e.ty)).width / 8

/-! ### Spaces (R72, R73) -/

/-- The space of a number. -/
def State.space? (s : State) (id : Nat) : Option Space := s.spaces.find? (fun x => x.id == id)
/-- Changes a space. -/
def State.modSpace (s : State) (id : Nat) (f : Space → Space) : State := { s with spaces := s.spaces.map (fun x => if x.id = id then f x else x) }
/-- The live space of a context on a cluster. -/
def liveSpace (fn ctx cluster : Nat) (s : State) : Option Space := s.spaces.find? (fun x => x.fn == fn && x.ctx == ctx && x.cluster == some cluster)
/-- TILEAREA and TILESLOTS of a context. -/
def tileArea (fn ctx : Nat) (s : State) : Nat × Nat := match s.context? fn ctx with | some c => (fieldOf c.desc 16 8, fieldOf c.desc 24 4) | none => (0, 0)
/-- PA of a space's slot. -/
def Space.base (x : Space) (s : State) : Nat := (tileArea x.fn x.ctx s).1 + x.slot * 4202496
/-- The space a tile instruction acts on: the live one, or a new one in a free slot (R73). DESIGN CHOICE (notes/assumptions 76): of several free slots, the lowest-numbered one. -/
def bindSpace (fn ctx cluster : Nat) (s : State) : State × Option Nat :=
  match liveSpace fn ctx cluster s with
  | some x => (s, some x.id)
  | none =>
    let (area, n) := tileArea fn ctx s
    let used := (s.spaces.filter (fun x => x.fn == fn && x.ctx == ctx)).map Space.slot
    match (List.range n).find? (fun i => !used.contains i) with
    | some i =>
      if area = 0 then (s, none)
      else
        let (id, s) := s.fresh
        ({ s with spaces := ⟨id, fn, ctx, some cluster, i, []⟩ :: s.spaces }, some id)
    | none => (s, none)

/-! ### Issue (R78 to R80) -/

/-- What a tile instruction names: NS and name, TSHAPE, first part register, part register; kind 0 TDEF, 1 TLD, 2 TKILL. -/
structure TileForm where
  kind : Nat
  ns : Bool
  name : Nat
  shape : Nat
  reg : Nat
  part : Nat
  deriving DecidableEq, Repr
/-- The fields of word 2 (R289). -/
def tileForm (kind : Nat) (reg part : Nat) (x : WA) : TileForm :=
  let w := rn x.x.w2
  ⟨kind, w.testBit 15, bitsOf w 9 0, bitsOf w 31 16, reg, part⟩
/-- A TSHAPE whose reserved bits are nonzero, whose payload lies outside 128 to 4,096 bytes, or whose registers pass v127 (R74, R75). -/
def TileForm.bad (f : TileForm) : Bool :=
  f.kind != 2 && (bitsOf f.shape 11 10 != 0 || bitsOf f.shape 5 4 != 0 || decide (tilePayload f.shape < 128) || decide (4096 < tilePayload f.shape) ||
    decide (128 < f.reg + tileWords f.shape))
/-- Registers of the part. -/
def TileForm.regs (f : TileForm) : List Nat := if f.kind = 2 || f.bad then [] else span f.reg (tileWords f.shape)
/-- Detail of a tile fault: the access kind and the name number (R82). -/
def tileDetail (kind name : Nat) : Detail := { kind := kind, addr := name % 1024 }
/-- TILE_NAME with a subcause (R82). -/
def tileFault (sub name u : Nat) (s : State) : State := raise .tileName (tileDetail sub name) u s
/-- A tile instruction in one thread: its TSHAPE, RANGE and PART are judged, then the thread waits until the directory accepts it (R77, R78). DEDUCED (notes/assumptions 77): a bad TSHAPE is a fault of the true-guard threads, as Table 4.4 lists it. DESIGN CHOICE (notes/assumptions 77): of several conditions of Table 4.4 the first in this order decides. -/
def tileThread (f : TileForm) (u : Nat) (s : State) : State :=
  let t := s.thr u
  let name := if f.ns then ((s.teamOf u).rs (f.name % 64)).toNat else f.name
  let part := (t.rv f.part).toNat
  if f.bad then raise .reservedField (tileDetail 0 name) u s
  else if 1023 < name then tileFault 1 name u s
  else if f.kind != 2 && decide (31 < part) then tileFault 2 name u s
  else
    let data := if f.kind = 0 then f.regs.map t.rv else []
    addReq (if f.kind = 0 then .tl else .none) [u] t.team (.tile u false f.kind name f.shape part f.reg data) t.pc true [] s
/-- Use of a tile instruction. -/
def tileUse (f : TileForm) (x : WA) : Use :=
  let u := use12 x.e x.x.g ((if f.kind = 2 then [] else [f.part]) ++ (if f.kind = 0 then f.regs else [])) (if f.kind = 1 then f.regs else [])
  { u with rs := if f.ns then [f.name % 64] else [], cls := if f.kind = 2 then .none else .tl }
/-- A tile instruction in the true-guard threads. -/
def tileAll (f : TileForm) (x : WA) (s : State) : Out State := issue (tileUse f x) false (fun us s => us.foldl (fun s u => tileThread f u s) s) s
/-- TDEF (R78). -/
def execTdef (x : WA) (s : State) : Out State := tileAll (tileForm 0 (rn x.a) (rn x.b) x) x s
/-- TLD (R79). -/
def execTld (x : WA) (s : State) : Out State := tileAll (tileForm 1 (rn x.d) (rn x.b) x) x s
/-- TKILL (R80). -/
def execTkill (x : WA) (s : State) : Out State := tileAll (tileForm 2 0 0 x) x s

/-! ### The directory (R76, R77, R81) -/

/-- Deliveries of a name that are outstanding. -/
def tldOut (space name : Nat) (s : State) : Bool :=
  s.reqs.any (fun r => match r.work with | .tile _ true sp n _ _ _ _ => sp == space && n == name | _ => false)
/-- Threads parked on a name wake: its readers, or all of them. -/
def wakeTile (space name : Nat) (all : Bool) (s : State) : State :=
  { s with threads := s.threads.map (fun (t : Thread) =>
      if t.waitsIn (.parked .tileWait) && t.wait.thr == space && t.wait.addr == name && (all || t.wait.mode == 1) then t.wakeAfresh else t) }
/-- A drained name opens its next epoch (R81). -/
def releaseName (space name : Nat) (s : State) : State :=
  match s.space? space with
  | none => s
  | some x =>
    let e := x.entry name
    if e.state == 3 && !tldOut space name s then
      wakeTile space name true (s.modSpace space (fun x => x.setEntry (TileName.undefined name ((e.epoch + 1) % 256))))
    else s
/-- The thread of a tile request parks until its name changes state; the instruction issues afresh then. -/
def parkTile (kind space name u : Nat) (s : State) : State := parkThread .tileWait { thr := space, addr := name, mode := kind } u s
/-- PA of a part's bytes in its payload slot (R73). -/
def partPa (x : Space) (e : TileName) (part : Nat) (s : State) : Nat := x.base s + 0x2000 + e.name * 0x1000 + part * (e.payload / 32)
/-- A part's stored bytes and whether they are poisoned: in the backing area they stand in memory, reached through L2 (R83, R84). -/
def partBytes (x : Space) (e : TileName) (part : Nat) (s : State) : State × List Byte × Bool :=
  let p := e.payload / 32
  let struck := e.poison.contains part
  if nth 0 e.places part == 2 then
    let (s, bs, bad) := readL2 x.fn (partPa x e part s) p s
    (s, bs, struck || bad)
  else (s, e.data.readN (part * p) p, struck)
/-- A part as register words. -/
def wordsOfBytes : Nat → List Byte → List Word
  | 0, _ => []
  | n + 1, b => BitVec.ofNat 32 (leNat (b.take 4)) :: wordsOfBytes n (b.drop 4)
/-- TILE_DIRECTORY_ACCEPT: the state of the name at acceptance decides (Table 4.3). With a definition's last part the tick ends, so that what follows the name's being DEFINED has a later one (R85). DESIGN CHOICE (notes/assumptions 77): NOSPACE is judged first, and a POISON record has the access number of a load. -/
def acceptTile (r : Req) (u kind name sh part reg : Nat) (data : List Word) (s : State) : State :=
  let s := complete r s
  let g := s.gridOf u
  match bindSpace g.fn g.ctx (clusterOf (s.teamOf u).core) s with
  | (s, none) => tileFault 6 name u s
  | (s, some sp) =>
    match s.space? sp with
    | none => s
    | some x =>
      let e := x.entry name
      if kind == 2 then
        if e.state != 2 then tileFault 5 name u s
        else
          let e := { e with krem := e.krem - 1 }
          if e.krem != 0 then s.modSpace sp (fun x => x.setEntry e)
          else releaseName sp name (s.modSpace sp (fun x => x.setEntry { e with state := 3 }))
      else if e.state == 3 then parkTile kind sp name u s
      else if kind == 0 then
        if e.state == 2 then parkTile 0 sp name u s
        else if e.state == 1 && (e.shape != tileShape sh || e.kills != bitsOf sh 15 12) then tileFault 4 name u s
        else if e.parts.contains part then tileFault 3 name u s
        else
          let (ty, rows, cols) := tileShape sh
          let p := tilePayload sh / 32
          let bytes := data.flatMap (fun w => leBytes w.toNat 4)
          let parts := part :: e.parts
          let e := { e with
            state := if parts.length = 32 then 2 else 1, parts := parts, ty := ty, rows := rows, cols := cols, kills := bitsOf sh 15 12
            krem := if parts.length = 32 then bitsOf sh 15 12 + 1 else 0
            data := e.data.writeN (part * p) bytes, poison := e.poison.filter (· ≠ part), places := setNth 0 e.places part (4 * ((s.teamOf u).core % 4)) }
          let s := s.modSpace sp (fun x => x.setEntry e)
          if e.state == 2 then wakeTile sp name false s.bump else s
      else if e.state != 2 then parkTile 1 sp name u s
      else if e.shape != tileShape sh then tileFault 4 name u s
      else
        let (s, bs, bad) := partBytes x e part s
        if bad then raise .poison (tileDetail accLoad name) u s
        else
          let s := s.modThr u (fun t => { t with pendV := t.pendV ++ span reg (tileWords sh) })
          addReq .tl [u] r.team (.tile u true sp name sh part reg (wordsOfBytes (tileWords sh) bs)) r.pc false [] s
/-- Earlier tile instructions of the thread, or of a lower lane of the same instruction, that the directory has not accepted (R77). -/
def tileBefore (r : Req) (s : State) : Bool :=
  s.reqs.any (fun q => decide (q.id < r.id) && (q.group == r.group || q.threads.any r.threads.contains) && (match q.work with | .tile _ false _ _ _ _ _ _ => true | _ => false))
/-- TILE_DIRECTORY_ACCEPT (R77): not while the thread's team is saved; where that resumes, its space is live again (R86). -/
def execTileDirectoryAccept (req : Nat) (s : State) : Out State :=
  match s.req? req with
  | none => .fault .notPending
  | some r =>
    match r.work with
    | .tile u false kind name sh part reg data =>
      if tileBefore r s || (s.tm r.team).saved.isSome then .fault .heldBack else done (withIssue r.group (acceptTile r u kind name sh part reg data) s)
    | _ => .fault .notPending
/-- TILE_DELIVERY: the part is written into the registers, TL falls, a drained name is released, and the tick ends (R79, R81, R85). -/
def execTileDelivery (req : Nat) (s : State) : Out State :=
  match s.req? req with
  | none => .fault .notPending
  | some r =>
    match r.work with
    | .tile u true sp name sh _ reg data =>
      let s := s.modThr u (fun t =>
        let t := (data.zip (span reg (tileWords sh))).foldl (fun (t : Thread) (p : Word × Nat) => t.wv p.2 p.1) t
        { t with pendV := t.pendV.filter (fun n => !(span reg (tileWords sh)).contains n) })
      done (releaseName sp name (complete r s)).bump
    | _ => .fault .notPending

/-! ### Places and saves (R83, R86, R89) -/

/-- A part goes to a place: into its payload slot, or out of it; a struck one stays struck (R83, R84). -/
def movePart (sp name part place : Nat) (s : State) : State :=
  match s.space? sp with
  | none => s
  | some x =>
    let e := x.entry name
    let p := e.payload / 32
    let (s, bs, bad) := partBytes x e part s
    let e' := { e with places := setNth 0 e.places part place, poison := (if bad then [part] else []) ++ e.poison.filter (· ≠ part) }
    if place == 2 then
      let s := s.modSpace sp (fun x => x.setEntry e')
      (acceptBytes x.fn (partPa x e part s) bs s).1
    else s.modSpace sp (fun x => x.setEntry { e' with data := e.data.writeN (part * p) bs })
/-- TILE_PART_MOVE: a defined part moves among the cluster's stores (R83). -/
def execTilePartMove (space name part place : Nat) (s : State) : Out State :=
  match s.space? space with
  | none => .fault .notPending
  | some x =>
    let e := x.entry name
    if x.cluster.isNone || !e.parts.contains part || !(place == 2 || (decide (place % 4 < 2) && decide (place < 16))) || nth 0 e.places part == place then .fault .notPending
    else done (movePart space name part place s)
/-- Every part that a core owns, or that any core does, goes to its payload slot (R86). -/
def storeParts (sp : Nat) (core : Option Nat) (s : State) : State :=
  match s.space? sp with
  | none => s
  | some x => x.names.foldl (fun s e => e.parts.foldl (fun s p =>
      let at' := nth 0 e.places p
      if at' == 2 || (match core with | some c => at' / 4 != c % 4 | none => false) then s else movePart sp e.name p 2 s) s) s
/-- An entry of a saved name table (Table 4.5). -/
def TileName.word (e : TileName) : Nat :=
  e.state * 2 ^ 62 + e.krem * 2 ^ 57 + e.kills * 2 ^ 53 + e.ty * 2 ^ 49 + e.rows * 2 ^ 47 + e.cols * 2 ^ 45 + e.epoch * 2 ^ 32 + e.parts.foldl (fun m p => m + 2 ^ p) 0
/-- The entry that a word of a saved name table gives. -/
def tileOfWord (n w : Nat) : TileName :=
  let parts := (List.range 32).filter w.testBit
  ⟨n, bitsOf w 63 62, parts, bitsOf w 61 57, bitsOf w 56 53, bitsOf w 52 49, bitsOf w 48 47, bitsOf w 46 45, bitsOf w 39 32, [], [], List.replicate 32 2⟩
/-- A live space is saved: its parts and its name table go to its slot (R86). -/
def saveSpace (sp : Nat) (s : State) : State :=
  let s := storeParts sp none s
  match s.space? sp with
  | none => s
  | some x =>
    let s := (writePhys x.fn (x.base s) ((List.range 1024).flatMap (fun n => leBytes (x.entry n).word 8)) s).1
    s.modSpace sp (fun x => { x with cluster := none })
/-- A saved space is live on a cluster again, from its name table, with its struck parts still struck (R84); a drained name whose delivery has been written is undefined (R86, R89). -/
def loadSpace (sp cluster : Nat) (s : State) : State :=
  match s.space? sp with
  | none => s
  | some x =>
    let s := (List.range 64).foldl (fun s i => l2Touch x.fn (x.base s / 128 + i) s) s
    let names := (List.range 1024).filterMap (fun n =>
      let w := leNat (s.mem.bytes.readN (x.base s + 8 * n) 8)
      if w = 0 then none else some { tileOfWord n w with poison := if (x.entry n).epoch = (tileOfWord n w).epoch then (x.entry n).poison else [] })
    let s := s.modSpace sp (fun x => { x with cluster := some cluster, names := names })
    names.foldl (fun s e => releaseName sp e.name s) s

end Sys2Proof.Machine
end

