-- ==== Sys2Proof/Machine/Save.lean ====
section
/-! DEFINITION. Bank switches, saves and restores of contexts and teams (spec/14_scheduling.md R313, R314; spec/15_faults_and_preemption.md R331 to R335; spec/04_shared_tile_file.md R86, R87; spec/13_matrix_tile_world_splat_instructions.md R288). -/
namespace Sys2Proof.Machine

/-! ### Bank switches (R313, R331) -/

/-- A thread that may issue once its bank is active: READY, not stopped, of a running function. -/
def State.mayIssue (s : State) (t : Thread) : Bool :=
  t.phase == .ready && t.stopped.isNone && !s.halted.any (fun h => h.1 == (s.gridOf t.uid).fn)
/-- Threads of a bank's resident teams. -/
def bankThreads (core bank : Nat) (s : State) : List Thread :=
  ((residents core s).filter (fun (t : Team) => t.bank == bank)).flatMap (fun t => s.threadsOf t.uid)
/-- Waves of a core dissolve at the boundary: their threads are READY (R159). -/
def dissolve (core : Nat) (s : State) : State :=
  let gone := (s.waves.filter (fun w => w.core == core)).flatMap (·.members)
  { s with
    waves := s.waves.filter (fun w => w.core != core)
    threads := s.threads.map (fun (t : Thread) => if gone.contains t.uid && t.phase == .issuing then { t with phase := .ready, age := 0 } else t) }
/-- Collector entries of a context on a core depart (R65, R331). -/
def departContext (core fn ctx : Nat) (s : State) : State :=
  (s.coll.filter (fun e => e.core == core && e.fn == fn && e.ctx == ctx)).foldl (fun s e => departNow e s) s
/-- Dirty lines of the teams of some threads' core and context are written back: a pre-emption of the context (R52, R136). -/
def writeBackBank (core fn ctx : Nat) (s : State) : State :=
  (s.mem.l1.filter (fun x => x.core == core && x.fn == fn && x.ctx == ctx && !x.dirty.isEmpty)).foldl (fun s x => writeBack x s) s
/-- The active bank changes: 96 cycles, a free number of ticks (R5), during which neither bank issues; the outgoing context's entries depart and its dirty lines are written back (R331, R136). -/
def switchBank (core : Nat) (s : State) : State :=
  let c := s.core core
  let s := dissolve core s
  let s := match (s.bank core c.active).ctx with | some (f, x) => writeBackBank core f x (departContext core f x s) | none => s
  { s with free := s.free + 1 }.setCore { s.core core with active := 1 - c.active, since := s.gtick, switchUntil := s.gtick + Config.switchTicks s.free }
/-- Whether the other bank's context has a thread that could issue. -/
def otherReady (core : Nat) (s : State) : Bool :=
  let c := s.core core
  (bankThreads core (1 - c.active) s).any s.mayIssue
/-- Highest PRIORITY among a context's unretired grids. -/
def topPriority (fn ctx : Nat) (s : State) : Nat := ((s.grids.filter (fun g => g.fn == fn && g.ctx == ctx)).map Grid.priority).foldl max 0
/-- Time slice of a context. -/
def sliceOfCtx (fn ctx : Nat) (s : State) : Nat := match s.context? fn ctx with | some c => c.slice | none => 2000000
/-- TIME_SLICE_EXPIRY: the active context's TSLICE has elapsed and the other bank has a READY thread (R313 item 1). -/
def execTimeSliceExpiry (core : Nat) (s : State) : Out State :=
  let c := s.core core
  match (s.bank core c.active).ctx with
  | none => .fault .notPending
  | some (f, x) =>
    if c.since + sliceOfCtx f x s ≤ s.gtick && c.switchUntil ≤ s.gtick && otherReady core s then done (switchBank core s) else .fault .notPending
/-- BANK_SWITCH: the active context has no thread that issues or could, or the other bank has a READY thread of a higher PRIORITY (R313 items 2 and 3). -/
def execBankSwitch (core : Nat) (s : State) : Out State :=
  let c := s.core core
  let mine := bankThreads core c.active s
  let idle := !mine.any (fun t => s.mayIssue t || (t.stopped.isNone && (t.phase == .issuing || t.phase == .stalled)))
  let top := match (s.bank core c.active).ctx with | some (f, x) => topPriority f x s | none => 0
  let higher := (bankThreads core (1 - c.active) s).any (fun t => s.mayIssue t && decide (top < (s.gridOf t.uid).priority))
  if c.switchUntil ≤ s.gtick && otherReady core s && (idle || higher) then done (switchBank core s) else .fault .notPending

/-! ### Saves (R332, R333) -/

/-- A team is resident on a core in a context. -/
def Team.runs (t : Team) (core fn ctx : Nat) (s : State) : Bool := t.core == core && t.saved.isNone && (s.gr t.grid).fn == fn && (s.gr t.grid).ctx == ctx
/-- What a save waits for: tile definitions of the context on the core not accepted, the teams' matrix entries not applied or faulted, copies that move a window of the teams, the merge tree (R332 step 1). -/
def saveWaits (core fn ctx : Nat) (teams : List Nat) (s : State) : Bool :=
  s.reqs.any (fun r => match r.work with
    | .tile _ false 0 _ _ _ _ _ => (s.tm r.team).runs core fn ctx s
    | .matrix _ => teams.contains r.team && r.fault.isNone
    | _ => false) ||
  s.copies.any (fun c => teams.contains c.team && !c.stopped && !(c.dstGlobal && c.srcGlobal)) ||
  s.bins.any (fun b => teams.contains b.team && b.started && !b.saved)
/-- PA of a save slot. -/
def slotBase (c : Context) (n : Nat) : Nat := c.imageArea + 0x10000 + n * 0x600000
/-- The lowest free save slot of a context. -/
def freeSaveSlot (c : Context) (s : State) : Option Nat :=
  (List.range c.nslot).find? (fun n => !s.slots.any (fun (x : SaveSlot) => x.fn == c.fn && x.ctx == c.ctx && x.slot == n))
/-- A slot's header and thread records are written, and the threads' images stand there (R333, R335). -/
def writeImage (c : Context) (n : Nat) (team : Bool) (ths : List Thread) (s : State) : State :=
  let base := slotBase c n
  let header := leBytes (if team then 2 else 1) 4 ++ leBytes ths.length 4 ++ leBytes s.gtick 8
  let s := (writePhys c.fn base header s).1
  (ths.zip (List.range ths.length)).foldl (fun s (p : Thread × Nat) =>
    let at' := base + 0x100 + 640 * p.2
    let r := threadRecord s (s.thr p.1.uid)
    (writePhys c.fn at' r s).1.modThr p.1.uid (fun t => { t with imageAt := at', image := r })) s
/-- Resume records of the saved teams' binner requests stand at the end of the slot, 2,048 bytes each from its last ones downwards (R304). DESIGN CHOICE (notes/assumptions 32): the place in the image. -/
def writeResume (c : Context) (n : Nat) (ids : List Nat) (s : State) : State :=
  let mine := s.bins.filter (fun b => ids.contains b.team && !b.record.isEmpty)
  (mine.zip (List.range mine.length)).foldl (fun s (p : BinReq × Nat) =>
    let pa := slotBase c n + 0x600000 - 0x800 * (p.2 + 1)
    let s := (writePhys c.fn pa p.1.record s).1
    { s with bins := s.bins.map (fun (b : BinReq) => if b.id = p.1.id then { b with recordAt := pa } else b) }) s
/-- A team's binner requests enter the queue of the cluster it is now on; one whose resume record was modified is refused with ENGINE_FAULT (R304). -/
def resumeBins (core team : Nat) (s : State) : State :=
  { s with bins := s.bins.map (fun (b : BinReq) =>
      if b.team != team then b
      else
        let b' := { b with cluster := clusterOf core, saved := false, recordAt := 0 }
        if b.recordAt = 0 || s.mem.bytes.readN b.recordAt 2048 == b.record then b'
        else { b' with record := [], fault := some (.engineFault, { kind := accLoad }) }) }
/-- The launch unit watches the counter line of a team's thread in CTR_WAIT (R314). -/
def watchCounter (team : Nat) (t : Thread) (s : State) : State :=
  let tm := s.tm team
  let g := s.gr tm.grid
  if t.phase != .parked .ctrWait then s
  else
    match xlate .read tm.core g.fn g.ctx t.wait.addr s with
    | (s, .ok pa _ _) => { s with mem := { s.mem with watches := s.mem.watches ++ [(team, pa / 128, false)] } }
    | (s, .bad _ _) => s
/-- Teams go into a save slot, ordered by grid and team: dirty lines are written back, records are written, the teams are saved (R332 steps 2 to 4, R333). -/
def saveTeams (c : Context) (n : Nat) (team : Bool) (teams : List Team) (space : Option Nat) (acc : List (List Byte)) (accPoison : List Nat) (s : State) : State :=
  let ids := teams.map Team.uid
  let s := ids.foldl (fun s t => writeBackTeam t s) s
  let order := (sortBy Team.grid (sortBy Team.id teams)).map Team.uid
  let ths := order.flatMap (fun i => sortBy Thread.tid (s.threadsOf i))
  let s := if team then ths.foldl (fun s t => watchCounter t.team t s) s else s
  let s := { s with waves := s.waves.map (fun w => { w with members := w.members.filter (fun u => !ids.contains (s.thr u).team) }) }
  let s := writeResume c n ids (writeImage c n team ths s)
  let s := { s with
    teams := s.teams.map (fun (t : Team) => if ids.contains t.uid then { t with saved := some n, saveTick := s.gtick } else t)
    bins := s.bins.map (fun (b : BinReq) => if ids.contains b.team then { b with saved := true } else b)
    slots := s.slots ++ [(⟨c.fn, c.ctx, n, team, ids, space, acc, accPoison, s.gtick⟩ : SaveSlot)] }
  { s with waves := s.waves.filter (fun w => !w.members.isEmpty) }
/-- Another core of the cluster still runs the context. -/
def elsewhere (core fn ctx : Nat) (s : State) : Bool :=
  (List.range 4).any (fun i => 4 * clusterOf core + i != core && (residents (4 * clusterOf core + i) s).any (fun t => (s.gr t.grid).fn == fn && (s.gr t.grid).ctx == ctx))
/-- A bank is saved, or freed where no team is in it: none where the save must wait or no slot is free (R332, R331). -/
def saveBank (core bank : Nat) (s : State) : Option State :=
  match (s.bank core bank).ctx with
  | none => none
  | some (fn, ctx) =>
    let teams := (residents core s).filter (fun (t : Team) => t.bank == bank)
    let space := (liveSpace fn ctx (clusterOf core) s).map Space.id
    let leave (s : State) : State := match space with
      | some sp => if elsewhere core fn ctx s then storeParts sp (some core) s else saveSpace sp s
      | none => s
    if teams.isEmpty then some ((leave s).setBank core bank Bank.reset)
    else
      match s.context? fn ctx with
      | none => none
      | some c =>
        match freeSaveSlot c s with
        | none => none
        | some n =>
          if saveWaits core fn ctx (teams.map Team.uid) s then none
          else
            let s := if (s.core core).active == bank then dissolve core s else s
            let s := leave (departContext core fn ctx s)
            let b := s.bank core bank
            let s := saveTeams c n false teams space b.acc b.accPoison s
            some (s.setBank core bank Bank.reset)
/-! ### What waits for placement (R310, R313, R314, R319, R333) -/

/-- The teams of a slot fit a core together, in bank b where one is named (R310). -/
def fitTogether (core : Nat) (bank : Option Nat) (teams : List Nat) (s : State) : Bool :=
  let here := residents core s
  let mine := match bank with | some b => here.filter (fun (t : Team) => t.bank == b) | none => []
  let ts := teams.map s.tm
  let words (t : Team) : Nat := let h := s.gr t.grid; wordsOf t.size h.bregs (h.field 27 1)
  let all := mine ++ ts
  ts.all (fun t => fitsCore core bank (s.gr t.grid) t.size s && (here.isEmpty || (s.core core).split == (s.gr t.grid).field 28 1)) &&
  decide ((all.map (fun t => slotsOf t.size)).sum ≤ 64) && decide ((all.map words).sum ≤ 4096) && decide (all.length ≤ 64) &&
  (match ts with
   | [] => true
   | t :: _ => decide (((here ++ ts).map Team.scratchSize).sum ≤ scratchOf ((s.gr t.grid).field 28 1)) && ts.all (fun u => (s.gr u.grid).field 28 1 == (s.gr t.grid).field 28 1))
/-- A DET team resumes only where its logical core is, or where that core may be mapped because none of its teams is resident (R312). -/
def detPermits (x : SaveSlot) (core : Nat) (s : State) : Bool :=
  x.teams.all (fun t =>
    let tm := s.tm t
    let g := s.gr tm.grid
    !g.det || tm.task || g.home (tm.id % g.ncores) == none || g.home (tm.id % g.ncores) == some core ||
    !(s.teamsOf g.uid).any (fun u => u.saved.isNone && !u.task && u.id % g.ncores == tm.id % g.ncores))
/-- A bank slot needs a core that does not hold the context, with a free bank; a team slot needs the context's bank or a free one (R333, R288). -/
def restoreBank (x : SaveSlot) (core : Nat) (s : State) : Option Nat :=
  match bankFor core x.fn x.ctx s with
  | none => none
  | some b => if !x.team && (s.bank core b).ctx.isSome then none else some b
/-- A team that waits under R310, or the teams of a saved bank: a grid's next team, a gathered task team, those of a save slot. -/
inductive Waiter where
  | next (g : Grid)
  | tasks (x : Nat × Nat × List Task)
  | slot (x : SaveSlot)
  deriving DecidableEq, Repr
/-- Everything that waits to be placed. -/
def waiters (s : State) : List Waiter :=
  (waitingGrids s).map .next ++ (formedTeams s).map .tasks ++
  (s.slots.filter (fun x => !x.team || x.teams.any (fun t => resumable t s))).map .slot
/-- The grid of a waiter; of a saved bank, the one of the highest rank (R310). -/
def Waiter.grid (w : Waiter) (s : State) : Grid :=
  match w with
  | .next g => g
  | .tasks x => s.gr ((x.2.2.head?.map Task.grid).getD 0)
  | .slot x => ((sortBy Grid.rank (x.teams.map (fun t => s.gr (s.tm t).grid))).head?).getD Grid.blank
/-- A waiter fits a core, in a bank that it may have there (R310, R319, R333). -/
def Waiter.fits (w : Waiter) (core : Nat) (s : State) : Bool :=
  match w with
  | .next g => placeable g core s
  | .tasks x => taskFits core x s
  | .slot x => (match restoreBank x core s with | some b => fitTogether core (some b) x.teams s | none => false) && spacePermits x core s && detPermits x core s
/-- A waiter fits a core in every respect but the banks (R313). -/
def Waiter.fitsBut (w : Waiter) (core : Nat) (s : State) : Bool :=
  match w with
  | .next g => (nextTeam g core).isSome && fitsCore core none g g.teamSize s
  | .tasks x => clusterOf core == x.1 && fitsCore core none (w.grid s) x.2.2.length s
  | .slot x => fitTogether core none x.teams s && spacePermits x core s && detPermits x core s
/-- Contexts that wait to be brought in onto a core, with the PRIORITY of the waiting team's grid: a team of theirs fits but for the banks, and no bank holds or could hold them (R313). -/
def bringIn (core : Nat) (s : State) : List (Nat × Nat × Nat) :=
  ((waiters s).filter (fun w => (bankFor core (w.grid s).fn (w.grid s).ctx s).isNone && w.fitsBut core s)).map (fun w => ((w.grid s).fn, (w.grid s).ctx, (w.grid s).priority))
/-- A bank may be saved for a context of a PRIORITY: its own is lower, or equal and it has held the bank for its TSLICE (R313). -/
def evictable (core bank prio : Nat) (s : State) : Bool :=
  match (s.bank core bank).ctx with
  | none => false
  | some (f, x) =>
    let top := topPriority f x s
    top < prio || (top == prio && decide ((s.bank core bank).since + sliceOfCtx f x s ≤ s.gtick))
/-- Rank of a bank among those that may be saved: the lower PRIORITY first, then the one held longer (R313). -/
def evictRank (core bank : Nat) (s : State) : Nat :=
  match (s.bank core bank).ctx with
  | none => 0
  | some (f, x) => topPriority f x s * 2 ^ 64 + (s.bank core bank).since
/-- A cluster whose contexts must leave: it is being revoked, or its deck changes its role (R346, R353). -/
def mustLeave (cluster : Nat) (s : State) : Bool := (s.cluster cluster).cstate == 2 || (s.topo.2.1 != 0 && s.topo.2.2 == cluster / 16)
/-- A bank's context must be saved because another must be brought in, or because its cluster is taken away (R313, R346, R353). -/
def saveWanted (core bank : Nat) (s : State) : Bool :=
  let both := (s.bank core 0).ctx.isSome && (s.bank core 1).ctx.isSome
  mustLeave (clusterOf core) s || (both && (bringIn core s).any (fun w =>
    evictable core bank w.2.2 s && !(evictable core (1 - bank) w.2.2 s && decide (evictRank core (1 - bank) s < evictRank core bank s))))
/-- The save of a context is wanted, or asked for by DBGCMD (R338). -/
def saveAsked (core bank fn ctx : Nat) (s : State) : Bool :=
  let c := (s.reg fn false 0x680).toNat
  saveWanted core bank s || (c.testBit 31 && bitsOf c 30 28 == 4 && bitsOf c 23 12 == ctx)
/-- The deadline for saves from a cluster that is being revoked has passed (R346). -/
def pastDeadline (cluster : Nat) (s : State) : Bool := (s.cluster cluster).cstate == 2 && decide ((s.cluster cluster).deadline ≤ s.gtick)
/-- BANK_SAVE: a bank's context is saved (R313, R332, R338); none whose save would come after its deadline (R346). -/
def execBankSave (core bank : Nat) (s : State) : Out State :=
  let asked := match (s.bank core bank).ctx with | some (f, x) => saveAsked core bank f x s | none => saveWanted core bank s
  if 1 < bank || !asked || pastDeadline (clusterOf core) s then .fault .notPending
  else
    match saveBank core bank s with
    | some s => done s
    | none => .fault .heldBack
/-- Every live thread waits as R314 asks. -/
def teamIdle (team : Nat) (s : State) : Bool :=
  let l := s.liveOf team
  !l.isEmpty && l.all (fun t =>
    t.stopped.isNone && t.ld == 0 && t.tl == 0 && t.cp == 0 &&
    (match t.phase with
     | .barrier | .sleep | .parked .ctrWait | .parked .launchFull | .parked .keys | .parked .service | .parked .pageRequest => true
     | _ => false))
/-- TEAM_SAVE: one waiting team is saved, because a team of equal or higher PRIORITY waits that would fit in its place; the parts its core owns go to their slots (R314, R315, R332). -/
def execTeamSave (team : Nat) (s : State) : Out State :=
  let tm := s.tm team
  let g := s.gr tm.grid
  let without := { s with teams := s.teams.filter (fun (t : Team) => t.uid != team) }
  let asked := (waiters s).any (fun w => decide (g.priority ≤ (w.grid s).priority) && !w.fits tm.core s && w.fits tm.core without)
  match s.context? g.fn g.ctx with
  | none => .fault .notPending
  | some c =>
    if tm.saved.isSome || !teamIdle team s || !asked || pastDeadline (clusterOf tm.core) s then .fault .notPending
    else
      match freeSaveSlot c s with
      | none => .fault .heldBack
      | some n =>
        if saveWaits tm.core g.fn g.ctx [team] s then .fault .heldBack
        else
          let space := (liveSpace g.fn g.ctx (clusterOf tm.core) s).map Space.id
          let s := match space with | some sp => storeParts sp (some tm.core) s | none => s
          done (saveTeams c n true [tm] space [] [] s)

/-! ### Kills of a context that finds its saved records altered (R335) -/

/-- Bytes of a thread record that system software may have changed: V outside PENDING registers, PC, PRED bits 1 to 7, FLAGS, in a STOPPED or FAULTED thread; PRED bit 0 is not looked at (R186). -/
def recordDiffOk (t : Thread) (old new : List Byte) : Bool :=
  old == new ||
  ((t.stopped.isSome || t.phase == .faulted) && new.length == 640 &&
   (List.range 128).all (fun n => !t.pendV.contains n || fieldOf old (4 * n) 4 == fieldOf new (4 * n) 4) &&
   (List.range 128).all (fun n => decide (n < t.owned) || fieldOf new (4 * n) 4 == 0) &&
   (old.drop 521).take 3 == (new.drop 521).take 3 && old.drop 528 == new.drop 528)
/-- A thread with what its record now holds; p0 is 1 whatever that holds (R186), and a PC that was changed may meet its breakpoint (R336). -/
def Thread.ofRecord (t : Thread) (b : List Byte) : Thread :=
  { t with
    v := (List.range t.owned).map (fun n => BitVec.ofNat 32 (fieldOf b (4 * n) 4))
    pc := BitVec.ofNat 64 (fieldOf b 512 8)
    passBp := t.passBp && t.pc.toNat == fieldOf b 512 8
    p := BitVec.ofNat 8 (fieldOf b 520 1 ||| 1)
    flags := BitVec.ofNat _ (fieldOf b 524 4) }

/-! ### Restores (R333, R310) -/

/-- Threads of saved teams read back from their records; false where a record was altered as R335 forbids. -/
def readImages (ids : List Nat) (s : State) : State × Bool :=
  (s.threads.filter (fun t => ids.contains t.team)).foldl (fun (r : State × Bool) t =>
    let b := r.1.mem.bytes.readN t.imageAt 640
    let ok := recordDiffOk t t.image b && fieldOf b 512 8 % 4 == 0
    let s := r.1.modThr t.uid (fun t => if ok && t.image != b then { t.ofRecord b with imageAt := 0, image := [] } else { t with imageAt := 0, image := [] })
    (s, r.2 && ok)) (s, true)
/-- A thread that was parked on a full queue of the core it left issues its instruction afresh on the new one (R314, R253). -/
def Thread.onNewCore (t : Thread) : Thread :=
  if t.waitsIn (.parked .launchFull) || t.waitsIn (.parked .copyWait) then (if t.wait.go then t.wake else t.wakeAfresh) else t
/-- A saved team stands on a core again, in new slots of its lanes (R140, R333). -/
def placeSaved (core bank team : Nat) (s : State) : State :=
  let tm := s.tm team
  let old := sortBy id ((s.threadsOf team).map Thread.slot).eraseDups
  let slots := freeSlots core bank (slotsOf tm.size) s
  let ts := freeTeamSlot core bank s
  let s := { s with threads := s.threads.map (fun (t : Thread) =>
      if t.team == team then { t with slot := nth (nth 0 slots 0) slots (old.findIdx (fun n => n == t.slot)) }.onNewCore else t) }
  let s := resumeBins core team (s.modTeam team (fun tm => { tm with core := core, bank := bank, slot := ts, saved := none }))
  { s with
    reqs := s.reqs.map (fun r => if r.team == team then { r with core := core } else r)
    mem := { s.mem with watches := s.mem.watches.filter (fun w => w.1 != team) } }
/-- On a core where a context resumes, its lines granted before its save serve no load any more (R116). -/
def dropOlder (core fn ctx tick : Nat) (s : State) : State :=
  { s with mem := { s.mem with l1 := s.mem.l1.filterMap (fun (x : L1Line) =>
      if x.core == core && x.fn == fn && x.ctx == ctx && (match x.copy with | some (_, _, g, _) => decide (g < tick) | none => false) then
        (if x.dirty.isEmpty then none else some { x with copy := none })
      else some x) } }
/-- The context is killed by a restore that finds an altered record; the body is the caller's kill (R335). -/
def restoreSlot (kill : Nat → Nat → State → State) (x : SaveSlot) (core bank : Nat) (s : State) : State :=
  match x.teams with
  | [] => { s with slots := s.slots.filter (· != x) }
  | t :: _ =>
    let g := s.gr (s.tm t).grid
    let (s, ok) := readImages x.teams s
    if !ok then kill x.fn x.ctx s
    else
      let s := openCore core bank g s
      let s := dropOlder core x.fn x.ctx (x.teams.foldl (fun m t => max m (s.tm t).saveTick) 0) s
      let s := x.teams.foldl (fun s t => placeSaved core bank t s) s
      let s := x.teams.foldl (fun s t =>
        let tm := s.tm t
        if (s.gr tm.grid).det && !tm.task then s.modGrid tm.grid (fun g => { g with lmap := setNth 0 g.lmap (tm.id % g.ncores) (core + 1) }) else s) s
      let s := match x.space.bind s.space? with | some sp => if sp.cluster.isNone then loadSpace sp.id (clusterOf core) s else s | none => s
      let s := if x.team then s else s.setBank core bank { s.bank core bank with acc := x.acc, accPoison := x.accPoison }
      let s := { s with slots := s.slots.filter (· != x) }
      match s.context? x.fn x.ctx with
      | some c => (writePhys x.fn (slotBase c x.slot) (leBytes 0 4) s).1
      | none => s
end Sys2Proof.Machine
end

