-- ==== Sys2Proof/Machine/Kill.lean ====
section
/-! DEFINITION. Kills of contexts and the restores that may end in one (spec/15_faults_and_preemption.md R333, R335, R340, R342, R343). -/
namespace Sys2Proof.Machine

/-! ### Records in the rings (R325, R327) -/

/-- Address of fault record n of a context. -/
def recordPa (c : Context) (n : Nat) : Nat := c.imageArea + 0x1000 + 128 * (n % 256)
/-- A record that has been acted on takes its STATE; written, it takes it in memory, where it is open no longer; not written yet, it keeps it until it is (R325, R329). -/
def closeRecord (state id : Nat) (s : State) : State :=
  match s.faults.find? (fun r => r.id == id) with
  | none => s
  | some r =>
    match r.written, s.context? r.fn r.ctx with
    | some n, some c =>
      let s := { s with faults := s.faults.filter (fun r => r.id != id) }
      if n + 256 < c.seq then s else (writePhys r.fn (recordPa c n + 72) (leBytes state 4) s).1
    | _, _ => { s with faults := s.faults.map (fun (r : FaultRec) => if r.id == id then { r with state := state, team := 0, grid := 0 } else r) }

/-! ### Kills (R342) -/

/-- An atomic in flight performs once, and its reply is discarded (R342, R125). -/
def performOrphan (r : Req) (s : State) : State :=
  match r.work with
  | .atomic _ _ pa mt o _ =>
    if 2 ≤ mt then s
    else
      let old := leNat (s.mem.bytes.readN pa (elemBytes o.ty))
      (acceptWrite (s.gr (s.tm r.team).grid).fn (pa / 128) (cellsOf pa (leBytes (o.apply old).1 (elemBytes o.ty))) false s).1
  | _ => s
/-- The save slots of a context are freed: their headers say so (R342, R333). -/
def freeSlotsOf (fn ctx : Nat) (s : State) : State :=
  match s.context? fn ctx with
  | none => s
  | some c => (s.slots.filter (fun (x : SaveSlot) => x.fn == fn && x.ctx == ctx)).foldl (fun s x => (writePhys fn (slotBase c x.slot) (leBytes 0 4) s).1) s
/-- A queue names a context: by its admission, or, not admitted yet, by the descriptor that its own one points to (R305, R342). -/
def namesContext (fn ctx : Nat) (x : Queue) (s : State) : Bool :=
  x.fn == fn && x.qdesc.getLsbD 0 &&
  (if x.admitted then x.ctxId == ctx
   else match (readPhys fn x.ctxdesc 12 s).2 with | some b => fieldOf b 8 4 == ctx | none => false)
/-- A context is killed (R342). -/
def killContext (fn ctx : Nat) (s : State) : State :=
  let mine (g : Grid) : Bool := g.fn == fn && g.ctx == ctx
  let gids := (s.grids.filter mine).map Grid.uid
  let teams := (s.teams.filter (fun t => gids.contains t.grid)).map Team.uid
  let ths := (s.threads.filter (fun t => teams.contains t.team)).map Thread.uid
  let s := ((s.allReqs).filter (fun r => teams.contains r.team)).foldl (fun s r => performOrphan r s) s
  let s := teams.foldl (fun s t => closeView t (unpinTeam t s)) s
  let qs := (s.queues.filter (fun q => namesContext fn ctx q s)).map Queue.q
  let s := ((s.faults.filter (fun r => r.fn == fn && r.ctx == ctx)).map FaultRec.id).foldl (fun s id => closeRecord 2 id s) s
  let s := freeSlotsOf fn ctx s
  let cores := (s.cores.map Core.core)
  let entries := (s.grids.filter mine).filterMap Grid.pendingOn
  let queues := (s.copies.filter (fun c => c.fn == fn && c.ctx == ctx)).map Copy.core
  let s := { s with
    waves := (s.waves.map (fun w => { w with members := w.members.filter (fun u => !ths.contains u) })).filter (fun w => !w.members.isEmpty)
    threads := s.threads.filter (fun t => !teams.contains t.team)
    teams := s.teams.filter (fun t => !teams.contains t.uid)
    tasks := s.tasks.filter (fun t => !gids.contains t.grid)
    reqs := s.reqs.filter (fun r => !teams.contains r.team)
    coll := s.coll.filter (fun e => !(e.fn == fn && e.ctx == ctx))
    copies := s.copies.filter (fun c => !(c.fn == fn && c.ctx == ctx))
    bins := s.bins.filter (fun b => !teams.contains b.team)
    spaces := s.spaces.filter (fun x => !(x.fn == fn && x.ctx == ctx))
    slots := s.slots.filter (fun (x : SaveSlot) => !(x.fn == fn && x.ctx == ctx))
    services := s.services.filter (fun r => !(r.fn == fn && r.ctx == ctx))
    queues := s.queues.map (fun q => if qs.contains q.q then { q with held := true, resident := false } else q)
    worlds := s.worlds.map (fun (w : World) => if w.fn == fn then { w with keyReq := w.keyReq.filter (fun g => !gids.contains g) } else w)
    grids := s.grids.map (fun g => if mine g then { g with killed := true, reds := [], flushTick := none, keysReq := false, pendingOn := none, next := g.teamCount, tail := [], lost := [] } else g)
    cores := cores.map (fun n => let c := s.core n; { c with banks := c.banks.map (fun b => if b.ctx == some (fn, ctx) then Bank.reset else b) })
    mem := { s.mem with
      l1 := s.mem.l1.filter (fun x => !(x.fn == fn && x.ctx == ctx))
      watches := s.mem.watches.filter (fun w => !teams.contains w.1) } }
  let s := entries.foldl (fun s c => wakeLaunch c s) s
  { s with threads := s.threads.map (fun (t : Thread) =>
      if t.waitsIn (.parked .copyWait) && queues.contains (s.tm t.team).core then (if t.wait.go then t.wake else t.wakeAfresh) else t) }
/-- A record of a kill that no action caused: it names no thread and is closed (R335, R340, R59). -/
def killRecord (cause : Cause) (d : Detail) (fn ctx : Nat) (s : State) : State :=
  let (id, s) := s.fresh
  let r : FaultRec := ⟨id, cause, d, fn, ctx, 0, 0, 0, 0xFFFFFFFF, 0, 0, 0, [], s.gtick, 0, false, s.issue, 0, false, none, 2⟩
  { s with faults := s.faults ++ [r] }
/-- A context is killed with a cause of its own. -/
def killWith (cause : Cause) (d : Detail) (fn ctx : Nat) (s : State) : State := killRecord cause d fn ctx (killContext fn ctx s)
/-- Contexts of a function: the live ones, and those that a queue of it has been admitted for (R343). -/
def contextsOf (fn : Nat) (s : State) : List Nat :=
  (s.contexts.filter (fun c => c.fn == fn && (s.ctxLive fn c.ctx || s.queues.any (fun q => q.fn == fn && q.admitted && !q.held && q.ctxId == c.ctx)))).map Context.ctx
/-- VFKILL: every context of the function is killed, and GO reads 0 (R343). -/
def execVfkill (v : Word) (s : State) : Out State :=
  let f := v.toNat % 32
  if !v.getLsbD 31 then done (s.setReg 0 true 0x1200 (BitVec.ofNat 64 f))
  else
    let s := s.setReg 0 true 0x1200 (BitVec.ofNat 64 f)
    if 16 < f then done s else done ((contextsOf f s).foldl (fun s c => killContext f c s) s)

/-! ### Restores (R333) -/

/-- CONTEXT_RESTORE: slot is the place of the saved slot among those in use; a team saved alone must have a cleared wait; grids that come first, and a grid that holds the later ones back, precede it (R310, R314, R333). -/
def execContextRestore (slot core : Nat) (s : State) : Out State :=
  match s.slots[slot]? with
  | none => .fault .notPending
  | some x =>
    let ready := !x.team || x.teams.any (fun t => resumable t s)
    if !ready || 512 ≤ core || !inPartition x.fn (clusterOf core) s then .fault .notPending
    else
      match restoreBank x core s with
      | none => .fault .heldBack
      | some b =>
        if preceded ((Waiter.slot x).grid s) s || !fitTogether core (some b) x.teams s || !spacePermits x core s || !detPermits x core s then .fault .heldBack
        else done (restoreSlot (killWith .engineFault {}) x core b s)

end Sys2Proof.Machine
end

