-- ==== Sys2Proof/Machine/Peer.lean ====
section
/-! DEFINITION. Dispatches, combines and collectives over Uttenlink (spec/11_memory_instructions.md R255 to R261; spec/06_memory_ordering.md R131). -/
namespace Sys2Proof.Machine

/-! ### Shared operations -/

/-- A physical address on peer p (Table 2.4). -/
def peerPa (p pa : Nat) : Nat := 0x7000000000000 + p * 0x80000000000 + pa
/-- The bytes that an instruction reads in order to interpret them, as one load of n bytes (R234, R135). -/
def loadDesc (u va n : Nat) (s : State) : State × (List Byte ⊕ (Cause × Detail)) :=
  let tm := s.teamOf u
  let g := s.gridOf u
  match checkThread .read accLoad false u [((va : Int), n)] s with
  | (s, .bad c d) => (s, .inr (c, d))
  | (s, .migrating) => (s, .inr (.pageNotPresent, { kind := accLoad, addr := va }))
  | (s, .ok ps) =>
    match ps with
    | .glob va pa mt :: _ =>
      match (if 2 ≤ mt then hostPage g.fn g.ctx pa (if mt = 3 then 2 ^ 62 else 0) s else (s, true)) with
      | (s, false) => (s, .inr (.pageNotPresent, { kind := accLoad, addr := va }))
      | (s, true) =>
        let (s, bs, p) := loadBytes tm g.fn g.ctx va pa mt n s
        if p then (s, .inr (.poison, { kind := accLoad, addr := va })) else (s, .inl bs)
    | _ => (s, .inr (.pageNotPresent, { kind := accLoad, addr := va }))
/-- A descriptor of 64 bytes; a misaligned one raises RESERVED_FIELD (R256). -/
def loadDesc64 (u va : Nat) (s : State) : State × (List Byte ⊕ (Cause × Detail)) :=
  if va % 64 != 0 then (s, .inr (.reservedField, { kind := accLoad, addr := va })) else loadDesc u va 64 s
/-- An engine's local source, each byte with its poison, read line by line as a CPY reads it (R131, R68, R135). -/
def readMarked (core fn ctx : Nat) : Nat → Nat → Nat → State → State × (List (Byte × Bool) ⊕ (Cause × Detail))
  | 0, _, _, s => (s, .inl [])
  | fuel + 1, va, n, s =>
    if n = 0 then (s, .inl [])
    else
      let k := min n (128 - va % 128)
      match readVa core fn ctx va k s with
      | (s, .bad c m a) => (s, .inr (c, { kind := accEngineRead ||| m, addr := a }))
      | (s, .bytes bs p) =>
        match readMarked core fn ctx fuel (va + k) (n - k) s with
        | (s, .inl r) => (s, .inl (bs.map (·, p) ++ r))
        | r => r
/-- A team's engine source: its dirty lines go first (R131, R68). -/
def readLocal (team va n : Nat) (s : State) : State × (List (Byte × Bool) ⊕ (Cause × Detail)) :=
  let tm := s.tm team
  let g := s.gr tm.grid
  readMarked tm.core g.fn g.ctx (n / 128 + 2) va n (writeBackRange team va n s)
/-- What a run of engine writes answers: bytes written, the largest Tw, and the fault that stopped it. -/
structure Wrote where
  n : Nat
  tw : Nat
  bad : Option (Cause × Nat × Nat)
  deriving DecidableEq, Repr
/-- Bytes written line by line in ascending order until one faults (R22, R53); a line's write is poisoned where one of its bytes is (R135). -/
def writeRun (core fn ctx : Nat) : Nat → Nat → List (Byte × Bool) → Wrote → State → State × Wrote
  | 0, _, _, w, s => (s, w)
  | fuel + 1, va, bs, w, s =>
    if bs.isEmpty then (s, w)
    else
      match xlateUnit .write core fn ctx va s with
      | (s, .bad c m) => (s, { w with bad := some (c, m, va) })
      | (s, .ok pa _ _) =>
        let k := 128 - va % 128
        let x := bs.take k
        let (s, tw) := writePlace fn ctx pa (x.map (·.1)) (x.any (·.2)) s
        writeRun core fn ctx fuel (va + k) (bs.drop k) { w with n := w.n + x.length, tw := max w.tw tw } s
/-- Bytes of a team's engine work written from an address on. -/
def writeLocal (team va : Nat) (bs : List (Byte × Bool)) (s : State) : State × Wrote :=
  let tm := s.tm team
  let g := s.gr tm.grid
  writeRun tm.core g.fn g.ctx (bs.length / 128 + 2) va bs ⟨0, 0, none⟩ s
/-- Bytes leave for a peer, one write for each line they fall in, poisoned where one of its bytes is (R135). -/
def sendMarked (fn ctx pa : Nat) (bs : List (Byte × Bool)) (s : State) : State :=
  (splitLines (bs.length / 128 + 2) pa bs).foldl (fun s p => s.sendOut fn ctx p.1 (p.2.map (·.1)) (p.2.any (·.2))) s
/-- Marks of poisoned offsets. -/
def withPoison (bs : List Byte) (bad : List Nat) : List (Byte × Bool) := (bs.zip (List.range bs.length)).map (fun p => (p.1, bad.contains p.2))
/-- Offsets of poisoned bytes. -/
def badOf (bs : List (Byte × Bool)) : List Nat := ((bs.zip (List.range bs.length)).filter (fun p => p.1.2)).map (·.2)
/-- A transfer of a thread is handed to the engine; its CP count rises. -/
def addTransfer (u : Nat) (i : Instr) (desc : List Byte) (args : List Nat) (fault : Option (Cause × Detail)) (s : State) : State :=
  let pc := (s.thr u).pc
  let id := s.nextId
  (addReq .cp [u] (s.thr u).team (.dispatch u i desc args 0 0 pc) pc false [] s).modReq id (fun r => { r with fault := fault })
/-- Changes the stage of a transfer. -/
def State.setTransfer (s : State) (id : Nat) (args : List Nat) (stage prog : Nat) : State :=
  s.modReq id (fun r => match r.work with | .dispatch t i d _ _ _ pc => { r with work := .dispatch t i d args stage prog pc } | _ => r)

/-! ### DSEND (R255, R256) -/

/-- The descriptor breaks Table 11.2. -/
def sendBad (b : List Byte) : Bool :=
  let n := fieldOf b 8 4
  n % 16 != 0 || decide (n < 16) || decide (65536 < n) || fieldOf b 12 4 == 0 || decide (4096 < fieldOf b 12 4) || fieldOf b 16 8 % 256 != 0 ||
  fieldOf b 24 4 == 0 || decide (2 ^ 20 < fieldOf b 24 4) || fieldOf b 28 4 != 0 || fieldOf b 40 24 != 0
/-- A reserved field of a route word is not 0. -/
def routeBad (r : Nat) : Bool := bitsOf r 31 21 != 0 || bitsOf r 15 12 != 0
/-- PEER of a route word. -/
def routePeer (r : Nat) : Nat := bitsOf r 20 16
/-- EXPERT of a route word. -/
def routeExpert (r : Nat) : Nat := bitsOf r 11 0
/-- The slots of an expert at its device: the fill counter, and the row in slot q (R255). -/
def fillAt (b : List Byte) (e : Nat) : Nat := fieldOf b 16 8 + 8 * e
/-- The row in slot q of an expert (R255). -/
def rowAt (b : List Byte) (e q : Nat) : Nat := fieldOf b 16 8 + 0x8000 + (e * fieldOf b 24 4 + q) * fieldOf b 8 4
/-- The atomic fetch-add of a dispatch (R256). -/
def fetchAdd : AtomOp := ⟨0, 0, .i64, 0, 1, 0⟩
/-- A dispatch has its row: the fetch-add goes to the device of the route; on the issuing device it comes with the reply (R256). -/
def askSlot (fn ctx : Nat) (b : List Byte) (route : Nat) (s : State) : State :=
  if routePeer route = Config.device % 32 then s else s.leave fn ctx (peerPa (routePeer route) (fillAt b (routeExpert route))) (.atomic fetchAdd)
/-- DSEND in one thread: the descriptor is checked, the row is read, and the slot is asked for; where older stores to the row are outstanding, the engine reads it later (R256, R131). -/
def sendThread (x : WA) (u : Nat) (s : State) : State :=
  let t := s.thr u
  let tm := s.teamOf u
  let g := s.gridOf u
  let va := (t.rpair (rn x.a)).toNat
  let route := (x.ob.val tm t).toNat
  let row := (x.x.oc.val tm t).toNat
  match loadDesc64 u va s with
  | (s, .inr (c, d)) => raise c d u s
  | (s, .inl b) =>
    if sendBad b || routeBad route then raise .reservedField { kind := accLoad, addr := va } u s
    else if fieldOf b 12 4 ≤ routeExpert route then raise .bounds { kind := accLoad, addr := va } u s
    else
      let n := fieldOf b 8 4
      let src := fieldOf b 0 8 + row * n
      let s := writeBackRange t.team src n (s.modThr u (fun t => { t with pendV := t.pendV ++ [rn x.d] }))
      if sourceLate s.nextId u t.team src n s then
        let id := s.nextId
        (addTransfer u (.dsend x) b [route, src] none s).setTransfer id [route, src] 3 0
      else
        match readLocal t.team src n s with
        | (s, .inr (c, d)) => addTransfer u (.dsend x) b [route, 0] (some (c, d)) s
        | (s, .inl r) => askSlot g.fn g.ctx b route (addTransfer u (.dsend x) (b ++ r.map (·.1)) (route :: 0 :: badOf r) none s)
/-- DSEND (R256). -/
def execDsend (x : WA) (s : State) : Out State :=
  let u := (use12 x.e x.x.g (regs (rn x.a) true) [rn x.d]).reads [x.ob, x.x.oc] false
  issue { u with cls := .cp, kind := accLoad } false (fun us s => us.foldl (fun s u => sendThread x u s) s) s
/-- A DSEND's or another transfer's stage, with the request. -/
def withTransfer (req stage : Nat) (f : Req → Nat → Instr → List Byte → List Nat → State → Out State) (s : State) : Out State :=
  match s.req? req with
  | none => .fault .notPending
  | some r =>
    match r.work with
    | .dispatch u i b args st _ _ => if st == stage && r.fault.isNone then f r u i b args s else .fault .notPending
    | _ => .fault .notPending
/-- A transfer stops at its progress with ENGINE_FAULT (R256, R260). -/
def failTransfer (req kind addr : Nat) (s : State) : State :=
  s.modReq req (fun r => match r.work with
    | .dispatch _ _ _ _ _ prog _ => { r with fault := some (.engineFault, { kind := kind, addr := addr, prog := prog }) }
    | _ => r)
/-- The slot number of a dispatch is there: vD and the row are written, or nothing is (R256). -/
def takeSlot (r : Req) (u : Nat) (x : WA) (b : List Byte) (args : List Nat) (q : Nat) (s : State) : State :=
  let g := s.gr (s.tm r.team).grid
  let route := args.headD 0
  let kept := decide (q < fieldOf b 24 4)
  let v : Word := if kept then BitVec.ofNat 32 q else 0xFFFFFFFF
  let s := s.modThr u (fun t => if t.pendV.contains (rn x.d) then { t.wv (rn x.d) v with pendV := t.pendV.filter (· ≠ rn x.d) } else t)
  if !kept then (if s.det r.team then setNdet r.team s else s).setTransfer r.id [route, 0] 1 0
  else
    let row := withPoison (b.drop 64) (args.drop 2)
    let pa := rowAt b (routeExpert route) q
    if routePeer route = Config.device % 32 then
      if !s.admits (s.tagOf g.fn) pa row.length then failTransfer r.id accEngineWrite pa s
      else
        let (s, tw) := acceptMarked (s.ownerOf (granuleOf pa)) pa row s
        s.setTransfer r.id [route, tw] 1 row.length
    else (sendMarked g.fn g.ctx (peerPa (routePeer route) pa) row s).setTransfer r.id [route, 0] 1 row.length
/-- DISPATCH_SLOT_REPLY: the slot number returns, and the row is written at the route's device, or nothing (R256). On the issuing device the number is what its own fill counter held. A row that was still to be read is read first. -/
def execDispatchSlotReply (req q : Nat) (s : State) : Out State :=
  match s.req? req with
  | none => .fault .notPending
  | some r =>
    let g := s.gr (s.tm r.team).grid
    match r.work with
    | .dispatch u (.dsend x) b args stage _ _ =>
      if r.fault.isSome then .fault .notPending
      else if stage == 3 then
        let n := fieldOf b 8 4
        let src := nth 0 args 1
        let s := writeBackRange r.team src n s
        if sourceLate r.id u r.team src n s then .fault .heldBack
        else
          match readLocal r.team src n s with
          | (s, .inr (c, d)) => done (s.modReq req (fun r => { r with fault := some (c, d) }))
          | (s, .inl row) =>
            done (askSlot g.fn g.ctx b (args.headD 0) (s.modReq req (fun r => { r with work := .dispatch u (.dsend x) (b ++ row.map (·.1)) (args.headD 0 :: 0 :: badOf row) 0 0 r.pc })))
      else if stage != 0 then .fault .notPending
      else if routePeer (args.headD 0) = Config.device % 32 then
        let pa := fillAt b (routeExpert (args.headD 0))
        if !s.admits (s.tagOf g.fn) pa 8 then done (failTransfer req accEngineWrite pa s)
        else
          let old := leNat (s.mem.bytes.readN pa 8)
          done (takeSlot r u x b args old (acceptWrite (s.ownerOf (granuleOf pa)) (pa / 128) (cellsOf pa (leBytes (old + 1) 8)) false s).1)
      else done (takeSlot r u x b args q s)
    | _ => .fault .notPending
/-- DISPATCH_NOTIFY: every row write has reached its Tw at the route's device, and NOTIFY is added to (R256, R131). -/
def execDispatchNotify (req : Nat) (s : State) : Out State :=
  withTransfer req 1 (fun r _ i b args s =>
    match i with
    | .dsend _ =>
      let g := s.gr (s.tm r.team).grid
      let route := args.headD 0
      let pa := fieldOf b 32 8
      let prog := match r.work with | .dispatch _ _ _ _ _ p _ => p | _ => 0
      if routePeer route = Config.device % 32 then
        if s.gtick < nth 0 args 1 then .fault .notPending
        else if !s.admits (s.tagOf g.fn) pa 8 then done (failTransfer req accEngineWrite pa s)
        else
          let (s, _) := acceptWrite (s.ownerOf (granuleOf pa)) (pa / 128) (cellsOf pa (leBytes (leNat (s.mem.bytes.readN pa 8) + 1) 8)) false s
          done (s.setTransfer req args 2 prog)
      else done ((s.leave g.fn g.ctx (peerPa (routePeer route) pa) .add).setTransfer req args 2 prog)
    | _ => .fault .notPending) s
/-- DISPATCH_ACK: the notification is acknowledged, and CP falls (R256). -/
def execDispatchAck (req : Nat) (s : State) : Out State :=
  withTransfer req 2 (fun r _ i _ _ s => match i with | .dsend _ => done (complete r s) | _ => .fault .notPending) s

/-! ### DCOMB (R257) -/

/-- The descriptor breaks Table 11.3. -/
def combBad (b : List Byte) (eb : Nat) : Bool :=
  let n := fieldOf b 8 4
  n % 16 != 0 || n % eb != 0 || decide (n < 16) || decide (65536 < n) || fieldOf b 12 4 == 0 || decide (2 ^ 20 < fieldOf b 12 4) ||
  fieldOf b 24 4 == 0 || decide (8 < fieldOf b 24 4) || fieldOf b 28 4 == 0 || decide (4096 < fieldOf b 28 4) || fieldOf b 32 32 != 0
/-- Registers that DCOMB names for K routes (R257). -/
def combRegs (x : WA) (k : Nat) : List Nat :=
  span (rn x.b) (2 * k) ++ (if x.x.fn == 1 then span (rn x.x.c) k else []) ++ [rn x.x.w2 % 128]
/-- DCOMB in one thread: descriptor and routes are checked, and the rows are asked for (R257). -/
def combThread (x : WA) (u : Nat) (s : State) : State :=
  let t := s.thr u
  let va := (t.rpair (rn x.a)).toNat
  match loadDesc64 u va s with
  | (s, .inr (c, d)) => raise c d u s
  | (s, .inl b) =>
    if combBad b (elemBytes x.x.ty) then raise .reservedField { kind := accLoad, addr := va } u s
    else
      let k := fieldOf b 24 4
      let named := combRegs x k
      let routes := (List.range k).map (fun j => ((t.rv (rn x.b + 2 * j)).toNat, (t.rv (rn x.b + 2 * j + 1)).toNat, (t.rv (rn x.x.c + j)).toNat))
      if named.any (fun r => decide (t.owned ≤ r)) then raise .reservedField { kind := markRegister } u s
      else if named.any t.poison.contains then raise .poison { kind := accLoad } u s
      else if routes.any (fun r => r.1 != 0xFFFFFFFF && routeBad r.1) then raise .reservedField { kind := accLoad, addr := va } u s
      else if routes.any (fun r => r.1 != 0xFFFFFFFF && decide (fieldOf b 28 4 ≤ routeExpert r.1)) then raise .bounds { kind := accLoad, addr := va } u s
      else
        let used := routes.filter (fun r => r.1 != 0xFFFFFFFF && r.2.1 != 0xFFFFFFFF)
        let n := fieldOf b 8 4
        let g := s.gridOf u
        let row (r : Nat × Nat × Nat) : Nat := fieldOf b 0 8 + 0x8000 + (routeExpert r.1 * fieldOf b 12 4 + r.2.1) * n
        let own (r : Nat × Nat × Nat) : Bool := routePeer r.1 == Config.device % 32
        let s := used.foldl (fun s r => if own r then s else s.leave g.fn g.ctx (peerPa (routePeer r.1) (row r)) (.read n)) s
        addTransfer u (.dcomb x) b ((t.rv (rn x.x.w2 % 128)).toNat :: used.flatMap (fun r => [r.2.2, if own r then row r + 1 else 0])) none s
/-- DCOMB (R257). -/
def execDcomb (x : WA) (s : State) : Out State :=
  issue { use12 x.e x.x.g (regs (rn x.a) true) [] with cls := .cp, kind := accLoad, hv := fun _ _ => combRegs x 8 } false
    (fun us s => us.foldl (fun s u => combThread x u s) s) s
/-- One element of a combine: the exact sum of its terms, rounded once (R257). -/
def combElem (x : WA) (terms : List (Nat × Nat)) : Nat × Flags :=
  let ty := x.x.ty
  exactSum ty (rn x.x.rnd) false .ieee
    (terms.map (fun p => if x.x.fn == 1 then productTerm (unpack .f32 p.1) (unpack ty p.2) else unpack ty p.2))
/-- The output row of a combine, and its flags. -/
def combRow (x : WA) (n : Nat) (weights : List Nat) (rows : List Byte) : List Byte × Flags :=
  let eb := elemBytes x.x.ty
  let outs := (List.range (n / eb)).map (fun i =>
    combElem x ((weights.zip (List.range weights.length)).map (fun p => (p.1, fieldOf rows (p.2 * n + i * eb) eb))))
  (outs.flatMap (fun o => leBytes o.1 eb), outs.foldl (fun f o => f ||| o.2) 0)
/-- The rows of a combine, in route order: those of peers as they came, those of the issuing device read from its own memory at L2, each byte with its poison; or the address of an own row that may not be read (R257). -/
def combRows (fn n : Nat) : List Nat → List (Byte × Bool) → State → State × (List (Byte × Bool) ⊕ Nat)
  | _ :: 0 :: rest, rows, s =>
    match combRows fn n rest (rows.drop n) s with
    | (s, .inl r) => (s, .inl (rows.take n ++ r))
    | r => r
  | _ :: (pa + 1) :: rest, rows, s =>
    if !s.admits (s.tagOf fn) pa n then (s, .inr pa)
    else
      let (s, bs) := (splitLines (n / 128 + 2) pa (List.range n)).foldl (fun (r : State × List (Byte × Bool)) p =>
        let (s, b, bad) := readL2 (s.ownerOf (granuleOf pa)) p.1 p.2.length r.1
        (s, r.2 ++ b.map (·, bad))) (s, [])
      match combRows fn n rest (rows.drop n) s with
      | (s, .inl r) => (s, .inl (bs ++ r))
      | r => r
  | _, _, s => (s, .inl [])
/-- Weights of the routes a combine uses. -/
def combWeights : List Nat → List Nat
  | w :: _ :: rest => w :: combWeights rest
  | _ => []
/-- Bytes of an output row whose terms hold a poisoned byte. -/
def combPoison (n eb k : Nat) (rows : List (Byte × Bool)) : List Nat :=
  (List.range n).filter (fun o => (List.range k).any (fun j => ((rows.drop (j * n + o / eb * eb)).take eb).any (·.2)))
/-- DCOMB_COMPLETE: the rows are there, and the output is written from the progress on, poisoned where a term is; at every Tw, CP falls and the flags are in FLAGS (R257, R135, R171). -/
def execDcombComplete (req : Nat) (rows : List Byte) (s : State) : Out State :=
  match s.req? req with
  | none => .fault .notPending
  | some r =>
    match r.work with
    | .dispatch u (.dcomb x) b args st prog _ =>
      let n := fieldOf b 8 4
      let g := s.gr (s.tm r.team).grid
      if r.fault.isSome then .fault .notPending
      else if st == 1 then
        if s.gtick < nth 0 args 1 then .fault .notPending
        else done (complete r (s.lateFlags u (BitVec.ofNat _ (args.headD 0))))
      else
        let ws := combWeights (args.drop 1)
        if rows.length != ws.length * n then .fault .notPending
        else
          match combRows g.fn n (args.drop 1) (rows.map (·, false)) s with
          | (s, .inr pa) => done (failTransfer req accEngineRead pa s)
          | (s, .inl rows) =>
            let (out, fl) := combRow x n ws (rows.map (·.1))
            let out := withPoison out (combPoison n (elemBytes x.x.ty) ws.length rows)
            let (s, w) := writeLocal r.team (fieldOf b 16 8 + args.headD 0 * n + prog) (out.drop prog) s
            match w.bad with
            | some (c, m, a) =>
              unitDone ((s.setTransfer req args 0 (prog + w.n)).modReq req (fun r => { r with fault := some (c, { kind := accEngineWrite ||| m, addr := a, prog := prog + w.n }) }))
            | none => unitDone (s.setTransfer req [fl.toNat, w.tw] 1 n)
    | _ => .fault .notPending

/-! ### COLL (R258 to R260) -/

/-- Element type of a collective. -/
def collType (b : List Byte) : ElemType := ElemType.ofCode (BitVec.ofNat 4 (fieldOf b 23 1))
/-- Blocks of the source and of the destination: one, or one for each rank (R260). -/
def collBlocks (fn n : Nat) : Nat × Nat := (if fn == 2 || fn == 3 then n else 1, if fn == 1 || fn == 3 then n else 1)
/-- Bytes of the source and of the destination. -/
def collBytes (fn : Nat) (b : List Byte) : Nat × Nat :=
  let blk := fieldOf b 16 4 * elemBytes (collType b)
  let (x, y) := collBlocks fn (fieldOf b 20 1)
  (x * blk, y * blk)
/-- The descriptor breaks Table 11.5 or R258. -/
def collBad (fn : Nat) (b : List Byte) : Bool :=
  let ty := collType b
  let n := fieldOf b 20 1
  let op := bitsOf (fieldOf b 23 1) 5 4
  let (sn, dn) := collBytes fn b
  let src := fieldOf b 0 8
  let dst := fieldOf b 8 8
  fieldOf b 16 4 == 0 || decide (2 ^ 28 < fieldOf b 16 4) || decide (n < 2) || decide (32 < n) || decide (n ≤ fieldOf b 21 1) ||
  (if fn == 4 then decide (n ≤ fieldOf b 22 1) else fieldOf b 22 1 != 0) || bitsOf (fieldOf b 23 1) 7 6 != 0 || decide (ty.width < 8) ||
  ((fn == 0 || fn == 2) && (op == 3 || !(ty == .i32 || ty == .n32 || ty == .i64 || ty == .f64 || ty == .f32 || ty == .f16 || ty == .bf16))) ||
  fieldOf b 26 2 != 0 || fieldOf b 28 4 != 0 || fieldOf b 48 16 != 0 ||
  (overlaps src sn dst dn && !((fn == 0 || fn == 4) && src == dst))
/-- A participation is posted: the next sequence of (function, GROUP) (R259). -/
def postColl (fn group : Nat) (s : State) : State × Nat :=
  let q := match s.collSeq.find? (fun c => c.1 == fn && c.2.1 == group) with | some c => c.2.2 | none => 0
  ({ s with collSeq := (fn, group, q + 1) :: s.collSeq.filter (fun c => !(c.1 == fn && c.2.1 == group)) }, q)
/-- COLL in one thread (R258). -/
def collThread (x : WA) (u : Nat) (s : State) : State :=
  let va := ((s.thr u).rpair (rn x.a)).toNat
  let fn := rn x.x.fn
  match loadDesc64 u va s with
  | (s, .inr (c, d)) => raise c d u s
  | (s, .inl b) =>
    if collBad fn b then raise .reservedField { kind := accLoad, addr := va } u s
    else
      let tm := s.teamOf u
      let g := s.gridOf u
      match readVa tm.core g.fn g.ctx (fieldOf b 40 8) 32 s with
      | (s, .bad c m a) => raise c { kind := accLoad ||| m, addr := a } u s
      | (s, .bytes _ true) => raise .poison { kind := accLoad, addr := fieldOf b 40 8 } u s
      | (s, .bytes tab false) =>
        let ranks := tab.take (fieldOf b 20 1)
        if (List.range ranks.length).any (fun i => (ranks.drop (i + 1)).contains (nth 0 ranks i)) then raise .reservedField { kind := accLoad, addr := fieldOf b 40 8 } u s
        else
          let (s, q) := postColl g.fn (fieldOf b 24 2) s
          addTransfer u (.coll x) (b ++ tab) [q] none (writeBackRange tm.uid (fieldOf b 0 8) (collBytes fn b).1 s)
/-- COLL (R258). -/
def execColl (x : WA) (s : State) : Out State :=
  issue { use12 x.e x.x.g (regs (rn x.a) true) [] with cls := .cp, kind := accLoad } false
    (fun us s => us.foldl (fun s u => collThread x u s) s) s
/-- One reduced element over the ranks (R260, R244, R245). -/
def collReduce (ty : ElemType) (op : Nat) (xs : List Nat) : Nat × Flags :=
  match xs with
  | [] => (0, 0)
  | x :: rest =>
    if ty.isFloat && op == 0 then exactSum ty 0 false .ieee (xs.map (unpack ty))
    else rest.foldl (fun (a : Nat × Flags) y => let (v, f) := (AtomOp.mk 0 op ty 0 y 0).apply a.1; (v, a.2 ||| f)) (x, 0)
/-- DST of a rank, and the flags, from every rank's source in rank order (R260). -/
def collResult (fn rank root count op : Nat) (ty : ElemType) (srcs : List (List Byte)) : List Byte × Flags :=
  let eb := elemBytes ty
  let el (r i : Nat) : Nat := fieldOf (nth [] srcs r) (i * eb) eb
  let blk (r o : Nat) : List Byte := ((nth [] srcs r).drop (o * count * eb)).take (count * eb)
  let red (o : Nat) : List Byte × Flags :=
    let outs := (List.range count).map (fun i => collReduce ty op ((List.range srcs.length).map (fun r => el r (o + i))))
    (outs.flatMap (fun p => leBytes p.1 eb), outs.foldl (fun f p => f ||| p.2) 0)
  match fn with
  | 0 => red 0
  | 1 => ((List.range srcs.length).flatMap (fun r => blk r 0), 0)
  | 2 => red (rank * count)
  | 3 => ((List.range srcs.length).flatMap (fun r => blk r rank), 0)
  | _ => (blk root 0, 0)
/-- Offsets of a rank's DST whose value rests on a poisoned source byte. -/
def collPoison (fn rank root count : Nat) (ty : ElemType) (bads : List (List Nat)) (n : Nat) : List Nat :=
  let eb := elemBytes ty
  let blk := count * eb
  (List.range n).filter (fun o =>
    match fn with
    | 0 => bads.any (fun b => (span (o / eb * eb) eb).any b.contains)
    | 1 => (nth [] bads (o / blk)).contains (o % blk)
    | 2 => bads.any (fun b => (span (rank * blk + o / eb * eb) eb).any b.contains)
    | 3 => (nth [] bads (o / blk)).contains (rank * blk + o % blk)
    | _ => (nth [] bads root).contains o)
/-- What the devices compare at the start: COUNT, NRANKS, ROOT and TYPEOP, beside the function (R259). -/
def collSame (a b : List Byte) : Bool := a.length == 64 && (a.drop 16).take 5 == (b.drop 16).take 5 && (a.drop 22).take 2 == (b.drop 22).take 2
/-- A rank holds a participation of the same tenant, GROUP and sequence, and its device reports the tenant resident (R259). -/
def collPosted (tag : Dword) (b : List Byte) (seq : Nat) (d : RankData) : Bool :=
  d.tag == tag && fieldOf d.desc 24 4 == fieldOf b 24 4 && d.seq == seq && d.resident
/-- An ENGINE_FAULT ends the collective on this rank, and on every other, which the link tells; the record gives the first DST element not written (R260). -/
def collFail (r : Req) (n kind addr : Nat) (s : State) : State :=
  let g := s.gr (s.tm r.team).grid
  let s := s.modReq r.id (fun r => { r with fault := some (.engineFault, { kind := kind, addr := addr, prog := n }) })
  match r.work with
  | .dispatch _ _ b args _ _ _ => s.send (.collectiveOver g.fn (fieldOf b 24 2) (args.headD 0))
  | _ => s
/-- COLL_RENDEZVOUS_START: every rank has posted and is resident; the descriptors are compared, and the result is written, poisoned where it rests on a poisoned byte (R259, R260, R135). -/
def execCollRendezvousStart (req : Nat) (ranks : List RankData) (s : State) : Out State :=
  withTransfer req 0 (fun r u i b args s =>
    match i with
    | .coll x =>
      let g := s.gr (s.tm r.team).grid
      let fn := rn x.x.fn
      let n := fieldOf b 20 1
      let me := fieldOf b 21 1
      let ty := collType b
      let others := (List.range n).filter (· ≠ me)
      let of (k : Nat) : Option RankData := ranks.find? (fun d => d.rank == k)
      if others.any (fun k => match of k with | some d => !collPosted (s.tagOf g.fn) b (args.headD 0) d | none => true) || s.halted.any (fun h => h.1 == g.fn) then .fault .notPending
      else if others.any (fun k => match of k with | some d => d.fn != fn || !collSame d.desc b | none => true) then done (collFail r 0 0 0 s)
      else
        let s := writeBackRange r.team (fieldOf b 0 8) (collBytes fn b).1 s
        if sourceLate r.id u r.team (fieldOf b 0 8) (collBytes fn b).1 s then .fault .heldBack
        else
          match readLocal r.team (fieldOf b 0 8) (collBytes fn b).1 s with
          | (s, .inr (_, d)) => done (collFail r 0 d.kind d.addr s)
          | (s, .inl mine) =>
            let srcs := (List.range n).map (fun k => if k == me then mine.map (·.1) else match of k with | some d => d.src | none => [])
            let bads := (List.range n).map (fun k => if k == me then badOf mine else match of k with | some d => d.bad | none => [])
            let (out, fl) := collResult fn me (fieldOf b 22 1) (fieldOf b 16 4) (bitsOf (fieldOf b 23 1) 5 4) ty srcs
            let out := withPoison out (collPoison fn me (fieldOf b 22 1) (fieldOf b 16 4) ty bads out.length)
            let (s, w) := writeLocal r.team (fieldOf b 8 8) out s
            match w.bad with
            | some (_, m, a) => unitDone (collFail r (w.n / elemBytes ty) (accEngineWrite ||| m) a s)
            | none => unitDone (s.setTransfer req [args.headD 0, fl.toNat, w.tw] 1 (out.length / elemBytes ty))
    | _ => .fault .notPending) s
/-- COLL_COMPLETE: every DST write has reached its Tw; CTR is incremented, and CP falls (R260, R171). -/
def execCollComplete (req : Nat) (s : State) : Out State :=
  withTransfer req 1 (fun r u i b args s =>
    match i with
    | .coll x =>
      if s.gtick < nth 0 args 2 then .fault .notPending
      else
        let tm := s.tm r.team
        let g := s.gr tm.grid
        match addVa tm.core g.fn g.ctx (fieldOf b 32 8) 1 s with
        | (s, .bad _ m a) => unitDone (collFail r ((collBytes (rn x.x.fn) b).2 / elemBytes (collType b)) (accEngineWrite ||| m) a s)
        | (s, .tw _) => unitDone (complete r (s.lateFlags u (BitVec.ofNat _ (nth 0 args 1))))
    | _ => .fault .notPending) s

end Sys2Proof.Machine
end

