-- ==== Sys2Proof/Machine/Splat.lean ====
section
/-! DEFINITION. The splat pipeline: the team's splat registers, projection, the binner, blending (spec/13_matrix_tile_world_splat_instructions.md R297 to R304). -/
namespace Sys2Proof.Machine

/-! ### Splat registers (R297) -/

/-- F32 bits that are positive and finite. -/
def positiveFinite (x : Nat) : Bool := match unpack .f32 x with | .fin neg m _ => !neg && m != 0 | _ => false
/-- SCTL.SET (R297, R203, R156): a thread whose TCUT or NEAR is not positive and finite faults and supplies no value. -/
def splatSet (sel a : Nat) (us : List Nat) (s : State) : State :=
  let bad := us.filter (fun u => sel != 0 && !positiveFinite ((s.thr u).rv a).toNat)
  let s := raiseAll .reservedField {} bad s
  teamWriteFrom (fun t full w tm =>
    match sel with
    | 0 => { tm.noteWrite full (t.rpair a != tm.frame) w (.special 3) with frame := t.rpair a }
    | 1 => { tm.noteWrite full (t.rv a != tm.tcut) w (.special 4) with tcut := t.rv a }
    | _ => { tm.noteWrite full (t.rv a != tm.near) w (.special 5) with near := t.rv a }) (us.filter (fun u => !bad.contains u)) s
/-- SCTL.SET (R297). -/
def execSctlSet (x : WA) (s : State) : Out State :=
  issue (use12 x.e x.x.g (regs (rn x.a) (x.x.w2 == 0)) []) false (splatSet (rn x.x.w2) (rn x.a)) s
/-- SCTL.GET (R297). -/
def execSctlGet (x : WA) (s : State) : Out State :=
  issue (use12 x.e x.x.g [] (regs (rn x.d) (x.x.w2 == 0))) false
    (eachTeam (fun tm t =>
      match rn x.x.w2 with
      | 0 => t.wpair (rn x.d) tm.frame
      | 1 => t.wv (rn x.d) tm.tcut
      | 2 => t.wv (rn x.d) tm.near
      | _ => t.wv (rn x.d) tm.binstat)) s

/-! ### Frames (Table 13.5) -/

/-- The frame descriptor breaks Table 13.5. -/
def frameBad (b : List Byte) : Bool :=
  let w := fieldOf b 64 4
  let h := fieldOf b 68 4
  let k := fieldOf b 88 4
  w == 0 || decide (16384 < w) || h == 0 || decide (16384 < h) || k == 0 || decide (2 ^ 28 < k) || fieldOf b 92 4 != 0 || fieldOf b 156 36 != 0
/-- What a frame gives: its bytes, a fault at issue, or a fault of the access, which is deferred (R303). -/
inductive Framed where
  | ok (b : List Byte)
  | atIssue (cause : Cause) (d : Detail)
  | later (cause : Cause) (d : Detail)
  deriving DecidableEq, Repr
/-- The frame of a team (R297, R303, R135). -/
def readFrame (team va : Nat) (s : State) : State × Framed :=
  let tm := s.tm team
  let g := s.gr tm.grid
  if va = 0 || va % 64 != 0 then (s, .atIssue .reservedField { kind := accLoad, addr := va })
  else
    match readVa tm.core g.fn g.ctx va 192 s with
    | (s, .bad c m a) => (s, .later c { kind := accEngineRead ||| m, addr := a })
    | (s, .bytes b p) =>
      if p then (s, .atIssue .poison { kind := accLoad, addr := va })
      else if frameBad b then (s, .atIssue .reservedField { kind := accLoad, addr := va })
      else (s, .ok b)
/-- Columns of 16 × 16 tiles. -/
def frameTw (b : List Byte) : Nat := (fieldOf b 64 4 + 15) / 16
/-- Rows of tiles. -/
def frameTh (b : List Byte) : Nat := (fieldOf b 68 4 + 15) / 16
/-- An address of element n of an array of the frame. -/
def frameAt (b : List Byte) (off size n : Nat) : Nat := (fieldOf b off 8 + size * n) % 2 ^ 64

/-! ### F32 values with their flags (R298) -/

/-- F32 bits and the flags of the operations that gave them. -/
structure Fv where
  bits : Nat
  fl : Flags
  deriving DecidableEq, Repr
/-- A value read or written as a constant. -/
def fv (n : Nat) : Fv := ⟨n, 0⟩
/-- One operation on two values. -/
def Fv.bin (f : Nat → Nat → Nat × Flags) (a b : Fv) : Fv := let r := f a.bits b.bits; ⟨r.1, a.fl ||| b.fl ||| r.2⟩
/-- One operation on a value. -/
def Fv.un (f : Nat → Nat × Flags) (a : Fv) : Fv := let r := f a.bits; ⟨r.1, a.fl ||| r.2⟩
/-- a + b. -/
def Fv.add (a b : Fv) : Fv := a.bin (addBits .f32 0 false) b
/-- a − b. -/
def Fv.sub (a b : Fv) : Fv := a.bin (subBits .f32 0 false) b
/-- a × b. -/
def Fv.mul (a b : Fv) : Fv := a.bin (mulBits .f32 0 false) b
/-- a ÷ b. -/
def Fv.div (a b : Fv) : Fv := a.bin (fun x y => fDiv .f32 0 (unpack .f32 x) (unpack .f32 y)) b
/-- −a: the sign bit flips. -/
def Fv.neg (a : Fv) : Fv := ⟨Nat.xor a.bits (2 ^ 31), a.fl⟩
/-- The smaller value, as FMINMAX.MIN gives it (R266). -/
def Fv.min (a b : Fv) : Fv := a.bin (fMinMax .f32 false false) b
/-- The larger value, as FMINMAX.MAX gives it (R266). -/
def Fv.max (a b : Fv) : Fv := a.bin (fMinMax .f32 true false) b
/-- √a (R270). -/
def Fv.sqrt (a : Fv) : Fv := a.un (fSpc .f32 2 false)
/-- RSQ (R270). -/
def Fv.rsq (a : Fv) : Fv := a.un (fSpc .f32 1 false)
/-- exp(a): FSPC.EXP2 of a × 0x3FB8AA3B. -/
def Fv.exp (a : Fv) : Fv := (a.mul (fv 0x3FB8AA3B)).un (fSpc .f32 3 false)
/-- The number. -/
def Fv.val (a : Fv) : FVal := unpack .f32 a.bits
/-- a ≤ b, false for a NaN. -/
def Fv.le (a b : Fv) : Bool := match compareV a.val b.val with | some .lt | some .eq => true | _ => false
/-- a < b, false for a NaN. -/
def Fv.lt (a b : Fv) : Bool := compareV a.val b.val == some .lt
/-- 1.0. -/
def fvOne : Fv := fv 0x3F800000
/-- ½. -/
def fvHalf : Fv := fv 0x3F000000
/-- A sum, left to right. -/
def Fv.sum : List Fv → Fv
  | [] => fv 0
  | x :: l => l.foldl Fv.add x
/-- Floor of a number as an integer; an infinity is beyond every finite one. -/
def floorV : FVal → Int
  | .nan _ => 0
  | .inf n => if n then -(2 ^ 200) else 2 ^ 200
  | .fin n m e =>
    let x : Int := if n then -(m : Int) else m
    if 0 ≤ e then x * 2 ^ e.toNat else x / 2 ^ (-e).toNat
/-- Ceiling as an F32 value: exact, since an F32 value at or above 2^23 is an integer. -/
def Fv.ceil (a : Fv) : Fv :=
  match a.val with
  | .fin n m e => let k := -floorV (.fin (!n) m e); ⟨(finish .f32 0 false (.fin (decide (k < 0)) k.natAbs 0)).1, a.fl⟩
  | _ => a
/-- A number as an F32 value. -/
def fvOf (n : Nat) : Fv := ⟨(finish .f32 0 false (.fin false n 0)).1, 0⟩
/-- F32 field of a record. -/
def fld (b : List Byte) (off : Nat) : Fv := fv (fieldOf b off 4)
/-- F16 field of a record, widened exactly. -/
def fldHalf (b : List Byte) (off : Nat) : Fv := let r := convert .f32 .f16 0 false (fieldOf b off 2); ⟨r.1, r.2⟩

/-! ### SPROJ (R299) -/

/-- What the projection gives: the splat, its tiles in ascending number, its depth bits. -/
structure Projected where
  splat : List Byte
  tiles : List Nat
  depth : Nat
  deriving DecidableEq, Repr
/-- Σ over k of three products. -/
def Fv.dot (f g : Nat → Fv) : Fv := Fv.sum ((List.range 3).map (fun k => (f k).mul (g k)))
/-- Rq(i, j) of the unit quaternion w, x, y, z. -/
def rotation (w x y z : Fv) (i j : Nat) : Fv :=
  let two (a : Fv) : Fv := (fv 0x40000000).mul a
  let diag (a b : Fv) : Fv := fvOne.sub (two ((a.mul a).add (b.mul b)))
  match i, j with
  | 0, 0 => diag y z
  | 0, 1 => two ((x.mul y).sub (w.mul z))
  | 0, _ => two ((x.mul z).add (w.mul y))
  | 1, 0 => two ((x.mul y).add (w.mul z))
  | 1, 1 => diag x z
  | 1, _ => two ((y.mul z).sub (w.mul x))
  | _, 0 => two ((x.mul z).sub (w.mul y))
  | _, 1 => two ((y.mul z).add (w.mul x))
  | _, _ => diag x y
/-- First and last tile of one axis: from floor((u − r) ÷ 16) and floor((u + r) ÷ 16), clamped; the two values with them. -/
def tileRange (u r : Fv) (n : Nat) : Int × Int × Fv × Fv :=
  let lo := (u.sub r).div (fv 0x41800000)
  let hi := (u.add r).div (fv 0x41800000)
  (max 0 (floorV lo.val), min ((n : Int) - 1) (floorV hi.val), lo, hi)
/-- The integers of a closed range. -/
def closedRange (lo hi : Int) : List Nat := if hi < lo then [] else (List.range ((hi - lo).toNat + 1)).map (fun i => lo.toNat + i)
/-- The projection of a Gaussian (R299): none where it is culled; with the flags raised on the way. -/
def project (fr g : List Byte) (near : Nat) : Option Projected × Flags :=
  let q (i : Nat) : Fv := fld g (24 + 4 * i)
  let n := (Fv.sum ((List.range 4).map (fun i => (q i).mul (q i)))).rsq
  let u4 (i : Nat) : Fv := (q i).mul n
  let rot := (List.range 9).map (fun k => rotation (u4 0) (u4 1) (u4 2) (u4 3) (k / 3) (k % 3))
  let m := (List.range 9).map (fun k => (nth (fv 0) rot k).mul (fld g (12 + 4 * (k % 3))))
  let sig := (List.range 9).map (fun k => Fv.dot (fun l => nth (fv 0) m (3 * (k / 3) + l)) (fun l => nth (fv 0) m (3 * (k % 3) + l)))
  let sigma (i j : Nat) : Fv := nth (fv 0) sig (3 * i + j)
  let vr (i j : Nat) : Fv := fld fr (4 * (3 * i + j))
  let t := (List.range 3).map (fun i => (Fv.dot (vr i) (fun j => fld g (4 * j))).add (fld fr (36 + 4 * i)))
  let tx := nth (fv 0) t 0
  let ty := nth (fv 0) t 1
  let tz := nth (fv 0) t 2
  let fl1 := (sig ++ t).foldl (fun f x => f ||| x.fl) 0
  if tz.le (fv near) then (none, fl1)
  else
    let fx := fld fr 48
    let fy := fld fr 52
    let row (f tc : Fv) (r j : Nat) : Fv := ((f.div tz).mul (vr r j)).sub (((f.mul tc).div (tz.mul tz)).mul (vr 2 j))
    let p0 := (List.range 3).map (row fx tx 0)
    let p1 := (List.range 3).map (row fy ty 1)
    let quad (p r : List Fv) : Fv := Fv.dot (fun k => Fv.dot (fun l => nth (fv 0) p l) (fun l => sigma l k)) (fun k => nth (fv 0) r k)
    let a := (quad p0 p0).add (fv 0x3E99999A)
    let b := quad p0 p1
    let c := (quad p1 p1).add (fv 0x3E99999A)
    let det := (a.mul c).sub (b.mul b)
    let finite := match det.val with | .fin _ _ _ => true | _ => false
    if !finite || det.le (fv 0) then (none, fl1 ||| det.fl)
    else
      let u := ((fx.mul tx).div tz).add (fld fr 56)
      let v := ((fy.mul ty).div tz).add (fld fr 60)
      let mid := fvHalf.mul (a.add c)
      let lam := mid.add ((fv 0x3DCCCCCD).max ((mid.mul mid).sub det)).sqrt
      let r := ((fv 0x40400000).mul lam.sqrt).ceil
      let (x0, x1, e0, e1) := tileRange u r (frameTw fr)
      let (y0, y1, e2, e3) := tileRange v r (frameTh fr)
      let xs := closedRange x0 x1
      let ys := closedRange y0 y1
      let fl2 := [det, u, v, lam, r, e0, e1, e2, e3].foldl (fun f x => f ||| x.fl) fl1
      if xs.isEmpty || ys.isEmpty || [det, u, v, lam, r, e0, e1, e2, e3].any (fun x => x.val.isNaN) then (none, fl2)
      else
        let conic := [c.div det, b.neg.div det, a.div det]
        let cols := (List.range 3).map (fun i => convert .f16 .f32 0 false (fieldOf g (44 + 4 * i) 4))
        let radius := min (floorV r.val) 65535
        let bytes := leBytes u.bits 4 ++ leBytes v.bits 4 ++ conic.flatMap (fun x => leBytes x.bits 4) ++ leBytes (fieldOf g 40 4) 4 ++
          cols.flatMap (fun x => leBytes x.1 2) ++ leBytes radius.toNat 2
        let fl := (conic.foldl (fun f x => f ||| x.fl) fl2) ||| cols.foldl (fun f x => f ||| x.2) 0
        (some ⟨bytes, ys.flatMap (fun y => xs.map (fun x => y * frameTw fr + x)), tz.bits⟩, fl)

/-! ### Requests -/

/-- A splat request of a thread: stage and target, then what it captured at issue, then the frame's bytes. -/
def addSplat (u : Nat) (i : Instr) (captured : List Nat) (frame : List Byte) (fault : Option (Cause × Detail)) (s : State) : State :=
  let pc := (s.thr u).pc
  let id := s.nextId
  (addReq .tl [u] (s.thr u).team (.splat u i ([0, 0] ++ captured ++ frame.map BitVec.toNat) pc) pc false [] s).modReq id (fun r => { r with fault := fault })
/-- The frame of a request with four captured values. -/
def splatFrame (args : List Nat) : List Byte := (args.drop 6).map (BitVec.ofNat 8)
/-- A request's work is done and waits for its Tw. -/
def State.splatDone (s : State) (id target : Nat) : State :=
  s.modReq id (fun r => match r.work with | .splat t i args pc => { r with work := .splat t i (1 :: target :: args.drop 2) pc } | _ => r)
/-- A request stops at a fault (R303). -/
def State.splatFault (s : State) (id : Nat) (c : Cause) (d : Detail) : State := s.modReq id (fun r => { r with fault := some (c, d) })
/-- A splat instruction in one thread, its frame checked at issue (R303). -/
def splatThread (i : Instr) (captured : Team → Thread → List Nat) (check : List Byte → List Nat → Option (Cause × Detail)) (wv wp : List Nat) (u : Nat) (s : State) : State :=
  let tm := s.teamOf u
  let c := captured tm (s.thr u)
  let pend (s : State) : State := s.modThr u (fun t => { t with pendV := t.pendV ++ wv, pendP := t.pendP ++ wp })
  match readFrame tm.uid tm.frame.toNat s with
  | (s, .atIssue cause d) => raise cause d u s
  | (s, .later cause d) => addSplat u i c [] (some (cause, d)) (pend s)
  | (s, .ok b) =>
    match check b c with
    | some (cause, d) => raise cause d u s
    | none => addSplat u i c b none (pend s)
/-- SPROJ (R299): NEAR, the record's address and the id are captured at issue. -/
def execSproj (x : WA) (s : State) : Out State :=
  let p := rn x.x.w2 % 8
  let us := (use12 x.e x.x.g (regs (rn x.a) true) [rn x.d]).reads [x.ob] false
  issue { us with wp := [p], cls := .tl, kind := accLoad } false
    (fun us s => us.foldl (fun s u =>
      splatThread (.sproj x) (fun tm t => [tm.near.toNat, 0, (t.rpair (rn x.a)).toNat, (x.ob.val tm t).toNat])
        (fun _ c => if nth 0 c 2 % 64 != 0 then some (.alignment, { kind := accLoad, addr := nth 0 c 2 }) else none) [rn x.d] [p] u s) s) s
/-- SBLEND's operands: TCUT, the pixel (R301). -/
def blendIssue (i : Instr) (x : WA) (wv : List Nat) (s : State) : Out State :=
  let us := (use12 x.e x.x.g [rn x.a] wv).reads [x.ob] false
  issue { us with cls := .tl, kind := accLoad } false
    (fun us s => us.foldl (fun s u =>
      splatThread i (fun tm t => [tm.tcut.toNat, 0, (t.rv (rn x.a)).toNat, (x.ob.val tm t).toNat])
        (fun b c => if decide (fieldOf b 64 4 ≤ nth 0 c 2) || decide (fieldOf b 68 4 ≤ nth 0 c 3) then some (.bounds, { kind := accLoad }) else none) wv [] u s) s) s
/-- SBLEND.FWD (R301). -/
def execSblendFwd (x : WA) (s : State) : Out State := blendIssue (.sblendFwd x) x [rn x.d] s
/-- SBLEND.BACK (R302). -/
def execSblendBack (x : WA) (s : State) : Out State := blendIssue (.sblendBack x) x [] s

/-! ### Work at L2 -/

/-- Bytes of a team's splat work read at L2 (R303). -/
def splatRead (team va n : Nat) (s : State) : State × Got :=
  let tm := s.tm team
  let g := s.gr tm.grid
  readVa tm.core g.fn g.ctx va n s
/-- Bytes of a team's splat work written at L2, poisoned ones as poison (R303, R135). -/
def splatWrite (team va : Nat) (bs : List Byte) (poison : Bool) (s : State) : State × Wrote :=
  let tm := s.tm team
  let g := s.gr tm.grid
  writeRun tm.core g.fn g.ctx (bs.length / 128 + 2) va (bs.map (·, poison)) ⟨0, 0, none⟩ s
/-- The place of an atomic of the splat pipeline. -/
def splatAtomPa (team va size : Nat) (s : State) : State × (Nat ⊕ (Cause × Detail)) :=
  let tm := s.tm team
  let g := s.gr tm.grid
  if va % size != 0 then (s, .inr (.alignment, { kind := accAtomic, addr := va }))
  else
    match xlateUnit .atomic tm.core g.fn g.ctx va s with
    | (s, .bad c m) => (s, .inr (c, { kind := accAtomic ||| m, addr := va }))
    | (s, .ok pa _ _) => (s, .inl pa)
/-- What an atomic of the splat pipeline finds at its place, and whether that is poisoned: at the home slice, after the team's dirty copy is written back, or, outside the device, whatever stands there (R52, R117, R125). -/
def splatOld (team va pa size : Nat) (s : State) : State × Nat × Bool :=
  let tm := s.tm team
  let g := s.gr tm.grid
  if (regionOf pa).local then
    let s := yieldLine tm g.fn g.ctx va s
    (s, leNat (s.mem.bytes.readN pa size), s.mem.poison.contains (pa / 128))
  else let (b, s) := freeBytes size s; (s, leNat b, false)
/-- A result register of a splat instruction is written; poisoned inputs mark it (R135). -/
def Thread.splatResult (d : Nat) (x : Word) (poison : Bool) (fl : Flags) (t : Thread) : Thread :=
  let t := { t.wv d x with pendV := t.pendV.filter (· ≠ d) }
  (if poison then { t with poison := t.poison ++ [d] } else t).orFlags fl
/-- P of a splat instruction. -/
def Thread.splatPred (p : Nat) (b : Bool) (t : Thread) : Thread := { t.wp p b with pendP := t.pendP.filter (· ≠ p) }
/-- The keys of a projection. -/
def keyBytes (x : Projected) (id : Nat) : List Byte := x.tiles.flatMap (fun t => leBytes t 4 ++ leBytes x.depth 4 ++ leBytes id 4 ++ leBytes 0 4)
/-- SPROJ's work (R299). -/
def performProj (r : Req) (u : Nat) (x : WA) (args : List Nat) (s : State) : State :=
  let fr := splatFrame args
  let id := nth 0 args 5
  let d := rn x.d
  let p := rn x.x.w2 % 8
  let finishWith (v : Word) (b poison : Bool) (fl : Flags) (tw : Nat) (s : State) : State :=
    (s.modThr u (fun t => (t.splatResult d v poison fl).splatPred p b)).splatDone r.id tw
  match splatRead r.team (nth 0 args 4) 64 s with
  | (s, .bad c m a) => s.splatFault r.id c { kind := accEngineRead ||| m, addr := a }
  | (s, .bytes g bad) =>
    match project fr g (nth 0 args 2) with
    | (none, fl) => finishWith 0 false bad fl 0 s
    | (some y, fl) =>
      match splatWrite r.team (frameAt fr 72 32 id) y.splat bad s with
      | (s, ⟨_, _, some (c, m, a)⟩) => s.splatFault r.id c { kind := accEngineWrite ||| m, addr := a }
      | (s, ⟨_, tw, none⟩) =>
        match splatAtomPa r.team (fieldOf fr 96 8) 8 s with
        | (s, .inr (c, k)) => s.splatFault r.id c k
        | (s, .inl pa) =>
          let n := y.tiles.length
          let g := s.gr (s.tm r.team).grid
          let (s, k, q) := splatOld r.team (fieldOf fr 96 8) pa 8 s
          let bad := bad || q
          let (s, tw2) := addPa g.fn g.ctx pa n s
          if fieldOf fr 88 4 < k + n then
            finishWith 0xFFFFFFFF false bad fl (max tw tw2) (if s.det r.team then setNdet r.team s else s)
          else
            match splatWrite r.team (frameAt fr 80 16 k) (keyBytes y id) bad s with
            | (s, ⟨w, _, some (c, m, a)⟩) => s.splatFault r.id c { kind := accEngineWrite ||| m, addr := a, prog := w / 16 }
            | (s, ⟨_, tw3, none⟩) => finishWith (BitVec.ofNat 32 n) true bad fl (max (max tw tw2) tw3) s

/-! ### SBLEND (R301, R302) -/

/-- A splat as a pixel sees it: dx, dy, pw, G, opacity × G and α, and whether it contributes. -/
structure Seen where
  dx : Fv
  dy : Fv
  g : Fv
  og : Fv
  alpha : Fv
  skip : Bool
  fl : Flags
  deriving DecidableEq, Repr
/-- The common part of R301 and R302 for one splat. -/
def seen (sp : List Byte) (x y : Nat) : Seen :=
  let dx := ((fvOf x).add fvHalf).sub (fld sp 0)
  let dy := ((fvOf y).add fvHalf).sub (fld sp 4)
  let pw := ((fvHalf.neg).mul (((((fld sp 8).mul dx).mul dx)).add (((fld sp 16).mul dy).mul dy))).sub (((fld sp 12).mul dx).mul dy)
  if (fv 0).lt pw then ⟨dx, dy, pw, pw, pw, true, pw.fl⟩
  else
    let g := pw.exp
    let og := (fld sp 20).mul g
    let alpha := (fv 0x3F7D70A4).min og
    ⟨dx, dy, g, og, alpha, alpha.lt (fv 0x3B808081), alpha.fl⟩
/-- What the blending loop carries. -/
structure Blend where
  t : Fv
  c : List Fv
  n : Nat
  fl : Flags
  poison : Bool
  deriving DecidableEq, Repr
/-- The splat of sorted entry j: its id and its bytes. -/
def splatOf (team : Nat) (fr : List Byte) (j : Nat) (s : State) : State × ((Nat × List Byte × Bool) ⊕ (Cause × Detail)) :=
  match splatRead team (frameAt fr 104 16 j) 16 s with
  | (s, .bad c m a) => (s, .inr (c, { kind := accEngineRead ||| m, addr := a }))
  | (s, .bytes k p) =>
    let id := fieldOf k 8 4
    match splatRead team (frameAt fr 72 32 id) 32 s with
    | (s, .bad c m a) => (s, .inr (c, { kind := accEngineRead ||| m, addr := a }))
    | (s, .bytes sp q) => (s, .inl (id, sp, p || q))
/-- The forward loop over sorted entries j, j + 1, … (R301). -/
def blendLoop (team : Nat) (fr : List Byte) (tcut x y first : Nat) : Nat → Nat → Blend → State → State × (Blend ⊕ (Cause × Detail))
  | 0, _, b, s => (s, .inl b)
  | n + 1, j, b, s =>
    match splatOf team fr j s with
    | (s, .inr e) => (s, .inr e)
    | (s, .inl (_, sp, p)) =>
      let v := seen sp x y
      let b := { b with fl := b.fl ||| v.fl, poison := b.poison || p }
      if v.skip then blendLoop team fr tcut x y first n (j + 1) b s
      else
        let tn := b.t.mul (fvOne.sub v.alpha)
        if tn.lt (fv tcut) then (s, .inl { b with fl := b.fl ||| tn.fl })
        else
          let c := (List.range 3).map (fun i => (nth (fv 0) b.c i).add (((fldHalf sp (24 + 2 * i)).mul v.alpha).mul b.t))
          blendLoop team fr tcut x y first n (j + 1) { b with t := tn, c := c, n := j - first + 1, fl := b.fl ||| tn.fl } s
/-- First and end index of a pixel's tile. -/
def tileEntry (team : Nat) (fr : List Byte) (x y : Nat) (s : State) : State × ((Nat × Nat × Bool) ⊕ (Cause × Detail)) :=
  match splatRead team (frameAt fr 120 8 (y / 16 * frameTw fr + x / 16)) 8 s with
  | (s, .bad c m a) => (s, .inr (c, { kind := accEngineRead ||| m, addr := a }))
  | (s, .bytes b p) => (s, .inl (fieldOf b 0 4, fieldOf b 4 4, p))
/-- Address of a pixel record. -/
def pixelVa (fr : List Byte) (x y : Nat) : Nat := frameAt fr 128 32 (y * fieldOf fr 64 4 + x)
/-- SBLEND.FWD's work (R301). -/
def performFwd (r : Req) (u : Nat) (w : WA) (args : List Nat) (s : State) : State :=
  let fr := splatFrame args
  let x := nth 0 args 4
  let y := nth 0 args 5
  match tileEntry r.team fr x y s with
  | (s, .inr (c, d)) => s.splatFault r.id c d
  | (s, .inl (f, e, p)) =>
    match blendLoop r.team fr (nth 0 args 2) x y f (e - f) f ⟨fvOne, [fv 0, fv 0, fv 0], 0, 0, p⟩ s with
    | (s, .inr (c, d)) => s.splatFault r.id c d
    | (s, .inl b) =>
      let cols := (List.range 3).map (fun i => (nth (fv 0) b.c i).add (b.t.mul (fld fr (144 + 4 * i))))
      let fl := cols.foldl (fun g c => g ||| c.fl) b.fl
      let out := cols.flatMap (fun c => leBytes c.bits 4) ++ leBytes b.t.bits 4 ++ leBytes b.n 4
      match splatWrite r.team (pixelVa fr x y) out b.poison s with
      | (s, ⟨_, _, some (c, m, a)⟩) => s.splatFault r.id c { kind := accEngineWrite ||| m, addr := a }
      | (s, ⟨_, tw, none⟩) => (s.modThr u (Thread.splatResult (rn w.d) (BitVec.ofNat 32 b.n) b.poison fl)).splatDone r.id tw

/-- One RED.ADD.F32 of SBLEND.BACK: buffered in a DET launch, performed at its target otherwise; a poisoned one leaves poison (R302, R126, R247, R303). -/
def gradRed (u va : Nat) (x : Fv) (bad : Bool) (s : State) : State × Option (Cause × Detail) :=
  let team := (s.thr u).team
  let o : AtomOp := ⟨3, 0, .f32, 0, x.bits, 0⟩
  match splatAtomPa team va 4 s with
  | (s, .inr e) => (s, some e)
  | (s, .inl pa) =>
    if s.det team then
      match pushRed va o bad u s with
      | (s, true) => (s, none)
      | (s, false) => (s, some (.engineFault, { kind := accAtomic ||| markRedLog, addr := va }))
    else if !(regionOf pa).local then (s.leave (s.gridOf u).fn (s.gridOf u).ctx pa (.atomic o), none)
    else
      let (s, old, _) := splatOld team va pa 4 s
      let (new, fl) := o.apply old
      let (s, tw) := acceptWrite (s.gridOf u).fn (pa / 128) (cellsOf pa (leBytes new 4)) bad s
      (s.modThr u (fun t => (t.wrote (pa / 128) va tw s.gtick).orFlags fl), none)
/-- The REDs of one contributor in order; PROG counts those done (R303). -/
def gradReds (u : Nat) (bad : Bool) : List (Nat × Fv) → Nat → State → State × Nat × Option (Cause × Detail)
  | [], n, s => (s, n, none)
  | (va, x) :: l, n, s =>
    match gradRed u va x bad s with
    | (s, none) => gradReds u bad l (n + 1) s
    | (s, some (c, d)) => (s, n, some (c, { d with prog := n }))
/-- What the backward loop carries. -/
structure Back where
  t : Fv
  acc : List Fv
  aL : Fv
  cL : List Fv
  fl : Flags
  n : Nat
  /-- What is carried on rests on a poisoned byte (R303). -/
  poison : Bool
  deriving DecidableEq, Repr
/-- The gradients of one contributor, and what is carried on (R302). -/
def backStep (fr px sp : List Byte) (v : Seen) (b : Back) : Back × List Fv :=
  let dl (i : Nat) : Fv := fld px (20 + 4 * i)
  let col (i : Nat) : Fv := fldHalf sp (24 + 2 * i)
  let left := fvOne.sub v.alpha
  let t := b.t.div left
  let acc := (List.range 3).map (fun i => (b.aL.mul (nth (fv 0) b.cL i)).add ((fvOne.sub b.aL).mul (nth (fv 0) b.acc i)))
  let da := (Fv.dot (fun i => (col i).sub (nth (fv 0) acc i)) dl).mul t
  let da := da.add (((fld px 12).neg.div left).mul (Fv.dot (fun i => fld fr (144 + 4 * i)) dl))
  let big := (fv 0x3F7D70A4).lt v.og
  let gop := if big then fv 0 else v.g.mul da
  let dpw := if big then fv 0 else v.g.mul ((fld sp 20).mul da)
  let gca := ((fvHalf.neg.mul v.dx).mul v.dx).mul dpw
  let gcc := ((fvHalf.neg.mul v.dy).mul v.dy).mul dpw
  let gcb := ((v.dx.mul v.dy).neg).mul dpw
  let gu := (((fld sp 8).mul v.dx).add ((fld sp 12).mul v.dy)).mul dpw
  let gv := (((fld sp 16).mul v.dy).add ((fld sp 12).mul v.dx)).mul dpw
  let gc := (List.range 3).map (fun i => (v.alpha.mul t).mul (dl i))
  let outs := [gu, gv, gca, gcb, gcc, gop] ++ gc
  let fl := (da :: t :: outs ++ acc).foldl (fun f x => f ||| x.fl) b.fl
  ({ b with t := t, acc := acc, aL := v.alpha, cL := (List.range 3).map col, fl := fl }, outs)
/-- The backward loop over sorted entries first + n − 1 down to first (R302). -/
def backLoop (u team : Nat) (fr px : List Byte) (x y first : Nat) : Nat → Back → State → State × Back × Option (Cause × Detail)
  | 0, b, s => (s, b, none)
  | n + 1, b, s =>
    match splatOf team fr (first + n) s with
    | (s, .inr (c, d)) => (s, b, some (c, { d with prog := b.n }))
    | (s, .inl (id, sp, bad)) =>
      let v := seen sp x y
      let b := { b with fl := b.fl ||| v.fl, poison := b.poison || bad }
      if v.skip then backLoop u team fr px x y first n b s
      else
        let (b, outs) := backStep fr px sp v b
        match gradReds u b.poison ((outs.zip (List.range 9)).map (fun p => ((frameAt fr 136 64 id + 4 * p.2) % 2 ^ 64, p.1))) b.n s with
        | (s, k, none) => backLoop u team fr px x y first n { b with n := k } s
        | (s, k, some e) => (s, { b with n := k }, some e)
/-- SBLEND.BACK's work (R302): its REDs are done when it completes. -/
def performBack (r : Req) (u : Nat) (args : List Nat) (s : State) : State :=
  let fr := splatFrame args
  let x := nth 0 args 4
  let y := nth 0 args 5
  match splatRead r.team (pixelVa fr x y) 32 s with
  | (s, .bad c m a) => s.splatFault r.id c { kind := accEngineRead ||| m, addr := a }
  | (s, .bytes px p) =>
    match tileEntry r.team fr x y s with
    | (s, .inr (c, d)) => s.splatFault r.id c d
    | (s, .inl (f, _, q)) =>
      match backLoop u r.team fr px x y f (fieldOf px 16 4) ⟨fld px 12, [fv 0, fv 0, fv 0], fv 0, [fv 0, fv 0, fv 0], 0, 0, p || q⟩ s with
      | (s, b, some (c, d)) => (s.modThr u (fun t => t.orFlags b.fl)).splatFault r.id c d
      | (s, b, none) => (s.modThr u (fun t => t.orFlags b.fl)).splatDone r.id 0
/-- A request whose frame could not be read at issue reads it when it is retried (Table 15.6, R303). -/
def frameAgain (r : Req) (args : List Nat) (s : State) : State × Option (List Nat) :=
  if 6 < args.length then (s, some args)
  else
    match readFrame r.team (s.tm r.team).frame.toNat s with
    | (s, .atIssue c d) => (s.splatFault r.id c d, none)
    | (s, .later c d) => (s.splatFault r.id c d, none)
    | (s, .ok b) =>
      if decide (fieldOf b 64 4 ≤ nth 0 args 4) || decide (fieldOf b 68 4 ≤ nth 0 args 5) then (s.splatFault r.id .bounds { kind := accLoad }, none)
      else (s, some (args ++ b.map BitVec.toNat))
/-- SPLAT_COMPLETE: the work is done at L2, and at every Tw it completes and TL falls (R303, R301). -/
def execSplatComplete (req : Nat) (s : State) : Out State :=
  match s.req? req with
  | none => .fault .notPending
  | some r =>
    match r.work with
    | .splat u i args _ =>
      if r.fault.isSome then .fault .notPending
      else if nth 0 args 0 == 1 then (if nth 0 args 1 ≤ s.gtick then done (complete r s) else .fault .notPending)
      else
        match frameAgain r args s with
        | (s, none) => unitDone s
        | (s, some args) =>
          match i with
          | .sproj x => unitDone (performProj r u x args s)
          | .sblendFwd x => unitDone (performFwd r u x args s)
          | .sblendBack _ => unitDone (performBack r u args s)
          | _ => .fault .notPending
    | _ => .fault .notPending

/-! ### SBIN (R300, R304) -/

/-- Requests in a cluster's binner queue. -/
def binQueue (cluster : Nat) (s : State) : List BinReq := s.bins.filter (fun b => b.cluster == cluster && !b.saved && b.fault.isNone)
/-- SBIN for one team: the frame is checked, and the request is queued; a full queue stalls the threads (R300). -/
def binTeam (p team : Nat) (us : List Nat) (s : State) : State :=
  let tm := s.tm team
  match readFrame team tm.frame.toNat s with
  | (s, .atIssue c d) => raiseAll c d us s
  | (s, f) =>
    if 4 ≤ (binQueue (clusterOf tm.core) s).length then
      us.foldl (fun s u => s.modThr u (fun t => { t with phase := .stalled, wait := { hold := true } })) s
    else
      let pc := (s.thr (us.headD 0)).pc
      let (id, s) := s.fresh
      let b : BinReq := ⟨id, clusterOf tm.core, team, us, p, tm.frame.toNat, false, false, pc, (match f with | .later c d => some (c, d) | _ => none), none, 0, [], 0⟩
      us.foldl (fun s u => s.modThr u (fun t => { t.countUp .tl with pendP := t.pendP ++ [p] })) { s with bins := s.bins ++ [b] }
/-- SBIN (R300). -/
def execSbin (x : WA) (s : State) : Out State :=
  let p := rn x.x.w2 % 8
  issue { use12 x.e x.x.g [] [] with wp := [p], cls := .tl, kind := accLoad } false
    (fun us s => (teamsIn s us).foldl (fun s tm => binTeam p tm (us.filter (fun u => (s.thr u).team == tm)) s) s) s
/-- Keys of 16 bytes. -/
def chunks16 : Nat → List Byte → List (List Byte)
  | 0, _ => []
  | n + 1, bs => bs.take 16 :: chunks16 n (bs.drop 16)
/-- The order of keys: tile, depth bits, id (R300). -/
def keyOrder (k : List Byte) : Nat := (fieldOf k 0 4 * 2 ^ 32 + fieldOf k 4 4) * 2 ^ 32 + fieldOf k 8 4
/-- The tile table of sorted keys. -/
def tileTable (fr : List Byte) (keys : List (List Byte)) : List Byte :=
  (List.range (frameTw fr * frameTh fr)).flatMap (fun t =>
    leBytes (keys.filter (fun k => decide (fieldOf k 0 4 < t))).length 4 ++ leBytes (keys.filter (fun k => decide (fieldOf k 0 4 ≤ t))).length 4)
/-- Free bytes over n bytes from an address on, line by line, where a write is allowed: contents that the spec leaves undefined (R303, notes/assumptions 63). -/
def blur (core fn ctx : Nat) : Nat → Nat → Nat → State → State
  | 0, _, _, s => s
  | fuel + 1, va, n, s =>
    if n = 0 then s
    else
      let k := min n (128 - va % 128)
      let s := match xlateUnit .write core fn ctx va s with
        | (s, .ok pa _ _) => let (bs, s) := freeBytes k s; (writePlace fn ctx pa bs false s).1
        | (s, .bad _ _) => s
      blur core fn ctx fuel (va + k) (n - k) s
/-- A binner's write has faulted: SORTED and TILES are undefined (R303). -/
def binLost (team : Nat) (fr : List Byte) (n : Nat) (s : State) : State :=
  let tm := s.tm team
  let g := s.gr tm.grid
  let m := 8 * (frameTw fr * frameTh fr)
  let s := blur tm.core g.fn g.ctx (16 * n / 128 + 2) (fieldOf fr 104 8) (16 * n) s
  blur tm.core g.fn g.ctx (m / 128 + 2) (fieldOf fr 120 8) m s
/-- KCOUNT of a binner request: what its resume record says, else what stands in memory (R300, R304). -/
def binCount (b : BinReq) (fr : List Byte) (s : State) : State × Got :=
  if b.record.isEmpty then splatRead b.team (fieldOf fr 96 8) 8 s else (s, .bytes (leBytes (fieldOf b.record 8 4) 8) false)
/-- The binner's work: the fault, or the result and the largest Tw (R300); what its runs leave in SCRATCH is free (notes/assumptions 63). -/
def binWork (b : BinReq) (s : State) : State × (Nat × Nat ⊕ (Cause × Detail)) :=
  let bad (c : Cause) (k m a : Nat) : Nat × Nat ⊕ (Cause × Detail) := .inr (c, { kind := k ||| m, addr := a })
  match readFrame b.team b.frame s with
  | (s, .atIssue c d) => (s, .inr (c, d))
  | (s, .later c d) => (s, .inr (c, d))
  | (s, .ok fr) =>
    match binCount b fr s with
    | (s, .bad c m a) => (s, bad c accEngineRead m a)
    | (s, .bytes kb p) =>
      let n := leNat kb
      if fieldOf fr 88 4 < n then (s, .inl (0xFFFFFFFF, 0))
      else
        match splatRead b.team (fieldOf fr 80 8) (16 * n) s with
        | (s, .bad c m a) => (s, bad c accEngineRead m a)
        | (s, .bytes raw q) =>
          let keys := sortBy keyOrder (chunks16 n raw)
          let (runs, s) := freeBytes (16 * n) s
          match splatWrite b.team (fieldOf fr 112 8) runs (p || q) s with
          | (s, ⟨_, _, some (c, m, a)⟩) => (binLost b.team fr n s, bad c accEngineWrite m a)
          | (s, ⟨_, t0, none⟩) =>
            match splatWrite b.team (fieldOf fr 104 8) keys.flatten (p || q) s with
            | (s, ⟨_, _, some (c, m, a)⟩) => (binLost b.team fr n s, bad c accEngineWrite m a)
            | (s, ⟨_, t1, none⟩) =>
              match splatWrite b.team (fieldOf fr 120 8) (tileTable fr keys) (p || q) s with
              | (s, ⟨_, _, some (c, m, a)⟩) => (binLost b.team fr n s, bad c accEngineWrite m a)
              | (s, ⟨_, t2, none⟩) => (s, .inl (n, max t0 (max t1 t2)))
/-- Changes a binner request. -/
def State.modBin (s : State) (id : Nat) (f : BinReq → BinReq) : State := { s with bins := s.bins.map (fun b => if b.id = id then f b else b) }
/-- A binner request ends: P and, where the binner has counted, BINSTAT are written, and TL falls (R300). -/
def endBin (b : BinReq) (pred : Bool) (stat : Option Word) (s : State) : State :=
  let s := { s with bins := s.bins.filter (fun c => c.id != b.id) }
  let s := match stat with | some w => s.modTeam b.team (fun tm => { tm with binstat := w }) | none => s
  b.threads.foldl (fun s u => s.modThr u (fun t => (t.splatPred b.pred pred).countDown .tl)) s
/-- A request that left the merge tree for a save that is no longer asked for. -/
def binBack (b : BinReq) (s : State) : Bool :=
  let tm := s.tm b.team
  let g := s.gr tm.grid
  b.saved && tm.saved.isNone && !saveAsked tm.core tm.bank g.fn g.ctx s
/-- BINNER_SERVE: the oldest request of the cluster's binner is taken up, worked on, and at every Tw completed; a request interrupted for a save that does not come queues again (R300, R304). -/
def execBinnerServe (cluster : Nat) (s : State) : Out State :=
  match s.bins.find? (fun b => b.cluster == cluster && binBack b s) with
  | some b => done (s.modBin b.id (fun b => { b with saved := false }))
  | none =>
    match (binQueue cluster s).head? with
    | none => .fault .notPending
    | some b =>
      if !b.started then done (s.modBin b.id (fun b => { b with started := true }))
      else
        match b.target with
        | some t => if t ≤ s.gtick then done (endBin b (b.result != 0xFFFFFFFF) (some (BitVec.ofNat 32 b.result)) s) else .fault .notPending
        | none =>
          match binWork b s with
          | (s, .inr (c, d)) => unitDone (s.modBin b.id (fun b => { b with started := false, fault := some (c, d), record := [] }))
          | (s, .inl (n, t)) => unitDone (s.modBin b.id (fun b => { b with target := some t, result := n }))
/-- A resume record (Table 13.7): the frame, the keys being sorted, the team and its lanes; how far the merge tree has come is free (notes/assumptions 63). -/
def resumeRecord (b : BinReq) (n : Nat) (s : State) : State × List Byte :=
  let lanes := b.threads.foldl (fun m u => m + 2 ^ (s.thr u).lane) 0
  let (fb, s) := freeBytes 1544 s
  (s, leBytes b.frame 8 ++ leBytes n 4 ++ leBytes (fieldOf fb 0 1 % 2 + 256 * fieldOf fb 1 1) 4 ++ (fb.drop 2).take 4 ++ leBytes (fieldOf fb 6 1 % 64 + 1) 4 ++
    leBytes (s.tm b.team).id 4 ++ leBytes lanes 4 ++ (fb.drop 8).take 1536 ++ leBytes 0 480)
/-- BINNER_PREEMPT: the request that is served belongs to a context that is pre-empted: its resume record becomes part of the image, and the next request is served (R304). A request that writes nothing, or that faults, is served to its end. -/
def execBinnerPreempt (cluster : Nat) (s : State) : Out State :=
  match (binQueue cluster s).head? with
  | none => .fault .notPending
  | some b =>
    let tm := s.tm b.team
    let g := s.gr tm.grid
    if !b.started || b.target.isSome || !saveAsked tm.core tm.bank g.fn g.ctx s then .fault .notPending
    else
      match readFrame b.team b.frame s with
      | (s, .ok fr) =>
        (match binCount b fr s with
         | (s, .bytes kb false) =>
           if fieldOf fr 88 4 < leNat kb then .fault .notPending
           else
             let (s, rb) := resumeRecord b (leNat kb) s
             done (s.modBin b.id (fun b => { b with saved := true, started := false, record := rb }))
         | _ => .fault .notPending)
      | _ => .fault .notPending

end Sys2Proof.Machine
end

