-- ==== Sys2Proof/Machine/World.lean ====
section
/-! DEFINITION. The world store: binding, queries, lookups, edits, views and keystones (spec/05_world_store.md R90 to R111; spec/13_matrix_tile_world_splat_instructions.md R290 to R296). -/
namespace Sys2Proof.Machine

/-! ### Worlds, and the engine's accesses (R90, R91, R107) -/

/-- The world of a function and id. -/
def State.world? (s : State) (fn w : Nat) : Option World := s.worlds.find? (fun x => x.fn == fn && x.id == w)
/-- Sets a world. -/
def State.setWorld (s : State) (w : World) : State := { s with worlds := w :: s.worlds.filter (fun x => !(x.fn == w.fn && x.id == w.id)) }
/-- A field of the world descriptor (Table 5.2). -/
def World.field (w : World) (off n : Nat) : Nat := fieldOf w.desc off n
/-- DIRCAP. -/
def World.dircap (w : World) : Nat := w.field 24 4
/-- QCAP. -/
def World.qcap (w : World) : Nat := w.field 28 4
/-- Context id. -/
def World.ctx (w : World) : Nat := w.field 8 2
/-- The engine translates an address through ROOT; E pages are its own (R18, R90). -/
def worldAddr (write : Bool) (w : World) (va : Nat) (s : State) : State × Xlated :=
  if !canonical va then (s, .bad .pageProtection markNonCanonical)
  else
    match walkFrom w.fn va [5, 4, 3, 2, 1] (w.field 0 8) s with
    | (s, .bad c m) => (s, .bad c m)
    | (s, .leaf e size pa) =>
      if !e.testBit (if write then 3 else 2) then (s, .bad .pageProtection 0)
      else
        let a := entryAddr e + va % size
        if !s.backedLocal a then (s, .bad .pageNotPresent markUnbacked)
        else
          let s := if write && s.isMigrating w.fn w.ctx va then { s with waits := true } else s
          (if write then orEntry w.fn pa 0x100 s else s, .ok a (leafMt e) e)
/-- A write of a running keystone can be lost until its Tw (R134). -/
def State.noteKey (s : State) (w : World) (line tw : Nat) : State :=
  if w.next.isNone then s
  else { s with keyTail := (if s.gtick < tw then [(w.fn, w.id, line, tw)] else []) ++ s.keyTail.filter (fun k => decide (s.gtick < k.2.2.2)) }
/-- Bytes that the engine reads. -/
def worldGet (w : World) : Nat → Nat → Nat → State → State × Got
  | 0, _, _, s => (s, .bytes [] false)
  | fuel + 1, va, n, s =>
    if n = 0 then (s, .bytes [] false)
    else
      let k := min n (128 - va % 128)
      match worldAddr false w va s with
      | (s, .bad c m) => (s, .bad c m va)
      | (s, .ok pa _ _) =>
        let (s, bs, p) := readL2 w.fn pa k s
        match worldGet w fuel (va + k) (n - k) s with
        | (s, .bytes r q) => (s, .bytes (bs ++ r) (p || q))
        | r => r
/-- n bytes that the engine reads. -/
def worldRead (w : World) (va n : Nat) (s : State) : State × Got := worldGet w (n / 128 + 2) va n s
/-- Bytes that the engine writes; each write receives its Tw (R105). -/
def worldPut (w : World) (poison : Bool) : Nat → Nat → List Byte → State → State × Put
  | 0, _, _, s => (s, .tw 0)
  | fuel + 1, va, bs, s =>
    if bs.isEmpty then (s, .tw 0)
    else
      let k := 128 - va % 128
      match worldAddr true w va s with
      | (s, .bad c m) => (s, .bad c m va)
      | (s, .ok pa _ _) =>
        let (s, tw) := acceptWrite w.fn (pa / 128) (cellsOf pa (bs.take k)) poison s
        match worldPut w poison fuel (va + k) (bs.drop k) (s.noteKey w (pa / 128) tw) with
        | (s, .tw t) => (s, .tw (max tw t))
        | r => r
/-- Bytes that the engine writes from an address on. -/
def worldWrite (w : World) (va : Nat) (bs : List Byte) (poison : Bool) (s : State) : State × Put := worldPut w poison (bs.length / 128 + 2) va bs s
/-- The control block as it stands (Table 5.7). -/
def controlBlock (w : World) : List Byte :=
  [w.qhead, w.qtail, w.edits.length, w.fhead, w.ftail, w.fready, w.fifo.length, w.nextNew, w.cur].flatMap (fun x => leBytes x 4)
/-- The control block is written. -/
def writeControl (fn wid : Nat) (s : State) : State :=
  match s.world? fn wid with
  | some w => (worldWrite w (w.field 88 8) (controlBlock w) false s).1
  | none => s
/-- Element size of a type: 0 where it is not registered, or cannot be read (R95). DESIGN CHOICE (notes/assumptions 39): an entry above 256, for which the spec gives no outcome, is taken as it stands. -/
def typeSize (w : World) (t : Nat) (s : State) : State × Nat :=
  match worldRead w (w.field 56 8 + 2 * t) 2 s with
  | (s, .bytes b _) => (s, leNat b)
  | (s, .bad _ _ _) => (s, 0)
/-- Element sizes of a list of types. -/
def typeSizes (w : World) (ts : List Nat) (s : State) : State × List Nat :=
  ts.foldl (fun (r : State × List Nat) t => let (s, n) := typeSize w t r.1; (s, r.2 ++ [n])) (s, [])

/-- A keystone has been started and has not published. -/
def World.running (w : World) : Bool := w.next.isSome
/-- WSTAT takes its FAULTED and BUSY bits, and the given REFUSED and BADDESC (Table 5.1). -/
def setWstat (fn w : Nat) (refused bad : Bool) (s : State) : State :=
  let (f, b) := match s.world? fn w with | some x => (x.stopped, x.running && !x.stopped) | none => (false, false)
  s.setReg fn false (0x2008 + 16 * w)
    (BitVec.ofNat 64 ((if f then 2 ^ 30 else 0) + (if b then 2 ^ 29 else 0) + (if refused then 2 ^ 28 else 0) + (if bad then 2 ^ 27 else 0)))
/-- WSTAT follows the world's state. -/
def syncWstat (fn w : Nat) (s : State) : State :=
  let r := s.reg fn false (0x2008 + 16 * w)
  setWstat fn w (r.getLsbD 28) (r.getLsbD 27) s

/-! ### Binding (R90, R92) -/

/-- The descriptor breaks R90. -/
def worldBad (b : List Byte) : Bool :=
  let f (o n : Nat) := fieldOf b o n
  f 10 6 != 0 || f 96 160 != 0 || decide (4096 ≤ f 8 2) || f 24 4 == 0 || f 24 4 == 0xFFFFFFFF || f 28 4 == 0 || decide (2 ^ 24 < f 28 4) ||
  f 72 4 == 0 || decide (2 ^ 22 < f 72 4) || f 76 4 == 0 || f 76 4 % 65536 != 0 || f 80 8 % 64 != 0 || f 88 8 % 64 != 0 ||
  [f 16 8, f 32 8, f 40 8, f 48 8, f 56 8, f 64 8, f 80 8, f 88 8].any (fun a => !canonical a)
/-- WDESC_BIND: a write of WDESC with V = 1 (R90). -/
def execWdescBind (fn w : Nat) (v : Dword) (s : State) : Out State :=
  if !v.getLsbD 0 || 256 ≤ w then .fault .notPending
  else
    match s.world? fn w with
    | some _ => done (setWstat fn w true false s)
    | none =>
      let pa := bitsOf v.toNat 51 8 * 256
      let bad (s : State) : Out State := done (setWstat fn w false true s)
      if bitsOf v.toNat 63 52 != 0 then bad s
      else
        match readPhys fn pa 256 s with
        | (s, none) => bad s
        | (s, some b) =>
          if worldBad b then bad s
          else
            let x : World := ⟨fn, w, b, [⟨0, [], [], [], 0⟩], 0, [], 0, 0, [], 0, 0, 0, 0, [], [], [], [], none, [], 0, none, false, false⟩
            done (setWstat fn w false false ((s.setReg fn false (0x2000 + 16 * w) (BitVec.ofNat 64 (pa + 1))).setWorld x))
/-- No unretired launch declares the world, no view of it is open, and no keystone runs (R92). -/
def worldIdle (x : World) (s : State) : Bool :=
  !s.grids.any (fun g => g.fn == x.fn && g.world == some x.id) && x.viewTeams.isEmpty && (!x.running || x.stopped)
/-- WDESC_UNBIND: a write of WDESC with V = 0 (R92). -/
def execWdescUnbind (fn w : Nat) (v : Dword) (s : State) : Out State :=
  if v.getLsbD 0 || 256 ≤ w then .fault .notPending
  else
    match s.world? fn w with
    | some x =>
      if worldIdle x s then
        let s := { s with worlds := s.worlds.filter (fun y => !(y.fn == fn && y.id == w)) }
        done (setWstat fn w false false (s.setReg fn false (0x2000 + 16 * w) (BitVec.ofNat 64 (bitsOf v.toNat 63 8 * 256))))
      else done (setWstat fn w true false s)
    | none => done (setWstat fn w false false (s.setReg fn false (0x2000 + 16 * w) (BitVec.ofNat 64 (bitsOf v.toNat 63 8 * 256))))

/-! ### Tables (R93 to R99) -/

/-- The tables of a generation. -/
def World.gen? (w : World) (g : Nat) : Option Tables := w.tables.find? (fun (t : Tables) => t.gen == g)
/-- An entry of the directory. -/
def Tables.entity (t : Tables) (i : Nat) : Option Entity := t.entities.find? (fun (e : Entity) => e.index == i)
/-- A segment. -/
def Tables.segment (t : Tables) (n : Nat) : Option Segment := t.segs.find? (fun (x : Segment) => x.seg == n)
/-- A shape. -/
def Tables.shape (t : Tables) (i : Nat) : Option Shape := t.shapes.find? (fun (x : Shape) => x.id == i)
/-- The entity a handle names, where the handle resolves (R94). -/
def resolve (w : World) (t : Tables) (h : Nat) : Option Entity :=
  if h / 2 ^ 56 % 256 != w.id || decide (w.dircap ≤ h % 2 ^ 32) then none
  else
    match t.entity (h % 2 ^ 32) with
    | some e => if e.live && e.gen == bitsOf h 55 32 then some e else none
    | none => none
/-- The handle of an entity (Table 5.3). -/
def handleOf (w : World) (e : Entity) : Nat := w.id * 2 ^ 56 + e.gen % 2 ^ 24 * 2 ^ 32 + e.index
/-- Column of a type in a shape: offset from the segment base and element size (R96). -/
def Shape.column (x : Shape) (c : Nat) : Option (Nat × Nat) :=
  match x.types.find? (fun t => t.1 == c) with
  | some (_, n) => some (((x.types.filter (fun t => decide (t.1 < c))).map (fun t => 1024 * t.2)).sum, n)
  | none => none
/-- Bytes of all columns. -/
def Shape.bytes (x : Shape) : Nat := (x.types.map (fun t => 1024 * t.2)).sum
/-- Base address of a segment. -/
def World.segBase (w : World) (n : Nat) : Nat := w.field 64 8 + n * w.field 76 4
/-- Address of row r of a type; 0 where the shape does not hold it (R97). -/
def rowAddr (w : World) (x : Shape) (seg row c : Nat) : Nat :=
  match x.column c with
  | some (off, n) => w.segBase seg + off + row * n
  | none => 0
/-- The ranges of a live mask from row r on: (first row, rows) (R97). -/
def rangesFrom (mask : Nat) : Nat → Nat → Option (Nat × Nat) → List (Nat × Nat)
  | 0, _, open' => open'.toList
  | k + 1, r, open' =>
    if mask.testBit r then
      match open' with
      | some (f, n) => rangesFrom mask k (r + 1) (some (f, n + 1))
      | none => rangesFrom mask k (r + 1) (some (r, 1))
    else open'.toList ++ rangesFrom mask k (r + 1) none
/-- The ranges of a segment. -/
def Segment.ranges (x : Segment) : List (Nat × Nat) := rangesFrom x.mask 1024 0 none
/-- A query: required and excluded types (R98). -/
def queryOf (words : List Nat) : List Nat × List Nat :=
  let w0 := words.headD 0
  ((words.drop 1).take (w0 % 256), (words.drop (1 + w0 % 256)).take (bitsOf w0 15 8))
/-- A shape matches a query (R98). -/
def Shape.matches (x : Shape) (q : List Nat × List Nat) : Bool :=
  q.1.all (fun t => x.types.any (fun p => p.1 == t)) && !q.2.any (fun t => x.types.any (fun p => p.1 == t))
/-- The ranges of a query in the walker's order: (segment, first row, rows) (R99). -/
def queryRanges (t : Tables) (q : List Nat × List Nat) : List (Nat × Nat × Nat) :=
  ((sortBy Shape.id t.shapes).filter (fun x => x.matches q)).flatMap (fun x =>
    (t.segs.filter (fun (g : Segment) => g.shape == x.id)).flatMap (fun g => g.ranges.map (fun r => (g.seg, r.1, r.2))))
/-- The generation that a team's EQRY and ECOL read (R99, R109). -/
def readGen (w : World) (team : Nat) : Option Tables :=
  match w.viewTeams.find? (fun v => v.1 == team) with
  | some v => w.gen? v.2
  | none => w.gen? w.cur

/-- The running keystone has planned its compaction and has not published: rows of the published generation may be overwritten in place from here on (R103 phase 5, R104). -/
def World.compacted (w : World) : Bool :=
  w.next.isSome && w.todo.all (fun k => match k with | .copySeg _ _ | .moveRow _ _ _ _ _ | .release _ => true | _ => false)

/-! ### EQRY, ECOL, ELOOK, EEDIT: issue (R290 to R294) -/

/-- The world that a thread's launch declares. -/
def State.worldOf (s : State) (u : Nat) : Option World :=
  let g := s.gridOf u
  match g.world with
  | some w => s.world? g.fn w
  | none => none
/-- A world instruction in a thread: RESERVED_FIELD where the launch declares no world (R290). -/
def inWorld (f : World → Nat → State → State) (u : Nat) (s : State) : State :=
  match s.worldOf u with
  | some w => f w u s
  | none => raise .reservedField { kind := markWorld } u s
/-- A request to the table engine; its registers and its predicate are pending (R290). -/
def askWorld (cls : Cls) (hold : Bool) (kind : Nat) (args : List Nat) (dst : List Nat) (pred : Nat) (u : Nat) (s : State) : State :=
  let t := s.thr u
  let ps := if kind = 2 then [] else [pred]
  addReq cls [u] t.team (.world u kind args (dst.headD 0) pred) t.pc hold [] (s.modThr u (fun t => { t with pendV := t.pendV ++ dst, pendP := t.pendP ++ ps }))
/-- Words of a descriptor, each read as a 4-byte load (R291). -/
def loadWords (u : Nat) : Nat → Nat → State → State × (List Nat ⊕ (Cause × Detail))
  | 0, _, s => (s, .inl [])
  | n + 1, va, s =>
    match loadDesc u va 4 s with
    | (s, .inr f) => (s, .inr f)
    | (s, .inl b) =>
      match loadWords u n (va + 4) s with
      | (s, .inl r) => (s, .inl (leNat b :: r))
      | r => r
/-- Word 0 of a query descriptor is out of range (R98). -/
def countsBad (w0 : Nat) : Bool := w0 % 256 == 0 || decide (32 < w0 % 256) || decide (32 < bitsOf w0 15 8) || decide (32 < bitsOf w0 23 16) || decide (2 ^ 24 ≤ w0)
/-- EQRY in one thread: the descriptor is read and checked, and the walker is asked (R291, R98). -/
def queryThread (x : WA) (w : World) (u : Nat) (s : State) : State :=
  let va := ((s.thr u).rpair (rn x.a)).toNat
  let bad (s : State) : State := raise .reservedField { kind := accLoad ||| markWorld, addr := va } u s
  match loadWords u 1 va s with
  | (s, .inr (c, d)) => raise c d u s
  | (s, .inl l) =>
    let w0 := l.headD 0
    if countsBad w0 then bad s
    else
      match loadWords u (w0 % 256 + bitsOf w0 15 8 + bitsOf w0 23 16) (va + 4) s with
      | (s, .inr (c, d)) => raise c d u s
      | (s, .inl ts) =>
        let (s, sizes) := typeSizes w (ts.map (· % 1024)) s
        if ts.any (fun t => decide (1024 ≤ t)) || sizes.contains 0 then bad s
        else askWorld .ld true 0 ((x.ob.val (s.teamOf u) (s.thr u)).toNat :: w0 :: ts) [rn x.d, rn x.d + 1] (rn x.x.w2 % 8) u s
/-- Use of a world instruction with an A pair, B and P. -/
def worldUse (x : WA) (wv : List Nat) (cls : Cls) : Use :=
  { (use12 x.e x.x.g (regs (rn x.a) true) wv).reads [x.ob] false with wp := [rn x.x.w2 % 8], cls := cls, kind := accLoad }
/-- EQRY (R291). -/
def execEqry (x : WA) (s : State) : Out State :=
  issue (worldUse x (regs (rn x.d) true) .ld) false (fun us s => us.foldl (fun s u => inWorld (queryThread x) u s) s) s
/-- ELOOK in one thread (R293). -/
def lookThread (x : WA) (_ : World) (u : Nat) (s : State) : State :=
  let t := s.thr u
  let c := (x.ob.val (s.teamOf u) t).toNat
  if 1023 < c then raise .reservedField { kind := markWorld } u s
  else askWorld .ld true 1 [(t.rpair (rn x.a)).toNat, c] [rn x.d, rn x.d + 1] (rn x.x.w2 % 8) u s
/-- ELOOK (R293). -/
def execElook (x : WA) (s : State) : Out State :=
  issue (worldUse x (regs (rn x.d) true) .ld) false (fun us s => us.foldl (fun s u => inWorld (lookThread x) u s) s) s
/-- ECOL in one thread (R292). -/
def columnThread (a d c : Nat) (_ : World) (u : Nat) (s : State) : State :=
  if 1023 < c then raise .reservedField { kind := markWorld } u s
  else askWorld .ld false 2 [((s.thr u).rv a).toNat, c] [d, d + 1] 0 u s
/-- ECOL (R292). -/
def execEcol (x : SI) (s : State) : Out State :=
  issue { use4 x.e [rn x.a] (regs (rn x.d) true) with cls := .ld } false (fun us s => us.foldl (fun s u => inWorld (columnThread (rn x.a) (rn x.d) (rn x.imm)) u s) s) s
/-- ECOL, 96-bit (R292). -/
def execEcolWide (x : WA) (s : State) : Out State :=
  issue { use12 x.e x.x.g [rn x.a] (regs (rn x.d) true) with cls := .ld } false
    (fun us s => us.foldl (fun s u => inWorld (columnThread (rn x.a) (rn x.d) (rn x.x.w2)) u s) s) s
/-- EEDIT in one thread: its checks, then the queue is asked (R294). -/
def editThread (op : Nat) (x : WA) (w : World) (u : Nat) (s : State) : State :=
  let t := s.thr u
  let a := (t.rpair (rn x.a)).toNat
  let b := if op = 0 then (t.rpair (rn x.b)).toNat else if op = 1 then 0 else (x.ob.val (s.teamOf u) t).toNat
  if op = 0 && a % 4 != 0 then raise .alignment { kind := markWorld, addr := a } u s
  else if op = 0 && b % 8 != 0 then raise .alignment { kind := markWorld, addr := b } u s
  else if 2 ≤ op && (b == 0 || decide (1023 < b)) then raise .reservedField { kind := markWorld } u s
  else if op != 0 && a / 2 ^ 56 % 256 != w.id then raise .staleHandle { kind := markWorld, addr := a } u s
  else askWorld .st false 3 [op, a, b] [] (rn x.x.w2 % 8) u s
/-- EEDIT in the true-guard threads. -/
def editAll (op : Nat) (u : Use) (x : WA) (s : State) : Out State :=
  issue { u with wp := [rn x.x.w2 % 8], cls := .st } false (fun us s => us.foldl (fun s u => inWorld (editThread op x) u s) s) s
/-- EEDIT.NEW (R294, R100). -/
def execEeditNew (x : WA) (s : State) : Out State := editAll 0 (use12 x.e x.x.g (regs (rn x.a) true ++ regs (rn x.b) true) []) x s
/-- EEDIT.DEL (R294, R100). -/
def execEeditDel (x : WA) (s : State) : Out State := editAll 1 (use12 x.e x.x.g (regs (rn x.a) true) []) x s
/-- EEDIT.ADD (R294, R100). -/
def execEeditAdd (x : WA) (s : State) : Out State := editAll 2 ((use12 x.e x.x.g (regs (rn x.a) true) []).reads [x.ob] false) x s
/-- EEDIT.REM (R294, R100). -/
def execEeditRem (x : WA) (s : State) : Out State := editAll 3 ((use12 x.e x.x.g (regs (rn x.a) true) []).reads [x.ob] false) x s

/-! ### The engine's answers -/

/-- A world request's registers and predicate are no longer pending. -/
def settleWorld (u : Nat) (dst : List Nat) (preds : List Nat) (s : State) : State :=
  s.modThr u (fun t => { t with pendV := t.pendV.filter (fun r => !dst.contains r), pendP := t.pendP.filter (fun r => !preds.contains r) })
/-- EVIEW for one team: it pins, or lets go of, a generation, and its threads take P (R108, R295). -/
def grantView (opening full : Bool) (wr : List Nat) (pred : Nat) (mine : List Nat) (team : Nat) (w : World) (s : State) : State :=
  let has := w.viewTeams.any (fun v => v.1 == team)
  let ok := if opening then !has && decide (w.viewTeams.length < 256) else has
  let v : Word := if opening then BitVec.ofNat 32 w.cur else 0xFFFFFFFF
  let s :=
    if !ok then s
    else
      let s := if opening then
          s.setWorld { w with
            viewTeams := (team, w.cur) :: w.viewTeams
            tables := w.tables.map (fun (t : Tables) => if t.gen == w.cur then { t with views := t.views + 1 } else t) }
        else closeView team s
      s.modTeam team (fun tm => { tm.noteWrite full (tm.view != v) wr (.special 2) with view := v })
  each (fun t => t.wp pred ok) mine s
/-- WORLD_REPLY: the answer to EQRY, ELOOK or ECOL, from the tables as they stand, or to an EVIEW that a keystone holds up (R291 to R293, R295, R105). -/
def execWorldReply (req : Nat) (s : State) : Out State :=
  match s.req? req with
  | none => .fault .notPending
  | some r =>
    match r.work with
    | .world u kind args d pred =>
      match s.worldOf u with
      | none => .fault .notPending
      | some w =>
        let dst := [d, d + 1]
        let put (lo hi : Nat) (s : State) : State := s.modThr u (fun t => (t.wv d (BitVec.ofNat 32 lo)).wv (d + 1) (BitVec.ofNat 32 hi))
        match kind with
        | 0 =>
          match readGen w r.team with
          | none => .fault .notPending
          | some t =>
            let s := settleWorld u dst [pred] (complete r s)
            match (queryRanges t (queryOf (args.drop 1)))[args.headD 0]? with
            | some (g, f, n) => done ((put (g * 1024 + f) n s).modThr u (fun t => t.wp pred true))
            | none => done (s.modThr u (fun t => t.wp pred false))
        | 1 =>
          match w.gen? w.cur with
          | none => .fault .notPending
          | some t =>
            let s := settleWorld u dst [pred] (complete r s)
            match resolve w t (args.headD 0) with
            | some e =>
              let a := match t.shape e.shape with | some x => rowAddr w x e.seg e.row (nth 0 args 1) | none => 0
              done ((put (a % 2 ^ 32) (a / 2 ^ 32) s).modThr u (fun t => t.wp pred true))
            | none =>
              if (s.tm r.team).mode.getLsbD 3 then done (withIssue r.group (raise .staleHandle { kind := markWorld, addr := args.headD 0 } u) s)
              else
                done ((s.modThr u (fun t => t.wp pred false)).modTeam r.team (fun tm =>
                  let n := bitsOf tm.teamstat.toNat 15 8
                  if n = 255 then tm else { tm with teamstat := tm.teamstat + 256 }))
        | 2 =>
          match readGen w r.team with
          | none => .fault .notPending
          | some t =>
            let word := args.headD 0
            let seg := word / 1024
            let a := if w.field 72 4 ≤ seg then 0
              else
                match t.segment seg with
                | some g => (match t.shape g.shape with | some x => rowAddr w x seg (word % 1024) (nth 0 args 1) | none => 0)
                | none => 0
            done (put (a % 2 ^ 32) (a / 2 ^ 32) (settleWorld u dst [] (complete r s)))
        | 4 =>
          if w.compacted then .fault .heldBack
          else
            let s := r.threads.foldl (fun s u => settleWorld u [] [pred] s) (complete r s)
            done (grantView true (args.headD 0 == 1) (args.drop 1) pred r.threads r.team w s)
        | _ => .fault .notPending
    | _ => .fault .notPending
/-- EDIT_QUEUE_ACCEPT: the queue takes the edit or refuses it; lanes of one instruction in ascending order (R101). -/
def execEditQueueAccept (req : Nat) (s : State) : Out State :=
  match s.req? req with
  | none => .fault .notPending
  | some r =>
    match r.work with
    | .world u 3 args _ pred =>
      match s.worldOf u with
      | none => .fault .notPending
      | some w =>
        if s.reqs.any (fun q => decide (q.id < r.id) && (q.group == r.group || q.threads.contains u) && (match q.work with | .world _ 3 _ _ _ => true | _ => false)) then .fault .heldBack
        else
          let t := s.thr u
          let tm := s.tm r.team
          let g := s.gr tm.grid
          let s := settleWorld u [] [pred] (complete r s)
          if w.qcap ≤ w.edits.length then
            done ((if g.det then setNdet r.team s else s).modThr u (fun t => t.wp pred false))
          else
            let e : Edit := ⟨args.headD 0, g.field 36 4, g.uid, tm.id, t.tid, t.editSeq, nth 0 args 1, nth 0 args 2⟩
            let (bs, s) := freeBytes 32 s
            let s := (worldWrite w (w.field 32 8 + 32 * w.qtail) bs false s).1
            let s := writeControl w.fn w.id (s.setWorld { w with edits := w.edits ++ [e], qtail := (w.qtail + 1) % w.qcap })
            unitDone (s.modThr u (fun t => { t.wp pred true with editSeq := (t.editSeq + 1) % 2 ^ 32 }))
    | _ => .fault .notPending

/-! ### EVIEW (R295, R108) -/

/-- EVIEW at issue for one team. An OPEN while a keystone that has planned its compaction has not published is answered after its publish, for no pinned generation's rows may be overwritten (R104, R109, notes/assumptions 39). -/
def viewTeam (opening : Bool) (pred : Nat) (mine : List Nat) (team : Nat) (s : State) : State :=
  let members := s.members
  let full := s.holdsAll members team
  let wr := writersOf s members team
  if !full && s.det team then raiseAll .uniformMix {} (waveOf s team) s
  else
    let u := mine.headD 0
    match s.worldOf u with
    | none => s
    | some w =>
      if opening && w.compacted && !w.viewTeams.any (fun v => v.1 == team) then
        addReq .none mine team (.world u 4 ((if full then 1 else 0) :: wr) 0 pred) (s.thr u).pc true [] (each (fun t => { t with pendP := t.pendP ++ [pred] }) mine s)
      else grantView opening full wr pred mine team w s
/-- EVIEW in the true-guard threads. -/
def viewAll (opening : Bool) (x : WA) (s : State) : Out State :=
  let pred := rn x.x.w2 % 8
  issue { use12 x.e x.x.g [] [] with wp := [pred] } false (fun us s =>
    let none' := us.filter (fun u => (s.worldOf u).isNone)
    let s := raiseAll .reservedField { kind := markWorld } none' s
    let us := us.filter (fun u => !none'.contains u)
    (teamsIn s us).foldl (fun s tm => viewTeam opening pred (us.filter (fun u => (s.thr u).team == tm)) tm s) s) s
/-- EVIEW.OPEN (R295). -/
def execEviewOpen (x : WA) (s : State) : Out State := viewAll true x s
/-- EVIEW.CLOSE (R295). -/
def execEviewClose (x : WA) (s : State) : Out State := viewAll false x s

/-! ### KEYS (R296) -/

/-- KEYS after its release: the thread parks; outside a DET launch it requests a keystone at once (R296). -/
def keysPark (u : Nat) (s : State) : State :=
  if s.det (s.thr u).team then
    parkThread .keys { mode := 1 } u (s.modThr u (fun t => { t with flushPoints := t.flushPoints + 1, keysTick := 0 }))
  else
    let s := parkThread .keys { mode := 1 } u (s.modThr u (fun t => { t with keysTick := max s.gtick 1 }))
    s.modGrid (s.tm (s.thr u).team).grid (fun g => { g with keysReq := true })
/-- KEYS in the true-guard threads. -/
def keysThreads (us : List Nat) (s : State) : State :=
  us.foldl (fun s u => inWorld (fun _ u s => withRelease 3 keysPark [u] s) u s) s
/-- KEYS (R296). -/
def execKeys (x : SA) (s : State) : Out State := issue (use4 x.e [] []) false keysThreads s
/-- KEYS, 96-bit (R296). -/
def execKeysWide (x : WA) (s : State) : Out State := issue (use12 x.e x.x.g [] []) false keysThreads s

/-! ### Keystones (R102 to R107) -/

/-- What a piece of a keystone's work answers: the world and the pieces that come first, or the fault it stops at. -/
inductive Tasked where
  | ok (w : World) (more : List KTask)
  | bad (cause : Cause) (kind addr : Nat)
  deriving DecidableEq, Repr
/-- A report count raised: 0 DRAINED, 1 APPLIED, 2 DROP_DEL, 3 DROP_STALE, 4 NOOP, 5 DROP_INVALID, 6 DROP_RES, 7 LOSTSLOT, 8 MOVED, 9 COPIED, 10 FREED, 11 DEFER. -/
def World.tally (w : World) (k n : Nat) : World := { w with counts := setNth 0 w.counts k (nth 0 w.counts k + n) }
/-- The tables that the keystone builds. -/
def World.build (w : World) : Tables := w.next.getD ⟨0, [], [], [], 0⟩
/-- Changes the tables that the keystone builds. -/
def World.rebuild (w : World) (f : Tables → Tables) : World := { w with next := w.next.map f }
/-- An entry of the directory set. -/
def Tables.setEntity (t : Tables) (e : Entity) : Tables := { t with entities := e :: t.entities.filter (fun (x : Entity) => x.index != e.index) }
/-- A row's live bit set or cleared. -/
def Tables.markRow (t : Tables) (seg row : Nat) (live : Bool) : Tables :=
  { t with segs := t.segs.map (fun (g : Segment) =>
      if g.seg == seg && g.mask.testBit row != live then { g with mask := if live then g.mask + 2 ^ row else g.mask - 2 ^ row } else g) }
/-- Writes of a keystone in order; the first that faults stops it. -/
def putAll (w : World) : List (Nat × List Byte × Bool) → State → State × Put
  | [], s => (s, .tw 0)
  | (va, bs, p) :: l, s =>
    match worldWrite w va bs p s with
    | (s, .bad c m a) => (s, .bad c m a)
    | (s, .tw t) =>
      match putAll w l s with
      | (s, .tw q) => (s, .tw (max t q))
      | r => r
/-- The directory entry of an index as the engine writes it: 16 bytes of its own format. -/
def dirWrite (w : World) (i : Nat) (s : State) : (Nat × List Byte × Bool) × State :=
  let (bs, s) := freeBytes 16 s
  ((w.field 16 8 + 16 * i, bs, false), s)
/-- A keystone's writes are made, and the piece answers. -/
def finishTask (w : World) (l : List (Nat × List Byte × Bool)) (more : List KTask) (s : State) : State × Tasked :=
  match putAll w l s with
  | (s, .bad c m a) => (s, .bad c (accEngineWrite ||| m) a)
  | (s, .tw t) => (s, .ok { w with maxTw := max w.maxTw t } more)
/-- The edits in the keystone's order (R103 phase 1). -/
def sortEdits (l : List Edit) : List Edit :=
  sortBy Edit.rank (sortBy Edit.grid (sortBy Edit.team (sortBy Edit.tid (sortBy Edit.seq l))))
/-- Numbers of a list, each once, in order. -/
def distinct (l : List Nat) : List Nat := l.foldl (fun d x => if d.contains x then d else d ++ [x]) []
/-- Directory entries that the engine reads to resolve handles; the fault of the first read that faults (R94, R107). -/
def readEntries (w : World) (l : List Nat) (s : State) : State × Option (Cause × Nat × Nat) :=
  l.foldl (fun (r : State × Option (Cause × Nat × Nat)) i =>
    match r.2 with
    | some _ => r
    | none =>
      match worldRead w (w.field 16 8 + 16 * i) 16 r.1 with
      | (s, .bytes _ _) => (s, none)
      | (s, .bad c m a) => (s, some (c, m, a))) (s, none)
/-- Phase 1, and the resolving of handles that opens phase 2: each queue entry and each named directory entry is read, and the edits become pieces of phases 2 to 5 (R103). -/
def drainTask (w : World) (edits : List Edit) (head : Nat) (s : State) : State × Tasked :=
  let r := (List.range edits.length).foldl (fun (r : State × Option (Cause × Nat × Nat)) i =>
    match r.2 with
    | some _ => r
    | none =>
      match worldRead w (w.field 32 8 + 32 * ((head + i) % w.qcap)) 32 r.1 with
      | (s, .bytes _ _) => (s, none)
      | (s, .bad c m a) => (s, some (c, m, a))) (s, none)
  match r with
  | (s, some (c, m, a)) => (s, .bad c (accEngineRead ||| m) a)
  | (s, none) =>
   match readEntries w ((edits.filter (fun e => e.op != 0 && decide (e.handle % 2 ^ 32 < w.dircap))).map (fun e => e.handle % 2 ^ 32)) s with
   | (s, some (c, m, a)) => (s, .bad c (accEngineRead ||| m) a)
   | (s, none) =>
    let l := sortEdits edits
    let t := w.build
    let named := (l.filter (fun e => e.op != 0)).map (fun e => (e, (resolve w t e.handle).map Entity.index))
    let stale := (named.filter (fun p => p.2.isNone)).length
    let of (i : Nat) : List Edit := (named.filter (fun p => p.2 == some i)).map (·.1)
    let dels := distinct (named.filterMap (fun p => if p.1.op == 1 then p.2 else none))
    let rest := sortBy id (distinct (named.filterMap (fun p => match p.2 with | some i => if dels.contains i then none else some i | none => none)))
    let more := dels.map (fun i => KTask.destroy (of i)) ++ rest.map (fun i => KTask.change (of i)) ++ (l.filter (fun e => e.op == 0)).map KTask.create ++ [.plan]
    (s, .ok ((w.tally 0 edits.length).tally 3 stale) more)
/-- Phase 2 for one entity: the first DEL applies, every other edit of it is dropped (R103). -/
def destroyTask (w : World) (edits : List Edit) (s : State) : State × Tasked :=
  match resolve w w.build (match edits with | e :: _ => e.handle | [] => 0) with
  | none => (s, .ok w [])
  | some e =>
    let gen := e.gen + 1
    let retired := gen == 0xFFFFFF
    let (d, s) := dirWrite w e.index s
    let push := if retired then [] else [(w.field 40 8 + 4 * w.ftail, leBytes e.index 4, false)]
    let w' := (w.rebuild (fun t => (t.markRow e.seg e.row false).setEntity { e with gen := gen, live := false })).tally 1 1 |>.tally 2 (edits.length - 1)
    let w' := if retired then w' else { w' with fifo := w'.fifo ++ [e.index], ftail := (w'.ftail + 1) % w'.dircap }
    finishTask w' (d :: push) [] s
/-- The shape of a set of types: an existing one, or a new one with the lowest free id where the sizes fit a segment (R96). -/
def shapeFor (w : World) (types : List (Nat × Nat)) : Option (Shape × World) :=
  let t := w.build
  match t.shapes.find? (fun (x : Shape) => x.types.map (·.1) == types.map (·.1)) with
  | some x => some (x, w)
  | none =>
    match (List.range 4096).find? (fun i => (t.shape i).isNone) with
    | none => none
    | some i =>
      let x : Shape := ⟨i, types⟩
      if w.field 76 4 < x.bytes then none else some (x, w.rebuild (fun t => { t with shapes := x :: t.shapes }))
/-- A shape's entry in the shape table is read by the engine; the fault of the read (R107). -/
def readShape (w : World) (i : Nat) (s : State) : State × Option (Cause × Nat × Nat) :=
  match worldRead w (w.field 48 8 + i * Config.shapeEntry) Config.shapeEntry s with
  | (s, .bytes _ _) => (s, none)
  | (s, .bad c m a) => (s, some (c, m, a))
/-- A shape's entry as the engine writes it: its own format. -/
def shapeWrite (w : World) (i : Nat) (s : State) : (Nat × List Byte × Bool) × State :=
  let (bs, s) := freeBytes Config.shapeEntry s
  ((w.field 48 8 + i * Config.shapeEntry, bs, false), s)
/-- The entry of a shape that an edit needs: one that the tables hold is read, a new one is written (R96, R107). -/
def openShape (w : World) (x : Shape) (s : State) : State × (List (Nat × List Byte × Bool) ⊕ (Cause × Nat × Nat)) :=
  if (w.build.shape x.id).isSome then
    match readShape w x.id s with
    | (s, some f) => (s, .inr f)
    | (s, none) => (s, .inl [])
  else let (d, s) := shapeWrite w x.id s; (s, .inl [d])
/-- Pool segments that no generation uses (R104, R108). -/
def freeSegments (w : World) : List Nat :=
  let used := (w.tables ++ w.next.toList).flatMap (fun (t : Tables) => t.segs.map Segment.seg)
  (List.range (w.field 72 4)).filter (fun n => !used.contains n)
/-- A row at the high-water mark of the shape's last segment, or in a fresh one; which one is the engine's choice (R103). -/
def appendRow (w : World) (x : Shape) (s : State) : State × Option (World × Nat × Nat) :=
  let mine := w.build.segs.filter (fun (g : Segment) => g.shape == x.id)
  let take (seg row : Nat) (w : World) : World :=
    w.rebuild (fun t => { t with segs := t.segs.map (fun (g : Segment) => if g.seg == seg then { g with high := row + 1, mask := if g.mask.testBit row then g.mask else g.mask + 2 ^ row } else g) })
  let fresh : State × Option (World × Nat × Nat) :=
    let free := freeSegments w
    let (i, s) := s.pick free.length
    match free[i]? with
    | some n => (s, some (take n 0 (w.rebuild (fun t => { t with segs := t.segs ++ [⟨n, x.id, 0, 0⟩] })), n, 0))
    | none => (s, none)
  match mine.getLast? with
  | some g => if g.high < 1024 then (s, some (take g.seg g.high w, g.seg, g.high)) else fresh
  | none => fresh
/-- The writes of a row: kept components from an old row, zeros, and the handle column; the reads that faulted. -/
def rowWrites (w : World) (x : Shape) (seg row handle : Nat) (old : Option (Shape × Nat × Nat)) (s : State) : State × (List (Nat × List Byte × Bool) ⊕ (Cause × Nat × Nat)) :=
  x.types.foldl (fun (r : State × (List (Nat × List Byte × Bool) ⊕ (Cause × Nat × Nat))) c =>
    match r.2 with
    | .inr f => (r.1, .inr f)
    | .inl l =>
      let at' := rowAddr w x seg row c.1
      if c.1 = 0 then (r.1, .inl (l ++ [(at', leBytes handle 8, false)]))
      else
        match old with
        | some (y, sg, rw) =>
          if (y.column c.1).isSome then
            match worldRead w (rowAddr w y sg rw c.1) c.2 r.1 with
            | (s, .bytes b p) => (s, .inl (l ++ [(at', b, p)]))
            | (s, .bad k m a) => (s, .inr (k, m, a))
          else (r.1, .inl (l ++ [(at', List.replicate c.2 0, false)]))
        | none => (r.1, .inl (l ++ [(at', List.replicate c.2 0, false)]))) (s, .inl [])
/-- Phase 3 for one entity (R103). -/
def changeTask (w : World) (edits : List Edit) (s : State) : State × Tasked :=
  let t := w.build
  match resolve w t (match edits with | e :: _ => e.handle | [] => 0) with
  | none => (s, .ok w [])
  | some e =>
    match t.shape e.shape with
    | none => (s, .ok w [])
    | some x =>
     match readShape w x.id s with
     | (s, some (c, m, a)) => (s, .bad c (accEngineRead ||| m) a)
     | (s, none) =>
      let (s, sizes) := typeSizes w (edits.map Edit.arg) s
      let pairs := edits.zip sizes
      let invalid := (pairs.filter (fun p => p.2 == 0)).length
      let (set, noop) := (pairs.filter (fun p => p.2 != 0)).foldl (fun (r : List (Nat × Nat) × Nat) p =>
        let held := r.1.any (fun c => c.1 == p.1.arg)
        if (p.1.op == 2) == held then (r.1, r.2 + 1)
        else if p.1.op == 2 then (insertBy (·.1) (p.1.arg, p.2) r.1, r.2)
        else (r.1.filter (fun c => c.1 != p.1.arg), r.2)) (x.types, 0)
      let valid := edits.length - invalid
      let w0 := w.tally 5 invalid
      if set.map (·.1) == x.types.map (·.1) then (s, .ok ((w0.tally 1 valid).tally 4 noop) [])
      else
        match shapeFor w0 set with
        | none => (s, .ok (w0.tally 6 valid) [])
        | some (y, w1) =>
          match appendRow w1 y s with
          | (s, none) => (s, .ok (w1.tally 6 valid) [])
          | (s, some (w2, seg, row)) =>
           match openShape w0 y s with
           | (s, .inr (c, m, a)) => (s, .bad c (accEngineRead ||| m) a)
           | (s, .inl opened) =>
            match rowWrites w2 y seg row (handleOf w e) (some (x, e.seg, e.row)) s with
            | (s, .inr (c, m, a)) => (s, .bad c (accEngineRead ||| m) a)
            | (s, .inl l) =>
              let l := opened ++ l
              let (d, s) := dirWrite w e.index s
              let w3 := w2.rebuild (fun t => (t.markRow e.seg e.row false).setEntity { e with shape := y.id, seg := seg, row := row })
              finishTask ((w3.tally 1 valid).tally 4 noop) (l ++ [d]) [] s
/-- A component list of a NEW: its types with their sizes; none where it faults or breaks R98's form (R294). -/
def componentList (w : World) (va : Nat) (s : State) : State × Option (List (Nat × Nat)) :=
  match readVa baseDie w.fn w.ctx va 4 s with
  | (s, .bad _ _ _) => (s, none)
  | (s, .bytes b _) =>
    let n := leNat b
    if n == 0 || decide (32 < n) then (s, none)
    else
      match readVa baseDie w.fn w.ctx (va + 4) (4 * n) s with
      | (s, .bad _ _ _) => (s, none)
      | (s, .bytes l _) =>
        let ts := (List.range n).map (fun i => fieldOf l (4 * i) 4)
        let all := sortBy id (distinct (0 :: ts))
        let (s, sizes) := typeSizes w (all.map (· % 1024)) s
        if ts.any (fun t => decide (1024 ≤ t)) || sizes.contains 0 then (s, none) else (s, some (all.zip sizes))
/-- A result slot is written through the world's context; false where it cannot be (R103). -/
def writeSlot (w : World) (va handle : Nat) (s : State) : State × Bool × Nat :=
  if !s.ctxLive w.fn w.ctx then (s, false, 0)
  else
    match writeVa baseDie w.fn w.ctx va (leBytes handle 8) s with
    | (s, .tw t) => (s.noteKey w (lineAt baseDie w.fn w.ctx va s) t, true, t)
    | (s, .bad _ _ _) => (s, false, 0)
/-- The null handle (R93). -/
def nullHandle : Nat := 2 ^ 64 - 1
/-- A NEW is dropped: the null handle goes to its slot (R103). -/
def dropNew (w : World) (k : Nat) (e : Edit) (s : State) : State × Tasked :=
  let (s, _, t) := writeSlot w e.arg nullHandle s
  (s, .ok { w.tally k 1 with maxTw := max w.maxTw t } [])
/-- Phase 4 for one NEW (R103). -/
def createTask (w : World) (e : Edit) (s : State) : State × Tasked :=
  match componentList w e.handle s with
  | (s, none) => dropNew w 5 e s
  | (s, some types) =>
    let reuse := decide (0 < w.fready)
    let idx := if reuse then w.fifo.head? else if w.nextNew < w.dircap then some w.nextNew else none
    match idx with
    | none => dropNew w 6 e s
    | some i =>
      match shapeFor w types with
      | none => dropNew w 6 e s
      | some (x, w1) =>
        match appendRow w1 x s with
        | (s, none) => dropNew w1 6 e s
        | (s, some (w2, seg, row)) =>
          let old := (w2.build.entity i).getD ⟨i, 0, false, 0, 0, 0⟩
          let ent : Entity := { old with live := true, shape := x.id, seg := seg, row := row }
         match openShape w x s with
         | (s, .inr (c, m, a)) => (s, .bad c (accEngineRead ||| m) a)
         | (s, .inl opened) =>
          match rowWrites w2 x seg row (handleOf w ent) none s with
          | (s, .inr (c, m, a)) => (s, .bad c (accEngineRead ||| m) a)
          | (s, .inl l) =>
            let l := opened ++ l
            let (d, s) := dirWrite w i s
            let read : State × Option (Cause × Nat × Nat) :=
              if !reuse then (s, none)
              else
                match worldRead w (w.field 40 8 + 4 * w.fhead) 4 s with
                | (s, .bytes _ _) => (s, none)
                | (s, .bad c m a) => (s, some (c, m, a))
            match read with
            | (s, some (c, m, a)) => (s, .bad c (accEngineRead ||| m) a)
            | (s, none) =>
              let w3 := w2.rebuild (fun t => t.setEntity ent)
              let w3 := if reuse then { w3 with fifo := w3.fifo.drop 1, fhead := (w3.fhead + 1) % w3.dircap, fready := w3.fready - 1 } else { w3 with nextNew := w3.nextNew + 1 }
              match finishTask (w3.tally 1 1) (l ++ [d]) [] s with
              | (s, .ok w4 more) =>
                let (s, wrote, t) := writeSlot w e.arg (handleOf w ent) s
                (s, .ok { (if wrote then w4 else w4.tally 7 1) with maxTw := max w4.maxTw t } more)
              | r => r
/-- Pinned generations: those with an open view (R108). -/
def World.pinned (w : World) : List Tables := w.tables.filter (fun (t : Tables) => t.views != 0)
/-- Rows of a shape in list order: (segment, row), below the high-water marks. -/
def shapeRows (t : Tables) (sh : Nat) : List (Nat × Nat × Bool) :=
  (t.segs.filter (fun (g : Segment) => g.shape == sh)).flatMap (fun g => (List.range g.high).map (fun r => (g.seg, r, g.mask.testBit r)))
/-- A segment takes another's place in the tables (R104). -/
def Tables.renameSeg (t : Tables) (src dst : Nat) : Tables :=
  { t with
    segs := t.segs.map (fun (g : Segment) => if g.seg == src then { g with seg := dst } else g)
    entities := t.entities.map (fun (e : Entity) => if e.live && e.seg == src then { e with seg := dst } else e) }
/-- A row moves in the tables. -/
def Tables.moveRow (t : Tables) (sseg srow dseg drow : Nat) : Tables :=
  let t := (t.markRow sseg srow false).markRow dseg drow true
  { t with entities := t.entities.map (fun (e : Entity) => if e.live && e.seg == sseg && e.row == srow then { e with seg := dseg, row := drow } else e) }
/-- Segments of a shape without a live row leave; a shape without a live row here and in the pinned generations leaves with them (R96, R103). -/
def Tables.release (t : Tables) (pinned : List Tables) (sh : Nat) : Tables × List Nat :=
  let gone := (t.segs.filter (fun (g : Segment) => g.shape == sh && g.mask == 0)).map Segment.seg
  let segs := t.segs.filter (fun (g : Segment) => !gone.contains g.seg)
  let held := segs.any (fun g => g.shape == sh) || pinned.any (fun (p : Tables) => p.segs.any (fun (g : Segment) => g.shape == sh && g.mask != 0))
  ({ t with segs := segs, shapes := if held then t.shapes else t.shapes.filter (fun (x : Shape) => x.id != sh) }, gone)
/-- Compaction of one shape as a list of pieces; none where the pool lacks a segment for a copy (R103, R104). -/
def planShape (pool : Nat) (pinned : List Tables) (sh : Nat) : Nat → Tables → List Nat → List KTask → State → State × Option (Tables × List KTask)
  | 0, t, _, l, s => (s, some (t, l))
  | fuel + 1, t, extra, l, s =>
    let rows := shapeRows t sh
    let k := rows.length - (rows.reverse.takeWhile (fun r => !r.2.2)).length
    match (rows.take (k - 1)).find? (fun r => !r.2.2), rows[k - 1]? with
    | some (ds, dr, _), some (ss, sr, _) =>
      if pinned.any (fun (p : Tables) => p.segs.any (fun (g : Segment) => g.seg == ds && g.mask.testBit dr)) then
        let used := extra ++ (t :: pinned).flatMap (fun (p : Tables) => p.segs.map Segment.seg)
        let free := (List.range pool).filter (fun n => !used.contains n)
        let (i, s) := s.pick free.length
        match free[i]? with
        | none => (s, none)
        | some n => planShape pool pinned sh fuel (t.renameSeg ds n) extra (l ++ [.copySeg ds n]) s
      else planShape pool pinned sh fuel (t.moveRow ss sr ds dr) extra (l ++ [.moveRow sh ss sr ds dr]) s
    | _, _ => (s, some (t, l))
/-- Phase 5 planned, shape by shape in ascending id; deferred where more than 3 older generations are pinned or the pool lacks a segment (R104). The published generation's segments stay until publish. -/
def planTask (w : World) (s : State) : State × Tasked :=
  let pinned := w.pinned
  let cur := match w.gen? w.cur with | some t => t.segs.map Segment.seg | none => []
  let deferred := (s, Tasked.ok (w.tally 11 1) [])
  if 3 < pinned.length then deferred
  else
    let ids := (sortBy Shape.id w.build.shapes).map Shape.id
    let r := ids.foldl (fun (r : State × Option (Tables × List KTask)) sh =>
      match r.2 with
      | none => r
      | some (t, l) =>
        match planShape (w.field 72 4) pinned sh (2 * 1024 * (t.segs.length + 1)) t cur l r.1 with
        | (s, none) => (s, none)
        | (s, some (t, l)) => (s, some ((t.release pinned sh).1, l ++ [.release sh]))) (s, some (w.build, []))
    match r with
    | (s, some (_, l)) =>
      match ids.foldl (fun (r : State × Option (Cause × Nat × Nat)) sh => match r.2 with | some _ => r | none => readShape w sh r.1) (s, none) with
      | (s, some (c, m, a)) => (s, .bad c (accEngineRead ||| m) a)
      | (s, none) => (s, .ok w l)
    | (s, none) => (s, .ok (w.tally 11 1) [])
/-- The lines of a segment, copied one after another (R104). -/
def copyLines (w : World) (src dst : Nat) : Nat → Nat → Nat → State → State × Put
  | 0, _, tw, s => (s, .tw tw)
  | n + 1, o, tw, s =>
    match worldRead w (src + o) 128 s with
    | (s, .bad c m a) => (s, .bad c (accEngineRead ||| m) a)
    | (s, .bytes b p) =>
      match worldWrite w (dst + o) b p s with
      | (s, .bad c m a) => (s, .bad c (accEngineWrite ||| m) a)
      | (s, .tw t) => copyLines w src dst n (o + 128) (max tw t) s
/-- One piece of a keystone's work. -/
def runTask (w : World) (t : KTask) (s : State) : State × Tasked :=
  match t with
  | .drain l h => drainTask w l h s
  | .destroy l => destroyTask w l s
  | .change l => changeTask w l s
  | .create e => createTask w e s
  | .plan => planTask w s
  | .copySeg a b =>
    match copyLines w (w.segBase a) (w.segBase b) (w.field 76 4 / 128) 0 0 s with
    | (s, .bad c k ad) => (s, .bad c k ad)
    | (s, .tw tw) => (s, .ok { (w.rebuild (fun t => t.renameSeg a b)).tally 9 1 with maxTw := max w.maxTw tw } [])
  | .moveRow sh ss sr ds dr =>
    match w.build.shape sh, w.build.entities.find? (fun (e : Entity) => e.live && e.seg == ss && e.row == sr) with
    | some x, some e =>
      match rowWrites w x ds dr (handleOf w e) (some (x, ss, sr)) s with
      | (s, .inr (c, m, a)) => (s, .bad c (accEngineRead ||| m) a)
      | (s, .inl l) =>
        let (d, s) := dirWrite w e.index s
        finishTask ((w.rebuild (fun t => t.moveRow ss sr ds dr)).tally 8 1) (l ++ [d]) [] s
    | _, _ => (s, .ok w [])
  | .release sh =>
    let (t, gone) := w.build.release w.pinned sh
    let free := gone.filter (fun n => !w.pinned.any (fun (p : Tables) => p.segs.any (fun (g : Segment) => g.seg == n)))
    let w' := { w with next := some t }.tally 10 free.length
    if (t.shape sh).isNone && (w.build.shape sh).isSome then
      let (d, s) := shapeWrite w sh s
      finishTask w' [d] [] s
    else (s, .ok w' [])
/-- The report (Table 5.5). -/
def keystoneReport (w : World) (faulted : Bool) (tick : Nat) : List Byte :=
  let c (k : Nat) : List Byte := leBytes (nth 0 w.counts k) 4
  leBytes (w.cur + 1) 4 ++ (List.range 11).flatMap c ++
  leBytes ((if nth 0 w.counts 11 = 0 then 0 else 1) + (if faulted then 2 else 0) + min 15 w.pinned.length * 16) 4 ++ leBytes 0 4 ++ leBytes tick 8
/-- The report is written; one that cannot be is not. -/
def writeReport (w : World) (faulted : Bool) (tick : Nat) (s : State) : State × Nat :=
  match worldWrite w (w.field 80 8) (keystoneReport w faulted tick) false s with
  | (s, .tw t) => (s, t)
  | (s, .bad _ _ _) => (s, s.gtick)
/-- A keystone stops at a fault: report, WSTAT, and an ENGINE_FAULT record for the function's system software (R107). -/
def stopKeystone (w : World) (todo : List KTask) (kind addr : Nat) (s : State) : State :=
  let w := { w with todo := todo, stopped := true }
  let (s, _) := writeReport w true 0 s
  let s := writeControl w.fn w.id (s.setWorld w)
  let (id, s) := s.fresh
  let r : FaultRec :=
    ⟨id, .engineFault, { kind := kind ||| markWorld, addr := addr }, w.fn, w.ctx, 0, 0, 0, 0xFFFFFFFF, 0, 0, 0, [], s.gtick, 0, false, s.issue, 0, false, none, 0⟩
  syncWstat w.fn w.id { s with faults := s.faults ++ [r] }
/-- The pieces in order until none is left or one faults. -/
def runTasks : Nat → World → List KTask → State → State
  | 0, w, l, s => s.setWorld { w with todo := l }
  | fuel + 1, w, l, s =>
    match l with
    | [] => writeControl w.fn w.id (s.setWorld { w with todo := [] })
    | t :: rest =>
      match runTask w t s with
      | (s, .ok w more) => runTasks fuel w (more ++ rest) s
      | (s, .bad _ kind a) => stopKeystone w l kind a s
/-- Edits that a piece holds. -/
def KTask.size : KTask → Nat
  | .drain l _ | .destroy l | .change l => l.length + 1
  | _ => 1
/-- Pieces that a keystone's remaining work can have: a bound for the recursion. -/
def keystoneFuel (w : World) (todo : List KTask) : Nat :=
  let n := (todo.map KTask.size).sum
  8 * (n + 8) + 4096 * (w.build.segs.length + n + 8)
/-- A keystone has been asked for (R102). -/
def keystoneAsked (w : World) (s : State) : Bool :=
  !w.keyReq.isEmpty || s.grids.any (fun g => g.fn == w.fn && g.world == some w.id && g.keysReq)
/-- Threads parked in KEYS whose release the drain point follows are the keystone's (R296). -/
def takeWaiters (w : World) (s : State) : State :=
  { s with
    grids := s.grids.map (fun g => if g.fn == w.fn && g.world == some w.id then { g with keysReq := false } else g)
    threads := s.threads.map (fun (t : Thread) =>
      let g := s.gr (s.tm t.team).grid
      if g.fn == w.fn && g.world == some w.id && t.waitsIn (.parked .keys) && t.wait.mode == 1 && t.keysTick != 0 then { t with wait := { t.wait with thr := 1 } } else t) }
/-- KEYSTONE_START: the drain point; the phases run to their end, or to a fault (R102, R103). -/
def execKeystoneStart (fn w : Nat) (s : State) : Out State :=
  match s.world? fn w with
  | none => .fault .notPending
  | some x =>
    if !keystoneAsked x s then .fault .notPending
    else if x.running then .fault .heldBack
    else
      match x.gen? x.cur with
      | none => .fault .notPending
      | some t =>
        let s := takeWaiters x { s with issue := s.issue + 1 }
        let x := { x with
          next := some { t with gen := t.gen + 1, views := 0 }, counts := List.replicate 12 0, maxTw := 0, pubAt := none, lost := false
          taken := x.keyReq, keyReq := [], edits := [], qhead := x.qtail }
        let todo : List KTask := match s.world? fn w with | some y => [.drain y.edits y.qhead] | none => []
        unitDone (syncWstat fn w (runTasks (keystoneFuel x todo) x todo ({ s with keyTail := s.keyTail.filter (fun k => !(k.1 == fn && k.2.1 == w)) }.setWorld x)))
/-- WSTAT_RESUME: the keystone goes on from the piece it stopped at (R107). -/
def execWstatResume (fn w : Nat) (s : State) : Out State :=
  match s.world? fn w with
  | none => done s
  | some x =>
    if !x.stopped then done s
    else
      let x := { x with stopped := false }
      unitDone (syncWstat fn w (runTasks (keystoneFuel x x.todo) x x.todo (s.setWorld x)))
/-- The new generation is the published one; waiters wake, the launch ends that waited are satisfied, and an armed snapshot's cut is due (R103 phase 6, R296, R355). -/
def publish (x : World) (s : State) : State :=
  let t := x.build
  let x := { x with
    tables := t :: x.tables.filter (fun (o : Tables) => o.views != 0), cur := t.gen, next := none, pubAt := none
    fready := x.fifo.length, taken := [] }
  let s := writeControl x.fn x.id (s.setWorld x)
  let s := { s with threads := s.threads.map (fun (t : Thread) =>
      let g := s.gr (s.tm t.team).grid
      if g.fn == x.fn && g.world == some x.id && t.waitsIn (.parked .keys) && t.wait.thr == 1 then { t.wake with keysTick := 0 } else t) }
  let armed := s.snaps.filter (fun p => p.fn == x.fn && p.cut.isNone && p.due.isNone && bitsOf p.ctl 25 24 == 0 && bitsOf p.ctl 23 16 == x.id)
  let s := { s with snaps := s.snaps.map (fun p => if armed.contains p then { p with due := some (fieldOf x.desc 8 2) } else p) }
  syncWstat x.fn x.id s
/-- KEYSTONE_PUBLISH: the report is written with the tick of publish; at that tick, at or after every Tw, the generation is published (R103, R105, R106). -/
def execKeystonePublish (fn w : Nat) (s : State) : Out State :=
  match s.world? fn w with
  | none => .fault .notPending
  | some x =>
    if !x.running || x.stopped || !x.todo.isEmpty then .fault .notPending
    else if x.lost then .fault .heldBack
    else if x.pubAt == some s.gtick then unitDone (publish x s)
    else if (match x.pubAt with | some p => decide (s.gtick < p) | none => false) || decide (s.gtick + 2 < x.maxTw) then .fault .notPending
    else
      -- The Tw of the report's write does not hang on what it holds.
      let p := max (s.gtick + 2) (max (writeReport x false 0 s).2 x.maxTw)
      let (s, _) := writeReport x false p s
      unitDone (s.setWorld { x with pubAt := some p })

end Sys2Proof.Machine
end

