-- ==== Sys2Proof/Machine/Service.lean ====
section
/-! DEFINITION. Traps to the service, the rings of fault and service records, fault service, debug, the watchdog, soft errors (spec/10_control_and_integer_instructions.md R224, R225, R229; spec/15_faults_and_preemption.md R325 to R330, R336 to R340). -/
namespace Sys2Proof.Machine

/-! ### TRAP (R224, R225) -/

/-- TRAP.SVC: one record for each team; its threads park with cause SERVICE and keep their PC (R224). -/
def trapSvc (code a : Nat) (us : List Nat) (s : State) : State :=
  (teamsIn s us).foldl (fun s tm =>
    let mine := us.filter (fun u => (s.thr u).team == tm)
    let t := s.tm tm
    let g := s.gr t.grid
    let (id, s) := s.fresh
    let r : SvcRec :=
      ⟨id, g.fn, g.ctx, g.gridId, t.id, code, (s.thr (mine.headD 0)).pc, mine.map (fun u => let th := s.thr u; (th.lane, u, a, (span a 8).map th.rv)), none⟩
    mine.foldl (fun s u => parkThread .service {} u s) { s with services := s.services ++ [r] }) s
/-- TRAP.SVC (R224). -/
def execTrapSvc (x : SS) (s : State) : Out State :=
  issue { bytes := 4, e := x.e, rv := span (rn x.a) 8 } false (trapSvc (rn x.d) (rn x.a)) s
/-- TRAP.SVC, 96-bit (R224). -/
def execTrapSvcWide (x : WS) (s : State) : Out State :=
  issue { g := x.x.g, bytes := 12, e := x.e, rv := span (rn x.a) 8 } false (trapSvc (rn x.d) (rn x.a)) s
/-- TRAP.BRK (R225): the threads stop after the instruction. -/
def execTrapBrk (x : SS) (s : State) : Out State :=
  issue { bytes := 4, e := x.e } false (each (fun t => { t with brk := some (rn x.d) })) s
/-- TRAP.BRK, 96-bit (R225). -/
def execTrapBrkWide (x : WS) (s : State) : Out State :=
  issue { g := x.x.g, bytes := 12, e := x.e } false (each (fun t => { t with brk := some (rn x.d) })) s

/-! ### Rings (R325, R327, R328) -/

/-- SRING, the service ring. -/
def Context.sring (c : Context) : Nat := fieldOf c.desc 32 8
/-- SRSLOTS. -/
def Context.srslots (c : Context) : Nat := max 1 (fieldOf c.desc 40 4)
/-- Address of service record n. -/
def servicePa (c : Context) (n : Nat) : Nat := c.sring + 64 + 1088 * (n % c.srslots)
/-- The 128 bytes of a fault record (Table 15.2). -/
def recordBytes (r : FaultRec) (seq : Nat) : List Byte :=
  leBytes r.cause.code 2 ++ leBytes r.detail.kind 2 ++ leBytes (r.ctx + r.fn * 2 ^ 12) 4 ++ leBytes r.fpc.toNat 8 ++ leBytes r.spc.toNat 8 ++
  leBytes r.mask.toNat 4 ++ leBytes r.teamId 4 ++ leBytes r.gridId 4 ++ leBytes seq 4 ++ leBytes r.detail.addr 8 ++ leBytes r.detail.prog 8 ++
  leBytes r.tick 8 ++ leBytes r.detail.aux 8 ++ leBytes r.state 4 ++ leBytes r.loc 4 ++ leBytes (if r.wide then 1 else 0) 4 ++
  leBytes r.threads.length 4 ++ leBytes 0 40
/-- An atomic add of 1 to a ring's counter, with the ring's interrupt (R327, R328, R358). -/
def ringSignal (fn ctx pa vector : Nat) (s : State) : State := ((addPa fn ctx pa 1 s).1).send (.msix fn vector)
/-- A thread of the record's instruction may still fault there, so the record may still name more threads (R323). -/
def recordOpen (r : FaultRec) (s : State) : Bool :=
  !r.deferred && !r.wide && (
    s.reqs.any (fun q => q.group == r.issue && q.team == r.team && (q.ats != 0 || (match q.work with | .tile _ false _ _ _ _ _ _ | .world _ _ _ _ _ | .hbind _ _ _ _ _ _ => true | _ => false))) ||
    s.threads.any (fun (t : Thread) => t.team == r.team && (match t.rel with | some q => q.issue == r.issue | none => false)))
/-- FAULT_RECORD_WRITE: the oldest waiting record of a context is written while FTAIL − FHEAD < 256, FTAIL advances, and after the release FCTR is added to and the interrupt is signalled (R327). -/
def execFaultRecordWrite (fn ctx : Nat) (s : State) : Out State :=
  match s.context? fn ctx with
  | none => .fault .notPending
  | some c =>
    match c.fpost with
    | some t =>
      if s.gtick < t then .fault .notPending
      else done (ringSignal fn ctx (c.imageArea + 8) 0 (s.modCtx fn ctx (fun c => { c with fpost := none })))
    | none =>
      match s.faults.find? (fun r => r.fn == fn && r.ctx == ctx && r.written.isNone) with
      | none => .fault .notPending
      | some r =>
        match readPhys fn (c.imageArea + 4) 4 s with
        | (_, none) => .fault .heldBack
        | (s, some h) =>
          if recordOpen r s then .fault .heldBack
          else if 256 ≤ (c.seq + 2 ^ 32 - leNat h) % 2 ^ 32 then .fault .heldBack
          else
            let n := c.seq
            let (s, t1) := writePhys fn (recordPa c n) (recordBytes r ((n + 1) % 2 ^ 32)) s
            let (s, t2) := writePhys fn c.imageArea (leBytes (n + 1) 4) s
            let s := s.modCtx fn ctx (fun c => { c with seq := n + 1, fpost := some (max t1 t2) })
            done { s with faults :=
              if r.state = 0 then s.faults.map (fun (q : FaultRec) => if q.id == r.id then { q with written := some n } else q)
              else s.faults.filter (fun q => q.id != r.id) }
/-- The header of a service record (Table 10.8). -/
def serviceHeader (r : SvcRec) (tick : Nat) : List Byte :=
  leBytes r.ctx 4 ++ leBytes r.teamId 4 ++ leBytes r.gridId 4 ++ leBytes r.code 4 ++
  leBytes (r.lanes.foldl (fun m l => m + 2 ^ l.1) 0) 4 ++ leBytes 0 4 ++ leBytes r.pc.toNat 8 ++ leBytes tick 8 ++ leBytes 0 24
/-- SERVICE_RECORD_WRITE: the oldest waiting service record is written while STAIL − SHEAD < SRSLOTS; then STAIL advances, and after the release SCTR is added to and the interrupt is signalled (R328). -/
def execServiceRecordWrite (fn ctx : Nat) (s : State) : Out State :=
  match s.context? fn ctx with
  | none => .fault .notPending
  | some c =>
    match c.spost with
    | some t =>
      if s.gtick < t then .fault .notPending
      else done (ringSignal fn ctx (c.sring + 8) 1 (s.modCtx fn ctx (fun c => { c with spost := none })))
    | none =>
      match s.services.find? (fun r => r.fn == fn && r.ctx == ctx && r.written.isNone) with
      | none => .fault .notPending
      | some r =>
        match readPhys fn c.sring 8 s with
        | (_, none) => .fault .heldBack
        | (s, some h) =>
          let n := fieldOf h 0 4
          if c.srslots ≤ (n + 2 ^ 32 - fieldOf h 4 4) % 2 ^ 32 then .fault .heldBack
          else
            let (s, t1) := writePhys fn (servicePa c n) (serviceHeader r s.gtick) s
            let (s, t1) := r.lanes.foldl (fun (q : State × Nat) l =>
              let (s, t) := writePhys fn (servicePa c n + 64 + 32 * l.1) (l.2.2.2.flatMap (fun w => leBytes w.toNat 4)) q.1
              (s, max q.2 t)) (s, t1)
            let (s, t2) := writePhys fn c.sring (leBytes (n + 1) 4) s
            let s := s.modCtx fn ctx (fun c => { c with spost := some (max t1 t2) })
            done { s with services := s.services.map (fun (q : SvcRec) => if q.id == r.id then { q with written := some n } else q) }

/-! ### Fault service: acceptance (R329, R330, Tables 15.1 and 15.6) -/

/-- What an address names for a function: an open fault record, an open service record, an entry of a ring that is not open, or nothing. -/
inductive Named where
  | faultRec (r : FaultRec)
  | svcRec (r : SvcRec) (pa : Nat)
  | notOpen
  | nothing
  deriving DecidableEq, Repr
/-- The record at a physical address: the newest one of its ring entry, where that is open (R329). -/
def recordAt (fn pa : Nat) (s : State) : Named :=
  let mine := s.contexts.filter (fun c => c.fn == fn)
  let f := s.faults.reverse.find? (fun r => r.fn == fn && (match r.written, s.context? fn r.ctx with | some n, some c => recordPa c n == pa && decide (c.seq ≤ n + 256) | _, _ => false))
  let v := s.services.reverse.find? (fun r => r.fn == fn && (match r.written, s.context? fn r.ctx with | some n, some c => servicePa c n == pa && decide ((leNat (s.mem.bytes.readN c.sring 4) + 2 ^ 32 - n) % 2 ^ 32 ≤ c.srslots) | _, _ => false))
  match f, v with
  | some r, _ => .faultRec r
  | none, some r => .svcRec r pa
  | none, none =>
    if mine.any (fun c => (List.range (min 256 c.seq)).any (fun n => recordPa c n == pa) || (List.range c.srslots).any (fun n => servicePa c n == pa)) then .notOpen
    else .nothing
/-- Length of the instruction at an address, by its word 0 (R179, R330). -/
def lengthAt (core fn ctx pc : Nat) (s : State) : Option Nat :=
  match xlate .exec core fn ctx pc s with
  | (_, .bad _ _) => none
  | (s, .ok pa _ _) =>
    if pc % 4 != 0 || s.mem.poison.contains (pa / 128) then none
    else
      match bitsOf (leNat (s.mem.bytes.readN pa 4)) 31 30 with
      | 0 => some 4
      | 1 => some 12
      | 2 => some 20
      | _ => none
/-- The instruction whose engine work a deferred record stands for. -/
def workInstr (r : FaultRec) (s : State) : Option Instr :=
  match (s.req? r.work).map Req.work with
  | some (.dispatch _ i _ _ _ _ _) => some i
  | some (.splat _ i _ _) => some i
  | _ => none
/-- A POISON that a release raised over a lost write (R134). -/
def releasePoison (r : FaultRec) (s : State) : Bool :=
  r.cause == .poison && !r.deferred && r.detail.kind == accStore &&
  (if r.threads.isEmpty then true else r.threads.any (fun u => (s.thr u).lost.contains (r.detail.addr / 128)))
/-- A record of a handle binding at placement (R238). -/
def bindRecord (r : FaultRec) : Bool := r.wide && r.cause != .claimDeadlock && r.cause != .watchdog
/-- Where a precise fault's thread goes on SKIP; none where word 0 has no length (R330). -/
def skipTo (r : FaultRec) (u : Nat) (s : State) : Option Nat :=
  let at' := if r.wide then (s.thr u).pc.toNat else r.fpc.toNat
  if r.detail.kind % 16 == accFetch && r.detail.addr == at' then none
  else (lengthAt (s.teamOf u).core r.fn r.ctx at' s).map (fun n => (at' + n) % 2 ^ 64)
/-- The action on a fault record is accepted: 0 RETRY, 1 SKIP, 2 KILL (Table 15.1, Table 15.6). -/
def accepts (r : FaultRec) (action : Nat) (s : State) : Bool :=
  if r.cause == .brk || r.cause == .step || r.cause == .tagParity then false
  else
    match action with
    | 2 => true
    | 1 =>
      if r.cause == .fenceLost || r.cause == .watchdog || releasePoison r s then false
      else if r.deferred || r.threads.isEmpty || bindRecord r then true
      else r.threads.all (fun u => (skipTo r u s).isSome)
    | 0 =>
      if releasePoison r s then false
      else if r.deferred then
        (match workInstr r s with | some (.sproj _) | some (.sblendBack _) | some (.dsend _) | some (.coll _) => false | _ => true)
      else true
    | _ => false

/-! ### Fault service: effects (Table 15.6) -/

/-- A saved thread as its record in memory now stands, where what was changed is what R335 allows (R330, R335). -/
def absorb (u : Nat) (s : State) : State :=
  let t := s.thr u
  if t.image.isEmpty then s
  else
    let b := s.mem.bytes.readN t.imageAt 640
    if b != t.image && recordDiffOk t t.image b then s.modThr u (fun t => { t.ofRecord b with image := b }) else s
/-- Another open record still names the thread. -/
def namedElsewhere (id u : Nat) (s : State) : Bool :=
  s.faults.any (fun r => r.id != id && r.state == 0 && r.threads.contains u && r.cause != .brk && r.cause != .step)
/-- A FAULTED thread leaves that state; where another open record names it, the change is made under that record's fault (R330). -/
def leaveFault (id u : Nat) (f : Thread → Thread) (s : State) : State :=
  let s := absorb u s
  if (s.thr u).phase != .faulted then s
  else if namedElsewhere id u s then s.modThr u (fun t => { f t with phase := .faulted, under := (f t).phase })
  else s.modThr u f
/-- READY at an address (Table 15.6); a breakpoint of another address may stop it (R336). -/
def Thread.readyAt (pc : Dword) (t : Thread) : Thread := { t with phase := .ready, under := .ready, passBp := t.passBp && t.pc == pc, pc := pc, age := 0, wait := {} }
/-- Back in the state the fault interrupted (R324, R330). -/
def Thread.unfault (t : Thread) : Thread := { t with phase := t.under, under := .ready, age := if t.under == .ready then 0 else t.age }
/-- Engine work goes on from its progress; a copy's promise is revised where the view has passed it (Table 15.6 RETRY, R254). -/
def retryWork (work : Nat) (s : State) : State :=
  match s.copies.find? (fun c => c.id == work), s.req? work with
  | some c, _ =>
    let (p, s) := if c.promise ≤ s.viewOf c.fn then newPromise (s.viewOf c.fn) s else (c.promise, s)
    { s with copies := s.copies.map (fun (d : Copy) => if d.id == work then { d with stopped := false, fault := none, promise := p } else d) }
  | none, some r =>
    let s := s.modReq work (fun r => { r with fault := none })
    (match r.work with
     | .matrix m => progressMatrix work (s.setMatrix work { m with side := [], fetched := none, left := none })
     | .splat t i args pc => s.modReq work (fun r => { r with work := .splat t i (0 :: 0 :: args.drop 2) pc })
     | _ => s)
  | none, none => s.modBin work (fun b => { b with fault := none })
/-- Engine work is abandoned: locks are released and the counters fall; destinations keep their values (Table 15.6 SKIP, R303). -/
def skipWork (work : Nat) (s : State) : State :=
  match s.copies.find? (fun c => c.id == work), s.req? work with
  | some c, _ => endCopy c s
  | none, some r =>
    let (vs, ps) : List Nat × List Nat :=
      match r.work with
      | .splat _ (.sproj x) _ _ => ([rn x.d], [rn x.x.w2 % 8])
      | .splat _ (.sblendFwd x) _ _ => ([rn x.d], [])
      | .dispatch _ (.dsend x) _ _ _ _ _ => ([rn x.d], [])
      | _ => ([], [])
    complete r (r.threads.foldl (fun s u => s.modThr u (fun t =>
      { t with pendV := t.pendV.filter (fun v => !vs.contains v), pendP := t.pendP.filter (fun v => !ps.contains v) })) s)
  | none, none =>
    match s.bins.find? (fun b => b.id == work) with
    | some b => endBin b false none s
    | none => s
/-- A flush record's address is applied afresh, or its reductions are abandoned (R382). -/
def flushAct (r : FaultRec) (retry : Bool) (s : State) : State :=
  if retry then
    ((flushAddrs (s.gr r.grid)).filter (fun p => p.1 == r.detail.addr)).foldl (fun s p => flushAddr r.grid (flushCore r.grid s) p.1 p.2 s) { s with issue := s.issue + 1 }
  else s.modGrid r.grid (fun g => { g with reds := g.reds.filter (fun e => e.va != r.detail.addr) })
/-- RETRY (Table 15.6); of PROMISE_MISSED, the threads' passed promises are revised (R254). -/
def retryRecord (r : FaultRec) (s : State) : State :=
  let s := closeRecord 1 r.id s
  if r.deferred then r.threads.foldl (fun s u => leaveFault r.id u Thread.unfault s) (retryWork r.work s)
  else if r.cause == .watchdog then
    (r.threads.foldl (fun s u => leaveFault r.id u Thread.unfault s) s).modTeam r.team (fun tm => { tm with watch := 0 })
  else if r.cause == .fenceLost then
    let s := match s.mem.l1.find? (fun x => x.team == r.team && !x.dirty.isEmpty && x.line * 128 == r.detail.addr) with
      | some x => writeBack { x with held := false } (s.setL1 { x with held := false })
      | none => s
    r.threads.foldl (fun s u => leaveFault r.id u (Thread.readyAt r.spc) s) s
  else if bindRecord r then
    bindHandles r.team (r.threads.foldl (fun s u => leaveFault r.id u (fun t => t.readyAt t.pc) s) { s with issue := s.issue + 1 })
  else if r.threads.isEmpty then (if r.detail.kind / 0x1000 % 2 == 1 then flushAct r true s else s)
  else
    let s := if r.cause == .promiseMissed then r.threads.foldl (fun s u => revisePromises u s) s else s
    r.threads.foldl (fun s u => leaveFault r.id u (fun t => t.readyAt (if r.wide then t.pc else r.spc)) s) s
/-- SKIP (Table 15.6). -/
def skipRecord (r : FaultRec) (s : State) : State :=
  let goals := r.threads.map (fun u => (u, skipTo r u s))
  let s := closeRecord 1 r.id s
  if r.deferred then r.threads.foldl (fun s u => leaveFault r.id u Thread.unfault s) (skipWork r.work s)
  else if bindRecord r then r.threads.foldl (fun s u => leaveFault r.id u (fun t => t.readyAt t.pc) s) s
  else if r.threads.isEmpty then (if r.detail.kind / 0x1000 % 2 == 1 then flushAct r false s else s)
  else goals.foldl (fun s p => leaveFault r.id p.1 (fun t => t.readyAt (BitVec.ofNat 64 (p.2.getD 0))) s) s
/-- ANSWER: STATUS 1 loads the blocks and the threads go on past the TRAP; STATUS 2 raises SERVICE at the TRAP (R224). -/
def answerService (r : SvcRec) (pa status : Nat) (s : State) : State :=
  let s := { s with services := s.services.filter (fun q => q.id != r.id), issue := s.issue + 1 }
  r.lanes.foldl (fun s l =>
    let (_, u, a, _) := l
    if !(s.thr u).waitsIn (.parked .service) then s
    else if status == 2 then raise .service {} u s
    else
      let (s, b, p) := readL2 r.fn (pa + 64 + 32 * l.1) 32 s
      s.modThr u (fun t =>
        let t := (List.range 8).foldl (fun (t : Thread) k => t.wv (a + k) (BitVec.ofNat 32 (fieldOf b (4 * k) 4))) t
        (if p then { t with poison := t.poison ++ span a 8 } else t).wake)) s
/-- An action on the record at a physical address, for a function: the code of FSVC_STAT, 0 where it was accepted (R329, R330). -/
def act (fn pa action : Nat) (s : State) : State × Nat :=
  match recordAt fn pa s with
  | .nothing => (s, 1)
  | .notOpen => (s, 2)
  | .svcRec r pa =>
    if action == 2 then (killContext r.fn r.ctx s, 0)
    else if action != 3 then (s, 3)
    else
      let (s, b, _) := readL2 fn (pa + 20) 4 s
      if leNat b == 1 || leNat b == 2 then (answerService r pa (leNat b) s, 0) else (s, 3)
  | .faultRec r =>
    if !accepts r action s then (s, 3)
    else
      match action with
      | 0 => (retryRecord r s, 0)
      | 1 => (skipRecord r s, 0)
      | _ => (killContext r.fn r.ctx s, 0)

/-! ### RESUME (R229) and the FSVC registers (Table 15.5) -/

/-- RESUME in one thread: a refused request still completes (R229, R329). -/
def resumeThread (x : WA) (u : Nat) (s : State) : State :=
  let t := s.thr u
  let tm := s.teamOf u
  let g := s.gridOf u
  let va := (t.rpair (rn x.a)).toNat
  let b := (x.ob.val tm t).toNat
  let service := match s.context? g.fn g.ctx with | some c => (fieldOf c.desc 28 4).testBit 0 | none => false
  if t.phase != .issuing then s
  else if !service then raise .pageProtection { kind := markService } u s
  else if 3 < b then raise .reservedField {} u s
  else
    match xlate .read tm.core g.fn g.ctx va s with
    | (s, .bad c m) => raise c { kind := accLoad ||| m, addr := va } u s
    | (s, .ok pa _ _) => (act g.fn pa b s).1
/-- RESUME (R229). -/
def execResume (x : WA) (s : State) : Out State :=
  issue ((use12 x.e x.x.g (regs (rn x.a) true) []).reads [x.ob] false) false
    (fun us s => us.foldl (fun s u => resumeThread x u s) s) s
/-- A request through FSVC_CTL: the action is done or refused, and FSVC_STAT says so (Table 15.5). -/
def fsvc (fn action : Nat) (s : State) : State :=
  let pa := bitsOf (s.reg fn false 0x500).toNat 51 6 * 64
  let (s, code) := act fn pa action s
  let s := s.setReg fn false 0x508 (BitVec.ofNat 64 action)
  s.setReg fn false 0x50C (BitVec.ofNat 64 (2 ^ 31 + (if code = 0 then 0 else 2 ^ 30 + code)))
/-- FSVC_RETRY: FSVC_CTL is written with GO and ACT 0 (R330). -/
def execFsvcRetry (fn : Nat) (s : State) : Out State := if 16 < fn then .fault .notPending else done (fsvc fn 0 s)
/-- FSVC_SKIP: FSVC_CTL is written with GO and ACT 1 (R330). -/
def execFsvcSkip (fn : Nat) (s : State) : Out State := if 16 < fn then .fault .notPending else done (fsvc fn 1 s)
/-- FSVC_KILL: FSVC_CTL is written with GO and ACT 2 (R330). -/
def execFsvcKill (fn : Nat) (s : State) : Out State := if 16 < fn then .fault .notPending else done (fsvc fn 2 s)
/-- FSVC_ANSWER: FSVC_CTL is written with GO and ACT 3 (R330). -/
def execFsvcAnswer (fn : Nat) (s : State) : Out State := if 16 < fn then .fault .notPending else done (fsvc fn 3 s)

/-! ### Debug (R336 to R338) -/

/-- The armed breakpoint at a context's address (R336). -/
def breakpointAt (fn ctx pc : Nat) (s : State) : Option Nat :=
  (List.range 8).find? (fun n =>
    let a := (s.reg fn false (0x600 + 16 * n)).toNat
    let c := (s.reg fn false (0x608 + 16 * n)).toNat
    a.testBit 0 && bitsOf a 63 2 * 4 == pc && (c.testBit 31 || bitsOf c 11 0 == ctx))
/-- The thread's next instruction lies at an armed breakpoint that may stop it. -/
def atBreakpoint (u : Nat) (s : State) : Option Nat :=
  let t := s.thr u
  let g := s.gridOf u
  if t.passBp || t.stopped.isSome || !(t.phase == .issuing || t.phase == .ready) then none else breakpointAt g.fn g.ctx t.pc.toNat s
/-- Threads of a team stop at their next instruction (R336). -/
def hitBreakpoint (n : Nat) (us : List Nat) (team : Nat) (s : State) : State :=
  let pc := (s.thr (us.headD 0)).pc
  let s := us.foldl (fun s u => s.modThr u (fun t => { t with passBp := true })) s
  stopTeam .brk .brk (0x40 + n) pc pc us team s
/-- BREAKPOINT_HIT: the thread, with those of its team that reach the address in its wave, stops before the instruction issues (R336). -/
def execBreakpointHit (th : Nat) (s : State) : Out State :=
  match atBreakpoint th s with
  | none => .fault .notPending
  | some n =>
    let team := (s.thr th).team
    let us := match s.waves.find? (fun w => w.members.contains th) with
      | some w => w.members.filter (fun u => (s.thr u).team == team && (atBreakpoint u s).isSome)
      | none => [th]
    done (hitBreakpoint n us team { s with issue := s.issue + 1 })

/-- Live threads a debug command matches (R338). -/
def dbgMatch (fn : Nat) (v : Word) (s : State) : List Thread :=
  let ctx := bitsOf v.toNat 23 12
  let team := (s.reg fn false 0x684).toNat
  s.threads.filter (fun (t : Thread) =>
    let tm := s.tm t.team
    let g := s.gr tm.grid
    t.live && g.fn == fn && g.ctx == ctx && (team == 0xFFFFFFFF || tm.id == team))
/-- DBGCMD with GO read 0 again, and DBGSTAT (Tables 15.5, 15.10). -/
def dbgDone (fn op : Nat) (v : Word) (err : Bool) (s : State) : State :=
  let s := s.setReg fn false 0x680 (BitVec.ofNat 64 (op * 2 ^ 28 + bitsOf v.toNat 23 12 * 2 ^ 12))
  s.setReg fn false 0x690 (BitVec.ofNat 64 (2 ^ 31 + (if err then 2 ^ 30 else 0)))
/-- DBG_RELEASE: DBGCMD 1 (R338). -/
def execDbgRelease (fn : Nat) (v : Word) (s : State) : Out State :=
  let m := dbgMatch fn v s
  let s := m.foldl (fun s t => if t.stopped.isSome then (absorb t.uid s).modThr t.uid (fun t => { t with stopped := none, age := if t.phase == .ready then 0 else t.age }) else s) s
  done (dbgDone fn 1 v m.isEmpty s)
/-- DBG_STEP: DBGCMD 2: the matched threads stopped over READY at DBGPC form one wave for one instruction (R338, R146): those of the seed's core, bank and code object (R144). It waits while the function is descheduled (R349) or a bank switch lasts (R331). DESIGN CHOICE (notes/assumptions 47): where the seed's bank is not active the core switches first, and the command stays pending. -/
def execDbgStep (fn : Nat) (v : Word) (s : State) : Out State :=
  let s := (dbgMatch fn v s).foldl (fun s t => absorb t.uid s) s
  let m := (dbgMatch fn v s).filter (fun t =>
    t.stopped.isSome && t.phase == .ready && t.pc == s.reg fn false 0x688 && (s.tm t.team).saved.isNone)
  match (sortBy (fun (t : Thread) => t.tid * 64 + t.slot) m).head? with
  | none => done (dbgDone fn 2 v true s)
  | some seed =>
    let tm := s.tm seed.team
    let here := m.filter (fun t => (s.tm t.team).core == tm.core && (s.tm t.team).bank == tm.bank && (s.gridOf t.uid).entry == (s.gridOf seed.uid).entry)
    let us := (List.range 32).filterMap (fun l =>
      if l == seed.lane then some seed.uid
      else ((sortBy Thread.slot (here.filter (fun t => t.lane == l))).head?).map Thread.uid)
    if s.halted.any (fun h => h.1 == fn) || s.gtick < (s.core tm.core).switchUntil then .fault .heldBack
    else if (s.core tm.core).active != tm.bank then
      done (((switchBank tm.core s).setReg fn false 0x690 0).setReg fn false 0x680 (BitVec.ofNat 64 (2 ^ 31 + 2 * 2 ^ 28 + bitsOf v.toNat 23 12 * 2 ^ 12)))
    else
    match (List.range 2).find? (fun k => !s.waves.any (fun w => w.core == tm.core && w.slot == k)) with
    | none => .fault .heldBack
    | some k =>
      let s := us.foldl (fun s u => s.modThr u (fun t => { t with stopped := none, phase := .issuing, age := 0, step := true, passBp := true })) s
      done (dbgDone fn 2 v false { s with waves := ⟨tm.core, k, us, 0⟩ :: s.waves })
/-- DBG_HALT: DBGCMD 3: every live thread matched stops at its next boundary (R338). -/
def execDbgHalt (fn : Nat) (v : Word) (s : State) : Out State :=
  let m := dbgMatch fn v s
  done (dbgDone fn 3 v m.isEmpty (stopAll .dbgstop (m.map Thread.uid) s))
/-- DBG_SAVE: DBGCMD 4: the context's banks are saved where save slots allow; the command is done once no bank that could be saved is left (R338, R331, R332). -/
def execDbgSave (fn : Nat) (v : Word) (s : State) : Out State :=
  let ctx := bitsOf v.toNat 23 12
  let m := dbgMatch fn v s
  if m.isEmpty then done (dbgDone fn 4 v true s)
  else
    let banks (s : State) : List (Nat × Nat) := s.cores.flatMap (fun c => ((List.range 2).filter (fun b => (s.bank c.core b).ctx == some (fn, ctx))).map (fun b => (c.core, b)))
    let s := (banks s).foldl (fun s p => (saveBank p.1 p.2 s).getD s) s
    let waiting := !(banks s).isEmpty && (match s.context? fn ctx with | some c => (freeSaveSlot c s).isSome | none => false)
    if waiting then done ((s.setReg fn false 0x690 0).setReg fn false 0x680 (BitVec.ofNat 64 (2 ^ 31 + 4 * 2 ^ 28 + ctx * 2 ^ 12))) else done (dbgDone fn 4 v false s)

/-! ### The watchdog (R339) -/

/-- The interval in ticks; none where it is off. -/
def wdogOf (fn : Nat) (s : State) : Option Nat :=
  let w := (s.reg fn false 0x700).toNat
  if w = 0 then none else some (max w 1000000)
/-- WATCHDOG: the team's count has reached WDOG: its live threads fault, named in one record (R339). -/
def execWatchdog (team : Nat) (s : State) : Out State :=
  let tm := s.tm team
  match wdogOf (s.gr tm.grid).fn s with
  | none => .fault .notPending
  | some w =>
    if w ≤ tm.watch && watchCounts s tm then done (raiseWideBy Thread.faultOver .watchdog {} team { s with issue := s.issue + 1 })
    else .fault .notPending

/-! ### Soft errors (R340, R134) -/

/-- A line is poisoned: the accepted writes to it whose Tw lies ahead are lost, those of threads, of launches and of running keystones (R134). -/
def loseLine (line : Nat) (s : State) : State :=
  let keys := s.keyTail.filter (fun k => k.2.2.1 == line && decide (s.gtick < k.2.2.2))
  { s with
    threads := s.threads.map (fun (t : Thread) =>
      match t.tail.find? (fun w => w.1 == line && decide (s.gtick < w.2.1)) with
      | some (_, _, va) => { t with lost := va :: t.lost.filter (· ≠ va) }
      | none => t)
    grids := s.grids.map (fun (g : Grid) => if g.tail.any (fun w => w.1 == line && decide (s.gtick < w.2)) then { g with lost := line :: g.lost.filter (· ≠ line) } else g)
    worlds := s.worlds.map (fun (w : World) => if w.running && keys.any (fun k => k.1 == w.fn && k.2.1 == w.id) then { w with lost := true } else w)
    mem := { s.mem with poison := line :: s.mem.poison.filter (· ≠ line) } }
/-- A cached translation, walk entry or layout is dropped; which one is free (Table 15.11). -/
def dropCached (s : State) : State :=
  let m := s.mem
  let (i, s) := s.pick (m.tlb.length + m.walk.length + m.layouts.length)
  if i < m.tlb.length then { s with mem := { s.mem with tlb := m.tlb.eraseIdx i } }
  else if i < m.tlb.length + m.walk.length then { s with mem := { s.mem with walk := m.walk.eraseIdx (i - m.tlb.length) } }
  else { s with mem := { s.mem with layouts := m.layouts.eraseIdx (i - m.tlb.length - m.walk.length) } }
/-- UNCORRECTABLE_ERROR: the outcome of Table 15.11 for the structure struck. -/
def execUncorrectableError (what : Struck) (s : State) : Out State :=
  match what with
  | .vreg th r => done (s.modThr th (fun t => if r < t.owned && !t.poison.contains r then { t with poison := t.poison ++ [r] } else t))
  | .scratch team off => done (s.modTeam team (fun tm => if off < tm.scratchSize then { tm with scratchPoison := off :: tm.scratchPoison.filter (· ≠ off) } else tm))
  | .l1line core fn ctx va =>
    match s.l1? core fn ctx (va / 128) with
    | some x => done (s.setL1 { x with copy := x.copy.map (fun c => (c.1, c.2.1, c.2.2.1, true)), dirtyPoison := !x.dirty.isEmpty })
    | none => done s
  | .line pa =>
    if s.backedLocal pa then done (loseLine (pa / 128) s) else done s
  | .accTile core bank tile =>
    if 512 ≤ core || 2 ≤ bank || 16 ≤ tile then done s
    else let b := s.bank core bank; done (s.setBank core bank { b with accPoison := tile :: b.accPoison.filter (· ≠ tile) })
  | .tilePart sp name part =>
    done { s with spaces := s.spaces.map (fun (x : Space) =>
      if x.id == sp then
        { x with names := x.names.map (fun (n : TileName) => if n.name == name && n.parts.contains part then { n with poison := part :: n.poison.filter (· ≠ part) } else n) }
      else x) }
  | .cached => done (dropCached s)
  | .control fn ctx => if s.ctxLive fn ctx then done (killWith .engineFault { kind := markSoft } fn ctx s) else done s
  | .lostWrite th =>
    match (((s.thr th).tail.map (fun w => (w.1, w.2.1)) ++ (s.gr th).tail).filter (fun w => decide (s.gtick < w.2))).head? with
    | none => .fault .notPending
    | some (line, _) => done (loseLine line s)
  | .lostKeystone fn w =>
    match s.world? fn w with
    | some x => if x.running && decide (s.gtick < x.maxTw) then done (s.setWorld { x with lost := true }) else .fault .notPending
    | none => .fault .notPending
/-- CORRECTABLE_ERROR: corrected, and nothing is raised (R340). -/
def execCorrectableError (s : State) : Out State := done s

end Sys2Proof.Machine
end

