-- ==== Sys2Proof/Machine/Admin.lean ====
section
/-! DEFINITION. What the hypervisor and system software do to translation and to L2: shootdown, migration, granule owners, access counters, scrubs; tag parity; accesses and losses on Uttenlink and towards the host (spec/02_address_spaces.md R29 to R41; spec/03_memory_hierarchy.md R57 to R59; spec/16_partitions_decks_and_system.md R359). -/
namespace Sys2Proof.Machine

/-- The function a command addresses: the named one from the physical function's page, else the writer's own (Tables 2.5, 2.11). -/
def addressed (page : Nat) (v : Word) : Nat := if page = 0 then bitsOf v.toNat 28 24 else page
/-- Page size of a SIZE code. -/
def sizeCode (c : Nat) : Nat := match c with | 0 => 0x1000 | 1 => 0x10000 | 2 => 0x200000 | _ => 0x40000000
/-- Fields of XINV_CTL and MIG_CTL that are kept: VF reads 0 from a virtual function's page. -/
def keptCtl (page : Nat) (v : Word) (mask : Nat) : Nat := Nat.land v.toNat (if page = 0 then mask else Nat.land mask 0xFFFFFF)

/-! ### Shootdown (R37 to R39) -/

/-- A shootdown covers n bytes of a context. -/
def Shoot.covers (x : Shoot) (fn ctx va n : Nat) : Bool :=
  x.fn == fn && (x.scope == 2 || (x.ctx == ctx && (x.scope == 1 || overlaps va n x.lo x.len)))
/-- Cached translations, walk-cache entries and ATC entries go; clean L1 lines are invalidated, pins revoked (R38, R39). -/
def shootNow (x : Shoot) (s : State) : State :=
  let hit (l : L2Line) : Option Nat := match l.pin with | some (f, c, t, v) => if x.covers f c (v * 128) 128 then some t else none | none => none
  let teams := s.mem.l2.filterMap hit
  { s with
    teams := s.teams.map (fun (t : Team) => if teams.contains t.uid then { t with pinRevoked := true } else t)
    mem := { s.mem with
      tlb := s.mem.tlb.filter (fun t => !x.covers t.fn t.ctx t.va t.size)
      walk := s.mem.walk.filter (fun w => w.fn != x.fn)
      atc := s.mem.atc.filter (fun a => !(a.1 == x.fn && (x.scope == 2 || a.2.1 == x.ctx)))
      l1 := s.mem.l1.filter (fun l => !(l.dirty.isEmpty && x.covers l.fn l.ctx (l.line * 128) 128))
      l2 := s.mem.l2.map (fun l => if (hit l).isSome then { l with pin := none } else l) } }
/-- A request has a place the shootdown covers. -/
def Req.covered (r : Req) (x : Shoot) (s : State) : Bool :=
  let g := s.gr (s.tm r.team).grid
  (match r.work with | .prefetch va _ _ => [Source.glob va 0 0] | w => w.places).any (fun p => match p with | .glob va _ _ => x.covers g.fn g.ctx va 16 | _ => false)
/-- A place of a collector entry translated again. -/
def Source.again (n : Need) (core fn ctx : Nat) (p : Source) (s : State) : State × (Source ⊕ (Cause × Nat × Nat)) :=
  match p with
  | .glob va _ _ =>
    match xlate n core fn ctx va s with
    | (s, .ok pa mt leaf) => ((if n == .write then setDirty core fn ctx va s else s), .inl (placeOf va pa mt leaf))
    | (s, .bad c m) => (s, .inr (c, m, va))
  | p => (s, .inl p)
/-- Places translated again, in order; the first that faults decides. -/
def againAll (n : Need) (core fn ctx : Nat) : List Source → State → State × (List Source ⊕ (Cause × Nat × Nat))
  | [], s => (s, .inl [])
  | p :: ps, s =>
    match Source.again n core fn ctx p s with
    | (s, .inr f) => (s, .inr f)
    | (s, .inl q) =>
      match againAll n core fn ctx ps s with
      | (s, .inl qs) => (s, .inl (q :: qs))
      | r => r
/-- A load or store at other places. -/
def Work.atPlaces (ps : List Source) : Work → Work
  | .load th l => .load th ((l.zip ps).map (fun p => { p.1 with src := p.2 }))
  | .store th l => .store th ((l.zip ps).map (fun p => { p.1 with dst := p.2 }))
  | w => w
/-- A request of a collector entry translates again: it stays in the entry, goes on by itself where its place is now outside the device, or faults (R38). -/
def Req.again (e : CollEntry) (r : Req) (s : State) : State :=
  let alone (q : Req) (s : State) : State :=
    { s with coll := s.coll.map (fun x => { x with reqs := x.reqs.filter (fun y => y.id != r.id) }), reqs := s.reqs ++ [q] }
  match againAll (if e.store then .write else .read) e.core e.fn e.ctx r.work.places s with
  | (s, .inr (c, m, va)) => failLate r c { kind := (if e.store then accStore else accLoad) ||| m, addr := va } (alone r s)
  | (s, .inl ps) =>
    let q := { r with work := r.work.atPlaces ps }
    if ps.any Source.outside then
      let ats := ps.any (Source.needsAts e.fn e.ctx s)
      let s := alone { q with ats := if ats then 1 else 0, asked := s.gtick } s
      if ats then s.askHost e.fn e.ctx r.id false else s
    else { s with coll := s.coll.map (fun x => { x with reqs := x.reqs.map (fun y => if y.id = r.id then q else y) }) }
/-- Collector entries that the shootdown covers translate again in their window (R38 item 2). -/
def translateAgain (x : Shoot) (s : State) : State :=
  let l := s.coll.filter (fun e => x.covers e.fn e.ctx (e.line * 128) 128)
  let s := l.foldl (fun s e => e.reqs.foldl (fun s r => r.again e s) s) s
  { s with coll := s.coll.filter (fun e => !e.reqs.isEmpty) }
/-- XINV_GO: a write of XINV_CTL (R37). -/
def execXinvGo (fn : Nat) (v : Word) (s : State) : Out State :=
  if 16 < fn then .fault .notPending
  else if (s.reg fn false 0x408).getLsbD 31 then done s
  else
    let kept := keptCtl fn v 0x1FFFFFFF
    let s := s.setReg fn false 0x408 (BitVec.ofNat 64 kept)
    if !v.getLsbD 31 then done s
    else
      let f := addressed fn v
      let scope := bitsOf v.toNat 9 8
      let size := sizeCode (bitsOf v.toNat 11 10)
      let va := (s.reg fn false 0x400).toNat
      if 16 < f || scope == 3 || (scope == 0 && va % size != 0) then
        done ((s.setReg fn false 0x40C 0xC0000000).setReg fn false 0x410 (BitVec.ofNat 64 s.gtick))
      else
        let (id, s) := s.fresh
        let x : Shoot := ⟨some fn, f, bitsOf v.toNat 23 12, scope, va, (bitsOf v.toNat 7 0 + 1) * size, id⟩
        let s := translateAgain x (shootNow x s)
        let s := (s.setReg fn false 0x40C 0).setReg fn false 0x408 (BitVec.ofNat 64 (2 ^ 31 + kept))
        done { s with shoots := s.shoots ++ [x] }
/-- SHOOTDOWN_DONE: every access that translated before the command has performed or faulted, but for those in the collector, which have translated again; DONE and XINV_TICK are written (R38). -/
def execShootdownDone (fn : Nat) (s : State) : Out State :=
  match s.shoots.find? (fun x => x.page == some fn) with
  | none => .fault .notPending
  | some x =>
    if s.reqs.any (fun r => decide (r.id < x.id) && r.covered x s) then .fault .heldBack
    else
      let s := shootNow x { s with shoots := s.shoots.filter (fun y => y.id != x.id) }
      let s := s.setReg fn false 0x408 (BitVec.ofNat 64 (bitsOf (s.reg fn false 0x408).toNat 30 0))
      done ((s.setReg fn false 0x40C 0x80000000).setReg fn false 0x410 (BitVec.ofNat 64 s.gtick))
/-- Physical address of a host I/O virtual address (Table 2.4). -/
def hostBase : Nat := 0x8000000000000
/-- HOST_INVALIDATION_REQUEST: answered once no access that the ATC translated in the range is outstanding (R41, R38). -/
def execHostInvalidationRequest (fn ctx va len : Nat) (s : State) : Out State :=
  let hits (pa n : Nat) : Bool := overlaps pa n (hostBase + va) len
  let busy := s.allReqs.any (fun r =>
    let g := s.gr (s.tm r.team).grid
    g.fn == fn && g.ctx == ctx && r.ats == 0 && r.work.places.any (fun p => match p with | .glob _ pa mt => decide (2 ≤ mt) && regionOf pa == .host && hits pa 16 | _ => false))
  let s' := { s with mem := { s.mem with atc := s.mem.atc.filter (fun a => !(a.1 == fn && a.2.1 == ctx && hits (a.2.2 * 4096) 4096)) } }
  if busy then .fault .heldBack else done s'

/-! ### Migration (R32 to R34) -/

/-- A tier takes a page size (R31). -/
def tierTakes (pa size : Nat) : Bool :=
  match regionOf pa with
  | .hbm | .lpddr => true
  | .deck _ => size != 0x40000000
  | _ => false
/-- The leaf that a walk for an address meets, with its page size and the address of its entry; the walk changes nothing (R32, R34 step 3). -/
def leafAt (f ctx va : Nat) (s : State) : Option (Nat × Nat × Nat) :=
  match (walk f ctx va s).2 with
  | .bad _ _ => none
  | .leaf _ size pa => some (s.entry pa, size, pa)
/-- STATUS of a migration of a page of a context; 0 where it may start (R32, R34). DESIGN CHOICE (notes/assumptions 46): a source leaf that names the host, a peer, the register window or an unbacked address, for which no STATUS stands, is NOTMAPPED: the copier has no page of the device to copy. -/
def migCheck (f ctx va size dst : Nat) (s : State) : Nat :=
  if (s.context? f ctx).isNone || !canonical va then 2
  else
    match leafAt f ctx va s with
    | none => 2
    | some (e, sz, _) =>
      if sz != size || !s.backedLocal (entryAddr e) then 2
      else if !s.backedLocal dst || !tierTakes dst size then 3
      else if !s.ownsRange f dst size then 1
      else 0
/-- STATUS of a MIGRATE command; 0 where it may start (R32, R34). -/
def migStatus (page : Nat) (v : Word) (s : State) : Nat :=
  let size := sizeCode (bitsOf v.toNat 11 10)
  let f := addressed page v
  let va := (s.reg page false 0x440).toNat
  let d := (s.reg page false 0x448).toNat
  let dst := bitsOf d 51 12 * 4096
  if bitsOf v.toNat 30 29 != 0 || bitsOf v.toNat 9 0 != 0 || 16 < f || va % size != 0 || dst % size != 0 then 4
  else migCheck f (bitsOf v.toNat 23 12) va size dst s
/-- MIGRATE: a write of MIG_CTL: with GO the page is locked, or the command is refused: ERR and STATUS are set, and nothing else changes (R32, R34 step 1). -/
def execMigrate (fn : Nat) (v : Word) (s : State) : Out State :=
  if 16 < fn then .fault .notPending
  else if (s.reg fn false 0x450).getLsbD 31 then done s
  else
    let kept := keptCtl fn v 0x1FFFFC00
    let s := s.setReg fn false 0x450 (BitVec.ofNat 64 kept)
    if !v.getLsbD 31 then done s
    else
      match migStatus fn v s with
      | 0 =>
        let (id, s) := s.fresh
        let f := addressed fn v
        let ctx := bitsOf v.toNat 23 12
        let va := (s.reg fn false 0x440).toNat
        let src := match leafAt f ctx va s with | some (e, _, _) => entryAddr e | none => 0
        let m : Mig := ⟨fn, f, ctx, va, sizeCode (bitsOf v.toNat 11 10), bitsOf (s.reg fn false 0x448).toNat 51 12 * 4096, src, id⟩
        let s := { s with mem := { s.mem with migrating := s.mem.migrating ++ [m] } }
        done ((s.setReg fn false 0x454 0).setReg fn false 0x450 (BitVec.ofNat 64 (2 ^ 31 + kept)))
      | st => done (s.setReg fn false 0x454 (BitVec.ofNat 64 (2 ^ 30 + st)))
/-- The copier copies n lines, poison with them (R34 step 2). -/
def movePageLines (fn src dst : Nat) : Nat → State → State
  | 0, s => s
  | n + 1, s =>
    let s := movePageLines fn src dst n s
    let (s, b, p) := readL2 fn ((src + n) * 128) 128 s
    (acceptWrite fn (dst + n) (cellsOf 0 b) p s).1
/-- A place of the page names the destination from now on (R34 step 4). -/
def Source.moved (m : Mig) : Source → Source
  | .glob va pa mt => if m.va ≤ va ∧ va < m.va + m.size then .glob va (m.dst + (va - m.va)) mt else .glob va pa mt
  | p => p
/-- A waiting write of the page's context performs at the destination. -/
def Req.moved (m : Mig) (s : State) (r : Req) : Req :=
  let g := s.gr (s.tm r.team).grid
  if g.fn == m.fn && g.ctx == m.ctx then
    match r.work with
    | .store th parts => { r with work := .store th (parts.map (fun p => { p with dst := p.dst.moved m })) }
    | .atomic th va pa mt o d => (match Source.moved m (.glob va pa mt) with | .glob v p k => { r with work := .atomic th v p k o d } | _ => r)
    | _ => r
  else r
/-- Reads that translated at the source are outstanding; those in the collector translate again at the swap (R38). -/
def readsLeft (m : Mig) (s : State) : Bool :=
  let x : Shoot := ⟨none, m.fn, m.ctx, 0, m.va, m.size, 0⟩
  s.reqs.any (fun r => r.covered x s && (match r.work with | .store _ _ | .atomic _ _ _ _ _ _ => false | _ => true))
/-- The lock of a page goes, and the threads parked for it go on (R34 step 4). -/
def releasePage (m : Mig) (s : State) : State :=
  let s := { s with mem := { s.mem with migrating := s.mem.migrating.filter (fun y => y.id != m.id) } }
  { s with threads := s.threads.map (fun (t : Thread) =>
      let g := s.gr (s.tm t.team).grid
      if t.waitsIn (.parked .migrate) && g.fn == m.fn && g.ctx == m.ctx then (if t.wait.go then t.wake else t.wakeAfresh) else t) }
/-- Copy, swap and release of a locked page: the status (R34 steps 2 to 4). DESIGN CHOICE (notes/assumptions 46): where the page has no valid leaf of its size in local memory any more, the command ends with NOTMAPPED, and the waiting accesses are released. -/
def swapPage (m : Mig) (s : State) : State × Nat :=
  let x : Shoot := ⟨none, m.fn, m.ctx, 0, m.va, m.size, 0⟩
  match leafAt m.fn m.ctx m.va s with
  | none => (translateAgain x (releasePage m s), 2)
  | some (old, size, pa) =>
    if size != m.size || !s.backedLocal (entryAddr old) then (translateAgain x (releasePage m s), 2)
    else
      let s := movePageLines m.fn (entryAddr old / 128) (m.dst / 128) (m.size / 128) (l2Touch m.fn (pa / 128) s)
      let new := old - bitsOf old 51 12 * 4096 + m.dst
      let s := shootNow x (acceptBytes m.fn pa (leBytes new 8) s).1
      let s := releasePage m { s with reqs := s.reqs.map (Req.moved m s) }
      (translateAgain x s, 0)
/-- MIGRATE_SWAP: once the reads that translated at the source are done, the page is copied, the leaf rewritten and shot down, and the waiters go on at the destination (R34). -/
def execMigrateSwap (fn : Nat) (s : State) : Out State :=
  match s.mem.migrating.find? (fun m => m.page == fn) with
  | none => .fault .notPending
  | some m =>
    if readsLeft m s then .fault .heldBack
    else
      let (s, st) := swapPage m s
      let s := s.setReg fn false 0x450 (BitVec.ofNat 64 (bitsOf (s.reg fn false 0x450).toNat 30 0))
      done ((s.setReg fn false 0x454 (BitVec.ofNat 64 (2 ^ 31 + (if st = 0 then 0 else 2 ^ 30 + st)))).setReg fn false 0x458 (BitVec.ofNat 64 s.gtick))

/-! ### Granule owners (R29) and access counters (R33) -/

/-- Granules of the owner table. -/
def granuleCount : Nat := 984064
/-- The granule holds a part of the owner table. -/
def holdsTable (tab g : Nat) : Bool := decide (tab / 0x200000 ≤ g) && decide (g ≤ (tab + granuleCount - 1) / 0x200000)
/-- A deck that drains towards compute takes no new owners (R353). -/
def drainingGranule (g : Nat) (s : State) : Bool :=
  s.topo.2.1 != 0 && !nth true s.decks s.topo.2.2 && decide (196608 + 128 * s.topo.2.2 ≤ g) && decide (g < 196608 + 128 * (s.topo.2.2 + 1))
/-- GRANTCMD_GO: a write of GRANTCMD (R29). -/
def execGrantcmdGo (v : Dword) (s : State) : Out State :=
  let cur := s.reg 0 true 0x1E08
  if cur.getLsbD 63 then done s
  else
    let kept := bitsOf v.toNat 47 0
    if !v.getLsbD 63 then done (s.setReg 0 true 0x1E08 (BitVec.ofNat 64 (kept + (if cur.getLsbD 62 then 2 ^ 62 else 0))))
    else
      let first := bitsOf kept 19 0
      let count := bitsOf kept 39 20
      let owner := bitsOf kept 47 40
      let tab := (s.reg 0 true 0x1E00).toNat
      let gs := (List.range (count + 1)).map (first + ·)
      let bad := granuleCount ≤ first + count || tab == 0 || (owner != 0 && gs.any (holdsTable tab)) || (owner != 0xFF && gs.any (fun g => drainingGranule g s))
      done (s.setReg 0 true 0x1E08 (BitVec.ofNat 64 (kept + (if bad then 2 ^ 62 else 2 ^ 63))))
/-- GRANTCMD_DONE: the owner bytes are written; GO reads 0 (R29). -/
def execGrantcmdDone (s : State) : Out State :=
  let cur := (s.reg 0 true 0x1E08).toNat
  if !cur.testBit 63 then .fault .notPending
  else
    let s := (acceptBytes 0 ((s.reg 0 true 0x1E00).toNat + bitsOf cur 19 0) (List.replicate (bitsOf cur 39 20 + 1) (BitVec.ofNat 8 (bitsOf cur 47 40))) s).1
    done (s.setReg 0 true 0x1E08 (BitVec.ofNat 64 (bitsOf cur 47 0)))
/-- GRANTAB_WRITE: the table moves, unless a command is under way (R29). -/
def execGrantabWrite (v : Dword) (s : State) : Out State :=
  if (s.reg 0 true 0x1E08).getLsbD 63 then done s else done (s.setReg 0 true 0x1E00 (BitVec.ofNat 64 (bitsOf v.toNat 51 12 * 4096)))
/-- What ACCDATA reads (R33). -/
def accessCount (block : Nat) (s : State) : Nat :=
  if 25165824 + 4096 * 8 ≤ block then 0xFFFFFFFF
  else if 25165824 ≤ block && nth true s.decks ((block - 25165824) / 4096) then 0
  else lookupD 0 s.mem.access block
/-- ACCDATA_READ: the counter ACCSEL names is sampled, and cleared where CLR is set (R33). -/
def execAccdataRead (s : State) : Out State :=
  let sel := (s.reg 0 true 0x1E10).toNat
  let b := bitsOf sel 25 0
  let s := s.setReg 0 true 0x1E14 (BitVec.ofNat 64 (accessCount b s))
  if sel.testBit 31 then done { s with mem := { s.mem with access := s.mem.access.filter (fun p => p.1 != b) } } else done s

/-! ### Scrubs and tag parity (R59) -/

/-- Lines of a way of a slice. -/
def linesOfWay (slice way : Nat) (s : State) : List L2Line := s.mem.l2.filter (fun l => sliceOf l.line == slice && l.way == way)
/-- L2SCRUB_GO: a write of L2SCRUB (R59). -/
def execL2scrubGo (v : Word) (s : State) : Out State :=
  let cur := s.reg 0 true 0x1110
  if cur.getLsbD 31 then done s
  else
    let kept := bitsOf v.toNat 27 24 * 2 ^ 24 + bitsOf v.toNat 11 0
    if !v.getLsbD 31 then done (s.setReg 0 true 0x1110 (BitVec.ofNat 64 (kept + (if cur.getLsbD 30 then 2 ^ 30 else 0))))
    else done (s.setReg 0 true 0x1110 (BitVec.ofNat 64 (kept + (if 3072 ≤ bitsOf v.toNat 11 0 then 2 ^ 30 else 2 ^ 31))))
/-- L2SCRUB_DONE: dirty lines of the way are written back, all leave, the bitmap is cleared, the slice's eviction horizon is 0, GO reads 0 (R49, R59). -/
def execL2scrubDone (s : State) : Out State :=
  let cur := (s.reg 0 true 0x1110).toNat
  if !cur.testBit 31 then .fault .notPending
  else
    let slice := bitsOf cur 11 0
    let way := bitsOf cur 27 24
    let s := ((linesOfWay slice way s).foldl (fun s l => evictL2 l s) s).zeroHorizon slice
    let s := { s with mem := { s.mem with history := s.mem.history.filter (fun h => !(h.1 == slice && h.2.1 == way)) } }
    done (s.setReg 0 true 0x1110 (BitVec.ofNat 64 (bitsOf cur 30 0)))
/-- TAG_PARITY: the contexts of every function in the way's fill history are killed, the way is scrubbed, dirty lines become poison, the slice's eviction horizon is 0, and the dropped lines' last ticks are over (R49, R59, R112, R134). -/
def execTagParity (slice way : Nat) (s : State) : Out State :=
  if 3072 ≤ slice || 16 ≤ way then .fault .notPending
  else
    let fns := (List.range 17).filter (s.historyOf slice way).testBit
    let s := fns.foldl (fun s f => (contextsOf f s).foldl (fun s c => killWith .tagParity { addr := slice + way * 2 ^ 12 } f c s) s) s
    let gone := linesOfWay slice way s
    let dirty := (gone.filter L2Line.dirty).map L2Line.line
    let s := (dirty.foldl (fun s l => loseLine l s) s).zeroHorizon slice
    let s := if gone.any (fun l => l.last == s.gtick) then s.bump else s
    let s := { s with mem := { s.mem with
      l2 := s.mem.l2.filter (fun l => !(sliceOf l.line == slice && l.way == way))
      history := s.mem.history.filter (fun h => !(h.1 == slice && h.2.1 == way)) } }
    done (s.setReg 0 true 0x1114 (BitVec.ofNat 64 (2 ^ 31 + way * 2 ^ 24 + slice)))

/-! ### Uttenlink (R359) -/

/-- Bytes of local memory that an access from a peer names. -/
def Payload.size : Payload → Nat
  | .write d | .poison d => d.length
  | .read n => n
  | .atomic o => elemBytes o.ty
  | .add => 8
/-- An atomic from a peer performs at its home slice; one that returns a value is answered with the old one (R125, R359). -/
def peerAtomic (fn pa : Nat) (o : AtomOp) (s : State) : State :=
  let n := elemBytes o.ty
  let bad := s.mem.poison.contains (pa / 128)
  let old := s.mem.bytes.readN pa n
  let (s, _) := acceptWrite fn (pa / 128) (cellsOf pa (leBytes (o.apply (leNat old)).1 n)) false s
  if o.form ≤ 2 then s.send (.readReply pa old bad) else s
/-- PEER_ACCESS_ARRIVAL: a peer's access is checked against the tenant tag and performed at its home slice, or refused (R359). The writes of one stream keep their order; a transfer's notification is accepted once every earlier write of its stream has reached its Tw (R131, R132, notes/assumptions 79). -/
def execPeerAccessArrival (tag : Dword) (stream : Nat) (relaxed : Bool) (pa : Nat) (x : Payload) (s : State) : Out State :=
  let key := 2 * stream + 1
  let fn := s.ownerOf (granuleOf pa)
  if !s.admits tag pa x.size then done (s.send (.reject pa))
  else
    match x with
    | .read n => let (s, b, p) := readL2 fn pa n s; done (s.send (.readReply pa b p))
    | .write d => if s.migratesFrom pa d.length then .fault .heldBack else done (streamWrite fn key pa (d.map (·, false)) relaxed s).1
    | .poison d => if s.migratesFrom pa d.length then .fault .heldBack else done (streamWrite fn key pa (d.map (·, true)) relaxed s).1
    | .atomic o => if pa % elemBytes o.ty != 0 then done (s.send (.reject pa)) else if s.migratesFrom pa 8 then .fault .heldBack else done (peerAtomic fn pa o s)
    | .add =>
      if pa % 8 != 0 then done (s.send (.reject pa))
      else if decide (s.gtick < lookupD 0 s.mem.streams key) || s.migratesFrom pa 8 then .fault .heldBack
      else done (acceptWrite fn (pa / 128) (cellsOf pa (leBytes (leNat (s.mem.bytes.readN pa 8) + 1) 8)) false s).1
/-- FLIT_CRC_RESEND: a flit whose CRC fails is resent; nothing else changes (R359). -/
def execFlitCrcResend (port : Nat) (s : State) : Out State := if port < 16 then done s else .fault .notPending
/-- A peer write of a thread is lost (R359, R134). -/
def losePlaces (r : Req) (s : State) : State :=
  let lines := (r.work.places.filter Source.onPeer).filterMap (fun p => match p with | .glob va _ _ => some (va / 128) | _ => none)
  r.threads.foldl (fun s u => s.modThr u (fun t => { t with lost := t.lost ++ lines })) s
/-- FLIT_LOST: a peer load delivers poisoned registers, a peer write is lost, an engine transfer ends with ENGINE_FAULT at its progress; a collective that another rank has left ends the same way (R232, R256, R260, R359). -/
def execFlitLost (req : Nat) (s : State) : Out State :=
  match s.req? req with
  | none => .fault .notPending
  | some r =>
    let data := (List.range 256).map (Config.byte s.free)
    let s := { s with free := s.free + 1 }
    match r.work with
    | .dispatch _ i _ _ st prog _ =>
      if r.fault.isSome then .fault .notPending
      else
        match i with
        | .coll _ => done (collFail r prog 0 0 s)
        | .dsend _ => if st == 3 then .fault .notPending else done (failTransfer req accEngineWrite 0 s)
        | _ => if st == 0 then done (failTransfer req accEngineRead 0 s) else .fault .notPending
    | .store _ parts =>
      if !r.work.places.any Source.onPeer then .fault .notPending
      else if r.heldBack s then .fault .heldBack
      else done (complete r (losePlaces r ((parts.filter (fun p => !p.dst.onPeer)).foldl (fun s p => writePart r.team r.threads p s) s)))
    | .atomic th _ _ _ o dst =>
      if !r.work.places.any Source.onPeer then .fault .notPending
      else
        let ds := match dst with | some d => regs d o.ty.wide | none => []
        done (complete r ((losePlaces r s).modThr th (fun t => { t with pendV := t.pendV.filter (fun v => !ds.contains v), poison := t.poison ++ ds })))
    | .load th l =>
      if !r.work.places.any Source.onPeer then .fault .notPending
      else
        let s := (takeData l data).foldl (fun s p => deliverElem r.team (fun e bs b s => s.modThr th (Thread.deliver e bs (b || e.src.onPeer))) p s) s
        done (complete r s)
    | .loadTeam l full w =>
      if !r.work.places.any Source.onPeer then .fault .notPending
      else
        let s := (takeData l data).foldl (fun s p => deliverElem r.team (fun e bs b s => s.modTeam r.team (Team.deliver full w e bs (b || e.src.onPeer))) p s) s
        done (complete r s)
    | .hbind h _ _ _ _ _ =>
      if !r.work.places.any Source.onPeer then .fault .notPending
      else done (withIssue r.group (raiseAll .poison { kind := accLoad } (s.byLane r.threads)) (complete r { s with teams := s.teams.map (fun (t : Team) => if t.uid == r.team then { t with pendH := t.pendH.filter (· ≠ h) } else t) }))
    | _ => .fault .notPending

end Sys2Proof.Machine
end

