-- ==== Sys2Proof/Machine/Barrier.lean ====
section
/-! DEFINITION. Barriers (spec/10_control_and_integer_instructions.md R221; spec/06_memory_ordering.md R123). -/
namespace Sys2Proof.Machine

/-- An arrival of one thread; a thread that has already arrived in the phase waits in BARRIER for the next one (R221). sync: the thread then waits for the phase. -/
def arriveThread (b : Nat) (count : Option Nat) (sync : Bool) (u : Nat) (s : State) : State :=
  let t := s.thr u
  let tm := s.tm t.team
  if (match count with | some n => n == 0 || decide (tm.size < n) | none => false) then raise .reservedField {} u s
  else if t.arrived.getLsbD b then
    s.modThr u (fun t => { t with phase := .barrier, wait := { reg := b, mode := if sync then 2 else 1, count := count } })
  else
    let s := departThread u s
    let s := s.modTeam t.team (fun tm => tm.setBar b ((tm.bar b).arrive count (arrivalReqs u s)))
    s.modThr u (fun t =>
      let t := { t with arrived := t.arrived ||| (1#16 <<< b) }
      if sync then { t with phase := .barrier, wait := { reg := b, mode := 0 } } else t)
/-- BAR.WAIT in one thread: it waits for the phase of its last arrival, or goes on (R221). -/
def waitThread (b u : Nat) (s : State) : State :=
  s.modThr u (fun t => if t.arrived.getLsbD b then { t with phase := .barrier, wait := { reg := b, mode := 0 } } else t)
/-- The count an SS short form gives. -/
def ssCount (x : SS) (tm : Team) : Option Nat := if x.b.getLsbD 0 then some (tm.rs (rn x.a)).toNat else none
/-- The count a wide form gives. -/
def wsCount (x : WS) (tm : Team) : Option Nat :=
  if x.b.getLsbD 0 then some (tm.rs (rn x.a)).toNat else if x.x.lit then some (rn x.x.w2) else none
/-- SYNC or ARRIVE in the true-guard threads. -/
def arriveAll (u : Use) (b : Nat) (count : Team → Option Nat) (sync : Bool) (s : State) : Out State :=
  issue u true (fun us s => us.foldl (fun s v => arriveThread b (count (s.teamOf v)) sync v s) s) s
/-- Registers of an SS short form. -/
def barUse (x : SS) : Use := { bytes := 4, e := x.e, rs := if x.b.getLsbD 0 then [rn x.a] else [] }
/-- Registers of a wide form. -/
def barUseWide (x : WS) : Use := { g := x.x.g, bytes := 12, e := x.e, rs := if x.b.getLsbD 0 then [rn x.a] else [] }

/-- BAR.SYNC (R221). -/
def execBarSync (x : SS) (s : State) : Out State := arriveAll (barUse x) (rn x.d) (ssCount x) true s
/-- BAR.SYNC, 96-bit (R221). -/
def execBarSyncWide (x : WS) (s : State) : Out State := arriveAll (barUseWide x) (rn x.d) (wsCount x) true s
/-- BAR.ARRIVE (R221). -/
def execBarArrive (x : SS) (s : State) : Out State := arriveAll (barUse x) (rn x.d) (ssCount x) false s
/-- BAR.ARRIVE, 96-bit (R221). -/
def execBarArriveWide (x : WS) (s : State) : Out State := arriveAll (barUseWide x) (rn x.d) (wsCount x) false s
/-- BAR.WAIT (R221). -/
def execBarWait (x : SS) (s : State) : Out State :=
  issue { bytes := 4, e := x.e } true (fun us s => us.foldl (fun s u => waitThread (rn x.d) u s) s) s
/-- BAR.WAIT, 96-bit (R221). -/
def execBarWaitWide (x : WS) (s : State) : Out State :=
  issue { g := x.x.g, bytes := 12, e := x.e } true (fun us s => us.foldl (fun s u => waitThread (rn x.d) u s) s) s

end Sys2Proof.Machine
end

