-- ==== Sys2Proof/Machine/Partition.lean ====
section
/-! DEFINITION. Clusters, bandwidth floors, functions' time, deck roles and clocks (spec/16_partitions_decks_and_system.md R344 to R354). -/
namespace Sys2Proof.Machine

/-! ### Cluster ownership (R344 to R346) -/

/-- The four cores of a cluster. -/
def coresOf (cluster : Nat) : List Nat := [4 * cluster, 4 * cluster + 1, 4 * cluster + 2, 4 * cluster + 3]
/-- Contexts resident on a cluster: those that hold a bank of one of its cores. -/
def contextsOn (cluster : Nat) (s : State) : List (Nat × Nat) :=
  (coresOf cluster).flatMap (fun c => [0, 1].filterMap (fun b => (s.bank c b).ctx))
/-- A tile space is live on a cluster (R72). -/
def spaceOn (cluster : Nat) (s : State) : Bool := s.spaces.any (fun x => x.cluster == some cluster)
/-- Scrubbing: register files and accumulators of both banks, the cores' SRAM, the tile directory and its parts, the merge tree (R346 step 3). -/
def scrubCluster (cluster : Nat) (s : State) : State :=
  let s := (coresOf cluster).foldl (fun s c => s.setCore { s.core c with banks := [Bank.reset, Bank.reset], active := 0 }) s
  { s with
    spaces := s.spaces.filter (fun x => x.cluster != some cluster)
    bins := s.bins.filter (fun b => b.saved || b.cluster != cluster)
    mem := { s.mem with l1 := s.mem.l1.filter (fun l => clusterOf l.core != cluster) } }
/-- Fields of PCMD that software writes. -/
def pcmdKept (v : Word) : Nat := Nat.land v.toNat 0x3FF0007F
/-- A write of PCMD with GO for an operation: its cluster and function; it acts unless a command is under way (R345). -/
def pcmd (op : Nat) (v : Word) (ok : Nat → Nat → State → Bool) (act : Nat → Nat → State → State) (stays : Bool) (s : State) : Out State :=
  let kept := pcmdKept v
  if bitsOf v.toNat 29 28 != op || !v.getLsbD 31 then .fault .notPending
  else if (s.reg 0 true 0x1500).getLsbD 31 then done s
  else if ok (bitsOf kept 6 0) (bitsOf kept 24 20) s then
    done ((act (bitsOf kept 6 0) (bitsOf kept 24 20) s).setReg 0 true 0x1500 (BitVec.ofNat 64 (kept + (if stays then 2 ^ 31 else 0))))
  else done (s.setReg 0 true 0x1500 (BitVec.ofNat 64 (kept + 2 ^ 30)))
/-- PCMD_ASSIGN: the cluster is scrubbed; then V, MARG, AUT and FN are set (R345). -/
def execPcmdAssign (v : Word) (s : State) : Out State :=
  pcmd 0 v
    (fun c f s => decide (f ≤ 16) && (s.cluster c).cstate == 0 && (contextsOn c s).isEmpty && !spaceOn c s && nth true s.decks (c / 16))
    (fun c f s =>
      let s := scrubCluster c s
      s.setCluster { s.cluster c with v := v.getLsbD 27, margin := v.getLsbD 26, auto := v.getLsbD 25, owner := f })
    false s
/-- PCMD_LEND: a margin cluster at home, free of its owner's contexts and of tile spaces, goes to the borrower (R345). -/
def execPcmdLend (v : Word) (s : State) : Out State :=
  pcmd 1 v
    (fun c f s =>
      let x := s.cluster c
      decide (f ≤ 16) && x.v && x.margin && x.cstate == 0 && f != x.owner && !(contextsOn c s).any (fun k => k.1 == x.owner) && !spaceOn c s)
    (fun c f s => s.setCluster { s.cluster c with cstate := 1, borrower := f })
    false s
/-- A revocation starts at the present tick (R346 step 1). -/
def startRevoke (cluster : Nat) (s : State) : State := s.setCluster { s.cluster cluster with cstate := 2, deadline := s.gtick + 140000 }
/-- PCMD_REVOKE: the revocation of a lent cluster starts, and GO reads 1 until it is complete (R345, R346). -/
def execPcmdRevoke (v : Word) (s : State) : Out State :=
  pcmd 2 v (fun c _ s => (s.cluster c).cstate == 1) (fun c _ s => startRevoke c s) true s
/-- The state as a team of the owner would find it with the cluster at home and empty. -/
def withoutBorrower (cluster : Nat) (s : State) : State :=
  let s := { s with teams := s.teams.filter (fun (t : Team) => t.saved.isSome || clusterOf t.core != cluster) }
  let s := (coresOf cluster).foldl (fun s c => s.setCore { s.core c with banks := [Bank.reset, Bank.reset] }) s
  s.setCluster { s.cluster cluster with cstate := 0 }
/-- Some team of the owner has waited 100,000 ticks while it would fit the cluster (R346). -/
def ownerWaits (cluster : Nat) (s : State) : Bool :=
  let f := (s.cluster cluster).owner
  let w := withoutBorrower cluster s
  s.grids.any (fun g => g.fn == f && !g.allPlaced && !g.killed && decide (g.waitSince + 100000 ≤ s.gtick) && (coresOf cluster).any (fun c => placeable g c w)) ||
  s.slots.any (fun (x : SaveSlot) => x.fn == f && decide (x.tick + 100000 ≤ s.gtick) && (!x.team || x.teams.any (fun t => resumable t s)) &&
    (coresOf cluster).any (fun c => match restoreBank x c w with | some b => fitTogether c (some b) x.teams w | none => false))
/-- AUTO_REVOKE: the device revokes on its own (R346). -/
def execAutoRevoke (cluster : Nat) (s : State) : Out State :=
  let c := s.cluster cluster
  if decide (cluster < 128) && c.auto && c.cstate == 1 && ownerWaits cluster s then done (startRevoke cluster s) else .fault .notPending
/-- A context has no free save slot. -/
def noSlot (fn ctx : Nat) (s : State) : Bool := match s.context? fn ctx with | some c => (freeSaveSlot c s).isNone | none => true
/-- REVOKE_SAVE_DEADLINE: contexts still on the cluster at T0 + 140,000, and those that have no free save slot, are killed (R346 step 2). -/
def execRevokeSaveDeadline (cluster : Nat) (s : State) : Out State :=
  let c := s.cluster cluster
  let late := (contextsOn cluster s).filter (fun k => pastDeadline cluster s || noSlot k.1 k.2 s)
  if c.cstate != 2 || late.isEmpty then .fault .notPending
  else done (late.foldl (fun s k => killContext k.1 k.2 s) s)
/-- Tile spaces that are still live on a cluster are saved (R86, R87). -/
def saveSpacesOn (cluster : Nat) (s : State) : State :=
  ((s.spaces.filter (fun x => x.cluster == some cluster)).map Space.id).foldl (fun s i => saveSpace i s) s
/-- REVOCATION_SCRUB: with every context gone, the cluster is scrubbed and home, and PCMD reports completion (R346 steps 3 and 4). -/
def execRevocationScrub (cluster : Nat) (s : State) : Out State :=
  if (s.cluster cluster).cstate != 2 then .fault .notPending
  else if !(contextsOn cluster s).isEmpty then .fault .heldBack
  else
    let s := scrubCluster cluster (saveSpacesOn cluster s)
    let s := s.setCluster { s.cluster cluster with cstate := 0, borrower := 0, deadline := 0 }
    let cur := (s.reg 0 true 0x1500).toNat
    done (if cur.testBit 31 && bitsOf cur 6 0 == cluster then s.setReg 0 true 0x1500 (BitVec.ofNat 64 (bitsOf cur 29 0)) else s)

/-! ### Bandwidth (R347, R348) -/

/-- Floors of the functions other than one, in units. -/
def otherFloors (f : Nat) (s : State) : Nat :=
  (((List.range 17).filter (· ≠ f)).map (fun g => bitsOf (s.reg 0 true (0x1600 + 8 * g)).toNat 15 0)).sum
/-- FLOOR_WRITE: ignored where the floors would exceed 3,100 units; a weight of 0 is 1 (R347). -/
def execFloorWrite (f : Nat) (v : Dword) (s : State) : Out State :=
  if 16 < f then .fault .notPending
  else if 3100 < otherFloors f s + bitsOf v.toNat 15 0 then done s
  else done (s.setReg 0 true (0x1600 + 8 * f) (BitVec.ofNat 64 (max 1 (bitsOf v.toNat 39 32) * 2 ^ 32 + bitsOf v.toNat 15 0)))
/-- The bandwidth window of 10,000 ticks is over (R348). -/
def windowOver (s : State) : Bool := decide (s.window + 10000 ≤ s.gtick)
/-- BANDWIDTH_WINDOW: the window is over, and the shares start afresh (R348). -/
def execBandwidthWindow (s : State) : Out State :=
  if !windowOver s then .fault .notPending
  else done { s with window := s.gtick - s.gtick % 10000, served := [] }

/-! ### Encoders and their owners (R361) -/

/-- An encoder's state; an unlisted one is as at reset. -/
def State.encoder (s : State) (e : Nat) : Encoder := (s.enc.find? (fun x => x.engine == e)).getD ⟨e, 0, false, 0, none⟩
/-- Sets an encoder's state. -/
def State.setEncoder (s : State) (x : Encoder) : State := { s with enc := x :: s.enc.filter (fun y => y.engine != x.engine) }
/-- ENCOWN e as held. -/
def State.encOwn (s : State) (e : Nat) : Nat := (s.reg 0 true (0x1900 + 4 * e)).toNat
/-- The owner of an assigned encoder. -/
def State.encOwner (s : State) (e : Nat) : Option Nat := let w := s.encOwn e; if w.testBit 31 then some (bitsOf w 28 24) else none
/-- The encoders of a function that runs again go on (R361). -/
def resumeEncoders (f : Nat) (s : State) : State :=
  { s with enc := s.enc.map (fun x => if s.encOwner x.engine == some f then { x with paused := false } else x) }

/-! ### Running and descheduled functions (R349, R350) -/

/-- A write of VFSCHED with GO (R349). -/
def vfsched (run : Bool) (v : Word) (act : Nat → State → State) (s : State) : Out State :=
  let kept := Nat.land v.toNat 0x11F
  if !v.getLsbD 31 || v.getLsbD 8 != run then .fault .notPending
  else if 16 < bitsOf kept 4 0 then done (s.setReg 0 true 0x1700 (BitVec.ofNat 64 (kept + 2 ^ 30)))
  else done ((act (bitsOf kept 4 0) s).setReg 0 true 0x1700 (BitVec.ofNat 64 kept))
/-- VFSCHED_RUN: the function runs again, and STOLEN has grown by the ticks since its deschedule (R350). -/
def execVfschedRun (v : Word) (s : State) : Out State :=
  vfsched true v (fun f s => resumeEncoders f { s with stolen := insertKey s.stolen f (s.stolenOf f), halted := s.halted.filter (fun h => h.1 != f) }) s
/-- A descheduled function is pre-empted: its collector entries depart, and its dirty lines are written back (R52, R65, R136). -/
def preemptFunction (f : Nat) (s : State) : State :=
  let s := (s.coll.filter (fun e => e.fn == f)).foldl (fun s e => departNow e s) s
  (s.mem.l1.filter (fun x => x.fn == f && !x.dirty.isEmpty)).foldl (fun s x => writeBack x s) s
/-- Threads of a function leave their waves at the boundary (R159, R349). -/
def haltFunction (f : Nat) (s : State) : State :=
  let s := preemptFunction f s
  let gone := (s.waves.flatMap (·.members)).filter (fun u => (s.gridOf u).fn == f)
  { s with
    waves := (s.waves.map (fun w => { w with members := w.members.filter (fun u => !gone.contains u) })).filter (fun w => !w.members.isEmpty)
    threads := s.threads.map (fun (t : Thread) => if gone.contains t.uid && t.phase == .issuing then { t with phase := .ready, age := 0 } else t)
    halted := (f, s.gtick) :: s.halted }
/-- VFSCHED_DESCHEDULE: no thread of the function issues and no team of it is placed; its view stands still (R349, R350). -/
def execVfschedDeschedule (v : Word) (s : State) : Out State :=
  vfsched false v (fun f s => if s.halted.any (fun h => h.1 == f) then s else haltFunction f s) s

/-! ### Deck roles (R352, R353) -/

/-- Compute decks. -/
def computeDecks (decks : List Bool) : Nat := decks.countP id
/-- A cluster of a deck is assigned. -/
def deckAssigned (d : Nat) (s : State) : Bool := (List.range 16).any (fun i => (s.cluster (16 * d + i)).v)
/-- DECKROLE ends a command: GO reads 0, STEP 0, with the error named (R353). -/
def refuseRole (code : Nat) (kept : Nat) (s : State) : State :=
  s.setReg 0 true 0x1800 (BitVec.ofNat 64 (Nat.land kept 0x80000701 + 2 ^ 30 + code * 2 ^ 12))
/-- DECKROLE_GO: a write of DECKROLE: the drain starts, or the command is refused (R353). -/
def execDeckroleGo (v : Word) (s : State) : Out State :=
  let kept := Nat.land v.toNat 0x701
  let d := bitsOf kept 10 8
  let role := kept.testBit 0
  if !v.getLsbD 31 then done (if s.topo.2.1 == 0 then s.setReg 0 true 0x1800 (BitVec.ofNat 64 (kept + Nat.land (s.reg 0 true 0x1800).toNat 0x40003000)) else s)
  else if s.topo.2.1 != 0 then done (refuseRole 0 (s.reg 0 true 0x1800).toNat s)
  else if computeDecks (s.decks.set d role) == 0 then done (refuseRole 1 kept s)
  else if !role && deckAssigned d s then done (refuseRole 2 kept s)
  else if nth true s.decks d == role then done (s.setReg 0 true 0x1800 (BitVec.ofNat 64 kept))
  else done { s.setReg 0 true 0x1800 (BitVec.ofNat 64 (kept + 2 ^ 31)) with topo := (s.topo.1, 1, d) }
/-- A context of the physical function through which the migration list is read: its lowest-numbered one. -/
def lowestContext (fn : Nat) (s : State) : Option Nat := ((s.contexts.filter (fun c => c.fn == fn)).map Context.ctx).min?
/-- One entry of the migration list is carried out, unless a MIGRATE of it would be refused; none while reads of the page are outstanding (R353, R34). -/
def migrateEntry (b : List Byte) (s : State) : Option State :=
  let f := fieldOf b 0 4
  let ctx := fieldOf b 4 4
  let va := fieldOf b 8 8
  let size := sizeCode (fieldOf b 16 4)
  let dst := fieldOf b 24 8
  if 16 < f || 4096 ≤ ctx || 3 < fieldOf b 16 4 || fieldOf b 20 4 != 0 || va % size != 0 || dst % size != 0 then some s
  else
    match migCheck f ctx va size dst s, leafAt f ctx va s with
    | 0, some (e, _, _) =>
      let (id, s) := s.fresh
      let m : Mig := ⟨0, f, ctx, va, size, dst, entryAddr e, id⟩
      if readsLeft m s then none else some (swapPage m s).1
    | _, _ => some s
/-- The list's commands run in order (R353). -/
def migrateList (ctx va : Nat) : Nat → State → Option State
  | 0, s => some s
  | n + 1, s =>
    match migrateList ctx va n s with
    | none => none
    | some s =>
      match readVa baseDie 0 ctx (va + 32 * n) 32 s with
      | (s, .bytes b false) => migrateEntry b s
      | (s, _) => some s
/-- SRAM, L1 and tile spaces of a deck are written back or saved, and its clusters are scrubbed (R353). -/
def flushDeck (d : Nat) (s : State) : State :=
  let s := (s.mem.l1.filter (fun l => deckOf l.core == d && !l.dirty.isEmpty)).foldl (fun s l => writeBack l s) s
  (List.range 16).foldl (fun s i => scrubCluster (16 * d + i) (saveSpacesOn (16 * d + i) s)) s
/-- DECK_FLUSH: the drain is over; a compute deck is flushed, or the migration list of a memory-only deck runs (R353). -/
def execDeckFlush (s : State) : Out State :=
  let d := s.topo.2.2
  let next (s : State) : Out State := done { s with topo := (s.topo.1, 2, d) }
  if s.topo.2.1 != 1 then .fault .notPending
  else if nth true s.decks d then
    if (List.range 16).any (fun i => !(contextsOn (16 * d + i) s).isEmpty) then .fault .heldBack else next (flushDeck d s)
  else
    match lowestContext 0 s with
    | none => next s
    | some ctx =>
      match migrateList ctx (s.reg 0 true 0x1810).toNat (s.reg 0 true 0x1818).toNat s with
      | some s => next s
      | none => .fault .heldBack
/-- First byte of a deck's window. -/
def windowAt (d : Nat) : Nat := 0x8000000000 + d * 0x10000000
/-- A granule of the deck's window has an owner other than 0xFF. -/
def windowOwned (d : Nat) (s : State) : Bool := (List.range 128).any (fun i => s.ownerOf (196608 + 128 * d + i) != 0xFF)
/-- The deck's window holds nothing: no bytes, poison, resident lines or counts (R353, R33). -/
def clearWindow (d : Nat) (s : State) : State :=
  let lo := windowAt d
  let inside (pa : Nat) : Bool := decide (lo ≤ pa) && decide (pa < lo + 0x10000000)
  { s with mem := { s.mem with
      bytes := s.mem.bytes.filter (fun c => !inside c.1)
      poison := s.mem.poison.filter (fun l => !inside (l * 128))
      l2 := s.mem.l2.filter (fun l => !inside (l.line * 128))
      access := s.mem.access.filter (fun a => !(decide (25165824 + 4096 * d ≤ a.1) && decide (a.1 < 25165824 + 4096 * (d + 1)))) } }
/-- Every granule of the deck's window is free. -/
def freeWindow (d : Nat) (s : State) : State :=
  let tab := (s.reg 0 true 0x1E00).toNat
  if tab = 0 then s else (acceptBytes 0 (tab + 196608 + 128 * d) (List.replicate 128 0xFF) s).1
/-- The deck's cores and clusters are as at power-on. -/
def resetDeck (d : Nat) (s : State) : State :=
  { s with
    cores := s.cores.filter (fun c => deckOf c.core != d)
    clusters := s.clusters.filter (fun c => c.cluster / 16 != d)
    mem := { s.mem with l1 := s.mem.l1.filter (fun l => deckOf l.core != d), tlb := s.mem.tlb.filter (fun t => (if t.atCore then deckOf t.place else t.place / 16) != d) } }
/-- DECK_REENUMERATE: from STEP 2, a window with an owned granule stops the change; otherwise STEP 3, and then the new role with its window, GEN + 1 (R353). -/
def execDeckReenumerate (s : State) : Out State :=
  let d := s.topo.2.2
  let kept := (s.reg 0 true 0x1800).toNat
  if s.topo.2.1 == 2 then
    if !nth true s.decks d && windowOwned d s then done { refuseRole 3 (Nat.land kept 0x701) s with topo := (s.topo.1, 0, 0) }
    else done { s with topo := (s.topo.1, 3, d) }
  else if s.topo.2.1 == 3 then
    let toMemory := nth true s.decks d
    let s := clearWindow d (resetDeck d s)
    let s := if toMemory then freeWindow d s else s
    done { s.setReg 0 true 0x1800 (BitVec.ofNat 64 (Nat.land kept 0x701)) with
      decks := s.decks.set d (!toMemory), topo := ((s.topo.1 + 1) % 65536, 0, 0) }
  else .fault .notPending

/-! ### Clocks (R354) -/

/-- Ceiling in MHz for a number of compute decks (Table 0.1). -/
def clockCeiling (n : Nat) : Nat := if n ≤ 6 then 1750 else if n = 7 then 1550 else 1350
/-- A deck's clock; an unlisted one runs at the ceiling. -/
def State.clockOf (s : State) (d : Nat) : DeckClock := (s.clock.find? (fun c => c.deck == d)).getD ⟨d, 0, 0, false⟩
/-- Sets a deck's clock. -/
def State.setClock (s : State) (c : DeckClock) : State := { s with clock := c :: s.clock.filter (fun x => x.deck != c.deck) }
/-- The deck's present clock in MHz (R354). -/
def State.mhz (s : State) (d : Nat) : Nat :=
  let c := s.clockOf d
  let top := clockCeiling (computeDecks s.decks) - 25 * c.steps
  if c.sag then min top (Config.stretchClock d) else top
/-- SUPPLY_SAG_STRETCH: a droop stretches the deck's clock, which counts as a stretch event (R354). -/
def execSupplySagStretch (deck : Nat) (s : State) : Out State :=
  if 8 ≤ deck then .fault .notPending
  else let c := s.clockOf deck; done (s.setClock { c with sag := true, stretches := min 0xFFFF (c.stretches + 1) })
/-- POWER_LIMIT_STEP: the deck's clock is lowered by 25 MHz (R354). -/
def execPowerLimitStep (deck : Nat) (s : State) : Out State :=
  let c := s.clockOf deck
  if 8 ≤ deck || clockCeiling (computeDecks s.decks) ≤ 25 * (c.steps + 1) then .fault .notPending
  else done (s.setClock { c with steps := c.steps + 1 })
/-- SUPPLY_RECOVERY: the stretching ends (R354). -/
def execSupplyRecovery (deck : Nat) (s : State) : Out State :=
  let c := s.clockOf deck
  if c.sag then done (s.setClock { c with sag := false }) else .fault .notPending

end Sys2Proof.Machine
end

