-- ==== Sys2Proof/Machine/Checkpoint.lean ====
section
/-! DEFINITION. Checkpoints: snapshots, copy-on-write, streaming and restores (spec/16_partitions_decks_and_system.md R355 to R357). -/
namespace Sys2Proof.Machine

/-! ### The writer's and the loader's accesses (R18) -/

/-- n bytes that the checkpoint writer or the loader reads. -/
def shardGet (fn ctx va n : Nat) (s : State) : State × Got := readVaFrom .shardRead baseDie fn ctx (n / 128 + 2) va n s
/-- Bytes that the checkpoint writer or the loader writes. -/
def shardPut (fn ctx va : Nat) (bs : List Byte) (s : State) : State × Put := writeVaFrom .shardWrite baseDie fn ctx (bs.length / 128 + 2) va bs s

/-! ### Region entries (R355) -/

/-- VA of a region. -/
def entryVa (e : List Byte) : Nat := fieldOf e 0 8
/-- 0 tensor, 1 world. -/
def entryKind (e : List Byte) : Nat := fieldOf e 8 1
/-- Element TYPE. -/
def entryType (e : List Byte) : Nat := fieldOf e 9 1
/-- Rank. -/
def entryRank (e : List Byte) : Nat := fieldOf e 10 1
/-- Object id. -/
def entryObj (e : List Byte) : Nat := fieldOf e 16 8
/-- A 48-bit byte stride. -/
def strideOf (n : Nat) : Int := if n < 2 ^ 47 then (n : Int) else (n : Int) - 2 ^ 48
/-- Dimensions: global origin, local extent, byte stride. -/
def entryDims (e : List Byte) : List (Nat × Nat × Int) :=
  (List.range (entryRank e)).map (fun i => (fieldOf e (24 + 8 * i) 8, fieldOf e (56 + 4 * i) 4, strideOf (fieldOf e (72 + 6 * i) 6)))
/-- Bytes of an element; a 4-bit element takes a byte. -/
def entrySize (ty : Nat) : Nat := max 1 ((ElemType.ofCode (BitVec.ofNat 4 ty)).width / 8)
/-- Elements in row-major order: global index and address. -/
def elementsOf : List (Nat × Nat × Int) → List Nat → Int → List (List Nat × Nat)
  | [], g, a => [(g, (a % 2 ^ 64).toNat)]
  | (o, n, st) :: l, g, a => (List.range n).flatMap (fun i => elementsOf l (g ++ [o + i]) (a + i * st))
/-- Elements of a tensor region. -/
def entryElements (e : List Byte) : List (List Nat × Nat) := elementsOf (entryDims e) [] (entryVa e)
/-- The entry breaks R355. -/
def entryBadRegion (e : List Byte) : Bool := decide (4 < entryRank e) || decide (1 < entryKind e) || decide (16 ≤ entryType e) || fieldOf e 11 5 != 0
/-- The region list: up to the first entry of rank 0; none where an entry cannot be read or is malformed. -/
def regionList (fn ctx : Nat) : Nat → Nat → State → State × Option (List (List Byte))
  | 0, _, s => (s, some [])
  | fuel + 1, va, s =>
    match shardGet fn ctx va 96 s with
    | (s, .bytes e false) =>
      if entryRank e = 0 then (s, some [])
      else if entryBadRegion e then (s, none)
      else
        match regionList fn ctx fuel (va + 96) s with
        | (s, some l) => (s, some (e :: l))
        | r => r
    | (s, _) => (s, none)
/-- Entries a region list can have before it is taken as ended. -/
def regionFuel : Nat := 65536

/-- Address and bytes of the areas of a world: its segment pool, then its E pages' directory, edit queue, free-index FIFO, shape table and control block (R355, Table 5.2). -/
def worldAreas (w : World) : List (Nat × Nat) :=
  [(w.field 64 8, w.field 72 4 * w.field 76 4), (w.field 16 8, 16 * w.dircap), (w.field 32 8, 32 * w.qcap), (w.field 40 8, 4 * w.dircap),
   (w.field 48 8, 4096 * Config.shapeEntry), (w.field 88 8, 64)]
/-- Virtual 4 KiB pages of an area. -/
def areaPages (a : Nat × Nat) : List Nat := if a.2 = 0 then [] else (List.range ((a.1 % 4096 + a.2 + 4095) / 4096)).map (a.1 / 4096 + ·)
/-- Virtual 4 KiB pages that a region's bytes lie in. -/
def regionPages (e : List Byte) (w : Option World) : List Nat :=
  if entryKind e = 1 then
    match w with
    | some w => ((worldAreas w).flatMap areaPages).eraseDups
    | none => []
  else ((entryElements e).flatMap (fun x => [x.2 / 4096, (x.2 + entrySize (entryType e) - 1) % 2 ^ 64 / 4096])).eraseDups
/-- Physical pages of some virtual pages; none where one does not translate to local memory. -/
def mapPages (fn ctx : Nat) : List Nat → State → State × Option (List (Nat × Nat))
  | [], s => (s, some [])
  | v :: l, s =>
    match xlateUnit .shardRead baseDie fn ctx (v * 4096) s with
    | (s, .ok pa _ _) =>
      if !(regionOf pa).local then (s, none)
      else
        match mapPages fn ctx l s with
        | (s, some m) => (s, some ((v, pa / 4096) :: m))
        | r => r
    | (s, .bad _ _) => (s, none)
/-- The world that a world region names. -/
def entryWorld (fn : Nat) (e : List Byte) (s : State) : Option World := if entryKind e = 1 then s.world? fn (entryObj e) else none

/-! ### Taking a snapshot (R355) -/

/-- Fields of SNAPCTL that software writes. -/
def snapKept (v : Nat) : Nat := Nat.land v 0x03FF0FFF
/-- SNAPCTL_GO: a write of SNAPCTL: a snapshot is armed at the next cut, or refused while an earlier one streams (R355). -/
def execSnapctlGo (fn : Nat) (v : Word) (s : State) : Out State :=
  if 16 < fn then .fault .notPending
  else
    let cur := (s.reg fn false 0x818).toNat
    let kept := snapKept v.toNat
    if !v.getLsbD 31 then done (s.setReg fn false 0x818 (BitVec.ofNat 64 (kept + Nat.land cur 0xE0000000)))
    else
      match s.snaps.find? (fun p => p.fn == fn) with
      | some p => if p.cut.isSome then done (s.setReg fn false 0x818 (BitVec.ofNat 64 (Nat.lor cur 0x40000000))) else done s
      | none =>
        if 1 < bitsOf kept 25 24 then done (s.setReg fn false 0x818 (BitVec.ofNat 64 (kept + 2 ^ 30)))
        else
          let p : Snap := ⟨fn, kept, (s.reg fn false 0x800).toNat, (s.reg fn false 0x808).toNat, (s.reg fn false 0x810).toNat, none, none, [], [], [], [], 0, 0⟩
          done { s.setReg fn false 0x818 (BitVec.ofNat 64 (2 ^ 31 + kept)) with snaps := s.snaps ++ [p] }
/-- A snapshot ends: with DONE, or with ERR at a fault (R356). -/
def endSnap (p : Snap) (bit : Nat) (s : State) : State :=
  ({ s.setReg p.fn false 0x818 (BitVec.ofNat 64 (snapKept p.ctl + 2 ^ bit)) with snaps := s.snaps.filter (fun q => q.fn != p.fn) }).send (.msix p.fn 3)
/-- The regions as they stand at the cut, with their pages. -/
def cutRegions (fn ctx : Nat) : List (List Byte) → State → State × Option (List SnapRegion)
  | [], s => (s, some [])
  | e :: l, s =>
    let w := entryWorld fn e s
    if entryKind e = 1 && w.isNone then (s, none)
    else
      match mapPages fn ctx (regionPages e w) s with
      | (s, some m) =>
        match cutRegions fn ctx l s with
        | (s, some r) => (s, some (⟨e, m⟩ :: r))
        | r => r
      | (s, none) => (s, none)
/-- SNAPSHOT_CUT: at the cut tick every page of the regions becomes copy-on-write, and the function goes on; no other step comes between the publish or the retirement and the cut (R355). -/
def execSnapshotCut (fn : Nat) (s : State) : Out State :=
  match s.snaps.find? (fun p => p.fn == fn) with
  | none => .fault .notPending
  | some p =>
    match p.due, p.cut with
    | some ctx, none =>
      let tick := s.gtick
      match regionList fn ctx regionFuel p.list s with
      | (s, none) => done (endSnap p 30 s)
      | (s, some es) =>
        match cutRegions fn ctx es s with
        | (s, none) => done (endSnap p 30 s)
        | (s, some rs) =>
          let p' := { p with cut := some tick, regions := rs, worlds := es.filterMap (fun e => entryWorld fn e s), pages := (rs.flatMap (fun r => r.map.map (·.2))).eraseDups }
          done { s with snaps := s.snaps.map (fun q => if q.fn == fn then p' else q) }
    | _, _ => .fault .notPending
/-- Copy-on-write pages that a request writes to. -/
def Work.cowPages (w : Work) (s : State) : List Nat :=
  (w.places.filterMap (fun p => match p with | .glob _ pa _ => some (pa / 4096) | _ => none)).eraseDups.filter s.isCow
/-- COW_PAGE_COPY: the page of a held write is copied aside, and the write proceeds on the live page (R355). -/
def execCowPageCopy (req : Nat) (s : State) : Out State :=
  match s.req? req with
  | none => .fault .notPending
  | some r =>
    let pages := r.work.cowPages s
    let s' := pages.foldl (fun s p => keepPage p s) s
    let g := s.gr (s.tm r.team).grid
    if pages.isEmpty || r.ats != 0 || r.work.places.any Source.outside then .fault .notPending
    else if r.heldBack s || r.work.waitsPage g.fn g.ctx s' || r.waitsFence s || r.yields s then .fault .heldBack
    else
      match r.work with
      | .store _ parts => done (landParts r parts s')
      | .atomic th va pa _ o dst => done (takeTurn (sliceOf (pa / 128)) g.fn (performAtomic r th va pa o dst s'))
      | _ => .fault .notPending

/-! ### Streaming (R356) -/

/-- A byte of a region at the cut, and whether it is poisoned: from the page's copy where one was taken, from the live page otherwise. -/
def snapByte (p : Snap) (r : SnapRegion) (s : State) (va : Nat) : Byte × Bool :=
  match r.map.find? (fun m => m.1 == va / 4096) with
  | none => (0, false)
  | some (_, page) =>
    match p.pre.find? (fun c => c.1 == page) with
    | some (_, bs, bad) => (nth 0 bs (va % 4096), bad.contains (page * 32 + va % 4096 / 128))
    | none => (s.mem.bytes.read (page * 4096 + va % 4096), s.mem.poison.contains (page * 32 + va % 4096 / 128))
/-- Payload of a shard: a tensor's elements in row-major order, or a world's areas and then the engine's tables in the device's own format. -/
def snapPayload (p : Snap) (r : SnapRegion) (s : State) : List (Byte × Bool) :=
  if entryKind r.entry = 1 then
    match p.worlds.find? (fun w => w.id == entryObj r.entry) with
    | none => []
    | some w =>
      ((worldAreas w).flatMap (fun a => (List.range a.2).map (fun i => snapByte p r s (a.1 + i)))) ++
      (List.range 64).map (fun i => (Config.byte s.free i, false))
  else (entryElements r.entry).flatMap (fun x => (List.range (entrySize (entryType r.entry))).map (fun i => snapByte p r s ((x.2 + i) % 2 ^ 64)))
/-- A SHA3-512 digest: 64 bytes (R360). -/
def digestOf (bs : List Byte) : List Byte := ((Config.sha3 bs) ++ List.replicate 64 0).take 64
/-- A shard: header of Table 16.7 and payload. -/
structure Shard where
  head : List Byte
  payload : List Byte
  deriving DecidableEq, Repr
/-- Digest of a shard. -/
def Shard.digest (x : Shard) : List Byte := (x.head.drop 88).take 64
/-- The first 88 bytes of a shard's header. -/
def shardHead (job step : Nat) (e : List Byte) (poisoned : Bool) (n : Nat) : List Byte :=
  leBytes job 8 ++ leBytes step 8 ++ leBytes (entryKind e) 1 ++ leBytes (entryType e) 1 ++ leBytes (entryRank e) 1 ++ leBytes (if poisoned then 1 else 0) 1 ++ leBytes 0 4 ++
  leBytes (entryObj e) 8 ++ (List.range 4).flatMap (fun i => leBytes (if i < entryRank e then fieldOf e (24 + 8 * i) 8 else 0) 8) ++
  (List.range 4).flatMap (fun i => leBytes (if i < entryRank e then fieldOf e (56 + 4 * i) 4 else 0) 4) ++ leBytes n 8
/-- The shard of a region. -/
def shardOf (p : Snap) (r : SnapRegion) (s : State) : Shard :=
  let pl := snapPayload p r s
  let h := shardHead (p.job / 2 ^ 32) (p.job % 2 ^ 32) r.entry (pl.any (·.2)) pl.length
  ⟨h ++ digestOf (h ++ pl.map (·.1)) ++ List.replicate 104 0, pl.map (·.1)⟩
/-- The next 4 KiB boundary. -/
def pageUp (a : Nat) : Nat := (a + 4095) / 4096 * 4096
/-- Addresses of shards that follow one another, each on a 4 KiB boundary. -/
def shardPlaces : Nat → List Shard → List (Nat × Shard)
  | _, [] => []
  | a, x :: l => (pageUp a, x) :: shardPlaces (pageUp a + 256 + x.payload.length) l
/-- The manifest of Table 16.8. -/
def manifestOf (p : Snap) (l : List (Nat × Shard)) (complete : Nat) : List Byte :=
  leBytes (p.job / 2 ^ 32) 8 ++ leBytes (p.job % 2 ^ 32) 8 ++ leBytes l.length 4 ++ leBytes complete 4 ++ digestOf (l.flatMap (fun x => x.2.digest)) ++
  List.replicate 168 0 ++ l.flatMap (fun x => leBytes (x.1 - p.dst) 8)
/-- Writes in order; the largest Tw, none at a fault. -/
def writeAll (fn ctx : Nat) : List (Nat × List Byte) → State → State × Option Nat
  | [], s => (s, some 0)
  | (va, bs) :: l, s =>
    match shardPut fn ctx va bs s with
    | (s, .tw t) =>
      match writeAll fn ctx l s with
      | (s, some u) => (s, some (max t u))
      | r => r
    | (s, .bad _ _ _) => (s, none)
/-- A snapshot moves to its next stage. -/
def nextStage (p : Snap) (stage target : Nat) (s : State) : State :=
  { s with snaps := s.snaps.map (fun q => if q.fn == p.fn then { q with stage := stage, target := target } else q) }
/-- SNAPSHOT_STREAM_DONE: the shards and the manifest are written with COMPLETE = 0; after a release COMPLETE = 1; after a second release DONE (R356). -/
def execSnapshotStreamDone (fn : Nat) (s : State) : Out State :=
  match s.snaps.find? (fun p => p.fn == fn) with
  | none => .fault .notPending
  | some p =>
    match p.due, p.cut with
    | some ctx, some _ =>
      if s.gtick < p.target then .fault .notPending
      else if p.stage = 0 then
        let l := shardPlaces (p.dst + 256 + 8 * p.regions.length) (p.regions.map (fun r => shardOf p r s))
        let kept := (p.regions.zip l).filterMap (fun (x : SnapRegion × Nat × Shard) =>
          (p.worlds.find? (fun w => entryKind x.1.entry == 1 && w.id == entryObj x.1.entry)).map (fun w => (x.2.2.digest, w)))
        let s := { s with free := s.free + 1, kept := kept ++ s.kept }
        match writeAll fn ctx (l.map (fun x => (x.1, x.2.head ++ x.2.payload)) ++ [(p.dst, manifestOf p l 0)]) s with
        | (s, some t) => unitDone (nextStage p 1 t s)
        | (s, none) => unitDone (endSnap p 30 s)
      else if p.stage = 1 then
        match shardPut fn ctx (p.dst + 20) (leBytes 1 4) s with
        | (s, .tw t) => unitDone (nextStage p 2 t s)
        | (s, .bad _ _ _) => unitDone (endSnap p 30 s)
      else done (endSnap p 29 s)
    | _, _ => .fault .notPending

/-! ### Restores (R357) -/

/-- A manifest with the shards it names; a shard that cannot be read is none. -/
structure Manifest where
  head : List Byte
  shards : List (Option Shard)
  deriving DecidableEq, Repr
/-- STEP of a manifest or shard header. -/
def stepOf (h : List Byte) : Nat := fieldOf h 8 8
/-- Reads of a shard. -/
def readShard (fn ctx va : Nat) (s : State) : State × Option Shard :=
  match shardGet fn ctx va 256 s with
  | (s, .bytes h false) =>
    match shardGet fn ctx (va + 256) (fieldOf h 80 8) s with
    | (s, .bytes b false) => (s, some ⟨h, b⟩)
    | (s, _) => (s, none)
  | (s, _) => (s, none)
/-- Reads of the shards whose offsets stand in a manifest. -/
def readShards (fn ctx base : Nat) : List Nat → State → State × List (Option Shard)
  | [], s => (s, [])
  | o :: l, s =>
    let (s, x) := readShard fn ctx (base + o) s
    let (s, r) := readShards fn ctx base l s
    (s, x :: r)
/-- Reads of a manifest. -/
def readManifest (fn ctx va : Nat) (s : State) : State × Option Manifest :=
  match shardGet fn ctx va 256 s with
  | (s, .bytes h false) =>
    match shardGet fn ctx (va + 256) (8 * fieldOf h 16 4) s with
    | (s, .bytes o false) =>
      let (s, l) := readShards fn ctx va ((List.range (fieldOf h 16 4)).map (fun i => fieldOf o (8 * i) 8)) s
      (s, some ⟨h, l⟩)
    | (s, _) => (s, none)
  | (s, _) => (s, none)
/-- The manifests that RESTSRC names; one that cannot be read is left out. -/
def readManifests (fn ctx src : Nat) : Nat → State → State × List Manifest
  | 0, s => (s, [])
  | n + 1, s =>
    let (s, l) := readManifests fn ctx src n s
    match shardGet fn ctx (src + 8 * n) 8 s with
    | (s, .bytes b false) =>
      match readManifest fn ctx (leNat b) s with
      | (s, some m) => (s, l ++ [m])
      | (s, none) => (s, l)
    | (s, _) => (s, l)
/-- A shard's digest verifies. -/
def Shard.verified (x : Shard) : Bool := x.digest == digestOf (x.head.take 88 ++ x.payload)
/-- Some shard carries another step (R357 item 2). -/
def Manifest.mixed (m : Manifest) : Bool := m.shards.any (fun x => match x with | some x => stepOf x.head != stepOf m.head | none => false)
/-- The manifest is usable (R357 item 2). -/
def Manifest.usable (m : Manifest) : Bool :=
  fieldOf m.head 20 4 == 1 &&
  m.shards.all (fun x => match x with | some x => x.verified && stepOf x.head == stepOf m.head && fieldOf x.head 0 8 == fieldOf m.head 0 8 | none => false) &&
  (m.head.drop 24).take 64 == digestOf (m.shards.flatMap (fun x => match x with | some x => x.digest | none => []))
/-- The newest usable step among steps in descending order, and whether a mixed one was passed over. -/
def pickStep (ms : List Manifest) : List Nat → Bool → Option (Nat × Bool)
  | [], _ => none
  | t :: l, mixed =>
    let mine := ms.filter (fun m => stepOf m.head == t)
    if mine.all Manifest.usable then some (t, mixed) else pickStep ms l (mixed || mine.any Manifest.mixed)
/-- Steps of some manifests in descending order. -/
def stepsOf (ms : List Manifest) : List Nat := (sortBy id ((ms.map (fun m => stepOf m.head)).eraseDups)).reverse
/-- Row-major place of a global index in a shard; none where the shard does not contain it. -/
def placeIn (h : List Byte) : List Nat → Nat → Nat → Option Nat
  | [], _, acc => some acc
  | g :: l, k, acc =>
    let o := fieldOf h (32 + 8 * k) 8
    let n := fieldOf h (64 + 4 * k) 4
    if o ≤ g ∧ g < o + n then placeIn h l (k + 1) (acc * n + (g - o)) else none
/-- Writes that a tensor region takes from the shards; none where an index is covered by no shard (R357 items 3 and 4). -/
def tensorWrites (shards : List Shard) (size : Nat) : List (List Nat × Nat) → Option (List (Nat × List Byte))
  | [] => some []
  | (g, va) :: l =>
    match shards.findSome? (fun x => if fieldOf x.head 18 1 == g.length then (placeIn x.head g 0 0).map (fun i => (x.payload.drop (i * size)).take size) else none), tensorWrites shards size l with
    | some bs, some r => some ((va, bs) :: r)
    | _, _ => none
/-- The tables that a world shard of another device holds, in the format it gave them. -/
opaque foreignTables : List Byte → List Tables
/-- The world that a world shard holds, on the target's descriptor. -/
def restoredWorld (w : World) (x : Shard) (s : State) : World :=
  match s.kept.find? (fun k => k.1 == x.digest) with
  | some (_, k) =>
    { k with fn := w.fn, id := w.id, desc := w.desc, tables := k.tables.filter (fun (t : Tables) => t.gen == k.cur) |>.map (fun (t : Tables) => { t with views := 0 }),
             viewTeams := [], keyReq := [], taken := [], todo := [], next := none, pubAt := none, stopped := false, lost := false }
  | none =>
    match foreignTables x.payload with
    | [] => { w with tables := [], edits := [] }
    | t :: l => { w with tables := { t with views := 0 } :: l, cur := t.gen, edits := [] }
/-- The areas of a restored world, filled from a payload in their order. -/
def areaWrites : List (Nat × Nat) → List Byte → List (Nat × List Byte)
  | [], _ => []
  | a :: l, bs => (a.1, bs.take a.2) :: areaWrites l (bs.drop a.2)
/-- What a restore writes for one region: bytes, and a world; none under STATUS 3 (R357 item 4). -/
def regionWrites (fn : Nat) (shards : List Shard) (e : List Byte) (s : State) : Option (List (Nat × List Byte) × List World) :=
  let mine := shards.filter (fun x => fieldOf x.head 16 1 == entryKind e && fieldOf x.head 24 8 == entryObj e)
  if entryKind e = 1 then
    match s.world? fn (entryObj e), mine with
    | some w, x :: _ => if worldIdle w s then let r := restoredWorld w x s; some (areaWrites (worldAreas r) x.payload, [r]) else none
    | _, _ => none
  else if mine.any (fun x => fieldOf x.head 17 1 != entryType e) then none
  else (tensorWrites mine (entrySize (entryType e)) (entryElements e)).map (fun l => (l, []))
/-- What a restore writes for all its regions. -/
def allWrites (fn : Nat) (shards : List Shard) : List (List Byte) → State → Option (List (Nat × List Byte) × List World)
  | [], _ => some ([], [])
  | e :: l, s =>
    match regionWrites fn shards e s, allWrites fn shards l s with
    | some a, some b => some (a.1 ++ b.1, a.2 ++ b.2)
    | _, _ => none
/-- Every write of a restore translates. -/
def writable (fn ctx : Nat) (l : List (Nat × List Byte)) (s : State) : Bool :=
  l.all (fun w => w.2.isEmpty || [w.1, w.1 + w.2.length - 1].all (fun va => match xlate .shardWrite baseDie fn ctx va s with | (_, .ok pa _ _) => (regionOf pa).local | _ => false))
/-- A restore ends with DONE and its STATUS (R357). -/
def endRestore (fn kept status : Nat) (s : State) : State :=
  (s.setReg fn false 0x890 (BitVec.ofNat 64 (2 ^ 29 + status * 2 ^ 24 + kept))).send (.msix fn 3)
/-- The loader's work in a context (R357). -/
def restore (fn ctx kept : Nat) (s : State) : State :=
  let (s, ms) := readManifests fn ctx (s.reg fn false 0x888).toNat kept s
  match pickStep ms (stepsOf ms) false with
  | none => endRestore fn kept 2 s
  | some (step, mixed) =>
    let shards := (ms.filter (fun m => stepOf m.head == step)).flatMap (fun m => m.shards.filterMap id)
    match regionList fn ctx regionFuel (s.reg fn false 0x880).toNat s with
    | (s, none) => endRestore fn kept 3 s
    | (s, some es) =>
      match allWrites fn shards es s with
      | none => endRestore fn kept 3 s
      | some (ws, worlds) =>
        if !writable fn ctx ws s then endRestore fn kept 3 s
        else
          match writeAll fn ctx ws s with
          | (s, none) => endRestore fn kept 3 s
          | (s, some t) =>
            let s := worlds.foldl (fun s w => writeControl w.fn w.id (s.setWorld w)) { s with gtick := max s.gtick t }
            endRestore fn kept (if mixed then 1 else 0) (s.setReg fn false 0x898 (BitVec.ofNat 64 step))
/-- RESTCTL_GO: a write of RESTCTL: the newest usable step is loaded into the regions (R357). -/
def execRestctlGo (fn : Nat) (v : Word) (s : State) : Out State :=
  let kept := bitsOf v.toNat 23 0
  if 16 < fn then .fault .notPending
  else if !v.getLsbD 31 then done (s.setReg fn false 0x890 (BitVec.ofNat 64 (kept + Nat.land (s.reg fn false 0x890).toNat 0x2F000000)))
  else
    match lowestContext fn s with
    | none => done (endRestore fn kept 2 s)
    | some ctx => unitDone (restore fn ctx kept s)

end Sys2Proof.Machine
end

