-- ==== Sys2Proof/Machine/Registers.lean ====
section
/-! DEFINITION. Device registers: performance counters, attestation, firmware, encoders, every register write without a row of its own, and reset (spec/00_scope.md R7; spec/16_partitions_decks_and_system.md R349, R351, R358 to R361). -/
namespace Sys2Proof.Machine

/-! ### What registers read as -/

/-- CLOWN c (Table 16.1). -/
def clownWord (c : Cluster) : Nat :=
  (if c.v then 2 ^ 31 else 0) + (if c.margin then 2 ^ 30 else 0) + (if c.auto then 2 ^ 29 else 0) + c.owner % 32 * 2 ^ 24 +
  (if c.cstate == 1 then c.borrower % 32 * 2 ^ 19 else 0) + c.cstate % 4 * 2 ^ 17
/-- L2OCC_DATA for a selection (Table 3.4). -/
def occupancy (sel : Nat) (s : State) : Nat :=
  if 16 < bitsOf sel 20 16 then 0xFFFFFFFF
  else (s.mem.l2.filter (fun l => l.fn == bitsOf sel 20 16 && sliceOf l.line / 12 == bitsOf sel 7 0)).length
/-- L2FH_DATA for a selection (Table 3.5). -/
def fillHistory (sel : Nat) (s : State) : Nat := if 3072 ≤ bitsOf sel 11 0 then 0xFFFFFFFF else s.historyOf (bitsOf sel 11 0) (bitsOf sel 27 24)
/-- A device register as software reads it: most are held, some show other state (R33, R57, R58, R306, R344, R350, R352, R354). What a read changes, clearStretches and execAccdataRead say. -/
def State.present (s : State) (fn : Nat) (priv : Bool) (off : Nat) : Dword :=
  let held := s.reg fn priv off
  if priv then
    if off == 0x1104 then BitVec.ofNat 64 (occupancy (s.reg 0 true 0x1100).toNat s)
    else if off == 0x110C then BitVec.ofNat 64 (fillHistory (s.reg 0 true 0x1108).toNat s)
    else if 0x1300 ≤ off ∧ off < 0x1500 ∧ off % 4 = 0 then BitVec.ofNat 64 (clownWord (s.cluster ((off - 0x1300) / 4)))
    else if off == 0x1808 then BitVec.ofNat 64 (topoWord s)
    else if 0x1B00 ≤ off ∧ off < 0x1B20 ∧ off % 4 = 0 then BitVec.ofNat 64 ((s.clockOf ((off - 0x1B00) / 4)).stretches * 2 ^ 16 + s.mhz ((off - 0x1B00) / 4))
    else if 0x1C00 ≤ off ∧ off ≤ 0x1C80 ∧ off % 8 = 0 then BitVec.ofNat 64 (s.stolenOf ((off - 0x1C00) / 8))
    else if 0x4000 ≤ off ∧ off < 0x5000 then BitVec.ofNat 64 (lookupD 0 s.qown (off - 0x4000))
    else held
  else if 0x8000 ≤ off ∧ off < 0x18000 ∧ off % 8 = 0 then
    let q := (off - 0x8000) / 16
    if lookupD 0 s.qown q != fn then 0 else if off % 16 = 0 then (s.queue q).qdesc &&& 0xFFFFFFFFFFFFFFC1 else BitVec.ofNat 64 (s.queue q).tail
  else held
/-- A read of PWRSTAT d: the stretch events are counted afresh from it on (R354). -/
def clearStretches (d : Nat) (s : State) : State := s.setClock { s.clockOf d with stretches := 0 }
/-- Software reads a register: its value, and the state the read leaves (R354). The opcode table has no row for it, so it is no step (notes/assumptions 47). -/
def readRegister (fn : Nat) (priv : Bool) (off : Nat) (s : State) : State × Dword :=
  (if priv && decide (0x1B00 ≤ off ∧ off < 0x1B20 ∧ off % 4 = 0) then clearStretches ((off - 0x1B00) / 4) s else s, s.present fn priv off)

/-! ### Performance counters (R351) -/

/-- PERFSEL_WRITE: the event is selected and the counter cleared (R351). -/
def execPerfselWrite (fn n : Nat) (v : Dword) (s : State) : Out State :=
  if 16 < fn || 8 ≤ n then .fault .notPending
  else done ((s.setReg fn false (0x900 + 8 * n) (BitVec.ofNat 64 (v.toNat % 256))).setReg fn false (0x980 + 8 * n) 0)
/-- PERFCNT_WRITE: the counter takes the value (R351). -/
def execPerfcntWrite (fn n : Nat) (v : Dword) (s : State) : Out State :=
  if 16 < fn || 8 ≤ n then .fault .notPending else done (s.setReg fn false (0x980 + 8 * n) v)

/-! ### Attestation and firmware (R360) -/

/-- A function's configuration as the report digests it: CLOWN entries it owns or borrows, L2WAYMASK, FLOOR, TENANT, ENCOWN entries it owns. -/
def configBytes (fn : Nat) (s : State) : List Byte :=
  ((List.range 128).flatMap (fun c =>
    let x := s.cluster c
    if x.v && (x.owner == fn || (x.cstate == 1 && x.borrower == fn)) then leBytes (clownWord x) 4 else [])) ++
  leBytes (s.reg 0 true (0x1000 + 4 * fn)).toNat 4 ++ leBytes (s.reg 0 true (0x1600 + 8 * fn)).toNat 8 ++ leBytes (s.reg 0 true (0x1A00 + 8 * fn)).toNat 8 ++
  (List.range 8).flatMap (fun e =>
    let w := (s.reg 0 true (0x1900 + 4 * e)).toNat
    if w.testBit 31 && bitsOf w 28 24 == fn then leBytes w 4 else [])
/-- Bytes brought to a length. -/
def fit (n : Nat) (bs : List Byte) : List Byte := (bs ++ List.replicate n 0).take n
/-- The report of Table 16.10. -/
def report (fn : Nat) (nonce : List Byte) (s : State) : List Byte :=
  let b := fit 64 nonce ++ fit 64 s.firmware.1 ++ digestOf (configBytes fn s) ++ leBytes fn 4 ++ leBytes s.topo.1 4 ++ List.replicate 56 0
  b ++ fit 4627 (Config.sign b) ++ List.replicate 45 0
/-- ATTREQ_WRITE: the signed report is written into the buffer, and ATTSTAT says so (R360). -/
def execAttreqWrite (fn : Nat) (v : Dword) (s : State) : Out State :=
  if 16 < fn then .fault .notPending
  else
    let s := s.setReg fn false 0xA00 v
    let fail (s : State) : Out State := done (s.setReg fn false 0xA08 0xC0000000)
    match lowestContext fn s with
    | none => fail s
    | some ctx =>
      if v.toNat % 64 != 0 then fail s
      else
        match readVa baseDie fn ctx v.toNat 64 s with
        | (s, .bytes nonce false) =>
          match writeVa baseDie fn ctx v.toNat (report fn nonce s) s with
          | (s, .tw _) => unitDone (s.setReg fn false 0xA08 0x80000000)
          | (s, .bad _ _ _) => fail s
        | (s, _) => fail s
/-- FIRMWARE_IMAGE_LOAD: an image runs only with a good signature and a rollback counter not below the fused one (R360). -/
def execFirmwareImageLoad (image : List Byte) (rollback : Nat) (sig : List Byte) (s : State) : Out State :=
  let digest := digestOf image
  if Config.verify digest sig && decide (s.firmware.2 ≤ rollback) then done { s with firmware := (digest, s.firmware.2) } else done s

/-! ### Video encoders (R361) -/

/-- The ring's tail. -/
def State.encTail (s : State) (e : Nat) : Nat := match s.encOwner e with | some f => (s.reg f false (0xB08 + 16 * e)).toNat | none => 0
/-- The encoder has a job in hand. -/
def State.encBusy (s : State) (e : Nat) : Bool := (s.encOwner e).isSome && s.encTail e != (s.encoder e).head
/-- ENCOWN_WRITE: the encoder is assigned and scrubbed; a change of V or OWNER while a job is in hand is ignored (R361). DESIGN CHOICE (notes/assumptions 48): a job in hand whose context alone changes starts afresh, since the scrub leaves nothing of it. -/
def execEncownWrite (e : Nat) (v : Word) (s : State) : Out State :=
  let new := Nat.land v.toNat 0x9F000FFF
  if 8 ≤ e then .fault .notPending
  else if s.encBusy e && Nat.land (s.encOwn e) 0x9F000000 != Nat.land new 0x9F000000 then done s
  else
    let busy := s.encBusy e
    let s := s.setReg 0 true (0x1900 + 4 * e) (BitVec.ofNat 64 new)
    done (s.setEncoder ⟨e, if busy then (s.encoder e).head else s.encTail e, false, if busy then s.viewOf (bitsOf new 28 24) else 0, none⟩)
/-- ENCDOOR_WRITE: the owner sets the tail (R361). -/
def execEncdoorWrite (fn e : Nat) (v : Dword) (s : State) : Out State :=
  if 16 < fn || 8 ≤ e then .fault .notPending
  else if s.encOwner e != some fn then done s
  else
    let busy := s.encBusy e
    let s := s.setReg fn false (0xB08 + 16 * e) (BitVec.ofNat 64 (v.toNat % 2 ^ 32))
    done (if busy then s else s.setEncoder { s.encoder e with start := s.viewOf fn })
/-- A job entry that fails its job: a codec that is not there, or a field out of its range (Table 16.12). -/
def jobBad (b : List Byte) : Bool :=
  let w := fieldOf b 4 2
  let h := fieldOf b 6 2
  decide (1 < fieldOf b 0 1) || decide (1 < fieldOf b 1 1) || decide ((if fieldOf b 0 1 = 0 then 255 else 51) < fieldOf b 2 2) ||
  w == 0 || h == 0 || decide (7680 < w) || decide (4320 < h) || w % 8 != 0 || h % 8 != 0
/-- What a job writes: its bitstream, none where it fails (R361). The bitstream is the encoder's own, for these inputs and its reference frames. -/
def encodeJob (fn ctx : Nat) (b : List Byte) (s : State) : State × Option (List Byte) :=
  if jobBad b then (s, none)
  else
    match readVa baseDie fn ctx (fieldOf b 8 8) (3 * fieldOf b 4 2 * fieldOf b 6 2) s with
    | (s, .bytes frame false) =>
      let out := Config.encode (b ++ frame ++ leBytes s.free 8)
      ({ s with free := s.free + 1 }, if fieldOf b 24 4 < out.length then none else some out)
    | (s, _) => (s, none)
/-- The job is over: the next one starts. -/
def nextJob (fn e : Nat) (s : State) : State :=
  let x := s.encoder e
  (s.setEncoder { x with head := (x.head + 1) % 2 ^ 32, paused := false, start := s.viewOf fn, post := none }).send (.msix fn 4)
/-- Entries of an encoder's ring. -/
def encRing (fn e : Nat) (s : State) : Nat × Nat :=
  let r := (s.reg fn false (0xB00 + 16 * e)).toNat
  (bitsOf r 63 6 * 64, 2 ^ (bitsOf r 3 0 + 4))
/-- The job's bitstream, time stamp and result are written; a failing job writes only its result (R361). -/
def writeJob (fn e ctx at' : Nat) (b : List Byte) (s : State) : Out State :=
  let x := s.encoder e
  let (s, out) := encodeJob fn ctx b s
  let failed (s : State) : Out State :=
    let (s, _) := writeVa baseDie fn ctx (fieldOf b 40 8) (leBytes (2 ^ 63) 8) s
    unitDone (nextJob fn e s)
  match out with
  | none => failed s
  | some o =>
    match writeVa baseDie fn ctx (fieldOf b 16 8) o s with
    | (s, .bad _ _ _) => failed s
    | (s, .tw t) =>
      let (s, v) := writePhys fn (at' + 48) (leBytes x.start 8) s
      match writeVa baseDie fn ctx (fieldOf b 40 8) (leBytes o.length 8) s with
      | (s, .bad _ _ _) => unitDone (nextJob fn e s)
      | (s, .tw u) => unitDone (s.setEncoder { x with post := some (max t (max u v)) })
/-- ENCODER_JOB_COMPLETE: bitstream and result, a release of system scope, and then the counter's increment; none while the owner is descheduled (R361). -/
def execEncoderJobComplete (e : Nat) (s : State) : Out State :=
  match s.encOwner e with
  | none => .fault .notPending
  | some fn =>
    let x := s.encoder e
    if 8 ≤ e || !s.encBusy e then .fault .notPending
    else if s.halted.any (fun h => h.1 == fn) then .fault .heldBack
    else
      let ctx := bitsOf (s.encOwn e) 11 0
      let ring := encRing fn e s
      let at' := ring.1 + 64 * (x.head % ring.2)
      match readPhys fn at' 64 s with
      | (s, none) => done (nextJob fn e s)
      | (s, some b) =>
        match x.post with
        | none => writeJob fn e ctx at' b s
        | some t =>
          if s.gtick < t then .fault .notPending
          else unitDone (nextJob fn e (addVa baseDie fn ctx (fieldOf b 32 8) 1 s).1)
/-- ENCODER_PAUSE: at a row of 64 luma lines, while the owner is descheduled (R361). -/
def execEncoderPause (e : Nat) (s : State) : Out State :=
  let x := s.encoder e
  match s.encOwner e with
  | none => .fault .notPending
  | some fn =>
    if 8 ≤ e || !s.encBusy e || x.paused || !s.halted.any (fun h => h.1 == fn) then .fault .notPending
    else done (s.setEncoder { x with paused := true })

/-! ### Register writes without a row of their own (R7, R358) -/

/-- Writable bits of a held register of a function's page; none where the register is not one (Table 15.5 and the chapters' own tables). -/
def pageMask (off : Nat) : Option Nat :=
  if off == 0x448 then some 0xFFFFFFFFFF000
  else if off == 0x400 || off == 0x440 || off == 0x688 || off == 0x700 || off == 0x800 || off == 0x808 || off == 0x810 || off == 0x880 || off == 0x888 then some 0xFFFFFFFFFFFFFFFF
  else if off == 0x500 then some 0xFFFFFFFFFFFC0
  else if off == 0x684 then some 0xFFFFFFFF
  else if 0x600 ≤ off ∧ off < 0x680 ∧ off % 16 = 0 then some 0xFFFFFFFFFFFFFFFD
  else if 0x600 ≤ off ∧ off < 0x680 ∧ off % 16 = 8 then some 0x80000FFF
  else none
/-- Writable bits of a held register of the privileged page. -/
def privMask (off : Nat) : Option Nat :=
  if 0x1000 ≤ off ∧ off ≤ 0x1040 ∧ off % 4 = 0 then some 0xFFFF
  else if off == 0x1100 then some 0x1F00FF
  else if off == 0x1108 then some 0x0F000FFF
  else if off == 0x1810 then some 0xFFFFFFFFFFFFFFFF
  else if off == 0x1818 then some 0xFFFFFFFF
  else if 0x1A00 ≤ off ∧ off ≤ 0x1A80 ∧ off % 8 = 0 then some 0xFFFFFFFFFFFFFFFF
  else if 0x1D00 ≤ off ∧ off ≤ 0x1D40 ∧ off % 4 = 0 then some 1
  else if off == 0x1E10 then some 0x83FFFFFF
  else none
/-- A held register takes its writable bits; any other is left alone. -/
def writeHeld (fn : Nat) (priv : Bool) (off : Nat) (mask : Option Nat) (v : Dword) (s : State) : Out State :=
  match mask with
  | some m => done (s.setReg fn priv off (BitVec.ofNat 64 (Nat.land v.toNat m)))
  | none => done s
/-- FSVC_CTL: with GO the request is made (Table 15.7). -/
def writeFsvc (fn : Nat) (v : Word) (s : State) : Out State :=
  let a := bitsOf v.toNat 1 0
  if v.getLsbD 31 then done (fsvc fn a s) else done (s.setReg fn false 0x508 (BitVec.ofNat 64 a))
/-- DBGCMD: with GO the command is given; an operation that is none sets ERR (Table 15.10). -/
def writeDbgcmd (fn : Nat) (v : Word) (s : State) : Out State :=
  let op := bitsOf v.toNat 30 28
  if (s.reg fn false 0x680).getLsbD 31 then done s
  else if !v.getLsbD 31 then done (s.setReg fn false 0x680 (BitVec.ofNat 64 (Nat.land v.toNat 0x70FFF000)))
  else
    if op = 1 then execDbgRelease fn v s
    else if op = 2 then execDbgStep fn v s
    else if op = 3 then execDbgHalt fn v s
    else if op = 4 then execDbgSave fn v s
    else done (dbgDone fn op v true s)
/-- PCMD: with GO the command is given; OP 3 sets ERR (Table 16.2). -/
def writePcmd (v : Word) (s : State) : Out State :=
  let kept := pcmdKept v
  if (s.reg 0 true 0x1500).getLsbD 31 then done s
  else if !v.getLsbD 31 then done (s.setReg 0 true 0x1500 (BitVec.ofNat 64 (kept + Nat.land (s.reg 0 true 0x1500).toNat 0x40000000)))
  else
    match bitsOf v.toNat 29 28 with
    | 0 => execPcmdAssign v s
    | 1 => execPcmdLend v s
    | 2 => execPcmdRevoke v s
    | _ => done (s.setReg 0 true 0x1500 (BitVec.ofNat 64 (kept + 2 ^ 30)))
/-- VFSCHED: with GO the function runs or is descheduled (R349). -/
def writeVfsched (v : Word) (s : State) : Out State :=
  if !v.getLsbD 31 then done (s.setReg 0 true 0x1700 (BitVec.ofNat 64 (Nat.land v.toNat 0x11F + Nat.land (s.reg 0 true 0x1700).toNat 0x40000000)))
  else if v.getLsbD 8 then execVfschedRun v s else execVfschedDeschedule v s
/-- A write to a function's register page. -/
def writePage (fn off : Nat) (v : Dword) (s : State) : Out State :=
  let w := lowWord v
  if off = 0x408 then execXinvGo fn w s
  else if off = 0x450 then execMigrate fn w s
  else if off = 0x508 then writeFsvc fn w s
  else if off = 0x680 then writeDbgcmd fn w s
  else if off = 0x818 then execSnapctlGo fn w s
  else if off = 0x890 then execRestctlGo fn w s
  else if off = 0xA00 then execAttreqWrite fn v s
  else if 0x900 ≤ off ∧ off < 0x940 ∧ off % 8 = 0 then execPerfselWrite fn ((off - 0x900) / 8) v s
  else if 0x980 ≤ off ∧ off < 0x9C0 ∧ off % 8 = 0 then execPerfcntWrite fn ((off - 0x980) / 8) v s
  else if 0xB00 ≤ off ∧ off < 0xB80 ∧ off % 16 = 0 then
    (if s.encOwner ((off - 0xB00) / 16) == some fn then done (s.setReg fn false off (v &&& 0xFFFFFFFFFFFFFFCF)) else done s)
  else if 0xB00 ≤ off ∧ off < 0xB80 ∧ off % 16 = 8 then execEncdoorWrite fn ((off - 0xB00) / 16) v s
  else if 0x2000 ≤ off ∧ off < 0x3000 ∧ off % 16 = 0 then
    (if v.getLsbD 0 then execWdescBind fn ((off - 0x2000) / 16) v s else execWdescUnbind fn ((off - 0x2000) / 16) v s)
  else if 0x2000 ≤ off ∧ off < 0x3000 ∧ off % 16 = 8 then (if v.getLsbD 31 then execWstatResume fn ((off - 0x2000) / 16) s else done s)
  else if 0x8000 ≤ off ∧ off < 0x18000 ∧ off % 16 = 0 then execQdescWrite fn ((off - 0x8000) / 16) v s
  else if 0x8000 ≤ off ∧ off < 0x18000 ∧ off % 16 = 8 then execQdoorWrite fn ((off - 0x8000) / 16) v s
  else writeHeld fn false off (pageMask off) v s
/-- A write to the privileged register page. -/
def writePriv (off : Nat) (v : Dword) (s : State) : Out State :=
  let w := lowWord v
  if off = 0x1110 then execL2scrubGo w s
  else if off = 0x1114 then done (if v.getLsbD 31 then s.setReg 0 true 0x1114 (s.reg 0 true 0x1114 &&& 0x7FFFFFFF) else s)
  else if off = 0x1200 then execVfkill w s
  else if off = 0x1500 then writePcmd w s
  else if 0x1600 ≤ off ∧ off ≤ 0x1680 ∧ off % 8 = 0 then execFloorWrite ((off - 0x1600) / 8) v s
  else if off = 0x1700 then writeVfsched w s
  else if off = 0x1800 then execDeckroleGo w s
  else if 0x1900 ≤ off ∧ off < 0x1920 ∧ off % 4 = 0 then execEncownWrite ((off - 0x1900) / 4) w s
  else if off = 0x1E00 then execGrantabWrite v s
  else if off = 0x1E08 then execGrantcmdGo v s
  else if 0x4000 ≤ off ∧ off < 0x5000 then done { s with qown := insertKey s.qown (off - 0x4000) (v.toNat % 256) }
  else writeHeld 0 true off (privMask off) v s
/-- REGISTER_WRITE: a write to a device register; reserved fields, read-only fields and offsets that name no register are left alone (R7). The privileged page is the physical function's (R358). -/
def execRegisterWrite (fn : Nat) (priv : Bool) (off : Nat) (v : Dword) (s : State) : Out State :=
  if 16 < fn || (priv && fn != 0) then .fault .notPending
  else if priv then writePriv off v s else writePage fn off v s

/-! ### Reset (R349, R352) -/

/-- DEVICE_RESET: registers take their reset values, every function runs, the eviction horizons are 0, and the service controller sets the deck roles. What memory holds stays, and so does the firmware that runs (notes/assumptions 70). -/
def execDeviceReset (s : State) : Out State :=
  done { State.reset with
    mem := { Mem.reset with bytes := s.mem.bytes, poison := s.mem.poison }
    firmware := s.firmware, kept := s.kept, free := s.free, nextId := s.nextId }

end Sys2Proof.Machine
end

