-- ==== Sys2Proof/Machine/Sched.lean ====
section
/-! DEFINITION. Time, issue grants, the fetch of the next instruction, and the device's own steps (spec/00_scope.md R3; spec/07_execution_model.md R144 to R150, R159; spec/02_address_spaces.md R21; spec/09_encoding_and_opcode_map.md R179, R190, R191, R195). -/
namespace Sys2Proof.Machine

/-- GTICK_ADVANCE: one tick of 1 ns passes (R3). -/
def execGtickAdvance (s : State) : Out State := done { s with gtick := s.gtick + 1 }

/-! ### Issue grants (R144 to R147) -/

/-- READY threads of a core's active context. -/
def readyOn (core : Nat) (s : State) : List Thread := (bankThreads core (s.core core).active s).filter s.mayIssue
/-- Rank by which the seed among aged threads is chosen: the largest age, then the lower team slot, then the lower TID (R146). -/
def agedRank (s : State) (t : Thread) : Nat := (4095 - t.age) * 2 ^ 24 + (s.tm t.team).slot * 2 ^ 12 + t.tid
/-- Resident teams of the active bank in ascending slot order after the pointer (R146). -/
def teamsAfter (core : Nat) (s : State) : List Team :=
  let c := s.core core
  let l := sortBy Team.slot ((residents core s).filter (fun (t : Team) => t.bank == c.active))
  l.filter (fun t => decide (c.pointer < t.slot)) ++ l.filter (fun t => decide (t.slot ≤ c.pointer))
/-- The seed that a team offers: its lowest-TID ready thread at its frontier, the lowest PC of its READY or ISSUING threads (R146). -/
def frontierSeed (s : State) (tm : Team) : Option Thread :=
  let l := (s.threadsOf tm.uid).filter (fun t => s.mayIssue t || t.phase == .issuing)
  match (l.map (fun t => t.pc.toNat)).min? with
  | none => none
  | some pc => (sortBy Thread.tid (l.filter (fun t => s.mayIssue t && t.pc.toNat == pc))).head?
/-- The seed of a grant, and the team the pointer moves to where it moves (R146). -/
def seedOf (core : Nat) (s : State) : Option (Thread × Option Nat) :=
  match (sortBy (agedRank s) ((readyOn core s).filter (fun t => decide (1024 ≤ t.age)))).head? with
  | some t => some (t, none)
  | none => ((teamsAfter core s).findSome? (frontierSeed s)).map (fun t => (t, some (s.tm t.team).slot))
/-- Rank among a lane's candidates: aged first, oldest first; then the seed's team; then the lowest team slot; then the lowest slot (R146). -/
def memberRank (s : State) (seed t : Thread) : Nat :=
  (if 1024 ≤ t.age then 4095 - t.age else 4096) * 2 ^ 20 + (if t.team == seed.team then 0 else 2 ^ 19) + (s.tm t.team).slot * 64 + t.slot
/-- The wave around a seed: at most one thread of every lane (R144, R146). -/
def membersOf (core : Nat) (seed : Thread) (s : State) : List Nat :=
  let l := (readyOn core s).filter (fun t => t.pc == seed.pc && (s.gridOf t.uid).entry == (s.gridOf seed.uid).entry)
  (List.range 32).filterMap (fun lane =>
    if lane == seed.lane then some seed.uid
    else ((sortBy (memberRank s seed) (l.filter (fun t => t.lane == lane))).head?).map Thread.uid)
/-- ISSUE_GRANT: a free slot is granted; slot 1 only while slot 0 is taken (R146, R147). -/
def execIssueGrant (core slot : Nat) (s : State) : Out State :=
  let taken (k : Nat) : Bool := s.waves.any (fun w => w.core == core && w.slot == k)
  if 512 ≤ core || 2 ≤ slot || taken slot || (slot == 1 && !taken 0) || s.gtick < (s.core core).switchUntil then .fault .notPending
  else
    match seedOf core s with
    | none => .fault .notPending
    | some (seed, ptr) =>
      let us := membersOf core seed s
      let others := ((readyOn core s).map Thread.uid).filter (fun u => !us.contains u)
      let s := s.count (s.gridOf seed.uid).fn 2 1
      let s := match ptr with | some p => s.setCore { s.core core with pointer := p } | none => s
      done { s with
        threads := s.threads.map (fun (t : Thread) =>
          if us.contains t.uid then { t with phase := .issuing, age := 0 }
          else if others.contains t.uid then { t with age := min 4095 (t.age + 1) } else t)
        waves := s.waves ++ [⟨core, slot, us, 0⟩] }

/-! ### Fetch and decode (R21, R179, R190, R191, R195) -/

/-- A word of code read at L2 or in host memory, or the fault of its fetch. -/
def fetchWord (core fn ctx va : Nat) (s : State) : State × (Word ⊕ (Cause × Detail)) :=
  match xlateUnit .exec core fn ctx va s with
  | (s, .bad c m) => (s, .inr (c, { kind := accFetch ||| m, addr := va }))
  | (s, .ok pa _ _) =>
    match readPlace fn pa 4 s with
    | (s, bs, false) => (s, .inl (BitVec.ofNat 32 (leNat bs)))
    | (s, _, true) => (s, .inr (.poison, { kind := accFetch, addr := va }))
/-- n words of code from an address on. -/
def fetchWords (core fn ctx : Nat) : Nat → Nat → State → State × (List Word ⊕ (Cause × Detail))
  | 0, _, s => (s, .inl [])
  | n + 1, va, s =>
    match fetchWord core fn ctx va s with
    | (s, .inr f) => (s, .inr f)
    | (s, .inl w) =>
      match fetchWords core fn ctx n (va + 4) s with
      | (s, .inl ws) => (s, .inl (w :: ws))
      | r => r
/-- What the first wave does next: an instruction to execute, or a state already reached. -/
inductive Fetched where
  | instr (i : Instr) (s : State)
  | next (s : State)
/-- A fault of the word at the PC, in the given threads of the wave; the others stay at it (R191, R150). -/
def decodeFault (cause : Cause) (d : Detail) (us : List Nat) (s : State) : Fetched :=
  let s := raiseAll cause d (s.byLane us) { s with issue := s.issue + 1 }
  .next { s with waves := (s.waves.map (fun w => { w with members := w.members.filter (fun u => (s.thr u).phase == .issuing) })).filter (fun w => !w.members.isEmpty) }
/-- Threads of the wave that stand at an armed breakpoint stop before the instruction issues (R336). -/
def stopAtBreakpoints (us : List Nat) (s : State) : State :=
  let s := { s with issue := s.issue + 1 }
  (teamsIn s us).foldl (fun s tm =>
    match (us.filter (fun u => (s.thr u).team == tm)) with
    | [] => s
    | u :: l => (match atBreakpoint u s with | some n => hitBreakpoint n (u :: l) tm s | none => s)) s
/-- The next instruction of the first wave, by the order of R191. -/
def fetchNext (s : State) : Fetched :=
  match s.waves with
  | [] => .next s
  | w :: _ =>
    let stops := w.members.filter (fun u => (atBreakpoint u s).isSome)
    if !stops.isEmpty then .next (stopAtBreakpoints stops s)
    else
      let u := w.members.headD 0
      let g := s.gridOf u
      let pc := (s.thr u).pc.toNat
      match fetchWord w.core g.fn g.ctx pc s with
      | (s, .inr (c, d)) => decodeFault c d w.members s
      | (s, .inl w0) =>
        match wordCount w0 with
        | none => decodeFault .illegalOpcode {} w.members s
        | some n =>
          let safe := if n = 1 then [] else w.members.filter (fun u => (s.gridOf u).safe)
          if !safe.isEmpty then decodeFault .safeDecode {} safe s
          else
            match fetchWords w.core g.fn g.ctx (n - 1) (pc + 4) s with
            | (s, .inr (c, d)) => decodeFault c d w.members s
            | (s, .inl ws) =>
              match decodeWords (w0 :: ws) with
              | .instr i => .instr i s
              | .reservedField => decodeFault .reservedField {} w.members s
              | _ => decodeFault .illegalOpcode {} w.members s
/-- One of the waves, chosen freely, becomes the first: the order in which the slots' instructions interleave is not fixed (R148). -/
def chooseWave (s : State) : State :=
  let (i, s) := s.pick s.waves.length
  match s.waves[i]? with
  | some w => { s with waves := w :: s.waves.eraseIdx i }
  | none => s

/-! ### The device's own steps -/

/-- A device step that may be taken. -/
abbrev Try := State → Out State
/-- Numbers of the outstanding requests. -/
def reqIds (s : State) : List Nat := s.reqs.map Req.id
/-- Cores that hold a context. -/
def busyCores (s : State) : List Nat := (s.cores.filter (fun c => c.banks.any (fun b => b.ctx.isSome))).map Core.core
/-- Cores of assigned clusters. -/
def assignedCores (s : State) : List Nat := (s.clusters.filter Cluster.v).flatMap (fun c => coresOf c.cluster)
/-- Threads by number. -/
def threadIds (s : State) : List Nat := s.threads.map Thread.uid
/-- The function whose snapshot's cut is due: it comes before any other step (R355). -/
def dueCut (s : State) : Option Nat := (s.snaps.find? (fun p => p.due.isSome && p.cut.isNone)).map Snap.fn
/-- A revocation whose completion must come now: 150,000 ticks after its start (R346). -/
def revocationOver (c : Cluster) (s : State) : Bool := c.cstate == 2 && decide (c.deadline + 10000 ≤ s.gtick)
/-- Steps that the rules set at once: a bandwidth window's end, a revocation's deadlines, a publish at its tick, grants of free issue slots (R348, R346, R106, R146). -/
def urgent (s : State) : List Try :=
  (if windowOver s then [execBandwidthWindow] else []) ++
  ((s.clusters.filter (fun c => pastDeadline c.cluster s)).map (fun c => execRevokeSaveDeadline c.cluster)) ++
  ((s.clusters.filter (fun c => revocationOver c s)).map (fun c => execRevocationScrub c.cluster)) ++
  ((s.worlds.filter (fun w => w.pubAt == some s.gtick)).map (fun w => execKeystonePublish w.fn w.id)) ++
  (busyCores s).flatMap (fun c => [execIssueGrant c 0, execIssueGrant c 1])
/-- The kinds of step the device takes on its own, each with the steps of that kind that the state may hold; what comes from outside the device is none of them (notes/assumptions 4). -/
def kinds : List (State → List Try) :=
  [ fun _ => [execGtickAdvance],
    fun s => s.teams.map (fun t => execRegroupExecute t.uid),
    fun s => (threadIds s).map execThreadExited,
    fun s => s.teams.map (fun t => execTeamRetire t.uid),
    fun s => s.grids.map (fun g => execGridRetire g.uid),
    fun s => (threadIds s).map execSleepWake,
    fun s => (reqIds s).map execLoadReply,
    fun s => (reqIds s).map execL2ServeFill,
    fun s => (reqIds s).map execL2AcceptWrite,
    fun s => (reqIds s).map execAtomicPerform,
    fun s => (reqIds s).map execCowPageCopy,
    fun s => (reqIds s).map execHostTranslationTimeout,
    fun s => s.mem.l1.map (fun x => execL1Eviction x.core x.fn x.ctx (x.line * 128)),
    fun s => (threadIds s).map execReleaseComplete,
    fun s => (List.range (s.mem.tlb.length + s.mem.walk.length + s.mem.atc.length)).map execTranslationEvict,
    fun s => s.teams.flatMap (fun t => (List.range 16).map (execLayoutCacheRefetch t.uid)),
    fun s => (s.coll.map (fun e => e.core)).eraseDups.flatMap (fun c => (List.range s.coll.length).map (execCollectorWindowExpiry c)),
    fun s => s.copies.map (fun c => execCopyStart c.id c.len),
    fun s => s.copies.map (fun c => execCopyComplete c.id),
    fun s => s.copies.map (fun c => execCopyFaultStop c.id),
    fun s => s.reqs.map (fun r => execMetadataLineArrive (clusterOf r.core) r.id),
    fun _ => (List.range 17).map execShootdownDone,
    fun _ => (List.range 17).map execMigrateSwap,
    fun _ => [execGrantcmdDone],
    fun _ => [execL2scrubDone],
    fun s => (reqIds s).map execEditQueueAccept,
    fun s => (reqIds s).map execWorldReply,
    fun s => s.worlds.map (fun w => execKeystoneStart w.fn w.id),
    fun s => s.worlds.map (fun w => execKeystonePublish w.fn w.id),
    fun s => s.grids.map (fun g => execReductionSpill g.uid),
    fun s => s.grids.map (fun g => execReductionFlush g.uid),
    fun s => s.grids.map (fun g => execReductionFlushComplete g.uid),
    fun s => (reqIds s).map execTileDirectoryAccept,
    fun s => (reqIds s).map execTileDelivery,
    fun s => s.spaces.flatMap (fun x => x.names.flatMap (fun n => n.parts.flatMap (fun p => [0, 1, 2].map (execTilePartMove x.id n.name p)))),
    fun s => (reqIds s).map execReservationAccept,
    fun s => ((busyCores s).map clusterOf).eraseDups.map execMatrixPassGrant,
    fun s => (reqIds s ++ s.bins.map BinReq.id).map execDeferredFault,
    fun s => ((s.bins.map (fun b => b.cluster)).eraseDups).map execBinnerServe,
    fun s => ((s.bins.map (fun b => b.cluster)).eraseDups).map execBinnerPreempt,
    fun s => (reqIds s).map execSplatComplete,
    fun s => (reqIds s).map execCollComplete,
    fun s => (reqIds s).map (fun r => execDcombComplete r []),
    fun s => (threadIds s).map execCtrwaitReread,
    fun s => s.queues.map (fun q => execQueueSlotTake q.q),
    fun s => s.queues.flatMap (fun q => [execQueueEntryNop q.q, execQueueEntryLaunch q.q, execQueueEntryWait q.q, execQueueEntryAdd q.q]),
    fun s => s.queues.map (fun q => execQueueWaitReread q.q),
    fun s => (assignedCores s).map execTeamPlace,
    fun _ => [execPlacementHold],
    fun s => s.grids.flatMap (fun g => if g.det then (List.range g.ncores).flatMap (fun lc => (assignedCores s).map (execLogicalCoreRemap g.uid lc)) else []),
    fun s => (busyCores s).map execTimeSliceExpiry,
    fun s => (busyCores s).map execBankSwitch,
    fun s => (busyCores s).flatMap (fun c => [execBankSave c 0, execBankSave c 1]),
    fun s => s.teams.map (fun t => execTeamSave t.uid),
    fun s => (List.range s.slots.length).flatMap (fun n => (assignedCores s).map (execContextRestore n)),
    fun s => s.tasks.map (fun t => execTaskCounterReread t.id),
    fun s => (s.tasks.map (fun t => t.cluster)).eraseDups.flatMap (fun c => (coresOf c).map (execTaskTeamForm c)),
    fun s => (s.tasks.map (fun t => t.cluster)).eraseDups.flatMap (fun c => (coresOf c).map (execTaskGatherTimeout c)),
    fun s => s.contexts.map (fun c => execFaultRecordWrite c.fn c.ctx),
    fun s => s.contexts.map (fun c => execServiceRecordWrite c.fn c.ctx),
    fun s => s.teams.map (fun t => execWatchdog t.uid),
    fun s => (List.range 17).filterMap (fun f =>
      let c := s.reg f false 0x680
      if !c.getLsbD 31 then none
      else if bitsOf c.toNat 30 28 == 2 then some (execDbgStep f (lowWord c)) else some (execDbgSave f (lowWord c))),
    fun s => s.clusters.map (fun c => execAutoRevoke c.cluster),
    fun s => s.clusters.map (fun c => execRevokeSaveDeadline c.cluster),
    fun s => s.clusters.map (fun c => execRevocationScrub c.cluster),
    fun _ => [execDeckFlush, execDeckReenumerate],
    fun s => s.snaps.map (fun p => execSnapshotStreamDone p.fn),
    fun _ => (List.range 8).map execEncoderJobComplete,
    fun _ => (List.range 8).map execEncoderPause ]
/-- The first of some steps that gives a next state. -/
def firstNext (s : State) : List Try → Option State
  | [] => none
  | f :: l =>
    match f s with
    | .next t => some t
    | _ => firstNext s l
/-- A step of some kind, from a kind on that a free value names. -/
def takeKind (s : State) : List (State → List Try) → Option State
  | [] => none
  | k :: l =>
    match firstNext s (k s) with
    | some t => some t
    | none => takeKind s l
/-- A step of the device's own: what is set at once, and otherwise any step that may be taken; a tick always may. -/
def deviceStep (s : State) : Out State :=
  match firstNext s (urgent s) with
  | some t => .next t
  | none =>
    let (i, s) := s.pick kinds.length
    match takeKind s (kinds.drop i ++ kinds.take i) with
    | some t => .next t
    | none => execGtickAdvance s

/-! ### Placing one instruction before the fetch -/

/-- Context id, first table and code address of the placed instruction. -/
def placedCtx : Nat := 0xFFF
/-- PA of the root table of the placed context; the three tables below it follow. -/
def placedRoot : Nat := 0x100000
/-- VA of the placed instruction, in a 2 MiB page at PA 0x200000. -/
def placedVa : Nat := 0x1000
/-- The launch record of the placed grid: one team of one thread with 128 registers. -/
def placedRecord : List Byte :=
  leBytes placedVa 8 ++ leBytes 1 4 ++ leBytes 1 4 ++ leBytes 1 4 ++ leBytes 1 2 ++ leBytes 1 2 ++ leBytes 1 2 ++ leBytes 128 1 ++ List.replicate 229 0
/-- The placed grid. -/
def placedGrid (uid : Nat) : Grid :=
  { Grid.blank with uid := uid, gridId := uid, fn := 0, ctx := placedCtx, record := placedRecord, consts := List.replicate 64 0, htab := List.replicate 16 0, ncores := 4, next := 1, done := false }
/-- The placed code and its page tables in memory. -/
def placedMemory (code : List Byte) (m : Memory) : Memory :=
  let m := (m.writeN (placedRoot + 0x0000) (leBytes (placedRoot + 0x1001) 8)).writeN (placedRoot + 0x1000) (leBytes (placedRoot + 0x2001) 8)
  let m := (m.writeN (placedRoot + 0x2000) (leBytes (placedRoot + 0x3001) 8)).writeN (placedRoot + 0x3000) (leBytes 0x2001BF 8)
  m.writeN (0x200000 + placedVa) code
/-- A running thread that stands before an instruction: its context, page tables, grid, team and wave, and the instruction's bytes in memory. -/
def placeInstr (code : List Byte) (s : State) : State :=
  let g := placedGrid s.nextId
  let desc := leBytes placedRoot 8 ++ leBytes placedCtx 4 ++ List.replicate 28 0 ++ leBytes 64 4 ++ List.replicate 84 0
  let t := startThread (s.nextId + 2) (s.nextId + 1) 0 0 0 (BitVec.ofNat 64 placedVa) (List.replicate 128 0)
  let s' := s.setBank 0 0 { Bank.reset with ctx := some (0, placedCtx) }
  { s' with
    nextId := s.nextId + 3, agenda := [], beat := 0
    contexts := ⟨0, placedCtx, desc, 0, 0, none, none⟩ :: s.contexts.filter (fun c => !(c.fn == 0 && c.ctx == placedCtx))
    grids := g :: s.grids
    teams := startTeam (s.nextId + 1) 0 0 0 0 1 0 0 0 g false :: s.teams
    threads := { t with phase := .issuing, passBp := true } :: s.threads
    waves := [⟨0, 0, [s.nextId + 2], 0⟩]
    mem := { s.mem with
      bytes := placedMemory code s.mem.bytes
      poison := s.mem.poison.filter (fun l => l != (0x200000 + placedVa) / 128)
      tlb := s.mem.tlb.filter (fun x => !(x.fn == 0 && x.ctx == placedCtx))
      walk := s.mem.walk.filter (fun w => w.fn != 0) } }

end Sys2Proof.Machine
end

