-- ==== Sys2Proof/Machine/Dispatch.lean ====
section
/-! DEFINITION. From an instruction to its meaning: one arm for each row of the opcode table. -/
namespace Sys2Proof.Machine

/-- The meaning of every instruction and device step. -/
def exec (i : Instr) (s : State) : Host.Outcome State Fault Refusal :=
  match i with
  | .nop x => Sys2Proof.Machine.execNop x s
  | .nopWide x => Sys2Proof.Machine.execNopWide x s
  | .mov x => Sys2Proof.Machine.execMov x s
  | .movWide x => Sys2Proof.Machine.execMovWide x s
  | .movi x => Sys2Proof.Machine.execMovi x s
  | .moviWide x => Sys2Proof.Machine.execMoviWide x s
  | .movl x => Sys2Proof.Machine.execMovl x s
  | .iadd x => Sys2Proof.Machine.execIadd x s
  | .iaddWide x => Sys2Proof.Machine.execIaddWide x s
  | .isub x => Sys2Proof.Machine.execIsub x s
  | .isubWide x => Sys2Proof.Machine.execIsubWide x s
  | .imul x => Sys2Proof.Machine.execImul x s
  | .imulWide x => Sys2Proof.Machine.execImulWide x s
  | .imulh x => Sys2Proof.Machine.execImulh x s
  | .imulhWide x => Sys2Proof.Machine.execImulhWide x s
  | .imad x => Sys2Proof.Machine.execImad x s
  | .imin x => Sys2Proof.Machine.execImin x s
  | .iminWide x => Sys2Proof.Machine.execIminWide x s
  | .imax x => Sys2Proof.Machine.execImax x s
  | .imaxWide x => Sys2Proof.Machine.execImaxWide x s
  | .iabs x => Sys2Proof.Machine.execIabs x s
  | .iabsWide x => Sys2Proof.Machine.execIabsWide x s
  | .and x => Sys2Proof.Machine.execAnd x s
  | .andWide x => Sys2Proof.Machine.execAndWide x s
  | .or x => Sys2Proof.Machine.execOr x s
  | .orWide x => Sys2Proof.Machine.execOrWide x s
  | .xor x => Sys2Proof.Machine.execXor x s
  | .xorWide x => Sys2Proof.Machine.execXorWide x s
  | .not x => Sys2Proof.Machine.execNot x s
  | .notWide x => Sys2Proof.Machine.execNotWide x s
  | .shl x => Sys2Proof.Machine.execShl x s
  | .shlWide x => Sys2Proof.Machine.execShlWide x s
  | .shr x => Sys2Proof.Machine.execShr x s
  | .shrWide x => Sys2Proof.Machine.execShrWide x s
  | .sar x => Sys2Proof.Machine.execSar x s
  | .sarWide x => Sys2Proof.Machine.execSarWide x s
  | .rot x => Sys2Proof.Machine.execRot x s
  | .rotWide x => Sys2Proof.Machine.execRotWide x s
  | .popc x => Sys2Proof.Machine.execPopc x s
  | .popcWide x => Sys2Proof.Machine.execPopcWide x s
  | .clz x => Sys2Proof.Machine.execClz x s
  | .clzWide x => Sys2Proof.Machine.execClzWide x s
  | .brev x => Sys2Proof.Machine.execBrev x s
  | .brevWide x => Sys2Proof.Machine.execBrevWide x s
  | .bfx x => Sys2Proof.Machine.execBfx x s
  | .bfi x => Sys2Proof.Machine.execBfi x s
  | .sel x => Sys2Proof.Machine.execSel x s
  | .icmp x => Sys2Proof.Machine.execIcmp x s
  | .iaddc x => Sys2Proof.Machine.execIaddc x s
  | .add64 x => Sys2Proof.Machine.execAdd64 x s
  | .add64Wide x => Sys2Proof.Machine.execAdd64Wide x s
  | .sub64 x => Sys2Proof.Machine.execSub64 x s
  | .sub64Wide x => Sys2Proof.Machine.execSub64Wide x s
  | .lea64 x => Sys2Proof.Machine.execLea64 x s
  | .cmp64 x => Sys2Proof.Machine.execCmp64 x s
  | .uadd x => Sys2Proof.Machine.execUadd x s
  | .uaddWide x => Sys2Proof.Machine.execUaddWide x s
  | .usub x => Sys2Proof.Machine.execUsub x s
  | .usubWide x => Sys2Proof.Machine.execUsubWide x s
  | .umul x => Sys2Proof.Machine.execUmul x s
  | .umulWide x => Sys2Proof.Machine.execUmulWide x s
  | .ulog x => Sys2Proof.Machine.execUlog x s
  | .ulogWide x => Sys2Proof.Machine.execUlogWide x s
  | .ushift x => Sys2Proof.Machine.execUshift x s
  | .ushiftWide x => Sys2Proof.Machine.execUshiftWide x s
  | .umov x => Sys2Proof.Machine.execUmov x s
  | .umovWide x => Sys2Proof.Machine.execUmovWide x s
  | .ucmp x => Sys2Proof.Machine.execUcmp x s
  | .uadd64 x => Sys2Proof.Machine.execUadd64 x s
  | .uadd64Wide x => Sys2Proof.Machine.execUadd64Wide x s
  | .uread x => Sys2Proof.Machine.execUread x s
  | .uconst x => Sys2Proof.Machine.execUconst x s
  | .uconstWide x => Sys2Proof.Machine.execUconstWide x s
  | .plog x => Sys2Proof.Machine.execPlog x s
  | .plogWide x => Sys2Proof.Machine.execPlogWide x s
  | .sprd x => Sys2Proof.Machine.execSprd x s
  | .sprdWide x => Sys2Proof.Machine.execSprdWide x s
  | .spwr x => Sys2Proof.Machine.execSpwr x s
  | .spwrWide x => Sys2Proof.Machine.execSpwrWide x s
  | .shfl x => Sys2Proof.Machine.execShfl x s
  | .vote x => Sys2Proof.Machine.execVote x s
  | .vred x => Sys2Proof.Machine.execVred x s
  | .br x => Sys2Proof.Machine.execBr x s
  | .brWide x => Sys2Proof.Machine.execBrWide x s
  | .bru x => Sys2Proof.Machine.execBru x s
  | .bruWide x => Sys2Proof.Machine.execBruWide x s
  | .jmp x => Sys2Proof.Machine.execJmp x s
  | .jmpWide x => Sys2Proof.Machine.execJmpWide x s
  | .call x => Sys2Proof.Machine.execCall x s
  | .callWide x => Sys2Proof.Machine.execCallWide x s
  | .ret x => Sys2Proof.Machine.execRet x s
  | .retWide x => Sys2Proof.Machine.execRetWide x s
  | .exit x => Sys2Proof.Machine.execExit x s
  | .exitWide x => Sys2Proof.Machine.execExitWide x s
  | .yield x => Sys2Proof.Machine.execYield x s
  | .yieldWide x => Sys2Proof.Machine.execYieldWide x s
  | .cinit x => Sys2Proof.Machine.execCinit x s
  | .csign x => Sys2Proof.Machine.execCsign x s
  | .regroup x => Sys2Proof.Machine.execRegroup x s
  | .regroupWide x => Sys2Proof.Machine.execRegroupWide x s
  | .claim x => Sys2Proof.Machine.execClaim x s
  | .claimWide x => Sys2Proof.Machine.execClaimWide x s
  | .claimw x => Sys2Proof.Machine.execClaimw x s
  | .claimwWide x => Sys2Proof.Machine.execClaimwWide x s
  | .give x => Sys2Proof.Machine.execGive x s
  | .giveWide x => Sys2Proof.Machine.execGiveWide x s
  | .waitc x => Sys2Proof.Machine.execWaitc x s
  | .waitcWide x => Sys2Proof.Machine.execWaitcWide x s
  | .sleept x => Sys2Proof.Machine.execSleept x s
  | .sleeptWide x => Sys2Proof.Machine.execSleeptWide x s
  | .barSync x => Sys2Proof.Machine.execBarSync x s
  | .barSyncWide x => Sys2Proof.Machine.execBarSyncWide x s
  | .barArrive x => Sys2Proof.Machine.execBarArrive x s
  | .barArriveWide x => Sys2Proof.Machine.execBarArriveWide x s
  | .barWait x => Sys2Proof.Machine.execBarWait x s
  | .barWaitWide x => Sys2Proof.Machine.execBarWaitWide x s
  | .trapSvc x => Sys2Proof.Machine.execTrapSvc x s
  | .trapSvcWide x => Sys2Proof.Machine.execTrapSvcWide x s
  | .trapBrk x => Sys2Proof.Machine.execTrapBrk x s
  | .trapBrkWide x => Sys2Proof.Machine.execTrapBrkWide x s
  | .launch x => Sys2Proof.Machine.execLaunch x s
  | .spawn x => Sys2Proof.Machine.execSpawn x s
  | .ctradd x => Sys2Proof.Machine.execCtradd x s
  | .ctrwait x => Sys2Proof.Machine.execCtrwait x s
  | .resume x => Sys2Proof.Machine.execResume x s
  | .ld x => Sys2Proof.Machine.execLd x s
  | .ldWide x => Sys2Proof.Machine.execLdWide x s
  | .st x => Sys2Proof.Machine.execSt x s
  | .stWide x => Sys2Proof.Machine.execStWide x s
  | .lds x => Sys2Proof.Machine.execLds x s
  | .ldsWide x => Sys2Proof.Machine.execLdsWide x s
  | .sts x => Sys2Proof.Machine.execSts x s
  | .stsWide x => Sys2Proof.Machine.execStsWide x s
  | .ldu x => Sys2Proof.Machine.execLdu x s
  | .lduWide x => Sys2Proof.Machine.execLduWide x s
  | .stu x => Sys2Proof.Machine.execStu x s
  | .stuWide x => Sys2Proof.Machine.execStuWide x s
  | .ldt x => Sys2Proof.Machine.execLdt x s
  | .stt x => Sys2Proof.Machine.execStt x s
  | .gld x => Sys2Proof.Machine.execGld x s
  | .gldWide x => Sys2Proof.Machine.execGldWide x s
  | .gst x => Sys2Proof.Machine.execGst x s
  | .gstWide x => Sys2Proof.Machine.execGstWide x s
  | .pref x => Sys2Proof.Machine.execPref x s
  | .prefWide x => Sys2Proof.Machine.execPrefWide x s
  | .atom x => Sys2Proof.Machine.execAtom x s
  | .atomc x => Sys2Proof.Machine.execAtomc x s
  | .atomf x => Sys2Proof.Machine.execAtomf x s
  | .red x => Sys2Proof.Machine.execRed x s
  | .aflush x => Sys2Proof.Machine.execAflush x s
  | .aflushWide x => Sys2Proof.Machine.execAflushWide x s
  | .fenceRel x => Sys2Proof.Machine.execFenceRel x s
  | .fenceRelWide x => Sys2Proof.Machine.execFenceRelWide x s
  | .fenceAcq x => Sys2Proof.Machine.execFenceAcq x s
  | .fenceAcqWide x => Sys2Proof.Machine.execFenceAcqWide x s
  | .fenceAr x => Sys2Proof.Machine.execFenceAr x s
  | .fenceArWide x => Sys2Proof.Machine.execFenceArWide x s
  | .invl1 x => Sys2Proof.Machine.execInvl1 x s
  | .invl1Wide x => Sys2Proof.Machine.execInvl1Wide x s
  | .pin x => Sys2Proof.Machine.execPin x s
  | .pinWide x => Sys2Proof.Machine.execPinWide x s
  | .unpin x => Sys2Proof.Machine.execUnpin x s
  | .unpinWide x => Sys2Proof.Machine.execUnpinWide x s
  | .hbind x => Sys2Proof.Machine.execHbind x s
  | .hbindWide x => Sys2Proof.Machine.execHbindWide x s
  | .hqry x => Sys2Proof.Machine.execHqry x s
  | .cpy x => Sys2Proof.Machine.execCpy x s
  | .cpyq x => Sys2Proof.Machine.execCpyq x s
  | .cpyqWide x => Sys2Proof.Machine.execCpyqWide x s
  | .dsend x => Sys2Proof.Machine.execDsend x s
  | .dcomb x => Sys2Proof.Machine.execDcomb x s
  | .coll x => Sys2Proof.Machine.execColl x s
  | .fadd x => Sys2Proof.Machine.execFadd x s
  | .faddWide x => Sys2Proof.Machine.execFaddWide x s
  | .fsub x => Sys2Proof.Machine.execFsub x s
  | .fsubWide x => Sys2Proof.Machine.execFsubWide x s
  | .fmul x => Sys2Proof.Machine.execFmul x s
  | .fmulWide x => Sys2Proof.Machine.execFmulWide x s
  | .ffma x => Sys2Proof.Machine.execFfma x s
  | .fminmax x => Sys2Proof.Machine.execFminmax x s
  | .fminmaxWide x => Sys2Proof.Machine.execFminmaxWide x s
  | .fcmp x => Sys2Proof.Machine.execFcmp x s
  | .fspc x => Sys2Proof.Machine.execFspc x s
  | .fspcWide x => Sys2Proof.Machine.execFspcWide x s
  | .fclass x => Sys2Proof.Machine.execFclass x s
  | .fclassWide x => Sys2Proof.Machine.execFclassWide x s
  | .cvt x => Sys2Proof.Machine.execCvt x s
  | .pack x => Sys2Proof.Machine.execPack x s
  | .unpk x => Sys2Proof.Machine.execUnpk x s
  | .ffmap x => Sys2Proof.Machine.execFfmap x s
  | .qdot x => Sys2Proof.Machine.execQdot x s
  | .idot x => Sys2Proof.Machine.execIdot x s
  | .mxsc x => Sys2Proof.Machine.execMxsc x s
  | .qntRow x => Sys2Proof.Machine.execQntRow x s
  | .qntBlock x => Sys2Proof.Machine.execQntBlock x s
  | .mma x => Sys2Proof.Machine.execMma x s
  | .mmas x => Sys2Proof.Machine.execMmas x s
  | .amovFrom x => Sys2Proof.Machine.execAmovFrom x s
  | .amovInto x => Sys2Proof.Machine.execAmovInto x s
  | .amovZero x => Sys2Proof.Machine.execAmovZero x s
  | .tdef x => Sys2Proof.Machine.execTdef x s
  | .tld x => Sys2Proof.Machine.execTld x s
  | .tkill x => Sys2Proof.Machine.execTkill x s
  | .eqry x => Sys2Proof.Machine.execEqry x s
  | .elook x => Sys2Proof.Machine.execElook x s
  | .eeditNew x => Sys2Proof.Machine.execEeditNew x s
  | .eeditDel x => Sys2Proof.Machine.execEeditDel x s
  | .eeditAdd x => Sys2Proof.Machine.execEeditAdd x s
  | .eeditRem x => Sys2Proof.Machine.execEeditRem x s
  | .eviewOpen x => Sys2Proof.Machine.execEviewOpen x s
  | .eviewClose x => Sys2Proof.Machine.execEviewClose x s
  | .keys x => Sys2Proof.Machine.execKeys x s
  | .keysWide x => Sys2Proof.Machine.execKeysWide x s
  | .ecol x => Sys2Proof.Machine.execEcol x s
  | .ecolWide x => Sys2Proof.Machine.execEcolWide x s
  | .sproj x => Sys2Proof.Machine.execSproj x s
  | .sbin x => Sys2Proof.Machine.execSbin x s
  | .sblendFwd x => Sys2Proof.Machine.execSblendFwd x s
  | .sblendBack x => Sys2Proof.Machine.execSblendBack x s
  | .sctlSet x => Sys2Proof.Machine.execSctlSet x s
  | .sctlGet x => Sys2Proof.Machine.execSctlGet x s
  | .gtickAdvance => Sys2Proof.Machine.execGtickAdvance s
  | .issueGrant core slot => Sys2Proof.Machine.execIssueGrant core slot s
  | .regroupExecute team => Sys2Proof.Machine.execRegroupExecute team s
  | .threadExited th => Sys2Proof.Machine.execThreadExited th s
  | .teamRetire team => Sys2Proof.Machine.execTeamRetire team s
  | .gridRetire grid => Sys2Proof.Machine.execGridRetire grid s
  | .sleepWake th => Sys2Proof.Machine.execSleepWake th s
  | .loadReply req => Sys2Proof.Machine.execLoadReply req s
  | .l2ServeFill req => Sys2Proof.Machine.execL2ServeFill req s
  | .l2AcceptWrite req => Sys2Proof.Machine.execL2AcceptWrite req s
  | .atomicPerform req => Sys2Proof.Machine.execAtomicPerform req s
  | .l1Eviction core fn ctx va => Sys2Proof.Machine.execL1Eviction core fn ctx va s
  | .releaseComplete th => Sys2Proof.Machine.execReleaseComplete th s
  | .pageWalk core fn ctx va => Sys2Proof.Machine.execPageWalk core fn ctx va s
  | .translationEvict n => Sys2Proof.Machine.execTranslationEvict n s
  | .layoutCacheRefetch team h => Sys2Proof.Machine.execLayoutCacheRefetch team h s
  | .collectorWindowExpiry core n => Sys2Proof.Machine.execCollectorWindowExpiry core n s
  | .copyStart copy n => Sys2Proof.Machine.execCopyStart copy n s
  | .copyComplete copy => Sys2Proof.Machine.execCopyComplete copy s
  | .copyFaultStop copy => Sys2Proof.Machine.execCopyFaultStop copy s
  | .metadataLineArrive cluster entry => Sys2Proof.Machine.execMetadataLineArrive cluster entry s
  | .hostTranslationResponse req present => Sys2Proof.Machine.execHostTranslationResponse req present s
  | .pageRequestResponse req success => Sys2Proof.Machine.execPageRequestResponse req success s
  | .hostTranslationTimeout req => Sys2Proof.Machine.execHostTranslationTimeout req s
  | .hostInvalidationRequest fn ctx va len => Sys2Proof.Machine.execHostInvalidationRequest fn ctx va len s
  | .hostAccessCompletion req data => Sys2Proof.Machine.execHostAccessCompletion req data s
  | .inboundWrite stream pa data relaxed => Sys2Proof.Machine.execInboundWrite stream pa data relaxed s
  | .inboundRead pa len => Sys2Proof.Machine.execInboundRead pa len s
  | .peerAccessArrival tag stream relaxed pa x => Sys2Proof.Machine.execPeerAccessArrival tag stream relaxed pa x s
  | .flitCrcResend port => Sys2Proof.Machine.execFlitCrcResend port s
  | .flitLost req => Sys2Proof.Machine.execFlitLost req s
  | .xinvGo fn v => Sys2Proof.Machine.execXinvGo fn v s
  | .shootdownDone fn => Sys2Proof.Machine.execShootdownDone fn s
  | .migrate fn v => Sys2Proof.Machine.execMigrate fn v s
  | .migrateSwap fn => Sys2Proof.Machine.execMigrateSwap fn s
  | .grantcmdGo v => Sys2Proof.Machine.execGrantcmdGo v s
  | .grantabWrite v => Sys2Proof.Machine.execGrantabWrite v s
  | .accdataRead => Sys2Proof.Machine.execAccdataRead s
  | .l2scrubGo v => Sys2Proof.Machine.execL2scrubGo v s
  | .tagParity slice way => Sys2Proof.Machine.execTagParity slice way s
  | .wdescBind fn w v => Sys2Proof.Machine.execWdescBind fn w v s
  | .wdescUnbind fn w v => Sys2Proof.Machine.execWdescUnbind fn w v s
  | .wstatResume fn w => Sys2Proof.Machine.execWstatResume fn w s
  | .editQueueAccept req => Sys2Proof.Machine.execEditQueueAccept req s
  | .worldReply req => Sys2Proof.Machine.execWorldReply req s
  | .keystoneStart fn w => Sys2Proof.Machine.execKeystoneStart fn w s
  | .keystonePublish fn w => Sys2Proof.Machine.execKeystonePublish fn w s
  | .reductionSpill grid => Sys2Proof.Machine.execReductionSpill grid s
  | .reductionFlush grid => Sys2Proof.Machine.execReductionFlush grid s
  | .reductionFlushComplete grid => Sys2Proof.Machine.execReductionFlushComplete grid s
  | .tileDirectoryAccept req => Sys2Proof.Machine.execTileDirectoryAccept req s
  | .tileDelivery req => Sys2Proof.Machine.execTileDelivery req s
  | .tilePartMove space name part place => Sys2Proof.Machine.execTilePartMove space name part place s
  | .reservationAccept req => Sys2Proof.Machine.execReservationAccept req s
  | .matrixPassGrant cluster => Sys2Proof.Machine.execMatrixPassGrant cluster s
  | .deferredFault req => Sys2Proof.Machine.execDeferredFault req s
  | .binnerServe cluster => Sys2Proof.Machine.execBinnerServe cluster s
  | .binnerPreempt cluster => Sys2Proof.Machine.execBinnerPreempt cluster s
  | .splatComplete req => Sys2Proof.Machine.execSplatComplete req s
  | .dispatchSlotReply req q => Sys2Proof.Machine.execDispatchSlotReply req q s
  | .dispatchNotify req => Sys2Proof.Machine.execDispatchNotify req s
  | .dispatchAck req => Sys2Proof.Machine.execDispatchAck req s
  | .dcombComplete req rows => Sys2Proof.Machine.execDcombComplete req rows s
  | .collRendezvousStart req ranks => Sys2Proof.Machine.execCollRendezvousStart req ranks s
  | .collComplete req => Sys2Proof.Machine.execCollComplete req s
  | .ctrwaitReread th => Sys2Proof.Machine.execCtrwaitReread th s
  | .qdescWrite fn q v => Sys2Proof.Machine.execQdescWrite fn q v s
  | .qdoorWrite fn q v => Sys2Proof.Machine.execQdoorWrite fn q v s
  | .queueSlotTake q => Sys2Proof.Machine.execQueueSlotTake q s
  | .queueEntryNop q => Sys2Proof.Machine.execQueueEntryNop q s
  | .queueEntryLaunch q => Sys2Proof.Machine.execQueueEntryLaunch q s
  | .queueEntryWait q => Sys2Proof.Machine.execQueueEntryWait q s
  | .queueWaitReread q => Sys2Proof.Machine.execQueueWaitReread q s
  | .queueEntryAdd q => Sys2Proof.Machine.execQueueEntryAdd q s
  | .teamPlace core => Sys2Proof.Machine.execTeamPlace core s
  | .placementHold => Sys2Proof.Machine.execPlacementHold s
  | .logicalCoreRemap grid lc core => Sys2Proof.Machine.execLogicalCoreRemap grid lc core s
  | .timeSliceExpiry core => Sys2Proof.Machine.execTimeSliceExpiry core s
  | .bankSwitch core => Sys2Proof.Machine.execBankSwitch core s
  | .bankSave core bank => Sys2Proof.Machine.execBankSave core bank s
  | .teamSave team => Sys2Proof.Machine.execTeamSave team s
  | .contextRestore slot core => Sys2Proof.Machine.execContextRestore slot core s
  | .taskCounterReread task => Sys2Proof.Machine.execTaskCounterReread task s
  | .taskTeamForm cluster core => Sys2Proof.Machine.execTaskTeamForm cluster core s
  | .taskGatherTimeout cluster core => Sys2Proof.Machine.execTaskGatherTimeout cluster core s
  | .faultRecordWrite fn ctx => Sys2Proof.Machine.execFaultRecordWrite fn ctx s
  | .serviceRecordWrite fn ctx => Sys2Proof.Machine.execServiceRecordWrite fn ctx s
  | .fsvcRetry fn => Sys2Proof.Machine.execFsvcRetry fn s
  | .fsvcSkip fn => Sys2Proof.Machine.execFsvcSkip fn s
  | .fsvcKill fn => Sys2Proof.Machine.execFsvcKill fn s
  | .fsvcAnswer fn => Sys2Proof.Machine.execFsvcAnswer fn s
  | .vfkill v => Sys2Proof.Machine.execVfkill v s
  | .breakpointHit th => Sys2Proof.Machine.execBreakpointHit th s
  | .dbgRelease fn v => Sys2Proof.Machine.execDbgRelease fn v s
  | .dbgStep fn v => Sys2Proof.Machine.execDbgStep fn v s
  | .dbgHalt fn v => Sys2Proof.Machine.execDbgHalt fn v s
  | .dbgSave fn v => Sys2Proof.Machine.execDbgSave fn v s
  | .watchdog team => Sys2Proof.Machine.execWatchdog team s
  | .uncorrectableError what => Sys2Proof.Machine.execUncorrectableError what s
  | .correctableError => Sys2Proof.Machine.execCorrectableError s
  | .pcmdAssign v => Sys2Proof.Machine.execPcmdAssign v s
  | .pcmdLend v => Sys2Proof.Machine.execPcmdLend v s
  | .pcmdRevoke v => Sys2Proof.Machine.execPcmdRevoke v s
  | .autoRevoke cluster => Sys2Proof.Machine.execAutoRevoke cluster s
  | .revokeSaveDeadline cluster => Sys2Proof.Machine.execRevokeSaveDeadline cluster s
  | .revocationScrub cluster => Sys2Proof.Machine.execRevocationScrub cluster s
  | .floorWrite f v => Sys2Proof.Machine.execFloorWrite f v s
  | .bandwidthWindow => Sys2Proof.Machine.execBandwidthWindow s
  | .vfschedRun v => Sys2Proof.Machine.execVfschedRun v s
  | .vfschedDeschedule v => Sys2Proof.Machine.execVfschedDeschedule v s
  | .deckroleGo v => Sys2Proof.Machine.execDeckroleGo v s
  | .deckFlush => Sys2Proof.Machine.execDeckFlush s
  | .deckReenumerate => Sys2Proof.Machine.execDeckReenumerate s
  | .supplySagStretch deck => Sys2Proof.Machine.execSupplySagStretch deck s
  | .powerLimitStep deck => Sys2Proof.Machine.execPowerLimitStep deck s
  | .snapctlGo fn v => Sys2Proof.Machine.execSnapctlGo fn v s
  | .snapshotCut fn => Sys2Proof.Machine.execSnapshotCut fn s
  | .cowPageCopy req => Sys2Proof.Machine.execCowPageCopy req s
  | .snapshotStreamDone fn => Sys2Proof.Machine.execSnapshotStreamDone fn s
  | .restctlGo fn v => Sys2Proof.Machine.execRestctlGo fn v s
  | .perfselWrite fn n v => Sys2Proof.Machine.execPerfselWrite fn n v s
  | .perfcntWrite fn n v => Sys2Proof.Machine.execPerfcntWrite fn n v s
  | .attreqWrite fn v => Sys2Proof.Machine.execAttreqWrite fn v s
  | .firmwareImageLoad image rollback sig => Sys2Proof.Machine.execFirmwareImageLoad image rollback sig s
  | .encownWrite e v => Sys2Proof.Machine.execEncownWrite e v s
  | .encdoorWrite fn e v => Sys2Proof.Machine.execEncdoorWrite fn e v s
  | .encoderJobComplete e => Sys2Proof.Machine.execEncoderJobComplete e s
  | .encoderPause e => Sys2Proof.Machine.execEncoderPause e s
  | .registerWrite fn priv off v => Sys2Proof.Machine.execRegisterWrite fn priv off v s
  | .deviceReset => Sys2Proof.Machine.execDeviceReset s
  | .grantcmdDone => Sys2Proof.Machine.execGrantcmdDone s
  | .l2scrubDone => Sys2Proof.Machine.execL2scrubDone s
  | .supplyRecovery deck => Sys2Proof.Machine.execSupplyRecovery deck s
  | .peerWriteAcknowledgement req => Sys2Proof.Machine.execPeerWriteAcknowledgement req s

end Sys2Proof.Machine
end

