-- ==== Sys2Proof/Machine/Step.lean ====
section
/-! DEFINITION. One step of the machine: what comes from outside, an instruction of a wave, or a step of the device's own (spec/07_execution_model.md R148). -/
namespace Sys2Proof.Machine

/-- An instruction of the wave that is chosen: fetched, decoded and executed (R148, R191). -/
def waveStep (s : State) : Host.Outcome State Fault Refusal :=
  match fetchNext (chooseWave s) with
  | .instr i s => exec i s
  | .next s => done s

/-- ONE STEP. A snapshot's cut that is due comes first (R355), then a device step that the agenda names; then instructions of waves and steps of the device's own take turns (notes/assumptions 4). -/
def step (s : State) : Host.Outcome State Fault Refusal :=
  match dueCut s, s.agenda with
  | some fn, _ => execSnapshotCut fn s
  | none, i :: rest => if (encode i).isEmpty then exec i { s with agenda := rest } else .refused .agendaNotDeviceStep
  | none, [] => if s.waves.isEmpty || s.beat != 0 then deviceStep { s with beat := 0 } else waveStep { s with beat := 1 }

/-- The state with the instruction of a table word where step fetches its next instruction (notes/assumptions 4). -/
def State.withFetchWord (s : State) (nbits w : Nat) : State := placeInstr (tableBytes (w % 2 ^ nbits)) s

end Sys2Proof.Machine
end

