-- ==== Sys2Proof/Safety.lean ====
section
/-! DEFINITION. What a safe run keeps, in the terms the claims use: the canonical form of memory, and what an instruction leaves alone in threads, teams and the rest of the machine. -/
namespace Sys2Proof.Machine

/-- Physical memory is in its canonical form (notes/assumptions 1). -/
def State.Canonical (s : State) : Prop := s.mem.bytes.wf = true

/-- The architectural data of a thread is unchanged, but for the v registers vs and the predicates ps (R141, R158, R170, R186). -/
structure Thread.SameBut (vs ps : List Nat) (t t' : Thread) : Prop where
  uid : t'.uid = t.uid
  team : t'.team = t.team
  tid : t'.tid = t.tid
  lane : t'.lane = t.lane
  rv : ∀ n, n ∉ vs → t'.rv n = t.rv n
  mark : ∀ n, n ∉ vs → (n ∈ t'.poison ↔ n ∈ t.poison)
  rp : ∀ n, n ∉ ps → t'.rp n = t.rp n
  flags : t'.flags = t.flags
  ld : t'.ld = t.ld
  st : t'.st = t.st
  cp : t'.cp = t.cp
  tl : t'.tl = t.tl
  editSeq : t'.editSeq = t.editSeq
  redSeq : t'.redSeq = t.redSeq
  maxTw : t'.maxTw = t.maxTw
  pendV : t'.pendV = t.pendV
  pendP : t'.pendP = t.pendP

/-- The architectural data of a team is unchanged, but for the s registers ss (R156, R203, R297). -/
structure Team.SameBut (ss : List Nat) (t t' : Team) : Prop where
  uid : t'.uid = t.uid
  grid : t'.grid = t.grid
  id : t'.id = t.id
  size : t'.size = t.size
  rs : ∀ n, n ∉ ss → t'.rs n = t.rs n
  mark : ∀ n, n ∉ ss → (n ∈ t'.sPoison ↔ n ∈ t.sPoison)
  writers : ∀ r, (∀ n ∈ ss, r ≠ .s n) → t'.lastWriters r = t.lastWriters r
  h : t'.h = t.h
  c : t'.c = t.c
  mode : t'.mode = t.mode
  teamstat : t'.teamstat = t.teamstat
  lease : t'.lease = t.lease
  view : t'.view = t.view
  frame : t'.frame = t.frame
  tcut : t'.tcut = t.tcut
  near : t'.near = t.near
  binstat : t'.binstat = t.binstat
  scratch : t'.scratch = t.scratch
  scratchPoison : t'.scratchPoison = t.scratchPoison
  flagWord : t'.flagWord = t.flagWord
  pendS : t'.pendS = t.pendS
  pendH : t'.pendH = t.pendH

/-- The device's register at an offset of the function page is a performance counter (R351). -/
def perfCounter (priv : Bool) (off : Nat) : Bool := !priv && decide (0x980 ≤ off) && decide (off < 0x9C0)

/-- An address stands in the image of a saved thread, which the device keeps up to date (R334). -/
def State.inImage (s : State) (a : Nat) : Prop := ∃ t ∈ s.threads, t.image ≠ [] ∧ t.imageAt ≤ a ∧ a < t.imageAt + t.image.length

/-- A snapshot but for the pages it has copied aside. -/
def Snap.others (p : Snap) : Snap := { p with pages := [], pre := [] }
/-- Everything but threads, teams, grids, waves, raised faults, bytes of memory, device registers, the pages that snapshots have copied aside and the model's own counters: queues, contexts, cores, clusters, caches, translations, outstanding work, worlds, tiles, clocks, signals. -/
def State.others (s : State) : State :=
  { s with mem := { s.mem with bytes := [] }, threads := [], teams := [], grids := [], waves := [], faults := [], regs := [], issue := 0, nextId := 0, watched := 0, waits := false, snaps := s.snaps.map Snap.others }
/-- A grid but for its count of faults. -/
def Grid.others (g : Grid) : Grid := { g with faults := 0 }

/-- The rest of the machine is unchanged: memory outside the images of saved threads, every device register but the performance counters, grids, and everything else that no thread or team holds; raised faults stay. -/
structure State.SameRest (s s' : State) : Prop where
  bytes : s.Canonical → ∀ a, ¬ s.inImage a → s'.mem.bytes.read a = s.mem.bytes.read a
  regs : ∀ fn priv off, perfCounter priv off = false → s'.reg fn priv off = s.reg fn priv off
  grids : s'.grids.map Grid.others = s.grids.map Grid.others
  faults : s.faults <+: s'.faults
  others : s'.others = s.others

/-! ### When an instruction of a wave issues, and what it does -/

/-- Wave w is the one that issues: its members are distinct threads that exist, in teams that exist, and are ISSUING (R148, R150). -/
structure State.Issues (s : State) (w : Wave) : Prop where
  first : s.waves.head? = some w
  distinct : w.members.Nodup
  issuing : ∀ u ∈ w.members, (∃ t ∈ s.threads, t.uid = u) ∧ (s.thr u).phase = .issuing
  teamed : ∀ u ∈ w.members, ∃ k ∈ s.teams, k.uid = (s.thr u).team

/-- The registers an instruction names: v, s and predicate registers read and written, h registers, and the counter it raises. -/
structure Names where
  rv : List Nat := []
  wv : List Nat := []
  rs : List Nat := []
  ws : List Nat := []
  rp : List Nat := []
  wp : List Nat := []
  rh : List Nat := []
  cls : Cls := .none
  deriving DecidableEq, Repr

/-- A thread u can issue an instruction with guard g that names n: nothing it names is pending, and where the guard is true it owns its v registers, no register it reads is poisoned, and its counter is below 63 (R135, R141, R148, R202, R231). -/
structure State.Free (s : State) (g : Guard) (n : Names) (u : Nat) : Prop where
  guard : g.pred ≠ 0 → g.pred.toNat ∉ (s.thr u).pendP
  owned : (s.thr u).guard g = true → ∀ r ∈ n.rv ++ n.wv, r < (s.thr u).owned
  pendV : (s.thr u).guard g = true → ∀ r ∈ n.rv ++ n.wv, r ∉ (s.thr u).pendV
  pendP : (s.thr u).guard g = true → ∀ r ∈ n.rp ++ n.wp, r ∉ (s.thr u).pendP
  pendS : (s.thr u).guard g = true → ∀ r ∈ n.rs ++ n.ws, r ∉ (s.teamOf u).pendS
  pendH : (s.thr u).guard g = true → ∀ r ∈ n.rh, r ∉ (s.teamOf u).pendH
  poison : (s.thr u).guard g = true → ∀ r ∈ n.rv, r ∉ (s.thr u).poison
  sPoison : (s.thr u).guard g = true → ∀ r ∈ n.rs, r ∉ (s.teamOf u).sPoison
  counter : (s.thr u).guard g = true → n.cls ≠ .none → (s.thr u).counter n.cls < 63

/-- Wave w issues, and every member can issue an instruction with guard g that names n. -/
structure State.Ready (s : State) (w : Wave) (g : Guard) (n : Names) : Prop where
  wave : s.Issues w
  free : ∀ u ∈ w.members, s.Free g n u

/-- A thread u of the wave for which the guard is true. -/
def State.Active (s : State) (w : Wave) (g : Guard) (u : Nat) : Prop := u ∈ w.members ∧ (s.thr u).guard g = true

/-- From s to t an instruction of the given length has acted by P on each active thread (its team, the thread before and after); every other thread keeps its data, every member of the wave moves past the instruction, teams and the rest of the machine keep theirs. -/
structure Acts (s t : State) (w : Wave) (g : Guard) (bytes : Nat) (P : Team → Thread → Thread → Prop) : Prop where
  active : ∀ u, s.Active w g u → P (s.teamOf u) (s.thr u) (t.thr u)
  idle : ∀ u, ¬ s.Active w g u → Thread.SameBut [] [] (s.thr u) (t.thr u)
  pc : ∀ u ∈ w.members, (t.thr u).pc = (s.thr u).pc + BitVec.ofNat 64 bytes
  teams : ∀ k, Team.SameBut [] (s.tm k) (t.tm k)
  rest : State.SameRest s t

/-- v register d takes a value of the thread before; everything else of the thread stays, and the poison mark of d is cleared. -/
def SetsV (d : Nat) (x : Team → Thread → Word) (tm : Team) (a b : Thread) : Prop :=
  b.rv d = x tm a ∧ d ∉ b.poison ∧ Thread.SameBut [d] [] a b
/-- A v pair takes a value. -/
def SetsPair (d : Nat) (x : Team → Thread → Dword) (tm : Team) (a b : Thread) : Prop :=
  b.rpair d = x tm a ∧ d ∉ b.poison ∧ d + 1 ∉ b.poison ∧ Thread.SameBut [d, d + 1] [] a b
/-- A predicate becomes true exactly where x holds; a write to p0 is discarded (R186). -/
def SetsP (p : Nat) (x : Team → Thread → Prop) (tm : Team) (a b : Thread) : Prop :=
  (b.rp p = true ↔ p = 0 ∨ x tm a) ∧ Thread.SameBut [] [p] a b


/-- Instruction i answers a next state in which it has acted by P (see Acts). -/
def Does (s : State) (w : Wave) (i : Instr) (g : Guard) (bytes : Nat) (P : Team → Thread → Thread → Prop) : Prop :=
  ∃ t, exec i s = .next t ∧ Acts s t w g bytes P

/-! ### Exact integers -/

/-- The integer a word stands for under a 32-bit type (R162). -/
def readWord (ty : ElemType) (a : Word) : Int := if ty = .n32 then a.toNat else a.toInt
/-- The word of an exact integer: its low 32 bits; with SAT it is first clamped to the range of the type (R162, R206). -/
def fitWord (ty : ElemType) (sat : Bool) (z : Int) : Word :=
  BitVec.ofInt 32 (if sat then (if ty = .n32 then max 0 (min z (2 ^ 32 - 1)) else max (-2 ^ 31) (min z (2 ^ 31 - 1))) else z)


/-- Conditions 0 to 9 of Table 9.8: EQ NE LT LE GT GE on signed values, LTU LEU GTU GEU on unsigned ones. -/
def CondHolds {n : Nat} (cc : Nat) (a b : BitVec n) : Prop :=
  match cc with
  | 0 => a = b
  | 1 => a ≠ b
  | 2 => a.toInt < b.toInt
  | 3 => a.toInt ≤ b.toInt
  | 4 => a.toInt > b.toInt
  | 5 => a.toInt ≥ b.toInt
  | 6 => a.toNat < b.toNat
  | 7 => a.toNat ≤ b.toNat
  | 8 => a.toNat > b.toNat
  | _ => a.toNat ≥ b.toNat

/-! ### Writes of team-scope registers (R156, R203) -/

/-- The wave holds every live thread of team k. -/
def State.Whole (s : State) (w : Wave) (k : Nat) : Prop := ∀ t ∈ s.threads, t.team = k → t.phase ≠ .exited → t.uid ∈ w.members
/-- No write for a team of an active thread is a partial one in a DET launch. -/
def State.MayWrite (s : State) (w : Wave) (g : Guard) : Prop := ∀ u, s.Active w g u → s.Whole w (s.thr u).team ∨ s.det (s.thr u).team = false
/-- Team k has an active thread. -/
def State.ActiveTeam (s : State) (w : Wave) (g : Guard) (k : Nat) : Prop := ∃ u, s.Active w g u ∧ (s.thr u).team = k
/-- From s to t an instruction has acted by P on each team (its number, before, after) that has an active thread; other teams, threads and the rest of the machine keep their data, and every member of the wave moves past the instruction. -/
structure ActsTeams (s t : State) (w : Wave) (g : Guard) (bytes : Nat) (P : Nat → Team → Team → Prop) : Prop where
  active : ∀ k, s.ActiveTeam w g k → P k (s.tm k) (t.tm k)
  idle : ∀ k, ¬ s.ActiveTeam w g k → Team.SameBut [] (s.tm k) (t.tm k)
  threads : ∀ u, Thread.SameBut [] [] (s.thr u) (t.thr u)
  pc : ∀ u ∈ w.members, (t.thr u).pc = (s.thr u).pc + BitVec.ofNat 64 bytes
  rest : State.SameRest s t
/-- Instruction i answers a next state in which it has acted on teams by P. -/
def DoesTeams (s : State) (w : Wave) (i : Instr) (g : Guard) (bytes : Nat) (P : Nat → Team → Team → Prop) : Prop :=
  ∃ t, exec i s = .next t ∧ ActsTeams s t w g bytes P
/-- What a write of a team-scope register does beside the value (R156): the writers are recorded; UMIX is set where the write is partial, the writers differ from the last ones, and the value differs. -/
structure State.Recorded (s : State) (w : Wave) (r : TeamReg) (differs : Prop) (k : Nat) (a b : Team) : Prop where
  writers : b.lastWriters r = writersOf s w.members k
  mixed : ¬ s.Whole w k → a.lastWriters r ≠ writersOf s w.members k → differs → b.teamstat = a.teamstat ||| 1
  unmixed : s.Whole w k ∨ a.lastWriters r = writersOf s w.members k ∨ ¬ differs → b.teamstat = a.teamstat
/-- s register d of a team takes a value, under R156. -/
def State.SetsS (s : State) (w : Wave) (d : Nat) (x : Team → Word) (k : Nat) (a b : Team) : Prop :=
  b.rs d = x a ∧ d ∉ b.sPoison ∧ s.Recorded w (.s d) (a.rs d ≠ x a) k a b ∧ Team.SameBut [d] { a with teamstat := b.teamstat } b
/-- The lowest-lane active thread of a team (R203). -/
def State.Supplies (s : State) (w : Wave) (g : Guard) (k u : Nat) : Prop :=
  s.Active w g u ∧ (s.thr u).team = k ∧ ∀ v, s.Active w g v → (s.thr v).team = k → (s.thr u).lane ≤ (s.thr v).lane

/-! ### Transfers, waits and states of threads -/

/-- Numbers of threads and teams are distinct, and fresh ones lie above them (an invariant of the machine). -/
structure State.Numbered (s : State) : Prop where
  threads : (s.threads.map Thread.uid).Nodup
  teams : (s.teams.map Team.uid).Nodup
  thrBelow : ∀ t ∈ s.threads, t.uid < s.nextId
  teamBelow : ∀ t ∈ s.teams, t.uid < s.nextId
/-- Acts, for an instruction that moves threads: the PC of each member of the wave becomes the given one. -/
structure ActsTo (s t : State) (w : Wave) (g : Guard) (dest : Nat → Dword) (P : Team → Thread → Thread → Prop) : Prop where
  active : ∀ u, s.Active w g u → P (s.teamOf u) (s.thr u) (t.thr u)
  idle : ∀ u, ¬ s.Active w g u → Thread.SameBut [] [] (s.thr u) (t.thr u)
  pc : ∀ u ∈ w.members, (t.thr u).pc = dest u
  teams : ∀ k, Team.SameBut [] (s.tm k) (t.tm k)
  rest : State.SameRest s t
/-- Instruction i answers a next state in which it has acted by P and each member of the wave stands where `dest` says. -/
def DoesTo (s : State) (w : Wave) (i : Instr) (g : Guard) (dest : Nat → Dword) (P : Team → Thread → Thread → Prop) : Prop :=
  ∃ t, exec i s = .next t ∧ ActsTo s t w g dest P
/-- ActsTo, where the instruction also changes what no thread or team holds: the rest is that of s' (s with these changes). -/
structure ActsIn (s s' t : State) (w : Wave) (g : Guard) (dest : Nat → Dword) (P : Team → Thread → Thread → Prop) : Prop where
  active : ∀ u, s.Active w g u → P (s.teamOf u) (s.thr u) (t.thr u)
  idle : ∀ u, ¬ s.Active w g u → Thread.SameBut [] [] (s.thr u) (t.thr u)
  pc : ∀ u ∈ w.members, (t.thr u).pc = dest u
  teams : ∀ k, Team.SameBut [] (s.tm k) (t.tm k)
  rest : State.SameRest s' t
/-- Instruction i answers a next state in which it has acted so. -/
def DoesIn (s s' : State) (w : Wave) (i : Instr) (g : Guard) (dest : Nat → Dword) (P : Team → Thread → Thread → Prop) : Prop :=
  ∃ t, exec i s = .next t ∧ ActsIn s s' t w g dest P
/-- Past the instruction, or still at it for an active thread that waits. -/
def State.pastOr (s : State) (g : Guard) (bytes : Nat) (stays : Nat → Bool) (u : Nat) : Dword :=
  if (s.thr u).guard g && stays u then (s.thr u).pc else (s.thr u).pc + BitVec.ofNat 64 bytes
/-- A thread keeps its data. -/
def Keeps (_ : Team) (a b : Thread) : Prop := Thread.SameBut [] [] a b
/-- A thread keeps its data and takes a state. -/
def Enters (p : Phase) (x : Team → Thread → Wait → Prop) (tm : Team) (a b : Thread) : Prop := b.phase = p ∧ x tm a b.wait ∧ Thread.SameBut [] [] a b

/-! ### Elements of registers (R173, R262) -/

/-- The registers that hold an element of a type from d on. -/
def elemRegs (ty : ElemType) (d : Nat) : List Nat := if ty.wide then [d, d + 1] else [d]
/-- Element sel of register d takes a value: a pair for a 64-bit type, the register for a 32-bit one, one element of it for a narrower one; FLAGS gains the flags. -/
structure PutsElem (ty : ElemType) (sel d : Nat) (x : Nat × Flags) (a b : Thread) : Prop where
  wide : ty.wide = true → b.rpair d = BitVec.ofNat 64 x.1
  word : ty.width = 32 → b.rv d = BitVec.ofNat 32 x.1
  narrow : ty.width < 32 → ∀ k < 32 / ty.width, elemOf ty.width k (b.rv d) = if k = sel then x.1 % 2 ^ ty.width else elemOf ty.width k (a.rv d)
  marks : ∀ n ∈ elemRegs ty d, n ∉ b.poison
  flags : b.flags = a.flags ||| x.2
  same : Thread.SameBut (elemRegs ty d) [] { a with flags := b.flags } b
/-- An element takes a value computed from the thread and its team. -/
def SetsElem (ty : ElemType) (sel d : Nat) (x : Team → Thread → Nat × Flags) (tm : Team) (a b : Thread) : Prop := PutsElem ty sel d (x tm a) a b

/-! ### Steps of the device -/

/-- t is s but for what follows by itself: threads and teams keep their data, the rest of the machine is unchanged (see State.SameRest). -/
structure State.Then (s t : State) : Prop where
  threads : ∀ u, Thread.SameBut [] [] (s.thr u) (t.thr u)
  teams : ∀ k, Team.SameBut [] (s.tm k) (t.tm k)
  rest : State.SameRest s t
/-- Instruction or step i answers a next state, which is s' but for what follows by itself. -/
def Leads (i : Instr) (s s' : State) : Prop := ∃ t, exec i s = .next t ∧ s'.Then t

/-- Leads, with a further property of the next state. -/
def LeadsTo (i : Instr) (s s' : State) (Q : State → Prop) : Prop := ∃ t, exec i s = .next t ∧ s'.Then t ∧ Q t
/-- Request r is one of the state and the only one of its number, and it is the last of its instruction for its threads (R231). -/
structure State.Pending (s : State) (r : Req) : Prop where
  here : s.req? r.id = some r
  only : ∀ q ∈ s.reqs, q.id = r.id → q = r
  uncollected : ∀ e ∈ s.coll, ∀ q ∈ e.reqs, q.id ≠ r.id
  last : ∀ q ∈ s.allReqs, q.id ≠ r.id → q.group = r.group → q.cls = r.cls → ∀ u ∈ r.threads, u ∉ q.threads
/-- Request r is done: it is gone, and its class falls by one in its threads. -/
def State.drop (s : State) (r : Req) : State :=
  r.threads.foldl (fun s u => s.modThr u (fun t => t.countDown r.cls)) { s with reqs := s.reqs.filter (fun q => q.id != r.id) }
/-- The bytes from physical address pa on become bs. -/
def State.put (s : State) (pa : Nat) (bs : List Byte) : State := { s with mem := { s.mem with bytes := s.mem.bytes.writeN pa bs } }

/-! ### Instructions that act on more than threads and teams -/

/-- Thread u is the one active thread of a ready wave (other members have a false guard); the machine's numbers are distinct. -/
structure State.Lone (s : State) (w : Wave) (g : Guard) (n : Names) (u : Nat) : Prop where
  ready : s.Ready w g n
  only : ∀ v, s.Active w g v ↔ v = u
  numbered : s.Numbered
/-- Instruction i answers a next state t, which is s' but for what follows by itself (see State.Then), in which each thread of the wave stands where `dest` says, and of which Q holds. -/
def Effects (s : State) (w : Wave) (i : Instr) (dest : Nat → Dword) (s' : State) (Q : State → Prop := fun _ => True) : Prop :=
  ∃ t, exec i s = .next t ∧ s'.Then t ∧ (∀ v ∈ w.members, (t.thr v).pc = dest v) ∧ Q t
/-- Past the instruction. -/
def State.past (s : State) (bytes : Nat) (v : Nat) : Dword := (s.thr v).pc + BitVec.ofNat 64 bytes
/-- Past the instruction, but for thread u where it is held. -/
def State.pastBut (s : State) (bytes u : Nat) (held : Bool) (v : Nat) : Dword := if v = u ∧ held = true then (s.thr v).pc else s.past bytes v
/-- A cached translation of a core serves an access of a context at va (R21, R25, R35). -/
def State.Hits (s : State) (core fn ctx : Nat) (n : Need) (va pa mt leaf : Nat) : Prop :=
  canonical va = true ∧ ∃ e, tlbHit core fn ctx va s = some e ∧ judge n va e.leaf.toNat e.size s = .ok pa mt leaf
/-- A cached translation of the thread's core serves an access of its context at va. -/
def State.Maps (s : State) (u : Nat) (n : Need) (va pa mt leaf : Nat) : Prop := s.Hits (s.teamOf u).core (s.ctxOf u).1 (s.ctxOf u).2 n va pa mt leaf
/-- The accesses of a thread at the addresses vas pass the checks of R234 by cached translations, and ps are their places: aligned, mapped, no locked byte (R70), and for a store no page under migration (R34). -/
def State.Places (s : State) (u : Nat) (n : Need) (store : Bool) (size : Nat) (vas : List Nat) (ps : List Source) : Prop :=
  List.Forall₂ (fun va p => va % size = 0 ∧ (∃ pa mt leaf, s.Maps u n va pa mt leaf ∧ p = placeOf va pa mt leaf) ∧
    lockedGlobal (s.teamOf u).core (s.ctxOf u).1 (s.ctxOf u).2 store va size s = false ∧ (store = true → s.isMigrating (s.ctxOf u).1 (s.ctxOf u).2 va = false)) vas ps
/-- Addresses of the elements of an access from a base on, modulo 2^64 (R230). -/
def Acc.vas (x : Acc) (base : Dword) : List Nat := x.elems.map (fun e => (x.addr base + e.1) % 2 ^ 64)
/-- The state with one more request, as thread u's instruction issues it: its number is fresh, its group the instruction; with ats 1 the host is asked for its translation (R41). -/
def State.asks (s : State) (cls : Cls) (us : List Nat) (team : Nat) (work : Work) (pc : Dword) (hold : Bool) (ats : Nat) : State :=
  let g := s.gr (s.tm team).grid
  let s' := { s with reqs := s.reqs ++ [⟨s.nextId, s.issue + 1, cls, us, (s.tm team).core, team, work, pc, s.gtick, hold, none, ats, s.gtick⟩] }
  if ats = 1 then s'.askHost g.fn g.ctx s.nextId false else s'
/-- The L1 of a core has places for n lines more (R45). -/
def State.Room (s : State) (core n : Nat) : Prop := (s.mem.l1.filter (fun x => x.core == core)).length + n ≤ s.l1Lines core

/-- No entry of the gather collectors holds a request of the thread. -/
def State.Uncollected (s : State) (u : Nat) : Prop := ∀ e ∈ s.coll, ∀ r ∈ e.reqs, u ∉ r.threads
/-- A release of a scope by thread u has nothing to write back: its accesses have performed, no write of the thread is lost, and from team scope on no line of its team is dirty (R120, R134). -/
def State.Settling (s : State) (u scope : Nat) : Prop :=
  memPending u s = false ∧ s.Uncollected u ∧ (s.thr u).lost = [] ∧ (1 ≤ scope → s.dirtyOf (s.thr u).team = [])
/-- A release of a scope by thread u has nothing to wait for: it has completed already, or nothing is left to write back, and as the scope asks every Tw of its accepted writes is reached and every transfer acknowledged (R120). -/
def State.Released (s : State) (u scope : Nat) : Prop :=
  (s.thr u).relDone = true ∨
  (s.Settling u scope ∧ (s.thr u).wait.req = 0 ∧ (2 ≤ scope → (s.thr u).maxTw ≤ s.gtick) ∧ (4 ≤ scope → ackPending u s = false))
/-- The n bytes at va that a load of the thread reads come from a leased L1 copy of its core, and are bs, none of them poisoned (R114, R48). -/
def State.Cached (s : State) (u va n : Nat) (bs : List Byte) : Prop :=
  ∃ pa x, s.Places u .read false n [va] [.glob va pa 0] ∧ s.l1? (s.teamOf u).core (s.ctxOf u).1 (s.ctxOf u).2 (va / 128) = some x ∧
    (x.dirty = [] ∨ x.team = (s.teamOf u).uid) ∧ usable (s.teamOf u) x s = true ∧ x.bytes (va % 128) n = (bs, false)
/-- Start of each line's part of the n bytes at va. -/
def chunks (va n : Nat) : List Nat := (List.range ((va % 128 + n + 127) / 128)).map (fun j => if j = 0 then va else (va / 128 + j) * 128)
/-- The n bytes at va that an engine reads for the thread lie in lines ls that L2 holds and that no access of this tick has touched; they are bs, none of them poisoned. -/
def State.Resident (s : State) (u va n : Nat) (ls : List L2Line) (bs : List Byte) : Prop :=
  ∃ pas : List Nat,
    List.Forall₂ (fun va pa => ∃ mt leaf, s.Maps u .read va pa mt leaf ∧ (regionOf pa).local = true ∧ pa % 128 = va % 128 ∧ pa / 128 ∉ s.mem.poison) (chunks va n) pas ∧
    List.Forall₂ (fun pa l => s.l2line? (pa / 128) = some l ∧ l.last ≠ s.gtick) pas ls ∧ (ls.map L2Line.line).Nodup ∧
    bs = ((chunks va n).zip pas).flatMap (fun c => s.mem.bytes.readN c.2 (min (va + n - c.1) (128 - c.1 % 128)))
/-- The lines have been accessed in this tick. -/
def State.touched (s : State) (ls : List L2Line) : State := ls.foldl (fun s l => s.setL2 { l with last := s.gtick }) s
/-- No dirty line of team k meets the n bytes at va, so an engine's read writes none back (R68, R131). -/
def State.Settled (s : State) (k va n : Nat) : Prop := ∀ x ∈ s.dirtyOf k, ¬ (x.line * 128 < va + n ∧ va < x.line * 128 + 128)

/-- Everything outside threads, teams and memory's bytes, but for what reading and writing memory moves: caches and their leases, translations, access counters, the served bytes, the ticks and marks of writes, the clock. -/
def State.beyond (s : State) : State :=
  { s.others with gtick := 0, free := 0, served := [], mem := { s.others.mem with l1 := [], l2 := [], horizon := [], history := [], access := [], tlb := [], walk := [], late := [], watches := [], layouts := [] } }
/-- t is s but for what follows by itself and what reading memory moves: no byte of memory changes outside the images of saved threads. -/
structure State.Touched (s t : State) : Prop where
  threads : ∀ u, Thread.SameBut [] [] (s.thr u) (t.thr u)
  teams : ∀ k, Team.SameBut [] (s.tm k) (t.tm k)
  bytes : s.Canonical → ∀ a, ¬ s.inImage a → t.mem.bytes.read a = s.mem.bytes.read a
  regs : ∀ fn priv off, perfCounter priv off = false → t.reg fn priv off = s.reg fn priv off
  grids : t.grids.map Grid.others = s.grids.map Grid.others
  faults : s.faults <+: t.faults
  beyond : t.beyond = s.beyond
/-- Effects, where the instruction also reads memory through the caches. -/
def Touches (s : State) (w : Wave) (i : Instr) (dest : Nat → Dword) (s' : State) (Q : State → Prop := fun _ => True) : Prop :=
  ∃ t, exec i s = .next t ∧ s'.Touched t ∧ (∀ v ∈ w.members, (t.thr v).pc = dest v) ∧ Q t

/-- A step of the device leads to s' but for what reading and writing memory moves (see State.Touched), with a further property. -/
def Steps (i : Instr) (s s' : State) (Q : State → Prop := fun _ => True) : Prop := ∃ t, exec i s = .next t ∧ s'.Touched t ∧ Q t

/-- A place gives n bytes bs to a load of the team, poisoned or not: the scratchpad, a constant, a leased L1 copy whose lease lasts for the given ticks, or L2 (R114, R118, R135). -/
def State.Gives (s : State) (tm : Team) (fn ctx ticks n : Nat) (p : Source) (bs : List Byte) (bad : Bool) : Prop :=
  match p with
  | .scratch o => bs = tm.scratch.readN o n ∧ bad = (span o n).any tm.scratchPoison.contains
  | .const b => bs = leBytes b n ∧ bad = false
  | .glob va _ 0 => ∃ x c e g p, s.l1? tm.core fn ctx (va / 128) = some x ∧ (x.dirty = [] ∨ x.team = tm.uid) ∧ x.copy = some (c, e, g, p) ∧
      s.gtick + ticks < e ∧ tm.saveTick ≤ g ∧ x.bytes (va % 128) n = (bs, bad)
  | .glob _ pa _ => bs = s.mem.bytes.readN pa n ∧ bad = (List.range ((pa % 128 + n + 127) / 128)).any (fun j => s.mem.poison.contains (pa / 128 + j))
/-- A line of bytes at pa takes a write as it stands: within one line that is not poisoned, in a page that no cut holds (R53, R135, R355). -/
def State.Takes (s : State) (pa n : Nat) : Prop := pa % 128 + n ≤ 128 ∧ pa / 128 ∉ s.mem.poison ∧ s.isCow (pa / 4096) = false
/-- The largest Tw of some threads' writes grows to tw at least (R120 item 4). -/
def State.noted (s : State) (who : Thread → Bool) (tw : Nat) : State :=
  { s with threads := s.threads.map (fun (t : Thread) => if who t then { t with maxTw := max t.maxTw tw } else t) }
/-- Threads us are FAULTED, and a new record of the cause names them, with faulting PC pc (R323). -/
def State.Faulted (s t : State) (c : Cause) (us : List Nat) (pc : Dword) : Prop :=
  (∀ u ∈ us, (t.thr u).phase = .faulted) ∧ ∃ r ∈ t.faults.drop s.faults.length, r.cause = c ∧ r.fpc = pc ∧ ∀ u ∈ us, u ∈ r.threads
/-- Physical address of a part. -/
def Part.pa (p : Part) : Nat := match p.dst with | .glob _ pa _ => pa | _ => 0
/-- The parts of a store of a team land from s on, beside what s0 shows: at L2 its bytes become memory's, and its threads' largest Tw grows; in L1 they are dirty bytes under the team's tag; in the scratchpad its bytes, unpoisoned; for the host or a peer they leave the device (R42, R50, R53, R235). -/
def Lands (i : Instr) (s s0 : State) (team : Nat) (us : List Nat) (parts : List Part) : Prop :=
  let tm := s.tm team
  let g := s.gr tm.grid
  (∀ p ∈ parts, p.nib = none) → (∃ m ∈ s.teams, m.uid = team) → parts ≠ [] →
  ((∀ p ∈ parts, ∃ va pa, p.dst = .glob va pa 1 ∧ s.Takes pa p.bytes.length) →
    ∃ tw, s.gtick ≤ tw ∧ Steps i s ((parts.foldl (fun (s : State) p => s.put p.pa p.bytes) s0).noted (fun t => us.contains t.uid) tw)) ∧
  (tm.saved = none → s.Room tm.core parts.length →
    (∀ p ∈ parts, ∃ va pa, p.dst = .glob va pa 0 ∧ va % 128 + p.bytes.length ≤ 128 ∧ ∀ x, s.l1? tm.core g.fn g.ctx (va / 128) = some x → x.dirty = [] ∨ x.team = tm.uid) →
    parts.Pairwise (fun p q => ∀ va pa vb pb, p.dst = .glob va pa 0 → q.dst = .glob vb pb 0 → va + p.bytes.length ≤ vb ∨ vb + q.bytes.length ≤ va) →
    Steps i s s0 (fun t => ∀ p ∈ parts, ∀ va pa, p.dst = .glob va pa 0 → ∃ x, t.l1? tm.core g.fn g.ctx (va / 128) = some x ∧ x.team = tm.uid ∧
      ∀ j < p.bytes.length, x.dirtyAt (va % 128 + j) = p.bytes[j]?)) ∧
  ((∀ p ∈ parts, ∃ o, p.dst = .scratch o) →
    Steps i s (s0.modTeam team (fun tm => parts.foldl (fun tm p => match p.dst with
      | .scratch o => { tm with scratch := tm.scratch.writeN o p.bytes, scratchPoison := tm.scratchPoison.filter (fun b => !decide (o ≤ b ∧ b < o + p.bytes.length)) }
      | _ => tm) tm))) ∧
  ((∀ p ∈ parts, ∃ va pa mt, p.dst = .glob va pa mt ∧ 2 ≤ mt) →
    Steps i s (parts.foldl (fun (s : State) p => s.sendOut g.fn g.ctx p.pa p.bytes false) s0))

/-- An engine of the core reads the n bytes at va through cached translations, from local memory: they are bs, none of them poisoned (R28, R68, R135). -/
def State.Reads (s : State) (core fn ctx va n : Nat) (bs : List Byte) : Prop :=
  ∃ pas : List Nat,
    List.Forall₂ (fun a pa => (∃ mt leaf, s.Hits core fn ctx .read a pa mt leaf) ∧ (regionOf pa).local = true ∧ pa % 128 = a % 128 ∧ pa / 128 ∉ s.mem.poison) (chunks va n) pas ∧
    bs = ((chunks va n).zip pas).flatMap (fun c => s.mem.bytes.readN c.2 (min (va + n - c.1) (128 - c.1 % 128)))
/-- The n bytes at va take an engine's write through the core's cached translations, whose D is set, at the places pas of their lines, in pages that no migration holds (R22, R26, R34, R53). -/
def State.Open (s : State) (core fn ctx va n : Nat) (pas : List Nat) : Prop :=
  s.waits = false ∧
  List.Forall₂ (fun a pa => (∃ mt leaf, s.Hits core fn ctx .write a pa mt leaf ∧ leaf.testBit 8 = true) ∧ s.isMigrating fn ctx a = false ∧ (regionOf pa).local = true ∧ s.Takes pa (min (va + n - a) (128 - a % 128))) (chunks va n) pas
/-- A unit's 8-byte counter at va of a context is taken through the core's cached translation, whose D is set, at the place pa, in a page that no migration holds (R22, R26, R34, R125). -/
def State.Counts (s : State) (core fn ctx va pa : Nat) : Prop :=
  va % 8 = 0 ∧ s.waits = false ∧ s.isMigrating fn ctx va = false ∧ (∃ mt leaf, s.Hits core fn ctx .atomic va pa mt leaf ∧ leaf.testBit 8 = true ∧ mt < 2) ∧ (regionOf pa).local = true ∧ s.Takes pa 8
/-- The n bytes at va become bs, line by line at the places pas. -/
def State.putRange (s : State) (va : Nat) (pas : List Nat) (bs : List Byte) : State :=
  ((chunks va bs.length).zip pas).foldl (fun s c => s.put c.2 ((bs.drop (c.1 - va)).take (128 - c.1 % 128))) s
/-- No line of the n bytes at pa is poisoned or in a page that a cut holds: a write of them is plain (R53, R135, R355). -/
def State.Plain (s : State) (pa n : Nat) : Prop := ∀ l, pa / 128 ≤ l → l * 128 < pa + n → l ∉ s.mem.poison ∧ s.isCow (l / 32) = false
/-- A function's n bytes at pa may be read and written by a unit, and are bs (R27, R28). -/
def State.Phys (s : State) (fn pa n : Nat) (bs : List Byte) : Prop := s.physOk fn pa n = true ∧ s.Plain pa n ∧ bs = s.mem.bytes.readN pa n
/-- A live thread of a team that grid `grid` has placed. -/
def State.LiveIn (s : State) (grid : Nat) (t : Thread) : Prop := t ∈ s.threads ∧ t.phase ≠ .exited ∧ ∃ m ∈ s.teams, m.grid = grid ∧ m.uid = t.team
/-- Flush point k of a grid is reached: its teams are placed, and each live thread is parked at its k-th flush-point instruction (R248). -/
def State.FlushAt (s : State) (grid k : Nat) : Prop :=
  (s.gr grid).teamCount ≤ (s.gr grid).next ∧ (∃ t, s.LiveIn grid t) ∧ ∀ t, s.LiveIn grid t → t.flushPoints = k ∧ t.phase = .parked .keys ∧ t.stopped = none
/-- The grid's end: its teams are placed and gone, and no task and no later grid of its own is left (R127, R316). -/
def State.AllOver (s : State) (grid : Nat) : Prop :=
  (s.gr grid).teamCount ≤ (s.gr grid).next ∧ (∀ m ∈ s.teams, m.grid ≠ grid) ∧ (∀ x ∈ s.tasks, x.grid ≠ grid) ∧ ∀ g ∈ s.grids, g.parent = grid → g.done = true

/-! ### Collectives (R151, R152) -/

/-- The threads of wave w are those of one set: all of team k, exactly the members that convergence register n holds, at one PC and in distinct lanes; none has signed. -/
structure State.Meets (s : State) (w : Wave) (n k : Nat) : Prop where
  team : ∀ u ∈ w.members, (s.thr u).team = k
  member : ∀ tid, ((s.tm k).conv n).isMember tid = true ↔ ∃ u ∈ w.members, (s.thr u).tid = tid
  unsigned : ((s.tm k).conv n).signed = []
  onePc : ∀ u ∈ w.members, ∀ v ∈ w.members, (s.thr u).pc = (s.thr v).pc
  lanes : ∀ u ∈ w.members, ∀ v ∈ w.members, (s.thr u).lane = (s.thr v).lane → u = v
  tids : ∀ t ∈ s.threads, t.team = k → ∀ u ∈ w.members, t.tid = (s.thr u).tid → t.uid = u
/-- Index of a thread in its set: its TID above the set's base. -/
def State.index (s : State) (n k u : Nat) : Nat := (s.thr u).tid - ((s.tm k).conv n).base
/-- The register keeps its set, and holds no signature. -/
def KeepsSet (n : Nat) (a b : Team) : Prop :=
  (b.conv n).base = (a.conv n).base ∧ (b.conv n).mask = (a.conv n).mask ∧ (b.conv n).signed = [] ∧ (∀ m, m ≠ n → b.conv m = a.conv m) ∧
  Team.SameBut [] { a with c := b.c } b
/-- A collective of the set of register n has issued: it has acted by P on each active member, and every member is READY past the 96-bit instruction; the register keeps its set; the rest is that of s' (s with what the instruction changes there). -/
structure Collects (s s' t : State) (w : Wave) (g : Guard) (n k : Nat) (P : Team → Thread → Thread → Prop) : Prop where
  active : ∀ u, s.Active w g u → P (s.tm k) (s.thr u) (t.thr u)
  idle : ∀ u, ¬ s.Active w g u → Thread.SameBut [] [] (s.thr u) (t.thr u)
  moves : ∀ u ∈ w.members, (t.thr u).pc = s.past 12 u ∧ (t.thr u).phase = .ready ∧ (t.thr u).age = 0
  set : KeepsSet n (s.tm k) (t.tm k)
  teams : ∀ j, j ≠ k → Team.SameBut [] (s.tm j) (t.tm j)
  rest : State.SameRest s' t
/-- Instruction i answers a next state in which the collective has issued so. -/
def MeetIn (s s' : State) (w : Wave) (i : Instr) (g : Guard) (n k : Nat) (P : Team → Thread → Thread → Prop) : Prop :=
  ∃ t, exec i s = .next t ∧ Collects s s' t w g n k P
/-- MeetIn, where threads and teams alone change. -/
def Meet (s : State) (w : Wave) (i : Instr) (g : Guard) (n k : Nat) (P : Team → Thread → Thread → Prop) : Prop := MeetIn s s w i g n k P
/-- The active members with their indices, in the order of the indices. -/
def State.actives (s : State) (w : Wave) (g : Guard) (n k : Nat) : List (Nat × Nat) :=
  (List.range 32).filterMap (fun i => (w.members.find? (fun u => (s.thr u).guard g && (s.thr u).tid == ((s.tm k).conv n).base + i)).map (fun u => (u, i)))
/-- The active members' elements, in the order of their indices. -/
def State.elems (s : State) (w : Wave) (g : Guard) (n k : Nat) (e : Thread → Nat) : List Nat :=
  (List.range 32).filterMap (fun i => (w.members.find? (fun u => (s.thr u).guard g && (s.thr u).tid == ((s.tm k).conv n).base + i)).map (fun u => e (s.thr u)))

/-! ### Launches (R309) -/

/-- A launch record is accepted through a core's translations in a context: constants, handle table, log capacity and core count as acceptance reads them (R205, R238, R247, R309, R312). -/
def State.Accepts (s : State) (core fn ctx : Nat) (b : List Byte) (r : List Dword × List Dword × Nat × Nat) : Prop :=
  let det := (fieldOf b 29 1).testBit 0
  ∃ c h, launchBad b = false ∧ (fieldOf b 31 1 = 1 → ∃ w ∈ s.worlds, w.fn = fn ∧ w.id = fieldOf b 30 1 ∧ fieldOf w.desc 8 2 = ctx) ∧
    s.Reads core fn ctx (fieldOf b 48 8) 512 c ∧ (if fieldOf b 56 8 = 0 then h = leBytes 0 128 else s.Reads core fn ctx (fieldOf b 56 8) 128 h) ∧
    (∀ a ∈ dwordsOf 16 h, a = 0 ∨ (a.toNat % 64 = 0 ∧ ∃ d, s.Reads core fn ctx a.toNat 64 d ∧ layMalformed d = false)) ∧
    r.1 = dwordsOf 64 c ∧ r.2.1 = dwordsOf 16 h ∧
    (if det = true ∧ fieldOf b 96 8 ≠ 0 then ∃ l, s.Reads core fn ctx (fieldOf b 96 8) 8 l ∧ r.2.2.1 = leNat l else r.2.2.1 = 0) ∧
    r.2.2.2 = (if det = true ∧ fieldOf b 44 4 ≠ 0 then fieldOf b 44 4 else 4 * (s.clusters.filter (fun (c : Cluster) => c.v && c.owner == fn && !c.margin)).length) ∧
    (det = true → r.2.2.2 ≠ 0)

/-! ### Kills (R342) -/

/-- Team k belongs to a grid of the context. -/
def State.TeamOf (s : State) (fn ctx k : Nat) : Prop := ∃ m ∈ s.teams, m.uid = k ∧ ∃ g ∈ s.grids, g.uid = m.grid ∧ g.fn = fn ∧ g.ctx = ctx
/-- From s to t a context is killed: its teams, threads, requests, copies, collector entries, binnings, tile spaces, save slots, service records and L1 lines are gone, its banks are free, its queues consume no more, and its grids stand killed with their reductions discarded (R342). -/
structure State.Gone (s t : State) (fn ctx : Nat) : Prop where
  teams : ∀ m ∈ t.teams, ¬ s.TeamOf fn ctx m.uid
  threads : ∀ v ∈ t.threads, ¬ s.TeamOf fn ctx v.team
  requests : ∀ q ∈ t.reqs, ¬ s.TeamOf fn ctx q.team
  bins : ∀ b ∈ t.bins, ¬ s.TeamOf fn ctx b.team
  copies : ∀ c ∈ t.copies, ¬ (c.fn = fn ∧ c.ctx = ctx)
  collector : ∀ e ∈ t.coll, ¬ (e.fn = fn ∧ e.ctx = ctx)
  spaces : ∀ x ∈ t.spaces, ¬ (x.fn = fn ∧ x.ctx = ctx)
  slots : ∀ x ∈ t.slots, ¬ (x.fn = fn ∧ x.ctx = ctx)
  services : ∀ r ∈ t.services, ¬ (r.fn = fn ∧ r.ctx = ctx)
  lines : ∀ l ∈ t.mem.l1, ¬ (l.fn = fn ∧ l.ctx = ctx)
  banks : ∀ core b, (t.bank core b).ctx ≠ some (fn, ctx)
  queues : ∀ q ∈ t.queues, q.fn = fn → q.ctxId = ctx → q.admitted = true → q.qdesc.getLsbD 0 = true → q.held = true
  grids : ∀ g ∈ t.grids, g.fn = fn → g.ctx = ctx → g.killed = true ∧ g.reds = []
/-- From s to t only contexts of function fn with an id in which P holds lose anything: the threads and teams of all others keep their data, and where no atomic of theirs is in flight no byte changes outside the images of saved threads, the fault rings of the function and the headers of the freed save slots (R342). -/
structure State.Spares (s t : State) (fn : Nat) (P : Nat → Prop) : Prop where
  threads : ∀ u, (∀ ctx, P ctx → ¬ s.TeamOf fn ctx (s.thr u).team) → Thread.SameBut [] [] (s.thr u) (t.thr u)
  teams : ∀ k, (∀ ctx, P ctx → ¬ s.TeamOf fn ctx k) → Team.SameBut [] (s.tm k) (t.tm k)
  bytes : s.Canonical → (∀ q ∈ s.allReqs, ∀ ctx, P ctx → s.TeamOf fn ctx q.team → ∀ u d pa mt o c, q.work ≠ .atomic u d pa mt o c) →
    ∀ a, ¬ s.inImage a → (∀ c ∈ s.contexts, c.fn = fn → ¬ (c.imageArea + 0x1000 ≤ a ∧ a < c.imageArea + 0x9000) ∧
      ∀ x ∈ s.slots, x.fn = fn → ¬ (slotBase c x.slot ≤ a ∧ a < slotBase c x.slot + 4)) → t.mem.bytes.read a = s.mem.bytes.read a

end Sys2Proof.Machine
end

