-- ==== Sys2Proof/Certificates/Slice0/Obligations.lean ====
section
/-! DEFINITION. The statements for the provers, one for each rule or group of rules of spec/. A statement with several parts is the conjunction of its claims. -/
open Sys2Proof Sys2Proof.Machine

/-! ### Integer instructions (spec/10_control_and_integer_instructions.md) -/

/-- R204, R206: the 32-bit moves and integer instructions: an immediate is sign-extended in arithmetic and zero-extended in logic, results wrap; only vD changes. -/
def Claims.IntegerShort : Prop :=
  ∀ (s : State) (w : Wave),
    (∀ x : SI, s.Ready w Guard.always { wv := [x.d.toNat] } →
      Does s w (.movi x) Guard.always 4 (SetsV x.d.toNat fun _ _ => (x.a ++ x.imm).signExtend 32)) ∧
    (∀ x : SA, s.Ready w Guard.always { rv := x.ob.vs false, wv := [x.d.toNat], rs := x.ob.ss false } →
      Does s w (.mov x) Guard.always 4 (SetsV x.d.toNat fun tm t => x.ob.val tm t)) ∧
    (∀ x : SI, s.Ready w Guard.always { rv := [x.a.toNat], wv := [x.d.toNat] } →
      let does (i : Instr) (f : Word → Word) := Does s w i Guard.always 4 (SetsV x.d.toNat fun _ t => f (t.rv x.a.toNat))
      let n : Word := x.imm.signExtend 32
      does (.iadd x) (fun a => a + n) ∧ does (.isub x) (fun a => a - n) ∧ does (.imul x) (fun a => a * n) ∧
      does (.imulh x) (fun a => BitVec.ofInt 32 (a.toInt * n.toInt / 2 ^ 32)) ∧
      does (.imin x) (fun a => if a.toInt ≤ n.toInt then a else n) ∧ does (.imax x) (fun a => if a.toInt ≤ n.toInt then n else a) ∧
      does (.and x) (fun a => a &&& x.imm.setWidth 32) ∧ does (.or x) (fun a => a ||| x.imm.setWidth 32) ∧ does (.xor x) (fun a => a ^^^ x.imm.setWidth 32) ∧
      does (.shl x) (fun a => a <<< x.imm.toNat) ∧ does (.shr x) (fun a => a >>> x.imm.toNat) ∧ does (.sar x) (fun a => a.sshiftRight x.imm.toNat) ∧
      does (.rot x) (fun a => a.rotateLeft x.imm.toNat)) ∧
    (∀ x : SA, s.Ready w Guard.always { rv := [x.a.toNat], wv := [x.d.toNat] } →
      let does (i : Instr) (f : Word → Word) := Does s w i Guard.always 4 (SetsV x.d.toNat fun _ t => f (t.rv x.a.toNat))
      does (.iabs x) (fun a => if a.toInt < 0 then -a else a) ∧ does (.not x) (fun a => ~~~a) ∧
      does (.popc x) (fun a => BitVec.ofNat 32 ((List.range 32).countP a.getLsbD)) ∧
      does (.clz x) (fun a => BitVec.ofNat 32 ((List.range 32).takeWhile (fun k => !a.getMsbD k)).length) ∧
      Does s w (.brev x) Guard.always 4 (fun _ t t' => (∀ k < 32, (t'.rv x.d.toNat).getLsbD k = (t.rv x.a.toNat).getLsbD (31 - k)) ∧
        x.d.toNat ∉ t'.poison ∧ Thread.SameBut [x.d.toNat] [] t t'))

/-- R206: the 96-bit integer arithmetic: exact, then wrapped or, with SAT = 1, clamped to the range of TYPE; FN = 1 makes IMULH, IMIN and IMAX unsigned. -/
def Claims.IntegerWide : Prop :=
  ∀ (s : State) (w : Wave) (x : WA),
    (s.Ready w x.x.g { rv := x.a.toNat :: x.ob.vs false, wv := [x.d.toNat], rs := x.ob.ss false } →
      let does (i : Instr) (f : Word → Word → Word) := i.wf = true → Does s w i x.x.g 12 (SetsV x.d.toNat fun tm t => f (t.rv x.a.toNat) (x.ob.val tm t))
      let fit := fitWord x.x.ty x.x.sat
      let int := readWord x.x.ty
      let int' := readWord (if x.x.fn = 1 then .n32 else .i32)
      does (.iaddWide x) (fun a b => fit (int a + int b)) ∧ does (.isubWide x) (fun a b => fit (int a - int b)) ∧ does (.imulWide x) (fun a b => fit (int a * int b)) ∧
      does (.imulhWide x) (fun a b => BitVec.ofInt 32 (int' a * int' b / 2 ^ 32)) ∧
      does (.iminWide x) (fun a b => if int' a ≤ int' b then a else b) ∧ does (.imaxWide x) (fun a b => if int' a ≤ int' b then b else a)) ∧
    (s.Ready w x.x.g { rv := x.a.toNat :: (x.ob.vs false ++ x.x.oc.vs false), wv := [x.d.toNat], rs := x.ob.ss false ++ x.x.oc.ss false } →
      (Instr.imad x).wf = true → Does s w (.imad x) x.x.g 12 (SetsV x.d.toNat fun tm t =>
        fitWord x.x.ty x.x.sat (readWord x.x.ty (t.rv x.a.toNat) * readWord x.x.ty (x.ob.val tm t) + readWord x.x.ty (x.x.oc.val tm t)))) ∧
    (s.Ready w x.x.g { rv := [x.a.toNat], wv := [x.d.toNat] } →
      (Instr.iabsWide x).wf = true → Does s w (.iabsWide x) x.x.g 12 (SetsV x.d.toNat fun _ t => fitWord .i32 x.x.sat |(t.rv x.a.toNat).toInt|))

/-- R204, R206, R207: the 96-bit moves and logic. A shift by 32 or more gives 0, or the sign for SAR; a rotate takes its count modulo 32; an empty field extracts 0 and inserts nothing. -/
def Obligations.LogicWide : Prop :=
  ∀ (s : State) (w : Wave),
    (∀ x : WA, s.Ready w x.x.g { rv := x.a.toNat :: x.ob.vs false, wv := [x.d.toNat], rs := x.ob.ss false } →
      let does (i : Instr) (f : Word → Word → Word) := Does s w i x.x.g 12 (SetsV x.d.toNat fun tm t => f (t.rv x.a.toNat) (x.ob.val tm t))
      does (.andWide x) (fun a b => a &&& b) ∧ does (.orWide x) (fun a b => a ||| b) ∧ does (.xorWide x) (fun a b => a ^^^ b) ∧
      does (.shlWide x) (fun a b => a <<< b.toNat) ∧ does (.shrWide x) (fun a b => a >>> b.toNat) ∧ does (.sarWide x) (fun a b => a.sshiftRight b.toNat) ∧
      does (.rotWide x) (fun a b => a.rotateLeft b.toNat) ∧
      does (.bfx x) (fun a b =>
        let pos := b.toNat % 256
        let n := min (b.toNat / 256 % 256) (32 - pos)
        if pos ≥ 32 ∨ n = 0 then 0 else if x.x.fn = 1 then (a.extractLsb' pos n).signExtend 32 else (a.extractLsb' pos n).setWidth 32)) ∧
    (∀ x : WA, s.Ready w x.x.g { rv := x.a.toNat :: (x.ob.vs false ++ x.x.oc.vs false), wv := [x.d.toNat], rs := x.ob.ss false ++ x.x.oc.ss false } →
      Does s w (.bfi x) x.x.g 12 (fun tm t t' =>
        let pos := (x.ob.val tm t).toNat % 256
        let n := min ((x.ob.val tm t).toNat / 256 % 256) (32 - pos)
        (∀ k < 32, (t'.rv x.d.toNat).getLsbD k = if pos ≤ k ∧ k < pos + n then (t.rv x.a.toNat).getLsbD (k - pos) else (x.x.oc.val tm t).getLsbD k) ∧
          x.d.toNat ∉ t'.poison ∧ Thread.SameBut [x.d.toNat] [] t t')) ∧
    (∀ x : WA, s.Ready w x.x.g { rv := [x.a.toNat], wv := [x.d.toNat] } →
      let does (i : Instr) (f : Word → Word) := Does s w i x.x.g 12 (SetsV x.d.toNat fun _ t => f (t.rv x.a.toNat))
      does (.notWide x) (fun a => ~~~a) ∧ does (.popcWide x) (fun a => BitVec.ofNat 32 ((List.range 32).countP a.getLsbD)) ∧
      does (.clzWide x) (fun a => BitVec.ofNat 32 ((List.range 32).takeWhile (fun k => !a.getMsbD k)).length) ∧
      Does s w (.brevWide x) x.x.g 12 (fun _ t t' => (∀ k < 32, (t'.rv x.d.toNat).getLsbD k = (t.rv x.a.toNat).getLsbD (31 - k)) ∧
        x.d.toNat ∉ t'.poison ∧ Thread.SameBut [x.d.toNat] [] t t')) ∧
    (∀ x : WA, s.Ready w x.x.g { rv := x.ob.vs false, wv := [x.d.toNat], rs := x.ob.ss false } →
      Does s w (.movWide x) x.x.g 12 (SetsV x.d.toNat fun tm t => x.ob.val tm t)) ∧
    (∀ x : WA, s.Ready w x.x.g { wv := [x.d.toNat] } → Does s w (.moviWide x) x.x.g 12 (SetsV x.d.toNat fun _ _ => x.x.w2)) ∧
    (∀ x : WA, s.Ready w x.x.g { rv := x.a.toNat :: x.ob.vs false, wv := [x.d.toNat], rs := x.ob.ss false, rp := [x.x.c.toNat] } →
      Does s w (.sel x) x.x.g 12 (SetsV x.d.toNat fun tm t => if t.rp x.x.c.toNat then t.rv x.a.toNat else x.ob.val tm t))

/-- R210, and of R204 and R189 UCONST and MOVL: the instructions on pairs: the low word stands in the named even register; results wrap modulo 2^64; CMP64 compares 64-bit values, UADD64 adds once for each team, a constant comes from the thread's own grid. An odd pair field is no well-formed instruction. -/
def Obligations.PairResults : Prop :=
  (∀ x : SA, (Instr.add64 x).fieldsOk = true ∨ (Instr.sub64 x).fieldsOk = true → x.d.toNat % 2 = 0 ∧ x.a.toNat % 2 = 0) ∧
  (∀ x : WA, (Instr.add64Wide x).fieldsOk = true ∨ (Instr.sub64Wide x).fieldsOk = true → x.d.toNat % 2 = 0 ∧ x.a.toNat % 2 = 0) ∧
  (∀ x : WA, (Instr.lea64 x).fieldsOk = true → x.d.toNat % 2 = 0 ∧ x.a.toNat % 2 = 0 ∧ x.x.c.toNat < 16 ∧ x.x.cs = false) ∧
  (∀ x : WA, (Instr.cmp64 x).fieldsOk = true → x.d.toNat < 8 ∧ x.a.toNat % 2 = 0 ∧ (x.x.lit = false → x.b.toNat % 2 = 0)) ∧
  (∀ x : SS, (Instr.uadd64 x).fieldsOk = true → x.d.toNat % 2 = 0 ∧ x.a.toNat % 2 = 0 ∧ x.b.toNat % 2 = 0) ∧
  (∀ x : WS, (Instr.uadd64Wide x).fieldsOk = true → x.d.toNat % 2 = 0 ∧ x.a.toNat % 2 = 0 ∧ (x.x.lit = false → x.b.toNat % 2 = 0)) ∧
  ∀ (s : State) (w : Wave),
    (∀ x : SA, s.Ready w Guard.always { rv := x.a.toNat :: (x.a.toNat + 1) :: x.ob.vs false, wv := [x.d.toNat, x.d.toNat + 1], rs := x.ob.ss false } →
      let does (i : Instr) (f : Dword → Dword → Dword) :=
        Does s w i Guard.always 4 (SetsPair x.d.toNat fun tm t => f (t.rv (x.a.toNat + 1) ++ t.rv x.a.toNat) ((x.ob.val tm t).signExtend 64))
      does (.add64 x) (fun a b => a + b) ∧ does (.sub64 x) (fun a b => a - b)) ∧
    (∀ x : WA, s.Ready w x.x.g { rv := x.a.toNat :: (x.a.toNat + 1) :: x.ob.vs false, wv := [x.d.toNat, x.d.toNat + 1], rs := x.ob.ss false } →
      let does (i : Instr) (f : Dword → Dword → Dword) :=
        Does s w i x.x.g 12 (SetsPair x.d.toNat fun tm t => f (t.rv (x.a.toNat + 1) ++ t.rv x.a.toNat) ((x.ob.val tm t).signExtend 64))
      does (.add64Wide x) (fun a b => a + b) ∧ does (.sub64Wide x) (fun a b => a - b) ∧ does (.lea64 x) (fun a b => a + (b <<< x.x.c.toNat))) ∧
    (∀ x : WL, s.Ready w x.x.g { wv := [x.d.toNat, x.d.toNat + 1] } → Does s w (.movl x) x.x.g 20 (SetsPair x.d.toNat fun _ _ => x.lit)) ∧
    (∀ x : SI, s.Ready w Guard.always { wv := [x.d.toNat, x.d.toNat + 1] } →
      Does s w (.uconst x) Guard.always 4 (SetsPair x.d.toNat fun tm _ => (s.gr tm.grid).consts.getD x.imm.toNat 0)) ∧
    (∀ x : WA, s.Ready w x.x.g { wv := [x.d.toNat, x.d.toNat + 1] } →
      Does s w (.uconstWide x) x.x.g 12 (SetsPair x.d.toNat fun tm _ => (s.gr tm.grid).consts.getD x.x.w2.toNat 0)) ∧
    (∀ x : WA, (Instr.cmp64 x).wf = true → x.bs = false → s.Ready w x.x.g { rv := x.a.toNat :: (x.a.toNat + 1) :: x.ob.vs true, rs := x.ob.ss true, wp := [x.d.toNat] } →
      Does s w (.cmp64 x) x.x.g 12 (SetsP x.d.toNat fun tm t => CondHolds x.x.fn.toNat (t.rpair x.a.toNat) (x.ob.pair tm t))) ∧
    (∀ x : SS, s.Ready w Guard.always { rs := [x.a.toNat, x.a.toNat + 1, x.b.toNat, x.b.toNat + 1], ws := [x.d.toNat, x.d.toNat + 1] } → s.MayWrite w Guard.always →
      DoesTeams s w (.uadd64 x) Guard.always 4 (fun _ a b => b.rspair x.d.toNat = a.rspair x.a.toNat + a.rspair x.b.toNat ∧
        Team.SameBut [x.d.toNat, x.d.toNat + 1] { a with teamstat := b.teamstat } b)) ∧
    (∀ x : WS, s.Ready w x.x.g { rs := x.a.toNat :: (x.a.toNat + 1) :: x.ob.ss true, ws := [x.d.toNat, x.d.toNat + 1] } → s.MayWrite w x.x.g →
      DoesTeams s w (.uadd64Wide x) x.x.g 12 (fun _ a b => b.rspair x.d.toNat = a.rspair x.a.toNat + (if x.x.lit then x.x.w2.signExtend 64 else a.rspair x.b.toNat) ∧
        Team.SameBut [x.d.toNat, x.d.toNat + 1] { a with teamstat := b.teamstat } b))

/-- R208, R209, and of R211 what writes a predicate: compares, carries and predicate logic write one predicate of each active thread (IADDC also vD); a write to p0 is discarded. ICMP takes conditions 0 to 9, TYPE 0000 and a predicate as D; IADDC has CS, TYPE and SAT 0. -/
def Obligations.PredicateResults : Prop :=
  (∀ x : WA, (Instr.icmp x).wf = true → x.x.fn.toNat < 10 ∧ x.d.toNat < 8 ∧ x.x.ty = .i32) ∧
  (∀ x : WA, (Instr.iaddc x).wf = true → x.x.fn.toNat < 2 ∧ x.x.cs = false ∧ x.x.ty = .i32 ∧ x.x.sat = false) ∧
  ∀ (s : State) (w : Wave),
    (∀ x : WA, (Instr.icmp x).wf = true → s.Ready w x.x.g { rv := x.a.toNat :: x.ob.vs false, rs := x.ob.ss false, wp := [x.d.toNat] } →
      Does s w (.icmp x) x.x.g 12 (SetsP x.d.toNat fun tm t => CondHolds x.x.fn.toNat (t.rv x.a.toNat) (x.ob.val tm t))) ∧
    (∀ x : WS, (Instr.ucmp x).wf = true → s.Ready w x.x.g { rs := x.a.toNat :: x.ob.ss false, wp := [x.d.toNat] } →
      Does s w (.ucmp x) x.x.g 12 (SetsP x.d.toNat fun tm _ => CondHolds x.x.fn.toNat (tm.rs x.a.toNat) (if x.x.lit then x.x.w2 else tm.rs x.b.toNat))) ∧
    (∀ x : WA, (Instr.iaddc x).wf = true →
      let ci := x.x.c.toNat % 8
      let co := x.x.c.toNat / 16
      s.Ready w x.x.g { rv := x.a.toNat :: x.ob.vs false, wv := [x.d.toNat], rs := x.ob.ss false, rp := [ci], wp := [co] } →
      Does s w (.iaddc x) x.x.g 12 (fun tm t t' =>
        let cin : Int := if ci ≠ 0 ∧ t.rp ci = true then 1 else 0
        let a : Int := (t.rv x.a.toNat).toNat
        let b : Int := (x.ob.val tm t).toNat
        let z := if x.x.fn = 1 then a - b - cin else a + b + cin
        t'.rv x.d.toNat = BitVec.ofInt 32 z ∧ (t'.rp co = true ↔ co = 0 ∨ (if x.x.fn = 1 then z < 0 else 2 ^ 32 ≤ z)) ∧
          x.d.toNat ∉ t'.poison ∧ Thread.SameBut [x.d.toNat] [co] t t')) ∧
    (let plog (fn : Nat) (a b : Prop) : Prop := match fn with | 0 => a ∧ b | 1 => a ∨ b | 2 => ¬ (a ↔ b) | 3 => a ∧ ¬ b | 4 => a ∨ ¬ b | 5 => a | _ => ¬ a
     (∀ x : SS, (Instr.plog x).wf = true → s.Ready w Guard.always { rp := [x.a.toNat, x.b.toNat], wp := [x.d.toNat] } →
      Does s w (.plog x) Guard.always 4 (SetsP x.d.toNat fun _ t => plog x.fn.toNat (t.rp x.a.toNat = true) (t.rp x.b.toNat = true))) ∧
     (∀ x : WS, (Instr.plogWide x).wf = true → s.Ready w x.x.g { rp := [x.a.toNat, x.b.toNat], wp := [x.d.toNat] } →
      Does s w (.plogWide x) x.x.g 12 (SetsP x.d.toNat fun _ t => plog x.x.fn.toNat (t.rp x.a.toNat = true) (t.rp x.b.toNat = true))))

/-- R156, R203, R211: the scalar instructions write one s register once for each team with an active thread, and record the writers; only that register and TEAMSTAT.UMIX change. UREAD takes the value of the lowest-lane active thread. CMP64 with BS = 1 reads an s pair. Where the spec leaves a choice it follows the model's own, notes/assumptions 8, 14. -/
def Obligations.ScalarResults : Prop :=
  ∀ (s : State) (w : Wave),
    (∀ x : SS, s.Ready w Guard.always { rs := [x.a.toNat, x.b.toNat], ws := [x.d.toNat] } → s.MayWrite w Guard.always →
      let does (i : Instr) (f : Word → Word → Word) := DoesTeams s w i Guard.always 4 (s.SetsS w x.d.toNat fun tm => f (tm.rs x.a.toNat) (tm.rs x.b.toNat))
      does (.uadd x) (fun a b => a + b) ∧ does (.usub x) (fun a b => a - b) ∧ does (.umul x) (fun a b => a * b) ∧
      does (.ulog x) (fun a b => match x.fn.toNat with | 0 => a &&& b | 1 => a ||| b | 2 => a ^^^ b | 3 => a &&& ~~~b | _ => ~~~a) ∧
      does (.ushift x) (fun a b => match x.fn.toNat with | 0 => a <<< b.toNat | 1 => a >>> b.toNat | 2 => a.sshiftRight b.toNat | _ => a.rotateLeft b.toNat)) ∧
    (∀ x : SS, s.Ready w Guard.always { rs := [x.a.toNat], ws := [x.d.toNat] } → s.MayWrite w Guard.always →
      DoesTeams s w (.umov x) Guard.always 4 (s.SetsS w x.d.toNat fun tm => tm.rs x.a.toNat)) ∧
    (∀ x : WS, s.Ready w x.x.g { rs := x.a.toNat :: x.ob.ss false, ws := [x.d.toNat] } → s.MayWrite w x.x.g →
      let does (i : Instr) (f : Word → Word → Word) := i.wf = true →
        DoesTeams s w i x.x.g 12 (s.SetsS w x.d.toNat fun tm => f (tm.rs x.a.toNat) (if x.x.lit then x.x.w2 else tm.rs x.b.toNat))
      let fit := fitWord x.x.ty x.x.sat
      let int := readWord x.x.ty
      does (.uaddWide x) (fun a b => fit (int a + int b)) ∧ does (.usubWide x) (fun a b => fit (int a - int b)) ∧ does (.umulWide x) (fun a b => fit (int a * int b)) ∧
      does (.ulogWide x) (fun a b => match x.x.fn.toNat with | 0 => a &&& b | 1 => a ||| b | 2 => a ^^^ b | 3 => a &&& ~~~b | _ => ~~~a) ∧
      does (.ushiftWide x) (fun a b => match x.x.fn.toNat with | 0 => a <<< b.toNat | 1 => a >>> b.toNat | 2 => a.sshiftRight b.toNat | _ => a.rotateLeft b.toNat)) ∧
    (∀ x : WS, s.Ready w x.x.g { rs := [x.a.toNat], ws := [x.d.toNat] } → s.MayWrite w x.x.g →
      DoesTeams s w (.umovWide x) x.x.g 12 (s.SetsS w x.d.toNat fun tm => if x.x.lit then x.x.w2 else tm.rs x.a.toNat)) ∧
    (∀ x : WA, s.Ready w x.x.g { rv := [x.a.toNat], ws := [x.d.toNat] } → s.MayWrite w x.x.g →
      DoesTeams s w (.uread x) x.x.g 12 (fun k a b => ∃ u, s.Supplies w x.x.g k u ∧ s.SetsS w x.d.toNat (fun _ => (s.thr u).rv x.a.toNat) k a b)) ∧
    (∀ x : WA, (Instr.cmp64 x).wf = true → x.bs = true → s.Ready w x.x.g { rv := x.a.toNat :: (x.a.toNat + 1) :: x.ob.vs true, rs := x.ob.ss true, wp := [x.d.toNat] } →
      Does s w (.cmp64 x) x.x.g 12 (SetsP x.d.toNat fun tm t => CondHolds x.x.fn.toNat (t.rpair x.a.toNat) (x.ob.pair tm t)))

/-- R112, R212, Table 10.5: what SPRD returns for each special register, a pair for GTICK and STOLEN. -/
def Claims.SpecialReads : Prop :=
  ∀ (s : State) (w : Wave) (g : Guard) (i : Instr) (d k bytes : Nat),
    (∃ x : SI, i = .sprd x ∧ g = Guard.always ∧ d = x.d.toNat ∧ k = x.imm.toNat ∧ bytes = 4) ∨ (∃ x : WA, i = .sprdWide x ∧ g = x.x.g ∧ d = x.d.toNat ∧ k = x.x.w2.toNat ∧ bytes = 12) →
    i.wf = true →
    (k = 0 → s.Ready w g { wv := [d, d + 1] } → Does s w i g bytes (SetsPair d fun tm _ => BitVec.ofNat 64 (s.gtick - s.stolenOf (s.gr tm.grid).fn))) ∧
    (k = 2 → s.Ready w g { wv := [d, d + 1] } → Does s w i g bytes (SetsPair d fun tm _ => BitVec.ofNat 64 (s.stolenOf (s.gr tm.grid).fn))) ∧
    (4 ≤ k → s.Ready w g { wv := [d] } → Does s w i g bytes (SetsV d fun tm t =>
      let gr := s.gr tm.grid
      let nat := BitVec.ofNat 32
      match k with
      | 4 => nat t.lane | 5 => nat t.slot | 6 => nat t.tid | 7 => nat tm.x | 8 => nat tm.y | 9 => nat tm.z
      | 10 => nat gr.gridId | 11 => nat gr.depth | 12 => nat t.role
      | 13 => nat (tm.core % 64) | 14 => nat (tm.core % 64 / 4) | 15 => nat (tm.core / 64)
      | 16 => tm.teamstat | 17 => t.flags.setWidth 32 | 18 => tm.mode | 19 => nat tm.lease | 20 => nat (topoWord s)
      | 21 => nat gr.ncores | 22 => nat (gr.world.getD 0xFFFFFFFF) | _ => tm.view))

/-- R170, R203, R212, R47, Table 10.6: SPWR replaces each active thread's FLAGS; MODE takes STRICTH, DBGSTOP (a write of 11 leaves it) and UBCHK, and LEASE the value clamped to 256 to 65,536, from the lowest-lane active thread of each team. -/
def Claims.SpecialWrites : Prop :=
  ∀ (s : State) (w : Wave) (g : Guard) (i : Instr) (a k bytes : Nat),
    (∃ x : SI, i = .spwr x ∧ g = Guard.always ∧ a = x.a.toNat ∧ k = x.imm.toNat ∧ bytes = 4) ∨ (∃ x : WA, i = .spwrWide x ∧ g = x.x.g ∧ a = x.a.toNat ∧ k = x.x.w2.toNat ∧ bytes = 12) →
    i.wf = true → s.Ready w g { rv := [a] } →
    (k = 0x11 → Does s w i g bytes (fun _ t t' => t'.flags = (t.rv a).setWidth 5 ∧ Thread.SameBut [] [] { t with flags := t'.flags } t')) ∧
    (k = 0x12 → s.MayWrite w g → DoesTeams s w i g bytes (fun k tm tm' => ∃ u, s.Supplies w g k u ∧
      let x := (s.thr u).rv a
      tm'.mode.getLsbD 0 = x.getLsbD 0 ∧ tm'.mode.getLsbD 3 = x.getLsbD 3 ∧
      tm'.mode.extractLsb' 1 2 = (if x.extractLsb' 1 2 = 3 then tm.mode.extractLsb' 1 2 else x.extractLsb' 1 2) ∧
      tm'.mode.extractLsb' 4 2 = tm.mode.extractLsb' 4 2 ∧ tm'.mode.extractLsb' 6 26 = 0 ∧
      s.Recorded w (.special 0) (tm'.mode ≠ tm.mode) k tm tm' ∧ Team.SameBut [] { tm with mode := tm'.mode, teamstat := tm'.teamstat, tLast := tm'.tLast } tm')) ∧
    (k = 0x13 → s.MayWrite w g → DoesTeams s w i g bytes (fun k tm tm' => ∃ u, s.Supplies w g k u ∧
      tm'.lease = max 256 (min 65536 ((s.thr u).rv a).toNat) ∧
      s.Recorded w (.special 1) (tm'.lease ≠ tm.lease) k tm tm' ∧ Team.SameBut [] { tm with lease := tm'.lease, teamstat := tm'.teamstat, tLast := tm'.tLast } tm'))

/-- Results of the moves and integer arithmetic, 32-bit and 96-bit, and their frame. Where the spec leaves a choice it follows the model's own, notes/assumptions 10. -/
def Obligations.IntegerResults : Prop := Claims.IntegerShort ∧ Claims.IntegerWide

/-- What SPRD reads and SPWR writes, and their frame. Where the spec leaves a choice it follows the model's own, notes/assumptions 14, 15. -/
def Obligations.SpecialRegisters : Prop := Claims.SpecialReads ∧ Claims.SpecialWrites

/-- R189: of MOVL only the 160-bit form is an instruction, and no other major has one; its words 1 and 2 are zero but for the guard (a function code other than 0 is ILLEGAL_OPCODE, R191). It writes its literal to the pair of each thread whose guard is true, and the PC advances by 20. -/
def Obligations.MovlForms : Prop :=
  (∀ (w0 : Word) (ws : List Word), bitsOf w0.toNat 31 30 ≠ 2 → bitsOf w0.toNat 28 22 = 3 → decodeWords (w0 :: ws) = .illegalOpcode) ∧
  (∀ (w0 : Word) (ws : List Word), bitsOf w0.toNat 31 30 = 2 → bitsOf w0.toNat 28 22 ≠ 3 → decodeWords (w0 :: ws) = .illegalOpcode) ∧
  (∀ (e : Bool) (d : BitVec 7) (low : BitVec 15) (w1 w2 w3 w4 : Word),
    decodeWords [2#2 ++ BitVec.ofBool e ++ 3#7 ++ d ++ low, w1, w2, w3, w4] =
      if w1.extractLsb' 20 8 ≠ 0 then .illegalOpcode
      else if d.getLsbD 0 = false ∧ low = 0 ∧ w1.extractLsb' 0 28 = 0 ∧ w1.extractLsb' 28 4 ≠ 8#4 ∧ w2 = 0 then
        .instr (.movl ⟨e, d, 0, ⟨⟨w1.getLsbD 31, w1.extractLsb' 28 3⟩, 0, 0, false, .i32, 0, false, false, 0, 0⟩, w4 ++ w3⟩)
      else .reservedField) ∧
  (∀ (s : State) (w : Wave) (x : WL), s.Ready w x.x.g { wv := [x.d.toNat, x.d.toNat + 1] } → Does s w (.movl x) x.x.g 20 (SetsPair x.d.toNat fun _ _ => x.lit))

/-! ### Transfers, waits and states of threads (spec/10_control_and_integer_instructions.md, spec/07_execution_model.md) -/

/-- R182, R217, R218: BR, JMP, CALL and RET decide for each thread by itself: a thread whose condition or guard is true moves to its target, another to the next instruction; CALL puts the address after itself into the link pair of the threads that go. -/
def Claims.Transfers : Prop :=
  ∀ (s : State) (w : Wave),
    (∀ x : SB, s.Ready w Guard.always { rp := [x.g.pred.toNat] } →
      let target (u : Nat) : Dword := (s.thr u).pc + 4 * x.off.signExtend 64
      let dest (u : Nat) : Dword := if (s.thr u).guard x.g then target u else (s.thr u).pc + 4
      (∀ u, s.Active w x.g u → (target u).toNat % 4 = 0) →
      DoesTo s w (.br x) x.g dest Keeps ∧
      ((∀ u, s.Active w x.g u → 128 ≤ (s.thr u).owned ∧ 126 ∉ (s.thr u).pendV ∧ 127 ∉ (s.thr u).pendV) →
        DoesTo s w (.call x) x.g dest (SetsPair 126 fun _ t => t.pc + 4))) ∧
    (∀ x : WB, s.Ready w Guard.always { rp := [x.g.pred.toNat], rv := if x.x.fn = 0 then [] else [x.x.c.toNat, x.x.c.toNat + 1] } →
      let target (n : Dword) (u : Nat) : Dword := if x.x.fn = 0 then (s.thr u).pc + 4 * n else (s.thr u).rpair x.x.c.toNat
      let dest (n : Dword) (u : Nat) : Dword := if (s.thr u).guard x.g then target n u else (s.thr u).pc + 12
      let link := x.x.w2.toNat
      ((∀ u, s.Active w x.g u → (target (x.x.w2.signExtend 64) u).toNat % 4 = 0) → DoesTo s w (.brWide x) x.g (dest (x.x.w2.signExtend 64)) Keeps) ∧
      ((∀ u, s.Active w x.g u → (target (x.off.signExtend 64) u).toNat % 4 = 0) →
        (∀ u, s.Active w x.g u → link + 2 ≤ (s.thr u).owned ∧ link ∉ (s.thr u).pendV ∧ link + 1 ∉ (s.thr u).pendV) →
        DoesTo s w (.callWide x) x.g (dest (x.off.signExtend 64)) (SetsPair link fun _ t => t.pc + 12))) ∧
    (∀ x : SA, s.Ready w Guard.always { rv := [x.a.toNat, x.a.toNat + 1] } → (∀ u ∈ w.members, ((s.thr u).rpair x.a.toNat).toNat % 4 = 0) →
      DoesTo s w (.jmp x) Guard.always (fun u => (s.thr u).rpair x.a.toNat) Keeps ∧ DoesTo s w (.ret x) Guard.always (fun u => (s.thr u).rpair x.a.toNat) Keeps) ∧
    (∀ x : WA, s.Ready w x.x.g { rv := [x.a.toNat, x.a.toNat + 1] } → (∀ u, s.Active w x.x.g u → ((s.thr u).rpair x.a.toNat).toNat % 4 = 0) →
      let dest (u : Nat) : Dword := if (s.thr u).guard x.x.g then (s.thr u).rpair x.a.toNat else (s.thr u).pc + 12
      DoesTo s w (.jmpWide x) x.x.g dest Keeps ∧ DoesTo s w (.retWide x) x.x.g dest Keeps)

/-- R217, R182: BRU moves the threads of a team together, by the condition and the target of its lowest-lane thread in the wave, where UBCHK is 0 or they all agree. -/
def Claims.UniformBranches : Prop :=
  ∀ (s : State) (w : Wave) (i : Instr) (c : Guard) (bytes : Nat) (target : Nat → Dword) (indirect : Prop),
    (∃ x : SB, i = .bru x ∧ c = x.g ∧ bytes = 4 ∧ target = (fun u => (s.thr u).pc + 4 * x.off.signExtend 64) ∧ ¬ indirect ∧ s.Ready w Guard.always { rp := [x.g.pred.toNat] }) ∨
    (∃ x : WB, i = .bruWide x ∧ c = x.g ∧ bytes = 12 ∧ (indirect ↔ x.x.fn ≠ 0) ∧
      target = (fun u => if x.x.fn = 0 then (s.thr u).pc + 4 * x.x.w2.signExtend 64 else (s.thr u).rpair x.x.c.toNat) ∧
      s.Ready w Guard.always { rp := [x.g.pred.toNat], rv := if x.x.fn = 0 then [] else [x.x.c.toNat, x.x.c.toNat + 1] }) →
    (∀ l u, s.Supplies w Guard.always (s.thr u).team l → u ∈ w.members →
      ((s.teamOf u).mode.getLsbD 0 = true → (s.thr u).guard c = (s.thr l).guard c ∧ ((s.thr l).guard c = true → indirect → target u = target l)) ∧
      ((s.thr l).guard c = true → (target l).toNat % 4 = 0)) →
    ∃ t, exec i s = .next t ∧
      (∀ u ∈ w.members, ∃ l, s.Supplies w Guard.always (s.thr u).team l ∧ (t.thr u).pc = if (s.thr l).guard c = true then target l else (s.thr u).pc + BitVec.ofNat 64 bytes) ∧
      (∀ u, Thread.SameBut [] [] (s.thr u) (t.thr u)) ∧ (∀ k, Team.SameBut [] (s.tm k) (t.tm k)) ∧ State.SameRest s t

/-- R204, R218, R148: NOP does nothing; YIELD ends the span, and the threads of the wave, active or not, are READY with age 0 after it. -/
def Claims.NopAndYield : Prop :=
  ∀ (s : State) (w : Wave),
    (s.Ready w Guard.always {} → (∀ x : SA, Does s w (.nop x) Guard.always 4 Keeps) ∧ (∀ x : WA, Does s w (.nopWide x) Guard.always 12 Keeps)) ∧
    (∀ (i : Instr) (g : Guard) (bytes : Nat), (∃ x : SA, i = .yield x ∧ g = Guard.always ∧ bytes = 4) ∨ (∃ x : WA, i = .yieldWide x ∧ g = x.x.g ∧ bytes = 12) →
      s.Ready w g {} → s.Numbered → ∃ t, exec i s = .next t ∧ Acts s t w g bytes Keeps ∧ ∀ u ∈ w.members, (t.thr u).phase = .ready ∧ (t.thr u).age = 0)

/-- R139, R219, R220, R222, Table 7.4: the instructions that change a thread's state: EXIT makes it EXITING; WAITC holds it in COUNTER_WAIT while a counter is above its limit; SLEEPT puts it to SLEEP until its view reaches the tick (R69: with no missed promise it goes on otherwise); REGROUP parks it with its key. The PC of a thread that waits stays. -/
def Claims.StateChanges : Prop :=
  ∀ (s : State) (w : Wave) (g : Guard) (bytes : Nat), s.Numbered →
    let dest (stays : Nat → Bool) (u : Nat) : Dword := if (s.thr u).guard g && stays u then (s.thr u).pc else (s.thr u).pc + BitVec.ofNat 64 bytes
    (∀ i : Instr, (∃ x : SA, i = .exit x ∧ g = Guard.always ∧ bytes = 4) ∨ (∃ x : WA, i = .exitWide x ∧ g = x.x.g ∧ bytes = 12) → s.Ready w g {} →
      DoesTo s w i g (dest fun _ => true) (Enters .exiting fun _ _ _ => True)) ∧
    (∀ (i : Instr) (l0 l1 l2 l3 : Nat),
      (∃ x : SC, i = .waitc x ∧ g = Guard.always ∧ bytes = 4 ∧ l0 = x.ld.toNat ∧ l1 = x.st.toNat ∧ l2 = x.cp.toNat ∧ l3 = if x.tl = 15 then 63 else x.tl.toNat) ∨
      (∃ x : WC, i = .waitcWide x ∧ g = x.x.g ∧ bytes = 12 ∧ l0 = bitsOf x.x.w2.toNat 23 18 ∧ l1 = bitsOf x.x.w2.toNat 17 12 ∧ l2 = bitsOf x.x.w2.toNat 11 6 ∧ l3 = bitsOf x.x.w2.toNat 5 0) →
      s.Ready w g {} →
      let above (t : Thread) : Bool := decide (l0 < t.ld ∨ l1 < t.st ∨ l2 < t.cp ∨ l3 < t.tl)
      DoesTo s w i g (dest fun u => above (s.thr u)) (fun tm a b => Keeps tm a b ∧ (above a = true → b.phase = .counterWait ∧ b.wait.limits = [l0, l1, l2, l3]))) ∧
    (∀ (i : Instr) (r : Nat), (∃ x : SA, i = .sleept x ∧ g = Guard.always ∧ bytes = 4 ∧ r = x.a.toNat) ∨ (∃ x : WA, i = .sleeptWide x ∧ g = x.x.g ∧ bytes = 12 ∧ r = x.a.toNat) →
      s.Ready w g { rv := [r, r + 1] } →
      let early (u : Nat) : Bool := decide (s.viewOf (s.gridOf u).fn < ((s.thr u).rpair r).toNat)
      (∀ u, s.Active w g u → early u = false → ∀ c ∈ s.copies, c.th = u → s.viewOf c.fn < c.promise) →
      DoesTo s w i g (dest early) (fun tm a b => Keeps tm a b ∧ (s.viewOf (s.gr tm.grid).fn < (a.rpair r).toNat → b.phase = .sleep ∧ b.wait.tick = (a.rpair r).toNat))) ∧
    (∀ (i : Instr) (r n : Nat), (∃ x : SI, i = .regroup x ∧ g = Guard.always ∧ bytes = 4 ∧ r = x.a.toNat ∧ n = x.imm.toNat) ∨ (∃ x : WA, i = .regroupWide x ∧ g = x.x.g ∧ bytes = 12 ∧ r = x.a.toNat ∧ n = x.x.w2.toNat) →
      s.Ready w g { rv := [r] } → (∀ u, s.Active w g u → n ≤ (s.gridOf u).bregs) →
      DoesTo s w i g (dest fun _ => true) (Enters .regroupWait fun _ a wait => wait.key = a.rv r ∧ wait.num = n))

/-- R225: TRAP.BRK stops each active thread with cause BREAK after the instruction, and a new fault record of its team names it with the code. -/
def Claims.Breaks : Prop :=
  ∀ (s : State) (w : Wave) (i : Instr) (g : Guard) (bytes code : Nat),
    (∃ x : SS, i = .trapBrk x ∧ g = Guard.always ∧ bytes = 4 ∧ code = x.d.toNat) ∨ (∃ x : WS, i = .trapBrkWide x ∧ g = x.x.g ∧ bytes = 12 ∧ code = x.d.toNat) →
    s.Ready w g {} → s.Numbered → (∀ u ∈ w.members, (s.thr u).stopped = none ∧ (s.thr u).brk = none ∧ (s.thr u).step = false) →
    (∀ u ∈ w.members, ∀ v ∈ w.members, (s.thr u).pc = (s.thr v).pc) →
    ∃ t, exec i s = .next t ∧ Acts s t w g bytes Keeps ∧
      ∀ u, s.Active w g u → (t.thr u).stopped = some .brk ∧ ∃ r ∈ t.faults.drop s.faults.length, r.cause = .brk ∧ r.detail.kind = code ∧
        u ∈ r.threads ∧ r.team = (s.thr u).team ∧ r.fpc = (s.thr u).pc ∧ r.spc = (s.thr u).pc + BitVec.ofNat 64 bytes

/-- Where BR, BRU, JMP, CALL and RET move each thread, and their frame. -/
def Obligations.Branches : Prop := Claims.Transfers ∧ Claims.UniformBranches

/-- NOP, YIELD, EXIT, WAITC, SLEEPT, REGROUP and TRAP.BRK: the states of threads. Where the spec leaves a choice it follows the model's own, notes/assumptions 36. -/
def Obligations.ThreadStates : Prop := Claims.NopAndYield ∧ Claims.StateChanges ∧ Claims.Breaks

/-! ### Floating arithmetic (spec/12_vector_arithmetic_instructions.md, spec/08_number_formats.md) -/

/-- R262, R265 to R269: the 32-bit floating instructions act on F32 under round to nearest even; each writes vD and ORs its flags into FLAGS; nothing else changes. -/
def Claims.FloatShort : Prop :=
  ∀ (s : State) (w : Wave),
    (∀ x : SA, s.Ready w Guard.always { rv := x.a.toNat :: x.ob.vs false, wv := [x.d.toNat], rs := x.ob.ss false } →
      let does (i : Instr) (f : Nat → Nat → Nat × Flags) := Does s w i Guard.always 4 (SetsElem .f32 0 x.d.toNat fun tm t => f (t.rv x.a.toNat).toNat (x.ob.val tm t).toNat)
      does (.fadd x) (fun a b => fAdd .f32 0 false (unpack .f32 a) (unpack .f32 b)) ∧
      does (.fsub x) (fun a b => fAdd .f32 0 false (unpack .f32 a) (unpack .f32 b).negate) ∧
      does (.fmul x) (fun a b => fMul .f32 0 false (unpack .f32 a) (unpack .f32 b)) ∧
      does (.fminmax x) (fun a b => fMinMax .f32 false false a b)) ∧
    (∀ x : SA, s.Ready w Guard.always { rv := [x.a.toNat], wv := [x.d.toNat] } →
      Does s w (.fspc x) Guard.always 4 (SetsElem .f32 0 x.d.toNat fun _ t => fSpc .f32 x.b.toNat false (t.rv x.a.toNat).toNat) ∧
      Does s w (.fclass x) Guard.always 4 (SetsV x.d.toNat fun _ t => BitVec.ofNat 32 (fClass .f32 (t.rv x.a.toNat).toNat)))

/-- R262, R265 to R269, R271: the 96-bit floating instructions act on the element SEL of TYPE under RND and SAT: the element of vD takes the value, its other elements stay, and FLAGS gains the flags. -/
def Claims.FloatWide : Prop :=
  ∀ (s : State) (w : Wave) (x : WA),
    let ty := x.x.ty
    let sel := x.x.sel.toNat
    let rnd := x.x.rnd.toNat
    let sat := x.x.sat
    let a (t : Thread) : Nat := elemRead ty sel t x.a.toNat
    let b (tm : Team) (t : Thread) : Nat := x.ob.elem ty sel tm t
    let c (tm : Team) (t : Thread) : Nat := x.x.oc.elem ty sel tm t
    (s.Ready w x.x.g { rv := elemRegs ty x.a.toNat ++ x.ob.vs ty.wide, wv := elemRegs ty x.d.toNat, rs := x.ob.ss ty.wide } →
      let does (i : Instr) (f : Nat → Nat → Nat × Flags) := i.wf = true → Does s w i x.x.g 12 (SetsElem ty sel x.d.toNat fun tm t => f (a t) (b tm t))
      does (.faddWide x) (fun a b => fAdd ty rnd sat (unpack ty a) (unpack ty b)) ∧
      does (.fsubWide x) (fun a b => fAdd ty rnd sat (unpack ty a) (unpack ty b).negate) ∧
      does (.fmulWide x) (fun a b => fMul ty rnd sat (unpack ty a) (unpack ty b)) ∧
      does (.fminmaxWide x) (fun a b => fMinMax ty (x.x.fn.getLsbD 0) (x.x.fn.getLsbD 1) a b)) ∧
    (s.Ready w x.x.g { rv := elemRegs ty x.a.toNat ++ (x.ob.vs ty.wide ++ x.x.oc.vs ty.wide), wv := elemRegs ty x.d.toNat, rs := x.ob.ss ty.wide ++ x.x.oc.ss ty.wide } →
      (Instr.ffma x).wf = true → Does s w (.ffma x) x.x.g 12 (SetsElem ty sel x.d.toNat fun tm t => fFma ty rnd sat (unpack ty (a t)) (unpack ty (b tm t)) (unpack ty (c tm t)))) ∧
    (s.Ready w x.x.g { rv := elemRegs ty x.a.toNat ++ x.ob.vs ty.wide, wp := [x.d.toNat], rs := x.ob.ss ty.wide } →
      (Instr.fcmp x).wf = true → Does s w (.fcmp x) x.x.g 12 (fun tm t t' =>
        let r := fCmp x.x.fn.toNat (unpack ty (a t)) (unpack ty (b tm t))
        t'.flags = t.flags ||| r.2 ∧ SetsP x.d.toNat (fun _ _ => r.1 = true) tm { t with flags := t'.flags } t')) ∧
    (s.Ready w x.x.g { rv := elemRegs ty x.a.toNat, wv := elemRegs ty x.d.toNat } →
      (Instr.fspcWide x).wf = true → Does s w (.fspcWide x) x.x.g 12 (SetsElem ty sel x.d.toNat fun _ t => fSpc ty x.x.fn.toNat sat (a t))) ∧
    (s.Ready w x.x.g { rv := elemRegs ty x.a.toNat, wv := [x.d.toNat] } →
      (Instr.fclassWide x).wf = true → Does s w (.fclassWide x) x.x.g 12 (SetsV x.d.toNat fun _ t => BitVec.ofNat 32 (fClass ty (a t)))) ∧
    (s.Ready w x.x.g { rv := elemRegs (srcType x.x.fn) x.a.toNat, wv := elemRegs ty x.d.toNat } →
      (Instr.cvt x).wf = true → Does s w (.cvt x) x.x.g 12 (SetsElem ty sel x.d.toNat fun _ t => convert ty (srcType x.x.fn) rnd sat (elemRead (srcType x.x.fn) x.x.w2.toNat t x.a.toNat)))

/-- R272 to R276, R279, R280: the instructions on packed elements: PACK and UNPK convert two elements (equal types carry bits), FFMAP acts on both halves, QDOT and IDOT sum all products exactly and round once, QNT quantises a value or a block of 32 with its scale byte. Where the spec leaves a choice it follows the model's own, notes/assumptions 8, 18. -/
def Obligations.PackedResults : Prop :=
  ∀ (s : State) (w : Wave) (x : WA),
    let ty := x.x.ty
    let src := srcType x.x.fn
    let sel := x.x.sel.toNat
    let rnd := x.x.rnd.toNat
    let sat := x.x.sat
    let d := x.d.toNat
    let conv (e : Nat) : Nat × Flags := if ty = src then (e, 0) else convert ty src rnd sat e
    (s.Ready w x.x.g { rv := elemRegs src x.a.toNat ++ x.ob.vs src.wide, wv := [d], rs := x.ob.ss src.wide } → (Instr.pack x).wf = true →
      Does s w (.pack x) x.x.g 12 (fun tm t t' => ∃ m, PutsElem ty sel d (conv (elemRead src 0 t x.a.toNat)) t m ∧ PutsElem ty (sel + 1) d (conv (x.ob.elem src 0 tm t)) m t')) ∧
    (let step := if ty.wide then 2 else 1
     s.Ready w x.x.g { rv := [x.a.toNat], wv := elemRegs ty d ++ elemRegs ty (d + step) } → (Instr.unpk x).wf = true →
      Does s w (.unpk x) x.x.g 12 (fun _ t t' =>
        let e (k : Nat) : Nat × Flags := conv (elemRead src (sel + k) t x.a.toNat)
        (if ty.wide = true then t'.rpair d = BitVec.ofNat 64 (e 0).1 ∧ t'.rpair (d + 2) = BitVec.ofNat 64 (e 1).1 else t'.rv d = BitVec.ofNat 32 (e 0).1 ∧ t'.rv (d + 1) = BitVec.ofNat 32 (e 1).1) ∧
        t'.flags = t.flags ||| (e 0).2 ||| (e 1).2 ∧ (∀ n ∈ elemRegs ty d ++ elemRegs ty (d + step), n ∉ t'.poison) ∧
        Thread.SameBut (elemRegs ty d ++ elemRegs ty (d + step)) [] { t with flags := t'.flags } t')) ∧
    (s.Ready w x.x.g { rv := x.a.toNat :: (x.ob.vs false ++ x.x.oc.vs false), wv := [d], rs := x.ob.ss false ++ x.x.oc.ss false } →
      ((Instr.ffmap x).wf = true → Does s w (.ffmap x) x.x.g 12 (fun tm t t' =>
        let half (h : Nat) : Nat × Flags := fFma ty rnd sat (unpack ty (elemRead ty h t x.a.toNat)) (unpack ty (x.ob.elem ty h tm t)) (unpack ty (x.x.oc.elem ty h tm t))
        ∃ m, PutsElem ty 0 d (half 0) t m ∧ PutsElem ty 1 d (half 1) m t')) ∧
      ((Instr.qdot x).wf = true → Does s w (.qdot x) x.x.g 12 (SetsElem .f32 0 d fun tm t =>
        let as := (packedElems ty.width (t.rv x.a.toNat)).map (unpack ty)
        let bs := (dotB x tm t).map (unpack ty)
        exactSum .f32 rnd sat .exact (unpack .f32 (x.x.oc.val tm t).toNat :: List.zipWith productTerm as bs))) ∧
      ((Instr.idot x).wf = true → Does s w (.idot x) x.x.g 12 (SetsElem .i32 0 d fun tm t =>
        let as := elemVals ty true (packedElems ty.width (t.rv x.a.toNat))
        let bs := elemVals ty true (dotB x tm t)
        let r := intSum sat (x.x.oc.val tm t).toInt (List.zipWith productTerm as.1 bs.1)
        (r.1, r.2 ||| as.2 ||| bs.2)))) ∧
    (s.Ready w x.x.g { rv := x.a.toNat :: x.ob.vs false, wv := [d], rs := x.ob.ss false } → (Instr.qntRow x).wf = true →
      Does s w (.qntRow x) x.x.g 12 (SetsElem ty sel d fun tm t => qntRowElem ty rnd sat (unpack .f32 (t.rv x.a.toNat).toNat) (unpack .f32 (x.ob.val tm t).toNat))) ∧
    (s.Ready w x.x.g { rv := span x.a.toNat 32 ++ [x.x.c.toNat], wv := span d ty.width ++ [x.x.c.toNat] } → (Instr.qntBlock x).wf = true →
      Does s w (.qntBlock x) x.x.g 12 (fun _ t t' =>
        let vs := (span x.a.toNat 32).map (fun r => unpack .f32 (t.rv r).toNat)
        let r := if ty = .i4x then i4xBlock vs else mxBlock ty vs
        let per := 32 / ty.width
        ∃ m, (∀ i < 32, elemOf ty.width (i % per) (m.rv (d + i / per)) = nth 0 r.2.1 i % 2 ^ ty.width) ∧ (∀ n ∈ span d ty.width, n ∉ m.poison) ∧
          Thread.SameBut (span d ty.width) [] t m ∧ PutsElem .n8 x.x.w2.toNat x.x.c.toNat (r.1, r.2.2) m t'))

/-- Results and flags of the floating instructions, and their frame. Where the spec leaves a choice it follows the model's own, notes/assumptions 18. -/
def Obligations.FloatResults : Prop := Claims.FloatShort ∧ Claims.FloatWide

/-! ### Loads, stores, scratchpads, layouts (spec/11_memory_instructions.md) -/

/-- R231, R234, R235, R241, R41: LD and GLD of one thread, its checks passed: the destinations become pending, LD rises, and LD's elements are requested (an acquiring load, or one that needs a host translation, holds its thread); GLD's elements join the core's gather collector, by line. Every other thread, register, byte and request stays. -/
def Claims.Loads : Prop :=
  ∀ (s : State) (w : Wave) (u : Nat) (x : Acc) (ps : List Source),
    s.Lone w x.g { rv := [x.a, x.a + 1], wv := x.regs, cls := .ld } u →
    s.Places u .read false (elemBytes x.ty) (x.vas ((s.thr u).rpair x.a)) ps →
    let elems : List Elem := (ps.zip x.elems).map (fun p => ⟨p.1, elemBytes x.ty, p.2.2, x.ty, none⟩)
    let ats := ps.any (Source.needsAts (s.ctxOf u).1 (s.ctxOf u).2 s)
    let marked (s : State) : State := s.modThr u (fun t => { t with ld := t.ld + 1, pendV := t.pendV ++ x.regs })
    (∀ i : Instr, (∃ y : SM, i = .ld y ∧ x = smAcc y 4) ∨ (∃ y : WM, i = .ldWide y ∧ x = wmData y) → i.wf = true →
      let held := x.order.isSome || ats
      let s' := marked (s.asks .ld [u] (s.thr u).team (.load u elems) (s.thr u).pc x.order.isSome (if ats then 1 else 0))
      Effects s w i (s.pastBut x.bytes u held) s' (fun t => held = true → (t.thr u).phase = .stalled)) ∧
    (∀ i : Instr, (∃ y : SM, i = .gld y ∧ x = smAcc y 4) ∨ (∃ y : WM, i = .gldWide y ∧ x = wmData y) → i.wf = true →
      (ps.any Source.outside = true → (∀ r ∈ s.faults, r.issue ≤ s.issue) → 
        let s' := marked (s.asks .ld [u] (s.thr u).team (.load u elems) (s.thr u).pc false (if ats then 1 else 0))
        Effects s w i (s.pastBut x.bytes u ats) s') ∧
      (ps.any Source.outside = false → (s.collOf (s.teamOf u).core).length < 511 → (∀ r ∈ s.faults, r.issue ≤ s.issue) →
        ∃ coll, Effects s w i (s.past x.bytes) (marked { s with coll := coll }) ∧
          (∀ c ∈ s.coll, ∃ more, { c with reqs := c.reqs ++ more } ∈ coll) ∧
          ∀ e ∈ elems, ∃ c ∈ coll, c.core = (s.teamOf u).core ∧ c.line = e.src.line ∧ c.store = false ∧ ∃ r ∈ c.reqs, r.threads = [u] ∧ ∃ l, r.work = .load u l ∧ e ∈ l))

/-- R231, R235, R241, R50, R113, R26: ST and GST of one thread, its checks passed. A store to lines of L1 performs in this step (the team then reads its bytes there) unless an older access of the thread to one of the bytes is outstanding; every other is requested, as GST's elements are in the collector, and ST rises. D is set in the entries of the pages. A store into L1 stands there where the core's L1 has places for its lines. A store with a release order does so once its release has completed. -/
def Claims.Stores : Prop :=
  ∀ (s : State) (w : Wave) (u : Nat) (x : Acc) (ps : List Source),
    s.Lone w x.g { rv := [x.a, x.a + 1] ++ x.regs, cls := .st } u →
    s.Places u .write true (elemBytes x.ty) (x.vas ((s.thr u).rpair x.a)) ps →
    let k := (s.thr u).team
    let data (r : Nat) : List Byte := if x.ty.wide then leBytes ((s.thr u).rpair x.d).toNat 8 else leBytes ((s.thr u).rv r).toNat (elemBytes x.ty)
    let parts : List Part := (ps.zip x.elems).map (fun p => ⟨p.1, data p.2.2, none⟩)
    let ats := ps.any (Source.needsAts (s.ctxOf u).1 (s.ctxOf u).2 s)
    let dirty := dirtyPlaces (s.teamOf u).core (s.ctxOf u).1 (s.ctxOf u).2 ps s
    let marked (s : State) : State := s.modThr u (fun t => { t with st := t.st + 1 })
    let asked : State := marked (dirty.asks .st [u] k (.store u parts) (s.thr u).pc false (if ats then 1 else 0))
    let inL1 (p : Source) : Prop := ∃ va pa, p = .glob va pa 0
    let older := olderMeets s.nextId (s.issue + 1) [u] (Work.store u parts).extents s
    (∀ i : Instr, (∃ y : SM, i = .st y ∧ x = smAcc y 4) ∨ (∃ y : WM, i = .stWide y ∧ x = wmData y) → i.wf = true →
      (∀ sc, x.order = some sc → s.Released u sc) →
      ((¬ (∀ p ∈ ps, inL1 p) ∨ older = true) → Effects s w i (s.pastBut x.bytes u ats) asked) ∧
      ((∀ p ∈ ps, inL1 p) → older = false →
        (∀ va pa mt, .glob va pa mt ∈ ps → ∀ l, s.l1? (s.teamOf u).core (s.ctxOf u).1 (s.ctxOf u).2 (va / 128) = some l → l.dirty = [] ∨ l.team = k) →
        Effects s w i (s.past x.bytes) (parts.foldl (fun s p => writePart k [u] p s) dirty) (fun t => (s.teamOf u).saved = none → s.Room (s.teamOf u).core parts.length →
          ∀ p ∈ parts, ∀ va pa mt, p.dst = .glob va pa mt → ∃ l, t.l1? (s.teamOf u).core (s.ctxOf u).1 (s.ctxOf u).2 (va / 128) = some l ∧ l.team = k ∧
            ∀ j < p.bytes.length, l.dirtyAt (va % 128 + j) = p.bytes[j]?))) ∧
    (∀ i : Instr, (∃ y : SM, i = .gst y ∧ x = smAcc y 4) ∨ (∃ y : WM, i = .gstWide y ∧ x = wmData y) → i.wf = true →
      (ps.any Source.outside = true → (∀ r ∈ s.faults, r.issue ≤ s.issue) → Effects s w i (s.pastBut x.bytes u ats) asked) ∧
      (ps.any Source.outside = false → (s.collOf (s.teamOf u).core).length < 511 → (∀ r ∈ s.faults, r.issue ≤ s.issue) →
        ∃ coll, Effects s w i (s.past x.bytes) (marked { dirty with coll := coll }) ∧
          (∀ c ∈ s.coll, ∃ more, { c with reqs := c.reqs ++ more } ∈ coll) ∧
          ∀ p ∈ parts, ∃ c ∈ coll, c.core = (s.teamOf u).core ∧ c.line = p.dst.line ∧ c.store = true ∧ c.team = k ∧ ∃ r ∈ c.reqs, r.threads = [u] ∧ ∃ l, r.work = .store u l ∧ p ∈ l))

/-- R16, R118, R135, R193, R237: LDS and STS reach the team's scratchpad at the 32-bit sum of vA and the offset, inside the window, in this step; loads of I8 and I16 extend the sign, poisoned bytes mark the register, a store clears their marks. -/
def Claims.Scratchpads : Prop :=
  ∀ (s : State) (w : Wave) (x : Acc),
    let size := if x.ty.wide then 8 else x.n * elemBytes x.ty
    let at_ (t : Thread) : Int := (t.rv x.a).toNat + x.off
    let fits (store : Bool) (u : Nat) : Prop := 0 ≤ at_ (s.thr u) ∧ at_ (s.thr u) < 2 ^ 32 ∧ (at_ (s.thr u)).toNat % elemBytes x.ty = 0 ∧
      (at_ (s.thr u)).toNat + size ≤ (s.teamOf u).scratchSize ∧ lockedScratch (s.thr u).team store (at_ (s.thr u)).toNat size s = false
    (∀ i : Instr, (∃ y : SM, i = .lds y ∧ x = smAcc y 4) ∨ (∃ y : WM, i = .ldsWide y ∧ x = wmData y) → i.wf = true →
      s.Ready w x.g { rv := [x.a], wv := x.regs, cls := .ld } → (∀ u, s.Active w x.g u → fits false u) →
      Does s w i x.g x.bytes (fun tm a b =>
        let o := (at_ a).toNat
        (if x.ty.wide = true then b.rpair x.d = BitVec.ofNat 64 (leNat (tm.scratch.readN o 8)) ∧ (∀ r ∈ x.regs, r ∈ b.poison ↔ ∃ k < 8, o + k ∈ tm.scratchPoison)
         else ∀ j < x.n,
          let n := leNat (tm.scratch.readN (o + j * elemBytes x.ty) (elemBytes x.ty))
          b.rv (x.d + j) = (match x.ty with | .i8 => (BitVec.ofNat 8 n).signExtend 32 | .i16 => (BitVec.ofNat 16 n).signExtend 32 | _ => BitVec.ofNat 32 n) ∧
          (x.d + j ∈ b.poison ↔ ∃ k < elemBytes x.ty, o + j * elemBytes x.ty + k ∈ tm.scratchPoison)) ∧
        Thread.SameBut x.regs [] a b)) ∧
    (∀ (i : Instr) (u : Nat), (∃ y : SM, i = .sts y ∧ x = smAcc y 4) ∨ (∃ y : WM, i = .stsWide y ∧ x = wmData y) → i.wf = true →
      s.Lone w x.g { rv := x.a :: x.regs, cls := .st } u → fits true u →
      let o := (at_ (s.thr u)).toNat
      let bytes := if x.ty.wide then leBytes ((s.thr u).rpair x.d).toNat 8 else x.elems.flatMap (fun e => leBytes ((s.thr u).rv e.2).toNat (elemBytes x.ty))
      Effects s w i (s.past x.bytes) (s.modTeam (s.thr u).team (fun tm =>
        { tm with scratch := tm.scratch.writeN o bytes, scratchPoison := tm.scratchPoison.filter (fun a => !decide (o ≤ a ∧ a < o + bytes.length)) })))

/-- R236, R156: LDU and STU of a team by one thread: the address and the data stand in s registers, and the judgement of the write under R156 is made at issue. With a release order the store is requested at once and waits, with its thread, for the thread's release. -/
def Claims.TeamAccesses : Prop :=
  ∀ (s : State) (w : Wave) (u : Nat) (x : Acc) (ps : List Source),
    let k := (s.thr u).team
    let tm := s.teamOf u
    let ats := ps.any (Source.needsAts (s.ctxOf u).1 (s.ctxOf u).2 s)
    (∀ i : Instr, (∃ y : SM, i = .ldu y ∧ x = smAcc y 4) ∨ (∃ y : WM, i = .lduWide y ∧ x = wmData y) → i.wf = true →
      s.Lone w x.g { rs := [x.a, x.a + 1], ws := x.regs, cls := .ld } u → s.MayWrite w x.g →
      s.Places u .read false (elemBytes x.ty) (x.vas (tm.rspair x.a)) ps →
      let elems : List Elem := (ps.zip x.elems).map (fun p => ⟨p.1, elemBytes x.ty, p.2.2, x.ty, none⟩)
      let held := x.order.isSome || ats
      ∃ full : Bool, (full = true ↔ s.Whole w k) ∧
        let s' := ((s.asks .ld [u] k (.loadTeam elems full (writersOf s w.members k)) (s.thr u).pc x.order.isSome (if ats then 1 else 0)).modThr u (fun t => { t with ld := t.ld + 1 })).modTeam k
          (fun tm => { tm with pendS := tm.pendS ++ x.regs })
        Effects s w i (s.pastBut x.bytes u held) s') ∧
    (∀ i : Instr, (∃ y : SM, i = .stu y ∧ x = smAcc y 4) ∨ (∃ y : WM, i = .stuWide y ∧ x = wmData y) → i.wf = true → x.order = none →
      s.Lone w x.g { rs := [x.a, x.a + 1] ++ x.regs, cls := .st } u →
      s.Places u .write true (elemBytes x.ty) (x.vas (tm.rspair x.a)) ps →
      let data (r : Nat) : List Byte := if x.ty.wide then leBytes (tm.rspair x.d).toNat 8 else leBytes (tm.rs r).toNat (elemBytes x.ty)
      let parts : List Part := (ps.zip x.elems).map (fun p => ⟨p.1, data p.2.2, none⟩)
      let dirty := dirtyPlaces tm.core (s.ctxOf u).1 (s.ctxOf u).2 ps s
      let inL1 (p : Source) : Prop := ∃ va pa, p = .glob va pa 0
      let older := olderMeets s.nextId (s.issue + 1) [u] (Work.store u parts).extents s
      ((¬ (∀ p ∈ ps, inL1 p) ∨ older = true) →
        let s' := (dirty.asks .st [u] k (.store u parts) (s.thr u).pc false (if ats then 1 else 0)).modThr u (fun t => { t with st := t.st + 1 })
        Effects s w i (s.pastBut x.bytes u ats) s') ∧
      ((∀ p ∈ ps, inL1 p) → older = false →
        (∀ va pa mt, .glob va pa mt ∈ ps → ∀ l, s.l1? tm.core (s.ctxOf u).1 (s.ctxOf u).2 (va / 128) = some l → l.dirty = [] ∨ l.team = k) →
        Effects s w i (s.past x.bytes) (parts.foldl (fun s p => writePart k [u] p s) dirty))) ∧
    (∀ (i : Instr) (sc : Nat), (∃ y : SM, i = .stu y ∧ x = smAcc y 4) ∨ (∃ y : WM, i = .stuWide y ∧ x = wmData y) → i.wf = true → x.order = some sc →
      s.Lone w x.g { rs := [x.a, x.a + 1] ++ x.regs, cls := .st } u → s.Uncollected u → memPending u s = true ∨ s.Settling u sc →
      s.Places u .write true (elemBytes x.ty) (x.vas (tm.rspair x.a)) ps →
      let data (r : Nat) : List Byte := if x.ty.wide then leBytes (tm.rspair x.d).toNat 8 else leBytes (tm.rs r).toNat (elemBytes x.ty)
      let parts : List Part := (ps.zip x.elems).map (fun p => ⟨p.1, data p.2.2, none⟩)
      let dirty := dirtyPlaces tm.core (s.ctxOf u).1 (s.ctxOf u).2 ps s
      Effects s w i (s.pastBut x.bytes u true) ((dirty.asks .st [u] k (.store u parts) (s.thr u).pc true (if ats then 1 else 0)).modThr u (fun t => { t with st := t.st + 1 }))
        (fun t => (t.thr u).phase = .stalled))

/-- R238 to R240: HBIND of a team by one thread requests the record's 64 bytes and holds the thread, or with address 0 unbinds the handle; HQRY returns the named field of the bound record, which the core's layout cache holds. -/
def Claims.Handles : Prop :=
  ∀ (s : State) (w : Wave),
    (∀ (i : Instr) (g : Guard) (bytes a h u : Nat),
      (∃ x : SA, i = .hbind x ∧ g = Guard.always ∧ bytes = 4 ∧ a = x.a.toNat ∧ h = x.d.toNat) ∨ (∃ x : WA, i = .hbindWide x ∧ g = x.x.g ∧ bytes = 12 ∧ a = x.a.toNat ∧ h = x.d.toNat) → i.wf = true →
      s.Lone w g { rv := [a, a + 1], rh := [h], cls := .ld } u → s.MayWrite w g →
      let k := (s.thr u).team
      let va := ((s.thr u).rpair a).toNat
      (∀ pa mt, va ≠ 0 → s.Places u .read false 64 [va] [.glob va pa mt] →
        let ats := Source.needsAts (s.ctxOf u).1 (s.ctxOf u).2 s (.glob va pa mt)
        ∃ full : Bool, (full = true ↔ s.Whole w k) ∧
          let s' := ((s.asks .ld [u] k (.hbind h va pa mt full (writersOf s w.members k)) (s.thr u).pc true (if ats then 1 else 0)).modThr u (fun t => { t with ld := t.ld + 1 })).modTeam k
            (fun tm => { tm with pendH := tm.pendH ++ [h] })
          Effects s w i (s.pastBut bytes u true) s') ∧
      (va = 0 → ∃ stat, Effects s w i (s.past bytes) (s.modTeam k (fun tm => { tm with h := setNth none tm.h h none, hLast := setNth [] tm.hLast h (writersOf s w.members k), teamstat := stat }))
        (fun t => s.Recorded w (.h h) (nth none (s.tm k).h h ≠ none) k (s.tm k) (t.tm k)))) ∧
    (∀ x : WA, (Instr.hqry x).wf = true →
      let h := bitsOf x.x.w2.toNat 3 0
      let sel := bitsOf x.x.w2.toNat 7 4
      let bound (tm : Team) : Option (List Byte) := (nth none tm.h h).bind (s.layout? tm.core (s.gr tm.grid).fn (s.gr tm.grid).ctx)
      s.Ready w x.x.g { wv := [x.d.toNat], rh := [h] } → sel ≤ 10 → (∀ u, s.Active w x.x.g u → bound (s.teamOf u) ≠ none) →
      Does s w (.hqry x) x.x.g 12 (fun tm a b => ∃ l, bound tm = some l ∧
        let ctl := fieldOf l 56 8
        SetsV x.d.toNat (fun _ _ => BitVec.ofNat 32 (match sel with
          | 4 => ctl % 16 | 5 => bitsOf ctl 5 4 + 1 | 6 => bitsOf ctl 7 6 | 7 => bitsOf ctl 8 8 + 2 * bitsOf ctl 9 9
          | 8 => fieldOf l 0 4 | 9 => fieldOf l 4 4 | 10 => bitsOf ctl 11 10 | n => fieldOf l (16 + 4 * n) 4)) tm a b))

/-- R61, R62, R239: LDT and STT of one thread through a bound record that the core's layout cache holds: each element lies where the layout places its coordinates; padding is delivered or discarded; the elements are requested or stored as by LD and ST. -/
def Claims.Layouts : Prop :=
  ∀ (s : State) (w : Wave) (u : Nat) (x : WA) (b : List Byte) (ps : List Source),
    let n := countOf x.x.fn
    let nc := bitsOf x.x.w2.toNat 5 4
    let h := bitsOf x.x.w2.toNat 3 0
    let data := if (layTy b).width = 64 then [x.d.toNat, x.d.toNat + 1] else span x.d.toNat n
    let size := max 1 ((layTy b).width / 8)
    let coords : List Int := [((s.thr u).rv x.a.toNat).toInt, if 1 ≤ nc then (x.ob.val (s.teamOf u) (s.thr u)).toInt else 0,
      if 2 ≤ nc then (x.x.oc.val (s.teamOf u) (s.thr u)).toInt else 0, if nc = 3 then ((s.thr u).rv (bitsOf x.x.w2.toNat 12 6)).toInt else 0]
    let placed (store : Bool) (j : Nat) : Placed := layPlace b store ((nth 0 coords 0 + j) :: coords.drop 1)
    let names (store : Bool) : Names :=
      { rv := [x.a.toNat] ++ (if nc = 3 then [bitsOf x.x.w2.toNat 12 6] else []) ++ (if store then data else []) ++
          ((if 1 ≤ nc then x.ob.vs false else []) ++ (if 2 ≤ nc then x.x.oc.vs false else []))
        wv := if store then [] else data
        rs := (if 1 ≤ nc then x.ob.ss false else []) ++ (if 2 ≤ nc then x.x.oc.ss false else []), rh := [h], cls := if store then .st else .ld }
    let usable (store : Bool) : Prop := (nth none (s.teamOf u).h h).bind (s.layout? (s.teamOf u).core (s.ctxOf u).1 (s.ctxOf u).2) = some b ∧ (n = 1 ∨ (layTy b).width = 32) ∧
      ((layTy b).width = 64 → x.d.toNat % 2 = 0 ∧ x.d.toNat + 1 < (s.thr u).owned ∧ (store = true → x.d.toNat + 1 ∉ (s.thr u).poison)) ∧
      (layCtl b).testBit (if store then 9 else 8) = true ∧ ∀ j < n, placed store j ≠ .bounds
    let addrs (store : Bool) : List (Nat × Option Bool × Nat) := (List.range n).filterMap (fun j => match placed store j with | .addr a nib => some (a.toNat, nib, j) | _ => none)
    let inRange (store : Bool) : Prop := ∀ j < n, ∀ a nib, placed store j = .addr a nib → 0 ≤ a ∧ a < 2 ^ 64
    let ats := ps.any (Source.needsAts (s.ctxOf u).1 (s.ctxOf u).2 s)
    ((Instr.ldt x).wf = true → s.Lone w x.x.g (names false) u → usable false → inRange false →
      s.Places u .read false size ((addrs false).map (·.1)) ps →
      ∃ elems : List Elem, elems.map (fun e => (e.size, e.reg, e.ty)) = (List.range n).map (fun j => (size, x.d.toNat + j, layTy b)) ∧
        (∀ j < n, ∀ e, elems[j]? = some e → match placed false j with
          | .addr _ nib => e.nib = nib ∧ ∃ m : Nat, ((addrs false)[m]?).map (fun (q : Nat × Option Bool × Nat) => q.2.2) = some j ∧ ps[m]? = some e.src
          | .pad v => e.src = .const v | _ => False) ∧
        let s' := (s.asks .ld [u] (s.thr u).team (.load u elems) (s.thr u).pc false (if ats then 1 else 0)).modThr u (fun t => { t with ld := t.ld + 1, pendV := t.pendV ++ data })
        Effects s w (.ldt x) (s.pastBut 12 u ats) s') ∧
    ((Instr.stt x).wf = true → s.Lone w x.x.g (names true) u → usable true → inRange true →
      s.Places u .write true size ((addrs true).map (·.1)) ps →
      let k := (s.thr u).team
      let value (j : Nat) : List Byte := if (layTy b).width = 64 then leBytes ((s.thr u).rpair x.d.toNat).toNat 8 else leBytes ((s.thr u).rv (x.d.toNat + j)).toNat size
      let parts : List Part := (ps.zip (addrs true)).map (fun p => ⟨p.1, value p.2.2.2, p.2.2.1⟩)
      let dirty := dirtyPlaces (s.teamOf u).core (s.ctxOf u).1 (s.ctxOf u).2 ps s
      let inL1 (p : Source) : Prop := ∃ va pa, p = .glob va pa 0
      let older := olderMeets s.nextId (s.issue + 1) [u] (Work.store u parts).extents s
      ((¬ (∀ p ∈ ps, inL1 p) ∨ older = true) →
        let s' := (dirty.asks .st [u] k (.store u parts) (s.thr u).pc false (if ats then 1 else 0)).modThr u (fun t => { t with st := t.st + 1 })
        Effects s w (.stt x) (s.pastBut 12 u ats) s') ∧
      ((∀ p ∈ ps, inL1 p) → older = false → (layTy b).width ≠ 4 →
        (∀ va pa mt, .glob va pa mt ∈ ps → ∀ l, s.l1? (s.teamOf u).core (s.ctxOf u).1 (s.ctxOf u).2 (va / 128) = some l → l.dirty = [] ∨ l.team = k) →
        Effects s w (.stt x) (s.past 12) (parts.foldl (fun s p => writePart k [u] p s) dirty)))

/-- R124, R242, R250, R251: PREF requests a line that its level does not hold and else does nothing; INVL1 drops the clean copies of its lines granted before this tick; UNPIN unpins the lines its context has pinned; PIN pins a resident line where none of its pins is in the way, and of a run of lines each in turn. Nothing else changes. -/
def Claims.LineOps : Prop :=
  ∀ (s : State) (w : Wave) (u : Nat) (x : Acc),
    s.Lone w x.g { rv := [x.a, x.a + 1] } u →
    let core := (s.teamOf u).core
    let fn := (s.ctxOf u).1
    let ctx := (s.ctxOf u).2
    let addr := x.addr ((s.thr u).rpair x.a)
    let run (n : Nat) : List Nat := (List.range n).map (fun j => (addr / 128 + j) % 2 ^ 57)
    (∀ i : Instr, (∃ y : SM, i = .pref y ∧ x = smAcc y 128) ∨ (∃ y : WM, i = .prefWide y ∧ x = wmAcc y 128) → i.wf = true →
      let va := addr / 128 * 128
      ∀ pa mt leaf, s.Maps u .read va pa mt leaf → (regionOf pa).local = true →
        let present := if mt = 0 then (s.l1? core fn ctx (va / 128)).isSome else (s.l2line? (pa / 128)).isSome
        Effects s w i (s.past x.bytes) (if present then s else s.asks .none [] (s.thr u).team (.prefetch va pa (min mt 1)) (s.thr u).pc false 0)) ∧
    (∀ (i : Instr) (n : Nat), (∃ y : SM, i = .invl1 y ∧ x = smAcc y 128 ∧ n = 1) ∨ (∃ y : WM, i = .invl1Wide y ∧ x = runAcc y ∧ n = bitsOf y.x.w2.toNat 11 0 + 1) → i.wf = true →
      ∃ l1, Effects s w i (s.past x.bytes) { s with mem := { s.mem with l1 := l1 } } (fun t => ∀ c f k line, t.l1? c f k line =
        if c = core ∧ f = fn ∧ k = ctx ∧ line ∈ run n then (s.l1? c f k line).bind (fun y => match y.copy with
          | some (_, _, granted, _) => if granted < s.gtick then (if y.dirty = [] then none else some { y with copy := none }) else some y
          | none => some y)
        else s.l1? c f k line)) ∧
    (∀ (i : Instr) (n : Nat) (pas : List Nat), (∃ y : SM, i = .unpin y ∧ x = smAcc y 128 ∧ n = 1) ∨ (∃ y : WM, i = .unpinWide y ∧ x = runAcc y ∧ n = bitsOf y.x.w2.toNat 11 0 + 1) → i.wf = true →
      List.Forall₂ (fun l pa => ∃ mt leaf, s.Maps u .read (l * 128) pa mt leaf) (run n) pas →
      ∃ l2, Effects s w i (s.past x.bytes) { s with mem := { s.mem with l2 := l2 } } (fun t => ∀ line, t.l2line? line = (s.l2line? line).map (fun y =>
        if pas.any (fun pa => pa / 128 == line) && (match y.pin with | some (f, c, _, _) => f == fn && c == ctx | none => false) then { y with pin := none } else y))) ∧
    (∀ i : Instr, (∃ y : SM, i = .pin y ∧ x = smAcc y 128) ∨ (∃ y : WM, i = .pinWide y ∧ x = runAcc y ∧ y.x.w2.toNat % 4096 = 0) → i.wf = true →
      let va := addr / 128 * 128
      ∀ pa mt, s.Places u .read false 1 [va] [.glob va pa mt] → mt < 2 → ∀ l, s.l2line? (pa / 128) = some l → l.pin = none → (s.waysOf fn) ≠ [] →
        (s.mem.l2.filter (fun y => sliceOf y.line == sliceOf l.line && y.pin.isSome)).length < 8 → l.last ≠ s.gtick →
        Effects s w i (s.past x.bytes) (s.setL2 { l with last := s.gtick, pin := some (fn, ctx, (s.thr u).team, va / 128) })) ∧
    (∀ (y : WM) (ps : List Source), x = runAcc y → (Instr.pinWide y).wf = true → s.Places u .read false 1 ((run (bitsOf y.x.w2.toNat 11 0 + 1)).map (· * 128)) ps →
      Effects s w (.pinWide y) (s.past x.bytes) (ps.foldl (fun s p => pinLine fn ctx (s.thr u).team p s) s))

/-- A load asks for its elements or returns them, and its frame. Where the spec leaves a choice it follows the model's own, notes/assumptions 22, 23, 24, 25, 27. -/
def Obligations.LoadsIssue : Prop := Claims.Loads

/-- A store performs or asks at its elements, and its frame. Where the spec leaves a choice it follows the model's own, notes/assumptions 22, 23, 24, 25. -/
def Obligations.StoresIssue : Prop := Claims.Stores

/-- Scratchpad and tensor-handle accesses, and their frame. Where the spec leaves a choice it follows the model's own, notes/assumptions 1, 16, 22, 23. -/
def Obligations.LocalAccesses : Prop := Claims.Scratchpads ∧ Claims.TeamAccesses

/-- HBIND, HQRY, GLD, GST, PREF, INVL1, PIN and UNPIN, and their frames. Where the spec leaves a choice it follows the model's own, notes/assumptions 16, 25. -/
def Obligations.HandlesAndLines : Prop := Claims.Handles ∧ Claims.Layouts ∧ Claims.LineOps

/-! ### Collectives, register blocks, barriers, traps (spec/07_execution_model.md, spec/10_control_and_integer_instructions.md, spec/15_faults_and_preemption.md) -/

/-- R152, R214 to R216, R277, R278: the collectives of the whole set: CSIGN only signs; SHFL takes the source member's value, or the thread's own; VOTE says any, all or the ballot of the active members; VRED reduces their elements; MXSC computes one block from them. Inactive members take no part, every member is READY past the instruction. Where the spec leaves a choice it follows the model's own, notes/assumptions 10. -/
def Obligations.Collectives : Prop :=
  ∀ (s : State) (w : Wave) (x : WA) (k : Nat),
    let g := x.x.g
    let n := x.x.w2.toNat
    let a := x.a.toNat
    let d := x.d.toNat
    (s.Meets w n k → s.Ready w g {} → (Instr.csign x).wf = true → Meet s w (.csign x) g n k Keeps) ∧
    (s.Meets w n k → s.Ready w g { rv := a :: x.ob.vs false, wv := [d], rs := x.ob.ss false } → (Instr.shfl x).wf = true →
      Meet s w (.shfl x) g n k (fun tm t t' =>
        let i := t.tid - (tm.conv n).base
        let b := (x.ob.val tm t).toNat
        let j : Option Nat := match x.x.fn.toNat with
          | 0 => some (b % 32) | 1 => if b > i then none else some (i - b) | 2 => if i + b > 31 then none else some (i + b) | _ => some (i ^^^ b % 32)
        ∃ v : Word, SetsV d (fun _ _ => v) tm t t' ∧
          ((∃ u, s.Active w g u ∧ some (s.index n k u) = j ∧ v = (s.thr u).rv a) ∨ ((∀ u, s.Active w g u → some (s.index n k u) ≠ j) ∧ v = t.rv a)))) ∧
    (s.Meets w n k → s.Ready w g { rp := [a], wv := if x.x.fn = 2 then [d] else [], wp := if x.x.fn = 2 then [] else [d] } → (Instr.vote x).wf = true →
      Meet s w (.vote x) g n k (fun tm t t' =>
        (x.x.fn = 0 → SetsP d (fun _ _ => ∃ u, s.Active w g u ∧ (s.thr u).rp a = true) tm t t') ∧
        (x.x.fn = 1 → SetsP d (fun _ _ => ∀ u, s.Active w g u → (s.thr u).rp a = true) tm t t') ∧
        (x.x.fn = 2 → (∀ i < 32, (t'.rv d).getLsbD i = true ↔ ∃ u, s.Active w g u ∧ s.index n k u = i ∧ (s.thr u).rp a = true) ∧ d ∉ t'.poison ∧ Thread.SameBut [d] [] t t'))) ∧
    (let ty := x.x.ty
     let es := s.elems w g n k (fun t => elemRead ty x.x.sel.toNat t a)
     let is := es.map (intOf ty)
     s.Meets w n k → s.Ready w g { rv := elemRegs ty a, wv := elemRegs ty d } → (Instr.vred x).wf = true →
      Meet s w (.vred x) g n k (SetsElem ty x.x.sel.toNat d (fun _ _ =>
        if ty.isFloat then (if x.x.fn = 0 then exactSum ty x.x.rnd.toNat x.x.sat .exact (es.map (unpack ty)) else vredOp x.x es)
        else (intResult ty x.x.sat (match x.x.fn.toNat with
          | 0 => is.sum | 1 => is.foldl min (is.headD 0) | 2 => is.foldl max (is.headD 0)
          | 3 => (es.foldl Nat.land (es.headD 0) : Nat) | 4 => (es.foldl Nat.lor 0 : Nat) | _ => (es.foldl Nat.xor 0 : Nat)), 0)))) ∧
    (let n := x.x.w2.toNat % 8
     let vs := (List.range 32).map (fun i => match w.members.find? (fun u => (s.thr u).guard g && (s.thr u).tid == ((s.tm k).conv n).base + i) with
       | some u => unpack .f32 ((s.thr u).rv a).toNat | none => .fin false 0 0)
     let blk := mxBlock x.x.ty vs
     s.Meets w n k → s.Ready w g { rv := [a, x.x.c.toNat, d], wv := [d, x.x.c.toNat] } → (Instr.mxsc x).wf = true →
      Meet s w (.mxsc x) g n k (fun tm t t' =>
        ∃ m, PutsElem x.x.ty x.x.sel.toNat d (nth 0 blk.2.1 (t.tid - (tm.conv n).base), 0) t m ∧ PutsElem .n8 (bitsOf x.x.w2.toNat 5 4) x.x.c.toNat (blk.1, blk.2.2) m t'))

/-- R151, R213, R203: CINIT gives a convergence register of each team its set, from its lowest-lane active thread, with no signature. R152: a member that signs before the last one parks in CONV_WAIT at the instruction, and the register holds its signature and the PC. -/
def Claims.Sets : Prop :=
  ∀ (s : State) (w : Wave) (x : WA),
    ((Instr.cinit x).wf = true → s.Ready w x.x.g { rv := x.a.toNat :: x.ob.vs false, rs := x.ob.ss false } → s.MayWrite w x.x.g →
      let n := x.d.toNat
      let base (u : Nat) : Nat := ((s.thr u).rv x.a.toNat).toNat
      let mask (u : Nat) : Word := x.ob.val (s.teamOf u) (s.thr u)
      (∀ k u, s.Supplies w x.x.g k u → base u % 32 = 0 ∧ ((s.tm k).conv n).signed = [] ∧
        (∀ i < 32, (mask u).getLsbD i = true → base u + i < (s.tm k).size) ∧
        (∀ t ∈ s.threads, ∀ t' ∈ s.threads, t.team = k → t'.team = k → t.lane = t'.lane →
          Conv.isMember ⟨base u, mask u, 0, []⟩ t.tid = true → Conv.isMember ⟨base u, mask u, 0, []⟩ t'.tid = true → t.tid = t'.tid)) →
      DoesTeams s w (.cinit x) x.x.g 12 (fun k a b => ∃ u, s.Supplies w x.x.g k u ∧ b.conv n = ⟨base u, mask u, 0, []⟩ ∧ (∀ m, m ≠ n → b.conv m = a.conv m) ∧
        s.Recorded w (.c n) ((a.conv n).base ≠ base u ∨ (a.conv n).mask ≠ mask u) k a b ∧ Team.SameBut [] { a with c := b.c, cLast := b.cLast, teamstat := b.teamstat } b)) ∧
    (∀ (i : Instr) (nm : Names) (u : Nat),
      (i = .csign x ∧ nm = {}) ∨ (i = .shfl x ∧ nm = { rv := x.a.toNat :: x.ob.vs false, wv := [x.d.toNat], rs := x.ob.ss false }) ∨
      (i = .vote x ∧ nm = { rp := [x.a.toNat], wv := if x.x.fn = 2 then [x.d.toNat] else [], wp := if x.x.fn = 2 then [] else [x.d.toNat] }) ∨
      (i = .vred x ∧ nm = { rv := elemRegs x.x.ty x.a.toNat, wv := elemRegs x.x.ty x.d.toNat }) →
      i.wf = true → s.Ready w x.x.g nm → w.members = [u] → s.Numbered →
      let k := (s.thr u).team
      let n := x.x.w2.toNat
      let c := (s.tm k).conv n
      c.isMember (s.thr u).tid = true → (c.signed = [] ∨ c.pc = (s.thr u).pc) →
      (∃ tid, c.isMember tid = true ∧ tid ≠ (s.thr u).tid ∧ ∀ b, (tid, b) ∉ c.signed) →
      Effects s w i (fun v => (s.thr v).pc) (s.modTeam k (fun tm => tm.setConv n { c with pc := (s.thr u).pc, signed := c.signed ++ [((s.thr u).tid, (s.thr u).guard x.x.g)] }))
        (fun t => (t.thr u).phase = .convWait))

/-- R142, R223: CLAIM gives the thread its lane's lowest-numbered free block, 16 zero registers, and says so in the predicate; with no block, or 128 registers, it says false. CLAIMW waits in CLAIM_WAIT for a block; GIVE returns the last one. Pools are looked at where no thread waits for a block. -/
def Claims.Blocks : Prop :=
  ∀ (s : State) (w : Wave) (g : Guard) (bytes u : Nat),
    let k := (s.thr u).team
    let lane := (s.thr u).lane
    let pool (s : State) : List Nat := nth [] (s.tm k).pool lane
    let noneWait : Prop := ∀ t ∈ s.threads, t.phase ≠ .claimWait
    let gets (b : Nat) (t : State) : Prop := (t.thr u).blocks = (s.thr u).blocks ++ [b] ∧ (t.thr u).owned = (s.thr u).owned + 16 ∧
      (∀ r, (s.thr u).owned ≤ r → (t.thr u).rv r = 0) ∧ (noneWait → ∀ c, c ∈ pool t ↔ c ∈ pool s ∧ c ≠ b)
    let lowest (b : Nat) : Prop := b ∈ pool s ∧ ∀ c ∈ pool s, b ≤ c
    (∀ (i : Instr) (p : Nat), (∃ x : SS, i = .claim x ∧ g = Guard.always ∧ bytes = 4 ∧ p = x.d.toNat) ∨ (∃ x : WS, i = .claimWide x ∧ g = x.x.g ∧ bytes = 12 ∧ p = x.d.toNat) → i.wf = true →
      s.Lone w g { wp := [p] } u →
      (∀ b, lowest b → (s.thr u).owned + 16 ≤ 128 → Effects s w i (s.past bytes) (s.modThr u (fun t => t.wp p true)) (gets b)) ∧
      ((pool s = [] ∨ 128 < (s.thr u).owned + 16) → Effects s w i (s.past bytes) (s.modThr u (fun t => t.wp p false)) (fun t => (t.thr u).blocks = (s.thr u).blocks ∧ (t.thr u).owned = (s.thr u).owned))) ∧
    (∀ i : Instr, (∃ x : SS, i = .claimw x ∧ g = Guard.always ∧ bytes = 4) ∨ (∃ x : WS, i = .claimwWide x ∧ g = x.x.g ∧ bytes = 12) →
      s.Lone w g {} u → (s.thr u).owned + 16 ≤ 128 →
      (∀ b, lowest b → Effects s w i (s.past bytes) s (gets b)) ∧
      (pool s = [] → (∃ t ∈ s.threads, t.team = k ∧ t.uid ≠ u ∧ t.phase ≠ .exited ∧ t.phase ≠ .claimWait) →
        Effects s w i (s.pastBut bytes u true) s (fun t => (t.thr u).phase = .claimWait))) ∧
    (∀ i : Instr, (∃ x : SS, i = .give x ∧ g = Guard.always ∧ bytes = 4) ∨ (∃ x : WS, i = .giveWide x ∧ g = x.x.g ∧ bytes = 12) →
      s.Lone w g {} u →
      ((s.thr u).blocks = [] → Effects s w i (s.past bytes) s) ∧
      (∀ bs b, (s.thr u).blocks = bs ++ [b] →
        Effects s w i (s.past bytes) (s.modThr u (fun t => { t with v := t.v.take (t.owned - 16), poison := t.poison.filter (· < t.owned - 16) }))
          (fun t => (t.thr u).blocks = bs ∧ (t.thr u).owned = (s.thr u).owned - 16 ∧ (noneWait → ∀ c, c ∈ pool t ↔ c ∈ pool s ∨ c = b))))

/-- R123, R221: an arrival of SYNC or ARRIVE by one thread that has not arrived in the phase: the barrier counts it, and it fixes the count when it is the first; the thread of SYNC waits in BARRIER. Where the phase is then complete the parity flips, the barrier is fresh, the thread goes on, and so does every thread that waits for the phase. A thread that has arrived waits in BARRIER for the next phase; WAIT holds a thread that has arrived, and no other. -/
def Claims.Barriers : Prop :=
  ∀ (s : State) (w : Wave) (i : Instr) (g : Guard) (bytes b u : Nat) (nm : Names) (count : Option Nat),
    s.Lone w g nm u →
    let k := (s.thr u).team
    let bit (t : Thread) : Bool := t.arrived.getLsbD b
    let after : State := (s.modTeam k (fun tm => tm.setBar b ((tm.bar b).arrive count (arrivalReqs u s)))).modThr u (fun t => { t with arrived := t.arrived ||| (1#16 <<< b) })
    let waits (v : Thread) : Prop := v.team = k ∧ v.phase = .barrier ∧ v.wait.reg = b
    (∀ sync : Bool,
      (∃ x : SS, i = (if sync then .barSync x else .barArrive x) ∧ g = Guard.always ∧ bytes = 4 ∧ b = x.d.toNat ∧
        (if x.b.getLsbD 0 then nm = { rs := [x.a.toNat] } ∧ count = some ((s.tm k).rs x.a.toNat).toNat else nm = {} ∧ count = none)) ∨
      (∃ x : WS, i = (if sync then .barSyncWide x else .barArriveWide x) ∧ g = x.x.g ∧ bytes = 12 ∧ b = x.d.toNat ∧
        (if x.b.getLsbD 0 then nm = { rs := [x.a.toNat] } ∧ count = some ((s.tm k).rs x.a.toNat).toNat else nm = {} ∧ count = if x.x.lit then some x.x.w2.toNat else none)) →
      i.wf = true → (∀ n, count = some n → 1 ≤ n ∧ n ≤ (s.tm k).size) →
      (bit (s.thr u) = false → (∀ e ∈ s.coll, ∀ r ∈ e.reqs, u ∉ r.threads) →
        (barrierDone k b after = false → Effects s w i (s.pastBut bytes u sync) s (fun t => bit (t.thr u) = true ∧ (sync = true → (t.thr u).phase = .barrier) ∧
          (t.tm k).bar b = ((s.tm k).bar b).arrive count (arrivalReqs u s))) ∧
        (barrierDone k b after = true → (∀ v ∈ s.threads, v.team = k → v.waitsIn .barrier = true → v.wait.reg = b → v.wait.mode = 0) → Effects s w i (s.past bytes) s (fun t =>
          (t.tm k).bar b = Bar.fresh (!((s.tm k).bar b).parity) ∧ (∀ v ∈ s.threads, v.team = k → bit (t.thr v.uid) = false) ∧
          ∀ v ∈ s.threads, waits v → (t.thr v.uid).phase = .ready ∧ (t.thr v.uid).pc = v.npc))) ∧
      (bit (s.thr u) = true → barrierDone k b s = false → Effects s w i (s.pastBut bytes u true) s (fun t => (t.thr u).phase = .barrier ∧ (t.thr u).wait.reg = b ∧ (t.tm k).bar b = (s.tm k).bar b))) ∧
    ((∃ x : SS, i = .barWait x ∧ g = Guard.always ∧ bytes = 4 ∧ b = x.d.toNat ∧ nm = {}) ∨ (∃ x : WS, i = .barWaitWide x ∧ g = x.x.g ∧ bytes = 12 ∧ b = x.d.toNat ∧ nm = {}) → i.wf = true →
      (bit (s.thr u) = false → Effects s w i (s.past bytes) s) ∧
      (bit (s.thr u) = true → barrierDone k b s = false → Effects s w i (s.pastBut bytes u true) s (fun t => (t.thr u).phase = .barrier)))

/-- R224: TRAP.SVC parks the threads with cause SERVICE at the TRAP and queues one service record for the team, which holds each thread's lane and its eight registers. R229, R330: RESUME by a thread of a service context on an open record retries it: a thread that a precise fault holds is READY at the fault's PC, and the record is closed. -/
def Claims.Services : Prop :=
  ∀ (s : State) (w : Wave) (u : Nat),
    let k := (s.thr u).team
    let gr := s.gridOf u
    (∀ (i : Instr) (g : Guard) (bytes code a : Nat),
      (∃ x : SS, i = .trapSvc x ∧ g = Guard.always ∧ bytes = 4 ∧ code = x.d.toNat ∧ a = x.a.toNat) ∨ (∃ x : WS, i = .trapSvcWide x ∧ g = x.x.g ∧ bytes = 12 ∧ code = x.d.toNat ∧ a = x.a.toNat) →
      s.Lone w g { rv := span a 8 } u →
      Effects s w i (s.pastBut bytes u true)
        { s with services := s.services ++ [⟨s.nextId, gr.fn, gr.ctx, gr.gridId, (s.tm k).id, code, (s.thr u).pc, [((s.thr u).lane, u, a, (span a 8).map (s.thr u).rv)], none⟩] }
        (fun t => (t.thr u).phase = .parked .service)) ∧
    (∀ (x : WA) (r : FaultRec) (pa mt leaf v : Nat),
      s.Lone w x.x.g { rv := x.a.toNat :: (x.a.toNat + 1) :: x.ob.vs false, rs := x.ob.ss false } u → x.ob.val (s.teamOf u) (s.thr u) = 0 →
      (∃ c, s.context? gr.fn gr.ctx = some c ∧ (fieldOf c.desc 28 4).testBit 0 = true) →
      s.Maps u .read ((s.thr u).rpair x.a.toNat).toNat pa mt leaf → recordAt gr.fn pa s = .faultRec r →
      r ∈ s.faults → r.deferred = false → r.wide = false → r.threads = [v] → (r.cause = .illegalOpcode ∨ r.cause = .reservedField ∨ r.cause = .bounds ∨ r.cause = .alignment ∨ r.cause = .pageNotPresent) →
      (s.thr v).phase = .faulted → (s.thr v).image = [] → (∃ t ∈ s.threads, t.uid = v) → (∀ q ∈ s.faults, v ∈ q.threads ∨ q.id = r.id → q = r) → r.id < s.nextId →
      ∃ t, exec (.resume x) s = .next t ∧ (t.thr v).phase = .ready ∧ (t.thr v).pc = r.spc ∧ (t.thr u).pc = s.past 12 u ∧ (∀ q ∈ t.faults, q.id ≠ r.id) ∧
        (∀ j, Thread.SameBut [] [] (s.thr j) (t.thr j)) ∧ ∀ j, Team.SameBut [] (s.tm j) (t.tm j))

/-- BAR.SYNC, ARRIVE and WAIT: arrivals, completion and waiting. Where the spec leaves a choice it follows the model's own, notes/assumptions 24. -/
def Obligations.BarriersIssue : Prop := Claims.Barriers

/-- CINIT and signing, register blocks, and TRAP.SVC. Where the spec leaves a choice it follows the model's own, notes/assumptions 14, 42. -/
def Obligations.TeamResources : Prop := Claims.Sets ∧ Claims.Blocks ∧ Claims.Services

/-! ### Atomics, reductions, fences, counters, copies (spec/06_memory_ordering.md, spec/11_memory_instructions.md) -/

/-- R125, R231, R244 to R247: ATOM, ATOMC and ATOMF, and RED outside DET, of one thread with its checks passed: operands are captured, the request goes to the home slice, LD (for RED, ST) rises, an atomic in a DET launch sets NDET; an acquiring one holds its thread. In a DET launch RED enters the reduction buffer in its thread's sequence instead. -/
def Claims.Atomics : Prop :=
  ∀ (s : State) (w : Wave) (u : Nat) (x : WA) (i : Instr) (form va pa mt : Nat) (returns : Bool),
    (i = .atom x ∧ form = 0 ∧ returns = true) ∨ (i = .atomc x ∧ form = 1 ∧ returns = true) ∨ (i = .atomf x ∧ form = 2 ∧ returns = true) ∨ (i = .red x ∧ form = 3 ∧ returns = false) →
    i.wf = true →
    let ty := x.x.ty
    let k := (s.thr u).team
    let order := bitsOf x.x.fn.toNat 5 4
    let dst : Option Nat := if returns = true ∧ x.d ≠ 0 then some x.d.toNat else none
    let ds := match dst with | some d => elemRegs ty d | none => []
    let c := if form = 1 then x.x.oc.vs ty.wide else []
    let cs := if form = 1 then x.x.oc.ss ty.wide else []
    s.Lone w x.x.g { rv := x.a.toNat :: (x.a.toNat + 1) :: (x.ob.vs ty.wide ++ c), wv := ds, rs := x.ob.ss ty.wide ++ cs, cls := if returns then .ld else .st } u →
    va = ((s.thr u).rpair x.a.toNat).toNat → s.Places u .atomic true (elemBytes ty) [va] [.glob va pa mt] →
    let o : AtomOp := ⟨form, bitsOf x.x.fn.toNat 3 0, ty, x.x.rnd.toNat, x.ob.elem ty 0 (s.teamOf u) (s.thr u), if form = 1 then x.x.oc.elem ty 0 (s.teamOf u) (s.thr u) else 0⟩
    ((returns = true ∨ s.det k = false) → (2 ≤ order → s.Released u x.x.sel.toNat) →
      let ats := Source.needsAts (s.ctxOf u).1 (s.ctxOf u).2 s (.glob va pa mt)
      let acq := decide (order % 2 = 1)
      let s1 := if returns && s.det k then s.modTeam k (fun tm => { tm with teamstat := tm.teamstat ||| 2 }) else s
      let s2 := (dirtyPlaces (s.teamOf u).core (s.ctxOf u).1 (s.ctxOf u).2 [.glob va pa mt] s1).asks (if returns then .ld else .st) [u] k (.atomic u va pa mt o dst) (s.thr u).pc acq (if ats then 1 else 0)
      let s3 := s2.modThr u (fun t => { t with ld := if returns then t.ld + 1 else t.ld, st := if returns then t.st else t.st + 1, pendV := t.pendV ++ ds })
      Effects s w i (s.pastBut 12 u (acq || ats)) s3) ∧
    (returns = false → s.det k = true → s.waits = false → bufferOf (s.teamOf u).core s < 2048 →
      Effects s w i (s.past 12) ((s.modGrid (s.teamOf u).grid (fun g => { g with reds := g.reds ++ [⟨(s.teamOf u).id, (s.thr u).tid, (s.thr u).redSeq, (s.teamOf u).core, va, o, false, false⟩] })).modThr u
        (fun t => { t with redSeq := (t.redSeq + 1) % 2 ^ 32 })))

/-- R120 to R122, R248, R249, R39: FENCE.REL and FENCE.AR of a scope (outside DET also AFLUSH, of device scope) pass where the release has nothing to wait for, and hold the thread while its accesses are outstanding; FENCE.ACQ holds it until its loads are delivered; a posted PIN_REVOKED is set in TEAMSTAT. In a DET launch AFLUSH parks the thread at its next flush point. -/
def Claims.Fences : Prop :=
  ∀ (s : State) (w : Wave) (u : Nat) (i : Instr) (g : Guard) (bytes scope : Nat),
    s.Lone w g {} u → s.Uncollected u → i.wf = true →
    let k := (s.thr u).team
    let posted := s.modTeam k (fun tm => if tm.pinRevoked then { tm with teamstat := tm.teamstat ||| 4 } else tm)
    let flush := (∃ x : SA, i = .aflush x ∧ g = Guard.always ∧ bytes = 4) ∨ (∃ x : WA, i = .aflushWide x ∧ g = x.x.g ∧ bytes = 12)
    ((∃ x : SS, (i = .fenceRel x ∨ i = .fenceAr x) ∧ g = Guard.always ∧ bytes = 4 ∧ scope = x.d.toNat) ∨ (∃ x : WS, (i = .fenceRelWide x ∨ i = .fenceArWide x) ∧ g = x.x.g ∧ bytes = 12 ∧ scope = x.x.sel.toNat) ∨
      (flush ∧ scope = 3 ∧ s.det k = false) →
      (s.Released u scope → Effects s w i (s.past bytes) posted) ∧
      ((s.thr u).relDone = false → memPending u s = true → Effects s w i (s.pastBut bytes u true) posted (fun t => (t.thr u).phase = .stalled ∧ ∃ r, (t.thr u).rel = some r ∧ r.scope = scope ∧ r.started = false))) ∧
    ((∃ x : SS, i = .fenceAcq x ∧ g = Guard.always ∧ bytes = 4) ∨ (∃ x : WS, i = .fenceAcqWide x ∧ g = x.x.g ∧ bytes = 12) →
      Effects s w i (s.pastBut bytes u (decide ((s.thr u).ld ≠ 0))) posted (fun t => (s.thr u).ld ≠ 0 → (t.thr u).phase = .stalled)) ∧
    (flush → s.det k = true → Effects s w i (s.pastBut bytes u true) s (fun t => (t.thr u).phase = .parked .keys ∧ (t.thr u).flushPoints = (s.thr u).flushPoints + 1))

/-- R228, R120, R125, R113: CTRADD, its release complete, requests an add of the zero-extended operand to the 64-bit counter and counts in ST. CTRWAIT reads the counter at L2, or outside the device, and drops the core's clean copy of its line: at or above the threshold the thread goes on, else it parks with CTR_WAIT. -/
def Claims.Counters : Prop :=
  ∀ (s : State) (w : Wave) (u : Nat) (x : WA) (va pa mt : Nat), va = ((s.thr u).rpair x.a.toNat).toNat →
    ((Instr.ctradd x).wf = true → s.Lone w x.x.g { rv := x.a.toNat :: (x.a.toNat + 1) :: x.ob.vs false, rs := x.ob.ss false, cls := .st } u →
      s.Places u .atomic true 8 [va] [.glob va pa mt] → (∃ m leaf, s.Maps u .atomic va pa m leaf ∧ m < 2) → s.Released u 3 →
      let ats := Source.needsAts (s.ctxOf u).1 (s.ctxOf u).2 s (.glob va pa mt)
      Effects s w (.ctradd x) (s.pastBut 12 u ats) (((dirtyPlaces (s.teamOf u).core (s.ctxOf u).1 (s.ctxOf u).2 [.glob va pa mt] s).asks .st [u] (s.thr u).team
        (.atomic u va pa mt ⟨4, 0, .i64, 0, (x.ob.val (s.teamOf u) (s.thr u)).toNat, 0⟩ none) (s.thr u).pc false (if ats then 1 else 0)).modThr u (fun t => { t with st := t.st + 1 }))) ∧
    ((Instr.ctrwait x).wf = true → s.Lone w x.x.g { rv := x.a.toNat :: (x.a.toNat + 1) :: (if x.x.lit then [] else x.ob.vs true), rs := if x.x.lit then [] else x.ob.ss true } u →
      s.Places u .read false 8 [va] [.glob va pa mt] → (∃ m leaf, s.Maps u .read va pa m leaf ∧ m < 2) →
      let threshold := if x.x.lit then x.x.w2.toNat else (x.ob.pair (s.teamOf u) (s.thr u)).toNat
      let reads (bs : List Byte) (s' : State) : Prop :=
        let parks := decide (leNat bs < threshold)
        Effects s w (.ctrwait x) (s.pastBut 12 u parks) (s'.forget (s.teamOf u).core (s.ctxOf u).1 (s.ctxOf u).2 va)
          (fun t => parks = true → (t.thr u).phase = .parked .ctrWait ∧ (t.thr u).wait.addr = va ∧ (t.thr u).wait.thr = threshold)
      ((regionOf pa).local = true → pa / 128 ∉ s.mem.poison → ∀ l, s.l2line? (pa / 128) = some l → l.last ≠ s.gtick → reads (s.mem.bytes.readN pa 8) (s.setL2 { l with last := s.gtick })) ∧
      ((regionOf pa).local = false → reads (freeBytes 8 s).1 (freeBytes 8 s).2))

/-- R16, R19, R69, R252 to R254: a CPY that no rule refuses is queued on its core with the thread as its issuer, CP rises and vD receives a promise at or above the view; with length 0 it receives the view and nothing is queued; with the queue full the thread parks. CPYQ answers the largest promise of the thread's incomplete copies, or the view. -/
def Claims.Copies : Prop :=
  ∀ (s : State) (w : Wave),
    (∀ (u : Nat) (x : WA), (Instr.cpy x).wf = true →
      let fn := x.x.fn.toNat
      let dg := decide (fn % 2 = 0)
      let sg := decide (fn < 2)
      let t := s.thr u
      let f := (s.ctxOf u).1
      let len := (x.ob.val (s.teamOf u) t).toNat
      let dst := if dg then (t.rpair x.a.toNat).toNat else (t.rv x.a.toNat).toNat
      let src := if sg then (t.rpair x.x.c.toNat).toNat else (t.rv x.x.c.toNat).toNat
      let pair (g : Bool) (r : Nat) : List Nat := if g then [r, r + 1] else [r]
      let fits (g : Bool) (a : Nat) : Prop := if g = true then len ≠ 0 → a + len ≤ 2 ^ 64 ∧ canonical a = true ∧ canonical (a + len - 1) = true else a + len ≤ (s.teamOf u).scratchSize
      s.Lone w x.x.g { rv := pair dg x.a.toNat ++ pair sg x.x.c.toNat ++ x.ob.vs false, wv := [x.d.toNat, x.d.toNat + 1], rs := x.ob.ss false, cls := .cp } u →
      fits dg dst → fits sg src → (dg = sg → len ≠ 0 → dst + len ≤ src ∨ src + len ≤ dst) →
      (len = 0 → Effects s w (.cpy x) (s.past 12) (s.modThr u (fun t => t.wpair x.d.toNat (BitVec.ofNat 64 (s.viewOf f))))) ∧
      (len ≠ 0 → 32 ≤ queued (s.teamOf u).core s → Effects s w (.cpy x) (s.pastBut 12 u true) s (fun t => (t.thr u).phase = .parked .copyWait)) ∧
      (len ≠ 0 → queued (s.teamOf u).core s < 32 →
        ∃ p, s.viewOf f ≤ p ∧ Effects s w (.cpy x) (s.past 12)
          (({ s with free := s.free + 1, copies := s.copies ++ [⟨s.nextId, u, (s.teamOf u).core, t.team, f, (s.ctxOf u).2, dg, dst, sg, src, len, 0, p, 0, false, false, none, false, t.pc⟩] } : State).modThr u
            (fun t => { t.wpair x.d.toNat (BitVec.ofNat 64 p) with cp := t.cp + 1 })))) ∧
    (∀ (i : Instr) (g : Guard) (bytes d : Nat), (∃ x : SA, i = .cpyq x ∧ g = Guard.always ∧ bytes = 4 ∧ d = x.d.toNat) ∨ (∃ x : WA, i = .cpyqWide x ∧ g = x.x.g ∧ bytes = 12 ∧ d = x.d.toNat) →
      s.Ready w g { wv := [d, d + 1] } → (∀ u, s.Active w g u → ∀ c ∈ s.copies, c.th = u → s.viewOf c.fn < c.promise) →
      Does s w i g bytes (SetsPair d fun tm a =>
        let ps := (s.copies.filter (fun c => c.th == a.uid)).map Copy.promise
        BitVec.ofNat 64 (if ps = [] then s.viewOf (s.gr tm.grid).fn else ps.foldl max 0)))

/-- ATOM, ATOMC, ATOMF and RED ask for their access, and their frame. Where the spec leaves a choice it follows the model's own, notes/assumptions 22, 25. -/
def Obligations.AtomicsIssue : Prop := Claims.Atomics

/-- FENCE, AFLUSH and their waits. Where the spec leaves a choice it follows the model's own, notes/assumptions 24, 25, 26. -/
def Obligations.FencesIssue : Prop := Claims.Fences

/-- CTRADD, CTRWAIT and RESUME. Where the spec leaves a choice it follows the model's own, notes/assumptions 25, 42. -/
def Obligations.CountersIssue : Prop := Claims.Counters

/-- CPY and CPYQ: a copy is accepted, and its promise is read. Where the spec leaves a choice it follows the model's own, notes/assumptions 19. -/
def Obligations.CopiesIssue : Prop := Claims.Copies

/-! ### Tiles, matrices, dispatches, worlds, splats, tasks and launches (spec/11_memory_instructions.md, spec/13_matrix_tile_world_splat_instructions.md, spec/10_control_and_integer_instructions.md) -/

/-- R74, R75, R77 to R80, R289: TDEF, TLD and TKILL of one thread send the directory a request that holds the thread: TDEF captures its registers and raises TL at issue, TLD and TKILL do not raise it. -/
def Claims.TileRequests : Prop :=
  ∀ (s : State) (w : Wave) (u : Nat) (i : Instr) (x : WA) (f : TileForm),
    (i = .tdef x ∧ f.kind = 0 ∧ f.reg = x.a.toNat ∧ f.part = x.b.toNat) ∨ (i = .tld x ∧ f.kind = 1 ∧ f.reg = x.d.toNat ∧ f.part = x.b.toNat) ∨ (i = .tkill x ∧ f.kind = 2 ∧ f.reg = 0 ∧ f.part = 0) →
    f.ns = x.x.w2.getLsbD 15 ∧ f.name = bitsOf x.x.w2.toNat 9 0 ∧ f.shape = bitsOf x.x.w2.toNat 31 16 → i.wf = true → f.bad = false →
    s.Lone w x.x.g { rv := (if f.kind = 2 then [] else [f.part]) ++ (if f.kind = 0 then f.regs else []), wv := if f.kind = 1 then f.regs else [],
                     rs := if f.ns then [f.name % 64] else [], cls := if f.kind = 2 then .none else .tl } u →
    let name := if f.ns then ((s.teamOf u).rs (f.name % 64)).toNat else f.name
    let part := ((s.thr u).rv f.part).toNat
    name ≤ 1023 → (f.kind = 2 ∨ part ≤ 31) →
    let asked := s.asks (if f.kind = 0 then .tl else .none) [u] (s.thr u).team (.tile u false f.kind name f.shape part f.reg (if f.kind = 0 then f.regs.map (s.thr u).rv else [])) (s.thr u).pc true 0
    Effects s w i (s.pastBut 12 u true) (if f.kind = 0 then asked.modThr u (fun t => { t with tl := t.tl + 1 }) else asked) (fun t => (t.thr u).phase = .stalled)

/-- R281 to R287: MMA, MMAS and AMOV of the whole set with an active member enter the reservation table at once while it has room: the fragments are read, TL rises in the active members, AMOV.FROM's registers are pending, and the members go on. Handles name records that the core's layout cache holds. A full table, or one that holds an earlier request, holds the issue: the members stay in CONV_WAIT. -/
def Claims.MatrixRequests : Prop :=
  ∀ (s : State) (w : Wave) (x : WA) (k : Nat),
    let g := x.x.g
    let n := x.x.w2.toNat % 8
    let tm := s.tm k
    let act := s.actives w g n k
    let us := act.map (·.1)
    let pc := (s.thr (us.headD 0)).pc
    let all := (List.range 32).filterMap (fun i => (w.members.find? (fun u => (s.thr u).tid == (tm.conv n).base + i)))
    let work (i : Instr) (frag : Thread → List Word) (recs : List (List Byte)) : Matrix := ⟨i, act, [], act.map (fun a => frag (s.thr a.1)), recs, [], none, true, none, 0⟩
    let entry (m : Matrix) : State := { s with reqs := s.reqs ++ [⟨s.nextId, s.issue + 1, .tl, us, tm.core, k, .matrix m, pc, s.gtick, false, none, 0, 0⟩] }
    let room : Prop := (tableOf (clusterOf tm.core) s).length < 16 ∧ tableHeld (clusterOf tm.core) s.nextId s = false
    let counts (vs : List Nat) (_ : Team) (a b : Thread) : Prop := Thread.SameBut [] [] { a with tl := a.tl + 1, pendV := a.pendV ++ vs } b
    let waits (i : Instr) (frag : Thread → List Word) (recs : List (List Byte)) (vs : List Nat) : Prop := ¬ room →
      Effects s w i (fun v => (s.thr v).pc)
        (us.foldl (fun s u => s.modThr u (fun t => { t with pendV := t.pendV ++ vs }))
          { s.modTeam k (fun tm => tm.setConv n { tm.conv n with pc := pc, signed := [] }) with reqs := s.reqs ++ [⟨s.nextId, s.issue + 1, .none, [], tm.core, k, .matrix { work i frag recs with waiting := all, accepted := false }, pc, s.gtick, false, none, 0, 0⟩] })
        (fun t => ∀ u ∈ w.members, (t.thr u).phase = .convWait)
    let record (h : Nat) : Option (List Byte) := (nth none tm.h h).bind (s.layout? tm.core (s.gr tm.grid).fn (s.gr tm.grid).ctx)
    let zeros (h : Nat) (xs : List Nat) (b : List Byte) : Prop := record h = some b ∧ layGran b ≠ 0 ∧ (layCtl b).testBit 8 = true ∧
      (x.x.ty = .i4x → ∀ u ∈ us, ∀ r ∈ xs, ((s.thr u).rv r).toInt % 4 = 0)
    s.Numbered → s.Meets w n k → us ≠ [] → tm.saved = none →
    (let m := work (.mma x) (mmaFrag x) []
     (Instr.mma x).wf = true → s.Ready w g { rv := mmaRegs x, cls := .tl } → mmaZs x = false →
      (room → MeetIn s (entry { m with left := some (mmaPasses x.x.ty).length }) w (.mma x) g n k (counts [])) ∧ waits (.mma x) (mmaFrag x) [] []) ∧
    (∀ b, let h := bitsOf x.x.w2.toNat 7 4
     let m := work (.mma x) (mmaFrag x) [b]
     (Instr.mma x).wf = true → s.Ready w g { rv := mmaRegs x, rh := [h], cls := .tl } → mmaZs x = true → zeros h [x.x.c.toNat] b →
      (room → MeetIn s (entry { m with left := if m.lacks = [] then some m.passes else none }) w (.mma x) g n k (counts [])) ∧ waits (.mma x) (mmaFrag x) [b] []) ∧
    (∀ a b, let ha := bitsOf x.x.w2.toNat 7 4
     let hb := bitsOf x.x.w2.toNat 11 8
     let m := work (.mmas x) (mmasFrag x) [a, b]
     let operand (h : Nat) (b : List Byte) : Prop := record h = some b ∧ (layCtl b).testBit 8 = true ∧ layTy b = x.x.ty
     (Instr.mmas x).wf = true → s.Ready w g { rv := mmasRegs x, rh := [ha, hb], cls := .tl } → operand ha a → operand hb b → (mmaZs x = true → zeros ha [x.a.toNat] a) →
      (room → m.lacks ≠ [] → MeetIn s (entry m) w (.mmas x) g n k (counts [])) ∧
      (room → m.lacks = [] → s.dirtyOf k = [] → ∃ t, exec (.mmas x) s = .next t ∧
        (∀ u, s.Active w g u → counts [] tm (s.thr u) (t.thr u)) ∧ (∀ u, ¬ s.Active w g u → Thread.SameBut [] [] (s.thr u) (t.thr u)) ∧
        (∀ u ∈ w.members, (t.thr u).pc = s.past 12 u ∧ (t.thr u).phase = .ready) ∧
        ∃ q ∈ t.reqs, q.id = s.nextId ∧ q.cls = .tl ∧ q.threads = us ∧
          ((q.fault = none ∧ ∃ f, q.work = .matrix { m with fetched := some f, left := some m.passes } ∧ f.1.length = act.length ∧ f.2.length = act.length) ∨ (q.fault ≠ none ∧ q.work = .matrix m))) ∧
      waits (.mmas x) (mmasFrag x) [a, b] []) ∧
    (let vs := span x.d.toNat (amovW x.x.ty)
     (Instr.amovFrom x).wf = true → s.Ready w g { wv := vs, cls := .tl } →
      (room → MeetIn s (entry { work (.amovFrom x) (fun _ => []) [] with left := some 1 }) w (.amovFrom x) g n k (counts vs)) ∧ waits (.amovFrom x) (fun _ => []) [] vs) ∧
    (let vs := span x.a.toNat (amovW x.x.ty)
     (Instr.amovInto x).wf = true → s.Ready w g { rv := vs, cls := .tl } →
      (room → MeetIn s (entry { work (.amovInto x) (fun t => vs.map t.rv) [] with left := some 1 }) w (.amovInto x) g n k (counts [])) ∧ waits (.amovInto x) (fun t => vs.map t.rv) [] []) ∧
    ((Instr.amovZero x).wf = true → s.Ready w g { cls := .tl } →
      (room → MeetIn s (entry { work (.amovZero x) (fun _ => []) [] with left := some 1 }) w (.amovZero x) g n k (counts [])) ∧ waits (.amovZero x) (fun _ => []) [] [])

/-- R255 to R259: DSEND, DCOMB and COLL of one thread whose descriptor is well formed raise CP and are handed to the engine: DSEND reads its row and sends the fetch-add for its slot to the device of the route (on the issuing device it comes with the reply), or waits with its row for older stores of the thread to it; DCOMB asks the other devices for the rows its routes name, COLL posts a participation in its group's next collective. -/
def Claims.Transports : Prop :=
  ∀ (s : State) (w : Wave) (u : Nat) (x : WA) (b : List Byte),
    let t0 := s.thr u
    let k := t0.team
    let va := (t0.rpair x.a.toNat).toNat
    let pair := [x.a.toNat, x.a.toNat + 1]
    let fn := (s.ctxOf u).1
    let ctx := (s.ctxOf u).2
    let hand (i : Instr) (desc : List Byte) (args : List Nat) (stage : Nat) (s : State) : State :=
      (s.asks .cp [u] k (.dispatch u i desc args stage 0 t0.pc) t0.pc false 0).modThr u (fun t => { t with cp := t.cp + 1 })
    let own (peer : Nat) : Bool := peer == Config.device % 32
    s.Cached u va 64 b →
    ((Instr.dsend x).wf = true → s.Lone w x.x.g { rv := pair ++ x.ob.vs false ++ x.x.oc.vs false, wv := [x.d.toNat], rs := x.ob.ss false ++ x.x.oc.ss false, cls := .cp } u →
      let route := (x.ob.val (s.teamOf u) t0).toNat
      let row := (x.x.oc.val (s.teamOf u) t0).toNat
      let n := fieldOf b 8 4
      let src := fieldOf b 0 8 + row * n
      let awaits (s : State) : State := s.modThr u (fun t => { t with pendV := t.pendV ++ [x.d.toNat] })
      sendBad b = false → routeBad route = false → routeExpert route < fieldOf b 12 4 → s.Settled k src n →
      (sourceLate s.nextId u k src n s = true → Effects s w (.dsend x) (s.past 12) (awaits (hand (.dsend x) b [route, src] 3 s))) ∧
      (sourceLate s.nextId u k src n s = false → ∀ ls r, s.Resident u src n ls r →
        let handed := awaits (hand (.dsend x) (b ++ r) [route, 0] 0 (s.touched ls))
        Effects s w (.dsend x) (s.past 12)
          (if own (routePeer route) then handed else handed.leave fn ctx (peerPa (routePeer route) (fieldOf b 16 8 + 8 * routeExpert route)) (.atomic ⟨0, 0, .i64, 0, 1, 0⟩)))) ∧
    ((Instr.dcomb x).wf = true → s.Lone w x.x.g { rv := pair, cls := .cp } u →
      let m := fieldOf b 24 4
      let n := fieldOf b 8 4
      let routes := (List.range m).map (fun j => ((t0.rv (x.b.toNat + 2 * j)).toNat, (t0.rv (x.b.toNat + 2 * j + 1)).toNat, (t0.rv (x.x.c.toNat + j)).toNat))
      let used := routes.filter (fun r => r.1 != 0xFFFFFFFF && r.2.1 != 0xFFFFFFFF)
      combBad b (elemBytes x.x.ty) = false → (∀ r ∈ combRegs x 8, r ∉ t0.pendV) → (∀ r ∈ combRegs x m, r < t0.owned ∧ r ∉ t0.poison) →
      (∀ r ∈ routes, r.1 ≠ 0xFFFFFFFF → routeBad r.1 = false ∧ routeExpert r.1 < fieldOf b 28 4) →
        let at_ (r : Nat × Nat × Nat) : Nat := fieldOf b 0 8 + 0x8000 + (routeExpert r.1 * fieldOf b 12 4 + r.2.1) * n
        Effects s w (.dcomb x) (s.past 12)
          (hand (.dcomb x) b ((t0.rv (x.x.w2.toNat % 128)).toNat :: used.flatMap (fun r => [r.2.2, if own (routePeer r.1) then at_ r + 1 else 0])) 0
            ((used.filter (fun r => !own (routePeer r.1))).foldl (fun s r => s.leave fn ctx (peerPa (routePeer r.1) (at_ r)) (.read n)) s))) ∧
    ((Instr.coll x).wf = true → s.Lone w x.x.g { rv := pair, cls := .cp } u →
      collBad x.x.fn.toNat b = false → s.Settled k (fieldOf b 0 8) (collBytes x.x.fn.toNat b).1 →
      ∀ ls tab, s.Resident u (fieldOf b 40 8) 32 ls tab → (tab.take (fieldOf b 20 1)).Nodup →
        let q := match s.collSeq.find? (fun c => c.1 == (s.ctxOf u).1 && c.2.1 == fieldOf b 24 2) with | some c => c.2.2 | none => 0
        let posted := { s.touched ls with collSeq := ((s.ctxOf u).1, fieldOf b 24 2, q + 1) :: s.collSeq.filter (fun c => !(c.1 == (s.ctxOf u).1 && c.2.1 == fieldOf b 24 2)) }
        Effects s w (.coll x) (s.past 12) (hand (.coll x) (b ++ tab) [q] 0 posted))

/-- R290 to R296: the world instructions of one thread in a launch that declares a bound world: EQRY reads and checks its query and asks the walker; ELOOK, ECOL and EEDIT ask the table engine; EVIEW opens or closes the team's view of the published generation, an OPEN beside a keystone that has planned its compaction after its publish; KEYS parks after a release of device scope, with a flush point in a DET launch and a request for a keystone outside one. -/
def Claims.Worlds : Prop :=
  ∀ (s : State) (w : Wave) (u : Nat) (y : World),
    s.worldOf u = some y →
    let t0 := s.thr u
    let k := t0.team
    let askAt (s : State) (cls : Cls) (hold : Bool) (kind : Nat) (args dst : List Nat) (pred : Nat) : State :=
      (s.asks cls [u] k (.world u kind args (dst.headD 0) pred) t0.pc hold 0).modThr u (fun t =>
        { t.countUp cls with pendV := t.pendV ++ dst, pendP := t.pendP ++ (if kind = 2 then [] else [pred]) })
    let ask := askAt s
    (∀ x : WA,
      let a := (t0.rpair x.a.toNat).toNat
      let v := (x.ob.val (s.teamOf u) t0).toNat
      let pair := [x.a.toNat, x.a.toNat + 1]
      let dst := [x.d.toNat, x.d.toNat + 1]
      let p := x.x.w2.toNat % 8
      let names (rv wv : List Nat) (cls : Cls) : Names := { rv := rv, wv := wv, rs := x.ob.ss false, wp := [p], cls := cls }
      ((Instr.eqry x).wf = true → s.Lone w x.x.g (names (pair ++ x.ob.vs false) dst .ld) u → ∀ w0 ts,
        countsBad w0 = false → ts.length = w0 % 256 + bitsOf w0 15 8 + bitsOf w0 23 16 → (∀ j < ts.length + 1, s.Cached u (a + 4 * j) 4 (leBytes (nth 0 (w0 :: ts) j) 4)) →
        (∀ t ∈ ts, t < 1024) → (0 ∉ (typeSizes y (ts.map (· % 1024)) s).2) → (typeSizes y (ts.map (· % 1024)) s).1.mem.bytes = s.mem.bytes →
          ∃ tick, s.gtick ≤ tick ∧ Touches s w (.eqry x) (s.pastBut 12 u true) (askAt { s with gtick := tick } .ld true 0 (v :: w0 :: ts) dst p)) ∧
      ((Instr.elook x).wf = true → s.Lone w x.x.g (names (pair ++ x.ob.vs false) dst .ld) u → v ≤ 1023 → Effects s w (.elook x) (s.pastBut 12 u true) (ask .ld true 1 [a, v] dst p)) ∧
      ((Instr.eeditNew x).wf = true → s.Lone w x.x.g { rv := pair ++ [x.b.toNat, x.b.toNat + 1], wp := [p], cls := .st } u →
        let b := (t0.rpair x.b.toNat).toNat
        a % 4 = 0 → b % 8 = 0 → Effects s w (.eeditNew x) (s.past 12) (ask .st false 3 [0, a, b] [] p)) ∧
      ((Instr.eeditDel x).wf = true → s.Lone w x.x.g { rv := pair, wp := [p], cls := .st } u → a / 2 ^ 56 % 256 = y.id → Effects s w (.eeditDel x) (s.past 12) (ask .st false 3 [1, a, 0] [] p)) ∧
      (∀ op i, (op = 2 ∧ i = .eeditAdd x) ∨ (op = 3 ∧ i = .eeditRem x) → i.wf = true → s.Lone w x.x.g (names (pair ++ x.ob.vs false) [] .st) u →
        1 ≤ v → v ≤ 1023 → a / 2 ^ 56 % 256 = y.id → Effects s w i (s.past 12) (ask .st false 3 [op, a, v] [] p)) ∧
      (∀ (opening : Bool) (i : Instr), i = (if opening then .eviewOpen x else .eviewClose x) → i.wf = true → s.Lone w x.x.g { wp := [p] } u → s.MayWrite w x.x.g →
        let has := y.viewTeams.any (fun v => v.1 == k)
        let ok := if opening then !has && decide (y.viewTeams.length < 256) else has
        let v : Word := if opening then BitVec.ofNat 32 y.cur else 0xFFFFFFFF
        let s1 := if opening then
            s.setWorld { y with viewTeams := (k, y.cur) :: y.viewTeams, tables := y.tables.map (fun (t : Tables) => if t.gen == y.cur then { t with views := t.views + 1 } else t) }
          else closeView k s
        let late := opening && y.compacted && !has
        (late = true → ∃ full : Bool, (full = true ↔ s.Whole w k) ∧
          Effects s w i (s.pastBut 12 u true) ((s.asks .none [u] k (.world u 4 ((if full then 1 else 0) :: writersOf s w.members k) 0 p) t0.pc true 0).modThr u (fun t => { t with pendP := t.pendP ++ [p] }))
            (fun t => (t.thr u).phase = .stalled)) ∧
        (late = false → ok = false → Effects s w i (s.past 12) (s.modThr u (fun t => t.wp p false))) ∧
        (late = false → ok = true → ∃ stat, Effects s w i (s.past 12) ((s1.modTeam k (fun tm => { tm with view := v, tLast := setNth [] tm.tLast 2 (writersOf s w.members k), teamstat := stat })).modThr u (fun t => t.wp p true))
          (fun t => s.Recorded w (.special 2) ((s.tm k).view ≠ v) k (s.tm k) (t.tm k))))) ∧
    (∀ (i : Instr) (g : Guard) (bytes a d c : Nat), (∃ x : SI, i = .ecol x ∧ g = Guard.always ∧ bytes = 4 ∧ a = x.a.toNat ∧ d = x.d.toNat ∧ c = x.imm.toNat) ∨
        (∃ x : WA, i = .ecolWide x ∧ g = x.x.g ∧ bytes = 12 ∧ a = x.a.toNat ∧ d = x.d.toNat ∧ c = x.x.w2.toNat) → i.wf = true →
      s.Lone w g { rv := [a], wv := [d, d + 1], cls := .ld } u → c ≤ 1023 → Effects s w i (s.past bytes) (ask .ld false 2 [(t0.rv a).toNat, c] [d, d + 1] 0)) ∧
    (∀ (i : Instr) (g : Guard) (bytes : Nat), (∃ x : SA, i = .keys x ∧ g = Guard.always ∧ bytes = 4) ∨ (∃ x : WA, i = .keysWide x ∧ g = x.x.g ∧ bytes = 12) → i.wf = true →
      s.Lone w g {} u → s.Released u 3 →
      (s.det k = true → Effects s w i (s.pastBut bytes u true) s (fun t => (t.thr u).phase = .parked .keys ∧ (t.thr u).flushPoints = t0.flushPoints + 1)) ∧
      (s.det k = false → Effects s w i (s.pastBut bytes u true) (s.modGrid (s.tm k).grid (fun g => { g with keysReq := true })) (fun t => (t.thr u).phase = .parked .keys)))

/-- R297 to R303: SCTL.SET writes FRAME, TCUT or NEAR of the team under R203 and R156, SCTL.GET reads FRAME, TCUT, NEAR or BINSTAT; SPROJ and SBLEND capture their operands and the frame and raise TL; SBIN queues one request for the team, or stalls on a full queue. -/
def Claims.Splats : Prop :=
  ∀ (s : State) (w : Wave) (x : WA),
    let sel := x.x.w2.toNat
    let a := x.a.toNat
    let d := x.d.toNat
    ((Instr.sctlSet x).wf = true → s.Ready w x.x.g { rv := if sel = 0 then [a, a + 1] else [a] } → s.MayWrite w x.x.g → (sel ≠ 0 → ∀ u, s.Active w x.x.g u → positiveFinite ((s.thr u).rv a).toNat = true) →
      DoesTeams s w (.sctlSet x) x.x.g 12 (fun k m m' => ∃ u, s.Supplies w x.x.g k u ∧
        let p := (s.thr u).rpair a
        let v := (s.thr u).rv a
        (sel = 0 → s.Recorded w (.special 3) (m.frame ≠ p) k m m' ∧ Team.SameBut [] { m with frame := p, teamstat := m'.teamstat, tLast := setNth [] m.tLast 3 (writersOf s w.members k) } m') ∧
        (sel = 1 → s.Recorded w (.special 4) (m.tcut ≠ v) k m m' ∧ Team.SameBut [] { m with tcut := v, teamstat := m'.teamstat, tLast := setNth [] m.tLast 4 (writersOf s w.members k) } m') ∧
        (sel = 2 → s.Recorded w (.special 5) (m.near ≠ v) k m m' ∧ Team.SameBut [] { m with near := v, teamstat := m'.teamstat, tLast := setNth [] m.tLast 5 (writersOf s w.members k) } m'))) ∧
    ((Instr.sctlGet x).wf = true → s.Ready w x.x.g { wv := if sel = 0 then [d, d + 1] else [d] } →
      Does s w (.sctlGet x) x.x.g 12 (fun tm t t' => (sel = 0 → SetsPair d (fun tm _ => tm.frame) tm t t') ∧
        (sel = 1 → SetsV d (fun tm _ => tm.tcut) tm t t') ∧ (sel = 2 → SetsV d (fun tm _ => tm.near) tm t t') ∧ (sel = 3 → SetsV d (fun tm _ => tm.binstat) tm t t'))) ∧
    (∀ u ls b, let t0 := s.thr u
      let k := t0.team
      let tm := s.teamOf u
      let p := x.x.w2.toNat % 8
      let ask (i : Instr) (captured wv wp : List Nat) : State :=
        ((s.touched ls).asks .tl [u] k (.splat u i ([0, 0] ++ captured ++ b.map BitVec.toNat) t0.pc) t0.pc false 0).modThr u (fun t =>
          { t with tl := t.tl + 1, pendV := t.pendV ++ wv, pendP := t.pendP ++ wp })
      tm.frame ≠ 0 → tm.frame.toNat % 64 = 0 → s.Resident u tm.frame.toNat 192 ls b → frameBad b = false →
      ((Instr.sproj x).wf = true → s.Lone w x.x.g { rv := [a, a + 1] ++ x.ob.vs false, wv := [d], rs := x.ob.ss false, wp := [p], cls := .tl } u → (t0.rpair a).toNat % 64 = 0 →
        Effects s w (.sproj x) (s.past 12) (ask (.sproj x) [tm.near.toNat, 0, (t0.rpair a).toNat, (x.ob.val tm t0).toNat] [d] [p])) ∧
      (∀ i wv, (i = .sblendFwd x ∧ wv = [d]) ∨ (i = .sblendBack x ∧ wv = []) → i.wf = true → s.Lone w x.x.g { rv := a :: x.ob.vs false, wv := wv, rs := x.ob.ss false, cls := .tl } u →
        (t0.rv a).toNat < fieldOf b 64 4 → (x.ob.val tm t0).toNat < fieldOf b 68 4 →
        Effects s w i (s.past 12) (ask i [tm.tcut.toNat, 0, (t0.rv a).toNat, (x.ob.val tm t0).toNat] wv [])) ∧
      ((Instr.sbin x).wf = true → s.Lone w x.x.g { wp := [p], cls := .tl } u →
        let full := decide (4 ≤ (binQueue (clusterOf tm.core) s).length)
        (full = false → Effects s w (.sbin x) (s.past 12)
          ({ s.touched ls with bins := s.bins ++ [(⟨s.nextId, clusterOf tm.core, k, [u], p, tm.frame.toNat, false, false, t0.pc, none, none, 0, [], 0⟩ : BinReq)] }.modThr u (fun t => { t with tl := t.tl + 1, pendP := t.pendP ++ [p] }))) ∧
        (full = true → Effects s w (.sbin x) (s.pastBut 12 u true) (s.touched ls) (fun t => (t.thr u).phase = .stalled))))

/-- R227, R317, R318: SPAWN of one thread after its release of cluster scope: a full queue or a full pool says false; else the task is queued in the cluster, says true, and the cluster's waiting tasks are looked at again: it is eligible where its counters have met their thresholds, it has its table entry, and no earlier task conflicts; a DET launch notes the nondeterminism. R226, R309, R311: LAUNCH by thread 0 of a team after its release of device scope: the record is checked and the launch enters behind the core's pending ones, at one depth more; four pending ones park the thread in LAUNCH_FULL. -/
def Claims.Launches : Prop :=
  ∀ (s : State) (w : Wave) (u : Nat) (x : WA) (b : List Byte) (ls : List L2Line),
    let t0 := s.thr u
    let k := t0.team
    let g := s.gridOf u
    let core := (s.teamOf u).core
    let va := (t0.rpair x.a.toNat).toNat
    let p := x.d.toNat % 8
    let cl := clusterOf core
    let pair := [x.a.toNat, x.a.toNat + 1]
    ((Instr.spawn x).wf = true → s.Lone w x.x.g { rv := pair, wp := [p] } u → va % 64 = 0 → s.Released u 2 → s.Resident u va 64 ls b → taskBad b = false → (∀ o ∈ s.tasks, o.id < s.nextId) →
      let full : Prop := 4096 ≤ (s.tasks.filter (fun (t : Task) => t.cluster == cl && t.team.isNone)).length ∨ g.field 88 4 ≤ (s.tasks.filter (fun (t : Task) => t.grid == g.uid)).length
      let new : Task := ⟨s.nextId, g.uid, cl, b, false, false, none, none, none⟩
      let met := depsMet (4 * cl) g.fn g.ctx new.deps (s.touched ls)
      (full → Effects s w (.spawn x) (s.past 12) ((s.touched ls).modThr u (fun t => t.wp p false))) ∧
      (¬ full → Effects s w (.spawn x) (s.past 12)
        (refreshTasks cl ((({ s.touched ls with tasks := s.tasks ++ [{ new with entry := !new.ranged }] } : State).modTeam k (fun tm => if s.det k then { tm with teamstat := tm.teamstat ||| 2 } else tm)).modThr u (fun t => t.wp p true)))
        (fun t => (∃ e ∈ t.tasks, e.id = s.nextId) ∧ ((∀ o ∈ s.tasks, o.cluster = cl → o.since.isSome = true) → ∀ e ∈ t.tasks, e.id = s.nextId →
          e.grid = g.uid ∧ e.cluster = cl ∧ e.bytes = b ∧ e.team = none ∧ e.ready = met.2 ∧
          (e.since.isSome = true ↔ e.ready = true ∧ e.entry = true ∧ ∀ o ∈ t.tasks, o.id < e.id → o.cluster = cl → ¬ (o.entry = true ∧ o.ranged = true ∧ tasksConflict o e = true)))))) ∧
    ((Instr.launch x).wf = true → s.Lone w x.x.g { rv := pair } u → t0.tid = 0 → g.depth < 10 → va % 256 = 0 → s.Released u 3 → s.Resident u va 256 ls b → ∀ r,
      let check := checkLaunch core g.fn g.ctx b (s.touched ls)
      check.2 = some r →
      ((s.grids.filter (fun h => h.pendingOn == some core)).length < 4 →
        Effects s w (.launch x) (s.past 12) (enterLaunch g.fn g.ctx (g.depth + 1) g.uid none (some core) b r check.1)) ∧
      (4 ≤ (s.grids.filter (fun h => h.pendingOn == some core)).length → Effects s w (.launch x) (s.pastBut 12 u true) check.1 (fun t => (t.thr u).phase = .parked .launchFull)))

/-- TDEF, TLD, TKILL, MMA, MMAS and AMOV enter their engines. Where the spec leaves a choice it follows the model's own, notes/assumptions 10, 31, 33. -/
def Obligations.EngineRequests : Prop := Claims.TileRequests ∧ Claims.MatrixRequests

/-- DSEND, DCOMB and COLL enter the transport unit. Where the spec leaves a choice it follows the model's own, notes/assumptions 37. -/
def Obligations.TransportsIssue : Prop := Claims.Transports

/-- EQRY, ELOOK, EEDIT, EVIEW, ECOL and KEYS ask the world engine. Where the spec leaves a choice it follows the model's own, notes/assumptions 7, 38. -/
def Obligations.WorldsIssue : Prop := Claims.Worlds

/-- SPROJ, SBIN, SBLEND and SCTL enter their units. Where the spec leaves a choice it follows the model's own, notes/assumptions 40, 41. -/
def Obligations.SplatsIssue : Prop := Claims.Splats

/-- LAUNCH and SPAWN read their records and enter the grid or the task. Where the spec leaves a choice it follows the model's own, notes/assumptions 15, 25, 34. -/
def Obligations.LaunchesIssue : Prop := Claims.Launches

/-! ### Steps of threads and of the clock (spec/07_execution_model.md, spec/10_control_and_integer_instructions.md) -/

/-- R139, R171: an EXITING thread whose LD, ST and TL are 0 becomes EXITED, returns its blocks and joins its FLAGS to the team's; the last one starts the team's exit release, whose target is the largest Tw of its threads where no line is dirty. R120: a release whose accesses have performed completes at its target tick, and its stalled thread issues its instruction afresh. R69, R220: a sleeper whose view reaches its tick wakes past SLEEPT where no promise is missed. R228: a parked waiter wakes at the read that satisfies its threshold; either way its core keeps no leased copy of the line. -/
def Claims.Departures : Prop :=
  ∀ (s : State) (u : Nat), s.Numbered → (∃ t ∈ s.threads, t.uid = u) → (s.thr u).stopped = none →
    let t0 := s.thr u
    let k := t0.team
    let tm := s.tm k
    (t0.phase = .exiting → t0.ld = 0 → t0.st = 0 → t0.tl = 0 → (∃ m ∈ s.teams, m.uid = k) →
      (∀ n < 8, (tm.conv n).isMember t0.tid = true → (tm.conv n).signed = [] ∨ ∃ g ∈ (tm.conv n).signed, g.1 = t0.tid) →
      let s' := (s.modThr u (fun t => { t with v := t.v.take (t.owned - 16 * t.blocks.length) })).modTeam k (fun tm => { tm with flagWord := tm.flagWord ||| t0.flags })
      let out (t : State) : Prop := (t.thr u).phase = .exited ∧ (t.thr u).blocks = [] ∧
        ((∀ v ∈ s.threads, v.phase ≠ .claimWait) → ∀ b, b ∈ nth [] (t.tm k).pool t0.lane ↔ b ∈ nth [] tm.pool t0.lane ∨ b ∈ t0.blocks)
      ((∃ v ∈ s.threads, v.team = k ∧ v.uid ≠ u ∧ v.phase ≠ .exited) → LeadsTo (.threadExited u) s s' out) ∧
      ((∀ v ∈ s.threads, v.team = k → v.uid ≠ u → v.phase = .exited) → (∀ v ∈ s.threads, v.team = k → v.lost = []) → s.dirtyOf k = [] →
        LeadsTo (.threadExited u) s s' (fun t => out t ∧ (t.tm k).exitPc = t0.pc ∧
          ∃ r, (t.tm k).exitRel = some r ∧ r.started = true ∧ (∀ v ∈ s.threads, v.team = k → v.maxTw ≤ r.target) ∧ (r.target = 0 ∨ ∃ v ∈ s.threads, v.team = k ∧ v.maxTw = r.target)))) ∧
    (∀ r, t0.rel = some r → t0.lost = [] → (4 ≤ r.scope → ackPending u s = false) → t0.phase = .stalled → t0.wait = {} → (∀ q ∈ s.reqs, q.id ≠ 0) →
      (r.started = true → r.target ≤ s.gtick → LeadsTo (.releaseComplete u) s s (fun t => (t.thr u).rel = none ∧ (t.thr u).relDone = true ∧ (t.thr u).phase = .ready ∧ (t.thr u).pc = t0.pc)) ∧
      (r.started = false → memPending u s = false → s.dirtyOf k = [] →
        let target := if 2 ≤ r.scope then t0.maxTw else 0
        (target ≤ s.gtick → LeadsTo (.releaseComplete u) s s (fun t => (t.thr u).rel = none ∧ (t.thr u).relDone = true ∧ (t.thr u).phase = .ready ∧ (t.thr u).pc = t0.pc)) ∧
        (s.gtick < target → LeadsTo (.releaseComplete u) s s (fun t => (t.thr u).rel = some { r with started := true, target := target } ∧ (t.thr u).phase = .stalled)))) ∧
    (t0.phase = .sleep → t0.wait.tick ≤ s.viewOf (s.gridOf u).fn → tm.saved = none →
      (∀ c ∈ s.copies, c.th = u → s.viewOf c.fn < c.promise) → LeadsTo (.sleepWake u) s s (fun t => (t.thr u).phase = .ready ∧ (t.thr u).pc = t0.npc ∧ (t.thr u).age = 0)) ∧
    (t0.phase = .parked .ctrWait → tm.saved = none → ∀ l pa mt, s.Places u .read false 8 [t0.wait.addr] [.glob t0.wait.addr pa mt] → (∃ m leaf, s.Maps u .read t0.wait.addr pa m leaf ∧ m < 2) →
      (regionOf pa).local = true → pa / 128 ∉ s.mem.poison → s.l2line? (pa / 128) = some l → l.last ≠ s.gtick →
      let bs := s.mem.bytes.readN pa 8
      let s' := (s.setL2 { l with last := s.gtick }).forget (s.teamOf u).core (s.ctxOf u).1 (s.ctxOf u).2 t0.wait.addr
      (t0.wait.thr ≤ leNat bs → LeadsTo (.ctrwaitReread u) s s' (fun t => (t.thr u).phase = .ready ∧ (t.thr u).pc = t0.npc)) ∧
      (leNat bs < t0.wait.thr → LeadsTo (.ctrwaitReread u) s s' (fun t => (t.thr u).phase = .parked .ctrWait)))

/-- R154: with every live thread of a team parked in REGROUP_WAIT and its LD and TL 0, the regroup unit returns the claimed blocks and places the threads by (key, TID): the j-th goes to lane j mod 32, slot j div 32 of that lane, keeps the registers below the largest count named and reads 0 above, and is READY after its REGROUP with age 0. -/
def Claims.Regroups : Prop :=
  ∀ (s : State) (k : Nat),
    let lives := s.threads.filter (fun t => t.team == k && t.phase != .exited)
    let b := (s.gr (s.tm k).grid).bregs
    s.Numbered → lives ≠ [] → (∀ t ∈ lives, t.phase = .regroupWait ∧ t.ld = 0 ∧ t.tl = 0 ∧ t.stopped = none ∧ t.tid < 1024 ∧ t.owned = b + 16 * t.blocks.length ∧ t.wait.num ≤ b) →
    (∀ t ∈ lives, ∀ t' ∈ lives, t.tid = t'.tid → t.uid = t'.uid) →
    ∃ t, exec (.regroupExecute k) s = .next t ∧ State.SameRest s t ∧ (∀ j, Team.SameBut [] (s.tm j) (t.tm j)) ∧
      (∀ u, (∀ v ∈ lives, v.uid ≠ u) → Thread.SameBut [] [] (s.thr u) (t.thr u)) ∧
      ∀ v ∈ lives,
        let a := t.thr v.uid
        let j := (lives.filter (fun q => decide (q.wait.key.toNat < v.wait.key.toNat) || (q.wait.key == v.wait.key && decide (q.tid < v.tid)))).length
        let kept (r : Nat) : Prop := ∃ q ∈ lives, r < q.wait.num
        a.phase = .ready ∧ a.pc = v.npc ∧ a.age = 0 ∧ a.lane = j % 32 ∧ a.blocks = [] ∧ a.owned = b ∧
        (∀ x, (s.slotsIn k (j % 32))[j / 32]? = some x → a.slot = x) ∧
        (∀ r, (kept r → a.rv r = v.rv r ∧ (r ∈ a.poison ↔ r ∈ v.poison)) ∧ (¬ kept r → a.rv r = 0 ∧ r ∉ a.poison)) ∧
        a.tid = v.tid ∧ a.role = v.role ∧ (∀ p, a.rp p = v.rp p) ∧ a.flags = v.flags ∧ a.ld = v.ld ∧ a.st = v.st ∧ a.cp = v.cp ∧ a.tl = v.tl ∧ a.editSeq = v.editSeq

/-- R3: GTICK moves on by one tick, and nothing else changes. R144, R146, R147: a free issue slot of an active core is granted to a wave of READY threads at one PC, one at most in each lane, and one in each lane that has one; an aged thread, if any, is the seed, and it is of the largest age; the wave's threads are ISSUING with age 0, and every other ready thread of the bank ages by one, up to 4,095. -/
def Claims.Grants : Prop :=
  ∀ s : State,
    Leads .gtickAdvance s { s with gtick := s.gtick + 1 } ∧
    ∀ core slot, core < 512 → slot < 2 → s.Numbered → (∀ w ∈ s.waves, w.core = core → w.slot ≠ slot) → (slot = 1 → ∃ w ∈ s.waves, w.core = core ∧ w.slot = 0) →
      (s.core core).switchUntil ≤ s.gtick → (∀ t ∈ s.threads, t.lane < 32) →
      let ready (u : Nat) : Prop := ∃ t ∈ s.threads, t.uid = u ∧ s.mayIssue t = true ∧ ∃ m ∈ s.teams, m.uid = t.team ∧ m.core = core ∧ m.saved = none ∧ m.bank = (s.core core).active
      ((∃ u, ready u ∧ 1024 ≤ (s.thr u).age) ∨ ∃ u, ready u ∧ ∀ t ∈ s.threads, t.team = (s.thr u).team → (t.phase = .ready ∨ t.phase = .issuing) → (s.thr u).pc.toNat ≤ t.pc.toNat) →
      ∃ us seed s1, seed ∈ us ∧ us.Nodup ∧ (∀ u ∈ us, ready u ∧ (s.thr u).pc = (s.thr seed).pc ∧ (s.gridOf u).entry = (s.gridOf seed).entry) ∧
        (∀ u ∈ us, ∀ v ∈ us, (s.thr u).lane = (s.thr v).lane → u = v) ∧
        (∀ v, ready v → (s.thr v).pc = (s.thr seed).pc → (s.gridOf v).entry = (s.gridOf seed).entry → ∃ u ∈ us, (s.thr u).lane = (s.thr v).lane) ∧
        ((∃ v, ready v ∧ 1024 ≤ (s.thr v).age) → ∀ v, ready v → (s.thr v).age ≤ (s.thr seed).age) ∧
        (s1 = s ∨ ∃ p, s1 = s.setCore { s.core core with pointer := p }) ∧
        LeadsTo (.issueGrant core slot) s s1 (fun t => t.waves = s.waves ++ [⟨core, slot, us, 0⟩] ∧
          (∀ u ∈ us, (t.thr u).phase = .issuing ∧ (t.thr u).age = 0) ∧ ∀ v, ready v → v ∉ us → (t.thr v).age = min 4095 ((s.thr v).age + 1))

/-- Gathered accesses depart, REGROUP matches, and the issue slot grants. Where the spec leaves a choice it follows the model's own, notes/assumptions 4, 24. -/
def Obligations.Regrouping : Prop := Claims.Departures ∧ Claims.Regroups ∧ Claims.Grants

/-! ### Steps of the memory system (spec/11_memory_instructions.md R231 to R239, R244; spec/03_memory_hierarchy.md R46 to R65; spec/02_address_spaces.md R23 to R26, R35, R41, R42; spec/06_memory_ordering.md R125, R132) -/

/-- R234, R236, R238, R244, R135: a load whose places give their bytes delivers them: each element's register takes them (a pair for 8 bytes; I8 and I16 sign-extended, narrower ones zero-extended), poisoned bytes are delivered marked, the registers are awaited no more, and the request leaves its class. LDU delivers to the team by the judgement of its issue, HBIND binds its record, which enters the core's layout cache, an atomic's reply delivers the old value and its flags. An access outside the device leaves for its target, and what comes from there is the data that the target returned. The arbiters of R348 do not hold the request back. -/
def Claims.Replies : Prop :=
  ∀ (s : State) (r : Req) (data : List Byte) (i : Instr),
    let tm := s.tm r.team
    let g := s.gr tm.grid
    let outside := r.work.places.any Source.outside
    s.Pending r → s.Numbered → r.ats = 0 → r.heldBack s = false → (∃ m ∈ s.teams, m.uid = r.team) →
    (i = .loadReply r.id ∧ outside = false ∧ r.yields s = false) ∨ (i = .hostAccessCompletion r.id data ∧ outside = true ∧ data ≠ []) →
    let gives (l : List Elem) (gs : List (List Byte × Bool)) : Prop :=
      (∀ e ∈ l, 1 ≤ e.size ∧ e.size ≤ 8) ∧
      List.Forall₂ (fun p b => match p.2 with | some bs => b = (bs, false) | none => s.Gives tm g.fn g.ctx (2 * l.length) p.1.size p.1.src b.1 b.2) (takeData l (if outside then data else [])) gs
    let apart (l : List Elem) : Prop := l.Pairwise (fun a b => ∀ x ∈ a.regs, x ∉ b.regs)
    (∀ u l gs, r.work = .load u l → (∃ t ∈ s.threads, t.uid = u) → gives l gs →
      Steps i s ((sendAccess r (s.drop r)).modThr u (fun t => (l.zip gs).foldl (fun t p => t.deliver p.1 p.2.1 p.2.2) t)) (fun t => apart l →
        ∀ p ∈ l.zip gs, (∀ x ∈ p.1.regs, x < (s.thr u).owned) →
          (p.1.size = 8 → (t.thr u).rpair p.1.reg = BitVec.ofNat 64 (leNat p.2.1)) ∧ (p.1.size ≠ 8 → (t.thr u).rv p.1.reg = p.1.word (leNat p.2.1)) ∧
          ∀ x ∈ p.1.regs, (x ∈ (t.thr u).poison ↔ p.2.2 = true) ∧ x ∉ (t.thr u).pendV)) ∧
    (∀ l full w gs, r.work = .loadTeam l full w → gives l gs →
      Steps i s ((sendAccess r (s.drop r)).modTeam r.team (fun tm => (l.zip gs).foldl (fun tm p => tm.deliver full w p.1 p.2.1 p.2.2) tm)) (fun t => apart l →
        ∀ p ∈ l.zip gs,
          (p.1.size = 8 → (t.tm r.team).rspair p.1.reg = BitVec.ofNat 64 (leNat p.2.1)) ∧ (p.1.size ≠ 8 → (t.tm r.team).rs p.1.reg = p.1.word (leNat p.2.1)) ∧
          ∀ x ∈ p.1.regs, (x ∈ (t.tm r.team).sPoison ↔ p.2.2 = true) ∧ x ∉ (t.tm r.team).pendS ∧ (t.tm r.team).lastWriters (.s x) = w)) ∧
    (∀ h va pa mt full w b, r.work = .hbind h va pa mt full w → layMalformed b = false →
      (outside = true → b = data.take 64) →
      (outside = false → va % 64 = 0 ∧ lockedGlobal tm.core g.fn g.ctx false va 64 s = false ∧ (∃ m leaf, s.Hits tm.core g.fn g.ctx .read va pa m leaf ∧ placeOf va pa m leaf = .glob va pa mt) ∧
        s.Gives tm g.fn g.ctx 2 64 (.glob va pa mt) b false) →
      Steps i s ((sendAccess r (s.drop r)).modTeam r.team (fun tm => { tm with pendH := tm.pendH.filter (· ≠ h), h := setNth none tm.h h (some va), hLast := setNth [] tm.hLast h w, teamstat := if full = false ∧ tm.lastWriters (.h h) ≠ w ∧ nth none tm.h h ≠ some va then tm.teamstat ||| 1 else tm.teamstat }))
        (fun t => t.layout? tm.core g.fn g.ctx va = some b)) ∧
    (∀ u dst pair v bad fl, r.work = .reply u dst pair v bad fl → (∃ t ∈ s.threads, t.uid = u) →
      let ds := match dst with | some d => regs d pair | none => []
      Steps i s ((s.drop r).modThr u (fun t =>
          let t := match dst with | some d => if pair then t.wpair d (BitVec.ofNat 64 v) else t.wv d (BitVec.ofNat 32 v) | none => t
          { t with pendV := t.pendV.filter (fun x => !ds.contains x), poison := if bad then t.poison ++ ds else t.poison, flags := t.flags ||| fl }))
        (fun t => ∀ d, dst = some d → (∀ x ∈ ds, x < (s.thr u).owned) → (if pair then (t.thr u).rpair d = BitVec.ofNat 64 v else (t.thr u).rv d = BitVec.ofNat 32 v) ∧
          ∀ x ∈ ds, (x ∈ (t.thr u).poison ↔ bad = true) ∧ x ∉ (t.thr u).pendV)) ∧
    (∀ u va pa mt o dst, r.work = .atomic u va pa mt o dst → outside = true →
      let old := leNat (data.take (elemBytes o.ty))
      Steps i s (if o.form ≤ 2 then (sendAccess r s).modReq r.id (fun q => { q with work := .reply u dst o.ty.wide old false (o.apply old).2 })
        else (sendAccess r (s.drop r)).modThr u (fun t => { t with flags := t.flags ||| (o.apply old).2 })))

/-- R48, R52, R46, R242: a prefetch or a load's fill gives the core a leased copy of the line as it stands in L2, for the team's LEASE, where the core's L1 has a place for it; a clean line that is evicted is gone, a dirty one is written back under its translation, its bytes becoming memory's. R35: an evicted translation is gone. R62: a refetched record is read again from the handle's address into the core's layout cache. R65: at the end of its window a gather entry's requests go to the caches, a scatter entry's bytes are written. -/
def Claims.Lines : Prop :=
  ∀ (s : State),
    (∀ (r : Req) (va pa mt : Nat), s.req? r.id = some r → (∃ m ∈ s.teams, m.uid = r.team) →
      let tm := s.tm r.team
      let g := s.gr tm.grid
      let filled (t : State) : Prop := mt = 0 → s.Room tm.core 1 → ∃ x e gt, t.l1? tm.core g.fn g.ctx (va / 128) = some x ∧ s.gtick ≤ gt ∧ e = gt + tm.lease ∧
        x.dirty = [] ∧ x.copy = some (s.mem.bytes.readN (pa / 128 * 128) 128, e, gt, s.mem.poison.contains (pa / 128))
      mt < 2 → (mt = 0 → s.l1? tm.core g.fn g.ctx (va / 128) = none) →
      (s.Pending r → r.work = .prefetch va pa mt → Steps (.l2ServeFill r.id) s (s.drop r) filled) ∧
      ((∃ u e, r.work = .load u [e] ∧ e.src = .glob va pa mt) → r.ats = 0 → r.outranked s = false → Steps (.l2ServeFill r.id) s s filled)) ∧
    (∀ (core fn ctx va : Nat) (x : L1Line), s.l1? core fn ctx (va / 128) = some x →
      (x.dirty = [] → Leads (.l1Eviction core fn ctx va) s { s with mem := { s.mem with l1 := s.mem.l1.filter (fun y => !x.same y) } }) ∧
      (∀ pa mt leaf, x.dirty ≠ [] → x.dirtyPoison = false → s.isMigrating fn ctx (x.line * 128) = false → s.Hits core fn ctx .write (x.line * 128) pa mt leaf → leaf.testBit 8 = true →
        (regionOf pa).local = true → s.Takes pa 128 → ∃ tw, s.gtick ≤ tw ∧
        Steps (.l1Eviction core fn ctx va) s ({ s with mem := { s.mem with bytes := x.dirty.foldl (fun (m : Memory) (c : Host.Cell) => m.write (pa + c.1) c.2) s.mem.bytes } }.noted (fun t => t.team == x.team) tw)
          (fun t => t.l1? core fn ctx (va / 128) = none))) ∧
    (∀ n,
      let a := s.mem.tlb.length
      let b := a + s.mem.walk.length
      (n < a → Leads (.translationEvict n) s { s with mem := { s.mem with tlb := s.mem.tlb.eraseIdx n } }) ∧
      (a ≤ n → n < b → Leads (.translationEvict n) s { s with mem := { s.mem with walk := s.mem.walk.eraseIdx (n - a) } }) ∧
      (b ≤ n → n < b + s.mem.atc.length → Leads (.translationEvict n) s { s with mem := { s.mem with atc := s.mem.atc.eraseIdx (n - b) } })) ∧
    (∀ (k h va pa mt leaf : Nat) (b : List Byte),
      let tm := s.tm k
      let g := s.gr tm.grid
      (∃ m ∈ s.teams, m.uid = k) → nth none tm.h h = some va → va % 64 = 0 → lockedGlobal tm.core g.fn g.ctx false va 64 s = false →
      s.Hits tm.core g.fn g.ctx .read va pa mt leaf → (regionOf pa).local = true → s.Gives tm g.fn g.ctx 2 64 (.glob va pa (min mt 1)) b false →
      Steps (.layoutCacheRefetch k h) s s (fun t => t.layout? tm.core g.fn g.ctx va = if layMalformed b then none else some b)) ∧
    (∀ (core n : Nat) (e : CollEntry), (s.collOf core)[n]? = some e →
      let gone := { s with coll := s.coll.filter (fun x => x != e) }
      (e.store = false → Leads (.collectorWindowExpiry core n) s { gone with reqs := s.reqs ++ e.reqs }) ∧
      (∀ r u parts, e.store = true → e.waits s = false → e.reqs = [r] → r.team = e.team → r.work = .store u parts → r.threads = [u] →
        (∀ q ∈ s.reqs ++ gone.coll.flatMap (·.reqs), q.id ≠ r.id ∧ (q.group = r.group → q.cls = r.cls → u ∉ q.threads)) →
        Lands (.collectorWindowExpiry core n) s (gone.modThr u (fun t => t.countDown r.cls)) e.team [u] parts))

/-- R23 to R26, R28, R35: a walk from the context's root down its tables, each in backed local memory, each non-leaf entry valid, not malformed and as the walk cache holds it: the leaf at level L (1: 4 KiB, or 64 KiB with C64 in an entry whose index is a multiple of 16; 2: 2 MiB; 3: 1 GiB) takes A; where it is well formed, and for a function other than 0 names no register window and only granules the function owns, the core caches it. -/
def Claims.Walks : Prop :=
  ∀ (s : State) (core fn ctx level : Nat) (va : Dword) (ts : List Nat),
    let v := va.toNat
    let idx (j : Nat) : Nat := v / 2 ^ (12 + 9 * (4 - j)) % 512
    let last := 5 - level
    let group : Bool := level == 1 && (s.entry (nth 0 ts last + 8 * (idx last - idx last % 16))) % 4 == 3 && (s.entry (nth 0 ts last + 8 * (idx last - idx last % 16))).testBit 9
    let leafIdx := if group then idx last - idx last % 16 else idx last
    let pos (j : Nat) : Nat := nth 0 ts j + 8 * (if j = last then leafIdx else idx j)
    let pa := pos last
    let s1 := s.put pa (leBytes (s.entry pa ||| 0x80) 8)
    let e := s1.entry pa
    let size := match level with | 1 => if e.testBit 9 then 0x10000 else 0x1000 | 2 => 0x200000 | _ => 0x40000000
    s.Canonical → (s.context? fn ctx).isSome = true → canonical v = true → (level = 1 ∨ level = 2 ∨ level = 3) → ts.length = 6 - level → nth 0 ts 0 = s.rootOf fn ctx →
    (∀ j < ts.length, s.backedLocal (nth 0 ts j) = true ∧ ∀ c ∈ s.mem.walk, c.fn = fn → c.pa = nth 0 ts j + 8 * idx j → c.value.toNat = s.entry (pos j)) →
    (∀ j < last, (s.entry (pos j)).testBit 0 = true ∧ (s.entry (pos j)).testBit 1 = false ∧ entryReserved (s.entry (pos j)) = false ∧ bitsOf (s.entry (pos j)) 51 12 * 4096 = nth 0 ts (j + 1)) →
    (s.entry pa).testBit 0 = true → (s.entry pa).testBit 1 = true →
    let good := !leafMalformed e level leafIdx size &&
      (fn == 0 || (regionOf (bitsOf e 51 12 * 4096) != .registers && (!(regionOf (bitsOf e 51 12 * 4096)).local || s1.ownsRange fn (bitsOf e 51 12 * 4096) size)))
    e = s.entry pa ||| 0x80 ∧
    (good = true → Steps (.pageWalk core fn ctx va) s s1 (fun t => ∃ c, tlbHit core fn ctx v t = some c ∧ c.leaf.toNat = e ∧ c.leafPa = pa ∧ c.size = size ∧ c.va = v - v % size)) ∧
    (good = false → Steps (.pageWalk core fn ctx va) s s1 (fun t => t.mem.tlb = s.mem.tlb))

/-- R53, R120, R235: an outstanding store lands where its parts go, and ST falls. R125, R244, R117: an atomic of local memory reads the old value and writes the new one in one step at L2: the sum, the smaller or larger value under the type, AND, OR, XOR, the operand, or for a compare the operand where the old value equals it; the core's clean copy of the line goes, a returning form's reply carries the old value, another form is done with its flags, and the function's turn at the slice is taken (R348). -/
def Claims.Performs : Prop :=
  ∀ (s : State) (r : Req),
    let tm := s.tm r.team
    let g := s.gr tm.grid
    s.Pending r → r.ats = 0 → r.heldBack s = false → r.work.waitsPage g.fn g.ctx s = false →
    (∀ u parts i, r.work = .store u parts → (r.waitsRelease = true → ∀ u ∈ r.threads, (s.thr u).rel = none) →
      ((i = .l2AcceptWrite r.id ∧ r.work.places.any Source.outside = false ∧ r.yields s = false) ∨
        (∃ d, i = .hostAccessCompletion r.id d ∧ r.work.places.any Source.outside = true ∧ r.work.places.any Source.onPeer = false) ∨
        (i = .peerWriteAcknowledgement r.id ∧ r.work.places.any Source.onPeer = true)) →
      Lands i s (s.drop r) r.team r.threads parts) ∧
    (∀ u va pa mt o dst, r.work = .atomic u va pa mt o dst → mt < 2 → r.yields s = false → s.Takes pa (elemBytes o.ty) → (∀ x, s.l1? tm.core g.fn g.ctx (va / 128) = some x → x.dirty = [] ∨ x.team ≠ tm.uid) →
      let n := elemBytes o.ty
      let old := leNat (s.mem.bytes.readN pa n)
      let less (a b : Nat) : Prop := if o.ty = .n32 then a % 2 ^ 32 < b % 2 ^ 32 else (BitVec.ofNat o.ty.width a).toInt < (BitVec.ofNat o.ty.width b).toInt
      ∃ new fl tw, s.gtick ≤ tw ∧
        (o.form = 1 → fl = 0 ∧ new = if old = o.c then o.b else old) ∧
        (o.form ≠ 1 → o.ty = .i32 ∨ o.ty = .n32 ∨ o.ty = .i64 → fl = 0 ∧ (o.op = 0 → new = (old + o.b) % 2 ^ o.ty.width) ∧ (o.op = 1 → (less o.b old → new = o.b) ∧ (¬ less o.b old → new = old)) ∧
          (o.op = 2 → (less old o.b → new = o.b) ∧ (¬ less old o.b → new = old)) ∧ (o.op = 3 → new = Nat.land old o.b) ∧ (o.op = 4 → new = Nat.lor old o.b) ∧ (o.op = 5 → new = Nat.xor old o.b) ∧
          (6 ≤ o.op → new = o.b)) ∧
        (o.form ≠ 1 → o.ty.isFloat = true → (new, fl) = match o.op with | 0 => addBits o.ty o.rnd false old o.b | 1 => fMinMax o.ty false false old o.b | _ => fMinMax o.ty true false old o.b) ∧
        Steps (.atomicPerform r.id) s (takeTurn (sliceOf (pa / 128)) g.fn
          (if o.form ≤ 2 then ((s.put pa (leBytes new n)).noted (fun t => t.uid == u) tw).modReq r.id (fun q => { q with work := .reply u dst o.ty.wide old false fl })
            else (((s.drop r).put pa (leBytes new n)).noted (fun t => t.uid == u) tw).modThr u (fun t => { t with flags := t.flags ||| fl })))
          (fun t => ∀ x, t.l1? tm.core g.fn g.ctx (va / 128) = some x → x.copy = none))

/-- R41: a host translation that is present enters the ATC and the access goes on; absent, a page request is sent where PRI allows, at most 1,024 for a function at a time, under the context's PASID, and the threads that waited park with PAGE_REQUEST; its success asks again; where it ends the oldest request that waits goes out; without PRI, on failure and 10,000,000 ticks after the question the access raises PAGE_NOT_PRESENT in its threads, which are counted no longer. R359: an access that a peer refuses raises PAGE_PROTECTION. -/
def Claims.HostTranslation : Prop :=
  ∀ (s : State) (r : Req) (pc : Dword),
    s.Pending r → r.threads ≠ [] → (∀ u ∈ r.threads, (∃ t ∈ s.threads, t.uid = u) ∧ (s.thr u).team = r.team ∧ (s.thr u).pc = pc) →
    let ds := match r.work with | .load _ l => l.flatMap Elem.regs | .atomic _ _ _ _ o (some d) => regs d o.ty.wide | _ => []
    let free (s : State) : State := r.threads.foldl (fun s u => s.modThr u (fun t => { t with pendV := t.pendV.filter (fun x => !ds.contains x) })) s
    let undone : State := (free (s.drop r)).modTeam r.team (fun tm =>
      { tm with pendS := (match r.work with | .loadTeam l _ _ => tm.pendS.filter (fun x => !(l.flatMap Elem.regs).contains x) | _ => tm.pendS)
                pendH := (match r.work with | .hbind h _ _ _ _ _ => tm.pendH.filter (· ≠ h) | _ => tm.pendH) })
    let g := s.gr (s.tm r.team).grid
    let fails (i : Instr) (s' : State) : Prop := (∀ q ∈ s.faults, q.issue ≠ r.group) → LeadsTo i s s' (fun t => s.Faulted t .pageNotPresent r.threads pc)
    (r.ats = 1 →
      Leads (.hostTranslationResponse r.id true) s ((r.hostPages.reverse.foldl (fun s p => s.fillAtc g.fn g.ctx p) s).modReq r.id (fun q => { q with ats := 0 })) ∧
      (r.pri = true → LeadsTo (.hostTranslationResponse r.id false) s
        (if s.pageRequests g.fn < 1024 then (s.modReq r.id (fun q => { q with ats := 2, asked := s.gtick })).send (.hostRequest r.id (s.linkOf g.fn) (s.pasidOf g.fn g.ctx) true)
         else s.modReq r.id (fun q => { q with ats := 3 }))
        (fun t => ∀ u ∈ r.threads, (s.thr u).phase = .stalled → (t.thr u).phase = .parked .pageRequest)) ∧
      (r.pri = false → fails (.hostTranslationResponse r.id false) undone)) ∧
    (r.ats = 2 →
      LeadsTo (.pageRequestResponse r.id true) s
        (nextPageRequest g.fn ((s.modReq r.id (fun q => { q with ats := 1, asked := s.gtick })).send (.hostRequest r.id (s.linkOf g.fn) (s.pasidOf g.fn g.ctx) false)))
        (fun t => ∀ u ∈ r.threads, (s.thr u).phase = .parked .pageRequest → (s.thr u).wait.req = r.id → (t.thr u).phase = .stalled) ∧
      fails (.pageRequestResponse r.id false) (nextPageRequest g.fn undone)) ∧
    (r.ats = 1 ∨ r.ats = 2 → r.asked + 10000000 ≤ s.gtick → fails (.hostTranslationTimeout r.id) (nextPageRequest g.fn undone)) ∧
    (r.ats = 0 → r.work.places.any Source.onPeer = true → r.heldBack s = false → r.threads.Nodup → (∀ u ∈ r.threads, (s.thr u).phase ≠ .exited) →
      LeadsTo (.hostAccessCompletion r.id []) s undone (fun t => ∀ u ∈ r.threads, (t.thr u).phase = .faulted ∧ ∃ q ∈ t.faults.drop s.faults.length, q.cause = .pageProtection ∧ q.fpc = r.pc ∧ q.threads = [u]))

/-- R132: a write from outside to backed local memory that no migration moves takes effect at L2, and without Relaxed Ordering its completion tick is not below its stream's last; a read from outside is served at L2, with the poison of its lines; neither reaches anything else: it is rejected. -/
def Claims.Inbound : Prop :=
  ∀ (s : State) (stream pa len : Nat) (data : List Byte),
    let served (n : Nat) : Bool := (regionOf pa).local && s.backed pa && s.backed (pa + n - 1) && regionOf (pa + n - 1) == regionOf pa
    let prev := lookupD 0 s.mem.streams (2 * stream)
    (∀ relaxed : Bool, served data.length = true → data ≠ [] → s.migratesFrom pa data.length = false → (∀ l, pa / 128 ≤ l → l * 128 < pa + data.length → l ∉ s.mem.poison ∧ s.isCow (l / 32) = false) →
      ∃ tw, s.gtick ≤ tw ∧
        Steps (.inboundWrite stream pa data relaxed) s { (s.put pa data) with mem := { (s.put pa data).mem with streams := insertKey s.mem.streams (2 * stream) (max tw prev) } }
          (fun t => relaxed = false → ∀ l y, pa / 128 ≤ l → l * 128 < pa + data.length → t.l2line? l = some y → prev ≤ y.tw)) ∧
    (served data.length = false → s.migratesFrom pa data.length = false → ∀ relaxed, Leads (.inboundWrite stream pa data relaxed) s (s.send (.reject pa))) ∧
    (served len = true → Steps (.inboundRead pa len) s (s.send (.readReply pa (s.mem.bytes.readN pa len) ((List.range ((pa % 128 + len + 127) / 128)).any (fun j => s.mem.poison.contains (pa / 128 + j)))))) ∧
    (served len = false → Leads (.inboundRead pa len) s (s.send (.reject pa)))

/-- Replies deliver to registers and lower the counters. Where the spec leaves a choice it follows the model's own, notes/assumptions 23, 25. -/
def Obligations.ReplySteps : Prop := Claims.Replies

/-- Lines are filled, written back, evicted and revoked. Where the spec leaves a choice it follows the model's own, notes/assumptions 11, 23, 24. -/
def Obligations.LineSteps : Prop := Claims.Lines

/-- Accepted atomics and copied words perform in memory. Where the spec leaves a choice it follows the model's own, notes/assumptions 11, 23, 30. -/
def Obligations.PerformSteps : Prop := Claims.Performs

/-- Page walks, host translations and inbound writes. Where the spec leaves a choice it follows the model's own, notes/assumptions 9, 30, 47. -/
def Obligations.TranslationSteps : Prop := Claims.Walks ∧ Claims.HostTranslation ∧ Claims.Inbound

/-! ### Steps of the copy engine, the tile directory and the matrix engine (spec/03_memory_hierarchy.md R67 to R71, spec/04_shared_tile_file.md R76 to R83, spec/13_matrix_tile_world_splat_instructions.md R281 to R287, spec/14_scheduling.md R320) -/

/-- R67, R70, R253: a copy that may start (two lock entries, fewer than four that move, no earlier conflicting request), whose source waits for no earlier store of its thread and for no dirty line of its team, moves n bytes that lie within one line of either range: the destination takes the source's bytes, its progress and largest Tw rise. R67: when every byte is performed and GTICK is at its largest Tw, the copy leaves, CP falls, and threads of the core that found the queue full go on. R69, R324: a copy that met a fault stops, and its thread is FAULTED with a record whose faulting PC is the CPY. -/
def Claims.CopySteps : Prop :=
  ∀ (s : State) (c : Copy),
    s.copies.find? (fun d => d.id == c.id) = some c → c.stopped = false →
    let put (c' : Copy) (s : State) : State := { s with copies := s.copies.map (fun d => if d.id == c.id then c' else d) }
    let on := s.copies.filter (fun d => d.core == c.core && !d.stopped)
    (∀ n bs pa pb, c.fault = none → 1 ≤ n → c.prog + n ≤ c.len →
      c.started = true ∨ ((on.filter (·.locked)).length < 32 ∧ (on.filter (·.started)).length < 4 ∧ ∀ d ∈ on, d.id < c.id → copiesConflict c d = false) →
      let dst := c.dst + c.prog
      let src := c.src + c.prog
      dst % 128 + n ≤ 128 → n ≤ 128 → (c.srcGlobal = true → src % 128 + n ≤ 128) →
      (c.srcGlobal = true → sourceLate c.id c.th c.team src n s = false ∧ s.Settled c.team src n ∧ (∃ mt leaf, s.Hits c.core c.fn c.ctx .read src pa mt leaf) ∧ (regionOf pa).local = true ∧ pa % 128 + n ≤ 128 ∧ pa / 128 ∉ s.mem.poison ∧ s.isMigrating c.fn c.ctx src = false ∧ bs = s.mem.bytes.readN pa n) →
      (c.srcGlobal = false → bs = (s.tm c.team).scratch.readN src n ∧ ∀ o, src ≤ o → o < src + n → o ∉ (s.tm c.team).scratchPoison) →
      (c.dstGlobal = true → (∃ mt leaf, s.Hits c.core c.fn c.ctx .write dst pb mt leaf ∧ leaf.testBit 8 = true) ∧ (regionOf pb).local = true ∧ s.Takes pb n ∧ s.isMigrating c.fn c.ctx dst = false →
        ∃ tw, s.gtick ≤ tw ∧ Steps (.copyStart c.id n) s ((put { c with started := true, locked := true, prog := c.prog + n, maxTw := max c.maxTw tw } s).put pb bs)) ∧
      (c.dstGlobal = false → Steps (.copyStart c.id n) s ((put { c with started := true, locked := true, prog := c.prog + n } s).modTeam c.team (fun tm =>
        { tm with scratch := tm.scratch.writeN dst bs, scratchPoison := tm.scratchPoison.filter (fun o => !(decide (dst ≤ o) && decide (o < dst + n))) })))) ∧
    (c.prog = c.len → c.maxTw ≤ s.gtick →
      LeadsTo (.copyComplete c.id) s ({ s with copies := s.copies.filter (fun d => d.id != c.id) }.modThr c.th (fun t => t.countDown .cp))
        (fun t => ∀ u, (∃ v ∈ s.threads, v.uid = u) → (s.thr u).phase = .parked .copyWait → (s.teamOf u).core = c.core → (t.thr u).phase = .ready)) ∧
    (∀ cause d, c.fault = some (cause, d) → (∃ v ∈ s.threads, v.uid = c.th) → (s.thr c.th).phase ≠ .faulted → (s.thr c.th).phase ≠ .exited → (s.thr c.th).stopped = none →
      LeadsTo (.copyFaultStop c.id) s { s with copies := s.copies.map (fun (e : Copy) => if e.id == c.id then { e with stopped := true, started := false, locked := false } else e) }
        (fun t => (t.thr c.th).phase = .faulted ∧ ∃ q ∈ t.faults.drop s.faults.length, q.cause = cause ∧ q.detail = d ∧ q.fpc = c.pc ∧ q.spc = (s.thr c.th).pc ∧ q.deferred = true ∧ q.threads = [c.th]))

/-- R77 to R82 (Table 4.3): the directory accepts a tile instruction of a live space by the state of its name. TDEF of a fresh part of an undefined or matching partial name stores it, the 32nd makes the name defined; TLD of a defined name of its shape asks for the part, and TL rises; TKILL lowers the kills that remain, and the last drains the name; a drained name with no delivery out is undefined in the next epoch. TDEF parks on a defined or draining name, TLD on any but a defined one. The faults are TILE_NAME 3 (a part defined twice), 4 (another shape), 5 (TKILL of a name that is not defined). A delivery writes the part's words. R83: a moved part keeps its bytes, in the payload slot of the backing area or in a store of a core of the cluster; R84: a struck part stays struck. R85: the tick ends with the last part and with a delivery. -/
def Claims.TileSteps : Prop :=
  ∀ (s : State),
    (∀ (r : Req) (u kind name sh part reg : Nat) (data : List Word) (x : Space),
      s.Pending r → r.work = .tile u false kind name sh part reg data → tileBefore r s = false → (s.tm r.team).saved = none → kind ≤ 2 → (∃ t ∈ s.threads, t.uid = u) → (∀ q ∈ s.faults, q.issue ≠ r.group) →
      liveSpace (s.gridOf u).fn (s.gridOf u).ctx (clusterOf (s.teamOf u).core) s = some x → s.space? x.id = some x →
      let i : Instr := .tileDirectoryAccept r.id
      let e := x.entry name
      let fresh := (e.state = 0 ∨ (e.state = 1 ∧ e.shape = tileShape sh ∧ e.kills = bitsOf sh 15 12))
      let set (e : TileName) (s : State) : State := s.modSpace x.id (fun x => x.setEntry e)
      let p := e.payload / 32
      let pa := x.base s + 0x2000 + name * 0x1000 + part * p
      let parks : Prop := LeadsTo i s (s.drop r) (fun t => (t.thr u).phase = .parked .tileWait)
      let fails (sub : Nat) : Prop := LeadsTo i s (s.drop r) (fun t => s.Faulted t .tileName [u] (s.thr u).pc ∧ ∃ q ∈ t.faults.drop s.faults.length, q.detail = { kind := sub, addr := name % 1024 })
      (kind = 0 → (e.state = 2 ∨ e.state = 3 → parks) ∧ (e.state = 1 → ¬ fresh → fails 4) ∧ (fresh → part ∈ e.parts → fails 3) ∧
        (fresh → part ∉ e.parts →
          let n := e.parts.length + 1
          let defined : State := set { e with
              state := if n = 32 then 2 else 1, parts := part :: e.parts, ty := bitsOf sh 3 0, rows := bitsOf sh 9 8, cols := bitsOf sh 7 6, kills := bitsOf sh 15 12
              krem := if n = 32 then bitsOf sh 15 12 + 1 else 0
              data := e.data.writeN (part * (tilePayload sh / 32)) (data.flatMap (fun w => leBytes w.toNat 4)), poison := e.poison.filter (· ≠ part), places := setNth 0 e.places part (4 * ((s.teamOf u).core % 4)) } (s.drop r)
          LeadsTo i s (if n = 32 then defined.bump else defined)
            (fun t => n = 32 → ∀ v, (∃ a ∈ s.threads, a.uid = v) → v ≠ u → (s.thr v).phase = .parked .tileWait → (s.thr v).wait.thr = x.id → (s.thr v).wait.addr = name → (s.thr v).wait.mode = 1 → (t.thr v).phase = .ready))) ∧
      (kind = 1 → (e.state ≠ 2 → parks) ∧ (e.state = 2 → e.shape ≠ tileShape sh → fails 4) ∧
        (e.state = 2 → e.shape = tileShape sh → part ∉ e.poison →
          let asked (bs : List Byte) (tick : Nat) : State := ({ (s.drop r) with reqs := (s.drop r).reqs ++ [(⟨s.nextId, r.group, .tl, [u], (s.tm r.team).core, r.team, .tile u true x.id name sh part reg (wordsOfBytes (tileWords sh) bs), r.pc, tick, false, none, 0, tick⟩ : Req)] }).modThr u
            (fun t => { t with tl := t.tl + 1, pendV := t.pendV ++ span reg (tileWords sh) })
          (nth 0 e.places part ≠ 2 → Leads i s (asked (e.data.readN (part * p) p) s.gtick)) ∧
          (nth 0 e.places part = 2 → 1 ≤ p → pa % 128 + p ≤ 128 → pa / 128 ∉ s.mem.poison → ∃ tick, s.gtick ≤ tick ∧ Steps i s (asked (s.mem.bytes.readN pa p) tick))) ∧
        (e.state = 2 → e.shape = tileShape sh → part ∈ e.poison → nth 0 e.places part ≠ 2 → LeadsTo i s (s.drop r) (fun t => s.Faulted t .poison [u] (s.thr u).pc))) ∧
      (kind = 2 → (e.state ≠ 2 → fails 5) ∧
        (e.state = 2 → 2 ≤ e.krem → Leads i s (set { e with krem := e.krem - 1 } (s.drop r))) ∧
        (e.state = 2 → e.krem = 1 → Leads i s (set (if tldOut x.id name (s.drop r) then { e with krem := 0, state := 3 } else TileName.undefined name ((e.epoch + 1) % 256)) (s.drop r))))) ∧
    (∀ (r : Req) (u sp name sh part reg : Nat) (data : List Word) (x : Space),
      s.Pending r → r.work = .tile u true sp name sh part reg data → (∃ t ∈ s.threads, t.uid = u) → s.space? sp = some x → x.id = sp → data.length = tileWords sh →
      let regs := span reg (tileWords sh)
      let got := (s.drop r).modThr u (fun t => { (data.zip regs).foldl (fun (t : Thread) p => t.wv p.2 p.1) t with pendV := t.pendV.filter (fun n => !regs.contains n) })
      LeadsTo (.tileDelivery r.id) s
        (if (x.entry name).state = 3 ∧ tldOut sp name (s.drop r) = false then got.modSpace sp (fun y => y.setEntry (TileName.undefined name (((x.entry name).epoch + 1) % 256))) else got).bump
        (fun t => ∀ j < tileWords sh, reg + j < (s.thr u).owned → (t.thr u).rv (reg + j) = nth 0 data j ∧ reg + j ∉ (t.thr u).poison ∧ reg + j ∉ (t.thr u).pendV)) ∧
    (∀ (sp name part place : Nat) (x : Space) (bs : List Byte),
      let e := x.entry name
      let p := e.payload / 32
      let pa := x.base s + 0x2000 + name * 0x1000 + part * p
      let from_ := nth 0 e.places part
      s.space? sp = some x → x.cluster ≠ none → part ∈ e.parts → place = 2 ∨ (place % 4 < 2 ∧ place < 16) → from_ ≠ place → (from_ = 2 ∨ place = 2 → 1 ≤ p ∧ pa % 128 + p ≤ 128) →
      bs = (if from_ = 2 then s.mem.bytes.readN pa p else e.data.readN (part * p) p) →
      let bad : Prop := part ∈ e.poison ∨ (from_ = 2 ∧ pa / 128 ∈ s.mem.poison)
      ∃ poison : List Nat, (∀ q, q ∈ poison ↔ (q = part ∧ bad) ∨ (q ∈ e.poison ∧ q ≠ part)) ∧
        let moved : TileName := { e with places := setNth 0 e.places part place, poison := poison }
        let here : State := s.modSpace sp (fun x => x.setEntry { moved with data := e.data.writeN (part * p) bs })
        (place = 2 → s.Takes pa p → Steps (.tilePartMove sp name part place) s ((s.modSpace sp (fun x => x.setEntry moved)).put pa bs)) ∧
        (place ≠ 2 → from_ ≠ 2 → Leads (.tilePartMove sp name part place) s here) ∧
        (place ≠ 2 → from_ = 2 → Steps (.tilePartMove sp name part place) s here))

/-- R285: the oldest held request of a cluster enters its table while it has room; TL rises in the active members, and every member goes on. R64: a side-array line arrives from the cluster's cache or from L2 under a lease; a poisoned one is METADATA. R324: an engine fault is raised in the issuing threads that no record of the work names yet and that are neither FAULTED nor stopped: each is FAULTED over what it did, and a new record, one for each PC at which they stand, names it, its faulting PC the instruction and its stop PC the thread's own. -/
def Claims.MatrixSteps : Prop :=
  ∀ (s : State) (r : Req),
    s.req? r.id = some r →
    (∀ m, r.work = .matrix m → r.fault = none → m.left = none → (s.tm r.team).saved = none →
      let ready (m : Matrix) : Matrix := if m.lacks = [] then { m with left := some m.passes } else m
      let fetches (m : Matrix) : Prop := m.lacks = [] ∧ ∃ x, m.instr = .mmas x
      (m.accepted = false → (tableOf (clusterOf r.core) s).length < 16 → (∀ q ∈ s.reqs, q.id < r.id → clusterOf q.core = clusterOf r.core → (s.tm q.team).saved = none → ∀ n, q.work = .matrix n → n.accepted = true) → ¬ fetches m →
        LeadsTo (.reservationAccept r.id) s ((m.members.map (·.1)).foldl (fun s u => s.modThr u (fun t => { t with tl := t.tl + 1 }))
            (s.modReq r.id (fun q => { q with cls := .tl, threads := m.members.map (·.1), work := .matrix (ready { m with accepted := true, waiting := [] }) })))
          (fun t => ∀ u ∈ m.waiting, (∃ v ∈ s.threads, v.uid = u) → (s.thr u).phase = .convWait → (t.thr u).phase = .ready ∧ (t.thr u).pc = (s.thr u).npc)) ∧
      (∀ line rest, m.accepted = true → m.lacks = line :: rest →
        let tm := s.tm r.team
        let g := s.gr tm.grid
        let cl := clusterOf r.core
        let got (b : List Byte) (s : State) : State := s.modReq r.id (fun q => { q with work := .matrix (ready { m with side := (line, b) :: m.side }) })
        let held := s.mem.metaLines.find? (fun l => l.cluster == cl && l.fn == g.fn && l.ctx == g.ctx && l.line == line && decide (s.gtick < l.expiry))
        (∀ l, held = some l → ¬ fetches { m with side := (line, l.bytes) :: m.side } → Leads (.metadataLineArrive cl r.id) s (got l.bytes s)) ∧
        (∀ pa mt leaf, held = none → s.Hits r.core g.fn g.ctx .read (line * 128) pa mt leaf → (regionOf pa).local = true →
          let b := s.mem.bytes.readN pa 128
          let cached (e : Nat) : List MetaLine := (⟨cl, g.fn, g.ctx, line, e, b⟩ : MetaLine) ::
            (s.mem.metaLines.filter (fun l => l.cluster == cl && !(l.fn == g.fn && l.ctx == g.ctx && l.line == line))).take 127 ++ s.mem.metaLines.filter (fun l => l.cluster != cl)
          (pa % 128 = 0 → pa / 128 ∉ s.mem.poison → ¬ fetches { m with side := (line, b) :: m.side } →
            ∃ e, s.gtick + tm.lease ≤ e ∧ Steps (.metadataLineArrive cl r.id) s (got b { s with mem := { s.mem with metaLines := cached e } })) ∧
          (pa / 128 ∈ s.mem.poison →
            Steps (.metadataLineArrive cl r.id) s (s.modReq r.id (fun q => { q with fault := some (.metadata, { kind := accEngineRead, addr := line * 128 }) })))))) ∧
    (∀ c d, r.fault = some (c, d) → r.issuers.Nodup →
      let takes (u : Nat) : Prop := u ∈ r.issuers ∧ (s.thr u).phase ≠ .faulted ∧ (s.thr u).stopped = none ∧ ∀ f ∈ s.faults, f.deferred = true → f.work = r.id → f.state = 0 → u ∉ f.threads
      (∃ u, takes u) → (∀ u, takes u → ∃ v ∈ s.threads, v.uid = u) → (∀ f ∈ s.faults, f.deferred = true → f.work = r.id → f.written.isSome = true) →
      LeadsTo (.deferredFault r.id) s s (fun t =>
        (∀ u, takes u → (t.thr u).phase = (if (s.thr u).phase = .exited then .exited else .faulted) ∧ ∃ q ∈ t.faults.drop s.faults.length, u ∈ q.threads ∧ q.spc = (s.thr u).pc) ∧
        ∀ q ∈ t.faults.drop s.faults.length, q.cause = c ∧ q.detail = d ∧ q.fpc = r.pc ∧ q.deferred = true ∧ q.work = r.id ∧ ∀ u ∈ q.threads, takes u ∧ (s.thr u).pc = q.spc))

/-- R320: an engine cycle grants one pass to a ready entry: one with no pass left at once; else, of the entries aged 256 or more, the oldest; else of the highest PRIORITY the oldest; the other ready entries age by one. R285, R177, R287: with its last pass the entry is applied whole and TL falls: MMA and MMAS replace the tile, and for I8 and N8 without marks and scales each element gains the exact sum of its products, clamped or wrapped, with no flag; AMOV.FROM delivers the members' words of the tile, AMOV.INTO replaces them, AMOV.ZERO clears the tile. -/
def Claims.PassGrants : Prop :=
  ∀ (s : State) (cl : Nat) (r : Req) (m : Matrix) (n : Nat),
    let l := (tableOf cl s).filter (fun r => matrixReady r s)
    let ageOf (q : Req) : Nat := match q.work with | .matrix m => m.age | _ => 0
    let prio (q : Req) : Nat := (s.gr (s.tm q.team).grid).priority
    let spent (q : Req) : Prop := ∃ m, q.work = .matrix m ∧ m.left = some 0
    (∀ q ∈ tableOf cl s, ∀ k, q.work = .matrix k → k.left ≠ none ∨ q.fault ≠ none ∨ k.lacks ≠ []) →
    (s.reqs.map Req.id).Nodup → s.Pending r → r ∈ l → r.work = .matrix m → m.left = some n → r.threads = m.members.map (·.1) → (∀ q ∈ l, prio q ≤ 7) → (∀ q ∈ s.reqs, q.id < 2 ^ 64) →
    (n = 0 ∧ ∀ q ∈ l, q ≠ r → ¬ spent q) ∨ (n ≠ 0 ∧ (∀ q ∈ l, ¬ spent q) ∧
      ((256 ≤ ageOf r ∧ ∀ q ∈ l, 256 ≤ ageOf q → r.id ≤ q.id) ∨
        ((∀ q ∈ l, ageOf q < 256) ∧ ∀ q ∈ l, prio q < prio r ∨ (prio q = prio r ∧ r.id ≤ q.id)))) →
    let older : State := if n = 0 then s else
      { s with reqs := s.reqs.map (fun q => if q.id ≠ r.id ∧ l.any (fun x => x.id == q.id) then
          { q with work := match q.work with | .matrix m => .matrix { m with age := m.age + 1 } | w => w } else q) }
    let tm := s.tm r.team
    let bank := s.bank tm.core tm.bank
    let tile := bank.tile m.tile
    let us := m.members.map (·.1)
    (2 ≤ n → Leads (.matrixPassGrant cl) s (older.modReq r.id (fun q => { q with work := .matrix { m with left := some (n - 1) } }))) ∧
    (n ≤ 1 →
      (∀ x, m.instr = .mma x ∨ m.instr = .mmas x → ∃ out fl,
        (out, fl) = m.multiply x tile ∧
        (m.instr = .mma x → (x.x.ty = .i8 ∨ x.x.ty = .n8) → mmaAcc x = .i32 → mmaZs x = false → mmaMx x = false → m.frags.length = m.members.length → (∀ f ∈ m.frags, 16 ≤ f.length) → tile.length = 4096 →
          let elem (w0 p k : Nat) : Int := match (m.members.zip m.frags).find? (fun a => a.1.2 == p) with
            | none => 0
            | some a => let b := elemOf 8 (k % 4) (nth 0 a.2 (w0 + k / 4)); if x.x.ty = .i8 ∧ 128 ≤ b then (b : Int) - 256 else b
          fl = 0 ∧ ∀ i < 32, ∀ j < 32, fieldOf out (4 * (32 * i + j)) 4 =
            (fitWord .i32 x.x.sat ((BitVec.ofNat 32 (fieldOf tile (4 * (32 * i + j)) 4)).toInt + ((List.range 32).map (fun k => elem 0 i k * elem 8 j k)).sum)).toNat) ∧
        Leads (.matrixPassGrant cl) s (us.foldl (fun s u => s.modThr u (fun t => { t with flags := t.flags ||| fl })) ((older.drop r).setBank tm.core tm.bank (bank.setTile m.tile out)))) ∧
      (∀ x, m.instr = .amovFrom x →
        let w := amovW x.x.ty
        let bad := bank.accPoison.contains m.tile
        (m.members.map (·.1)).Nodup →
        LeadsTo (.matrixPassGrant cl) s (m.members.foldl (fun s a => s.modThr a.1 (fun t =>
            { (List.range w).foldl (fun (t : Thread) j => t.wv (x.d.toNat + j) (BitVec.ofNat 32 (fieldOf tile (4 * (w * a.2 + j)) 4))) t with
              pendV := t.pendV.filter (fun r => !(span x.d.toNat w).contains r)
              poison := if bad then t.poison ++ span x.d.toNat w else t.poison.filter (fun r => !(span x.d.toNat w).contains r) })) (older.drop r))
          (fun t => ∀ a ∈ m.members, (∃ v ∈ s.threads, v.uid = a.1) → ∀ j < w, x.d.toNat + j < (s.thr a.1).owned →
            (t.thr a.1).rv (x.d.toNat + j) = BitVec.ofNat 32 (fieldOf tile (4 * (w * a.2 + j)) 4) ∧ (x.d.toNat + j ∈ (t.thr a.1).poison ↔ bad = true) ∧ x.d.toNat + j ∉ (t.thr a.1).pendV)) ∧
      (∀ x, m.instr = .amovInto x → m.frags.length = m.members.length →
        let w := amovW x.x.ty
        ∃ out poison, (tile.length = 4096 → (m.members.map (·.2)).Nodup → (∀ f ∈ m.frags, f.length = w) → (∀ a ∈ m.members, 4 * w * (a.2 + 1) ≤ 4096) →
            (∀ p ∈ m.members.zip m.frags, ∀ j < w, fieldOf out (4 * (w * p.1.2 + j)) 4 = (nth 0 p.2 j).toNat) ∧ (∀ o < 4096, (∀ a ∈ m.members, o / (4 * w) ≠ a.2) → nth 0 out o = nth 0 tile o)) ∧
          poison = (if m.members.length = 32 then bank.accPoison.filter (· ≠ m.tile) else bank.accPoison) ∧
          Leads (.matrixPassGrant cl) s ((older.drop r).setBank tm.core tm.bank { bank.setTile m.tile out with accPoison := poison })) ∧
      (∀ x, m.instr = .amovZero x →
        Leads (.matrixPassGrant cl) s ((older.drop r).setBank tm.core tm.bank { bank.setTile m.tile [] with accPoison := bank.accPoison.filter (· ≠ m.tile) })))

/-- The copy engine moves one piece and completes. Where the spec leaves a choice it follows the model's own, notes/assumptions 11, 30. -/
def Obligations.CopyEngine : Prop := Claims.CopySteps

/-- The tile directory serves definers, readers and killers. Where the spec leaves a choice it follows the model's own, notes/assumptions 31. -/
def Obligations.TileEngine : Prop := Claims.TileSteps

/-- The matrix unit takes its passes and completes. Where the spec leaves a choice it follows the model's own, notes/assumptions 33. -/
def Obligations.MatrixEngine : Prop := Claims.MatrixSteps ∧ Claims.PassGrants

/-! ### Steps of dispatches, combines, collectives and reductions (spec/11_memory_instructions.md R246 to R248, R255 to R260; spec/06_memory_ordering.md R127, R131, R382) -/

/-- R256, R131: with its row there a DSEND asks the route's device for a slot; the number that comes back is written to the thread, and the row goes there, line by line; a number at or past the capacity reads 0xFFFFFFFF and drops the row, and sets NDET in a DET launch. On the issuing device the number is its own fill counter's, and counter, row and NOTIFY its own memory. When the row has reached its Tw, NOTIFY is added to; the acknowledgement ends the DSEND and CP falls. R257: with its rows there (a route's to the issuing device read from its own memory), DCOMB writes the output row, each element the exact sum of its terms (weighted with FN 1) rounded once; when GTICK reaches its writes, the flags are in FLAGS, an exited thread's in its team's word, and CP falls. -/
def Claims.DispatchSteps : Prop :=
  ∀ (s : State) (r : Req) (u : Nat) (x : WA) (b : List Byte) (args : List Nat) (stage prog : Nat) (pc : Dword),
    s.Pending r → r.fault = none → (∃ t ∈ s.threads, t.uid = u) →
    let tm := s.tm r.team
    let g := s.gr tm.grid
    let goes (i : Instr) (args : List Nat) (stage prog : Nat) (s : State) : State := s.modReq r.id (fun q => { q with work := .dispatch u i b args stage prog pc })
    (r.work = .dispatch u (.dsend x) b args stage prog pc →
      let n := fieldOf b 8 4
      let route := args.headD 0
      let peer := bitsOf route 20 16
      let expert := bitsOf route 11 0
      let fill := fieldOf b 16 8 + 8 * expert
      let slot (q : Nat) : Nat := fieldOf b 16 8 + 0x8000 + (expert * fieldOf b 24 4 + q) * n
      let note := fieldOf b 32 8
      let away (pa : Nat) : Nat := 0x7000000000000 + peer * 0x80000000000 + pa
      let own : Prop := peer = Config.device % 32
      let row := b.drop 64
      let v (q : Nat) : Word := if q < fieldOf b 24 4 then BitVec.ofNat 32 q else 0xFFFFFFFF
      let numbered (q : Nat) (s : State) : State := s.modThr u (fun t => { t.wv x.d.toNat (v q) with pendV := t.pendV.filter (· ≠ x.d.toNat) })
      let dropped (s : State) : State :=
        let s := goes (.dsend x) [route, 0] 1 0 s
        if s.det r.team then s.modTeam r.team (fun tm => { tm with teamstat := tm.teamstat ||| 2 }) else s
      let there (q : Nat) (t : State) : Prop := x.d.toNat < (s.thr u).owned → (t.thr u).rv x.d.toNat = v q ∧ x.d.toNat ∉ (t.thr u).poison ∧ x.d.toNat ∉ (t.thr u).pendV
      (∀ got, stage = 3 → args = [route, nth 0 args 1] → sourceLate r.id u r.team (nth 0 args 1) n s = false → s.Settled r.team (nth 0 args 1) n → s.Reads tm.core g.fn g.ctx (nth 0 args 1) n got →
        ∀ q,
          let read : State := s.modReq r.id (fun q => { q with work := .dispatch u (.dsend x) (b ++ got) [route, 0] 0 0 r.pc })
          (own → Steps (.dispatchSlotReply r.id q) s read) ∧
          (¬ own → Steps (.dispatchSlotReply r.id q) s (read.leave g.fn g.ctx (away fill) (.atomic { form := 0, op := 0, ty := .i64, rnd := 0, b := 1, c := 0 })))) ∧
      (∀ q, stage = 0 → args = [route, 0] → x.d.toNat ∈ (s.thr u).pendV → ¬ own →
        LeadsTo (.dispatchSlotReply r.id q) s
          (if q < fieldOf b 24 4 then
              (chunks (away (slot q)) row.length).foldl (fun (s : State) a => s.sendOut g.fn g.ctx a ((row.drop (a - away (slot q))).take (128 - a % 128)) false) (goes (.dsend x) [route, 0] 1 row.length (numbered q s))
            else dropped (numbered q s)) (there q)) ∧
      (∀ any, stage = 0 → args = [route, 0] → x.d.toNat ∈ (s.thr u).pendV → own → s.admits (s.tagOf g.fn) fill 8 = true → s.Takes fill 8 →
        let q := leNat (s.mem.bytes.readN fill 8)
        let s1 := s.put fill (leBytes (q + 1) 8)
        (q < fieldOf b 24 4 → s1.admits (s.tagOf g.fn) (slot q) row.length = true → s.Plain (slot q) row.length →
          ∃ tw, s.gtick ≤ tw ∧ Steps (.dispatchSlotReply r.id any) s ((goes (.dsend x) [route, tw] 1 row.length (numbered q s1)).put (slot q) row) (there q)) ∧
        (fieldOf b 24 4 ≤ q → Steps (.dispatchSlotReply r.id any) s (dropped (numbered q s1)) (there q))) ∧
      (stage = 1 → ¬ own → Leads (.dispatchNotify r.id) s ((goes (.dsend x) args 2 prog s).leave g.fn g.ctx (away note) .add)) ∧
      (stage = 1 → own → nth 0 args 1 ≤ s.gtick → s.admits (s.tagOf g.fn) note 8 = true → s.Takes note 8 →
        Steps (.dispatchNotify r.id) s ((goes (.dsend x) args 2 prog s).put note (leBytes (leNat (s.mem.bytes.readN note 8) + 1) 8))) ∧
      (stage = 2 → Leads (.dispatchAck r.id) s (s.drop r))) ∧
    (r.work = .dispatch u (.dcomb x) b args stage prog pc →
      let n := fieldOf b 8 4
      let eb := elemBytes x.x.ty
      let dst := fieldOf b 16 8 + args.headD 0 * n + prog
      (∀ (rows : List Byte) (routes : List (Nat × Nat)) (pas : List Nat), stage = 0 → args = args.headD 0 :: routes.flatMap (fun p => [p.1, p.2]) → rows.length = routes.length * n → 0 < eb → n % eb = 0 → prog < n →
        (∀ p ∈ routes, p.2 ≠ 0 → s.admits (s.tagOf g.fn) (p.2 - 1) n = true ∧ ∀ l, (p.2 - 1) / 128 ≤ l → l * 128 < p.2 - 1 + n → l ∉ s.mem.poison) → s.Open tm.core g.fn g.ctx dst (n - prog) pas →
        let rowOf (k : Nat) : List Byte := if (nth (0, 0) routes k).2 = 0 then (rows.drop (k * n)).take n else s.mem.bytes.readN ((nth (0, 0) routes k).2 - 1) n
        let elem (i : Nat) : Nat × Flags := exactSum x.x.ty x.x.rnd.toNat false .ieee ((List.range routes.length).map (fun k =>
          let v := unpack x.x.ty (fieldOf (rowOf k) (i * eb) eb)
          if x.x.fn = 1 then productTerm (unpack .f32 (nth (0, 0) routes k).1) v else v))
        let out := (List.range (n / eb)).flatMap (fun i => leBytes (elem i).1 eb)
        let fl := (List.range (n / eb)).foldl (fun f i => f ||| (elem i).2) 0
        ∃ tw, s.gtick ≤ tw ∧ Steps (.dcombComplete r.id rows) s ((goes (.dcomb x) [fl.toNat, tw] 1 n s).putRange dst pas (out.drop prog))) ∧
      (∀ rows, stage = 1 → nth 0 args 1 ≤ s.gtick →
        let fl : Flags := BitVec.ofNat _ (args.headD 0)
        let s1 := (s.drop r).modThr u (fun t => { t with flags := t.flags ||| fl })
        Leads (.dcombComplete r.id rows) s (if (s.thr u).phase = .exited then s1.modTeam (s.thr u).team (fun tm => { tm with flagWord := tm.flagWord ||| fl }) else s1)))

/-- R259, R260: with every rank's participation of one tenant, GROUP and sequence there, resident, running, and of one function, COUNT, NRANKS, ROOT and TYPEOP, a collective writes this rank's destination: the reduction of all sources for all-reduce, of its own block for reduce-scatter, the sources in rank order for all-gather, the ranks' blocks for it for all-to-all, the root's source for broadcast; integers as by the operation's atomic in rank order, floating-point sums exactly, rounded once. Differing descriptors end it with ENGINE_FAULT, and the others are told. When GTICK reaches its writes the counter rises by one, the flags are in FLAGS (an exited thread's in its team's word), and CP falls. -/
def Claims.CollectiveSteps : Prop :=
  ∀ (s : State) (r : Req) (u : Nat) (x : WA) (b : List Byte) (args : List Nat) (prog : Nat) (pc : Dword) (stage : Nat),
    s.Pending r → r.fault = none → r.work = .dispatch u (.coll x) b args stage prog pc →
    let tm := s.tm r.team
    let g := s.gr tm.grid
    let fn := x.x.fn.toNat
    let n := fieldOf b 20 1
    let me := fieldOf b 21 1
    let root := fieldOf b 22 1
    let count := fieldOf b 16 4
    let ty := collType b
    let eb := elemBytes ty
    let op := bitsOf (fieldOf b 23 1) 5 4
    (∀ (ranks : List RankData) (f : Nat → RankData), stage = 0 →
      (∀ k < n, k ≠ me → ranks.find? (fun d => d.rank == k) = some (f k) ∧ (f k).tag = s.tagOf g.fn ∧ (f k).seq = args.headD 0 ∧ (f k).resident = true ∧ fieldOf (f k).desc 24 4 = fieldOf b 24 4) →
      (∀ h ∈ s.halted, h.1 ≠ g.fn) →
      let same (k : Nat) : Prop := (f k).fn = fn ∧ (f k).desc.length = 64 ∧ ((f k).desc.drop 16).take 5 = (b.drop 16).take 5 ∧ ((f k).desc.drop 22).take 2 = (b.drop 22).take 2
      ((∃ k < n, k ≠ me ∧ ¬ same k) → Leads (.collRendezvousStart r.id ranks) s ((s.modReq r.id (fun q => { q with fault := some (.engineFault, {}) })).send (.collectiveOver g.fn (fieldOf b 24 2) (args.headD 0)))) ∧
      (∀ mine pas, (∀ k < n, k ≠ me → same k ∧ (f k).bad = []) → collBad fn b = false → fn ≤ 4 →
        let src := fieldOf b 0 8
        let dst := fieldOf b 8 8
        let srcs (k : Nat) : List Byte := if k = me then mine else (f k).src
        let el (k i : Nat) : Nat := fieldOf (srcs k) (i * eb) eb
        let red (i : Nat) : Nat × Flags :=
          if ty.isFloat = true ∧ op = 0 then exactSum ty 0 false .ieee ((List.range n).map (fun k => unpack ty (el k i)))
          else (List.range (n - 1)).foldl (fun (a : Nat × Flags) k => let v := (AtomOp.mk 0 op ty 0 (el (k + 1) i) 0).apply a.1; (v.1, a.2 ||| v.2)) (el 0 i, 0)
        let block (k o : Nat) : List Byte := ((srcs k).drop (o * count * eb)).take (count * eb)
        let reds (o : Nat) : List Byte × Flags := ((List.range count).flatMap (fun i => leBytes (red (o + i)).1 eb), (List.range count).foldl (fun f i => f ||| (red (o + i)).2) 0)
        let out : List Byte × Flags := match fn with
          | 0 => reds 0
          | 1 => ((List.range n).flatMap (fun k => block k 0), 0)
          | 2 => reds (me * count)
          | 3 => ((List.range n).flatMap (fun k => block k me), 0)
          | _ => (block root 0, 0)
        let size := (collBytes fn b).1
        me < n → sourceLate r.id u r.team src size s = false → s.Settled r.team src size → s.Reads tm.core g.fn g.ctx src size mine → out.1 ≠ [] → s.Open tm.core g.fn g.ctx dst out.1.length pas →
        ∃ tw, s.gtick ≤ tw ∧ Steps (.collRendezvousStart r.id ranks) s
          ((s.modReq r.id (fun q => { q with work := .dispatch u (.coll x) b [args.headD 0, out.2.toNat, tw] 1 (out.1.length / eb) pc })).putRange dst pas out.1))) ∧
    (∀ pa, stage = 1 → nth 0 args 2 ≤ s.gtick → s.Counts tm.core g.fn g.ctx (fieldOf b 32 8) pa →
      let fl : Flags := BitVec.ofNat _ (nth 0 args 1)
      let s1 := ((s.drop r).put pa (leBytes (leNat (s.mem.bytes.readN pa 8) + 1) 8)).modThr u (fun t => { t with flags := t.flags ||| fl })
      Steps (.collComplete r.id) s (if (s.thr u).phase = .exited then s1.modTeam (s.thr u).team (fun tm => { tm with flagWord := tm.flagWord ||| fl }) else s1))

/-- R247: its first entry goes to its launch's log, 32 bytes of the device's own format. R127, R248: at a reached flush point, or at the launch's end, each address of a DET launch takes its reductions in the order of team, thread and sequence on its value in memory, and is written once; their flags join the grid's. When GTICK reaches the writes, threads at AFLUSH go on, those at KEYS ask a keystone; at the launch's end the flush is done. -/
def Claims.ReductionSteps : Prop :=
  ∀ (s : State) (grid : Nat),
    let g := s.gr grid
    (s.grids.map Grid.uid).Nodup → (∃ h ∈ s.grids, h.uid = grid) → s.Numbered →
    (∀ e pa mt leaf, g.reds.find? (fun r => !r.spilled) = some e → g.logFull = false → (g.reds.filter (·.spilled)).length < g.logCap →
      let va := g.field 96 8 + 64 + 32 * (g.reds.filter (·.spilled)).length
      s.waits = false → s.isMigrating g.fn g.ctx va = false → s.Hits e.core g.fn g.ctx .write va pa mt leaf → leaf.testBit 8 = true → (regionOf pa).local = true → s.Takes pa 32 →
      ∃ bs : List Byte, bs.length = 32 ∧ Steps (.reductionSpill grid) s ((s.modGrid grid (fun g => { g with reds := g.reds.map (fun q => if q == e then { q with spilled := true } else q) })).put pa bs)) ∧
    (∀ (place : Nat × Nat → Nat) (mine : Nat × Nat → List RedEntry), s.Canonical → s.waits = false → g.done = false → g.det = true → g.flushTick = none → (∀ r ∈ g.reds, r.bad = false) →
      s.FlushAt grid (g.flushed + 1) ∨ (s.AllOver grid ∧ g.ended = false) →
      let core := match g.reds.head? with | some r => r.core | none => 0
      (∀ p ∈ flushAddrs g, s.isMigrating g.fn g.ctx p.1 = false ∧ (∃ mt leaf, s.Hits core g.fn g.ctx .read p.1 (place p) mt leaf ∧ s.Hits core g.fn g.ctx .write p.1 (place p) mt leaf ∧ leaf.testBit 8 = true) ∧ (regionOf (place p)).local = true ∧ s.Takes (place p) p.2) →
      (flushAddrs g).Pairwise (fun p q => place p + p.2 ≤ place q ∨ place q + q.2 ≤ place p) →
      (∀ p ∈ flushAddrs g, (mine p).Perm (g.reds.filter (fun r => r.va == p.1 && elemBytes r.o.ty == p.2)) ∧
        (mine p).Pairwise (fun a b => (a.team * 1024 + a.tid) * 2 ^ 32 + a.seq < (b.team * 1024 + b.tid) * 2 ^ 32 + b.seq)) →
      let value (p : Nat × Nat) : Nat × Flags := (mine p).foldl (fun (a : Nat × Flags) r => ((r.o.apply a.1).1, a.2 ||| (r.o.apply a.1).2)) (leNat (s.mem.bytes.readN (place p) p.2), 0)
      ∃ tick tail, s.gtick ≤ tick ∧ Steps (.reductionFlush grid) s ((flushAddrs g).foldl (fun (s : State) p => s.put (place p) (leBytes (value p).1 p.2))
        (s.modGrid grid (fun g => { g with reds := [], flushTick := some tick, tail := tail, flagWord := (flushAddrs g).foldl (fun f p => f ||| (value p).2) g.flagWord })))) ∧
    (∀ tick, g.flushTick = some tick → tick ≤ s.gtick → g.lost = [] → (∀ r ∈ s.faults, r.grid = grid → r.cause = .engineFault → r.threads = [] → r.teamId ≠ 0xFFFFFFFF) →
      (s.FlushAt grid (g.flushed + 1) → ∃ keys : Bool, (keys = true ↔ ∃ t, s.LiveIn grid t ∧ t.wait.mode = 1) ∧
        LeadsTo (.reductionFlushComplete grid) s (s.modGrid grid (fun g => { g with flushTick := none, flushed := g.flushed + 1, keysReq := g.keysReq || keys }))
          (fun t => ∀ v, s.LiveIn grid v → (v.wait.mode = 0 → (t.thr v.uid).phase = .ready ∧ (t.thr v.uid).pc = v.npc) ∧
            (v.wait.mode ≠ 0 → (t.thr v.uid).phase = .parked .keys ∧ (t.thr v.uid).keysTick = max s.gtick 1))) ∧
      (¬ s.FlushAt grid (g.flushed + 1) → Leads (.reductionFlushComplete grid) s (s.modGrid grid (fun g => { g with flushTick := none, ended := true }))))

/-- Dispatch, combine, collectives and logged reductions complete. Where the spec leaves a choice it follows the model's own, notes/assumptions 30, 37. -/
def Obligations.LinkSteps : Prop := Claims.DispatchSteps ∧ Claims.CollectiveSteps ∧ Claims.ReductionSteps

/-! ### Steps of the splat pipeline (spec/13_matrix_tile_world_splat_instructions.md R299 to R304) -/

/-- R300: the binner takes up the oldest request of its cluster's queue; with more keys than KEYCAP it writes nothing; else SORTED takes the keys in ascending order of tile, depth bits and id, each entry of TILES the first and end index of its tile's keys, and what SCRATCH takes is not defined. When GTICK reaches its writes the request leaves: BINSTAT becomes the count, or 0xFFFFFFFF after an overflow, P is true where it counted, and TL falls. R304: the request of a context that is pre-empted leaves the merge tree for its record of Table 13.7, from which its work goes on, and the next one is served; it queues again where the save is called off. -/
def Claims.BinnerSteps : Prop :=
  ∀ (s : State) (cl : Nat) (b : BinReq) (rest : List BinReq),
    binQueue cl s = b :: rest →
    let tm := s.tm b.team
    let g := s.gr tm.grid
    let mod (f : BinReq → BinReq) : State := { s with bins := s.bins.map (fun c => if c.id = b.id then f c else c) }
    let reads (va n : Nat) (bs : List Byte) : Prop := s.Reads tm.core g.fn g.ctx va n bs
    let called (c : BinReq) : Prop := c.cluster = cl ∧ binBack c s = true
    (∀ c, s.bins.find? (fun c => c.cluster == cl && binBack c s) = some c →
      Leads (.binnerServe cl) s { s with bins := s.bins.map (fun d => if d.id = c.id then { d with saved := false } else d) }) ∧
    ((∀ c ∈ s.bins, ¬ called c) → b.started = false → Leads (.binnerServe cl) s (mod (fun c => { c with started := true }))) ∧
    (∀ t, (∀ c ∈ s.bins, ¬ called c) → b.started = true → b.target = some t → t ≤ s.gtick →
      let p := b.result != 0xFFFFFFFF
      LeadsTo (.binnerServe cl) s (b.threads.foldl (fun s u => s.modThr u (fun t => { t.wp b.pred p with pendP := t.pendP.filter (· ≠ b.pred), tl := t.tl - 1 }))
          ({ s with bins := s.bins.filter (fun c => c.id != b.id) }.modTeam b.team (fun tm => { tm with binstat := BitVec.ofNat 32 b.result })))
        (fun t => ∀ u ∈ b.threads, (∃ v ∈ s.threads, v.uid = u) → b.pred < 8 → b.pred ≠ 0 → (t.thr u).rp b.pred = p)) ∧
    (∀ fr kb raw p0 p1 p2, (∀ c ∈ s.bins, ¬ called c) → s.waits = false → b.started = true → b.target = none → b.frame ≠ 0 → b.frame % 64 = 0 → reads b.frame 192 fr → frameBad fr = false → (b.record = [] → reads (fieldOf fr 96 8) 8 kb) →
      let n := if b.record = [] then leNat kb else fieldOf b.record 8 4
      (fieldOf fr 88 4 < n → Steps (.binnerServe cl) s (mod (fun c => { c with target := some 0, result := 0xFFFFFFFF }))) ∧
      (n ≤ fieldOf fr 88 4 → reads (fieldOf fr 80 8) (16 * n) raw →
        let tiles := (fieldOf fr 64 4 + 15) / 16 * ((fieldOf fr 68 4 + 15) / 16)
        s.Open tm.core g.fn g.ctx (fieldOf fr 112 8) (16 * n) p0 → s.Open tm.core g.fn g.ctx (fieldOf fr 104 8) (16 * n) p1 → s.Open tm.core g.fn g.ctx (fieldOf fr 120 8) (8 * tiles) p2 →
        let order (k : List Byte) : Nat := (fieldOf k 0 4 * 2 ^ 32 + fieldOf k 4 4) * 2 ^ 32 + fieldOf k 8 4
        ∃ (keys : List (List Byte)) (runs : List Byte) (tw : Nat), s.gtick ≤ tw ∧ runs.length = 16 * n ∧
          keys.Perm ((List.range n).map (fun i => (raw.drop (16 * i)).take 16)) ∧ keys.Pairwise (fun a b => order a ≤ order b) ∧
          let table := (List.range tiles).flatMap (fun t =>
            leBytes (keys.filter (fun k => decide (fieldOf k 0 4 < t))).length 4 ++ leBytes (keys.filter (fun k => decide (fieldOf k 0 4 ≤ t))).length 4)
          Steps (.binnerServe cl) s
            ((((mod (fun c => { c with target := some tw, result := n })).putRange (fieldOf fr 112 8) p0 runs).putRange (fieldOf fr 104 8) p1 keys.flatten).putRange (fieldOf fr 120 8) p2 table))) ∧
    (∀ fr kb, b.started = true → b.target = none → saveAsked tm.core tm.bank g.fn g.ctx s = true → b.frame ≠ 0 → b.frame % 64 = 0 → reads b.frame 192 fr → frameBad fr = false → (b.record = [] → reads (fieldOf fr 96 8) 8 kb) →
      let n := if b.record = [] then leNat kb else fieldOf b.record 8 4
      n ≤ fieldOf fr 88 4 → (b.threads.map (fun u => (s.thr u).lane)).Nodup → (∀ u ∈ b.threads, (s.thr u).lane < 32) →
      ∃ rb : List Byte, rb.length = 2048 ∧ fieldOf rb 0 8 = b.frame % 2 ^ 64 ∧ fieldOf rb 8 4 = n ∧ fieldOf rb 12 1 ≤ 1 ∧ fieldOf rb 14 2 = 0 ∧ 1 ≤ fieldOf rb 20 4 ∧ fieldOf rb 20 4 ≤ 64 ∧ fieldOf rb 24 4 = tm.id % 2 ^ 32 ∧
        (∀ j < 32, (fieldOf rb 28 4).testBit j = true ↔ ∃ u ∈ b.threads, (s.thr u).lane = j) ∧ (∀ y ∈ rb.drop 1568, y = 0) ∧
        Steps (.binnerPreempt cl) s (mod (fun c => { c with saved := true, started := false, record := rb })))

/-- R299: SPROJ's work reads the Gaussian and projects it: culled, it writes nothing and answers 0 and false; else it writes the splat and adds its tiles to KCOUNT: with room for all, it writes a key for each tile in ascending number and answers their number and true, without, 0xFFFFFFFF and false, noted in a DET launch. R301: SBLEND.FWD composites the pixel over the tile's sorted splats until the transmittance falls below TCUT, and writes the pixel record. R302: SBLEND.BACK walks the contributors back and makes nine REDs of each: buffered in a DET launch in the thread's sequence, at L2 otherwise. When GTICK reaches its writes, the request is done and TL falls. -/
def Claims.SplatSteps : Prop :=
  ∀ (s : State) (r : Req) (u : Nat) (i : Instr) (args : List Nat) (pc : Dword),
    s.Pending r → r.work = .splat u i args pc → r.fault = none → (∃ t ∈ s.threads, t.uid = u) → (s.thr u).team = r.team → (∃ m ∈ s.teams, m.uid = r.team) → (s.grids.map Grid.uid).Nodup →
    let tm := s.tm r.team
    let g := s.gr tm.grid
    (∃ h ∈ s.grids, h.uid = tm.grid) →
    let x := nth 0 args 4
    let y := nth 0 args 5
    let fr := (args.drop 6).map (BitVec.ofNat 8)
    let reads (va n : Nat) (bs : List Byte) : Prop := s.Reads tm.core g.fn g.ctx va n bs
    let opens (va n : Nat) (pas : List Nat) : Prop := s.Open tm.core g.fn g.ctx va n pas
    let ready (tw : Nat) (s : State) : State := s.modReq r.id (fun q => { q with work := .splat u i (1 :: tw :: args.drop 2) pc })
    let atomic (va pa n : Nat) : Prop := va % n = 0 ∧ s.waits = false ∧ s.isMigrating g.fn g.ctx va = false ∧ (∀ z, s.l1? tm.core g.fn g.ctx (va / 128) = some z → z.dirty = [] ∨ z.team ≠ tm.uid) ∧ (∃ mt leaf, s.Hits tm.core g.fn g.ctx .atomic va pa mt leaf ∧ leaf.testBit 8 = true) ∧ (regionOf pa).local = true ∧ s.Takes pa n
    let pixel := frameAt fr 128 32 (y * fieldOf fr 64 4 + x)
    let tile := frameAt fr 120 8 (y / 16 * frameTw fr + x / 16)
    let splatIn (s : State) (j : Nat) (k sp : List Byte) : Prop := s.Reads tm.core g.fn g.ctx (frameAt fr 104 16 j) 16 k ∧ s.Reads tm.core g.fn g.ctx (frameAt fr 72 32 (fieldOf k 8 4)) 32 sp
    let splat (j : Nat) (k sp : List Byte) : Prop := splatIn s j k sp
    (nth 0 args 0 = 1 → nth 0 args 1 ≤ s.gtick → Leads (.splatComplete r.id) s (s.drop r)) ∧
    (∀ w gs, s.waits = false → nth 0 args 0 = 0 → 6 < args.length → i = .sproj w → reads x 64 gs →
      let answer (v : Word) (b : Bool) (fl : Flags) (s : State) : State :=
        s.modThr u (fun t => { (t.wv w.d.toNat v).wp (w.x.w2.toNat % 8) b with
          pendV := t.pendV.filter (· ≠ w.d.toNat), pendP := t.pendP.filter (· ≠ w.x.w2.toNat % 8), flags := t.flags ||| fl })
      (∀ fl, project fr gs (nth 0 args 2) = (none, fl) → Steps (.splatComplete r.id) s (answer 0 false fl (ready 0 s))) ∧
      (∀ p fl ps pa pk, project fr gs (nth 0 args 2) = (some p, fl) → opens (frameAt fr 72 32 y) 32 ps → p.splat.length = 32 → atomic (fieldOf fr 96 8) pa 8 →
        let m := p.tiles.length
        let written := s.putRange (frameAt fr 72 32 y) ps p.splat
        let k := leNat (written.mem.bytes.readN pa 8)
        let counted := written.put pa (leBytes ((k + m) % 2 ^ 64) 8)
        (fieldOf fr 88 4 < k + m → ∃ tw, s.gtick ≤ tw ∧
          Steps (.splatComplete r.id) s (answer 0xFFFFFFFF false fl (ready tw (counted.modTeam r.team (fun tm => if s.det r.team then { tm with teamstat := tm.teamstat ||| 2 } else tm))))) ∧
        (k + m ≤ fieldOf fr 88 4 → 1 ≤ m → opens (frameAt fr 80 16 k) (16 * m) pk → ∃ tw, s.gtick ≤ tw ∧
          Steps (.splatComplete r.id) s (answer (BitVec.ofNat 32 m) true fl (ready tw
            (counted.putRange (frameAt fr 80 16 k) pk (p.tiles.flatMap (fun t => leBytes t 4 ++ leBytes p.depth 4 ++ leBytes y 4 ++ leBytes 0 4)))))))) ∧
    (∀ w tb (sp : Nat → List Byte) ps, nth 0 args 0 = 0 → 6 < args.length → i = .sblendFwd w → reads tile 8 tb →
      let f := fieldOf tb 0 4
      let e := fieldOf tb 4 4
      (∀ j, f ≤ j → j < e → ∃ k, splat j k (sp j)) → opens pixel 20 ps →
      let step (a : Bool × Blend) (j : Nat) : Bool × Blend :=
        let v := seen (sp j) x y
        let b := { a.2 with fl := a.2.fl ||| v.fl }
        let tn := b.t.mul (fvOne.sub v.alpha)
        if a.1 then a else if v.skip then (false, b)
        else if tn.lt (fv (nth 0 args 2)) then (true, { b with fl := b.fl ||| tn.fl })
        else (false, { b with t := tn, c := (List.range 3).map (fun c => (nth (fv 0) b.c c).add (((fldHalf (sp j) (24 + 2 * c)).mul v.alpha).mul b.t)), n := j - f + 1, fl := b.fl ||| tn.fl })
      let last := (((List.range (e - f)).map (fun q => f + q)).foldl step (false, ⟨fvOne, [fv 0, fv 0, fv 0], 0, 0, false⟩)).2
      let cols := (List.range 3).map (fun c => (nth (fv 0) last.c c).add (last.t.mul (fld fr (144 + 4 * c))))
      ∃ tw, s.gtick ≤ tw ∧ Steps (.splatComplete r.id) s
        (((ready tw s).modThr u (fun t => { t.wv w.d.toNat (BitVec.ofNat 32 last.n) with pendV := t.pendV.filter (· ≠ w.d.toNat), flags := t.flags ||| cols.foldl (fun g c => g ||| c.fl) last.fl })).putRange pixel ps
          (cols.flatMap (fun c => leBytes c.bits 4) ++ leBytes last.t.bits 4 ++ leBytes last.n 4))) ∧
    (∀ w px tb (sp k : Nat → List Byte) (place : Nat → Nat), s.waits = false → nth 0 args 0 = 0 → 6 < args.length → i = .sblendBack w → reads pixel 32 px → reads tile 8 tb →
      let f := fieldOf tb 0 4
      let n := fieldOf px 16 4
      (∀ j, f ≤ j → j < f + n → splat j (k j) (sp j)) →
      let step (a : Back × List (Nat × Fv)) (j : Nat) : Back × List (Nat × Fv) :=
        let v := seen (sp j) x y
        let b := { a.1 with fl := a.1.fl ||| v.fl }
        if v.skip then (b, a.2)
        else let q := backStep fr px (sp j) v b; (q.1, a.2 ++ (q.2.zip (List.range 9)).map (fun p => ((frameAt fr 136 64 (fieldOf (k j) 8 4) + 4 * p.2) % 2 ^ 64, p.1)))
      let last := (((List.range n).map (fun q => f + n - 1 - q)).foldl step (⟨fld px 12, [fv 0, fv 0, fv 0], fv 0, [fv 0, fv 0, fv 0], 0, 0, false⟩, []))
      (∀ p ∈ last.2, atomic p.1 (place p.1) 4) →
      let flags (fl : Flags) (s : State) : State := s.modThr u (fun t => { t with flags := t.flags ||| fl })
      (s.det r.team = true → bufferOf tm.core s + last.2.length ≤ 2048 →
        let seq := (s.thr u).redSeq
        seq < 2 ^ 32 →
        Steps (.splatComplete r.id) s (flags last.1.fl ((ready 0 (s.modGrid tm.grid (fun g => { g with
            reds := g.reds ++ (last.2.zip (List.range last.2.length)).map (fun p => (⟨tm.id, (s.thr u).tid, (seq + p.2) % 2 ^ 32, tm.core, p.1.1, ⟨3, 0, .f32, 0, p.1.2.bits, 0⟩, false, false⟩ : RedEntry)) }))).modThr u
          (fun t => { t with redSeq := (seq + last.2.length) % 2 ^ 32 })))) ∧
      (s.det r.team = false →
        let sum (a : State × Flags) (p : Nat × Fv) : State × Flags :=
          let v := addBits .f32 0 false (leNat (a.1.mem.bytes.readN (place p.1) 4)) p.2.bits
          (a.1.put (place p.1) (leBytes v.1 4), a.2 ||| v.2)
        let sums := last.2.foldl sum (ready 0 s, last.1.fl)
        (∀ m ≤ last.2.length, ∀ j, f ≤ j → j < f + n → splatIn ((last.2.take m).foldl sum (s, 0)).1 j (k j) (sp j)) →
        ∃ tw, s.gtick ≤ tw ∧ Steps (.splatComplete r.id) s (flags sums.2 (if last.2 = [] then sums.1 else sums.1.noted (fun t => t.uid == u) tw))))

/-- The binner, the projector and the blender complete. Where the spec leaves a choice it follows the model's own, notes/assumptions 41, 63. -/
def Obligations.SplatEngines : Prop := Claims.BinnerSteps ∧ Claims.SplatSteps

/-! ### Steps of queues, launches, tasks and completion (spec/14_scheduling.md R305 to R319; spec/10_control_and_integer_instructions.md R226) -/

/-- R306, R307: a write of QDESC by the queue's owner reads the descriptor and sets the queue going from its HEAD, as pending behind the others; bit 0 clear takes it out; a malformed descriptor stops it with QSTAT.ERR = DESC. A doorbell write sets the tail; one too far stops the queue with ERR = RING; a ring that is empty gives up its slot. An error is told by vector 2 (notes/assumptions 75). A write of another function does nothing. R305, R307: the pending queue of the highest QPRIO whose owner byte holds its function, first by its doorbell, takes a free slot; at its first admission its context is read and is live. -/
def Claims.QueueSteps : Prop :=
  ∀ (s : State) (fn q : Nat) (v : Dword),
    let set (x : Queue) (s : State) : State := { s with queues := x :: s.queues.filter (fun y => y.q != q) }
    let owns : Prop := lookupD 0 s.qown q = fn ∧ q < 4096
    let used (x : Queue) : Nat := (x.tail + 2 ^ 32 - x.head) % 2 ^ 32
    let stops (i : Instr) (x : Queue) (code : Nat) : Prop :=
      ∀ b, s.Phys fn (x.desc + 28) 4 b →
        Steps i s (((set { x with err := code, errAt := x.head % 2 ^ 24, resident := false } s).put (x.desc + 28) (leBytes (x.head % 2 ^ 24 + code * 2 ^ 24) 4)).send (.msix fn 2))
    (∀ y ∈ s.queues, ∀ z ∈ s.queues, y.q = z.q → y = z) → (s.queue q).q = q →
    (¬ owns → Leads (.qdescWrite fn q v) s s ∧ Leads (.qdoorWrite fn q v) s s) ∧
    (owns →
      let x := { s.queue q with fn := fn, qdesc := v &&& 0xFFFFFFFFFFFFFFC1, admitted := false, held := false }
      (v.getLsbD 0 = false → Leads (.qdescWrite fn q v) s (set { x with resident := false } s)) ∧
      (∀ b, v.getLsbD 0 = true → s.Phys fn x.desc 64 b →
        let y := Queue.settled { x with ctxdesc := fieldOf b 0 8, ring := fieldOf b 8 8, rsize := fieldOf b 16 4, head := fieldOf b 20 4, prio := fieldOf b 24 4, err := fieldOf b 31 1, errAt := fieldOf b 28 3 }
        (queueBad b = true → stops (.qdescWrite fn q v) y 1) ∧
        (queueBad b = false → y.err ≠ 0 → Steps (.qdescWrite fn q v) s (set { y with resident := false } s)) ∧
        (queueBad b = false → y.err = 0 → y.rsize < used y → stops (.qdescWrite fn q v) y 2) ∧
        (queueBad b = false → y.err = 0 → used y ≤ y.rsize → y.resident = false → ∃ order, (∀ z ∈ s.queues, z.order < s.nextId → z.order < order) ∧ Steps (.qdescWrite fn q v) s (set { y with order := order } s))) ∧
      (let y := Queue.settled { s.queue q with fn := fn, tail := v.toNat % 2 ^ 32 }
       let late : Prop := y.qdesc.getLsbD 0 = true ∧ y.err = 0 ∧ y.rsize < used y
       ∃ order, ((s.queue q).pending = true → order = y.order) ∧
        (¬ late → Leads (.qdoorWrite fn q v) s (set { y with order := order } s)) ∧ (late → stops (.qdoorWrite fn q v) { y with order := order } 2))) ∧
    (let x := s.queue q
     let rank (y : Queue) : Nat := (7 - y.prio) * 2 ^ 64 + y.order
     s.serves x = true → x.resident = false → (s.queues.filter (·.resident)).length < 256 → (∀ y ∈ s.queues, s.serves y = true → y.resident = false → rank x ≤ rank y) →
      (x.admitted = true → Leads (.queueSlotTake q) s (set { x with resident := true } s)) ∧
      (∀ b h, x.admitted = false → x.ctxdesc % 64 = 0 → s.Phys x.fn x.ctxdesc 128 b → contextBad b = false → s.Phys x.fn (fieldOf b 48 8) 20 h → fieldOf h 16 4 ≤ 1024 →
        let ctx := fieldOf b 8 4
        let live : Prop := (∃ g ∈ s.grids, g.fn = x.fn ∧ g.ctx = ctx ∧ g.killed = false) ∨ (∃ e ∈ s.slots, e.fn = x.fn ∧ e.ctx = ctx)
        (¬ live → Steps (.queueSlotTake q) s (set { x with resident := true, admitted := true, ctxId := ctx }
          { s with contexts := ⟨x.fn, ctx, b, fieldOf h 16 4, fieldOf h 0 4, none, none⟩ :: s.contexts.filter (fun c => !(c.fn == x.fn && c.ctx == ctx)) })) ∧
        (∀ c, live → s.context? x.fn ctx = some c → c.desc = b → c.nslot = fieldOf h 16 4 → Steps (.queueSlotTake q) s (set { x with resident := true, admitted := true, ctxId := ctx } s))))

/-- R307: a resident, pending queue consumes its head entry in its operation: NOP does nothing, WAIT goes on where its counter has reached the threshold (and gives up its slot, not yet there, only where another queue waits for one), ADD adds to its counter, LAUNCH enters a grid behind those accepted; HEAD advances in the queue and in its descriptor, and a queue that is empty then gives up its slot. An entry with a reserved field set stops the queue. -/
def Claims.EntrySteps : Prop :=
  ∀ (s : State) (q : Nat) (b : List Byte),
    let x := s.queue q
    let fn := x.fn
    let set (x : Queue) (s : State) : State := { s with queues := x :: s.queues.filter (fun y => y.q != q) }
    let next : Queue := { x with head := (x.head + 1) % 2 ^ 32, resident := (x.tail + 2 ^ 32 - (x.head + 1) % 2 ^ 32) % 2 ^ 32 != 0 }
    let consumed (s : State) : State := (set next s).put (x.desc + 20) (leBytes next.head 4)
    let ctx := x.ctxId
    x.q = q → s.serves x = true → x.resident = true → s.Phys fn (x.ring + 64 * (x.head % x.rsize)) 64 b → (∃ d, s.Phys fn (x.desc + 20) 4 d) →
    let op := fieldOf b 0 1
    let va := fieldOf b 8 8
    let arg := fieldOf b 16 8
    let free : Prop := entryBad b = false ∧ (fieldOf b 1 1 = 1 → x.unreported = false ∧ ∀ g ∈ s.grids, g.queue ≠ some q)
    let counter (pa : Nat) : Prop := va % 8 = 0 ∧ (∃ mt leaf, s.Hits baseDie fn ctx .read va pa mt leaf ∧ mt < 2) ∧ (regionOf pa).local = true ∧ pa % 128 + 8 ≤ 128 ∧ pa / 128 ∉ s.mem.poison
    (∀ d, entryBad b = true → s.Phys fn (x.desc + 28) 4 d →
      Steps (.queueEntryNop q) s (((set { x with err := 2, errAt := x.head % 2 ^ 24, resident := false } s).put (x.desc + 28) (leBytes (x.head % 2 ^ 24 + 2 * 2 ^ 24) 4)).send (.msix fn 2))) ∧
    (free → op = 0 → Steps (.queueEntryNop q) s (consumed s)) ∧
    (free →
      (∀ i pa, i = .queueEntryWait q ∨ i = .queueWaitReread q → op = 2 → counter pa →
        let have' := leNat (s.mem.bytes.readN pa 8)
        (arg ≤ have' → Steps i s (consumed s)) ∧
        (have' < arg → (∃ y ∈ s.queues, s.serves y = true ∧ y.resident = false) → Steps i s (set { x with resident := false } s)) ∧
        (have' < arg → (∀ y ∈ s.queues, s.serves y = true → y.resident = true) → Steps i s s)) ∧
      (∀ pa, op = 3 → s.Counts baseDie fn ctx va pa →
        (s.put pa (leBytes (leNat (s.mem.bytes.readN pa 8) + arg) 8)).physOk fn (x.desc + 20) 4 = true →
        Steps (.queueEntryAdd q) s (consumed (s.put pa (leBytes (leNat (s.mem.bytes.readN pa 8) + arg) 8)))) ∧
      (∀ lr r, op = 1 → va % 256 = 0 → s.Reads baseDie fn ctx va 256 lr → s.Accepts baseDie fn ctx lr r → ∃ now, s.gtick ≤ now ∧
        Steps (.queueEntryLaunch q) s (consumed (enterLaunch fn ctx 0 0 (some q) none lr r { s with gtick := now })) (fun t =>
          ∃ g ∈ t.grids, g.uid = s.nextId ∧ g.fn = fn ∧ g.ctx = ctx ∧ g.depth = 0 ∧ g.queue = some q ∧ g.record = lr ∧ g.next = 0 ∧ g.done = false)) ∧
      (∀ lr d, op = 1 → va % 256 = 0 → s.Reads baseDie fn ctx va 256 lr → launchBad lr = true → s.Phys fn (x.desc + 28) 4 d →
        (s.put (x.desc + 28) (leBytes (x.head % 2 ^ 24 + 3 * 2 ^ 24) 4)).physOk fn (x.desc + 20) 4 = true →
        Steps (.queueEntryLaunch q) s ((((set { next with err := 3, errAt := x.head % 2 ^ 24, resident := false } s).put (x.desc + 28) (leBytes (x.head % 2 ^ 24 + 3 * 2 ^ 24) 4)).put (x.desc + 20) (leBytes next.head 4)).send (.msix fn 2))))

/-- The queues take slots and serve launch, barrier, counter and release entries. Where the spec leaves a choice it follows the model's own, notes/assumptions 17, 28. -/
def Obligations.QueueServing : Prop := Claims.QueueSteps ∧ Claims.EntrySteps

/-- R310, R137, R140, R143, R312: the next team of the first grid whose next team fits some core starts on a core that it fits, where no earlier grid has another team that waits and fits or holds the later ones back: its threads are READY at ENTRY, thread TID in lane TID mod 32, with zero registers, its role and its flags clear; the team's scalar registers are 0, MODE and LEASE as the launch says. After 100,000 ticks in which the first grid's next team fits no core, later grids are held back. A logical core with no resident team may move to another core of the partition. -/
def Claims.Placement : Prop :=
  ∀ (s : State) (g : Grid),
    let waits (h : Grid) : Prop := h ∈ s.grids ∧ h.next < h.teamCount ∧ h.killed = false
    s.Numbered → (s.grids.map Grid.uid).Nodup →
    (∀ core b n, waits g → placeable g core s = true → preceded g s = false → (∀ h, waits h → h ≠ g → g.rank < h.rank ∨ ∀ c < 512, placeable h c s = false) →
      (∀ m ∈ s.teams, m.grid = g.uid → m.saved = none) → nextTeam g core = some n → bankFor core g.fn g.ctx s = some b → (∀ x ∈ s.mem.l1, x.core = core → x.dirty = []) → (∀ d ∈ g.htab, d = 0) →
      let gx := g.field 8 4
      let gy := g.field 12 4
      let size := g.field 20 2 * g.field 22 2 * g.field 24 2
      let s1 := openCore core b g s
      let lc := n % max 1 g.ncores
      (g.det = false → n = g.next) ∧
      LeadsTo (.teamPlace core) s
        ({ s1 with
            teams := s1.teams ++ [startTeam s.nextId n (n % gx) (n / gx % gy) (n / (gx * gy)) size core b (freeTeamSlot core b s1) g false]
            threads := s1.threads ++ (List.range size).map (fun tid =>
              startThread (s.nextId + 1 + tid) s.nextId tid (nth 0 (freeSlots core b (slotsOf size) s1) (tid / 32)) (roleOf g tid) (BitVec.ofNat 64 (g.field 0 8)) (List.replicate (g.field 26 1) 0)) }.modGrid g.uid (fun h =>
          { h with next := h.next + 1, hold := false, waitSince := s.gtick, lmap := if h.det then setNth 0 h.lmap lc (core + 1) else h.lmap, lnext := if h.det then setNth 0 h.lnext lc (nth 0 h.lnext lc + 1) else h.lnext
                   pendingOn := if h.teamCount ≤ h.next + 1 then none else h.pendingOn }))
        (fun t =>
          (∃ m ∈ t.teams, m.uid = s.nextId ∧ m.grid = g.uid ∧ m.id = n ∧ m.core = core ∧ m.bank = b ∧ m.size = size ∧ m.saved = none ∧ (∀ r < 64, m.rs r = 0) ∧ m.teamstat = 0 ∧
            m.mode = BitVec.ofNat 32 (3 + (if g.det then 16 else 0) + (if g.safe then 32 else 0)) ∧ m.view = 0xFFFFFFFF ∧
            (g.field 92 4 = 0 → m.lease = 2048) ∧ (g.field 92 4 ≠ 0 → m.lease = max 256 (min 65536 (g.field 92 4)))) ∧
          (t.bank core b).ctx = some (g.fn, g.ctx) ∧
          ∀ tid < size, let a := t.thr (s.nextId + 1 + tid)
            a.team = s.nextId ∧ a.tid = tid ∧ a.lane = tid % 32 ∧ a.phase = .ready ∧ a.pc = BitVec.ofNat 64 (g.field 0 8) ∧ a.owned = g.field 26 1 ∧ (∀ r, a.rv r = 0) ∧ a.flags = 0 ∧
            a.ld = 0 ∧ a.st = 0 ∧ a.cp = 0 ∧ a.tl = 0 ∧ a.poison = [])) ∧
    (waits g → (∀ h, waits h → h ≠ g → g.rank < h.rank) → g.hold = false → g.waitSince + 100000 ≤ s.gtick → (∀ c < 512, placeable g c s = false) →
      Leads .placementHold s (s.modGrid g.uid (fun h => { h with hold := true }))) ∧
    (∀ lc core, g ∈ s.grids → g.det = true → g.done = false → lc < g.ncores → core < 512 → inPartition g.fn (clusterOf core) s = true →
      (∀ m ∈ s.teams, m.grid = g.uid → m.saved = none → m.task = false → m.id % g.ncores ≠ lc) →
      Leads (.logicalCoreRemap g.uid lc core) s (s.modGrid g.uid (fun h => { h with lmap := setNth 0 h.lmap lc (core + 1) })))

/-- R318: a task whose counters, read again, have all reached their thresholds is eligible where it holds its table entry and no earlier task with an entry conflicts with it; else it is not. R319: the eligible tasks of the oldest one's launch and ENTRY, up to 32, form a task team with the cluster's next serial, which is placed on a core of the cluster that it fits, where no earlier grid precedes it, and else waits: thread k is task k's, READY at ENTRY, with the argument pointer in v0:1, k in v2 and role 0; the device forms it at any time, and by 1,024 ticks after the oldest became eligible. -/
def Claims.TaskSteps : Prop :=
  ∀ (s : State),
    s.Numbered → (s.tasks.map Task.id).Nodup → (s.grids.map Grid.uid).Nodup →
    (∀ x ∈ s.tasks, x.since = none →
      let g := s.gr x.grid
      let place (d : Nat × Nat) (pa : Nat) : Prop := d.1 % 8 = 0 ∧ (∃ mt leaf, mt < 2 ∧ s.Hits (4 * x.cluster) g.fn g.ctx .read d.1 pa mt leaf) ∧ (regionOf pa).local = true ∧ pa % 128 + 8 ≤ 128 ∧ pa / 128 ∉ s.mem.poison
      let clear : Prop := x.entry = true ∧ ∀ o ∈ s.tasks, o.id < x.id → o.cluster = x.cluster → ¬ (o.entry = true ∧ o.ranged = true ∧ tasksConflict o x = true)
      let looked (ready : Bool) (since : Option Nat) : State := { s with tasks := s.tasks.map (fun (t : Task) => if t.id = x.id then { t with ready := ready, since := since } else t) }
      ((∀ d ∈ x.deps, ∃ pa, place d pa ∧ d.2 ≤ leNat (s.mem.bytes.readN pa 8)) →
        (clear → ∃ tick, s.gtick ≤ tick ∧ Steps (.taskCounterReread x.id) s (looked true (some tick))) ∧ (¬ clear → Steps (.taskCounterReread x.id) s (looked true none))) ∧
      ((∃ d ∈ x.deps, ∃ pa, place d pa ∧ leNat (s.mem.bytes.readN pa 8) < d.2) → (∀ d ∈ x.deps, ∃ pa, place d pa) → Steps (.taskCounterReread x.id) s (looked false none))) ∧
    (∀ cl core i (first : Task) (rest : List Task), gathered cl s = first :: rest → clusterOf core = cl → (∀ x ∈ s.tasks, x.formed.isSome = true → x.team.isSome = true) →
      let l := first :: rest
      let g := s.gr first.grid
      let pc := BitVec.ofNat 64 (fieldOf first.bytes 0 8)
      let team := s.nextId
      let serial := (s.cluster cl).serial
      let s0 : State := ({ s with tasks := s.tasks.map (fun (e : Task) => if l.any (fun x => x.id == e.id) then { e with formed := some serial } else e) } : State).setCluster { s.cluster cl with serial := serial + 1 }
      i = .taskTeamForm cl core ∨ (i = .taskGatherTimeout cl core ∧ ∃ e ∈ l, ∃ t, e.since = some t ∧ t + 1024 ≤ s.gtick) →
      (∃ h ∈ s.grids, h.uid = first.grid) →
      (fits core g l.length s = false ∨ preceded g s0 = true → Leads i s s0) ∧
      (∀ b, fits core g l.length s = true → preceded g s0 = false → bankFor core g.fn g.ctx s = some b → (∀ x ∈ s.mem.l1, x.core = core → x.dirty = []) → (∀ d ∈ g.htab, d = 0) →
      let s1 := openCore core b g s0
      let args (k : Nat) : Dword := match l[k]? with | some e => BitVec.ofNat 64 (fieldOf e.bytes 8 8) | none => 0
      LeadsTo i s
        ({ s1 with
            tasks := s0.tasks.map (fun (e : Task) => if l.any (fun x => x.id == e.id) then { e with team := some team } else e)
            teams := s1.teams ++ [startTeam team (2 ^ 31 + serial % 2 ^ 31) (serial % 2 ^ 32) 0xFFFFFFFF 0xFFFFFFFF l.length core b (freeTeamSlot core b s1) g true]
            threads := s1.threads ++ (List.range l.length).map (fun k =>
              startThread (team + 1 + k) team k (nth 0 (freeSlots core b (slotsOf l.length) s1) (k / 32)) 0 pc ([lowWord (args k), highWord (args k), BitVec.ofNat 32 k] ++ List.replicate (g.bregs - 3) 0)) }.modGrid g.uid (fun h => { h with taskTeams := h.taskTeams + 1 }))
        (fun t => ∀ k < l.length, let a := t.thr (team + 1 + k)
          a.team = team ∧ a.tid = k ∧ a.lane = k ∧ a.role = 0 ∧ a.phase = .ready ∧ a.pc = pc ∧ a.rpair 0 = args k ∧ a.rv 2 = BitVec.ofNat 32 k ∧ ∀ r, 3 ≤ r → a.rv r = 0)))

/-- R139, R171, R319: a team whose exit release has completed and that has no engine work left retires: it and its threads are gone, its flags, its TEAMSTAT and its stale count join the grid's, its pins and its view are released, and its tasks are done, a task's increment being added to its counter. R316, R138, R102: at a grid's end a launch with a world requests a keystone once; then the completion record is written at STATUS, and when its release has completed CINC is added to the counter, the grid is gone, and a host launch's queue is told by vector 2 (notes/assumptions 75). -/
def Claims.Retirement : Prop :=
  ∀ (s : State),
    s.Numbered → (s.grids.map Grid.uid).Nodup → s.waits = false →
    (∀ (tm : Team) (r : Release) (base : State), tm ∈ s.teams → tm.exitRel = some r → r.started = true → r.target ≤ s.gtick → tm.saved = none →
      (∀ v ∈ s.threads, v.team = tm.uid → v.lost = []) → (∀ c ∈ s.copies, c.team ≠ tm.uid) → (∀ q ∈ s.reqs, q.team = tm.uid → ∀ u i b a st p pc, q.work ≠ .dispatch u i b a st p pc) →
      (∀ f ∈ s.faults, f.team = tm.uid → f.deferred = false) →
      let g := s.gr tm.grid
      let mine := s.tasks.filter (fun (x : Task) => x.team == some tm.uid)
      let key (o : Task) : Nat × Nat × Nat × List Byte × Option Nat × Option Nat := (o.id, o.grid, o.cluster, o.bytes, o.formed, o.team)
      (∀ x ∈ s.tasks, x.cluster = clusterOf tm.core → x.team ≠ some tm.uid → x.since = none → ∀ d ∈ x.deps, ∃ pa mt leaf, s.Hits (4 * x.cluster) (s.gr x.grid).fn (s.gr x.grid).ctx .read d.1 pa mt leaf) →
      ((∀ x ∈ mine, (fieldOf x.bytes 40 4).testBit 31 = false) ∧ base = s) ∨
        (∃ x pa, mine = [x] ∧ (fieldOf x.bytes 40 4).testBit 31 = true ∧
          let va := fieldOf x.bytes 16 8 + 8 * bitsOf (fieldOf x.bytes 40 4) 30 20
          s.Counts tm.core g.fn g.ctx va pa ∧
          base = s.put pa (leBytes (leNat (s.mem.bytes.readN pa 8) + bitsOf (fieldOf x.bytes 40 4) 19 0) 8)) →
      ∃ tasks, tasks.map key = (s.tasks.filter (fun (x : Task) => x.team != some tm.uid)).map key ∧
        Steps (.teamRetire tm.uid) s
          ({ base with tasks := tasks, worlds := (closeView tm.uid s).worlds, teams := s.teams.filter (fun k => k.uid != tm.uid), threads := s.threads.filter (fun v => v.team != tm.uid) }.modGrid tm.grid (fun g =>
            { g with retired := g.retired + 1, flagWord := g.flagWord ||| tm.flagWord, tstat := g.tstat ||| (tm.teamstat &&& 7), stale := min 0xFFFFFFFF (g.stale + bitsOf tm.teamstat.toNat 15 8) }))
          (fun t => (∀ k ∈ t.teams, k.uid ≠ tm.uid) ∧ (∀ v ∈ t.threads, v.team ≠ tm.uid) ∧ ∀ l ∈ t.mem.l2, ∀ f c va, l.pin ≠ some (f, c, tm.uid, va))) ∧
    (∀ (g : Grid) (pc : Nat), g ∈ s.grids → g.done = false → (∀ m ∈ s.teams, m.grid ≠ g.uid) → (∀ h ∈ s.grids, h.parent ≠ g.uid) →
      g.killed = true ∨ (s.AllOver g.uid ∧ g.flushTick = none ∧ (g.det = true → g.reds = [] ∨ g.ended = true)) → g.lost = [] →
      let i : Instr := .gridRetire g.uid
      let status := g.field 80 8
      let counter := g.field 64 8
      let asks : Prop := g.killed = false ∧ ∃ w, g.world = some w ∧ ∃ x ∈ s.worlds, x.fn = g.fn ∧ x.id = w ∧ (g.uid ∈ x.keyReq ∨ g.uid ∈ x.taken)
      let record := leBytes (if g.killed then 2 else 1) 4 ++ leBytes (g.flagWord.toNat % 32) 4 ++ leBytes g.tstat.toNat 4 ++ leBytes g.stale 4 ++ leBytes g.retired 8 ++ leBytes g.faults 4 ++ leBytes 0 4 ++ leBytes s.gtick 8 ++ leBytes 0 24
      let fin (s : State) : State := (fun (s : State) => if g.queue.isSome = true then s.send (.msix g.fn 2) else s) <| removeGrid g.uid (if counter = 0 then s else s.put pc (leBytes (leNat (s.mem.bytes.readN pc 8) + g.field 72 8) 8))
      (counter ≠ 0 → s.Counts baseDie g.fn g.ctx counter pc) →
      (∀ tick, g.closing = some tick → tick ≤ s.gtick → Steps i s (fin s) (fun t => ∀ h ∈ t.grids, h.uid ≠ g.uid)) ∧
      (g.closing = none → ¬ asks → g.killed = false → g.endKey = false → ∀ w, g.world = some w →
        Leads i s { s.modGrid g.uid (fun g => { g with endKey := true }) with worlds := s.worlds.map (fun (x : World) => if x.fn == g.fn && x.id == w then { x with keyReq := x.keyReq ++ [g.uid] } else x) }) ∧
      (g.closing = none → ¬ asks → (g.killed = true ∨ g.endKey = true ∨ g.world = none) →
        (status = 0 → Steps i s (fin s) (fun t => ∀ h ∈ t.grids, h.uid ≠ g.uid)) ∧
        (∀ pas, status ≠ 0 → s.Open baseDie g.fn g.ctx status 64 pas →
          let written := s.putRange status pas record
          (∃ tick tail, s.gtick < tick ∧ Steps i s (written.modGrid g.uid (fun g => { g with closing := some tick, tail := tail }))) ∨ Steps i s (fin written) (fun t => ∀ h ∈ t.grids, h.uid ≠ g.uid))))

/-- Teams and tasks are placed. Where the spec leaves a choice it follows the model's own, notes/assumptions 1, 31. -/
def Obligations.PlacementSteps : Prop := Claims.Placement ∧ Claims.TaskSteps

/-- Threads, teams and grids retire. Where the spec leaves a choice it follows the model's own, notes/assumptions 17. -/
def Obligations.RetirementSteps : Prop := Claims.Retirement

/-- R313, R331: a core switches banks where the active context's TSLICE has elapsed, where it has no thread that issues or could, or where the other bank has a READY thread of a higher PRIORITY; the other bank has one that may issue. Waves dissolve, the outgoing context's collector entries depart and its dirty lines on the core are written back, and neither bank issues for the 96 cycles of the switch, a number of ticks that the spec does not give (R5). -/
def Claims.Switches : Prop :=
  ∀ (s : State) (core : Nat),
    let c := s.core core
    let inBank (bank : Nat) (t : Thread) (m : Team) : Prop := t ∈ s.threads ∧ m ∈ s.teams ∧ m.uid = t.team ∧ m.core = core ∧ m.saved = none ∧ m.bank = bank
    let ready (bank : Nat) (t : Thread) (m : Team) : Prop := inBank bank t m ∧ t.phase = .ready ∧ t.stopped = none ∧ ∀ h ∈ s.halted, h.1 ≠ (s.gr m.grid).fn
    let base := match (s.bank core c.active).ctx with | some (f, x) => writeBackBank core f x (departContext core f x (dissolve core s)) | none => dissolve core s
    let moved (i : Instr) : Prop :=
      ∃ k, Steps i s (base.setCore { base.core core with active := 1 - c.active, since := base.gtick, switchUntil := base.gtick + k })
        (fun t => (∀ w ∈ t.waves, w.core ≠ core) ∧ ∀ w ∈ s.waves, w.core = core → ∀ u ∈ w.members, (∃ v ∈ s.threads, v.uid = u) → (t.thr u).phase ≠ .issuing) ∧
      ((∀ f x, (s.bank core c.active).ctx = some (f, x) → (∀ e ∈ s.coll, ¬ (e.core = core ∧ e.fn = f ∧ e.ctx = x)) ∧ ∀ l ∈ s.mem.l1, l.core = core → l.fn = f → l.ctx = x → l.dirty = []) →
        Leads i s { s.setCore { s.core core with active := 1 - c.active, since := s.gtick, switchUntil := s.gtick + k } with free := s.free + 1 })
    s.Numbered → c.switchUntil ≤ s.gtick → (∃ t m, ready (1 - c.active) t m) →
    (∀ f x k, (s.bank core c.active).ctx = some (f, x) → s.context? f x = some k → c.since + k.slice ≤ s.gtick → moved (.timeSliceExpiry core)) ∧
    ((∀ t m, inBank c.active t m → ¬ ready c.active t m ∧ (t.stopped = none → t.phase ≠ .issuing ∧ t.phase ≠ .stalled)) ∨
      (∃ t m, ready (1 - c.active) t m ∧ 0 < (s.gr m.grid).priority ∧ ∀ f x, (s.bank core c.active).ctx = some (f, x) → ∀ g ∈ s.grids, g.fn = f → g.ctx = x → g.priority < (s.gr m.grid).priority) →
      moved (.bankSwitch core))

/-- R332, R333, R334, R335: a save takes a bank's teams, or one waiting team, into the lowest free save slot: the header and a record for each thread in the order of grid, team and TID stand in the slot, where they go on showing the threads as they are; a bank's accumulators go with it and the bank is free; a binner request that was interrupted leaves its record at the slot's end; threads and teams keep their data and leave their waves. -/
def Claims.Saves : Prop :=
  ∀ (s : State) (i : Instr) (c : Context) (n core bank : Nat) (leave : List Team) (alone : Bool),
    let uids := leave.map Team.uid
    let base := slotBase c n
    let ths := (sortBy Team.grid (sortBy Team.id leave)).flatMap (fun m => sortBy Thread.tid (s.threads.filter (fun t => t.team == m.uid)))
    let mine := s.bins.filter (fun x => uids.contains x.team && !x.record.isEmpty)
    let last (k : Nat) := base + 0x600000 - 0x800 * (k + 1)
    let place (k : Nat) := base + 0x100 + 640 * k
    s.Numbered → s.Canonical → s.context? c.fn c.ctx = some c → freeSaveSlot c s = some n →
    (i = .bankSave core bank ∧ bank < 2 ∧ alone = false ∧ leave = s.teams.filter (fun (m : Team) => m.core == core && m.saved.isNone && m.bank == bank) ∧ leave ≠ [] ∧
        (s.bank core bank).ctx = some (c.fn, c.ctx) ∧ saveAsked core bank c.fn c.ctx s = true ∧ ∀ e ∈ s.coll, ¬ (e.core = core ∧ e.fn = c.fn ∧ e.ctx = c.ctx)) ∨
      (∃ m h, i = .teamSave m.uid ∧ alone = true ∧ leave = [m] ∧ m ∈ s.teams ∧ m.core = core ∧ m.saved = none ∧ (s.gr m.grid).fn = c.fn ∧ (s.gr m.grid).ctx = c.ctx ∧ teamIdle m.uid s = true ∧
        h ∈ waiters s ∧ (s.gr m.grid).priority ≤ (h.grid s).priority ∧ h.fits core s = false ∧ h.fits core { s with teams := s.teams.filter (fun (k : Team) => k.uid != m.uid) } = true ∧
        ∀ t ∈ ths, t.phase = .parked .ctrWait → ∃ pa mt leaf, s.Hits core c.fn c.ctx .read t.wait.addr pa mt leaf) →
    pastDeadline (clusterOf core) s = false → saveWaits core c.fn c.ctx uids s = false → liveSpace c.fn c.ctx (clusterOf core) s = none → (∀ x ∈ s.mem.l1, x.team ∈ uids → x.dirty = []) →
    s.physOk c.fn base 16 = true → (∀ k < ths.length, s.physOk c.fn (place k) 640 = true) → s.Plain base (0x100 + 640 * ths.length) →
    (mine.map BinReq.id).Nodup → (∀ k x, mine[k]? = some x → x.record.length = 2048 ∧ s.physOk c.fn (last k) 2048 = true ∧ s.Plain (last k) 2048 ∧ place ths.length ≤ last k) →
    (∀ a, base ≤ a → a < base + 0x600000 → ¬ s.inImage a) →
    let b := s.bank core bank
    let s1 : State := { s with
      threads := s.threads.map (fun (t : Thread) => match ths.findIdx? (fun v => v.uid == t.uid) with | some k => { t with imageAt := place k, image := threadRecord s t } | none => t)
      bins := s.bins.map (fun (x : BinReq) => if uids.contains x.team then { x with saved := true, recordAt := (match mine.findIdx? (fun y => y.id == x.id) with | some k => last k | none => x.recordAt) } else x) }
    let slotted (tick : Nat) : State := { s1 with
      slots := s.slots ++ [(⟨c.fn, c.ctx, n, alone, uids, none, if alone then [] else b.acc, if alone then [] else b.accPoison, tick⟩ : SaveSlot)] }
    let s2 (tick : Nat) : State := if alone then slotted tick else (slotted tick).setBank core bank Bank.reset
    ∃ tick, s.gtick ≤ tick ∧ Steps i s ((mine.zip (List.range mine.length)).foldl (fun (s : State) p => s.put (last p.2) p.1.record)
      ((s2 tick).put base (leBytes (if alone then 2 else 1) 4 ++ leBytes ths.length 4 ++ leBytes s.gtick 8))) (fun t =>
      (∀ k ∈ uids, (t.tm k).saved = some n) ∧ (∀ w ∈ t.waves, ∀ u ∈ w.members, (t.thr u).team ∉ uids) ∧
      ∀ k u, ths[k]? = some u → t.mem.bytes.readN (place k) 640 = threadRecord t (t.thr u.uid))

/-- R310, R314, R333, R335: a saved context or team comes back on a core of its partition where it fits: its threads take new slots of their lanes, and a STOPPED or FAULTED thread takes what its record in memory now holds; a bank's accumulators come back; its binner requests queue on the core's cluster, one whose resume record was modified with ENGINE_FAULT (R304); where no earlier grid's team comes first, the save slot is free and its header 0. A record altered in another way kills the context. -/
def Claims.Restores : Prop :=
  ∀ (s : State) (x : SaveSlot) (k core b team : Nat) (rest : List Nat) (c : Context),
    let i : Instr := .contextRestore k core
    let back (t : Thread) : Bool := x.teams.contains t.team
    let now (t : Thread) : List Byte := s.mem.bytes.readN t.imageAt 640
    let fine (t : Thread) : Prop := recordDiffOk t t.image (now t) = true ∧ fieldOf (now t) 512 8 % 4 = 0
    s.Numbered → (s.grids.map Grid.uid).Nodup → s.slots[k]? = some x → x.teams = team :: rest → (∀ u ∈ x.teams, (∃ m ∈ s.teams, m.uid = u) ∧ (s.tm u).saved.isSome = true) → x.teams.Nodup →
    (x.team = true → ∃ u ∈ x.teams, resumable u s = true) → preceded ((Waiter.slot x).grid s) s = false → core < 512 → inPartition x.fn (clusterOf core) s = true →
    bankFor core x.fn x.ctx s = some b → (x.team = false → (s.bank core b).ctx = none) → fitTogether core (some b) x.teams s = true → spacePermits x core s = true → detPermits x core s = true →
    (∀ l ∈ s.mem.l1, l.core = core → l.dirty = []) → (∀ n p, x.space = some n → s.space? n = some p → p.cluster ≠ none) →
    s.context? x.fn x.ctx = some c → s.physOk x.fn (slotBase c x.slot) 4 = true → s.Plain (slotBase c x.slot) 4 →
    let s1 := openCore core b (s.gr (s.tm team).grid) { s with threads := s.threads.map (fun (t : Thread) =>
      if back t then { (if now t = t.image then t else t.ofRecord (now t)) with imageAt := 0, image := [] } else t) }
    let s2 : State := { s1 with
      slots := s.slots.filter (· != x)
      reqs := s.reqs.map (fun (r : Req) => if x.teams.contains r.team then { r with core := core } else r)
      bins := s.bins.map (fun (r : BinReq) => if x.teams.contains r.team then
        let r' := { r with cluster := clusterOf core, saved := false, recordAt := 0 }
        if r.recordAt = 0 ∨ s.mem.bytes.readN r.recordAt 2048 = r.record then r' else { r' with record := [], fault := some (.engineFault, { kind := accLoad }) }
      else r)
      grids := s.grids.map (fun (g : Grid) => if g.det then { g with lmap := x.teams.foldl (fun l u =>
        let m := s.tm u
        if m.grid == g.uid && !m.task then setNth 0 l (m.id % g.ncores) (core + 1) else l) g.lmap } else g) }
    let s3 := if x.team then s2 else s2.setBank core b { s2.bank core b with acc := x.acc, accPoison := x.accPoison }
    ((∀ t ∈ s.threads, back t = true → fine t) →
      Steps i s (s3.put (slotBase c x.slot) (leBytes 0 4)) (fun t =>
        (∀ u ∈ x.teams, (t.tm u).core = core ∧ (t.tm u).bank = b ∧ (t.tm u).saved = none) ∧ ∀ v ∈ s.threads, back v = true → (t.thr v.uid).image = [] ∧ (t.thr v.uid).lane = v.lane)) ∧
    ((∃ t ∈ s.threads, back t = true ∧ ¬ fine t) → ∃ t, exec i s = .next t ∧ s.Gone t x.fn x.ctx)

/-- Banks switch, are saved and restored. Where the spec leaves a choice it follows the model's own, notes/assumptions 6, 31, 32. -/
def Obligations.SavesAndRestores : Prop := Claims.Switches ∧ Claims.Saves ∧ Claims.Restores

/-- R342, R343: VFKILL with GO kills every context of the function it names, no other function's state changes, and GO reads 0 again; without GO, or for a value above 16, it kills nothing. -/
def Claims.Vfkill : Prop :=
  ∀ (s : State) (v : Word),
    let f := v.toNat % 32
    let s1 := s.setReg 0 true 0x1200 (BitVec.ofNat 64 f)
    s.Numbered → (s.grids.map Grid.uid).Nodup → (s.faults.map FaultRec.id).Nodup →
    (v.getLsbD 31 = false ∨ 16 < f → Leads (.vfkill v) s s1) ∧
    (v.getLsbD 31 = true → f ≤ 16 → ∃ t, exec (.vfkill v) s = .next t ∧ (t.reg 0 true 0x1200).toNat = f ∧
      (∀ c ∈ s.contexts, c.fn = f → (s.ctxLive f c.ctx = true ∨ ∃ q ∈ s.queues, q.fn = f ∧ q.ctxId = c.ctx ∧ q.admitted = true ∧ q.held = false) → s.Gone t f c.ctx) ∧ s.Spares t f (fun ctx => ∃ c ∈ s.contexts, c.fn = f ∧ c.ctx = ctx))

/-- R325, R327: the oldest waiting fault record of a context whose instruction can name no more threads is written while FTAIL − FHEAD is below 256, FTAIL advances, and after the release FCTR is added to and the interrupt signalled. R224, R328: the same of a service record, with a block of 32 bytes for each lane. -/
def Claims.RingWrites : Prop :=
  ∀ (s : State) (fn ctx : Nat) (c : Context), s.context? fn ctx = some c → (s.faults.map FaultRec.id).Nodup → (s.services.map SvcRec.id).Nodup →
    let signal (i : Instr) (pa vector : Nat) (f : Context → Context) : Prop := (regionOf pa).local = true → s.Takes pa 8 →
      Steps i s (((s.put pa (leBytes (leNat (s.mem.bytes.readN pa 8) + 1) 8)).modCtx fn ctx f).send (.msix fn vector))
    (∀ tick, c.fpost = some tick → tick ≤ s.gtick → signal (.faultRecordWrite fn ctx) (c.imageArea + 8) 0 (fun c => { c with fpost := none })) ∧
    (∀ tick, c.spost = some tick → tick ≤ s.gtick → signal (.serviceRecordWrite fn ctx) (c.sring + 8) 1 (fun c => { c with spost := none })) ∧
    (∀ (r : FaultRec) (h : List Byte), c.fpost = none → s.faults.find? (fun r => r.fn == fn && r.ctx == ctx && r.written.isNone) = some r → recordOpen r s = false →
      s.Phys fn (c.imageArea + 4) 4 h → (c.seq + 2 ^ 32 - leNat h) % 2 ^ 32 < 256 →
      let pa := c.imageArea + 0x1000 + 128 * (c.seq % 256)
      s.physOk fn pa 128 = true → s.Plain pa 128 → s.physOk fn c.imageArea 4 = true → s.Plain c.imageArea 4 →
      let record := leBytes r.cause.code 2 ++ leBytes r.detail.kind 2 ++ leBytes (r.ctx + r.fn * 2 ^ 12) 4 ++ leBytes r.fpc.toNat 8 ++ leBytes r.spc.toNat 8 ++
        leBytes r.mask.toNat 4 ++ leBytes r.teamId 4 ++ leBytes r.gridId 4 ++ leBytes ((c.seq + 1) % 2 ^ 32) 4 ++ leBytes r.detail.addr 8 ++ leBytes r.detail.prog 8 ++
        leBytes r.tick 8 ++ leBytes r.detail.aux 8 ++ leBytes r.state 4 ++ leBytes r.loc 4 ++ leBytes (if r.wide then 1 else 0) 4 ++ leBytes r.threads.length 4 ++ leBytes 0 40
      ∃ tw, s.gtick ≤ tw ∧ Steps (.faultRecordWrite fn ctx) s ({ (s.put pa record).put c.imageArea (leBytes (c.seq + 1) 4) with
        faults := if r.state = 0 then s.faults.map (fun (q : FaultRec) => if q.id = r.id then { q with written := some c.seq } else q) else s.faults.filter (fun q => q.id != r.id) }.modCtx fn ctx
          (fun c => { c with seq := c.seq + 1, fpost := some tw }))) ∧
    (∀ (r : SvcRec) (h : List Byte), c.spost = none → s.services.find? (fun r => r.fn == fn && r.ctx == ctx && r.written.isNone) = some r → s.Phys fn c.sring 8 h →
      let n := fieldOf h 0 4
      let slots := max 1 (fieldOf c.desc 40 4)
      let pa := c.sring + 64 + 1088 * (n % slots)
      (n + 2 ^ 32 - fieldOf h 4 4) % 2 ^ 32 < slots →
      s.physOk fn pa 64 = true → (∀ l ∈ r.lanes, l.1 < 32 ∧ l.2.2.2.length = 8 ∧ s.physOk fn (pa + 64 + 32 * l.1) 32 = true) → s.Plain pa 1088 → s.physOk fn c.sring 4 = true →
      ∃ tick, s.gtick ≤ tick ∧
      let header := leBytes r.ctx 4 ++ leBytes r.teamId 4 ++ leBytes r.gridId 4 ++ leBytes r.code 4 ++ leBytes (r.lanes.foldl (fun m l => m + 2 ^ l.1) 0) 4 ++ leBytes 0 4 ++
        leBytes r.pc.toNat 8 ++ leBytes tick 8 ++ leBytes 0 24
      let blocks := r.lanes.foldl (fun (s : State) l => s.put (pa + 64 + 32 * l.1) (l.2.2.2.flatMap (fun w => leBytes w.toNat 4))) (s.put pa header)
      ∃ tw, s.gtick ≤ tw ∧ Steps (.serviceRecordWrite fn ctx) s ({ blocks.put c.sring (leBytes (n + 1) 4) with
        services := s.services.map (fun (q : SvcRec) => if q.id = r.id then { q with written := some n } else q) }.modCtx fn ctx (fun c => { c with spost := some tw })))

/-- R329, R330, R382, Table 15.6: an action through the FSVC registers on the record they name. An address that is no record, a record that is not open, and an action the record does not accept change FSVC_STAT alone. RETRY of a precise fault makes its threads READY at SPC, SKIP at the instruction after FPC; where another open record names one, it stays FAULTED over that. The record takes STATE 1. KILL kills the context. ANSWER 1 loads the blocks of a service record and its threads go on past the TRAP. -/
def Claims.FaultService : Prop :=
  ∀ (s : State) (fn : Nat), fn ≤ 16 → s.Numbered → s.Canonical → (s.grids.map Grid.uid).Nodup → (s.faults.map FaultRec.id).Nodup →
    let pa := bitsOf (s.reg fn false 0x500).toNat 51 6 * 64
    let act (k : Nat) : Instr := match k with | 0 => .fsvcRetry fn | 1 => .fsvcSkip fn | 2 => .fsvcKill fn | _ => .fsvcAnswer fn
    let answered (s : State) (k code : Nat) : State := (s.setReg fn false 0x508 (BitVec.ofNat 64 k)).setReg fn false 0x50C (BitVec.ofNat 64 (2 ^ 31 + (if code = 0 then 0 else 2 ^ 30 + code)))
    (∀ k < 4,
      ((∀ c ∈ s.contexts, c.fn = fn → (∀ n, recordPa c n ≠ pa) ∧ ∀ n, servicePa c n ≠ pa) → Leads (act k) s (answered s k 1)) ∧
      (∀ c ∈ s.contexts, ∀ n, c.fn = fn → n < 256 → n < c.seq → recordPa c n = pa →
        (∀ r ∈ s.faults, r.fn = fn → ∀ m d, r.written = some m → s.context? fn r.ctx = some d → recordPa d m ≠ pa) →
        (∀ r ∈ s.services, r.fn = fn → ∀ m d, r.written = some m → s.context? fn r.ctx = some d → servicePa d m ≠ pa) → Leads (act k) s (answered s k 2)) ∧
      (∀ r, recordAt fn pa s = .faultRec r → accepts r k s = false → Leads (act k) s (answered s k 3))) ∧
    (∀ (r : FaultRec) (c : Context) (n k : Nat), recordAt fn pa s = .faultRec r → r.written = some n → s.context? fn r.ctx = some c → k < 2 → accepts r k s = true → r.threads.Nodup →
      r.deferred = false → r.threads ≠ [] → bindRecord r = false → r.cause ≠ .watchdog → r.cause ≠ .fenceLost → (k = 0 → r.cause ≠ .promiseMissed) →
      s.physOk fn (pa + 72) 4 = true → s.Plain (pa + 72) 4 →
      let written := ({ s with faults := s.faults.filter (fun q => q.id != r.id) } : State).put (pa + 72) (leBytes 1 4)
      let named (u : Nat) : Prop := ∃ q ∈ s.faults, q.id ≠ r.id ∧ q.state = 0 ∧ u ∈ q.threads ∧ q.cause ≠ .brk ∧ q.cause ≠ .step
      let goal (u : Nat) (pc : Dword) : Prop := if k = 0 then pc = (if r.wide then (s.thr u).pc else r.spc) else ∃ m, skipTo r u s = some m ∧ pc = BitVec.ofNat 64 m
      Steps (act k) s (answered (r.threads.foldl (fun s u => absorb u s) written) k 0) (fun t => ∀ u ∈ r.threads, (s.thr u).phase = .faulted → (s.thr u).image = [] →
        goal u (t.thr u).pc ∧ (named u → (t.thr u).phase = .faulted ∧ (t.thr u).under = .ready) ∧ (¬ named u → (t.thr u).phase = .ready))) ∧
    (∀ r, recordAt fn pa s = .faultRec r → accepts r 2 s = true → ∃ t, exec (.fsvcKill fn) s = .next t ∧ (t.reg fn false 0x50C).toNat = 2 ^ 31 ∧ s.Gone t r.fn r.ctx ∧ s.Spares t r.fn (fun x => x = r.ctx)) ∧
    (∀ r, recordAt fn pa s = .svcRec r pa → ∃ t, exec (.fsvcKill fn) s = .next t ∧ (t.reg fn false 0x50C).toNat = 2 ^ 31 ∧ s.Gone t r.fn r.ctx ∧ s.Spares t r.fn (fun x => x = r.ctx)) ∧
    (∀ (r : SvcRec) (b : List Byte), recordAt fn pa s = .svcRec r pa → b = s.mem.bytes.readN pa 1088 → s.Plain pa 1088 → fieldOf b 20 4 = 1 → r.fn = fn →
      (r.lanes.map (fun l => l.2.1)).Nodup → (∀ l ∈ r.lanes, l.1 < 32 ∧ (s.thr l.2.1).phase = .parked .service ∧ ∃ t ∈ s.threads, t.uid = l.2.1) →
      let load (t : Thread) : Thread := match r.lanes.find? (fun l => l.2.1 == t.uid) with
        | some l => (List.range 8).foldl (fun (t : Thread) k => t.wv (l.2.2.1 + k) (BitVec.ofNat 32 (fieldOf b (64 + 32 * l.1 + 4 * k) 4))) t
        | none => t
      Steps (.fsvcAnswer fn) s (answered { s with services := s.services.filter (fun q => q.id != r.id), threads := s.threads.map load } 3 0)
        (fun t => ∀ l ∈ r.lanes, (t.thr l.2.1).phase = .ready ∧ (t.thr l.2.1).pc = (s.thr l.2.1).npc))

/-- R336, R337: a thread whose next instruction lies at an armed breakpoint stops before it, with those of its team that reach it in its wave, and one BREAK record names them with KIND 0x40 + n and both PCs at the address. R338: RELEASE, STEP and HALT act on the threads of DBGTEAM in the context, a command that matches none sets ERR, and SAVE saves the context's banks. All data stays. -/
def Claims.Debug : Prop :=
  ∀ (s : State) (fn : Nat) (v : Word), s.Numbered → (∀ t ∈ s.threads, t.image = [] ∧ t.lane < 32 ∧ ∃ m ∈ s.teams, m.uid = t.team) →
    let ctx := bitsOf v.toNat 23 12
    let picked (t : Thread) : Prop := t ∈ s.threads ∧ t.phase ≠ .exited ∧ ∃ m ∈ s.teams, m.uid = t.team ∧ (s.gr m.grid).fn = fn ∧ (s.gr m.grid).ctx = ctx ∧
      ((s.reg fn false 0x684).toNat = 0xFFFFFFFF ∨ m.id = (s.reg fn false 0x684).toNat)
    let answered (s : State) (op : Nat) (err : Bool) : State :=
      (s.setReg fn false 0x680 (BitVec.ofNat 64 (op * 2 ^ 28 + ctx * 2 ^ 12))).setReg fn false 0x690 (BitVec.ofNat 64 (2 ^ 31 + (if err then 2 ^ 30 else 0)))
    ((∀ t, ¬ picked t) → Leads (.dbgRelease fn v) s (answered s 1 true) ∧ Leads (.dbgStep fn v) s (answered s 2 true) ∧ Leads (.dbgHalt fn v) s (answered s 3 true) ∧ Leads (.dbgSave fn v) s (answered s 4 true)) ∧
    (∀ t, picked t →
      LeadsTo (.dbgRelease fn v) s (answered s 1 false) (fun s' => (s'.thr t.uid).stopped = none) ∧
      LeadsTo (.dbgHalt fn v) s (answered s 3 false) (fun s' => (t.stopped = none → t.phase ≠ .faulted → (s'.thr t.uid).stopped = some .dbgstop) ∧ ∀ w ∈ s'.waves, t.uid ∉ w.members) ∧
      Leads (.dbgSave fn v) s
        (let banks (s : State) : List (Nat × Nat) := s.cores.flatMap (fun c => ((List.range 2).filter (fun b => (s.bank c.core b).ctx == some (fn, ctx))).map (fun b => (c.core, b)))
         let s1 := (banks s).foldl (fun s p => (saveBank p.1 p.2 s).getD s) s
         if !(banks s1).isEmpty && (match s1.context? fn ctx with | some c => (freeSaveSlot c s1).isSome | none => false) then
           (s1.setReg fn false 0x690 0).setReg fn false 0x680 (BitVec.ofNat 64 (2 ^ 31 + 4 * 2 ^ 28 + ctx * 2 ^ 12)) else answered s1 4 false)) ∧
    (∀ t, (let ready (t : Thread) : Prop := picked t ∧ t.stopped.isSome = true ∧ t.phase = .ready ∧ t.pc = s.reg fn false 0x688 ∧ (s.tm t.team).saved = none
      ready t ∧ (∀ q, ready q → t.tid * 64 + t.slot < q.tid * 64 + q.slot ∨ q = t) ∧ (∀ h ∈ s.halted, h.1 ≠ fn) ∧
        (s.core (s.tm t.team).core).switchUntil ≤ s.gtick ∧ (s.core (s.tm t.team).core).active = (s.tm t.team).bank ∧ (∃ k < 2, ∀ w ∈ s.waves, w.core = (s.tm t.team).core → w.slot ≠ k)) →
      LeadsTo (.dbgStep fn v) s (answered s 2 false) (fun s' => (s'.thr t.uid).stopped = none ∧ (s'.thr t.uid).phase = .issuing ∧ (s'.thr t.uid).step = true ∧
        ∃ w, s'.waves = w :: s.waves ∧ t.uid ∈ w.members ∧ w.core = (s.tm t.team).core ∧ ∀ u ∈ w.members, ∃ q, picked q ∧ q.uid = u ∧ q.pc = t.pc ∧
          (s.tm q.team).core = (s.tm t.team).core ∧ (s.tm q.team).bank = (s.tm t.team).bank ∧ (s.gridOf u).entry = (s.gridOf t.uid).entry)) ∧
    (∀ (th n : Nat), atBreakpoint th s = some n → (∃ t ∈ s.threads, t.uid = th) →
      let pc := (s.thr th).pc
      let us (u : Nat) : Prop := match s.waves.find? (fun w => w.members.contains th) with | some w => u ∈ w.members ∧ (s.thr u).team = (s.thr th).team ∧ (atBreakpoint u s).isSome = true | none => u = th
      (∀ u, us u → (∃ t ∈ s.threads, t.uid = u) ∧ (s.thr u).pc = pc) →
      LeadsTo (.breakpointHit th) s s (fun t => (∀ u, us u → (t.thr u).stopped = some .brk ∧ (t.thr u).pc = pc) ∧
        ∃ r ∈ t.faults.drop s.faults.length, r.cause = .brk ∧ r.detail.kind = 0x40 + n ∧ r.fpc = pc ∧ r.spc = pc ∧ r.team = (s.thr th).team ∧ ∀ u, u ∈ r.threads ↔ us u))

/-- R339: where a team has not issued for WDOG ticks (at least 1,000,000), its live threads are FAULTED with one WATCHDOG record. R340, R134, R135: a correctable error changes nothing; an uncorrectable one poisons the register, the scratchpad byte, the L1 line, the line of memory, the accumulator tile or the tile's part it strikes, loses the accepted writes to it that lie ahead, drops a cached entry, or kills the owning context. -/
def Claims.SoftErrors : Prop :=
  ∀ (s : State), s.Numbered →
    let ahead (line : Nat) (tail : List (Nat × Nat)) : Prop := ∃ tw, (line, tw) ∈ tail ∧ s.gtick < tw
    let struck (line : Nat) : State := { s with
      mem := { s.mem with poison := line :: s.mem.poison.filter (· ≠ line) }
      grids := s.grids.map (fun (g : Grid) => if g.tail.any (fun w => w.1 == line && decide (s.gtick < w.2)) then { g with lost := line :: g.lost.filter (· ≠ line) } else g)
      worlds := s.worlds.map (fun (w : World) => if w.running && s.keyTail.any (fun k => k.1 == w.fn && k.2.1 == w.id && k.2.2.1 == line && decide (s.gtick < k.2.2.2)) then { w with lost := true } else w) }
    let lost (line : Nat) (t : State) : Prop := line ∈ t.mem.poison ∧ ∀ u ∈ s.threads, ahead line (u.tail.map (fun w => (w.1, w.2.1))) → ∃ va, (∃ tw, (line, tw, va) ∈ u.tail) ∧ va ∈ (t.thr u.uid).lost
    (∀ (m : Team) (g : Grid), m ∈ s.teams → s.gr m.grid = g →
      let w := (s.reg g.fn false 0x700).toNat
      w ≠ 0 → max w 1000000 ≤ m.watch → watchCounts s m = true →
      LeadsTo (.watchdog m.uid) s s (fun t => (∀ u ∈ s.threads, u.team = m.uid → u.phase ≠ .exited → (t.thr u.uid).phase = .faulted ∧ (u.phase ≠ .barrier → (t.thr u.uid).under = (if u.phase = .issuing then .ready else u.phase))) ∧
        ∃ r ∈ t.faults.drop s.faults.length, r.cause = .watchdog ∧ r.wide = true ∧ r.team = m.uid ∧ ∀ u ∈ s.threads, u.team = m.uid → u.phase ≠ .exited → u.uid ∈ r.threads)) ∧
    Leads .correctableError s s ∧ Steps (.uncorrectableError .cached) s s ∧
    (∀ th r, (∃ t ∈ s.threads, t.uid = th ∧ r < t.owned) →
      Leads (.uncorrectableError (.vreg th r)) s (s.modThr th (fun t => { t with poison := if r ∈ t.poison then t.poison else r :: t.poison }))) ∧
    (∀ m o, (∃ t ∈ s.teams, t.uid = m ∧ o < t.scratchSize) →
      LeadsTo (.uncorrectableError (.scratch m o)) s (s.modTeam m (fun t => { t with scratchPoison := o :: t.scratchPoison.filter (· ≠ o) })) (fun t => o ∈ (t.tm m).scratchPoison)) ∧
    (∀ pa, s.backedLocal pa = true → LeadsTo (.uncorrectableError (.line pa)) s (struck (pa / 128)) (fun t => lost (pa / 128) t)) ∧
    (∀ core fn ctx va x, s.l1? core fn ctx (va / 128) = some x → LeadsTo (.uncorrectableError (.l1line core fn ctx va)) s
      (s.setL1 { x with copy := x.copy.map (fun c => (c.1, c.2.1, c.2.2.1, true)), dirtyPoison := !x.dirty.isEmpty })
      (fun t => ∃ y, t.l1? core fn ctx (va / 128) = some y ∧ (∀ c, y.copy = some c → c.2.2.2 = true) ∧ (y.dirty ≠ [] → y.dirtyPoison = true) ∧ y.dirty = x.dirty)) ∧
    (∀ core b tile, core < 512 → b < 2 → tile < 16 → LeadsTo (.uncorrectableError (.accTile core b tile)) s
      (s.setBank core b { s.bank core b with accPoison := tile :: (s.bank core b).accPoison.filter (· ≠ tile) }) (fun t => tile ∈ (t.bank core b).accPoison ∧ (t.bank core b).acc = (s.bank core b).acc)) ∧
    (∀ sp name part, Leads (.uncorrectableError (.tilePart sp name part)) s { s with spaces := s.spaces.map (fun (x : Space) => if x.id ≠ sp then x else
      { x with names := x.names.map (fun (n : TileName) => if n.name = name ∧ part ∈ n.parts then { n with poison := part :: n.poison.filter (· ≠ part) } else n) }) }) ∧
    (∀ th line tw va, ((s.thr th).tail.filter (fun w => decide (s.gtick < w.2.1))).head? = some (line, tw, va) → (∃ t ∈ s.threads, t.uid = th) →
      LeadsTo (.uncorrectableError (.lostWrite th)) s (struck line) (fun t => va ∈ (t.thr th).lost ∧ lost line t)) ∧
    (∀ th line tw, (∀ w ∈ (s.thr th).tail, w.2.1 ≤ s.gtick) → ((s.gr th).tail.filter (fun w => decide (s.gtick < w.2))).head? = some (line, tw) →
      LeadsTo (.uncorrectableError (.lostWrite th)) s (struck line) (fun t => lost line t)) ∧
    (∀ fn w x, s.world? fn w = some x → x.running = true → s.gtick < x.maxTw → Leads (.uncorrectableError (.lostKeystone fn w)) s (s.setWorld { x with lost := true })) ∧
    (∀ fn ctx, (s.grids.map Grid.uid).Nodup → (s.faults.map FaultRec.id).Nodup → s.ctxLive fn ctx = true →
      ∃ t, exec (.uncorrectableError (.control fn ctx)) s = .next t ∧ s.Gone t fn ctx ∧ s.Spares t fn (fun x => x = ctx) ∧ ∃ r ∈ t.faults, r.cause = .engineFault ∧ r.fn = fn ∧ r.ctx = ctx ∧ r.state = 2)

/-- VFKILL kills the contexts of one function and touches no other. -/
def Obligations.FunctionKill : Prop := Claims.Vfkill

/-- Fault and service records are written, and FSVC acts on them. Where the spec leaves a choice it follows the model's own, notes/assumptions 29, 42. -/
def Obligations.FaultRing : Prop := Claims.RingWrites ∧ Claims.FaultService

/-- Debug commands, breakpoints, the watchdog and soft errors. Where the spec leaves a choice it follows the model's own, notes/assumptions 36, 43, 44. -/
def Obligations.DebugAndErrors : Prop := Claims.Debug ∧ Claims.SoftErrors

/-- R37, R38, R39: a write of XINV_CTL with GO drops the cached translations, walk entries and ATC entries and the clean L1 lines that the command covers, revokes the pins there; once no access outside the collector that translated before is outstanding DONE and XINV_TICK are written. A malformed command sets ERR at once; a write while one is under way is ignored. R41: a host's invalidation drops the ATC's entries of the range once no access that they translated is outstanding. -/
def Claims.Shootdowns : Prop :=
  ∀ (s : State) (fn : Nat) (v : Word), fn ≤ 16 →
    let f := addressed fn v
    let scope := bitsOf v.toNat 9 8
    let size := match bitsOf v.toNat 11 10 with | 0 => 0x1000 | 1 => 0x10000 | 2 => 0x200000 | _ => 0x40000000
    let va := (s.reg fn false 0x400).toNat
    let kept := Nat.land v.toNat (if fn = 0 then 0x1FFFFFFF else 0xFFFFFF)
    let held := s.setReg fn false 0x408 (BitVec.ofNat 64 kept)
    let bad : Prop := 16 < f ∨ scope = 3 ∨ (scope = 0 ∧ va % size ≠ 0)
    let clean (x : Shoot) (t : State) : Prop := (∀ e ∈ t.mem.tlb, x.covers e.fn e.ctx e.va e.size = false) ∧ (∀ e ∈ t.mem.walk, e.fn ≠ x.fn) ∧
      (∀ l ∈ t.mem.l1, l.dirty = [] → x.covers l.fn l.ctx (l.line * 128) 128 = false) ∧
      ∀ l ∈ s.mem.l2, ∀ f c k va, l.pin = some (f, c, k, va) → x.covers f c (va * 128) 128 = true → (∃ m ∈ s.teams, m.uid = k) → (t.tm k).pinRevoked = true
    ((s.reg fn false 0x408).getLsbD 31 = true → Leads (.xinvGo fn v) s s) ∧
    ((s.reg fn false 0x408).getLsbD 31 = false →
      (v.getLsbD 31 = false → Leads (.xinvGo fn v) s held) ∧
      (v.getLsbD 31 = true → bad → Leads (.xinvGo fn v) s ((held.setReg fn false 0x40C 0xC0000000).setReg fn false 0x410 (BitVec.ofNat 64 s.gtick))) ∧
      (v.getLsbD 31 = true → ¬ bad →
        let x : Shoot := ⟨some fn, f, bitsOf v.toNat 23 12, scope, va, (bitsOf v.toNat 7 0 + 1) * size, s.nextId⟩
        (∀ e ∈ s.coll, x.covers e.fn e.ctx (e.line * 128) 128 = false) →
        LeadsTo (.xinvGo fn v) s { shootNow x ((s.setReg fn false 0x40C 0).setReg fn false 0x408 (BitVec.ofNat 64 (2 ^ 31 + kept))) with shoots := s.shoots ++ [x] } (clean x))) ∧
    (∀ x, s.shoots.find? (fun x => x.page == some fn) = some x → (∀ q ∈ s.reqs, q.id < x.id → q.covered x s = false) →
      LeadsTo (.shootdownDone fn) s ((((shootNow x { s with shoots := s.shoots.filter (fun y => y.id != x.id) }).setReg fn false 0x408 (BitVec.ofNat 64 (bitsOf (s.reg fn false 0x408).toNat 30 0))).setReg
        fn false 0x40C 0x80000000).setReg fn false 0x410 (BitVec.ofNat 64 s.gtick)) (clean x)) ∧
    (∀ ctx at' len,
      let hits (pa n : Nat) : Bool := overlaps pa n (0x8000000000000 + at') len
      (∀ q ∈ s.allReqs, q.ats = 0 → (s.gr (s.tm q.team).grid).fn = fn → (s.gr (s.tm q.team).grid).ctx = ctx → ∀ va pa mt, .glob va pa mt ∈ q.work.places → 2 ≤ mt → regionOf pa = .host → hits pa 16 = false) →
      Leads (.hostInvalidationRequest fn ctx at' len) s { s with mem := { s.mem with atc := s.mem.atc.filter (fun a => !(a.1 == fn && a.2.1 == ctx && hits (a.2.2 * 4096) 4096)) } })

/-- R32, R34: a write of MIG_CTL with GO locks the page, or refuses: ERR and STATUS say why, a malformed command (4), no such page of the device (2), no room at the destination (3), a destination the function does not own (1), and nothing else changes. Once the reads that translated at the source are done, the destination holds the page's bytes, its leaf names the destination, no cached translation of it is left, waiting writes perform there, the threads parked for it go on, and DONE is set. -/
def Claims.Migrations : Prop :=
  ∀ (s : State) (fn : Nat) (v : Word), fn ≤ 16 →
    let f := addressed fn v
    let ctx := bitsOf v.toNat 23 12
    let size := match bitsOf v.toNat 11 10 with | 0 => 0x1000 | 1 => 0x10000 | 2 => 0x200000 | _ => 0x40000000
    let va := (s.reg fn false 0x440).toNat
    let dst := bitsOf (s.reg fn false 0x448).toNat 51 12 * 4096
    let kept := Nat.land v.toNat (if fn = 0 then 0x1FFFFC00 else 0xFFFC00)
    let held := s.setReg fn false 0x450 (BitVec.ofNat 64 kept)
    let go (s' : State) : Prop := Leads (.migrate fn v) s s'
    let refused (n : Nat) : Prop := go (held.setReg fn false 0x454 (BitVec.ofNat 64 (2 ^ 30 + n)))
    let malformed : Prop := bitsOf v.toNat 30 29 ≠ 0 ∨ bitsOf v.toNat 9 0 ≠ 0 ∨ 16 < f ∨ va % size ≠ 0 ∨ dst % size ≠ 0
    let takes : Prop := s.backedLocal dst = true ∧ (match regionOf dst with | .hbm | .lpddr => True | .deck _ => size ≠ 0x40000000 | _ => False)
    ((s.reg fn false 0x450).getLsbD 31 = true → go s) ∧
    ((s.reg fn false 0x450).getLsbD 31 = false →
      (v.getLsbD 31 = false → go held) ∧
      (v.getLsbD 31 = true → malformed → refused 4) ∧
      (v.getLsbD 31 = true → ¬ malformed → s.context? f ctx = none ∨ canonical va = false → refused 2) ∧
      (∀ c k, v.getLsbD 31 = true → ¬ malformed → (s.context? f ctx).isSome = true → canonical va = true → (walk f ctx va held).2 = .bad c k → refused 2) ∧
      (∀ e n pa, v.getLsbD 31 = true → ¬ malformed → (s.context? f ctx).isSome = true → canonical va = true → (walk f ctx va held).2 = .leaf e n pa →
        let src := entryAddr (held.entry pa)
        let page : Prop := n = size ∧ s.backedLocal src = true
        (¬ page → refused 2) ∧ (page → ¬ takes → refused 3) ∧ (page → takes → held.ownsRange f dst size = false → refused 1) ∧
        (page → takes → held.ownsRange f dst size = true → go ({ s with mem := { s.mem with migrating := s.mem.migrating ++ [(⟨fn, f, ctx, va, size, dst, src, s.nextId⟩ : Mig)] } }.setReg
          fn false 0x454 0 |>.setReg fn false 0x450 (BitVec.ofNat 64 (2 ^ 31 + kept)))))) ∧
    (∀ (m : Mig) (e pa : Nat), s.Canonical → s.mem.migrating.find? (fun m => m.page == fn) = some m → readsLeft m s = false →
      let x : Shoot := ⟨none, m.fn, m.ctx, 0, m.va, m.size, 0⟩
      (∀ c ∈ s.coll, x.covers c.fn c.ctx (c.line * 128) 128 = false) → (walk m.fn m.ctx m.va s).2 = .leaf e m.size pa →
      let src := entryAddr (s.entry pa)
      s.backedLocal src = true → src % 128 = 0 → m.dst % 128 = 0 → m.size % 128 = 0 → (∀ l, src / 128 ≤ l → l < (src + m.size) / 128 → l ∉ s.mem.poison) → s.Plain m.dst m.size → s.Plain pa 8 →
      (src + m.size ≤ m.dst ∨ m.dst + m.size ≤ src) → (pa + 8 ≤ m.dst ∨ m.dst + m.size ≤ pa) → pa % 8 = 0 →
      let leaf := s.entry pa - bitsOf (s.entry pa) 51 12 * 4096 + m.dst
      let moved := (s.put m.dst (s.mem.bytes.readN src m.size)).put pa (leBytes leaf 8)
      ∃ tick, s.gtick ≤ tick ∧ Steps (.migrateSwap fn) s ({ moved with
          reqs := s.reqs.map (Req.moved m s)
          mem := { moved.mem with migrating := s.mem.migrating.filter (fun y => y.id != m.id), atc := s.mem.atc.filter (fun a => !(a.1 == m.fn && a.2.1 == m.ctx)) } }.setReg
            fn false 0x450 (BitVec.ofNat 64 (bitsOf (s.reg fn false 0x450).toNat 30 0)) |>.setReg fn false 0x454 (BitVec.ofNat 64 (2 ^ 31)) |>.setReg fn false 0x458 (BitVec.ofNat 64 tick))
        (fun t => (∀ c ∈ t.mem.tlb, x.covers c.fn c.ctx c.va c.size = false) ∧
          ∀ u, (∃ v ∈ s.threads, v.uid = u) → (s.thr u).phase = .parked .migrate → s.ctxOf u = (m.fn, m.ctx) → (t.thr u).phase = .ready))

/-- R29: GRANTCMD names granules and an owner: a range past the table, no table, a granule of the table itself, or a draining deck's sets ERR; else the owner bytes are written and GO reads 0; GRANTAB moves only while none is under way. R33: ACCDATA samples the counter ACCSEL names, and clears it with CLR. R59: an L2 scrub writes back and drops a way and clears its fill history; a tag parity error kills every context of the functions in that history, drops the way, and leaves its dirty lines poisoned. -/
def Claims.Owners : Prop :=
  ∀ (s : State),
    (∀ v : Dword,
      let cur := (s.reg 0 true 0x1E08)
      let kept := bitsOf v.toNat 47 0
      let first := bitsOf kept 19 0
      let count := bitsOf kept 39 20
      let owner := bitsOf kept 47 40
      let tab := (s.reg 0 true 0x1E00).toNat
      let refused : Prop := 984064 ≤ first + count ∨ tab = 0 ∨ (owner ≠ 0 ∧ ∃ g, first ≤ g ∧ g ≤ first + count ∧ tab / 0x200000 ≤ g ∧ g ≤ (tab + 984063) / 0x200000) ∨
        (owner ≠ 0xFF ∧ ∃ g, first ≤ g ∧ g ≤ first + count ∧ s.topo.2.1 ≠ 0 ∧ nth true s.decks s.topo.2.2 = false ∧ 196608 + 128 * s.topo.2.2 ≤ g ∧ g < 196608 + 128 * (s.topo.2.2 + 1))
      let holds (n : Nat) : Prop := Leads (.grantcmdGo v) s (s.setReg 0 true 0x1E08 (BitVec.ofNat 64 n))
      (cur.getLsbD 63 = true → Leads (.grantcmdGo v) s s ∧ Leads (.grantabWrite v) s s) ∧
      (cur.getLsbD 63 = false → Leads (.grantabWrite v) s (s.setReg 0 true 0x1E00 (BitVec.ofNat 64 (bitsOf v.toNat 51 12 * 4096))) ∧
        (v.getLsbD 63 = false → holds (kept + (if cur.getLsbD 62 then 2 ^ 62 else 0))) ∧
        (v.getLsbD 63 = true → (refused → holds (kept + 2 ^ 62)) ∧ (¬ refused → holds (kept + 2 ^ 63))))) ∧
    (let cur := (s.reg 0 true 0x1E08).toNat
     let pa := (s.reg 0 true 0x1E00).toNat + bitsOf cur 19 0
     let n := bitsOf cur 39 20 + 1
     cur.testBit 63 = true → s.Plain pa n →
      Steps .grantcmdDone s ((s.put pa (List.replicate n (BitVec.ofNat 8 (bitsOf cur 47 40)))).setReg 0 true 0x1E08 (BitVec.ofNat 64 (bitsOf cur 47 0)))) ∧
    (let sel := (s.reg 0 true 0x1E10).toNat
     let block := bitsOf sel 25 0
     let value := if 25165824 + 4096 * 8 ≤ block then 0xFFFFFFFF else if 25165824 ≤ block ∧ nth true s.decks ((block - 25165824) / 4096) = true then 0 else lookupD 0 s.mem.access block
     Steps .accdataRead s (s.setReg 0 true 0x1E14 (BitVec.ofNat 64 value)) (fun t => sel.testBit 31 = true → lookupD 0 t.mem.access block = 0)) ∧
    (∀ v : Word,
      let cur := s.reg 0 true 0x1110
      let kept := bitsOf v.toNat 27 24 * 2 ^ 24 + bitsOf v.toNat 11 0
      let holds (n : Nat) : Prop := Leads (.l2scrubGo v) s (s.setReg 0 true 0x1110 (BitVec.ofNat 64 n))
      (cur.getLsbD 31 = true → Leads (.l2scrubGo v) s s) ∧
      (cur.getLsbD 31 = false → (v.getLsbD 31 = false → holds (kept + (if cur.getLsbD 30 then 2 ^ 30 else 0))) ∧
        (v.getLsbD 31 = true → holds (kept + (if 3072 ≤ bitsOf v.toNat 11 0 then 2 ^ 30 else 2 ^ 31))))) ∧
    (let cur := (s.reg 0 true 0x1110).toNat
     let slice := bitsOf cur 11 0
     let way := bitsOf cur 27 24
     cur.testBit 31 = true → Steps .l2scrubDone s (s.setReg 0 true 0x1110 (BitVec.ofNat 64 (bitsOf cur 30 0)))
      (fun t => (∀ l ∈ t.mem.l2, ¬ (sliceOf l.line = slice ∧ l.way = way)) ∧ ∀ f, (t.historyOf slice way).testBit f = false)) ∧
    (∀ slice way, slice < 3072 → way < 16 → s.Numbered → (∀ r ∈ s.faults, r.id < s.nextId) → (s.grids.map Grid.uid).Nodup →
      ∃ t, exec (.tagParity slice way) s = .next t ∧ (t.reg 0 true 0x1114).toNat = 2 ^ 31 + way * 2 ^ 24 + slice ∧
        (∀ f ≤ 16, (s.historyOf slice way).testBit f = true → ∀ c ∈ s.contexts, c.fn = f → s.ctxLive f c.ctx = true → s.Gone t f c.ctx ∧ ∃ r ∈ t.faults, r.cause = .tagParity ∧ r.fn = f ∧ r.ctx = c.ctx) ∧
        (∀ u, (∀ f ctx, f ≤ 16 → (s.historyOf slice way).testBit f = true → ¬ s.TeamOf f ctx (s.thr u).team) → Thread.SameBut [] [] (s.thr u) (t.thr u)) ∧
        (∀ l ∈ t.mem.l2, ¬ (sliceOf l.line = slice ∧ l.way = way)) ∧ ∀ f, (t.historyOf slice way).testBit f = false)

/-- R351: a write of PERFSEL selects the event and clears the counter, a write of PERFCNT sets it. R360: ATTREQ writes the signed report of the nonce, the firmware's digest and the function's configuration through the context of the lowest id, and ATTSTAT says DONE, or ERR where it cannot; an image loads only with a good signature and a rollback counter not below the fused one. R361: ENCOWN assigns an idle encoder, scrubbed; its owner's ENCDOOR sets the tail; a job that fails, its bitstream longer than OUTCAP among them, writes its result alone; a job is over with the counter's increment and an interrupt; a descheduled owner's job pauses. -/
def Claims.Devices : Prop :=
  ∀ (s : State) (fn e : Nat) (v : Dword), fn ≤ 16 →
    let fails : Prop := Leads (.attreqWrite fn v) s ((s.setReg fn false 0xA00 v).setReg fn false 0xA08 0xC0000000)
    let asked := s.setReg fn false 0xA00 v
    let own := (s.reg 0 true (0x1900 + 4 * e)).toNat
    let owner : Option Nat := if own.testBit 31 then some (bitsOf own 28 24) else none
    let tail := match owner with | some f => (s.reg f false (0xB08 + 16 * e)).toNat | none => 0
    let x := s.encoder e
    let busy : Prop := owner ≠ none ∧ tail ≠ x.head
    (∀ n < 8, LeadsTo (.perfselWrite fn n v) s (s.setReg fn false (0x900 + 8 * n) (BitVec.ofNat 64 (v.toNat % 256))) (fun t => s.watched = s.gtick → t.reg fn false (0x980 + 8 * n) = 0) ∧
      LeadsTo (.perfcntWrite fn n v) s s (fun t => s.watched = s.gtick → t.reg fn false (0x980 + 8 * n) = v)) ∧
    (lowestContext fn asked = none ∨ v.toNat % 64 ≠ 0 → fails) ∧
    (∀ ctx nonce pas, lowestContext fn asked = some ctx → v.toNat % 64 = 0 → s.Reads baseDie fn ctx v.toNat 64 nonce →
      let body := nonce ++ fit 64 s.firmware.1 ++ digestOf (configBytes fn s) ++ leBytes fn 4 ++ leBytes s.topo.1 4 ++ List.replicate 56 0
      let signed := body ++ fit 4627 (Config.sign body) ++ List.replicate 45 0
      s.Open baseDie fn ctx v.toNat signed.length pas →
      Steps (.attreqWrite fn v) s ((asked.putRange v.toNat pas signed).setReg fn false 0xA08 0x80000000)) ∧
    (∀ image rollback sig, (Config.verify (digestOf image) sig = true ∧ s.firmware.2 ≤ rollback → Leads (.firmwareImageLoad image rollback sig) s { s with firmware := (digestOf image, s.firmware.2) }) ∧
      (¬ (Config.verify (digestOf image) sig = true ∧ s.firmware.2 ≤ rollback) → Leads (.firmwareImageLoad image rollback sig) s s)) ∧
    (∀ w : Word, e < 8 →
      let new := Nat.land w.toNat 0x9F000FFF
      let written := s.setReg 0 true (0x1900 + 4 * e) (BitVec.ofNat 64 new)
      let held : Prop := busy ∧ Nat.land own 0x9F000000 ≠ Nat.land new 0x9F000000
      (held → Leads (.encownWrite e w) s s) ∧
      (¬ held → ∃ head start, Leads (.encownWrite e w) s (written.setEncoder ⟨e, head, false, start, none⟩) ∧ (busy → head = x.head) ∧
        (¬ busy → Nat.testBit new 31 = true → head = (s.reg (bitsOf new 28 24) false (0xB08 + 16 * e)).toNat))) ∧
    (e < 8 → (owner ≠ some fn → Leads (.encdoorWrite fn e v) s s) ∧
      (owner = some fn →
        let set := s.setReg fn false (0xB08 + 16 * e) (BitVec.ofNat 64 (v.toNat % 2 ^ 32))
        (busy → Leads (.encdoorWrite fn e v) s set) ∧ (¬ busy → ∃ tick, Leads (.encdoorWrite fn e v) s (set.setEncoder { x with start := tick })))) ∧
    (e < 8 → owner = some fn → busy →
      let ctx := bitsOf own 11 0
      let ring := (s.reg fn false (0xB00 + 16 * e)).toNat
      let entry := bitsOf ring 63 6 * 64 + 64 * (x.head % 2 ^ (bitsOf ring 3 0 + 4))
      let next (s : State) (tick : Nat) : State := (s.setEncoder { x with head := (x.head + 1) % 2 ^ 32, paused := false, start := tick, post := none }).send (.msix fn 4)
      ((∃ h ∈ s.halted, h.1 = fn) → x.paused = false → Leads (.encoderPause e) s (s.setEncoder { x with paused := true })) ∧
      ((∀ h ∈ s.halted, h.1 ≠ fn) →
        (s.physOk fn entry 64 = false → ∃ tick, Leads (.encoderJobComplete e) s (next s tick)) ∧
        (∀ b tick pa, s.Phys fn entry 64 b → x.post = some tick → tick ≤ s.gtick → s.Counts baseDie fn ctx (fieldOf b 32 8) pa →
          ∃ start, Steps (.encoderJobComplete e) s (next (s.put pa (leBytes (leNat (s.mem.bytes.readN pa 8) + 1) 8)) start)) ∧
        (∀ b, s.Phys fn entry 64 b → x.post = none →
          let out (frame : List Byte) : List Byte := Config.encode (b ++ frame ++ leBytes s.free 8)
          let reads (frame : List Byte) : Prop := s.Reads baseDie fn ctx (fieldOf b 8 8) (3 * fieldOf b 4 2 * fieldOf b 6 2) frame
          (∀ frame pas, jobBad b = true ∨ (jobBad b = false ∧ reads frame ∧ fieldOf b 24 4 < (out frame).length) → s.Open baseDie fn ctx (fieldOf b 40 8) 8 pas →
            ∃ start, Steps (.encoderJobComplete e) s (next (s.putRange (fieldOf b 40 8) pas (leBytes (2 ^ 63) 8)) start)) ∧
          (∀ frame pas qas, jobBad b = false → reads frame → (out frame).length ≤ fieldOf b 24 4 → out frame ≠ [] →
            s.Open baseDie fn ctx (fieldOf b 16 8) (out frame).length pas → s.Open baseDie fn ctx (fieldOf b 40 8) 8 qas →
            let streamed := s.putRange (fieldOf b 16 8) pas (out frame)
            streamed.physOk fn (entry + 48) 8 = true →
            ∃ tick, s.gtick ≤ tick ∧ Steps (.encoderJobComplete e) s
              (((streamed.put (entry + 48) (leBytes x.start 8)).putRange (fieldOf b 40 8) qas (leBytes (out frame).length 8)).setEncoder { x with post := some tick })))))

/-- R7, R358: a write to a device register that is held takes its writable bits; a read-only register and an offset that names none are left alone; a register with a function of its own acts as that function's step. R349, R352: after a device reset every register and every part of the machine is as State.reset leaves it, but for what memory holds, the firmware and the stored state (notes/assumptions 70). Where the spec leaves a choice it follows the model's own, notes/assumptions 57. -/
def Obligations.RegisterWrites : Prop :=
  ∀ (s : State) (fn : Nat) (v : Dword), fn ≤ 16 →
    let i (priv : Bool) (off : Nat) : Instr := .registerWrite fn priv off v
    let masked (off mask : Nat) : Prop := Leads (i false off) s (s.setReg fn false off (BitVec.ofNat 64 (Nat.land v.toNat mask)))
    (∀ off ∈ [0x400, 0x440, 0x688, 0x700, 0x800, 0x808, 0x810, 0x880, 0x888], Leads (i false off) s (s.setReg fn false off v)) ∧
    masked 0x448 0xFFFFFFFFFF000 ∧ masked 0x500 0xFFFFFFFFFFFC0 ∧ masked 0x684 0xFFFFFFFF ∧ (∀ n < 8, masked (0x600 + 16 * n) 0xFFFFFFFFFFFFFFFD ∧ masked (0x608 + 16 * n) 0x80000FFF) ∧
    (∀ off ∈ [0x40C, 0x410, 0x454, 0x458, 0x50C, 0x690, 0xA08], Leads (i false off) s s) ∧
    (∀ off, 0x18000 ≤ off → Leads (i false off) s s) ∧
    (fn = 0 → (∀ f ≤ 16, Leads (i true (0x1A00 + 8 * f)) s (s.setReg 0 true (0x1A00 + 8 * f) v) ∧ Leads (i true (0x1000 + 4 * f)) s (s.setReg 0 true (0x1000 + 4 * f) (BitVec.ofNat 64 (Nat.land v.toNat 0xFFFF)))) ∧
      (∀ q < 4096, Leads (i true (0x4000 + q)) s { s with qown := insertKey s.qown q (v.toNat % 256) })) ∧
    exec (i false 0x408) s = exec (.xinvGo fn (lowWord v)) s ∧ exec (i false 0x450) s = exec (.migrate fn (lowWord v)) s ∧
    exec (i false 0x818) s = exec (.snapctlGo fn (lowWord v)) s ∧ exec (i false 0x890) s = exec (.restctlGo fn (lowWord v)) s ∧ exec (i false 0xA00) s = exec (.attreqWrite fn v) s ∧
    (v.getLsbD 31 = true → exec (i false 0x508) s = exec (match bitsOf (lowWord v).toNat 1 0 with | 0 => .fsvcRetry fn | 1 => .fsvcSkip fn | 2 => .fsvcKill fn | _ => .fsvcAnswer fn) s) ∧
    (∀ n < 8, exec (i false (0x900 + 8 * n)) s = exec (.perfselWrite fn n v) s ∧ exec (i false (0x980 + 8 * n)) s = exec (.perfcntWrite fn n v) s ∧
      exec (i false (0xB08 + 16 * n)) s = exec (.encdoorWrite fn n v) s) ∧
    (∀ q < 4096, exec (i false (0x8000 + 16 * q)) s = exec (.qdescWrite fn q v) s ∧ exec (i false (0x8008 + 16 * q)) s = exec (.qdoorWrite fn q v) s) ∧
    (∀ w < 256, exec (i false (0x2000 + 16 * w)) s = exec (if v.getLsbD 0 then .wdescBind fn w v else .wdescUnbind fn w v) s) ∧
    LeadsTo .deviceReset s { State.reset with mem := { Mem.reset with bytes := s.mem.bytes, poison := s.mem.poison }, firmware := s.firmware, kept := s.kept, free := s.free }
      (fun t => t.threads = [] ∧ t.teams = [] ∧ t.grids = [] ∧ ∀ fn priv off, perfCounter priv off = false → t.reg fn priv off = regReset fn priv off)

/-- R359: a peer's access is performed at its home slice where it lies in one backed local region whose granules' owners carry its tenant tag, else it is rejected: a read is answered with the bytes and their poison, a write takes effect with its stream's order (R132), a poisoned one leaves poison (R135), an atomic performs and answers with the old value where it returns one (R125), a transfer's notification adds one once its stream's writes have reached their Tw (R131). A flit whose CRC fails is resent, and nothing else changes. R134, R135, R232, R260: a lost flit ends a transfer with ENGINE_FAULT at its progress (the other ranks of a collective are told), loses a store's or an atomic's write, delivers a load's registers poisoned, and fails an HBIND with POISON. -/
def Claims.Uttenlink : Prop :=
  ∀ (s : State),
    (∀ (tag : Dword) (stream pa : Nat) (relaxed : Bool) (x : Payload),
      let i : Instr := .peerAccessArrival tag stream relaxed pa x
      let n := match x with | .write d | .poison d => d.length | .read n => n | .atomic o => elemBytes o.ty | .add => 8
      let ok : Prop := n ≠ 0 ∧ s.backedLocal pa = true ∧ s.backedLocal (pa + n - 1) = true ∧ regionOf (pa + n - 1) = regionOf pa ∧
        ∀ j, pa / 0x200000 ≤ j → j ≤ (pa + n - 1) / 0x200000 → let o := s.ownerOf (granuleOf (j * 0x200000)); o ≤ 16 ∧ s.reg 0 true (0x1A00 + 8 * o) = tag
      let prev := lookupD 0 s.mem.streams (2 * stream + 1)
      let poisoned := (List.range ((pa % 128 + n + 127) / 128)).any (fun j => s.mem.poison.contains (pa / 128 + j))
      let streamed (tw : Nat) (s : State) : State := { s with mem := { s.mem with streams := insertKey s.mem.streams (2 * stream + 1) (max tw prev) } }
      (¬ ok → Leads i s (s.send (.reject pa))) ∧
      (ok → x = .read n → Steps i s (s.send (.readReply pa (s.mem.bytes.readN pa n) poisoned))) ∧
      (ok → s.migratesFrom pa n = false →
        (∀ d, x = .write d → s.Plain pa d.length → ∃ tw, s.gtick ≤ tw ∧
          Steps i s (streamed tw (s.put pa d)) (fun t => relaxed = false → ∀ l y, pa / 128 ≤ l → l * 128 < pa + d.length → t.l2line? l = some y → prev ≤ y.tw)) ∧
        (∀ d, x = .poison d → s.Takes pa d.length → ∃ tw, s.gtick ≤ tw ∧
          Steps i s (streamed tw { (s.put pa d) with mem := { (s.put pa d).mem with poison := pa / 128 :: s.mem.poison } }))) ∧
      (∀ o, ok → x = .atomic o →
        let old := leNat (s.mem.bytes.readN pa n)
        (pa % n ≠ 0 → Leads i s (s.send (.reject pa))) ∧
        (pa % n = 0 → s.migratesFrom pa 8 = false → s.Takes pa n →
          let new := s.put pa (leBytes (o.apply old).1 n)
          Steps i s (if o.form ≤ 2 then new.send (.readReply pa (s.mem.bytes.readN pa n) false) else new))) ∧
      (ok → x = .add →
        (pa % 8 ≠ 0 → Leads i s (s.send (.reject pa))) ∧
        (pa % 8 = 0 → prev ≤ s.gtick → s.migratesFrom pa 8 = false → s.Takes pa 8 → Steps i s (s.put pa (leBytes (leNat (s.mem.bytes.readN pa 8) + 1) 8))))) ∧
    (∀ port < 16, Leads (.flitCrcResend port) s s) ∧
    (∀ r : Req, s.Pending r → s.Numbered →
      let onPeer : Prop := r.work.places ≠ [] ∧ ∀ p ∈ r.work.places, p.onPeer = true
      let fails (d : Detail) : State := s.modReq r.id (fun q => { q with fault := some (.engineFault, d) })
      (∀ u i desc args stage prog pc, r.work = .dispatch u i desc args stage prog pc → r.fault = none →
        (∀ x, i = .dsend x → stage ≠ 3 → Steps (.flitLost r.id) s (fails { kind := accEngineWrite, prog := prog })) ∧
        (∀ x, i = .dcomb x → stage = 0 → Steps (.flitLost r.id) s (fails { kind := accEngineRead, prog := prog })) ∧
        (∀ x, i = .coll x → Steps (.flitLost r.id) s ((fails { prog := prog }).send (.collectiveOver (s.gr (s.tm r.team).grid).fn (fieldOf desc 24 2) (args.headD 0))))) ∧
      (∀ u parts, r.work = .store u parts → onPeer → r.heldBack s = false →
        Steps (.flitLost r.id) s (s.drop r) (fun t => ∀ v ∈ r.threads, (∃ x ∈ s.threads, x.uid = v) → ∀ p ∈ parts, ∀ va pa mt, p.dst = .glob va pa mt → va / 128 ∈ (t.thr v).lost)) ∧
      (∀ u va pa mt o dst, r.work = .atomic u va pa mt o dst → onPeer →
        let ds := match dst with | some d => regs d o.ty.wide | none => []
        Steps (.flitLost r.id) s ((s.drop r).modThr u (fun t => { t with poison := t.poison ++ ds, pendV := t.pendV.filter (fun x => !ds.contains x) }))
          (fun t => ∀ v ∈ r.threads, (∃ x ∈ s.threads, x.uid = v) → va / 128 ∈ (t.thr v).lost)) ∧
      (∀ u l, r.work = .load u l → onPeer → (∃ x ∈ s.threads, x.uid = u) → (∀ e ∈ l, 1 ≤ e.size ∧ e.size ≤ 8) →
        ∃ f : Thread → Thread, (∀ x, Thread.SameBut (l.flatMap Elem.regs) [] { x with pendV := (f x).pendV } (f x)) ∧
          Steps (.flitLost r.id) s ((s.drop r).modThr u f) (fun t => ∀ e ∈ l, ∀ n ∈ e.regs, n < (s.thr u).owned → n ∈ (t.thr u).poison ∧ n ∉ (t.thr u).pendV)) ∧
      (∀ l full w, r.work = .loadTeam l full w → onPeer → (∃ x ∈ s.teams, x.uid = r.team) → (∀ e ∈ l, 1 ≤ e.size ∧ e.size ≤ 8) →
        ∃ f : Team → Team, (∀ x, Team.SameBut (l.flatMap Elem.regs) { x with pendS := (f x).pendS, teamstat := (f x).teamstat } (f x)) ∧
          Steps (.flitLost r.id) s ((s.drop r).modTeam r.team f) (fun t => ∀ e ∈ l, ∀ n ∈ e.regs, n ∈ (t.tm r.team).sPoison ∧ n ∉ (t.tm r.team).pendS)) ∧
      (∀ h va pa mt full w, r.work = .hbind h va pa mt full w → onPeer → r.threads ≠ [] → r.threads.Nodup → (∀ u ∈ r.threads, (∃ x ∈ s.threads, x.uid = u) ∧ (s.thr u).team = r.team ∧ (s.thr u).pc = r.pc) → (∀ q ∈ s.faults, q.issue ≠ r.group) →
        LeadsTo (.flitLost r.id) s { (s.drop r).modTeam r.team (fun tm => { tm with pendH := tm.pendH.filter (· ≠ h) }) with free := s.free + 1 } (fun t => s.Faulted t .poison r.threads r.pc)))

/-- Shootdowns and migrations. Where the spec leaves a choice it follows the model's own, notes/assumptions 45, 46. -/
def Obligations.AddressChanges : Prop := Claims.Shootdowns ∧ Claims.Migrations

/-- Owner registers and Uttenlink. Where the spec leaves a choice it follows the model's own, notes/assumptions 46, 47, 49. -/
def Obligations.OwnersAndLinks : Prop := Claims.Owners ∧ Claims.Uttenlink

/-- Encoders, attestation, firmware, clocks and power. Where the spec leaves a choice it follows the model's own, notes/assumptions 5, 51, 55, 56. -/
def Obligations.DeviceUnits : Prop := Claims.Devices

/-- R344, R345, R346: PCMD assigns a cluster at home that holds no context and no tile space, on a compute deck, after its scrub; lends a margin cluster at home, free of its owner's contexts and of tile spaces; starts the revocation of a lent one, with GO set until it completes; any other command sets ERR, and one is ignored while another is under way. The device revokes on its own where AUT is set and the owner has waited. Contexts that remain at the deadline of 140,000 ticks, or have no free save slot, are killed; an empty cluster is scrubbed and home. -/
def Claims.Clusters : Prop :=
  ∀ (s : State) (v : Word),
    let kept := Nat.land v.toNat 0x3FF0007F
    let c := bitsOf kept 6 0
    let f := bitsOf kept 24 20
    let x := s.cluster c
    let busy := (s.reg 0 true 0x1500).getLsbD 31
    let set (s : State) (n : Nat) : State := s.setReg 0 true 0x1500 (BitVec.ofNat 64 n)
    let holds (c : Nat) (P : Nat × Nat → Prop) : Prop := ∃ core b k, clusterOf core = c ∧ b < 2 ∧ (s.bank core b).ctx = some k ∧ P k
    let spaced (c : Nat) : Prop := ∃ y ∈ s.spaces, y.cluster = some c
    let command (i : Instr) (op : Nat) (ok : Prop) (s' : State) : Prop := v.getLsbD 31 = true → bitsOf v.toNat 29 28 = op →
      (busy = true → Leads i s s) ∧ (busy = false → (ok → Leads i s s') ∧ (¬ ok → Leads i s (set s (kept + 2 ^ 30))))
    let scrubbed (c : Nat) (t : State) : Prop := (∀ core b, clusterOf core = c → b < 2 → (t.bank core b).ctx = none ∧ (t.bank core b).acc = Bank.reset.acc) ∧
      (∀ y ∈ t.spaces, y.cluster ≠ some c) ∧ ∀ l ∈ t.mem.l1, clusterOf l.core ≠ c
    command (.pcmdAssign v) 0 (f ≤ 16 ∧ x.cstate = 0 ∧ ¬ holds c (fun _ => True) ∧ ¬ spaced c ∧ nth true s.decks (c / 16) = true)
      (set ((scrubCluster c s).setCluster { x with v := v.getLsbD 27, margin := v.getLsbD 26, auto := v.getLsbD 25, owner := f }) kept) ∧
    scrubbed c (scrubCluster c s) ∧
    command (.pcmdLend v) 1 (f ≤ 16 ∧ x.v = true ∧ x.margin = true ∧ x.cstate = 0 ∧ f ≠ x.owner ∧ ¬ holds c (fun k => k.1 = x.owner) ∧ ¬ spaced c)
      (set (s.setCluster { x with cstate := 1, borrower := f }) kept) ∧
    command (.pcmdRevoke v) 2 (x.cstate = 1) (set (s.setCluster { x with cstate := 2, deadline := s.gtick + 140000 }) (kept + 2 ^ 31)) ∧
    (∀ n < 128, let y := s.cluster n
      (y.auto = true → y.cstate = 1 → ownerWaits n s = true → Leads (.autoRevoke n) s (s.setCluster { y with cstate := 2, deadline := s.gtick + 140000 })) ∧
      (y.cstate = 2 → ¬ holds n (fun _ => True) →
        let home := (scrubCluster n (saveSpacesOn n s)).setCluster { (scrubCluster n (saveSpacesOn n s)).cluster n with cstate := 0, borrower := 0, deadline := 0 }
        let cur := (s.reg 0 true 0x1500).toNat
        LeadsTo (.revocationScrub n) s (if cur.testBit 31 ∧ bitsOf cur 6 0 = n then set home (bitsOf cur 29 0) else home) (fun t => scrubbed n t ∧ (t.cluster n).cstate = 0)) ∧
      (y.cstate = 2 → s.Numbered → (s.grids.map Grid.uid).Nodup → (s.faults.map FaultRec.id).Nodup →
        let late (k : Nat × Nat) : Prop := holds n (fun j => j = k) ∧ (pastDeadline n s = true ∨ ∀ d, s.context? k.1 k.2 = some d → freeSaveSlot d s = none)
        (∃ k, late k) → ∃ t, exec (.revokeSaveDeadline n) s = .next t ∧ (∀ k, late k → s.Gone t k.1 k.2) ∧
          ∀ u, (∀ k, late k → ¬ s.TeamOf k.1 k.2 (s.thr u).team) → Thread.SameBut [] [] (s.thr u) (t.thr u)))

/-- R347, R348: a floor that would bring the floors above 3,100 units is ignored, and a weight of 0 is 1; the bandwidth window starts afresh after 10,000 ticks. R349, R350: a descheduled function's gathered accesses depart and its dirty lines are written back (R52, R65), its threads leave their waves and its view of GTICK stands still; when it runs again, STOLEN holds the ticks it was descheduled and its encoders go on; a value above 16 sets ERR. R354: a sag stretches a deck's clock and counts, recovery ends it, and the power limit lowers it by 25 MHz. -/
def Claims.Shares : Prop :=
  ∀ (s : State),
    (∀ f v, f ≤ 16 →
      let units := (((List.range 17).filter (· ≠ f)).map (fun g => bitsOf (s.reg 0 true (0x1600 + 8 * g)).toNat 15 0)).sum + bitsOf v.toNat 15 0
      (3100 < units → Leads (.floorWrite f v) s s) ∧
      (units ≤ 3100 → Leads (.floorWrite f v) s (s.setReg 0 true (0x1600 + 8 * f) (BitVec.ofNat 64 (max 1 (bitsOf v.toNat 39 32) * 2 ^ 32 + bitsOf v.toNat 15 0))))) ∧
    (s.window + 10000 ≤ s.gtick → LeadsTo .bandwidthWindow s { s with window := s.gtick - s.gtick % 10000, served := [] } (fun t => t.served = [] ∧ t.gtick < t.window + 10000)) ∧
    (∀ v : Word,
      let kept := Nat.land v.toNat 0x11F
      let f := bitsOf kept 4 0
      let set (s : State) (n : Nat) : State := s.setReg 0 true 0x1700 (BitVec.ofNat 64 n)
      v.getLsbD 31 = true →
      (v.getLsbD 8 = true → (16 < f → Leads (.vfschedRun v) s (set s (kept + 2 ^ 30))) ∧
        (f ≤ 16 → LeadsTo (.vfschedRun v) s
          (set { s with stolen := insertKey s.stolen f (s.stolenOf f), halted := s.halted.filter (fun h => h.1 != f)
                        enc := s.enc.map (fun (x : Encoder) => if s.encOwner x.engine = some f then { x with paused := false } else x) } kept)
          (fun t => t.stolenOf f = s.stolenOf f ∧ ∀ h ∈ t.halted, h.1 ≠ f))) ∧
      (v.getLsbD 8 = false → (16 < f → Leads (.vfschedDeschedule v) s (set s (kept + 2 ^ 30))) ∧
        (f ≤ 16 → (∃ h ∈ s.halted, h.1 = f) → Leads (.vfschedDeschedule v) s (set s kept)) ∧
        (f ≤ 16 → (∀ h ∈ s.halted, h.1 ≠ f) →
          let p := preemptFunction f s
          ((∀ e ∈ s.coll, e.fn ≠ f) → (∀ x ∈ s.mem.l1, x.fn = f → x.dirty = []) → p = s) ∧
          LeadsTo (.vfschedDeschedule v) s (set { p with halted := (f, p.gtick) :: p.halted } kept)
            (fun t => (∀ w ∈ t.waves, ∀ u ∈ w.members, (p.gridOf u).fn ≠ f) ∧ t.viewOf f = p.viewOf f)))) ∧
    (∀ d < 8,
      let c := s.clockOf d
      let top (n : Nat) : Nat := if n ≤ 6 then 1750 else if n = 7 then 1550 else 1350
      LeadsTo (.supplySagStretch d) s (s.setClock { c with sag := true, stretches := min 0xFFFF (c.stretches + 1) }) (fun t => (t.clockOf d).sag = true) ∧
      (c.sag = true → Leads (.supplyRecovery d) s (s.setClock { c with sag := false })) ∧
      (25 * (c.steps + 1) < top (s.decks.countP id) → LeadsTo (.powerLimitStep d) s (s.setClock { c with steps := c.steps + 1 }) (fun t => c.sag = false → s.mhz d = t.mhz d + 25)))

/-- R352, R353: DECKROLE starts a deck's drain (STEP 1), unless a change is under way, no compute deck would be left (error 1), or a cluster of it is assigned (error 2); the flush writes back and scrubs a compute deck that holds no context, or runs a memory deck's migration list (STEP 2); a memory deck whose window still has an owned granule stops the change (error 3); after STEP 3 the deck has its new role, its window is empty, and GEN is one more. -/
def Claims.Decks : Prop :=
  ∀ (s : State),
    let reg := (s.reg 0 true 0x1800).toNat
    let set (s : State) (n : Nat) : State := s.setReg 0 true 0x1800 (BitVec.ofNat 64 n)
    let refused (s : State) (code kept : Nat) : State := set s (Nat.land kept 0x80000701 + 2 ^ 30 + code * 2 ^ 12)
    let step := s.topo.2.1
    let d := s.topo.2.2
    let compute := nth true s.decks d
    (∀ v : Word,
      let kept := Nat.land v.toNat 0x701
      let d := bitsOf kept 10 8
      let role := kept.testBit 0
      let go (s' : State) : Prop := Leads (.deckroleGo v) s s'
      (v.getLsbD 31 = false → (step = 0 → go (set s (kept + Nat.land reg 0x40003000))) ∧ (step ≠ 0 → go s)) ∧
      (v.getLsbD 31 = true → (step ≠ 0 → go (refused s 0 reg)) ∧
        (step = 0 → ((s.decks.set d role).countP id = 0 → go (refused s 1 kept)) ∧
          ((s.decks.set d role).countP id ≠ 0 →
            let assigned : Prop := ∃ c, c / 16 = d ∧ (s.cluster c).v = true
            (role = false → assigned → go (refused s 2 kept)) ∧
            (role = true ∨ ¬ assigned → (nth true s.decks d = role → go (set s kept)) ∧
              (nth true s.decks d ≠ role → go { set s (kept + 2 ^ 31) with topo := (s.topo.1, 1, d) })))))) ∧
    (step = 1 →
      (compute = true → (∀ core b, core / 64 = d → b < 2 → (s.bank core b).ctx = none) →
        LeadsTo .deckFlush s { flushDeck d s with topo := (s.topo.1, 2, d) } (fun t => ∀ c, c / 16 = d → ∀ y ∈ t.spaces, y.cluster ≠ some c)) ∧
      (compute = false → (∀ c ∈ s.contexts, c.fn ≠ 0) ∨ (s.reg 0 true 0x1818).toNat = 0 → Leads .deckFlush s { s with topo := (s.topo.1, 2, d) }) ∧
      (∀ ctx t, compute = false → lowestContext 0 s = some ctx → migrateList ctx (s.reg 0 true 0x1810).toNat (s.reg 0 true 0x1818).toNat s = some t →
        Leads .deckFlush s { t with topo := (t.topo.1, 2, d) })) ∧
    (step = 2 →
      let owned : Prop := ∃ i < 128, s.ownerOf (196608 + 128 * d + i) ≠ 0xFF
      (compute = false → owned → Leads .deckReenumerate s { refused s 3 (Nat.land reg 0x701) with topo := (s.topo.1, 0, 0) }) ∧
      (compute = true ∨ ¬ owned → Leads .deckReenumerate s { s with topo := (s.topo.1, 3, d) })) ∧
    (step = 3 → s.Canonical → ∃ t, exec .deckReenumerate s = .next t ∧
      t.topo = ((s.topo.1 + 1) % 65536, 0, 0) ∧ t.decks = s.decks.set d (!compute) ∧ (t.reg 0 true 0x1800).toNat = Nat.land reg 0x701 ∧
      (∀ core, core / 64 = d → t.core core = Core.reset core) ∧ (∀ c, c / 16 = d → t.cluster c = Cluster.reset c) ∧
      (∀ u, Thread.SameBut [] [] (s.thr u) (t.thr u)) ∧ (∀ k, Team.SameBut [] (s.tm k) (t.tm k)) ∧
      (∀ a, ¬ s.inImage a →
        let tab := (s.reg 0 true 0x1E00).toNat
        let lo := 0x8000000000 + d * 0x10000000
        let grants : Prop := compute = true ∧ tab ≠ 0
        ¬ (grants ∧ tab + 196608 + 128 * d ≤ a ∧ a < tab + 196608 + 128 * d + 128) →
        if lo ≤ a ∧ a < lo + 0x10000000 then t.mem.bytes.read a = Memory.read [] a else t.mem.bytes.read a = s.mem.bytes.read a))

/-- Cluster commands, function shares and deck roles. Where the spec leaves a choice it follows the model's own, notes/assumptions 48, 49, 50. -/
def Obligations.PartitionSteps : Prop := Claims.Clusters ∧ Claims.Shares ∧ Claims.Decks

/-- R90, R92, Tables 5.1 and 5.2: a write of WDESC with V = 1 binds a world whose descriptor can be read and is well formed, empty, in generation 0; a malformed one sets BADDESC; a bound world refuses it. With V = 0 an idle world is unbound, any other refuses. A refused write sets REFUSED and clears BADDESC; FAULTED and BUSY say how the world's keystone stands. -/
def Claims.WorldBindings : Prop :=
  ∀ (s : State) (fn w : Nat) (v : Dword), w < 256 →
    let desc := 0x2000 + 16 * w
    let wstat (s : State) (n : Nat) : State := s.setReg fn false (0x2008 + 16 * w) (BitVec.ofNat 64 n)
    let pa := bitsOf v.toNat 51 8 * 256
    let refused (x : World) : Nat := (if x.stopped then 2 ^ 30 else 0) + (if x.running && !x.stopped then 2 ^ 29 else 0) + 2 ^ 28
    let busy (x : World) : Prop := x.running = true ∧ x.stopped = false
    let idle (x : World) : Prop := (∀ g ∈ s.grids, ¬ (g.fn = x.fn ∧ g.world = some x.id)) ∧ x.viewTeams = [] ∧ ¬ busy x
    (v.getLsbD 0 = true →
      (∀ x, s.world? fn w = some x → Leads (.wdescBind fn w v) s (wstat s (refused x))) ∧
      (s.world? fn w = none →
        (bitsOf v.toNat 63 52 ≠ 0 ∨ s.physOk fn pa 256 = false → Leads (.wdescBind fn w v) s (wstat s (2 ^ 27))) ∧
        (∀ b, bitsOf v.toNat 63 52 = 0 → s.Phys fn pa 256 b →
          (worldBad b = true → Steps (.wdescBind fn w v) s (wstat s (2 ^ 27))) ∧
          (worldBad b = false → Steps (.wdescBind fn w v) s (wstat ((s.setReg fn false desc (BitVec.ofNat 64 (pa + 1))).setWorld
            ⟨fn, w, b, [⟨0, [], [], [], 0⟩], 0, [], 0, 0, [], 0, 0, 0, 0, [], [], [], [], none, [], 0, none, false, false⟩) 0))))) ∧
    (v.getLsbD 0 = false →
      let unbound (s : State) : State := wstat (s.setReg fn false desc (BitVec.ofNat 64 (bitsOf v.toNat 63 8 * 256))) 0
      (s.world? fn w = none → Leads (.wdescUnbind fn w v) s (unbound s)) ∧
      (∀ x, s.world? fn w = some x →
        (idle x → Leads (.wdescUnbind fn w v) s (unbound { s with worlds := s.worlds.filter (fun y => !(y.fn == fn && y.id == w)) })) ∧
        (¬ idle x → Leads (.wdescUnbind fn w v) s (wstat s (refused x)))))

/-- R291, R292, R293, R94, R97, R98, R99, R109: the table engine's answers. EQRY takes the k-th range of the query in the generation its team reads, ELOOK the row's address of a type for a handle that resolves, ECOL that of a row; P says whether there is one; a handle that does not resolve is STALE_HANDLE in strict mode, else P false and one more in TEAMSTAT's count up to 255. R101, R294: the queue takes an edit, in ascending lane order within an instruction, or refuses it when full; a refusal in a DET launch sets NDET. R295: an EVIEW.OPEN that a keystone's compaction held up pins the published generation for the team and writes TEAMVIEW, or answers P false where the team has a view or 256 are open (notes/assumptions 39). -/
def Claims.WorldReplies : Prop :=
  ∀ (s : State) (r : Req) (u d pred : Nat) (args : List Nat) (x : World),
    s.Pending r → s.Numbered → (s.thr u).team = r.team → (∃ t ∈ s.threads, t.uid = u) → s.worldOf u = some x →
    let i : Instr := .worldReply r.id
    let freed (s : State) (dst ps : List Nat) : State := (s.drop r).modThr u (fun t => { t with pendV := t.pendV.filter (fun n => !dst.contains n), pendP := t.pendP.filter (fun n => !ps.contains n) })
    let pair (s : State) (n : Nat) : State := s.modThr u (fun t => (t.wv d (BitVec.ofNat 32 n)).wv (d + 1) (BitVec.ofNat 32 (n / 2 ^ 32)))
    let hit (s : State) (b : Bool) : State := s.modThr u (fun t => t.wp pred b)
    (r.work = .world u 0 args d pred → ∀ t, readGen x r.team = some t →
      let l := queryRanges t (queryOf (args.drop 1))
      let done' := freed s [d, d + 1] [pred]
      (∀ seg row n, l[args.headD 0]? = some (seg, row, n) → n < 2 ^ 32 → seg * 1024 + row < 2 ^ 32 → Leads i s (hit (pair done' (seg * 1024 + row + n * 2 ^ 32)) true)) ∧
      (l.length ≤ args.headD 0 → Leads i s (hit done' false))) ∧
    (r.work = .world u 1 args d pred → ∀ t, x.gen? x.cur = some t →
      let done' := freed s [d, d + 1] [pred]
      (∀ e sh, resolve x t (args.headD 0) = some e → t.shape e.shape = some sh → rowAddr x sh e.seg e.row (nth 0 args 1) < 2 ^ 64 → Leads i s (hit (pair done' (rowAddr x sh e.seg e.row (nth 0 args 1))) true)) ∧
      (resolve x t (args.headD 0) = none →
        ((s.tm r.team).mode.getLsbD 3 = true → (s.thr u).phase ≠ .exited → (∀ q ∈ s.faults, q.issue ≠ r.group) → LeadsTo i s done' (fun t => s.Faulted t .staleHandle [u] (s.thr u).pc)) ∧
        ((s.tm r.team).mode.getLsbD 3 = false → Leads i s ((hit done' false).modTeam r.team (fun m => if bitsOf m.teamstat.toNat 15 8 = 255 then m else { m with teamstat := m.teamstat + 256 }))))) ∧
    (r.work = .world u 2 args d pred → ∀ t, readGen x r.team = some t →
      let row := args.headD 0
      ∃ a, ((x.field 72 4 ≤ row / 1024 ∨ t.segment (row / 1024) = none) → a = 0) ∧
        (∀ g sh, row / 1024 < x.field 72 4 → t.segment (row / 1024) = some g → t.shape g.shape = some sh → a = rowAddr x sh (row / 1024) (row % 1024) (nth 0 args 1)) ∧
        (a < 2 ^ 64 → Leads i s (pair (freed s [d, d + 1] []) a))) ∧
    (r.work = .world u 3 args d pred →
      (∀ q ∈ s.reqs, q.id < r.id → q.group = r.group ∨ u ∈ q.threads → ∀ v as e p, q.work ≠ .world v 3 as e p) →
      let m := s.tm r.team
      let g := s.gr m.grid
      let done' := freed s [] [pred]
      (x.qcap ≤ x.edits.length →
        Leads (.editQueueAccept r.id) s (hit (if g.det then setNdet r.team done' else done') false)) ∧
      (x.edits.length < x.qcap → s.waits = false → (∀ va, s.isMigrating x.fn x.ctx va = false) →
        let e : Edit := ⟨args.headD 0, g.field 36 4, g.uid, m.id, (s.thr u).tid, (s.thr u).editSeq, nth 0 args 1, nth 0 args 2⟩
        let entry := (freeBytes 32 done').1
        let s1 := (worldWrite x (x.field 32 8 + 32 * x.qtail) entry false (freeBytes 32 done').2).1
        LeadsTo (.editQueueAccept r.id) s ((writeControl x.fn x.id (s1.setWorld { x with edits := x.edits ++ [e], qtail := (x.qtail + 1) % x.qcap })).modThr u (fun t =>
            { t.wp pred true with editSeq := (t.editSeq + 1) % 2 ^ 32 }))
          (fun t => ∃ y, t.world? x.fn x.id = some y ∧ y.edits = x.edits ++ [e] ∧ y.tables = x.tables))) ∧
    (r.work = .world u 4 args d pred → r.threads = [u] → x.compacted = false →
      let has := x.viewTeams.any (fun v => v.1 == r.team)
      let done' := freed s [] [pred]
      (has = true ∨ 256 ≤ x.viewTeams.length → Leads i s (hit done' false)) ∧
      (has = false → x.viewTeams.length < 256 → Leads i s ((hit (done'.setWorld { x with
          viewTeams := (r.team, x.cur) :: x.viewTeams
          tables := x.tables.map (fun (t : Tables) => if t.gen = x.cur then { t with views := t.views + 1 } else t) }) true).modTeam r.team (fun m =>
          { m.noteWrite (args.headD 0 == 1) (m.view != BitVec.ofNat 32 x.cur) (args.drop 1) (.special 2) with view := BitVec.ofNat 32 x.cur }))))

/-- R102, R103, R105, R106, R107, R296: a keystone that has been asked for takes the queue's edits, its requests and the threads parked for it, and builds the next generation beside the published one; a fault stops it with FAULTED in WSTAT until RESUME. Once it has run to its end the report names the tick of publish, at or after every write's Tw, and at that tick the generation becomes the published one, the generations without a view go, and the threads that waited are READY past their KEYS. Where the spec leaves a choice it follows the model's own, notes/assumptions 39, 44. -/
def Obligations.Keystones : Prop :=
  ∀ (s : State) (fn w : Nat) (x : World), s.Numbered → s.waits = false → s.world? fn w = some x → (∀ va, s.isMigrating fn x.ctx va = false) →
    let same (t : State) : Prop := (∀ u, Thread.SameBut [] [] (s.thr u) (t.thr u)) ∧ (∀ k, Team.SameBut [] (s.tm k) (t.tm k)) ∧ s.faults <+: t.faults ∧
      ∀ fn' w', ¬ (fn' = fn ∧ w' = w) → t.world? fn' w' = s.world? fn' w'
    let ofWorld (t : Thread) : Prop := t ∈ s.threads ∧ (s.gr (s.tm t.team).grid).fn = fn ∧ (s.gr (s.tm t.team).grid).world = some w
    (∀ g, x.keyReq ≠ [] ∨ (∃ h ∈ s.grids, h.fn = fn ∧ h.world = some w ∧ h.keysReq = true) → x.next = none → x.gen? x.cur = some g →
      ∃ t y, exec (.keystoneStart fn w) s = .next t ∧ same t ∧ t.world? fn w = some y ∧ y.cur = x.cur ∧ y.tables = x.tables ∧ y.taken = x.keyReq ∧ y.keyReq = [] ∧ y.edits = [] ∧ y.qhead = x.qtail ∧
        (∃ b, y.next = some b ∧ b.gen = g.gen + 1) ∧ ((t.reg fn false (0x2008 + 16 * w)).getLsbD 30 = y.stopped) ∧
        ∀ v, ofWorld v → v.phase = .parked .keys → v.wait.mode = 1 → v.keysTick ≠ 0 → (t.thr v.uid).wait.thr = 1) ∧
    (x.stopped = false → Leads (.wstatResume fn w) s s) ∧
    (∀ b, x.stopped = true → x.next = some b → ∃ t y, exec (.wstatResume fn w) s = .next t ∧ same t ∧ t.world? fn w = some y ∧ y.cur = x.cur ∧ y.tables = x.tables ∧ (∃ c, y.next = some c ∧ c.gen = b.gen) ∧
      (t.reg fn false (0x2008 + 16 * w)).getLsbD 30 = y.stopped) ∧
    (∀ b, x.next = some b → x.stopped = false → x.todo = [] → x.lost = false →
      (x.pubAt ≠ some s.gtick → (∀ p, x.pubAt = some p → p ≤ s.gtick) → x.maxTw ≤ s.gtick + 2 → ∃ t y p, exec (.keystonePublish fn w) s = .next t ∧ same t ∧
        s.gtick + 2 ≤ p ∧ x.maxTw ≤ p ∧ t.world? fn w = some y ∧ y = { x with pubAt := some p }) ∧
      (x.pubAt = some s.gtick → ∃ t y, exec (.keystonePublish fn w) s = .next t ∧ same t ∧ t.world? fn w = some y ∧ y.cur = b.gen ∧ y.tables = b :: x.tables.filter (fun (o : Tables) => o.views != 0) ∧
        y.next = none ∧ y.taken = [] ∧ y.edits = x.edits ∧ y.keyReq = x.keyReq ∧
        ∀ v, ofWorld v → v.phase = .parked .keys → v.wait.thr = 1 → (t.thr v.uid).phase = .ready ∧ (t.thr v.uid).pc = v.npc))

/-- A world is bound, and the world engine replies. Where the spec leaves a choice it follows the model's own, notes/assumptions 38. -/
def Obligations.WorldLinks : Prop := Claims.WorldBindings ∧ Claims.WorldReplies

/-- R355: SNAPCTL with GO arms one snapshot of a function; while one is armed a write is ignored, while one streams it sets ERR, a cut kind above 1 sets ERR at once. At the cut every page of the listed regions becomes copy-on-write; a region that cannot be read or does not translate ends the snapshot with ERR and its interrupt. A held store's pages are copied aside and the store performs on the live page. R356: the shards and the manifest are written with COMPLETE = 0, after a release COMPLETE = 1, after a second release DONE with the interrupt. -/
def Claims.Snapshots : Prop :=
  ∀ (s : State) (fn : Nat), fn ≤ 16 →
    let cur := (s.reg fn false 0x818).toNat
    let set (s : State) (n : Nat) : State := s.setReg fn false 0x818 (BitVec.ofNat 64 n)
    let mine := s.snaps.find? (fun p => p.fn == fn)
    let ends (p : Snap) (bit : Nat) (s : State) : State := ({ set s (Nat.land p.ctl 0x03FF0FFF + 2 ^ bit) with snaps := s.snaps.filter (fun q => q.fn != fn) }).send (.msix fn 3)
    (∀ v : Word,
      let kept := Nat.land v.toNat 0x03FF0FFF
      let go (s' : State) : Prop := Leads (.snapctlGo fn v) s s'
      (v.getLsbD 31 = false → go (set s (kept + Nat.land cur 0xE0000000))) ∧
      (v.getLsbD 31 = true →
        (∀ p, mine = some p → (p.cut = none → go s) ∧ (p.cut.isSome = true → go (set s (Nat.lor cur 0x40000000)))) ∧
        (mine = none → (1 < bitsOf kept 25 24 → go (set s (kept + 2 ^ 30))) ∧
          (bitsOf kept 25 24 ≤ 1 → go { set s (2 ^ 31 + kept) with snaps := s.snaps ++ [(⟨fn, kept, (s.reg fn false 0x800).toNat, (s.reg fn false 0x808).toNat, (s.reg fn false 0x810).toNat, none, none, [], [], [], [], 0, 0⟩ : Snap)] })))) ∧
    (∀ p ctx, mine = some p → p.due = some ctx → p.cut = none →
      (∀ s1, regionList fn ctx regionFuel p.list s = (s1, none) → Leads (.snapshotCut fn) s (ends p 30 s1)) ∧
      (∀ s1 es s2, regionList fn ctx regionFuel p.list s = (s1, some es) →
        (cutRegions fn ctx es s1 = (s2, none) → Leads (.snapshotCut fn) s (ends p 30 s2)) ∧
        (∀ rs, cutRegions fn ctx es s1 = (s2, some rs) →
          LeadsTo (.snapshotCut fn) s { s2 with snaps := s2.snaps.map (fun (q : Snap) => if q.fn ≠ fn then q else
              { p with cut := some s.gtick, regions := rs, worlds := es.filterMap (fun e => entryWorld fn e s2), pages := (rs.flatMap (fun r => r.map.map (·.2))).eraseDups }) }
            (fun t => ∀ r ∈ rs, ∀ m ∈ r.map, t.isCow m.2 = true)))) ∧
    (∀ (r : Req) (u : Nat) (parts : List Part),
      let g := s.gr (s.tm r.team).grid
      let pages := r.work.cowPages s
      let kept := pages.foldl (fun (s : State) p => keepPage p s) s
      s.Pending r → r.ats = 0 → r.work = .store u parts → parts ≠ [] → pages ≠ [] → r.heldBack s = false → r.yields s = false → r.work.waitsPage g.fn g.ctx kept = false → (r.waitsRelease = true → ∀ u ∈ r.threads, (s.thr u).rel = none) →
      (∃ m ∈ s.teams, m.uid = r.team) → (∀ p ∈ parts, p.nib = none ∧ ∃ va pa, p.dst = .glob va pa 1 ∧ (regionOf pa).local = true ∧ pa % 128 + p.bytes.length ≤ 128 ∧ pa / 128 ∉ s.mem.poison) →
      ∃ tw, s.gtick ≤ tw ∧ Steps (.cowPageCopy r.id) s ((parts.foldl (fun (s : State) p => s.put p.pa p.bytes) (kept.drop r)).noted (fun t => r.threads.contains t.uid) tw)
        (fun t => ∀ q ∈ s.snaps, ∀ page ∈ q.pages, page ∈ pages → ∃ q' ∈ t.snaps, q'.fn = q.fn ∧ page ∉ q'.pages ∧ ∃ bad, (page, s.mem.bytes.readN (page * 4096) 4096, bad) ∈ q'.pre)) ∧
    (∀ p ctx tick, mine = some p → p.due = some ctx → p.cut = some tick → p.target ≤ s.gtick →
      let next (stage target : Nat) (s : State) : State := { s with snaps := s.snaps.map (fun (q : Snap) => if q.fn = fn then { q with stage := stage, target := target } else q) }
      (p.stage = 0 →
        let shards := shardPlaces (p.dst + 256 + 8 * p.regions.length) (p.regions.map (fun r => shardOf p r s))
        let kept := (p.regions.zip shards).filterMap (fun (x : SnapRegion × Nat × Shard) => (p.worlds.find? (fun w => entryKind x.1.entry == 1 && w.id == entryObj x.1.entry)).map (fun w => (x.2.2.digest, w)))
        let writes := shards.map (fun x => (x.1, x.2.head ++ x.2.payload)) ++ [(p.dst, manifestOf p shards 0)]
        (∀ s1 t, writeAll fn ctx writes { s with free := s.free + 1, kept := kept ++ s.kept } = (s1, some t) → s1.waits = false → Leads (.snapshotStreamDone fn) s (next 1 t s1)) ∧
        (∀ s1, writeAll fn ctx writes { s with free := s.free + 1, kept := kept ++ s.kept } = (s1, none) → s1.waits = false → Leads (.snapshotStreamDone fn) s (ends p 30 s1))) ∧
      (∀ pas, p.stage = 1 → s.Open baseDie fn ctx (p.dst + 20) 4 pas → ∃ t, s.gtick ≤ t ∧ Steps (.snapshotStreamDone fn) s (next 2 t (s.putRange (p.dst + 20) pas (leBytes 1 4)))) ∧
      (2 ≤ p.stage → LeadsTo (.snapshotStreamDone fn) s (ends p 29 s) (fun t => ∀ q ∈ t.snaps, q.fn ≠ fn)))

/-- R357: RESTCTL with GO reads the manifests through the context of the lowest id and takes the newest step whose manifests are all usable: STATUS 2 where there is none, 3 where a region is not covered, does not fit or cannot be written; else the regions take their bytes and worlds, RESTSTEP names the step, STATUS is 1 where a mixed step was passed over and 0 otherwise; DONE and the interrupt end it. Without GO the register takes its bits. -/
def Claims.Reloads : Prop :=
  ∀ (s : State) (fn : Nat) (v : Word), fn ≤ 16 →
    let kept := bitsOf v.toNat 23 0
    let i : Instr := .restctlGo fn v
    let ends (status : Nat) (s : State) : State := (s.setReg fn false 0x890 (BitVec.ofNat 64 (2 ^ 29 + status * 2 ^ 24 + kept))).send (.msix fn 3)
    (v.getLsbD 31 = false → Leads i s (s.setReg fn false 0x890 (BitVec.ofNat 64 (kept + Nat.land (s.reg fn false 0x890).toNat 0x2F000000)))) ∧
    (v.getLsbD 31 = true →
      ((∀ c ∈ s.contexts, c.fn ≠ fn) → Leads i s (ends 2 s)) ∧
      (∀ ctx s1 ms, s.waits = false → lowestContext fn s = some ctx → readManifests fn ctx (s.reg fn false 0x888).toNat kept s = (s1, ms) →
        (pickStep ms (stepsOf ms) false = none → Leads i s (ends 2 s1)) ∧
        (∀ step mixed, pickStep ms (stepsOf ms) false = some (step, mixed) →
          let shards := (ms.filter (fun m => stepOf m.head == step)).flatMap (fun m => m.shards.filterMap id)
          (∀ s2, regionList fn ctx regionFuel (s1.reg fn false 0x880).toNat s1 = (s2, none) → Leads i s (ends 3 s2)) ∧
          (∀ s2 es, regionList fn ctx regionFuel (s1.reg fn false 0x880).toNat s1 = (s2, some es) →
            (allWrites fn shards es s2 = none → Leads i s (ends 3 s2)) ∧
            (∀ ws worlds, allWrites fn shards es s2 = some (ws, worlds) →
              (writable fn ctx ws s2 = false → Leads i s (ends 3 s2)) ∧
              (∀ s3 t, writable fn ctx ws s2 = true → writeAll fn ctx ws s2 = (s3, some t) →
                let loaded := worlds.foldl (fun (s : State) w => writeControl w.fn w.id (s.setWorld w)) { s3 with gtick := max s3.gtick t }
                loaded.waits = false →
                LeadsTo i s (ends (if mixed then 1 else 0) (loaded.setReg fn false 0x898 (BitVec.ofNat 64 step)))
                  (fun t => (t.reg fn false 0x898).toNat = step % 2 ^ 64)))))))

/-- Snapshots are armed, cut and streamed, and restores read them. Where the spec leaves a choice it follows the model's own, notes/assumptions 52, 53, 54. -/
def Obligations.Checkpoints : Prop := Claims.Snapshots ∧ Claims.Reloads

/-! ### The machine as a whole -/

/-- What State.reset holds (R349, R352; notes/assumptions 2): nothing is resident, no function is descheduled, GTICK is 0, the decks have the roles the service controller gave them, one at least that of a compute deck (R2, notes/assumptions 3), memory lists nothing, WDOG is 10,000,000,000, every function's L2 way mask is 0xFFFF and its floor weight 1. Where the spec leaves a choice it follows the model's own, notes/assumptions 2, 3. -/
def Obligations.ResetValues : Prop :=
  State.reset.gtick = 0 ∧ State.reset.threads = [] ∧ State.reset.teams = [] ∧ State.reset.grids = [] ∧ State.reset.waves = [] ∧ State.reset.reqs = [] ∧ State.reset.halted = [] ∧
  State.reset.mem.bytes = [] ∧ State.reset.mem.l1 = [] ∧ State.reset.mem.l2 = [] ∧ State.reset.mem.tlb = [] ∧ State.reset.decks = (List.range 8).map (fun d => Config.bootCompute d || d == Config.bootDeck % 8) ∧ State.reset.decks.countP id ≠ 0 ∧
  (∀ fn ≤ 16, (State.reset.reg fn false 0x700).toNat = 10000000000 ∧ (State.reset.reg 0 true (0x1000 + 4 * fn)).toNat = 0xFFFF ∧ (State.reset.reg 0 true (0x1600 + 8 * fn)).toNat = 2 ^ 32) ∧
  (∀ core b, (State.reset.bank core b).ctx = none) ∧ State.reset.Canonical ∧ State.reset.Numbered

/-- A STEP RUNS THE DECODED INSTRUCTION (R148, R179, R191): with no cut due and no step of the device set before it, the wave whose turn it is executes the instruction that its words at the PC decode to, reached through cached translations; the step is exec of that instruction, in the state that the reads of its words leave (slices, access counters, the clock), and the turn passes to the device. A step that the agenda names is executed first. Where the spec leaves a choice it follows the model's own, notes/assumptions 4, 20, 21. -/
def Obligations.StepRunsDecoded : Prop :=
  ∀ (s : State) (w : Wave) (rest : List Wave) (i : Instr) (ws : List Word),
    let s1 := chooseWave { s with beat := 1 }
    let u := w.members.headD 0
    let pc := (s.thr u).pc.toNat
    (dueCut s = none → s.agenda = [] → s.beat = 0 → pc % 4 = 0 → s.waves ≠ [] → s1.waves = w :: rest → (∀ v ∈ w.members, atBreakpoint v s = none) →
      (1 < ws.length → ∀ v ∈ w.members, (s.gridOf v).safe = false) →
      (∀ k, (h : k < ws.length) → ∃ pa mt leaf, s.Hits w.core (s.gridOf u).fn (s.gridOf u).ctx .exec (pc + 4 * k) pa mt leaf ∧ (regionOf pa).local = true ∧ pa / 128 ∉ s.mem.poison ∧ leNat (s.mem.bytes.readN pa 4) = ws[k].toNat) →
      decodeWords ws = .instr i → ∃ s2, s1.Touched s2 ∧ s2.threads = s1.threads ∧ s2.teams = s1.teams ∧ s2.waves = s1.waves ∧ s2.mem.bytes = s1.mem.bytes ∧ step s = exec i s2) ∧
    (∀ l, dueCut s = none → s.agenda = i :: l → encode i = [] → step s = exec i { s with agenda := l })

/-- Words written out from the encodings of spec/09_encoding_and_opcode_map.md decode to the instructions they stand for. -/
def Obligations.DecodeWords : Prop :=
  decodeWords [0x10489401] = .instr (.st ⟨false, 17, 20, 1⟩) ∧
  decodeWords [0x2EC0FFFF] = .instr (.waitc ⟨true, 0, 63, 63, 15⟩) ∧
  decodeWords [0x2C040004] = .instr (.br ⟨true, ⟨false, 1⟩, 4⟩) ∧
  decodeWords [0x6F000200, 0x10000000, 0] = .instr (.sleeptWide ⟨true, 0, 2, 0, false, ⟨⟨false, 1⟩, 0, 0, false, .i32, 0, false, false, 0, 0⟩⟩) ∧
  decodeWords [0x14030000] = .instr (.fenceRel ⟨false, 3, 0, 0, 0⟩) ∧
  decodeWords [0x46818312, 0x00600000, 0] = .instr (.icmp ⟨false, 3, 3, 9, false, ⟨Guard.always, 6, 0, false, .i32, 0, false, false, 0, 0⟩⟩) ∧
  decodeWords [0x53801C00, 8, 1] = .instr (.red ⟨false, 0, 28, 0, false, ⟨Guard.always, 0, 0, false, .i32, 0, false, true, 0, 1⟩⟩) ∧
  decodeWords [0x80C10000, 0, 0, 0x55667788, 0x11223344] = .instr (.movl ⟨false, 2, 0, ⟨Guard.always, 0, 0, false, .i32, 0, false, false, 0, 0⟩, 0x1122334455667788⟩) ∧
  decodeWords [0x010082FF] = .instr (.iadd ⟨false, 1, 2, 0xFF⟩) ∧ decodeWords [0x08010830] = .instr (.uadd ⟨false, 1, 2, 3, 0⟩) ∧
  decodeWords [0x18008207] = .instr (.fadd ⟨false, 1, 2, 3, true⟩) ∧ decodeWords [0x1E800000] = .instr (.keys ⟨false, 0, 0, 0, false⟩) ∧
  decodeWords [0xC0000000] = .illegalOpcode ∧ decodeWords [0x16C00000] = .illegalOpcode ∧ decodeWords [0x02000000] = .illegalOpcode ∧ decodeWords [0x00000001] = .reservedField

/-- DECODE AND ENCODE AGREE (R179 to R193): the bytes of every well-formed instruction that has words decode to it, whatever follows, and are the only words that do. Where the spec leaves a choice it follows the model's own, notes/assumptions 8. -/
def Obligations.EncodeDecode : Prop :=
  (∀ (i : Instr) (rest : List Byte), i.wf = true → encode i ≠ [] → decode false (encodeBytes i ++ rest) = (.instr i, rest)) ∧
  (∀ (ws : List Word) (i : Instr), decodeWords ws = .instr i → encode i = ws ∧ i.wf = true)

/-- Every step keeps memory in its canonical form (the model's own, notes/assumptions 1). Where the spec leaves a choice it follows the model's own, notes/assumptions 1. -/
def Obligations.CanonicalKept : Prop := ∀ s t : State, s.Canonical → step s = .next t → t.Canonical

/-- Every step keeps the numbers of threads and of teams distinct and below the next fresh one. Where the spec leaves a choice it follows the model's own, notes/assumptions 4. -/
def Obligations.NumbersKept : Prop := ∀ s t : State, s.Numbered → step s = .next t → t.Numbered

/-- R190, and of R179, R180 and R191: where the words at the PC are no instruction, every thread of the wave is FAULTED at that PC, and no register, byte or team changes: ILLEGAL_OPCODE for a word whose length code is 11 or that names no operation, SAFE_DECODE for a longer form in a SAFE launch, RESERVED_FIELD for a field that breaks its rule, PAGE_PROTECTION for a PC that is not canonical. -/
def Obligations.DecodeFaults : Prop :=
  ∀ (s : State) (w : Wave) (pc : Dword) (ws : List Word),
    dueCut s = none → s.agenda = [] → s.beat = 0 → s.waves = [w] → s.Issues w → w.members ≠ [] → (∀ v ∈ w.members, atBreakpoint v s = none ∧ (s.thr v).pc = pc) → (∀ r ∈ s.faults, r.issue ≤ s.issue) →
    let u := w.members.headD 0
    let raises (c : Cause) : Prop := ∃ t, step s = .next t ∧ ({ s with beat := 1 } : State).Touched t ∧ (∀ v ∈ w.members, (t.thr v).phase = .faulted ∧ (t.thr v).pc = pc ∧
      ∃ r ∈ t.faults.drop s.faults.length, r.cause = c ∧ r.fpc = pc ∧ r.spc = pc ∧ r.team = (s.thr v).team ∧ v ∈ r.threads)
    let holds (ws : List Word) : Prop := pc.toNat % 4 = 0 ∧ ∀ k, (h : k < ws.length) → ∃ pa mt leaf, s.Hits w.core (s.gridOf u).fn (s.gridOf u).ctx .exec (pc.toNat + 4 * k) pa mt leaf ∧ (regionOf pa).local = true ∧ pa / 128 ∉ s.mem.poison ∧
      leNat (s.mem.bytes.readN pa 4) = ws[k].toNat
    (canonical pc.toNat = false → raises .pageProtection) ∧
    (∀ w0, holds [w0] → (bitsOf w0.toNat 31 30 = 3 → raises .illegalOpcode) ∧
      (bitsOf w0.toNat 31 30 = 1 ∨ bitsOf w0.toNat 31 30 = 2 → (∀ v ∈ w.members, (s.gridOf v).safe = true) → raises .safeDecode)) ∧
    (holds ws → ws ≠ [] → (∀ v ∈ w.members, (s.gridOf v).safe = false) → wordCount (ws.headD 0) = some ws.length →
      (decodeWords ws = .illegalOpcode → raises .illegalOpcode) ∧ (decodeWords ws = .reservedField → raises .reservedField))

/-- TAKING A PRECISE FAULT (R323, R150): the thread is FAULTED and stays at the instruction, a record names it with both PCs there, no data changes, and the wave's other threads go on. So for a v register that the thread does not own (R141: RESERVED_FIELD), a poisoned one that it reads (R135: POISON), a misaligned or non-canonical load (R15, R19, R234: ALIGNMENT, PAGE_PROTECTION), a partial write of a team's register in a DET launch (R156: UNIFORM_MIX, in the wave's threads of the team), and threads that disagree at a checked BRU (R217: UNIFORM_BRANCH). Where the spec leaves a choice it follows the model's own, notes/assumptions 12, 13, 22. -/
def Obligations.PreciseFaults : Prop :=
  ∀ (s : State) (w : Wave), s.Numbered → (∀ r ∈ s.faults, r.issue ≤ s.issue) →
    let faults (i : Instr) (c : Cause) (us : List Nat) (bytes : Nat) : Prop := ∃ t, exec i s = .next t ∧ s.Then t ∧
      (∀ u ∈ us, (t.thr u).phase = .faulted ∧ (t.thr u).pc = (s.thr u).pc ∧
        ∃ r ∈ t.faults.drop s.faults.length, r.cause = c ∧ r.team = (s.thr u).team ∧ r.wide = false ∧ r.deferred = false ∧ u ∈ r.threads ∧ ∃ v ∈ us, r.fpc = (s.thr v).pc ∧ r.spc = (s.thr v).pc) ∧
      ∀ v ∈ w.members, v ∉ us → (t.thr v).pc = (s.thr v).pc + BitVec.ofNat 64 bytes
    (∀ (x : WA) (u : Nat), (Instr.iaddWide x).wf = true → s.Lone w x.x.g { rs := x.ob.ss false } u →
      let named := x.d.toNat :: x.a.toNat :: x.ob.vs false
      (∀ r ∈ named, r ∉ (s.thr u).pendV) →
      ((∃ r ∈ named, (s.thr u).owned ≤ r) → faults (.iaddWide x) .reservedField [u] 12) ∧
      ((∀ r ∈ named, r < (s.thr u).owned) → (∃ r ∈ x.a.toNat :: x.ob.vs false, r ∈ (s.thr u).poison) → faults (.iaddWide x) .poison [u] 12)) ∧
    (∀ (y : WM) (u va : Nat), let x := wmData y
      (Instr.ldWide y).wf = true → s.Lone w x.g { rv := [x.a, x.a + 1], wv := x.regs, cls := .ld } u → (x.vas ((s.thr u).rpair x.a)).head? = some va →
      (canonical va = false → faults (.ldWide y) .pageProtection [u] 12) ∧
      (canonical va = true → va % elemBytes x.ty ≠ 0 → faults (.ldWide y) .alignment [u] 12)) ∧
    (∀ (x : SS) (k : Nat), s.Ready w Guard.always { rs := [x.a.toNat, x.b.toNat], ws := [x.d.toNat] } → w.members ≠ [] → (∀ u ∈ w.members, (s.thr u).team = k) → ¬ s.Whole w k → s.det k = true →
      (Instr.uadd x).wf = true → faults (.uadd x) .uniformMix w.members 4) ∧
    (∀ (x : SB) (k l u : Nat), s.Ready w Guard.always { rp := [x.g.pred.toNat] } → (∀ v ∈ w.members, (s.thr v).team = k) → (s.tm k).mode.getLsbD 0 = true →
      s.Supplies w Guard.always k l → u ∈ w.members → (s.thr u).guard x.g ≠ (s.thr l).guard x.g → (Instr.bru x).wf = true → faults (.bru x) .uniformBranch w.members 4)
end

