-- ==== Sys2Proof/Laws/Memory.lean ====
section
/-! SUPPORT. Memory in its canonical form: every operation keeps the form, a read after a write, and equal reads make equal memories. -/
namespace Sys2Proof.Machine

/-- Below the bound of a canonical list nothing is listed. -/
theorem Memory.read_below {m : Memory} {lo a : Nat} (h : m.wfFrom lo = true) (ha : a < lo) : m.read a = 0 := by
  cases m with
  | nil => rfl
  | cons c m =>
    simp only [Memory.wfFrom, Bool.and_eq_true, decide_eq_true_eq] at h
    have h1 : a ≠ c.1 := by omega
    have h2 : a < c.1 := by omega
    simp [Memory.read, h1, h2]
/-- The bound may be lowered. -/
theorem Memory.wfFrom_le {m : Memory} {lo lo' : Nat} (h : m.wfFrom lo = true) (hl : lo' ≤ lo) : m.wfFrom lo' = true := by
  cases m with
  | nil => rfl
  | cons c m =>
    simp only [Memory.wfFrom, Bool.and_eq_true, decide_eq_true_eq] at h ⊢
    exact ⟨⟨by omega, h.1.2⟩, h.2⟩
/-- A write at or above the bound keeps the canonical form. -/
theorem Memory.write_wfFrom {m : Memory} {lo a : Nat} (y : Byte) (h : m.wfFrom lo = true) (ha : lo ≤ a) : (m.write a y).wfFrom lo = true := by
  induction m generalizing lo with
  | nil =>
    by_cases hy : y = 0#8
    · simp [Memory.write, hy, Memory.wfFrom]
    · simp [Memory.write, hy, Memory.wfFrom, ha]
  | cons c m ih =>
    obtain ⟨b, x⟩ := c
    have h0 := h
    simp only [Memory.wfFrom, Bool.and_eq_true, decide_eq_true_eq, bne_iff_ne, ne_eq] at h
    obtain ⟨⟨h1, h2⟩, h3⟩ := h
    have h2' : ¬ x = 0#8 := h2
    unfold Memory.write
    split
    · rename_i hab
      by_cases hy : y = 0#8
      · simpa [hy] using h0
      · simp [hy, Memory.wfFrom, ha, h2', h3, hab]
    · split
      · rename_i hab
        by_cases hy : y = 0#8
        · simpa [hy] using Memory.wfFrom_le h3 (by omega)
        · subst hab
          simp [hy, Memory.wfFrom, ha, h3]
      · simp only [Memory.wfFrom, Bool.and_eq_true, decide_eq_true_eq, bne_iff_ne, ne_eq]
        exact ⟨⟨h1, h2⟩, ih h3 (by omega)⟩
/-- A write keeps the canonical form. -/
theorem Memory.write_wf {m : Memory} (a : Nat) (y : Byte) (h : m.wf = true) : (m.write a y).wf = true :=
  Memory.write_wfFrom y h (Nat.zero_le a)
/-- A run of writes keeps the canonical form. -/
theorem Memory.writeN_wf {m : Memory} (a : Nat) (bs : List Byte) (h : m.wf = true) : (m.writeN a bs).wf = true := by
  induction bs generalizing m a with
  | nil => exact h
  | cons b bs ih => exact ih (a + 1) (Memory.write_wf a b h)
/-- Writes one after another keep the canonical form. -/
theorem Memory.foldl_write_wf {α : Type} (l : List α) (f : α → Nat) (g : α → Byte) {m : Memory} (h : m.wf = true) :
    (l.foldl (fun m x => m.write (f x) (g x)) m).wf = true := by
  induction l generalizing m with
  | nil => exact h
  | cons x l ih => exact ih (Memory.write_wf _ _ h)
/-- A part of a canonical list is canonical. -/
theorem Memory.filter_wfFrom {m : Memory} {lo : Nat} (p : Host.Cell → Bool) (h : m.wfFrom lo = true) : Memory.wfFrom lo (m.filter p) = true := by
  induction m generalizing lo with
  | nil => rfl
  | cons c m ih =>
    have h' := h
    simp only [Memory.wfFrom, Bool.and_eq_true, decide_eq_true_eq] at h'
    by_cases hp : p c
    · rw [List.filter_cons_of_pos hp]
      simp only [Memory.wfFrom, Bool.and_eq_true, decide_eq_true_eq]
      exact ⟨h'.1, ih h'.2⟩
    · rw [List.filter_cons_of_neg hp]
      exact Memory.wfFrom_le (ih h'.2) (by omega)
/-- Dropping addresses keeps the canonical form. -/
theorem Memory.filter_wf {m : Memory} (p : Host.Cell → Bool) (h : m.wf = true) : Memory.wf (m.filter p) = true := Memory.filter_wfFrom p h
/-- Writing changed bytes keeps the canonical form. -/
theorem writeChanged_wf {m : Memory} (a : Nat) (xs ys : List Byte) (h : m.wf = true) : (writeChanged m a xs ys).wf = true := by
  induction xs generalizing m a ys with
  | nil => cases ys <;> exact h
  | cons x xs ih =>
    cases ys with
    | nil => exact h
    | cons y ys =>
      simp only [writeChanged]
      split
      · exact ih _ _ h
      · exact ih _ _ (Memory.write_wf _ _ h)

/-- A read after a write: the byte written at its address, the old byte elsewhere. -/
theorem Memory.read_write_from {m : Memory} {lo : Nat} (h : m.wfFrom lo = true) (a : Nat) (y : Byte) (b : Nat) :
    (m.write a y).read b = if b = a then y else m.read b := by
  induction m generalizing lo with
  | nil =>
    by_cases hy : y = 0#8
    · subst hy; simp [Memory.write, Memory.read]
    · simp [Memory.write, Memory.read, hy]
  | cons c m ih =>
    obtain ⟨k, x⟩ := c
    simp only [Memory.wfFrom, Bool.and_eq_true, decide_eq_true_eq, bne_iff_ne, ne_eq] at h
    obtain ⟨⟨h1, h2⟩, h3⟩ := h
    unfold Memory.write
    split
    · rename_i hak
      by_cases hy : y = 0#8
      · subst hy
        by_cases hb : b = a
        · subst hb
          have : b ≠ k := by omega
          simp [Memory.read, this, hak]
        · simp [hb]
      · simp only [if_neg (show ¬ y = 0 from hy)]
        by_cases hb : b = a
        · simp [Memory.read, hb]
        · by_cases hlt : b < a
          · have h4 : b ≠ k := by omega
            have h5 : b < k := by omega
            simp [Memory.read, hb, hlt, h4, h5]
          · simp [Memory.read, hb, hlt]
    · split
      · rename_i hnk hak
        subst hak
        by_cases hy : y = 0#8
        · subst hy
          by_cases hb : b = a
          · subst hb; simp [Memory.read_below h3 (Nat.lt_succ_self _)]
          · by_cases hlt : b < a
            · simp [Memory.read, hb, hlt, Memory.read_below h3 (Nat.lt_succ_of_lt hlt)]
            · simp [Memory.read, hb, hlt]
        · by_cases hb : b = a
          · simp [Memory.read, hb, hy]
          · simp [Memory.read, hb, hy]
      · rename_i hnk hnak
        simp only [Memory.read]
        by_cases hbk : b = k
        · have : b ≠ a := by omega
          subst hbk; simp [this]
        · simp only [if_neg hbk]
          by_cases hlt : b < k
          · have : b ≠ a := by omega
            simp [hlt, this]
          · simp only [if_neg hlt]; exact ih h3
/-- A read after a write. -/
theorem Memory.read_write {m : Memory} (h : m.wf = true) (a : Nat) (y : Byte) (b : Nat) :
    (m.write a y).read b = if b = a then y else m.read b := Memory.read_write_from h a y b
/-- A read after a run of writes: outside the run nothing changes. -/
theorem Memory.read_writeN_out {m : Memory} (h : m.wf = true) (a : Nat) (bs : List Byte) (b : Nat) (hb : b < a ∨ a + bs.length ≤ b) :
    (m.writeN a bs).read b = m.read b := by
  induction bs generalizing m a with
  | nil => rfl
  | cons x bs ih =>
    simp only [List.length_cons] at hb
    rw [Memory.writeN, ih (Memory.write_wf a x h) (a + 1) (by omega), Memory.read_write h, if_neg (by omega)]
/-- A read after a run of writes: inside the run the byte written. -/
theorem Memory.read_writeN_in {m : Memory} (h : m.wf = true) (a : Nat) (bs : List Byte) (k : Nat) (hk : k < bs.length) :
    (m.writeN a bs).read (a + k) = bs.getD k 0 := by
  induction bs generalizing m a k with
  | nil => simp at hk
  | cons x bs ih =>
    cases k with
    | zero =>
      rw [Memory.writeN, Memory.read_writeN_out (Memory.write_wf a x h) (a + 1) bs (a + 0) (by omega), Memory.read_write h]
      simp
    | succ k =>
      have := ih (Memory.write_wf a x h) (a + 1) k (by simpa using hk)
      rw [Memory.writeN]
      simpa [Nat.add_assoc, Nat.add_comm 1 k] using this
/-- Bytes that writeChanged may touch: those of the shorter list. -/
theorem writeChanged_read_out {m : Memory} (h : m.wf = true) (a : Nat) (xs ys : List Byte) (b : Nat) (hb : b < a ∨ a + xs.length ≤ b) :
    (writeChanged m a xs ys).read b = m.read b := by
  induction xs generalizing m a ys with
  | nil => cases ys <;> rfl
  | cons x xs ih =>
    simp only [List.length_cons] at hb
    cases ys with
    | nil => rfl
    | cons y ys =>
      simp only [writeChanged]
      split
      · exact ih h (a + 1) ys (by omega)
      · rw [ih (Memory.write_wf _ _ h) (a + 1) ys (by omega), Memory.read_write h, if_neg (by omega)]

/-- Equal reads make equal canonical memories. -/
theorem Memory.ext_read {m n : Memory} (hm : m.wf = true) (hn : n.wf = true) (h : ∀ a, m.read a = n.read a) : m = n := by
  suffices ∀ (m n : Memory) (lo : Nat), m.wfFrom lo = true → n.wfFrom lo = true → (∀ a, m.read a = n.read a) → m = n from this m n 0 hm hn h
  intro m
  induction m with
  | nil =>
    intro n lo _ hn h
    cases n with
    | nil => rfl
    | cons c n =>
      obtain ⟨b, y⟩ := c
      simp only [Memory.wfFrom, Bool.and_eq_true, decide_eq_true_eq, bne_iff_ne, ne_eq] at hn
      have := h b
      simp only [Memory.read, if_true] at this
      exact absurd this.symm hn.1.2
  | cons c m ih =>
    intro n lo hm hn h
    obtain ⟨b, x⟩ := c
    simp only [Memory.wfFrom, Bool.and_eq_true, decide_eq_true_eq, bne_iff_ne, ne_eq] at hm
    cases n with
    | nil =>
      have := h b
      simp only [Memory.read, if_true] at this
      exact absurd this hm.1.2
    | cons d n =>
      obtain ⟨k, y⟩ := d
      simp only [Memory.wfFrom, Bool.and_eq_true, decide_eq_true_eq, bne_iff_ne, ne_eq] at hn
      have hbk : b = k := by
        rcases Nat.lt_trichotomy b k with hlt | heq | hgt
        · have := h b
          have h1 : b ≠ k := by omega
          simp [Memory.read, h1, hlt] at this
          exact absurd this hm.1.2
        · exact heq
        · have := h k
          have h1 : k ≠ b := by omega
          simp [Memory.read, h1, hgt] at this
          exact absurd this.symm hn.1.2
      subst hbk
      have hxy : x = y := by simpa [Memory.read] using h b
      subst hxy
      have : m = n := ih n (b + 1) hm.2 hn.2 (fun a => by
        by_cases hab : a < b + 1
        · rw [Memory.read_below hm.2 hab, Memory.read_below hn.2 hab]
        · have := h a
          have h1 : a ≠ b := by omega
          have h2 : ¬ a < b := by omega
          simpa [Memory.read, h1, h2] using this)
      rw [this]

end Sys2Proof.Machine
end

