-- ==== Sys2Proof/Laws/State.lean ====
section
/-! SUPPORT. What each update of the state, of a thread and of a team leaves alone and what it changes: one lemma for each field of each update. -/
namespace Sys2Proof.Machine

/-! State.modThr -/

@[simp] theorem State.modThr_gtick (s : State) (u : Nat) (f : Thread → Thread) : (s.modThr u f).gtick = s.gtick := rfl
@[simp] theorem State.modThr_mem (s : State) (u : Nat) (f : Thread → Thread) : (s.modThr u f).mem = s.mem := rfl
@[simp] theorem State.modThr_teams (s : State) (u : Nat) (f : Thread → Thread) : (s.modThr u f).teams = s.teams := rfl
@[simp] theorem State.modThr_grids (s : State) (u : Nat) (f : Thread → Thread) : (s.modThr u f).grids = s.grids := rfl
@[simp] theorem State.modThr_contexts (s : State) (u : Nat) (f : Thread → Thread) : (s.modThr u f).contexts = s.contexts := rfl
@[simp] theorem State.modThr_queues (s : State) (u : Nat) (f : Thread → Thread) : (s.modThr u f).queues = s.queues := rfl
@[simp] theorem State.modThr_qown (s : State) (u : Nat) (f : Thread → Thread) : (s.modThr u f).qown = s.qown := rfl
@[simp] theorem State.modThr_tasks (s : State) (u : Nat) (f : Thread → Thread) : (s.modThr u f).tasks = s.tasks := rfl
@[simp] theorem State.modThr_cores (s : State) (u : Nat) (f : Thread → Thread) : (s.modThr u f).cores = s.cores := rfl
@[simp] theorem State.modThr_clusters (s : State) (u : Nat) (f : Thread → Thread) : (s.modThr u f).clusters = s.clusters := rfl
@[simp] theorem State.modThr_waves (s : State) (u : Nat) (f : Thread → Thread) : (s.modThr u f).waves = s.waves := rfl
@[simp] theorem State.modThr_reqs (s : State) (u : Nat) (f : Thread → Thread) : (s.modThr u f).reqs = s.reqs := rfl
@[simp] theorem State.modThr_coll (s : State) (u : Nat) (f : Thread → Thread) : (s.modThr u f).coll = s.coll := rfl
@[simp] theorem State.modThr_copies (s : State) (u : Nat) (f : Thread → Thread) : (s.modThr u f).copies = s.copies := rfl
@[simp] theorem State.modThr_bins (s : State) (u : Nat) (f : Thread → Thread) : (s.modThr u f).bins = s.bins := rfl
@[simp] theorem State.modThr_spaces (s : State) (u : Nat) (f : Thread → Thread) : (s.modThr u f).spaces = s.spaces := rfl
@[simp] theorem State.modThr_worlds (s : State) (u : Nat) (f : Thread → Thread) : (s.modThr u f).worlds = s.worlds := rfl
@[simp] theorem State.modThr_faults (s : State) (u : Nat) (f : Thread → Thread) : (s.modThr u f).faults = s.faults := rfl
@[simp] theorem State.modThr_services (s : State) (u : Nat) (f : Thread → Thread) : (s.modThr u f).services = s.services := rfl
@[simp] theorem State.modThr_slots (s : State) (u : Nat) (f : Thread → Thread) : (s.modThr u f).slots = s.slots := rfl
@[simp] theorem State.modThr_snaps (s : State) (u : Nat) (f : Thread → Thread) : (s.modThr u f).snaps = s.snaps := rfl
@[simp] theorem State.modThr_shoots (s : State) (u : Nat) (f : Thread → Thread) : (s.modThr u f).shoots = s.shoots := rfl
@[simp] theorem State.modThr_regs (s : State) (u : Nat) (f : Thread → Thread) : (s.modThr u f).regs = s.regs := rfl
@[simp] theorem State.modThr_decks (s : State) (u : Nat) (f : Thread → Thread) : (s.modThr u f).decks = s.decks := rfl
@[simp] theorem State.modThr_topo (s : State) (u : Nat) (f : Thread → Thread) : (s.modThr u f).topo = s.topo := rfl
@[simp] theorem State.modThr_clock (s : State) (u : Nat) (f : Thread → Thread) : (s.modThr u f).clock = s.clock := rfl
@[simp] theorem State.modThr_halted (s : State) (u : Nat) (f : Thread → Thread) : (s.modThr u f).halted = s.halted := rfl
@[simp] theorem State.modThr_stolen (s : State) (u : Nat) (f : Thread → Thread) : (s.modThr u f).stolen = s.stolen := rfl
@[simp] theorem State.modThr_served (s : State) (u : Nat) (f : Thread → Thread) : (s.modThr u f).served = s.served := rfl
@[simp] theorem State.modThr_window (s : State) (u : Nat) (f : Thread → Thread) : (s.modThr u f).window = s.window := rfl
@[simp] theorem State.modThr_turns (s : State) (u : Nat) (f : Thread → Thread) : (s.modThr u f).turns = s.turns := rfl
@[simp] theorem State.modThr_collSeq (s : State) (u : Nat) (f : Thread → Thread) : (s.modThr u f).collSeq = s.collSeq := rfl
@[simp] theorem State.modThr_firmware (s : State) (u : Nat) (f : Thread → Thread) : (s.modThr u f).firmware = s.firmware := rfl
@[simp] theorem State.modThr_enc (s : State) (u : Nat) (f : Thread → Thread) : (s.modThr u f).enc = s.enc := rfl
@[simp] theorem State.modThr_kept (s : State) (u : Nat) (f : Thread → Thread) : (s.modThr u f).kept = s.kept := rfl
@[simp] theorem State.modThr_outbox (s : State) (u : Nat) (f : Thread → Thread) : (s.modThr u f).outbox = s.outbox := rfl
@[simp] theorem State.modThr_watched (s : State) (u : Nat) (f : Thread → Thread) : (s.modThr u f).watched = s.watched := rfl
@[simp] theorem State.modThr_agenda (s : State) (u : Nat) (f : Thread → Thread) : (s.modThr u f).agenda = s.agenda := rfl
@[simp] theorem State.modThr_free (s : State) (u : Nat) (f : Thread → Thread) : (s.modThr u f).free = s.free := rfl
@[simp] theorem State.modThr_issue (s : State) (u : Nat) (f : Thread → Thread) : (s.modThr u f).issue = s.issue := rfl
@[simp] theorem State.modThr_nextId (s : State) (u : Nat) (f : Thread → Thread) : (s.modThr u f).nextId = s.nextId := rfl
@[simp] theorem State.modThr_beat (s : State) (u : Nat) (f : Thread → Thread) : (s.modThr u f).beat = s.beat := rfl
@[simp] theorem State.modThr_keyTail (s : State) (u : Nat) (f : Thread → Thread) : (s.modThr u f).keyTail = s.keyTail := rfl
@[simp] theorem State.modThr_waits (s : State) (u : Nat) (f : Thread → Thread) : (s.modThr u f).waits = s.waits := rfl
@[simp] theorem State.modThr_threads (s : State) (u : Nat) (f : Thread → Thread) : (s.modThr u f).threads = s.threads.map (fun t => if t.uid = u then f t else t) := rfl

/-! State.modTeam -/

@[simp] theorem State.modTeam_gtick (s : State) (u : Nat) (f : Team → Team) : (s.modTeam u f).gtick = s.gtick := rfl
@[simp] theorem State.modTeam_mem (s : State) (u : Nat) (f : Team → Team) : (s.modTeam u f).mem = s.mem := rfl
@[simp] theorem State.modTeam_threads (s : State) (u : Nat) (f : Team → Team) : (s.modTeam u f).threads = s.threads := rfl
@[simp] theorem State.modTeam_grids (s : State) (u : Nat) (f : Team → Team) : (s.modTeam u f).grids = s.grids := rfl
@[simp] theorem State.modTeam_contexts (s : State) (u : Nat) (f : Team → Team) : (s.modTeam u f).contexts = s.contexts := rfl
@[simp] theorem State.modTeam_queues (s : State) (u : Nat) (f : Team → Team) : (s.modTeam u f).queues = s.queues := rfl
@[simp] theorem State.modTeam_qown (s : State) (u : Nat) (f : Team → Team) : (s.modTeam u f).qown = s.qown := rfl
@[simp] theorem State.modTeam_tasks (s : State) (u : Nat) (f : Team → Team) : (s.modTeam u f).tasks = s.tasks := rfl
@[simp] theorem State.modTeam_cores (s : State) (u : Nat) (f : Team → Team) : (s.modTeam u f).cores = s.cores := rfl
@[simp] theorem State.modTeam_clusters (s : State) (u : Nat) (f : Team → Team) : (s.modTeam u f).clusters = s.clusters := rfl
@[simp] theorem State.modTeam_waves (s : State) (u : Nat) (f : Team → Team) : (s.modTeam u f).waves = s.waves := rfl
@[simp] theorem State.modTeam_reqs (s : State) (u : Nat) (f : Team → Team) : (s.modTeam u f).reqs = s.reqs := rfl
@[simp] theorem State.modTeam_coll (s : State) (u : Nat) (f : Team → Team) : (s.modTeam u f).coll = s.coll := rfl
@[simp] theorem State.modTeam_copies (s : State) (u : Nat) (f : Team → Team) : (s.modTeam u f).copies = s.copies := rfl
@[simp] theorem State.modTeam_bins (s : State) (u : Nat) (f : Team → Team) : (s.modTeam u f).bins = s.bins := rfl
@[simp] theorem State.modTeam_spaces (s : State) (u : Nat) (f : Team → Team) : (s.modTeam u f).spaces = s.spaces := rfl
@[simp] theorem State.modTeam_worlds (s : State) (u : Nat) (f : Team → Team) : (s.modTeam u f).worlds = s.worlds := rfl
@[simp] theorem State.modTeam_faults (s : State) (u : Nat) (f : Team → Team) : (s.modTeam u f).faults = s.faults := rfl
@[simp] theorem State.modTeam_services (s : State) (u : Nat) (f : Team → Team) : (s.modTeam u f).services = s.services := rfl
@[simp] theorem State.modTeam_slots (s : State) (u : Nat) (f : Team → Team) : (s.modTeam u f).slots = s.slots := rfl
@[simp] theorem State.modTeam_snaps (s : State) (u : Nat) (f : Team → Team) : (s.modTeam u f).snaps = s.snaps := rfl
@[simp] theorem State.modTeam_shoots (s : State) (u : Nat) (f : Team → Team) : (s.modTeam u f).shoots = s.shoots := rfl
@[simp] theorem State.modTeam_regs (s : State) (u : Nat) (f : Team → Team) : (s.modTeam u f).regs = s.regs := rfl
@[simp] theorem State.modTeam_decks (s : State) (u : Nat) (f : Team → Team) : (s.modTeam u f).decks = s.decks := rfl
@[simp] theorem State.modTeam_topo (s : State) (u : Nat) (f : Team → Team) : (s.modTeam u f).topo = s.topo := rfl
@[simp] theorem State.modTeam_clock (s : State) (u : Nat) (f : Team → Team) : (s.modTeam u f).clock = s.clock := rfl
@[simp] theorem State.modTeam_halted (s : State) (u : Nat) (f : Team → Team) : (s.modTeam u f).halted = s.halted := rfl
@[simp] theorem State.modTeam_stolen (s : State) (u : Nat) (f : Team → Team) : (s.modTeam u f).stolen = s.stolen := rfl
@[simp] theorem State.modTeam_served (s : State) (u : Nat) (f : Team → Team) : (s.modTeam u f).served = s.served := rfl
@[simp] theorem State.modTeam_window (s : State) (u : Nat) (f : Team → Team) : (s.modTeam u f).window = s.window := rfl
@[simp] theorem State.modTeam_turns (s : State) (u : Nat) (f : Team → Team) : (s.modTeam u f).turns = s.turns := rfl
@[simp] theorem State.modTeam_collSeq (s : State) (u : Nat) (f : Team → Team) : (s.modTeam u f).collSeq = s.collSeq := rfl
@[simp] theorem State.modTeam_firmware (s : State) (u : Nat) (f : Team → Team) : (s.modTeam u f).firmware = s.firmware := rfl
@[simp] theorem State.modTeam_enc (s : State) (u : Nat) (f : Team → Team) : (s.modTeam u f).enc = s.enc := rfl
@[simp] theorem State.modTeam_kept (s : State) (u : Nat) (f : Team → Team) : (s.modTeam u f).kept = s.kept := rfl
@[simp] theorem State.modTeam_outbox (s : State) (u : Nat) (f : Team → Team) : (s.modTeam u f).outbox = s.outbox := rfl
@[simp] theorem State.modTeam_watched (s : State) (u : Nat) (f : Team → Team) : (s.modTeam u f).watched = s.watched := rfl
@[simp] theorem State.modTeam_agenda (s : State) (u : Nat) (f : Team → Team) : (s.modTeam u f).agenda = s.agenda := rfl
@[simp] theorem State.modTeam_free (s : State) (u : Nat) (f : Team → Team) : (s.modTeam u f).free = s.free := rfl
@[simp] theorem State.modTeam_issue (s : State) (u : Nat) (f : Team → Team) : (s.modTeam u f).issue = s.issue := rfl
@[simp] theorem State.modTeam_nextId (s : State) (u : Nat) (f : Team → Team) : (s.modTeam u f).nextId = s.nextId := rfl
@[simp] theorem State.modTeam_beat (s : State) (u : Nat) (f : Team → Team) : (s.modTeam u f).beat = s.beat := rfl
@[simp] theorem State.modTeam_keyTail (s : State) (u : Nat) (f : Team → Team) : (s.modTeam u f).keyTail = s.keyTail := rfl
@[simp] theorem State.modTeam_waits (s : State) (u : Nat) (f : Team → Team) : (s.modTeam u f).waits = s.waits := rfl
@[simp] theorem State.modTeam_teams (s : State) (u : Nat) (f : Team → Team) : (s.modTeam u f).teams = s.teams.map (fun t => if t.uid = u then f t else t) := rfl

/-! State.modGrid -/

@[simp] theorem State.modGrid_gtick (s : State) (u : Nat) (f : Grid → Grid) : (s.modGrid u f).gtick = s.gtick := rfl
@[simp] theorem State.modGrid_mem (s : State) (u : Nat) (f : Grid → Grid) : (s.modGrid u f).mem = s.mem := rfl
@[simp] theorem State.modGrid_threads (s : State) (u : Nat) (f : Grid → Grid) : (s.modGrid u f).threads = s.threads := rfl
@[simp] theorem State.modGrid_teams (s : State) (u : Nat) (f : Grid → Grid) : (s.modGrid u f).teams = s.teams := rfl
@[simp] theorem State.modGrid_contexts (s : State) (u : Nat) (f : Grid → Grid) : (s.modGrid u f).contexts = s.contexts := rfl
@[simp] theorem State.modGrid_queues (s : State) (u : Nat) (f : Grid → Grid) : (s.modGrid u f).queues = s.queues := rfl
@[simp] theorem State.modGrid_qown (s : State) (u : Nat) (f : Grid → Grid) : (s.modGrid u f).qown = s.qown := rfl
@[simp] theorem State.modGrid_tasks (s : State) (u : Nat) (f : Grid → Grid) : (s.modGrid u f).tasks = s.tasks := rfl
@[simp] theorem State.modGrid_cores (s : State) (u : Nat) (f : Grid → Grid) : (s.modGrid u f).cores = s.cores := rfl
@[simp] theorem State.modGrid_clusters (s : State) (u : Nat) (f : Grid → Grid) : (s.modGrid u f).clusters = s.clusters := rfl
@[simp] theorem State.modGrid_waves (s : State) (u : Nat) (f : Grid → Grid) : (s.modGrid u f).waves = s.waves := rfl
@[simp] theorem State.modGrid_reqs (s : State) (u : Nat) (f : Grid → Grid) : (s.modGrid u f).reqs = s.reqs := rfl
@[simp] theorem State.modGrid_coll (s : State) (u : Nat) (f : Grid → Grid) : (s.modGrid u f).coll = s.coll := rfl
@[simp] theorem State.modGrid_copies (s : State) (u : Nat) (f : Grid → Grid) : (s.modGrid u f).copies = s.copies := rfl
@[simp] theorem State.modGrid_bins (s : State) (u : Nat) (f : Grid → Grid) : (s.modGrid u f).bins = s.bins := rfl
@[simp] theorem State.modGrid_spaces (s : State) (u : Nat) (f : Grid → Grid) : (s.modGrid u f).spaces = s.spaces := rfl
@[simp] theorem State.modGrid_worlds (s : State) (u : Nat) (f : Grid → Grid) : (s.modGrid u f).worlds = s.worlds := rfl
@[simp] theorem State.modGrid_faults (s : State) (u : Nat) (f : Grid → Grid) : (s.modGrid u f).faults = s.faults := rfl
@[simp] theorem State.modGrid_services (s : State) (u : Nat) (f : Grid → Grid) : (s.modGrid u f).services = s.services := rfl
@[simp] theorem State.modGrid_slots (s : State) (u : Nat) (f : Grid → Grid) : (s.modGrid u f).slots = s.slots := rfl
@[simp] theorem State.modGrid_snaps (s : State) (u : Nat) (f : Grid → Grid) : (s.modGrid u f).snaps = s.snaps := rfl
@[simp] theorem State.modGrid_shoots (s : State) (u : Nat) (f : Grid → Grid) : (s.modGrid u f).shoots = s.shoots := rfl
@[simp] theorem State.modGrid_regs (s : State) (u : Nat) (f : Grid → Grid) : (s.modGrid u f).regs = s.regs := rfl
@[simp] theorem State.modGrid_decks (s : State) (u : Nat) (f : Grid → Grid) : (s.modGrid u f).decks = s.decks := rfl
@[simp] theorem State.modGrid_topo (s : State) (u : Nat) (f : Grid → Grid) : (s.modGrid u f).topo = s.topo := rfl
@[simp] theorem State.modGrid_clock (s : State) (u : Nat) (f : Grid → Grid) : (s.modGrid u f).clock = s.clock := rfl
@[simp] theorem State.modGrid_halted (s : State) (u : Nat) (f : Grid → Grid) : (s.modGrid u f).halted = s.halted := rfl
@[simp] theorem State.modGrid_stolen (s : State) (u : Nat) (f : Grid → Grid) : (s.modGrid u f).stolen = s.stolen := rfl
@[simp] theorem State.modGrid_served (s : State) (u : Nat) (f : Grid → Grid) : (s.modGrid u f).served = s.served := rfl
@[simp] theorem State.modGrid_window (s : State) (u : Nat) (f : Grid → Grid) : (s.modGrid u f).window = s.window := rfl
@[simp] theorem State.modGrid_turns (s : State) (u : Nat) (f : Grid → Grid) : (s.modGrid u f).turns = s.turns := rfl
@[simp] theorem State.modGrid_collSeq (s : State) (u : Nat) (f : Grid → Grid) : (s.modGrid u f).collSeq = s.collSeq := rfl
@[simp] theorem State.modGrid_firmware (s : State) (u : Nat) (f : Grid → Grid) : (s.modGrid u f).firmware = s.firmware := rfl
@[simp] theorem State.modGrid_enc (s : State) (u : Nat) (f : Grid → Grid) : (s.modGrid u f).enc = s.enc := rfl
@[simp] theorem State.modGrid_kept (s : State) (u : Nat) (f : Grid → Grid) : (s.modGrid u f).kept = s.kept := rfl
@[simp] theorem State.modGrid_outbox (s : State) (u : Nat) (f : Grid → Grid) : (s.modGrid u f).outbox = s.outbox := rfl
@[simp] theorem State.modGrid_watched (s : State) (u : Nat) (f : Grid → Grid) : (s.modGrid u f).watched = s.watched := rfl
@[simp] theorem State.modGrid_agenda (s : State) (u : Nat) (f : Grid → Grid) : (s.modGrid u f).agenda = s.agenda := rfl
@[simp] theorem State.modGrid_free (s : State) (u : Nat) (f : Grid → Grid) : (s.modGrid u f).free = s.free := rfl
@[simp] theorem State.modGrid_issue (s : State) (u : Nat) (f : Grid → Grid) : (s.modGrid u f).issue = s.issue := rfl
@[simp] theorem State.modGrid_nextId (s : State) (u : Nat) (f : Grid → Grid) : (s.modGrid u f).nextId = s.nextId := rfl
@[simp] theorem State.modGrid_beat (s : State) (u : Nat) (f : Grid → Grid) : (s.modGrid u f).beat = s.beat := rfl
@[simp] theorem State.modGrid_keyTail (s : State) (u : Nat) (f : Grid → Grid) : (s.modGrid u f).keyTail = s.keyTail := rfl
@[simp] theorem State.modGrid_waits (s : State) (u : Nat) (f : Grid → Grid) : (s.modGrid u f).waits = s.waits := rfl
@[simp] theorem State.modGrid_grids (s : State) (u : Nat) (f : Grid → Grid) : (s.modGrid u f).grids = s.grids.map (fun g => if g.uid = u then f g else g) := rfl

/-! State.modCtx -/

@[simp] theorem State.modCtx_gtick (s : State) (fn ctx : Nat) (f : Context → Context) : (s.modCtx fn ctx f).gtick = s.gtick := rfl
@[simp] theorem State.modCtx_mem (s : State) (fn ctx : Nat) (f : Context → Context) : (s.modCtx fn ctx f).mem = s.mem := rfl
@[simp] theorem State.modCtx_threads (s : State) (fn ctx : Nat) (f : Context → Context) : (s.modCtx fn ctx f).threads = s.threads := rfl
@[simp] theorem State.modCtx_teams (s : State) (fn ctx : Nat) (f : Context → Context) : (s.modCtx fn ctx f).teams = s.teams := rfl
@[simp] theorem State.modCtx_grids (s : State) (fn ctx : Nat) (f : Context → Context) : (s.modCtx fn ctx f).grids = s.grids := rfl
@[simp] theorem State.modCtx_queues (s : State) (fn ctx : Nat) (f : Context → Context) : (s.modCtx fn ctx f).queues = s.queues := rfl
@[simp] theorem State.modCtx_qown (s : State) (fn ctx : Nat) (f : Context → Context) : (s.modCtx fn ctx f).qown = s.qown := rfl
@[simp] theorem State.modCtx_tasks (s : State) (fn ctx : Nat) (f : Context → Context) : (s.modCtx fn ctx f).tasks = s.tasks := rfl
@[simp] theorem State.modCtx_cores (s : State) (fn ctx : Nat) (f : Context → Context) : (s.modCtx fn ctx f).cores = s.cores := rfl
@[simp] theorem State.modCtx_clusters (s : State) (fn ctx : Nat) (f : Context → Context) : (s.modCtx fn ctx f).clusters = s.clusters := rfl
@[simp] theorem State.modCtx_waves (s : State) (fn ctx : Nat) (f : Context → Context) : (s.modCtx fn ctx f).waves = s.waves := rfl
@[simp] theorem State.modCtx_reqs (s : State) (fn ctx : Nat) (f : Context → Context) : (s.modCtx fn ctx f).reqs = s.reqs := rfl
@[simp] theorem State.modCtx_coll (s : State) (fn ctx : Nat) (f : Context → Context) : (s.modCtx fn ctx f).coll = s.coll := rfl
@[simp] theorem State.modCtx_copies (s : State) (fn ctx : Nat) (f : Context → Context) : (s.modCtx fn ctx f).copies = s.copies := rfl
@[simp] theorem State.modCtx_bins (s : State) (fn ctx : Nat) (f : Context → Context) : (s.modCtx fn ctx f).bins = s.bins := rfl
@[simp] theorem State.modCtx_spaces (s : State) (fn ctx : Nat) (f : Context → Context) : (s.modCtx fn ctx f).spaces = s.spaces := rfl
@[simp] theorem State.modCtx_worlds (s : State) (fn ctx : Nat) (f : Context → Context) : (s.modCtx fn ctx f).worlds = s.worlds := rfl
@[simp] theorem State.modCtx_faults (s : State) (fn ctx : Nat) (f : Context → Context) : (s.modCtx fn ctx f).faults = s.faults := rfl
@[simp] theorem State.modCtx_services (s : State) (fn ctx : Nat) (f : Context → Context) : (s.modCtx fn ctx f).services = s.services := rfl
@[simp] theorem State.modCtx_slots (s : State) (fn ctx : Nat) (f : Context → Context) : (s.modCtx fn ctx f).slots = s.slots := rfl
@[simp] theorem State.modCtx_snaps (s : State) (fn ctx : Nat) (f : Context → Context) : (s.modCtx fn ctx f).snaps = s.snaps := rfl
@[simp] theorem State.modCtx_shoots (s : State) (fn ctx : Nat) (f : Context → Context) : (s.modCtx fn ctx f).shoots = s.shoots := rfl
@[simp] theorem State.modCtx_regs (s : State) (fn ctx : Nat) (f : Context → Context) : (s.modCtx fn ctx f).regs = s.regs := rfl
@[simp] theorem State.modCtx_decks (s : State) (fn ctx : Nat) (f : Context → Context) : (s.modCtx fn ctx f).decks = s.decks := rfl
@[simp] theorem State.modCtx_topo (s : State) (fn ctx : Nat) (f : Context → Context) : (s.modCtx fn ctx f).topo = s.topo := rfl
@[simp] theorem State.modCtx_clock (s : State) (fn ctx : Nat) (f : Context → Context) : (s.modCtx fn ctx f).clock = s.clock := rfl
@[simp] theorem State.modCtx_halted (s : State) (fn ctx : Nat) (f : Context → Context) : (s.modCtx fn ctx f).halted = s.halted := rfl
@[simp] theorem State.modCtx_stolen (s : State) (fn ctx : Nat) (f : Context → Context) : (s.modCtx fn ctx f).stolen = s.stolen := rfl
@[simp] theorem State.modCtx_served (s : State) (fn ctx : Nat) (f : Context → Context) : (s.modCtx fn ctx f).served = s.served := rfl
@[simp] theorem State.modCtx_window (s : State) (fn ctx : Nat) (f : Context → Context) : (s.modCtx fn ctx f).window = s.window := rfl
@[simp] theorem State.modCtx_turns (s : State) (fn ctx : Nat) (f : Context → Context) : (s.modCtx fn ctx f).turns = s.turns := rfl
@[simp] theorem State.modCtx_collSeq (s : State) (fn ctx : Nat) (f : Context → Context) : (s.modCtx fn ctx f).collSeq = s.collSeq := rfl
@[simp] theorem State.modCtx_firmware (s : State) (fn ctx : Nat) (f : Context → Context) : (s.modCtx fn ctx f).firmware = s.firmware := rfl
@[simp] theorem State.modCtx_enc (s : State) (fn ctx : Nat) (f : Context → Context) : (s.modCtx fn ctx f).enc = s.enc := rfl
@[simp] theorem State.modCtx_kept (s : State) (fn ctx : Nat) (f : Context → Context) : (s.modCtx fn ctx f).kept = s.kept := rfl
@[simp] theorem State.modCtx_outbox (s : State) (fn ctx : Nat) (f : Context → Context) : (s.modCtx fn ctx f).outbox = s.outbox := rfl
@[simp] theorem State.modCtx_watched (s : State) (fn ctx : Nat) (f : Context → Context) : (s.modCtx fn ctx f).watched = s.watched := rfl
@[simp] theorem State.modCtx_agenda (s : State) (fn ctx : Nat) (f : Context → Context) : (s.modCtx fn ctx f).agenda = s.agenda := rfl
@[simp] theorem State.modCtx_free (s : State) (fn ctx : Nat) (f : Context → Context) : (s.modCtx fn ctx f).free = s.free := rfl
@[simp] theorem State.modCtx_issue (s : State) (fn ctx : Nat) (f : Context → Context) : (s.modCtx fn ctx f).issue = s.issue := rfl
@[simp] theorem State.modCtx_nextId (s : State) (fn ctx : Nat) (f : Context → Context) : (s.modCtx fn ctx f).nextId = s.nextId := rfl
@[simp] theorem State.modCtx_beat (s : State) (fn ctx : Nat) (f : Context → Context) : (s.modCtx fn ctx f).beat = s.beat := rfl
@[simp] theorem State.modCtx_keyTail (s : State) (fn ctx : Nat) (f : Context → Context) : (s.modCtx fn ctx f).keyTail = s.keyTail := rfl
@[simp] theorem State.modCtx_waits (s : State) (fn ctx : Nat) (f : Context → Context) : (s.modCtx fn ctx f).waits = s.waits := rfl
@[simp] theorem State.modCtx_contexts (s : State) (fn ctx : Nat) (f : Context → Context) : (s.modCtx fn ctx f).contexts = s.contexts.map (fun c => if c.fn = fn ∧ c.ctx = ctx then f c else c) := rfl

/-! State.setCore -/

@[simp] theorem State.setCore_gtick (s : State) (c : Core) : (s.setCore c).gtick = s.gtick := rfl
@[simp] theorem State.setCore_mem (s : State) (c : Core) : (s.setCore c).mem = s.mem := rfl
@[simp] theorem State.setCore_threads (s : State) (c : Core) : (s.setCore c).threads = s.threads := rfl
@[simp] theorem State.setCore_teams (s : State) (c : Core) : (s.setCore c).teams = s.teams := rfl
@[simp] theorem State.setCore_grids (s : State) (c : Core) : (s.setCore c).grids = s.grids := rfl
@[simp] theorem State.setCore_contexts (s : State) (c : Core) : (s.setCore c).contexts = s.contexts := rfl
@[simp] theorem State.setCore_queues (s : State) (c : Core) : (s.setCore c).queues = s.queues := rfl
@[simp] theorem State.setCore_qown (s : State) (c : Core) : (s.setCore c).qown = s.qown := rfl
@[simp] theorem State.setCore_tasks (s : State) (c : Core) : (s.setCore c).tasks = s.tasks := rfl
@[simp] theorem State.setCore_clusters (s : State) (c : Core) : (s.setCore c).clusters = s.clusters := rfl
@[simp] theorem State.setCore_waves (s : State) (c : Core) : (s.setCore c).waves = s.waves := rfl
@[simp] theorem State.setCore_reqs (s : State) (c : Core) : (s.setCore c).reqs = s.reqs := rfl
@[simp] theorem State.setCore_coll (s : State) (c : Core) : (s.setCore c).coll = s.coll := rfl
@[simp] theorem State.setCore_copies (s : State) (c : Core) : (s.setCore c).copies = s.copies := rfl
@[simp] theorem State.setCore_bins (s : State) (c : Core) : (s.setCore c).bins = s.bins := rfl
@[simp] theorem State.setCore_spaces (s : State) (c : Core) : (s.setCore c).spaces = s.spaces := rfl
@[simp] theorem State.setCore_worlds (s : State) (c : Core) : (s.setCore c).worlds = s.worlds := rfl
@[simp] theorem State.setCore_faults (s : State) (c : Core) : (s.setCore c).faults = s.faults := rfl
@[simp] theorem State.setCore_services (s : State) (c : Core) : (s.setCore c).services = s.services := rfl
@[simp] theorem State.setCore_slots (s : State) (c : Core) : (s.setCore c).slots = s.slots := rfl
@[simp] theorem State.setCore_snaps (s : State) (c : Core) : (s.setCore c).snaps = s.snaps := rfl
@[simp] theorem State.setCore_shoots (s : State) (c : Core) : (s.setCore c).shoots = s.shoots := rfl
@[simp] theorem State.setCore_regs (s : State) (c : Core) : (s.setCore c).regs = s.regs := rfl
@[simp] theorem State.setCore_decks (s : State) (c : Core) : (s.setCore c).decks = s.decks := rfl
@[simp] theorem State.setCore_topo (s : State) (c : Core) : (s.setCore c).topo = s.topo := rfl
@[simp] theorem State.setCore_clock (s : State) (c : Core) : (s.setCore c).clock = s.clock := rfl
@[simp] theorem State.setCore_halted (s : State) (c : Core) : (s.setCore c).halted = s.halted := rfl
@[simp] theorem State.setCore_stolen (s : State) (c : Core) : (s.setCore c).stolen = s.stolen := rfl
@[simp] theorem State.setCore_served (s : State) (c : Core) : (s.setCore c).served = s.served := rfl
@[simp] theorem State.setCore_window (s : State) (c : Core) : (s.setCore c).window = s.window := rfl
@[simp] theorem State.setCore_turns (s : State) (c : Core) : (s.setCore c).turns = s.turns := rfl
@[simp] theorem State.setCore_collSeq (s : State) (c : Core) : (s.setCore c).collSeq = s.collSeq := rfl
@[simp] theorem State.setCore_firmware (s : State) (c : Core) : (s.setCore c).firmware = s.firmware := rfl
@[simp] theorem State.setCore_enc (s : State) (c : Core) : (s.setCore c).enc = s.enc := rfl
@[simp] theorem State.setCore_kept (s : State) (c : Core) : (s.setCore c).kept = s.kept := rfl
@[simp] theorem State.setCore_outbox (s : State) (c : Core) : (s.setCore c).outbox = s.outbox := rfl
@[simp] theorem State.setCore_watched (s : State) (c : Core) : (s.setCore c).watched = s.watched := rfl
@[simp] theorem State.setCore_agenda (s : State) (c : Core) : (s.setCore c).agenda = s.agenda := rfl
@[simp] theorem State.setCore_free (s : State) (c : Core) : (s.setCore c).free = s.free := rfl
@[simp] theorem State.setCore_issue (s : State) (c : Core) : (s.setCore c).issue = s.issue := rfl
@[simp] theorem State.setCore_nextId (s : State) (c : Core) : (s.setCore c).nextId = s.nextId := rfl
@[simp] theorem State.setCore_beat (s : State) (c : Core) : (s.setCore c).beat = s.beat := rfl
@[simp] theorem State.setCore_keyTail (s : State) (c : Core) : (s.setCore c).keyTail = s.keyTail := rfl
@[simp] theorem State.setCore_waits (s : State) (c : Core) : (s.setCore c).waits = s.waits := rfl
@[simp] theorem State.setCore_cores (s : State) (c : Core) : (s.setCore c).cores = c :: s.cores.filter (fun d => d.core != c.core) := rfl

/-! State.setCluster -/

@[simp] theorem State.setCluster_gtick (s : State) (c : Cluster) : (s.setCluster c).gtick = s.gtick := rfl
@[simp] theorem State.setCluster_mem (s : State) (c : Cluster) : (s.setCluster c).mem = s.mem := rfl
@[simp] theorem State.setCluster_threads (s : State) (c : Cluster) : (s.setCluster c).threads = s.threads := rfl
@[simp] theorem State.setCluster_teams (s : State) (c : Cluster) : (s.setCluster c).teams = s.teams := rfl
@[simp] theorem State.setCluster_grids (s : State) (c : Cluster) : (s.setCluster c).grids = s.grids := rfl
@[simp] theorem State.setCluster_contexts (s : State) (c : Cluster) : (s.setCluster c).contexts = s.contexts := rfl
@[simp] theorem State.setCluster_queues (s : State) (c : Cluster) : (s.setCluster c).queues = s.queues := rfl
@[simp] theorem State.setCluster_qown (s : State) (c : Cluster) : (s.setCluster c).qown = s.qown := rfl
@[simp] theorem State.setCluster_tasks (s : State) (c : Cluster) : (s.setCluster c).tasks = s.tasks := rfl
@[simp] theorem State.setCluster_cores (s : State) (c : Cluster) : (s.setCluster c).cores = s.cores := rfl
@[simp] theorem State.setCluster_waves (s : State) (c : Cluster) : (s.setCluster c).waves = s.waves := rfl
@[simp] theorem State.setCluster_reqs (s : State) (c : Cluster) : (s.setCluster c).reqs = s.reqs := rfl
@[simp] theorem State.setCluster_coll (s : State) (c : Cluster) : (s.setCluster c).coll = s.coll := rfl
@[simp] theorem State.setCluster_copies (s : State) (c : Cluster) : (s.setCluster c).copies = s.copies := rfl
@[simp] theorem State.setCluster_bins (s : State) (c : Cluster) : (s.setCluster c).bins = s.bins := rfl
@[simp] theorem State.setCluster_spaces (s : State) (c : Cluster) : (s.setCluster c).spaces = s.spaces := rfl
@[simp] theorem State.setCluster_worlds (s : State) (c : Cluster) : (s.setCluster c).worlds = s.worlds := rfl
@[simp] theorem State.setCluster_faults (s : State) (c : Cluster) : (s.setCluster c).faults = s.faults := rfl
@[simp] theorem State.setCluster_services (s : State) (c : Cluster) : (s.setCluster c).services = s.services := rfl
@[simp] theorem State.setCluster_slots (s : State) (c : Cluster) : (s.setCluster c).slots = s.slots := rfl
@[simp] theorem State.setCluster_snaps (s : State) (c : Cluster) : (s.setCluster c).snaps = s.snaps := rfl
@[simp] theorem State.setCluster_shoots (s : State) (c : Cluster) : (s.setCluster c).shoots = s.shoots := rfl
@[simp] theorem State.setCluster_regs (s : State) (c : Cluster) : (s.setCluster c).regs = s.regs := rfl
@[simp] theorem State.setCluster_decks (s : State) (c : Cluster) : (s.setCluster c).decks = s.decks := rfl
@[simp] theorem State.setCluster_topo (s : State) (c : Cluster) : (s.setCluster c).topo = s.topo := rfl
@[simp] theorem State.setCluster_clock (s : State) (c : Cluster) : (s.setCluster c).clock = s.clock := rfl
@[simp] theorem State.setCluster_halted (s : State) (c : Cluster) : (s.setCluster c).halted = s.halted := rfl
@[simp] theorem State.setCluster_stolen (s : State) (c : Cluster) : (s.setCluster c).stolen = s.stolen := rfl
@[simp] theorem State.setCluster_served (s : State) (c : Cluster) : (s.setCluster c).served = s.served := rfl
@[simp] theorem State.setCluster_window (s : State) (c : Cluster) : (s.setCluster c).window = s.window := rfl
@[simp] theorem State.setCluster_turns (s : State) (c : Cluster) : (s.setCluster c).turns = s.turns := rfl
@[simp] theorem State.setCluster_collSeq (s : State) (c : Cluster) : (s.setCluster c).collSeq = s.collSeq := rfl
@[simp] theorem State.setCluster_firmware (s : State) (c : Cluster) : (s.setCluster c).firmware = s.firmware := rfl
@[simp] theorem State.setCluster_enc (s : State) (c : Cluster) : (s.setCluster c).enc = s.enc := rfl
@[simp] theorem State.setCluster_kept (s : State) (c : Cluster) : (s.setCluster c).kept = s.kept := rfl
@[simp] theorem State.setCluster_outbox (s : State) (c : Cluster) : (s.setCluster c).outbox = s.outbox := rfl
@[simp] theorem State.setCluster_watched (s : State) (c : Cluster) : (s.setCluster c).watched = s.watched := rfl
@[simp] theorem State.setCluster_agenda (s : State) (c : Cluster) : (s.setCluster c).agenda = s.agenda := rfl
@[simp] theorem State.setCluster_free (s : State) (c : Cluster) : (s.setCluster c).free = s.free := rfl
@[simp] theorem State.setCluster_issue (s : State) (c : Cluster) : (s.setCluster c).issue = s.issue := rfl
@[simp] theorem State.setCluster_nextId (s : State) (c : Cluster) : (s.setCluster c).nextId = s.nextId := rfl
@[simp] theorem State.setCluster_beat (s : State) (c : Cluster) : (s.setCluster c).beat = s.beat := rfl
@[simp] theorem State.setCluster_keyTail (s : State) (c : Cluster) : (s.setCluster c).keyTail = s.keyTail := rfl
@[simp] theorem State.setCluster_waits (s : State) (c : Cluster) : (s.setCluster c).waits = s.waits := rfl
@[simp] theorem State.setCluster_clusters (s : State) (c : Cluster) : (s.setCluster c).clusters = c :: s.clusters.filter (fun d => d.cluster != c.cluster) := rfl

/-! State.setBank -/

@[simp] theorem State.setBank_gtick (s : State) (n k : Nat) (b : Bank) : (s.setBank n k b).gtick = s.gtick := rfl
@[simp] theorem State.setBank_mem (s : State) (n k : Nat) (b : Bank) : (s.setBank n k b).mem = s.mem := rfl
@[simp] theorem State.setBank_threads (s : State) (n k : Nat) (b : Bank) : (s.setBank n k b).threads = s.threads := rfl
@[simp] theorem State.setBank_teams (s : State) (n k : Nat) (b : Bank) : (s.setBank n k b).teams = s.teams := rfl
@[simp] theorem State.setBank_grids (s : State) (n k : Nat) (b : Bank) : (s.setBank n k b).grids = s.grids := rfl
@[simp] theorem State.setBank_contexts (s : State) (n k : Nat) (b : Bank) : (s.setBank n k b).contexts = s.contexts := rfl
@[simp] theorem State.setBank_queues (s : State) (n k : Nat) (b : Bank) : (s.setBank n k b).queues = s.queues := rfl
@[simp] theorem State.setBank_qown (s : State) (n k : Nat) (b : Bank) : (s.setBank n k b).qown = s.qown := rfl
@[simp] theorem State.setBank_tasks (s : State) (n k : Nat) (b : Bank) : (s.setBank n k b).tasks = s.tasks := rfl
@[simp] theorem State.setBank_clusters (s : State) (n k : Nat) (b : Bank) : (s.setBank n k b).clusters = s.clusters := rfl
@[simp] theorem State.setBank_waves (s : State) (n k : Nat) (b : Bank) : (s.setBank n k b).waves = s.waves := rfl
@[simp] theorem State.setBank_reqs (s : State) (n k : Nat) (b : Bank) : (s.setBank n k b).reqs = s.reqs := rfl
@[simp] theorem State.setBank_coll (s : State) (n k : Nat) (b : Bank) : (s.setBank n k b).coll = s.coll := rfl
@[simp] theorem State.setBank_copies (s : State) (n k : Nat) (b : Bank) : (s.setBank n k b).copies = s.copies := rfl
@[simp] theorem State.setBank_bins (s : State) (n k : Nat) (b : Bank) : (s.setBank n k b).bins = s.bins := rfl
@[simp] theorem State.setBank_spaces (s : State) (n k : Nat) (b : Bank) : (s.setBank n k b).spaces = s.spaces := rfl
@[simp] theorem State.setBank_worlds (s : State) (n k : Nat) (b : Bank) : (s.setBank n k b).worlds = s.worlds := rfl
@[simp] theorem State.setBank_faults (s : State) (n k : Nat) (b : Bank) : (s.setBank n k b).faults = s.faults := rfl
@[simp] theorem State.setBank_services (s : State) (n k : Nat) (b : Bank) : (s.setBank n k b).services = s.services := rfl
@[simp] theorem State.setBank_slots (s : State) (n k : Nat) (b : Bank) : (s.setBank n k b).slots = s.slots := rfl
@[simp] theorem State.setBank_snaps (s : State) (n k : Nat) (b : Bank) : (s.setBank n k b).snaps = s.snaps := rfl
@[simp] theorem State.setBank_shoots (s : State) (n k : Nat) (b : Bank) : (s.setBank n k b).shoots = s.shoots := rfl
@[simp] theorem State.setBank_regs (s : State) (n k : Nat) (b : Bank) : (s.setBank n k b).regs = s.regs := rfl
@[simp] theorem State.setBank_decks (s : State) (n k : Nat) (b : Bank) : (s.setBank n k b).decks = s.decks := rfl
@[simp] theorem State.setBank_topo (s : State) (n k : Nat) (b : Bank) : (s.setBank n k b).topo = s.topo := rfl
@[simp] theorem State.setBank_clock (s : State) (n k : Nat) (b : Bank) : (s.setBank n k b).clock = s.clock := rfl
@[simp] theorem State.setBank_halted (s : State) (n k : Nat) (b : Bank) : (s.setBank n k b).halted = s.halted := rfl
@[simp] theorem State.setBank_stolen (s : State) (n k : Nat) (b : Bank) : (s.setBank n k b).stolen = s.stolen := rfl
@[simp] theorem State.setBank_served (s : State) (n k : Nat) (b : Bank) : (s.setBank n k b).served = s.served := rfl
@[simp] theorem State.setBank_window (s : State) (n k : Nat) (b : Bank) : (s.setBank n k b).window = s.window := rfl
@[simp] theorem State.setBank_turns (s : State) (n k : Nat) (b : Bank) : (s.setBank n k b).turns = s.turns := rfl
@[simp] theorem State.setBank_collSeq (s : State) (n k : Nat) (b : Bank) : (s.setBank n k b).collSeq = s.collSeq := rfl
@[simp] theorem State.setBank_firmware (s : State) (n k : Nat) (b : Bank) : (s.setBank n k b).firmware = s.firmware := rfl
@[simp] theorem State.setBank_enc (s : State) (n k : Nat) (b : Bank) : (s.setBank n k b).enc = s.enc := rfl
@[simp] theorem State.setBank_kept (s : State) (n k : Nat) (b : Bank) : (s.setBank n k b).kept = s.kept := rfl
@[simp] theorem State.setBank_outbox (s : State) (n k : Nat) (b : Bank) : (s.setBank n k b).outbox = s.outbox := rfl
@[simp] theorem State.setBank_watched (s : State) (n k : Nat) (b : Bank) : (s.setBank n k b).watched = s.watched := rfl
@[simp] theorem State.setBank_agenda (s : State) (n k : Nat) (b : Bank) : (s.setBank n k b).agenda = s.agenda := rfl
@[simp] theorem State.setBank_free (s : State) (n k : Nat) (b : Bank) : (s.setBank n k b).free = s.free := rfl
@[simp] theorem State.setBank_issue (s : State) (n k : Nat) (b : Bank) : (s.setBank n k b).issue = s.issue := rfl
@[simp] theorem State.setBank_nextId (s : State) (n k : Nat) (b : Bank) : (s.setBank n k b).nextId = s.nextId := rfl
@[simp] theorem State.setBank_beat (s : State) (n k : Nat) (b : Bank) : (s.setBank n k b).beat = s.beat := rfl
@[simp] theorem State.setBank_keyTail (s : State) (n k : Nat) (b : Bank) : (s.setBank n k b).keyTail = s.keyTail := rfl
@[simp] theorem State.setBank_waits (s : State) (n k : Nat) (b : Bank) : (s.setBank n k b).waits = s.waits := rfl

/-! State.setReg -/

@[simp] theorem State.setReg_gtick (s : State) (fn : Nat) (priv : Bool) (off : Nat) (v : Dword) : (s.setReg fn priv off v).gtick = s.gtick := rfl
@[simp] theorem State.setReg_mem (s : State) (fn : Nat) (priv : Bool) (off : Nat) (v : Dword) : (s.setReg fn priv off v).mem = s.mem := rfl
@[simp] theorem State.setReg_threads (s : State) (fn : Nat) (priv : Bool) (off : Nat) (v : Dword) : (s.setReg fn priv off v).threads = s.threads := rfl
@[simp] theorem State.setReg_teams (s : State) (fn : Nat) (priv : Bool) (off : Nat) (v : Dword) : (s.setReg fn priv off v).teams = s.teams := rfl
@[simp] theorem State.setReg_grids (s : State) (fn : Nat) (priv : Bool) (off : Nat) (v : Dword) : (s.setReg fn priv off v).grids = s.grids := rfl
@[simp] theorem State.setReg_contexts (s : State) (fn : Nat) (priv : Bool) (off : Nat) (v : Dword) : (s.setReg fn priv off v).contexts = s.contexts := rfl
@[simp] theorem State.setReg_queues (s : State) (fn : Nat) (priv : Bool) (off : Nat) (v : Dword) : (s.setReg fn priv off v).queues = s.queues := rfl
@[simp] theorem State.setReg_qown (s : State) (fn : Nat) (priv : Bool) (off : Nat) (v : Dword) : (s.setReg fn priv off v).qown = s.qown := rfl
@[simp] theorem State.setReg_tasks (s : State) (fn : Nat) (priv : Bool) (off : Nat) (v : Dword) : (s.setReg fn priv off v).tasks = s.tasks := rfl
@[simp] theorem State.setReg_cores (s : State) (fn : Nat) (priv : Bool) (off : Nat) (v : Dword) : (s.setReg fn priv off v).cores = s.cores := rfl
@[simp] theorem State.setReg_clusters (s : State) (fn : Nat) (priv : Bool) (off : Nat) (v : Dword) : (s.setReg fn priv off v).clusters = s.clusters := rfl
@[simp] theorem State.setReg_waves (s : State) (fn : Nat) (priv : Bool) (off : Nat) (v : Dword) : (s.setReg fn priv off v).waves = s.waves := rfl
@[simp] theorem State.setReg_reqs (s : State) (fn : Nat) (priv : Bool) (off : Nat) (v : Dword) : (s.setReg fn priv off v).reqs = s.reqs := rfl
@[simp] theorem State.setReg_coll (s : State) (fn : Nat) (priv : Bool) (off : Nat) (v : Dword) : (s.setReg fn priv off v).coll = s.coll := rfl
@[simp] theorem State.setReg_copies (s : State) (fn : Nat) (priv : Bool) (off : Nat) (v : Dword) : (s.setReg fn priv off v).copies = s.copies := rfl
@[simp] theorem State.setReg_bins (s : State) (fn : Nat) (priv : Bool) (off : Nat) (v : Dword) : (s.setReg fn priv off v).bins = s.bins := rfl
@[simp] theorem State.setReg_spaces (s : State) (fn : Nat) (priv : Bool) (off : Nat) (v : Dword) : (s.setReg fn priv off v).spaces = s.spaces := rfl
@[simp] theorem State.setReg_worlds (s : State) (fn : Nat) (priv : Bool) (off : Nat) (v : Dword) : (s.setReg fn priv off v).worlds = s.worlds := rfl
@[simp] theorem State.setReg_faults (s : State) (fn : Nat) (priv : Bool) (off : Nat) (v : Dword) : (s.setReg fn priv off v).faults = s.faults := rfl
@[simp] theorem State.setReg_services (s : State) (fn : Nat) (priv : Bool) (off : Nat) (v : Dword) : (s.setReg fn priv off v).services = s.services := rfl
@[simp] theorem State.setReg_slots (s : State) (fn : Nat) (priv : Bool) (off : Nat) (v : Dword) : (s.setReg fn priv off v).slots = s.slots := rfl
@[simp] theorem State.setReg_snaps (s : State) (fn : Nat) (priv : Bool) (off : Nat) (v : Dword) : (s.setReg fn priv off v).snaps = s.snaps := rfl
@[simp] theorem State.setReg_shoots (s : State) (fn : Nat) (priv : Bool) (off : Nat) (v : Dword) : (s.setReg fn priv off v).shoots = s.shoots := rfl
@[simp] theorem State.setReg_decks (s : State) (fn : Nat) (priv : Bool) (off : Nat) (v : Dword) : (s.setReg fn priv off v).decks = s.decks := rfl
@[simp] theorem State.setReg_topo (s : State) (fn : Nat) (priv : Bool) (off : Nat) (v : Dword) : (s.setReg fn priv off v).topo = s.topo := rfl
@[simp] theorem State.setReg_clock (s : State) (fn : Nat) (priv : Bool) (off : Nat) (v : Dword) : (s.setReg fn priv off v).clock = s.clock := rfl
@[simp] theorem State.setReg_halted (s : State) (fn : Nat) (priv : Bool) (off : Nat) (v : Dword) : (s.setReg fn priv off v).halted = s.halted := rfl
@[simp] theorem State.setReg_stolen (s : State) (fn : Nat) (priv : Bool) (off : Nat) (v : Dword) : (s.setReg fn priv off v).stolen = s.stolen := rfl
@[simp] theorem State.setReg_served (s : State) (fn : Nat) (priv : Bool) (off : Nat) (v : Dword) : (s.setReg fn priv off v).served = s.served := rfl
@[simp] theorem State.setReg_window (s : State) (fn : Nat) (priv : Bool) (off : Nat) (v : Dword) : (s.setReg fn priv off v).window = s.window := rfl
@[simp] theorem State.setReg_turns (s : State) (fn : Nat) (priv : Bool) (off : Nat) (v : Dword) : (s.setReg fn priv off v).turns = s.turns := rfl
@[simp] theorem State.setReg_collSeq (s : State) (fn : Nat) (priv : Bool) (off : Nat) (v : Dword) : (s.setReg fn priv off v).collSeq = s.collSeq := rfl
@[simp] theorem State.setReg_firmware (s : State) (fn : Nat) (priv : Bool) (off : Nat) (v : Dword) : (s.setReg fn priv off v).firmware = s.firmware := rfl
@[simp] theorem State.setReg_enc (s : State) (fn : Nat) (priv : Bool) (off : Nat) (v : Dword) : (s.setReg fn priv off v).enc = s.enc := rfl
@[simp] theorem State.setReg_kept (s : State) (fn : Nat) (priv : Bool) (off : Nat) (v : Dword) : (s.setReg fn priv off v).kept = s.kept := rfl
@[simp] theorem State.setReg_outbox (s : State) (fn : Nat) (priv : Bool) (off : Nat) (v : Dword) : (s.setReg fn priv off v).outbox = s.outbox := rfl
@[simp] theorem State.setReg_watched (s : State) (fn : Nat) (priv : Bool) (off : Nat) (v : Dword) : (s.setReg fn priv off v).watched = s.watched := rfl
@[simp] theorem State.setReg_agenda (s : State) (fn : Nat) (priv : Bool) (off : Nat) (v : Dword) : (s.setReg fn priv off v).agenda = s.agenda := rfl
@[simp] theorem State.setReg_free (s : State) (fn : Nat) (priv : Bool) (off : Nat) (v : Dword) : (s.setReg fn priv off v).free = s.free := rfl
@[simp] theorem State.setReg_issue (s : State) (fn : Nat) (priv : Bool) (off : Nat) (v : Dword) : (s.setReg fn priv off v).issue = s.issue := rfl
@[simp] theorem State.setReg_nextId (s : State) (fn : Nat) (priv : Bool) (off : Nat) (v : Dword) : (s.setReg fn priv off v).nextId = s.nextId := rfl
@[simp] theorem State.setReg_beat (s : State) (fn : Nat) (priv : Bool) (off : Nat) (v : Dword) : (s.setReg fn priv off v).beat = s.beat := rfl
@[simp] theorem State.setReg_keyTail (s : State) (fn : Nat) (priv : Bool) (off : Nat) (v : Dword) : (s.setReg fn priv off v).keyTail = s.keyTail := rfl
@[simp] theorem State.setReg_waits (s : State) (fn : Nat) (priv : Bool) (off : Nat) (v : Dword) : (s.setReg fn priv off v).waits = s.waits := rfl
@[simp] theorem State.setReg_regs (s : State) (fn : Nat) (priv : Bool) (off : Nat) (v : Dword) : (s.setReg fn priv off v).regs = ⟨fn, priv, off, v⟩ :: s.regs.filter (fun r => !(r.fn == fn && r.priv == priv && r.off == off)) := rfl

/-! State.send -/

@[simp] theorem State.send_gtick (s : State) (x : Signal) : (s.send x).gtick = s.gtick := rfl
@[simp] theorem State.send_mem (s : State) (x : Signal) : (s.send x).mem = s.mem := rfl
@[simp] theorem State.send_threads (s : State) (x : Signal) : (s.send x).threads = s.threads := rfl
@[simp] theorem State.send_teams (s : State) (x : Signal) : (s.send x).teams = s.teams := rfl
@[simp] theorem State.send_grids (s : State) (x : Signal) : (s.send x).grids = s.grids := rfl
@[simp] theorem State.send_contexts (s : State) (x : Signal) : (s.send x).contexts = s.contexts := rfl
@[simp] theorem State.send_queues (s : State) (x : Signal) : (s.send x).queues = s.queues := rfl
@[simp] theorem State.send_qown (s : State) (x : Signal) : (s.send x).qown = s.qown := rfl
@[simp] theorem State.send_tasks (s : State) (x : Signal) : (s.send x).tasks = s.tasks := rfl
@[simp] theorem State.send_cores (s : State) (x : Signal) : (s.send x).cores = s.cores := rfl
@[simp] theorem State.send_clusters (s : State) (x : Signal) : (s.send x).clusters = s.clusters := rfl
@[simp] theorem State.send_waves (s : State) (x : Signal) : (s.send x).waves = s.waves := rfl
@[simp] theorem State.send_reqs (s : State) (x : Signal) : (s.send x).reqs = s.reqs := rfl
@[simp] theorem State.send_coll (s : State) (x : Signal) : (s.send x).coll = s.coll := rfl
@[simp] theorem State.send_copies (s : State) (x : Signal) : (s.send x).copies = s.copies := rfl
@[simp] theorem State.send_bins (s : State) (x : Signal) : (s.send x).bins = s.bins := rfl
@[simp] theorem State.send_spaces (s : State) (x : Signal) : (s.send x).spaces = s.spaces := rfl
@[simp] theorem State.send_worlds (s : State) (x : Signal) : (s.send x).worlds = s.worlds := rfl
@[simp] theorem State.send_faults (s : State) (x : Signal) : (s.send x).faults = s.faults := rfl
@[simp] theorem State.send_services (s : State) (x : Signal) : (s.send x).services = s.services := rfl
@[simp] theorem State.send_slots (s : State) (x : Signal) : (s.send x).slots = s.slots := rfl
@[simp] theorem State.send_snaps (s : State) (x : Signal) : (s.send x).snaps = s.snaps := rfl
@[simp] theorem State.send_shoots (s : State) (x : Signal) : (s.send x).shoots = s.shoots := rfl
@[simp] theorem State.send_regs (s : State) (x : Signal) : (s.send x).regs = s.regs := rfl
@[simp] theorem State.send_decks (s : State) (x : Signal) : (s.send x).decks = s.decks := rfl
@[simp] theorem State.send_topo (s : State) (x : Signal) : (s.send x).topo = s.topo := rfl
@[simp] theorem State.send_clock (s : State) (x : Signal) : (s.send x).clock = s.clock := rfl
@[simp] theorem State.send_halted (s : State) (x : Signal) : (s.send x).halted = s.halted := rfl
@[simp] theorem State.send_stolen (s : State) (x : Signal) : (s.send x).stolen = s.stolen := rfl
@[simp] theorem State.send_served (s : State) (x : Signal) : (s.send x).served = s.served := rfl
@[simp] theorem State.send_window (s : State) (x : Signal) : (s.send x).window = s.window := rfl
@[simp] theorem State.send_turns (s : State) (x : Signal) : (s.send x).turns = s.turns := rfl
@[simp] theorem State.send_collSeq (s : State) (x : Signal) : (s.send x).collSeq = s.collSeq := rfl
@[simp] theorem State.send_firmware (s : State) (x : Signal) : (s.send x).firmware = s.firmware := rfl
@[simp] theorem State.send_enc (s : State) (x : Signal) : (s.send x).enc = s.enc := rfl
@[simp] theorem State.send_kept (s : State) (x : Signal) : (s.send x).kept = s.kept := rfl
@[simp] theorem State.send_watched (s : State) (x : Signal) : (s.send x).watched = s.watched := rfl
@[simp] theorem State.send_agenda (s : State) (x : Signal) : (s.send x).agenda = s.agenda := rfl
@[simp] theorem State.send_free (s : State) (x : Signal) : (s.send x).free = s.free := rfl
@[simp] theorem State.send_issue (s : State) (x : Signal) : (s.send x).issue = s.issue := rfl
@[simp] theorem State.send_nextId (s : State) (x : Signal) : (s.send x).nextId = s.nextId := rfl
@[simp] theorem State.send_beat (s : State) (x : Signal) : (s.send x).beat = s.beat := rfl
@[simp] theorem State.send_keyTail (s : State) (x : Signal) : (s.send x).keyTail = s.keyTail := rfl
@[simp] theorem State.send_waits (s : State) (x : Signal) : (s.send x).waits = s.waits := rfl
@[simp] theorem State.send_outbox (s : State) (x : Signal) : (s.send x).outbox = s.outbox ++ [x] := rfl

/-! State.fresh -/

@[simp] theorem State.fresh_gtick (s : State)  : (s.fresh.2).gtick = s.gtick := rfl
@[simp] theorem State.fresh_mem (s : State)  : (s.fresh.2).mem = s.mem := rfl
@[simp] theorem State.fresh_threads (s : State)  : (s.fresh.2).threads = s.threads := rfl
@[simp] theorem State.fresh_teams (s : State)  : (s.fresh.2).teams = s.teams := rfl
@[simp] theorem State.fresh_grids (s : State)  : (s.fresh.2).grids = s.grids := rfl
@[simp] theorem State.fresh_contexts (s : State)  : (s.fresh.2).contexts = s.contexts := rfl
@[simp] theorem State.fresh_queues (s : State)  : (s.fresh.2).queues = s.queues := rfl
@[simp] theorem State.fresh_qown (s : State)  : (s.fresh.2).qown = s.qown := rfl
@[simp] theorem State.fresh_tasks (s : State)  : (s.fresh.2).tasks = s.tasks := rfl
@[simp] theorem State.fresh_cores (s : State)  : (s.fresh.2).cores = s.cores := rfl
@[simp] theorem State.fresh_clusters (s : State)  : (s.fresh.2).clusters = s.clusters := rfl
@[simp] theorem State.fresh_waves (s : State)  : (s.fresh.2).waves = s.waves := rfl
@[simp] theorem State.fresh_reqs (s : State)  : (s.fresh.2).reqs = s.reqs := rfl
@[simp] theorem State.fresh_coll (s : State)  : (s.fresh.2).coll = s.coll := rfl
@[simp] theorem State.fresh_copies (s : State)  : (s.fresh.2).copies = s.copies := rfl
@[simp] theorem State.fresh_bins (s : State)  : (s.fresh.2).bins = s.bins := rfl
@[simp] theorem State.fresh_spaces (s : State)  : (s.fresh.2).spaces = s.spaces := rfl
@[simp] theorem State.fresh_worlds (s : State)  : (s.fresh.2).worlds = s.worlds := rfl
@[simp] theorem State.fresh_faults (s : State)  : (s.fresh.2).faults = s.faults := rfl
@[simp] theorem State.fresh_services (s : State)  : (s.fresh.2).services = s.services := rfl
@[simp] theorem State.fresh_slots (s : State)  : (s.fresh.2).slots = s.slots := rfl
@[simp] theorem State.fresh_snaps (s : State)  : (s.fresh.2).snaps = s.snaps := rfl
@[simp] theorem State.fresh_shoots (s : State)  : (s.fresh.2).shoots = s.shoots := rfl
@[simp] theorem State.fresh_regs (s : State)  : (s.fresh.2).regs = s.regs := rfl
@[simp] theorem State.fresh_decks (s : State)  : (s.fresh.2).decks = s.decks := rfl
@[simp] theorem State.fresh_topo (s : State)  : (s.fresh.2).topo = s.topo := rfl
@[simp] theorem State.fresh_clock (s : State)  : (s.fresh.2).clock = s.clock := rfl
@[simp] theorem State.fresh_halted (s : State)  : (s.fresh.2).halted = s.halted := rfl
@[simp] theorem State.fresh_stolen (s : State)  : (s.fresh.2).stolen = s.stolen := rfl
@[simp] theorem State.fresh_served (s : State)  : (s.fresh.2).served = s.served := rfl
@[simp] theorem State.fresh_window (s : State)  : (s.fresh.2).window = s.window := rfl
@[simp] theorem State.fresh_turns (s : State)  : (s.fresh.2).turns = s.turns := rfl
@[simp] theorem State.fresh_collSeq (s : State)  : (s.fresh.2).collSeq = s.collSeq := rfl
@[simp] theorem State.fresh_firmware (s : State)  : (s.fresh.2).firmware = s.firmware := rfl
@[simp] theorem State.fresh_enc (s : State)  : (s.fresh.2).enc = s.enc := rfl
@[simp] theorem State.fresh_kept (s : State)  : (s.fresh.2).kept = s.kept := rfl
@[simp] theorem State.fresh_outbox (s : State)  : (s.fresh.2).outbox = s.outbox := rfl
@[simp] theorem State.fresh_watched (s : State)  : (s.fresh.2).watched = s.watched := rfl
@[simp] theorem State.fresh_agenda (s : State)  : (s.fresh.2).agenda = s.agenda := rfl
@[simp] theorem State.fresh_free (s : State)  : (s.fresh.2).free = s.free := rfl
@[simp] theorem State.fresh_issue (s : State)  : (s.fresh.2).issue = s.issue := rfl
@[simp] theorem State.fresh_beat (s : State)  : (s.fresh.2).beat = s.beat := rfl
@[simp] theorem State.fresh_keyTail (s : State)  : (s.fresh.2).keyTail = s.keyTail := rfl
@[simp] theorem State.fresh_waits (s : State)  : (s.fresh.2).waits = s.waits := rfl
@[simp] theorem State.fresh_nextId (s : State)  : (s.fresh.2).nextId = s.nextId + 1 := rfl

/-! Thread.wv -/

@[simp] theorem Thread.wv_uid (t : Thread) (n : Nat) (x : Word) : (t.wv n x).uid = t.uid := rfl
@[simp] theorem Thread.wv_team (t : Thread) (n : Nat) (x : Word) : (t.wv n x).team = t.team := rfl
@[simp] theorem Thread.wv_tid (t : Thread) (n : Nat) (x : Word) : (t.wv n x).tid = t.tid := rfl
@[simp] theorem Thread.wv_lane (t : Thread) (n : Nat) (x : Word) : (t.wv n x).lane = t.lane := rfl
@[simp] theorem Thread.wv_slot (t : Thread) (n : Nat) (x : Word) : (t.wv n x).slot = t.slot := rfl
@[simp] theorem Thread.wv_role (t : Thread) (n : Nat) (x : Word) : (t.wv n x).role = t.role := rfl
@[simp] theorem Thread.wv_pc (t : Thread) (n : Nat) (x : Word) : (t.wv n x).pc = t.pc := rfl
@[simp] theorem Thread.wv_npc (t : Thread) (n : Nat) (x : Word) : (t.wv n x).npc = t.npc := rfl
@[simp] theorem Thread.wv_p (t : Thread) (n : Nat) (x : Word) : (t.wv n x).p = t.p := rfl
@[simp] theorem Thread.wv_flags (t : Thread) (n : Nat) (x : Word) : (t.wv n x).flags = t.flags := rfl
@[simp] theorem Thread.wv_ld (t : Thread) (n : Nat) (x : Word) : (t.wv n x).ld = t.ld := rfl
@[simp] theorem Thread.wv_st (t : Thread) (n : Nat) (x : Word) : (t.wv n x).st = t.st := rfl
@[simp] theorem Thread.wv_cp (t : Thread) (n : Nat) (x : Word) : (t.wv n x).cp = t.cp := rfl
@[simp] theorem Thread.wv_tl (t : Thread) (n : Nat) (x : Word) : (t.wv n x).tl = t.tl := rfl
@[simp] theorem Thread.wv_age (t : Thread) (n : Nat) (x : Word) : (t.wv n x).age = t.age := rfl
@[simp] theorem Thread.wv_phase (t : Thread) (n : Nat) (x : Word) : (t.wv n x).phase = t.phase := rfl
@[simp] theorem Thread.wv_stopped (t : Thread) (n : Nat) (x : Word) : (t.wv n x).stopped = t.stopped := rfl
@[simp] theorem Thread.wv_under (t : Thread) (n : Nat) (x : Word) : (t.wv n x).under = t.under := rfl
@[simp] theorem Thread.wv_blocks (t : Thread) (n : Nat) (x : Word) : (t.wv n x).blocks = t.blocks := rfl
@[simp] theorem Thread.wv_editSeq (t : Thread) (n : Nat) (x : Word) : (t.wv n x).editSeq = t.editSeq := rfl
@[simp] theorem Thread.wv_redSeq (t : Thread) (n : Nat) (x : Word) : (t.wv n x).redSeq = t.redSeq := rfl
@[simp] theorem Thread.wv_pendV (t : Thread) (n : Nat) (x : Word) : (t.wv n x).pendV = t.pendV := rfl
@[simp] theorem Thread.wv_pendP (t : Thread) (n : Nat) (x : Word) : (t.wv n x).pendP = t.pendP := rfl
@[simp] theorem Thread.wv_arrived (t : Thread) (n : Nat) (x : Word) : (t.wv n x).arrived = t.arrived := rfl
@[simp] theorem Thread.wv_wait (t : Thread) (n : Nat) (x : Word) : (t.wv n x).wait = t.wait := rfl
@[simp] theorem Thread.wv_rel (t : Thread) (n : Nat) (x : Word) : (t.wv n x).rel = t.rel := rfl
@[simp] theorem Thread.wv_relDone (t : Thread) (n : Nat) (x : Word) : (t.wv n x).relDone = t.relDone := rfl
@[simp] theorem Thread.wv_maxTw (t : Thread) (n : Nat) (x : Word) : (t.wv n x).maxTw = t.maxTw := rfl
@[simp] theorem Thread.wv_flushPoints (t : Thread) (n : Nat) (x : Word) : (t.wv n x).flushPoints = t.flushPoints := rfl
@[simp] theorem Thread.wv_keysTick (t : Thread) (n : Nat) (x : Word) : (t.wv n x).keysTick = t.keysTick := rfl
@[simp] theorem Thread.wv_lost (t : Thread) (n : Nat) (x : Word) : (t.wv n x).lost = t.lost := rfl
@[simp] theorem Thread.wv_passBp (t : Thread) (n : Nat) (x : Word) : (t.wv n x).passBp = t.passBp := rfl
@[simp] theorem Thread.wv_imageAt (t : Thread) (n : Nat) (x : Word) : (t.wv n x).imageAt = t.imageAt := rfl
@[simp] theorem Thread.wv_image (t : Thread) (n : Nat) (x : Word) : (t.wv n x).image = t.image := rfl
@[simp] theorem Thread.wv_step (t : Thread) (n : Nat) (x : Word) : (t.wv n x).step = t.step := rfl
@[simp] theorem Thread.wv_brk (t : Thread) (n : Nat) (x : Word) : (t.wv n x).brk = t.brk := rfl
@[simp] theorem Thread.wv_tail (t : Thread) (n : Nat) (x : Word) : (t.wv n x).tail = t.tail := rfl
@[simp] theorem Thread.wv_v (t : Thread) (n : Nat) (x : Word) : (t.wv n x).v = t.v.set n x := rfl
@[simp] theorem Thread.wv_poison (t : Thread) (n : Nat) (x : Word) : (t.wv n x).poison = t.poison.filter (· ≠ n) := rfl

/-! Thread.wpair -/

@[simp] theorem Thread.wpair_uid (t : Thread) (n : Nat) (x : Dword) : (t.wpair n x).uid = t.uid := rfl
@[simp] theorem Thread.wpair_team (t : Thread) (n : Nat) (x : Dword) : (t.wpair n x).team = t.team := rfl
@[simp] theorem Thread.wpair_tid (t : Thread) (n : Nat) (x : Dword) : (t.wpair n x).tid = t.tid := rfl
@[simp] theorem Thread.wpair_lane (t : Thread) (n : Nat) (x : Dword) : (t.wpair n x).lane = t.lane := rfl
@[simp] theorem Thread.wpair_slot (t : Thread) (n : Nat) (x : Dword) : (t.wpair n x).slot = t.slot := rfl
@[simp] theorem Thread.wpair_role (t : Thread) (n : Nat) (x : Dword) : (t.wpair n x).role = t.role := rfl
@[simp] theorem Thread.wpair_pc (t : Thread) (n : Nat) (x : Dword) : (t.wpair n x).pc = t.pc := rfl
@[simp] theorem Thread.wpair_npc (t : Thread) (n : Nat) (x : Dword) : (t.wpair n x).npc = t.npc := rfl
@[simp] theorem Thread.wpair_p (t : Thread) (n : Nat) (x : Dword) : (t.wpair n x).p = t.p := rfl
@[simp] theorem Thread.wpair_flags (t : Thread) (n : Nat) (x : Dword) : (t.wpair n x).flags = t.flags := rfl
@[simp] theorem Thread.wpair_ld (t : Thread) (n : Nat) (x : Dword) : (t.wpair n x).ld = t.ld := rfl
@[simp] theorem Thread.wpair_st (t : Thread) (n : Nat) (x : Dword) : (t.wpair n x).st = t.st := rfl
@[simp] theorem Thread.wpair_cp (t : Thread) (n : Nat) (x : Dword) : (t.wpair n x).cp = t.cp := rfl
@[simp] theorem Thread.wpair_tl (t : Thread) (n : Nat) (x : Dword) : (t.wpair n x).tl = t.tl := rfl
@[simp] theorem Thread.wpair_age (t : Thread) (n : Nat) (x : Dword) : (t.wpair n x).age = t.age := rfl
@[simp] theorem Thread.wpair_phase (t : Thread) (n : Nat) (x : Dword) : (t.wpair n x).phase = t.phase := rfl
@[simp] theorem Thread.wpair_stopped (t : Thread) (n : Nat) (x : Dword) : (t.wpair n x).stopped = t.stopped := rfl
@[simp] theorem Thread.wpair_under (t : Thread) (n : Nat) (x : Dword) : (t.wpair n x).under = t.under := rfl
@[simp] theorem Thread.wpair_blocks (t : Thread) (n : Nat) (x : Dword) : (t.wpair n x).blocks = t.blocks := rfl
@[simp] theorem Thread.wpair_editSeq (t : Thread) (n : Nat) (x : Dword) : (t.wpair n x).editSeq = t.editSeq := rfl
@[simp] theorem Thread.wpair_redSeq (t : Thread) (n : Nat) (x : Dword) : (t.wpair n x).redSeq = t.redSeq := rfl
@[simp] theorem Thread.wpair_pendV (t : Thread) (n : Nat) (x : Dword) : (t.wpair n x).pendV = t.pendV := rfl
@[simp] theorem Thread.wpair_pendP (t : Thread) (n : Nat) (x : Dword) : (t.wpair n x).pendP = t.pendP := rfl
@[simp] theorem Thread.wpair_arrived (t : Thread) (n : Nat) (x : Dword) : (t.wpair n x).arrived = t.arrived := rfl
@[simp] theorem Thread.wpair_wait (t : Thread) (n : Nat) (x : Dword) : (t.wpair n x).wait = t.wait := rfl
@[simp] theorem Thread.wpair_rel (t : Thread) (n : Nat) (x : Dword) : (t.wpair n x).rel = t.rel := rfl
@[simp] theorem Thread.wpair_relDone (t : Thread) (n : Nat) (x : Dword) : (t.wpair n x).relDone = t.relDone := rfl
@[simp] theorem Thread.wpair_maxTw (t : Thread) (n : Nat) (x : Dword) : (t.wpair n x).maxTw = t.maxTw := rfl
@[simp] theorem Thread.wpair_flushPoints (t : Thread) (n : Nat) (x : Dword) : (t.wpair n x).flushPoints = t.flushPoints := rfl
@[simp] theorem Thread.wpair_keysTick (t : Thread) (n : Nat) (x : Dword) : (t.wpair n x).keysTick = t.keysTick := rfl
@[simp] theorem Thread.wpair_lost (t : Thread) (n : Nat) (x : Dword) : (t.wpair n x).lost = t.lost := rfl
@[simp] theorem Thread.wpair_passBp (t : Thread) (n : Nat) (x : Dword) : (t.wpair n x).passBp = t.passBp := rfl
@[simp] theorem Thread.wpair_imageAt (t : Thread) (n : Nat) (x : Dword) : (t.wpair n x).imageAt = t.imageAt := rfl
@[simp] theorem Thread.wpair_image (t : Thread) (n : Nat) (x : Dword) : (t.wpair n x).image = t.image := rfl
@[simp] theorem Thread.wpair_step (t : Thread) (n : Nat) (x : Dword) : (t.wpair n x).step = t.step := rfl
@[simp] theorem Thread.wpair_brk (t : Thread) (n : Nat) (x : Dword) : (t.wpair n x).brk = t.brk := rfl
@[simp] theorem Thread.wpair_tail (t : Thread) (n : Nat) (x : Dword) : (t.wpair n x).tail = t.tail := rfl
@[simp] theorem Thread.wpair_v (t : Thread) (n : Nat) (x : Dword) : (t.wpair n x).v = (t.v.set n (lowWord x)).set (n + 1) (highWord x) := rfl
@[simp] theorem Thread.wpair_poison (t : Thread) (n : Nat) (x : Dword) : (t.wpair n x).poison = (t.poison.filter (· ≠ n)).filter (· ≠ n + 1) := rfl

/-! Thread.orFlags -/

@[simp] theorem Thread.orFlags_uid (t : Thread) (f : Flags) : (t.orFlags f).uid = t.uid := rfl
@[simp] theorem Thread.orFlags_team (t : Thread) (f : Flags) : (t.orFlags f).team = t.team := rfl
@[simp] theorem Thread.orFlags_tid (t : Thread) (f : Flags) : (t.orFlags f).tid = t.tid := rfl
@[simp] theorem Thread.orFlags_lane (t : Thread) (f : Flags) : (t.orFlags f).lane = t.lane := rfl
@[simp] theorem Thread.orFlags_slot (t : Thread) (f : Flags) : (t.orFlags f).slot = t.slot := rfl
@[simp] theorem Thread.orFlags_role (t : Thread) (f : Flags) : (t.orFlags f).role = t.role := rfl
@[simp] theorem Thread.orFlags_pc (t : Thread) (f : Flags) : (t.orFlags f).pc = t.pc := rfl
@[simp] theorem Thread.orFlags_npc (t : Thread) (f : Flags) : (t.orFlags f).npc = t.npc := rfl
@[simp] theorem Thread.orFlags_v (t : Thread) (f : Flags) : (t.orFlags f).v = t.v := rfl
@[simp] theorem Thread.orFlags_p (t : Thread) (f : Flags) : (t.orFlags f).p = t.p := rfl
@[simp] theorem Thread.orFlags_ld (t : Thread) (f : Flags) : (t.orFlags f).ld = t.ld := rfl
@[simp] theorem Thread.orFlags_st (t : Thread) (f : Flags) : (t.orFlags f).st = t.st := rfl
@[simp] theorem Thread.orFlags_cp (t : Thread) (f : Flags) : (t.orFlags f).cp = t.cp := rfl
@[simp] theorem Thread.orFlags_tl (t : Thread) (f : Flags) : (t.orFlags f).tl = t.tl := rfl
@[simp] theorem Thread.orFlags_age (t : Thread) (f : Flags) : (t.orFlags f).age = t.age := rfl
@[simp] theorem Thread.orFlags_phase (t : Thread) (f : Flags) : (t.orFlags f).phase = t.phase := rfl
@[simp] theorem Thread.orFlags_stopped (t : Thread) (f : Flags) : (t.orFlags f).stopped = t.stopped := rfl
@[simp] theorem Thread.orFlags_under (t : Thread) (f : Flags) : (t.orFlags f).under = t.under := rfl
@[simp] theorem Thread.orFlags_blocks (t : Thread) (f : Flags) : (t.orFlags f).blocks = t.blocks := rfl
@[simp] theorem Thread.orFlags_editSeq (t : Thread) (f : Flags) : (t.orFlags f).editSeq = t.editSeq := rfl
@[simp] theorem Thread.orFlags_redSeq (t : Thread) (f : Flags) : (t.orFlags f).redSeq = t.redSeq := rfl
@[simp] theorem Thread.orFlags_pendV (t : Thread) (f : Flags) : (t.orFlags f).pendV = t.pendV := rfl
@[simp] theorem Thread.orFlags_pendP (t : Thread) (f : Flags) : (t.orFlags f).pendP = t.pendP := rfl
@[simp] theorem Thread.orFlags_poison (t : Thread) (f : Flags) : (t.orFlags f).poison = t.poison := rfl
@[simp] theorem Thread.orFlags_arrived (t : Thread) (f : Flags) : (t.orFlags f).arrived = t.arrived := rfl
@[simp] theorem Thread.orFlags_wait (t : Thread) (f : Flags) : (t.orFlags f).wait = t.wait := rfl
@[simp] theorem Thread.orFlags_rel (t : Thread) (f : Flags) : (t.orFlags f).rel = t.rel := rfl
@[simp] theorem Thread.orFlags_relDone (t : Thread) (f : Flags) : (t.orFlags f).relDone = t.relDone := rfl
@[simp] theorem Thread.orFlags_maxTw (t : Thread) (f : Flags) : (t.orFlags f).maxTw = t.maxTw := rfl
@[simp] theorem Thread.orFlags_flushPoints (t : Thread) (f : Flags) : (t.orFlags f).flushPoints = t.flushPoints := rfl
@[simp] theorem Thread.orFlags_keysTick (t : Thread) (f : Flags) : (t.orFlags f).keysTick = t.keysTick := rfl
@[simp] theorem Thread.orFlags_lost (t : Thread) (f : Flags) : (t.orFlags f).lost = t.lost := rfl
@[simp] theorem Thread.orFlags_passBp (t : Thread) (f : Flags) : (t.orFlags f).passBp = t.passBp := rfl
@[simp] theorem Thread.orFlags_imageAt (t : Thread) (f : Flags) : (t.orFlags f).imageAt = t.imageAt := rfl
@[simp] theorem Thread.orFlags_image (t : Thread) (f : Flags) : (t.orFlags f).image = t.image := rfl
@[simp] theorem Thread.orFlags_step (t : Thread) (f : Flags) : (t.orFlags f).step = t.step := rfl
@[simp] theorem Thread.orFlags_brk (t : Thread) (f : Flags) : (t.orFlags f).brk = t.brk := rfl
@[simp] theorem Thread.orFlags_tail (t : Thread) (f : Flags) : (t.orFlags f).tail = t.tail := rfl
@[simp] theorem Thread.orFlags_flags (t : Thread) (f : Flags) : (t.orFlags f).flags = t.flags ||| f := rfl

/-! Thread.wp -/

@[simp] theorem Thread.wp_uid (t : Thread) (n : Nat) (b : Bool) : (t.wp n b).uid = t.uid := by unfold Thread.wp; split <;> rfl
@[simp] theorem Thread.wp_team (t : Thread) (n : Nat) (b : Bool) : (t.wp n b).team = t.team := by unfold Thread.wp; split <;> rfl
@[simp] theorem Thread.wp_tid (t : Thread) (n : Nat) (b : Bool) : (t.wp n b).tid = t.tid := by unfold Thread.wp; split <;> rfl
@[simp] theorem Thread.wp_lane (t : Thread) (n : Nat) (b : Bool) : (t.wp n b).lane = t.lane := by unfold Thread.wp; split <;> rfl
@[simp] theorem Thread.wp_slot (t : Thread) (n : Nat) (b : Bool) : (t.wp n b).slot = t.slot := by unfold Thread.wp; split <;> rfl
@[simp] theorem Thread.wp_role (t : Thread) (n : Nat) (b : Bool) : (t.wp n b).role = t.role := by unfold Thread.wp; split <;> rfl
@[simp] theorem Thread.wp_pc (t : Thread) (n : Nat) (b : Bool) : (t.wp n b).pc = t.pc := by unfold Thread.wp; split <;> rfl
@[simp] theorem Thread.wp_npc (t : Thread) (n : Nat) (b : Bool) : (t.wp n b).npc = t.npc := by unfold Thread.wp; split <;> rfl
@[simp] theorem Thread.wp_v (t : Thread) (n : Nat) (b : Bool) : (t.wp n b).v = t.v := by unfold Thread.wp; split <;> rfl
@[simp] theorem Thread.wp_flags (t : Thread) (n : Nat) (b : Bool) : (t.wp n b).flags = t.flags := by unfold Thread.wp; split <;> rfl
@[simp] theorem Thread.wp_ld (t : Thread) (n : Nat) (b : Bool) : (t.wp n b).ld = t.ld := by unfold Thread.wp; split <;> rfl
@[simp] theorem Thread.wp_st (t : Thread) (n : Nat) (b : Bool) : (t.wp n b).st = t.st := by unfold Thread.wp; split <;> rfl
@[simp] theorem Thread.wp_cp (t : Thread) (n : Nat) (b : Bool) : (t.wp n b).cp = t.cp := by unfold Thread.wp; split <;> rfl
@[simp] theorem Thread.wp_tl (t : Thread) (n : Nat) (b : Bool) : (t.wp n b).tl = t.tl := by unfold Thread.wp; split <;> rfl
@[simp] theorem Thread.wp_age (t : Thread) (n : Nat) (b : Bool) : (t.wp n b).age = t.age := by unfold Thread.wp; split <;> rfl
@[simp] theorem Thread.wp_phase (t : Thread) (n : Nat) (b : Bool) : (t.wp n b).phase = t.phase := by unfold Thread.wp; split <;> rfl
@[simp] theorem Thread.wp_stopped (t : Thread) (n : Nat) (b : Bool) : (t.wp n b).stopped = t.stopped := by unfold Thread.wp; split <;> rfl
@[simp] theorem Thread.wp_under (t : Thread) (n : Nat) (b : Bool) : (t.wp n b).under = t.under := by unfold Thread.wp; split <;> rfl
@[simp] theorem Thread.wp_blocks (t : Thread) (n : Nat) (b : Bool) : (t.wp n b).blocks = t.blocks := by unfold Thread.wp; split <;> rfl
@[simp] theorem Thread.wp_editSeq (t : Thread) (n : Nat) (b : Bool) : (t.wp n b).editSeq = t.editSeq := by unfold Thread.wp; split <;> rfl
@[simp] theorem Thread.wp_redSeq (t : Thread) (n : Nat) (b : Bool) : (t.wp n b).redSeq = t.redSeq := by unfold Thread.wp; split <;> rfl
@[simp] theorem Thread.wp_pendV (t : Thread) (n : Nat) (b : Bool) : (t.wp n b).pendV = t.pendV := by unfold Thread.wp; split <;> rfl
@[simp] theorem Thread.wp_pendP (t : Thread) (n : Nat) (b : Bool) : (t.wp n b).pendP = t.pendP := by unfold Thread.wp; split <;> rfl
@[simp] theorem Thread.wp_poison (t : Thread) (n : Nat) (b : Bool) : (t.wp n b).poison = t.poison := by unfold Thread.wp; split <;> rfl
@[simp] theorem Thread.wp_arrived (t : Thread) (n : Nat) (b : Bool) : (t.wp n b).arrived = t.arrived := by unfold Thread.wp; split <;> rfl
@[simp] theorem Thread.wp_wait (t : Thread) (n : Nat) (b : Bool) : (t.wp n b).wait = t.wait := by unfold Thread.wp; split <;> rfl
@[simp] theorem Thread.wp_rel (t : Thread) (n : Nat) (b : Bool) : (t.wp n b).rel = t.rel := by unfold Thread.wp; split <;> rfl
@[simp] theorem Thread.wp_relDone (t : Thread) (n : Nat) (b : Bool) : (t.wp n b).relDone = t.relDone := by unfold Thread.wp; split <;> rfl
@[simp] theorem Thread.wp_maxTw (t : Thread) (n : Nat) (b : Bool) : (t.wp n b).maxTw = t.maxTw := by unfold Thread.wp; split <;> rfl
@[simp] theorem Thread.wp_flushPoints (t : Thread) (n : Nat) (b : Bool) : (t.wp n b).flushPoints = t.flushPoints := by unfold Thread.wp; split <;> rfl
@[simp] theorem Thread.wp_keysTick (t : Thread) (n : Nat) (b : Bool) : (t.wp n b).keysTick = t.keysTick := by unfold Thread.wp; split <;> rfl
@[simp] theorem Thread.wp_lost (t : Thread) (n : Nat) (b : Bool) : (t.wp n b).lost = t.lost := by unfold Thread.wp; split <;> rfl
@[simp] theorem Thread.wp_passBp (t : Thread) (n : Nat) (b : Bool) : (t.wp n b).passBp = t.passBp := by unfold Thread.wp; split <;> rfl
@[simp] theorem Thread.wp_imageAt (t : Thread) (n : Nat) (b : Bool) : (t.wp n b).imageAt = t.imageAt := by unfold Thread.wp; split <;> rfl
@[simp] theorem Thread.wp_image (t : Thread) (n : Nat) (b : Bool) : (t.wp n b).image = t.image := by unfold Thread.wp; split <;> rfl
@[simp] theorem Thread.wp_step (t : Thread) (n : Nat) (b : Bool) : (t.wp n b).step = t.step := by unfold Thread.wp; split <;> rfl
@[simp] theorem Thread.wp_brk (t : Thread) (n : Nat) (b : Bool) : (t.wp n b).brk = t.brk := by unfold Thread.wp; split <;> rfl
@[simp] theorem Thread.wp_tail (t : Thread) (n : Nat) (b : Bool) : (t.wp n b).tail = t.tail := by unfold Thread.wp; split <;> rfl

/-! Thread.countUp and Thread.countDown -/

@[simp] theorem Thread.countUp_uid (t : Thread) (c : Cls) : (t.countUp c).uid = t.uid := by cases c <;> rfl
@[simp] theorem Thread.countUp_team (t : Thread) (c : Cls) : (t.countUp c).team = t.team := by cases c <;> rfl
@[simp] theorem Thread.countUp_tid (t : Thread) (c : Cls) : (t.countUp c).tid = t.tid := by cases c <;> rfl
@[simp] theorem Thread.countUp_lane (t : Thread) (c : Cls) : (t.countUp c).lane = t.lane := by cases c <;> rfl
@[simp] theorem Thread.countUp_slot (t : Thread) (c : Cls) : (t.countUp c).slot = t.slot := by cases c <;> rfl
@[simp] theorem Thread.countUp_role (t : Thread) (c : Cls) : (t.countUp c).role = t.role := by cases c <;> rfl
@[simp] theorem Thread.countUp_pc (t : Thread) (c : Cls) : (t.countUp c).pc = t.pc := by cases c <;> rfl
@[simp] theorem Thread.countUp_npc (t : Thread) (c : Cls) : (t.countUp c).npc = t.npc := by cases c <;> rfl
@[simp] theorem Thread.countUp_v (t : Thread) (c : Cls) : (t.countUp c).v = t.v := by cases c <;> rfl
@[simp] theorem Thread.countUp_p (t : Thread) (c : Cls) : (t.countUp c).p = t.p := by cases c <;> rfl
@[simp] theorem Thread.countUp_flags (t : Thread) (c : Cls) : (t.countUp c).flags = t.flags := by cases c <;> rfl
@[simp] theorem Thread.countUp_age (t : Thread) (c : Cls) : (t.countUp c).age = t.age := by cases c <;> rfl
@[simp] theorem Thread.countUp_phase (t : Thread) (c : Cls) : (t.countUp c).phase = t.phase := by cases c <;> rfl
@[simp] theorem Thread.countUp_stopped (t : Thread) (c : Cls) : (t.countUp c).stopped = t.stopped := by cases c <;> rfl
@[simp] theorem Thread.countUp_under (t : Thread) (c : Cls) : (t.countUp c).under = t.under := by cases c <;> rfl
@[simp] theorem Thread.countUp_blocks (t : Thread) (c : Cls) : (t.countUp c).blocks = t.blocks := by cases c <;> rfl
@[simp] theorem Thread.countUp_editSeq (t : Thread) (c : Cls) : (t.countUp c).editSeq = t.editSeq := by cases c <;> rfl
@[simp] theorem Thread.countUp_redSeq (t : Thread) (c : Cls) : (t.countUp c).redSeq = t.redSeq := by cases c <;> rfl
@[simp] theorem Thread.countUp_pendV (t : Thread) (c : Cls) : (t.countUp c).pendV = t.pendV := by cases c <;> rfl
@[simp] theorem Thread.countUp_pendP (t : Thread) (c : Cls) : (t.countUp c).pendP = t.pendP := by cases c <;> rfl
@[simp] theorem Thread.countUp_poison (t : Thread) (c : Cls) : (t.countUp c).poison = t.poison := by cases c <;> rfl
@[simp] theorem Thread.countUp_arrived (t : Thread) (c : Cls) : (t.countUp c).arrived = t.arrived := by cases c <;> rfl
@[simp] theorem Thread.countUp_wait (t : Thread) (c : Cls) : (t.countUp c).wait = t.wait := by cases c <;> rfl
@[simp] theorem Thread.countUp_rel (t : Thread) (c : Cls) : (t.countUp c).rel = t.rel := by cases c <;> rfl
@[simp] theorem Thread.countUp_relDone (t : Thread) (c : Cls) : (t.countUp c).relDone = t.relDone := by cases c <;> rfl
@[simp] theorem Thread.countUp_maxTw (t : Thread) (c : Cls) : (t.countUp c).maxTw = t.maxTw := by cases c <;> rfl
@[simp] theorem Thread.countUp_flushPoints (t : Thread) (c : Cls) : (t.countUp c).flushPoints = t.flushPoints := by cases c <;> rfl
@[simp] theorem Thread.countUp_keysTick (t : Thread) (c : Cls) : (t.countUp c).keysTick = t.keysTick := by cases c <;> rfl
@[simp] theorem Thread.countUp_lost (t : Thread) (c : Cls) : (t.countUp c).lost = t.lost := by cases c <;> rfl
@[simp] theorem Thread.countUp_passBp (t : Thread) (c : Cls) : (t.countUp c).passBp = t.passBp := by cases c <;> rfl
@[simp] theorem Thread.countUp_imageAt (t : Thread) (c : Cls) : (t.countUp c).imageAt = t.imageAt := by cases c <;> rfl
@[simp] theorem Thread.countUp_image (t : Thread) (c : Cls) : (t.countUp c).image = t.image := by cases c <;> rfl
@[simp] theorem Thread.countUp_step (t : Thread) (c : Cls) : (t.countUp c).step = t.step := by cases c <;> rfl
@[simp] theorem Thread.countUp_brk (t : Thread) (c : Cls) : (t.countUp c).brk = t.brk := by cases c <;> rfl
@[simp] theorem Thread.countUp_tail (t : Thread) (c : Cls) : (t.countUp c).tail = t.tail := by cases c <;> rfl
@[simp] theorem Thread.countDown_uid (t : Thread) (c : Cls) : (t.countDown c).uid = t.uid := by cases c <;> rfl
@[simp] theorem Thread.countDown_team (t : Thread) (c : Cls) : (t.countDown c).team = t.team := by cases c <;> rfl
@[simp] theorem Thread.countDown_tid (t : Thread) (c : Cls) : (t.countDown c).tid = t.tid := by cases c <;> rfl
@[simp] theorem Thread.countDown_lane (t : Thread) (c : Cls) : (t.countDown c).lane = t.lane := by cases c <;> rfl
@[simp] theorem Thread.countDown_slot (t : Thread) (c : Cls) : (t.countDown c).slot = t.slot := by cases c <;> rfl
@[simp] theorem Thread.countDown_role (t : Thread) (c : Cls) : (t.countDown c).role = t.role := by cases c <;> rfl
@[simp] theorem Thread.countDown_pc (t : Thread) (c : Cls) : (t.countDown c).pc = t.pc := by cases c <;> rfl
@[simp] theorem Thread.countDown_npc (t : Thread) (c : Cls) : (t.countDown c).npc = t.npc := by cases c <;> rfl
@[simp] theorem Thread.countDown_v (t : Thread) (c : Cls) : (t.countDown c).v = t.v := by cases c <;> rfl
@[simp] theorem Thread.countDown_p (t : Thread) (c : Cls) : (t.countDown c).p = t.p := by cases c <;> rfl
@[simp] theorem Thread.countDown_flags (t : Thread) (c : Cls) : (t.countDown c).flags = t.flags := by cases c <;> rfl
@[simp] theorem Thread.countDown_age (t : Thread) (c : Cls) : (t.countDown c).age = t.age := by cases c <;> rfl
@[simp] theorem Thread.countDown_phase (t : Thread) (c : Cls) : (t.countDown c).phase = t.phase := by cases c <;> rfl
@[simp] theorem Thread.countDown_stopped (t : Thread) (c : Cls) : (t.countDown c).stopped = t.stopped := by cases c <;> rfl
@[simp] theorem Thread.countDown_under (t : Thread) (c : Cls) : (t.countDown c).under = t.under := by cases c <;> rfl
@[simp] theorem Thread.countDown_blocks (t : Thread) (c : Cls) : (t.countDown c).blocks = t.blocks := by cases c <;> rfl
@[simp] theorem Thread.countDown_editSeq (t : Thread) (c : Cls) : (t.countDown c).editSeq = t.editSeq := by cases c <;> rfl
@[simp] theorem Thread.countDown_redSeq (t : Thread) (c : Cls) : (t.countDown c).redSeq = t.redSeq := by cases c <;> rfl
@[simp] theorem Thread.countDown_pendV (t : Thread) (c : Cls) : (t.countDown c).pendV = t.pendV := by cases c <;> rfl
@[simp] theorem Thread.countDown_pendP (t : Thread) (c : Cls) : (t.countDown c).pendP = t.pendP := by cases c <;> rfl
@[simp] theorem Thread.countDown_poison (t : Thread) (c : Cls) : (t.countDown c).poison = t.poison := by cases c <;> rfl
@[simp] theorem Thread.countDown_arrived (t : Thread) (c : Cls) : (t.countDown c).arrived = t.arrived := by cases c <;> rfl
@[simp] theorem Thread.countDown_wait (t : Thread) (c : Cls) : (t.countDown c).wait = t.wait := by cases c <;> rfl
@[simp] theorem Thread.countDown_rel (t : Thread) (c : Cls) : (t.countDown c).rel = t.rel := by cases c <;> rfl
@[simp] theorem Thread.countDown_relDone (t : Thread) (c : Cls) : (t.countDown c).relDone = t.relDone := by cases c <;> rfl
@[simp] theorem Thread.countDown_maxTw (t : Thread) (c : Cls) : (t.countDown c).maxTw = t.maxTw := by cases c <;> rfl
@[simp] theorem Thread.countDown_flushPoints (t : Thread) (c : Cls) : (t.countDown c).flushPoints = t.flushPoints := by cases c <;> rfl
@[simp] theorem Thread.countDown_keysTick (t : Thread) (c : Cls) : (t.countDown c).keysTick = t.keysTick := by cases c <;> rfl
@[simp] theorem Thread.countDown_lost (t : Thread) (c : Cls) : (t.countDown c).lost = t.lost := by cases c <;> rfl
@[simp] theorem Thread.countDown_passBp (t : Thread) (c : Cls) : (t.countDown c).passBp = t.passBp := by cases c <;> rfl
@[simp] theorem Thread.countDown_imageAt (t : Thread) (c : Cls) : (t.countDown c).imageAt = t.imageAt := by cases c <;> rfl
@[simp] theorem Thread.countDown_image (t : Thread) (c : Cls) : (t.countDown c).image = t.image := by cases c <;> rfl
@[simp] theorem Thread.countDown_step (t : Thread) (c : Cls) : (t.countDown c).step = t.step := by cases c <;> rfl
@[simp] theorem Thread.countDown_brk (t : Thread) (c : Cls) : (t.countDown c).brk = t.brk := by cases c <;> rfl
@[simp] theorem Thread.countDown_tail (t : Thread) (c : Cls) : (t.countDown c).tail = t.tail := by cases c <;> rfl

/-! Team.setBar -/

@[simp] theorem Team.setBar_uid (t : Team) (b : Nat) (x : Bar) : (t.setBar b x).uid = t.uid := rfl
@[simp] theorem Team.setBar_grid (t : Team) (b : Nat) (x : Bar) : (t.setBar b x).grid = t.grid := rfl
@[simp] theorem Team.setBar_id (t : Team) (b : Nat) (x : Bar) : (t.setBar b x).id = t.id := rfl
@[simp] theorem Team.setBar_x (t : Team) (b : Nat) (x : Bar) : (t.setBar b x).x = t.x := rfl
@[simp] theorem Team.setBar_y (t : Team) (b : Nat) (x : Bar) : (t.setBar b x).y = t.y := rfl
@[simp] theorem Team.setBar_z (t : Team) (b : Nat) (x : Bar) : (t.setBar b x).z = t.z := rfl
@[simp] theorem Team.setBar_size (t : Team) (b : Nat) (x : Bar) : (t.setBar b x).size = t.size := rfl
@[simp] theorem Team.setBar_core (t : Team) (b : Nat) (x : Bar) : (t.setBar b x).core = t.core := rfl
@[simp] theorem Team.setBar_bank (t : Team) (b : Nat) (x : Bar) : (t.setBar b x).bank = t.bank := rfl
@[simp] theorem Team.setBar_slot (t : Team) (b : Nat) (x : Bar) : (t.setBar b x).slot = t.slot := rfl
@[simp] theorem Team.setBar_saved (t : Team) (b : Nat) (x : Bar) : (t.setBar b x).saved = t.saved := rfl
@[simp] theorem Team.setBar_saveTick (t : Team) (b : Nat) (x : Bar) : (t.setBar b x).saveTick = t.saveTick := rfl
@[simp] theorem Team.setBar_s (t : Team) (b : Nat) (x : Bar) : (t.setBar b x).s = t.s := rfl
@[simp] theorem Team.setBar_sLast (t : Team) (b : Nat) (x : Bar) : (t.setBar b x).sLast = t.sLast := rfl
@[simp] theorem Team.setBar_sPoison (t : Team) (b : Nat) (x : Bar) : (t.setBar b x).sPoison = t.sPoison := rfl
@[simp] theorem Team.setBar_pendS (t : Team) (b : Nat) (x : Bar) : (t.setBar b x).pendS = t.pendS := rfl
@[simp] theorem Team.setBar_pendH (t : Team) (b : Nat) (x : Bar) : (t.setBar b x).pendH = t.pendH := rfl
@[simp] theorem Team.setBar_h (t : Team) (b : Nat) (x : Bar) : (t.setBar b x).h = t.h := rfl
@[simp] theorem Team.setBar_hLast (t : Team) (b : Nat) (x : Bar) : (t.setBar b x).hLast = t.hLast := rfl
@[simp] theorem Team.setBar_c (t : Team) (b : Nat) (x : Bar) : (t.setBar b x).c = t.c := rfl
@[simp] theorem Team.setBar_cLast (t : Team) (b : Nat) (x : Bar) : (t.setBar b x).cLast = t.cLast := rfl
@[simp] theorem Team.setBar_mode (t : Team) (b : Nat) (x : Bar) : (t.setBar b x).mode = t.mode := rfl
@[simp] theorem Team.setBar_teamstat (t : Team) (b : Nat) (x : Bar) : (t.setBar b x).teamstat = t.teamstat := rfl
@[simp] theorem Team.setBar_lease (t : Team) (b : Nat) (x : Bar) : (t.setBar b x).lease = t.lease := rfl
@[simp] theorem Team.setBar_view (t : Team) (b : Nat) (x : Bar) : (t.setBar b x).view = t.view := rfl
@[simp] theorem Team.setBar_tLast (t : Team) (b : Nat) (x : Bar) : (t.setBar b x).tLast = t.tLast := rfl
@[simp] theorem Team.setBar_frame (t : Team) (b : Nat) (x : Bar) : (t.setBar b x).frame = t.frame := rfl
@[simp] theorem Team.setBar_tcut (t : Team) (b : Nat) (x : Bar) : (t.setBar b x).tcut = t.tcut := rfl
@[simp] theorem Team.setBar_near (t : Team) (b : Nat) (x : Bar) : (t.setBar b x).near = t.near := rfl
@[simp] theorem Team.setBar_binstat (t : Team) (b : Nat) (x : Bar) : (t.setBar b x).binstat = t.binstat := rfl
@[simp] theorem Team.setBar_scratch (t : Team) (b : Nat) (x : Bar) : (t.setBar b x).scratch = t.scratch := rfl
@[simp] theorem Team.setBar_scratchSize (t : Team) (b : Nat) (x : Bar) : (t.setBar b x).scratchSize = t.scratchSize := rfl
@[simp] theorem Team.setBar_scratchPoison (t : Team) (b : Nat) (x : Bar) : (t.setBar b x).scratchPoison = t.scratchPoison := rfl
@[simp] theorem Team.setBar_flagWord (t : Team) (b : Nat) (x : Bar) : (t.setBar b x).flagWord = t.flagWord := rfl
@[simp] theorem Team.setBar_pool (t : Team) (b : Nat) (x : Bar) : (t.setBar b x).pool = t.pool := rfl
@[simp] theorem Team.setBar_exitRel (t : Team) (b : Nat) (x : Bar) : (t.setBar b x).exitRel = t.exitRel := rfl
@[simp] theorem Team.setBar_exitPc (t : Team) (b : Nat) (x : Bar) : (t.setBar b x).exitPc = t.exitPc := rfl
@[simp] theorem Team.setBar_pinRevoked (t : Team) (b : Nat) (x : Bar) : (t.setBar b x).pinRevoked = t.pinRevoked := rfl
@[simp] theorem Team.setBar_watch (t : Team) (b : Nat) (x : Bar) : (t.setBar b x).watch = t.watch := rfl
@[simp] theorem Team.setBar_task (t : Team) (b : Nat) (x : Bar) : (t.setBar b x).task = t.task := rfl
@[simp] theorem Team.setBar_bars (t : Team) (b : Nat) (x : Bar) : (t.setBar b x).bars = setNth (Bar.fresh false) t.bars b x := rfl

/-! Team.noteWrite and Team.ws -/

@[simp] theorem Team.noteWrite_uid (t : Team) (full d : Bool) (w : List Nat) (r : TeamReg) : (t.noteWrite full d w r).uid = t.uid := by cases r <;> rfl
@[simp] theorem Team.noteWrite_grid (t : Team) (full d : Bool) (w : List Nat) (r : TeamReg) : (t.noteWrite full d w r).grid = t.grid := by cases r <;> rfl
@[simp] theorem Team.noteWrite_id (t : Team) (full d : Bool) (w : List Nat) (r : TeamReg) : (t.noteWrite full d w r).id = t.id := by cases r <;> rfl
@[simp] theorem Team.noteWrite_x (t : Team) (full d : Bool) (w : List Nat) (r : TeamReg) : (t.noteWrite full d w r).x = t.x := by cases r <;> rfl
@[simp] theorem Team.noteWrite_y (t : Team) (full d : Bool) (w : List Nat) (r : TeamReg) : (t.noteWrite full d w r).y = t.y := by cases r <;> rfl
@[simp] theorem Team.noteWrite_z (t : Team) (full d : Bool) (w : List Nat) (r : TeamReg) : (t.noteWrite full d w r).z = t.z := by cases r <;> rfl
@[simp] theorem Team.noteWrite_size (t : Team) (full d : Bool) (w : List Nat) (r : TeamReg) : (t.noteWrite full d w r).size = t.size := by cases r <;> rfl
@[simp] theorem Team.noteWrite_core (t : Team) (full d : Bool) (w : List Nat) (r : TeamReg) : (t.noteWrite full d w r).core = t.core := by cases r <;> rfl
@[simp] theorem Team.noteWrite_bank (t : Team) (full d : Bool) (w : List Nat) (r : TeamReg) : (t.noteWrite full d w r).bank = t.bank := by cases r <;> rfl
@[simp] theorem Team.noteWrite_slot (t : Team) (full d : Bool) (w : List Nat) (r : TeamReg) : (t.noteWrite full d w r).slot = t.slot := by cases r <;> rfl
@[simp] theorem Team.noteWrite_saved (t : Team) (full d : Bool) (w : List Nat) (r : TeamReg) : (t.noteWrite full d w r).saved = t.saved := by cases r <;> rfl
@[simp] theorem Team.noteWrite_saveTick (t : Team) (full d : Bool) (w : List Nat) (r : TeamReg) : (t.noteWrite full d w r).saveTick = t.saveTick := by cases r <;> rfl
@[simp] theorem Team.noteWrite_s (t : Team) (full d : Bool) (w : List Nat) (r : TeamReg) : (t.noteWrite full d w r).s = t.s := by cases r <;> rfl
@[simp] theorem Team.noteWrite_sPoison (t : Team) (full d : Bool) (w : List Nat) (r : TeamReg) : (t.noteWrite full d w r).sPoison = t.sPoison := by cases r <;> rfl
@[simp] theorem Team.noteWrite_pendS (t : Team) (full d : Bool) (w : List Nat) (r : TeamReg) : (t.noteWrite full d w r).pendS = t.pendS := by cases r <;> rfl
@[simp] theorem Team.noteWrite_pendH (t : Team) (full d : Bool) (w : List Nat) (r : TeamReg) : (t.noteWrite full d w r).pendH = t.pendH := by cases r <;> rfl
@[simp] theorem Team.noteWrite_h (t : Team) (full d : Bool) (w : List Nat) (r : TeamReg) : (t.noteWrite full d w r).h = t.h := by cases r <;> rfl
@[simp] theorem Team.noteWrite_c (t : Team) (full d : Bool) (w : List Nat) (r : TeamReg) : (t.noteWrite full d w r).c = t.c := by cases r <;> rfl
@[simp] theorem Team.noteWrite_bars (t : Team) (full d : Bool) (w : List Nat) (r : TeamReg) : (t.noteWrite full d w r).bars = t.bars := by cases r <;> rfl
@[simp] theorem Team.noteWrite_mode (t : Team) (full d : Bool) (w : List Nat) (r : TeamReg) : (t.noteWrite full d w r).mode = t.mode := by cases r <;> rfl
@[simp] theorem Team.noteWrite_lease (t : Team) (full d : Bool) (w : List Nat) (r : TeamReg) : (t.noteWrite full d w r).lease = t.lease := by cases r <;> rfl
@[simp] theorem Team.noteWrite_view (t : Team) (full d : Bool) (w : List Nat) (r : TeamReg) : (t.noteWrite full d w r).view = t.view := by cases r <;> rfl
@[simp] theorem Team.noteWrite_frame (t : Team) (full d : Bool) (w : List Nat) (r : TeamReg) : (t.noteWrite full d w r).frame = t.frame := by cases r <;> rfl
@[simp] theorem Team.noteWrite_tcut (t : Team) (full d : Bool) (w : List Nat) (r : TeamReg) : (t.noteWrite full d w r).tcut = t.tcut := by cases r <;> rfl
@[simp] theorem Team.noteWrite_near (t : Team) (full d : Bool) (w : List Nat) (r : TeamReg) : (t.noteWrite full d w r).near = t.near := by cases r <;> rfl
@[simp] theorem Team.noteWrite_binstat (t : Team) (full d : Bool) (w : List Nat) (r : TeamReg) : (t.noteWrite full d w r).binstat = t.binstat := by cases r <;> rfl
@[simp] theorem Team.noteWrite_scratch (t : Team) (full d : Bool) (w : List Nat) (r : TeamReg) : (t.noteWrite full d w r).scratch = t.scratch := by cases r <;> rfl
@[simp] theorem Team.noteWrite_scratchSize (t : Team) (full d : Bool) (w : List Nat) (r : TeamReg) : (t.noteWrite full d w r).scratchSize = t.scratchSize := by cases r <;> rfl
@[simp] theorem Team.noteWrite_scratchPoison (t : Team) (full d : Bool) (w : List Nat) (r : TeamReg) : (t.noteWrite full d w r).scratchPoison = t.scratchPoison := by cases r <;> rfl
@[simp] theorem Team.noteWrite_flagWord (t : Team) (full d : Bool) (w : List Nat) (r : TeamReg) : (t.noteWrite full d w r).flagWord = t.flagWord := by cases r <;> rfl
@[simp] theorem Team.noteWrite_pool (t : Team) (full d : Bool) (w : List Nat) (r : TeamReg) : (t.noteWrite full d w r).pool = t.pool := by cases r <;> rfl
@[simp] theorem Team.noteWrite_exitRel (t : Team) (full d : Bool) (w : List Nat) (r : TeamReg) : (t.noteWrite full d w r).exitRel = t.exitRel := by cases r <;> rfl
@[simp] theorem Team.noteWrite_exitPc (t : Team) (full d : Bool) (w : List Nat) (r : TeamReg) : (t.noteWrite full d w r).exitPc = t.exitPc := by cases r <;> rfl
@[simp] theorem Team.noteWrite_pinRevoked (t : Team) (full d : Bool) (w : List Nat) (r : TeamReg) : (t.noteWrite full d w r).pinRevoked = t.pinRevoked := by cases r <;> rfl
@[simp] theorem Team.noteWrite_watch (t : Team) (full d : Bool) (w : List Nat) (r : TeamReg) : (t.noteWrite full d w r).watch = t.watch := by cases r <;> rfl
@[simp] theorem Team.noteWrite_task (t : Team) (full d : Bool) (w : List Nat) (r : TeamReg) : (t.noteWrite full d w r).task = t.task := by cases r <;> rfl
@[simp] theorem Team.ws_uid (t : Team) (full : Bool) (w : List Nat) (n : Nat) (x : Word) : (t.ws full w n x).uid = t.uid := by simp [Team.ws, Team.noteWrite, Team.setWriters]
@[simp] theorem Team.ws_grid (t : Team) (full : Bool) (w : List Nat) (n : Nat) (x : Word) : (t.ws full w n x).grid = t.grid := by simp [Team.ws, Team.noteWrite, Team.setWriters]
@[simp] theorem Team.ws_id (t : Team) (full : Bool) (w : List Nat) (n : Nat) (x : Word) : (t.ws full w n x).id = t.id := by simp [Team.ws, Team.noteWrite, Team.setWriters]
@[simp] theorem Team.ws_x (t : Team) (full : Bool) (w : List Nat) (n : Nat) (x : Word) : (t.ws full w n x).x = t.x := by simp [Team.ws, Team.noteWrite, Team.setWriters]
@[simp] theorem Team.ws_y (t : Team) (full : Bool) (w : List Nat) (n : Nat) (x : Word) : (t.ws full w n x).y = t.y := by simp [Team.ws, Team.noteWrite, Team.setWriters]
@[simp] theorem Team.ws_z (t : Team) (full : Bool) (w : List Nat) (n : Nat) (x : Word) : (t.ws full w n x).z = t.z := by simp [Team.ws, Team.noteWrite, Team.setWriters]
@[simp] theorem Team.ws_size (t : Team) (full : Bool) (w : List Nat) (n : Nat) (x : Word) : (t.ws full w n x).size = t.size := by simp [Team.ws, Team.noteWrite, Team.setWriters]
@[simp] theorem Team.ws_core (t : Team) (full : Bool) (w : List Nat) (n : Nat) (x : Word) : (t.ws full w n x).core = t.core := by simp [Team.ws, Team.noteWrite, Team.setWriters]
@[simp] theorem Team.ws_bank (t : Team) (full : Bool) (w : List Nat) (n : Nat) (x : Word) : (t.ws full w n x).bank = t.bank := by simp [Team.ws, Team.noteWrite, Team.setWriters]
@[simp] theorem Team.ws_slot (t : Team) (full : Bool) (w : List Nat) (n : Nat) (x : Word) : (t.ws full w n x).slot = t.slot := by simp [Team.ws, Team.noteWrite, Team.setWriters]
@[simp] theorem Team.ws_saved (t : Team) (full : Bool) (w : List Nat) (n : Nat) (x : Word) : (t.ws full w n x).saved = t.saved := by simp [Team.ws, Team.noteWrite, Team.setWriters]
@[simp] theorem Team.ws_saveTick (t : Team) (full : Bool) (w : List Nat) (n : Nat) (x : Word) : (t.ws full w n x).saveTick = t.saveTick := by simp [Team.ws, Team.noteWrite, Team.setWriters]
@[simp] theorem Team.ws_pendS (t : Team) (full : Bool) (w : List Nat) (n : Nat) (x : Word) : (t.ws full w n x).pendS = t.pendS := by simp [Team.ws, Team.noteWrite, Team.setWriters]
@[simp] theorem Team.ws_pendH (t : Team) (full : Bool) (w : List Nat) (n : Nat) (x : Word) : (t.ws full w n x).pendH = t.pendH := by simp [Team.ws, Team.noteWrite, Team.setWriters]
@[simp] theorem Team.ws_h (t : Team) (full : Bool) (w : List Nat) (n : Nat) (x : Word) : (t.ws full w n x).h = t.h := by simp [Team.ws, Team.noteWrite, Team.setWriters]
@[simp] theorem Team.ws_hLast (t : Team) (full : Bool) (w : List Nat) (n : Nat) (x : Word) : (t.ws full w n x).hLast = t.hLast := by simp [Team.ws, Team.noteWrite, Team.setWriters]
@[simp] theorem Team.ws_c (t : Team) (full : Bool) (w : List Nat) (n : Nat) (x : Word) : (t.ws full w n x).c = t.c := by simp [Team.ws, Team.noteWrite, Team.setWriters]
@[simp] theorem Team.ws_cLast (t : Team) (full : Bool) (w : List Nat) (n : Nat) (x : Word) : (t.ws full w n x).cLast = t.cLast := by simp [Team.ws, Team.noteWrite, Team.setWriters]
@[simp] theorem Team.ws_bars (t : Team) (full : Bool) (w : List Nat) (n : Nat) (x : Word) : (t.ws full w n x).bars = t.bars := by simp [Team.ws, Team.noteWrite, Team.setWriters]
@[simp] theorem Team.ws_mode (t : Team) (full : Bool) (w : List Nat) (n : Nat) (x : Word) : (t.ws full w n x).mode = t.mode := by simp [Team.ws, Team.noteWrite, Team.setWriters]
@[simp] theorem Team.ws_lease (t : Team) (full : Bool) (w : List Nat) (n : Nat) (x : Word) : (t.ws full w n x).lease = t.lease := by simp [Team.ws, Team.noteWrite, Team.setWriters]
@[simp] theorem Team.ws_view (t : Team) (full : Bool) (w : List Nat) (n : Nat) (x : Word) : (t.ws full w n x).view = t.view := by simp [Team.ws, Team.noteWrite, Team.setWriters]
@[simp] theorem Team.ws_tLast (t : Team) (full : Bool) (w : List Nat) (n : Nat) (x : Word) : (t.ws full w n x).tLast = t.tLast := by simp [Team.ws, Team.noteWrite, Team.setWriters]
@[simp] theorem Team.ws_frame (t : Team) (full : Bool) (w : List Nat) (n : Nat) (x : Word) : (t.ws full w n x).frame = t.frame := by simp [Team.ws, Team.noteWrite, Team.setWriters]
@[simp] theorem Team.ws_tcut (t : Team) (full : Bool) (w : List Nat) (n : Nat) (x : Word) : (t.ws full w n x).tcut = t.tcut := by simp [Team.ws, Team.noteWrite, Team.setWriters]
@[simp] theorem Team.ws_near (t : Team) (full : Bool) (w : List Nat) (n : Nat) (x : Word) : (t.ws full w n x).near = t.near := by simp [Team.ws, Team.noteWrite, Team.setWriters]
@[simp] theorem Team.ws_binstat (t : Team) (full : Bool) (w : List Nat) (n : Nat) (x : Word) : (t.ws full w n x).binstat = t.binstat := by simp [Team.ws, Team.noteWrite, Team.setWriters]
@[simp] theorem Team.ws_scratch (t : Team) (full : Bool) (w : List Nat) (n : Nat) (x : Word) : (t.ws full w n x).scratch = t.scratch := by simp [Team.ws, Team.noteWrite, Team.setWriters]
@[simp] theorem Team.ws_scratchSize (t : Team) (full : Bool) (w : List Nat) (n : Nat) (x : Word) : (t.ws full w n x).scratchSize = t.scratchSize := by simp [Team.ws, Team.noteWrite, Team.setWriters]
@[simp] theorem Team.ws_scratchPoison (t : Team) (full : Bool) (w : List Nat) (n : Nat) (x : Word) : (t.ws full w n x).scratchPoison = t.scratchPoison := by simp [Team.ws, Team.noteWrite, Team.setWriters]
@[simp] theorem Team.ws_flagWord (t : Team) (full : Bool) (w : List Nat) (n : Nat) (x : Word) : (t.ws full w n x).flagWord = t.flagWord := by simp [Team.ws, Team.noteWrite, Team.setWriters]
@[simp] theorem Team.ws_pool (t : Team) (full : Bool) (w : List Nat) (n : Nat) (x : Word) : (t.ws full w n x).pool = t.pool := by simp [Team.ws, Team.noteWrite, Team.setWriters]
@[simp] theorem Team.ws_exitRel (t : Team) (full : Bool) (w : List Nat) (n : Nat) (x : Word) : (t.ws full w n x).exitRel = t.exitRel := by simp [Team.ws, Team.noteWrite, Team.setWriters]
@[simp] theorem Team.ws_exitPc (t : Team) (full : Bool) (w : List Nat) (n : Nat) (x : Word) : (t.ws full w n x).exitPc = t.exitPc := by simp [Team.ws, Team.noteWrite, Team.setWriters]
@[simp] theorem Team.ws_pinRevoked (t : Team) (full : Bool) (w : List Nat) (n : Nat) (x : Word) : (t.ws full w n x).pinRevoked = t.pinRevoked := by simp [Team.ws, Team.noteWrite, Team.setWriters]
@[simp] theorem Team.ws_watch (t : Team) (full : Bool) (w : List Nat) (n : Nat) (x : Word) : (t.ws full w n x).watch = t.watch := by simp [Team.ws, Team.noteWrite, Team.setWriters]
@[simp] theorem Team.ws_task (t : Team) (full : Bool) (w : List Nat) (n : Nat) (x : Word) : (t.ws full w n x).task = t.task := by simp [Team.ws, Team.noteWrite, Team.setWriters]

end Sys2Proof.Machine
end

