-- ==== Sys2Proof/Laws/Settle.lean ====
section
/-! SUPPORT. What the machine does by itself after an instruction (settle, advance, endSpan, stops) leaves the data of threads, teams and the rest of the machine alone. -/
namespace Sys2Proof.Machine

/-! ### The relations -/

theorem Thread.SameBut.refl (vs ps : List Nat) (t : Thread) : Thread.SameBut vs ps t t :=
  ⟨rfl, rfl, rfl, rfl, fun _ _ => rfl, fun _ _ => Iff.rfl, fun _ _ => rfl, rfl, rfl, rfl, rfl, rfl, rfl, rfl, rfl, rfl, rfl⟩
theorem Thread.SameBut.trans {vs ps : List Nat} {a b c : Thread} (h : Thread.SameBut vs ps a b) (k : Thread.SameBut vs ps b c) : Thread.SameBut vs ps a c :=
  ⟨k.uid.trans h.uid, k.team.trans h.team, k.tid.trans h.tid, k.lane.trans h.lane, fun n hn => (k.rv n hn).trans (h.rv n hn),
   fun n hn => (k.mark n hn).trans (h.mark n hn), fun n hn => (k.rp n hn).trans (h.rp n hn), k.flags.trans h.flags, k.ld.trans h.ld, k.st.trans h.st,
   k.cp.trans h.cp, k.tl.trans h.tl, k.editSeq.trans h.editSeq, k.redSeq.trans h.redSeq, k.maxTw.trans h.maxTw, k.pendV.trans h.pendV, k.pendP.trans h.pendP⟩
theorem Thread.SameBut.weaken {vs ps vs' ps' : List Nat} {a b : Thread} (h : Thread.SameBut vs ps a b) (hv : vs ⊆ vs') (hp : ps ⊆ ps') : Thread.SameBut vs' ps' a b :=
  ⟨h.uid, h.team, h.tid, h.lane, fun n hn => h.rv n (fun hm => hn (hv hm)), fun n hn => h.mark n (fun hm => hn (hv hm)),
   fun n hn => h.rp n (fun hm => hn (hp hm)), h.flags, h.ld, h.st, h.cp, h.tl, h.editSeq, h.redSeq, h.maxTw, h.pendV, h.pendP⟩
/-- An update that touches none of the compared fields. -/
theorem Thread.SameBut.of_fields {t t' : Thread} (hu : t'.uid = t.uid) (ht : t'.team = t.team) (hi : t'.tid = t.tid) (hl : t'.lane = t.lane) (hv : t'.v = t.v)
    (hm : t'.poison = t.poison) (hp : t'.p = t.p) (hf : t'.flags = t.flags) (h1 : t'.ld = t.ld) (h2 : t'.st = t.st) (h3 : t'.cp = t.cp) (h4 : t'.tl = t.tl)
    (h5 : t'.editSeq = t.editSeq) (h6 : t'.redSeq = t.redSeq) (h7 : t'.maxTw = t.maxTw) (h8 : t'.pendV = t.pendV) (h9 : t'.pendP = t.pendP) : Thread.SameBut [] [] t t' :=
  ⟨hu, ht, hi, hl, fun n _ => by simp [Thread.rv, hv], fun n _ => by rw [hm], fun n _ => by simp [Thread.rp, hp], hf, h1, h2, h3, h4, h5, h6, h7, h8, h9⟩

theorem Team.SameBut.refl (ss : List Nat) (t : Team) : Team.SameBut ss t t :=
  ⟨rfl, rfl, rfl, rfl, fun _ _ => rfl, fun _ _ => Iff.rfl, fun r _ => by cases r <;> rfl, rfl, rfl, rfl, rfl, rfl, rfl, rfl, rfl, rfl, rfl, rfl, rfl, rfl, rfl, rfl⟩
theorem Team.SameBut.trans {ss : List Nat} {a b c : Team} (h : Team.SameBut ss a b) (k : Team.SameBut ss b c) : Team.SameBut ss a c :=
  ⟨k.uid.trans h.uid, k.grid.trans h.grid, k.id.trans h.id, k.size.trans h.size, fun n hn => (k.rs n hn).trans (h.rs n hn), fun n hn => (k.mark n hn).trans (h.mark n hn),
   fun r hr => (k.writers r hr).trans (h.writers r hr), k.h.trans h.h, k.c.trans h.c, k.mode.trans h.mode, k.teamstat.trans h.teamstat, k.lease.trans h.lease,
   k.view.trans h.view, k.frame.trans h.frame, k.tcut.trans h.tcut, k.near.trans h.near, k.binstat.trans h.binstat, k.scratch.trans h.scratch,
   k.scratchPoison.trans h.scratchPoison, k.flagWord.trans h.flagWord, k.pendS.trans h.pendS, k.pendH.trans h.pendH⟩
theorem Team.SameBut.weaken {ss ss' : List Nat} {a b : Team} (h : Team.SameBut ss a b) (hs : ss ⊆ ss') : Team.SameBut ss' a b :=
  { h with rs := fun n hn => h.rs n (fun hm => hn (hs hm)), mark := fun n hn => h.mark n (fun hm => hn (hs hm)), writers := fun r hr => h.writers r (fun n hn => hr n (hs hn)) }

/-! ### Lookups through a change of every thread or team -/

theorem find_map {α : Type} (l : List α) (key : α → Nat) (f : α → α) (hf : ∀ x, key (f x) = key x) (u : Nat) :
    (l.map f).find? (fun x => key x == u) = (l.find? (fun x => key x == u)).map f := by
  induction l with
  | nil => rfl
  | cons x l ih =>
    simp only [List.map_cons, List.find?_cons, hf]
    split
    · rfl
    · exact ih
/-- A thread after a change of every thread: changed where it exists. -/
theorem thr_map {s s' : State} {f : Thread → Thread} (h : s'.threads = s.threads.map f) (hf : ∀ t, (f t).uid = t.uid) (u : Nat) :
    s'.thr u = if (s.threads.find? (fun t => t.uid == u)).isSome then f (s.thr u) else Thread.blank := by
  unfold State.thr
  rw [h, find_map s.threads Thread.uid f hf u]
  cases s.threads.find? (fun t => t.uid == u) <;> rfl
/-- A thread that exists, after a change of every thread. -/
theorem thr_map_some {s s' : State} {f : Thread → Thread} (h : s'.threads = s.threads.map f) (hf : ∀ t, (f t).uid = t.uid) {u : Nat}
    (hu : ∃ t ∈ s.threads, t.uid = u) : s'.thr u = f (s.thr u) := by
  rw [thr_map h hf u, if_pos]
  rw [List.find?_isSome]
  obtain ⟨t, ht, rfl⟩ := hu
  exact ⟨t, ht, by simp⟩
theorem thr_rel {s s' : State} {f : Thread → Thread} {R : Thread → Thread → Prop} (h : s'.threads = s.threads.map f) (hf : ∀ t, (f t).uid = t.uid)
    (hR : ∀ t, R t (f t)) (hb : R Thread.blank Thread.blank) (u : Nat) : R (s.thr u) (s'.thr u) := by
  rw [thr_map h hf u]
  split
  · exact hR _
  · rename_i hn
    have : s.threads.find? (fun t => t.uid == u) = none := by simpa using hn
    simpa [State.thr, this] using hb
theorem tm_rel {s s' : State} {f : Team → Team} {R : Team → Team → Prop} (h : s'.teams = s.teams.map f) (hf : ∀ t, (f t).uid = t.uid)
    (hR : ∀ t, R t (f t)) (hb : R Team.blank Team.blank) (u : Nat) : R (s.tm u) (s'.tm u) := by
  unfold State.tm
  rw [h, find_map s.teams Team.uid f hf u]
  cases s.teams.find? (fun t => t.uid == u) with
  | none => exact hb
  | some t => exact hR t

/-! ### What moves by itself -/

/-- A thread that keeps its data, its next PC and its image, and stands at its PC or at its next PC. -/
structure Thread.Idle (a b : Thread) : Prop where
  same : Thread.SameBut [] [] a b
  npc : b.npc = a.npc
  pc : b.pc = a.pc ∨ b.pc = a.npc
  image : b.imageAt = a.imageAt ∧ b.image = a.image
theorem Thread.Idle.refl (a : Thread) : Thread.Idle a a := ⟨.refl _ _ _, rfl, .inl rfl, rfl, rfl⟩
theorem Thread.Idle.trans {a b c : Thread} (h : Thread.Idle a b) (k : Thread.Idle b c) : Thread.Idle a c := by
  refine ⟨h.same.trans k.same, k.npc.trans h.npc, ?_, k.image.1.trans h.image.1, k.image.2.trans h.image.2⟩
  rcases k.pc with e | e
  · rw [e]; exact h.pc
  · rw [e, h.npc]; exact .inr rfl
/-- The relation is decided by the fields. -/
theorem Thread.Idle.ite {c : Prop} [Decidable c] {a b d : Thread} (h : c → Thread.Idle a b) (k : ¬ c → Thread.Idle a d) : Thread.Idle a (if c then b else d) := by
  split
  · exact h ‹_›
  · exact k ‹_›
theorem Team.SameBut.ite {c : Prop} [Decidable c] {a b d : Team} (h : c → Team.SameBut [] a b) (k : ¬ c → Team.SameBut [] a d) : Team.SameBut [] a (if c then b else d) := by
  split
  · exact h ‹_›
  · exact k ‹_›

/-- s' is s after what goes on by itself: every thread idle, every team's data kept, the rest the same, memory still canonical. -/
structure Drift (s s' : State) : Prop where
  threads : ∀ u, Thread.Idle (s.thr u) (s'.thr u)
  teams : ∀ k, Team.SameBut [] (s.tm k) (s'.tm k)
  rest : State.SameRest s s'
  imgs : s'.threads.map (fun t => (t.uid, t.imageAt, t.image)) = s.threads.map (fun t => (t.uid, t.imageAt, t.image))
  canon : s.Canonical → s'.Canonical

theorem inImage_iff {s s' : State} (h : s'.threads.map (fun t => (t.uid, t.imageAt, t.image)) = s.threads.map (fun t => (t.uid, t.imageAt, t.image))) (a : Nat) :
    s'.inImage a ↔ s.inImage a := by
  have key (s : State) : s.inImage a ↔ ∃ p ∈ s.threads.map (fun t => (t.uid, t.imageAt, t.image)), p.2.2 ≠ [] ∧ p.2.1 ≤ a ∧ a < p.2.1 + p.2.2.length := by
    simp [State.inImage]
  rw [key, key, h]
theorem State.SameRest.refl (s : State) : State.SameRest s s :=
  ⟨fun _ _ _ => rfl, fun _ _ _ _ => rfl, rfl, List.prefix_refl _, rfl⟩
theorem State.SameRest.trans {a b c : State} (h : State.SameRest a b) (k : State.SameRest b c) (hi : ∀ x, b.inImage x ↔ a.inImage x) (hc : a.Canonical → b.Canonical) :
    State.SameRest a c :=
  ⟨fun ca x hx => (k.bytes (hc ca) x (fun hb => hx ((hi x).1 hb))).trans (h.bytes ca x hx), fun f p o ho => (k.regs f p o ho).trans (h.regs f p o ho),
   k.grids.trans h.grids, h.faults.trans k.faults, k.others.trans h.others⟩
theorem Drift.refl (s : State) : Drift s s := ⟨fun _ => .refl _, fun _ => .refl _ _, .refl s, rfl, id⟩
theorem Drift.trans {a b c : State} (h : Drift a b) (k : Drift b c) : Drift a c :=
  ⟨fun u => (h.threads u).trans (k.threads u), fun u => (h.teams u).trans (k.teams u), h.rest.trans k.rest (inImage_iff h.imgs) h.canon,
   k.imgs.trans h.imgs, fun ca => k.canon (h.canon ca)⟩
theorem Drift.foldl {α : Type} (l : List α) (f : State → α → State) (hf : ∀ s x, Drift s (f s x)) (s : State) : Drift s (l.foldl f s) := by
  induction l generalizing s with
  | nil => exact Drift.refl s
  | cons x l ih => exact (hf s x).trans (ih _)
theorem Drift.ite {c : Prop} [Decidable c] {a b d : State} (h : c → Drift a b) (k : ¬ c → Drift a d) : Drift a (if c then b else d) := by
  split
  · exact h ‹_›
  · exact k ‹_›

/-- s' differs from s in the threads and the teams only, but for what no frame names. -/
theorem Drift.of_map {s s' : State} (f : Thread → Thread) (g : Team → Team) (hf : s'.threads = s.threads.map f) (hg : s'.teams = s.teams.map g)
    (hm : s'.mem = s.mem) (hr : s'.regs = s.regs) (hgr : s'.grids.map Grid.others = s.grids.map Grid.others) (hfa : s.faults <+: s'.faults)
    (ho : s'.others = s.others) (hR : ∀ t, Thread.Idle t (f t)) (hT : ∀ t, Team.SameBut [] t (g t)) : Drift s s' := by
  refine ⟨thr_rel hf (fun t => (hR t).same.uid) hR (.refl _), tm_rel hg (fun t => (hT t).uid) hT (.refl _ _), ?_, ?_, ?_⟩
  · exact ⟨fun _ a _ => by rw [hm], fun fn priv off _ => by simp [State.reg, hr], hgr, hfa, ho⟩
  · rw [hf]; simp [List.map_map, Function.comp_def, (hR _).same.uid, (hR _).image]
  · intro hc; simpa [State.Canonical, hm] using hc
theorem map_id_eq {α : Type} (l : List α) : l = l.map (fun x => x) := by simp
/-- Only threads change. -/
theorem Drift.ofThreads {s s' : State} (f : Thread → Thread) (hf : s'.threads = s.threads.map f) (hg : s'.teams = s.teams) (hm : s'.mem = s.mem) (hr : s'.regs = s.regs)
    (hgr : s'.grids.map Grid.others = s.grids.map Grid.others) (hfa : s.faults <+: s'.faults) (ho : s'.others = s.others) (hR : ∀ t, Thread.Idle t (f t)) : Drift s s' :=
  Drift.of_map f (fun t => t) hf (by rw [hg]; exact map_id_eq _) hm hr hgr hfa ho hR (fun t => .refl _ _)
/-- Nothing that a frame names changes. -/
theorem Drift.own {s s' : State} (hf : s'.threads = s.threads) (hg : s'.teams = s.teams) (hm : s'.mem = s.mem) (hr : s'.regs = s.regs)
    (hgr : s'.grids.map Grid.others = s.grids.map Grid.others) (hfa : s.faults <+: s'.faults) (ho : s'.others = s.others) : Drift s s' :=
  Drift.ofThreads (fun t => t) (by rw [hf]; exact map_id_eq _) hg hm hr hgr hfa ho (fun t => .refl _)
/-- One thread is moved. -/
theorem Drift.modThr (s : State) (u : Nat) (f : Thread → Thread) (hR : ∀ t, Thread.Idle t (f t)) : Drift s (s.modThr u f) :=
  Drift.ofThreads (fun t => if t.uid = u then f t else t) rfl rfl rfl rfl rfl (List.prefix_refl _) rfl (fun t => .ite (fun _ => hR t) (fun _ => .refl _))
/-- One team is moved. -/
theorem Drift.modTeam (s : State) (u : Nat) (g : Team → Team) (hT : ∀ t, Team.SameBut [] t (g t)) : Drift s (s.modTeam u g) :=
  Drift.of_map (fun t => t) (fun t => if t.uid = u then g t else t) (map_id_eq _) rfl rfl rfl rfl (List.prefix_refl _) rfl (fun t => .refl _)
    (fun t => .ite (fun _ => hT t) (fun _ => .refl _ _))
theorem grids_faults (gs : List Grid) (u k : Nat) : (gs.map (fun g => if g.uid = u then { g with faults := g.faults + k } else g)).map Grid.others = gs.map Grid.others := by
  rw [List.map_map]; congr 1; funext g; simp only [Function.comp]; split <;> rfl

/-! ### Threads' own moves -/

theorem Thread.wake_idle (t : Thread) : Thread.Idle t t.wake := by
  unfold Thread.wake; split <;> exact ⟨.of_fields rfl rfl rfl rfl rfl rfl rfl rfl rfl rfl rfl rfl rfl rfl rfl rfl rfl, rfl, .inr rfl, rfl, rfl⟩
theorem Thread.wakeAfresh_idle (t : Thread) : Thread.Idle t t.wakeAfresh := by
  unfold Thread.wakeAfresh; split <;> exact ⟨.of_fields rfl rfl rfl rfl rfl rfl rfl rfl rfl rfl rfl rfl rfl rfl rfl rfl rfl, rfl, .inl rfl, rfl, rfl⟩
theorem Thread.fault_idle (t : Thread) : Thread.Idle t t.fault :=
  ⟨.of_fields rfl rfl rfl rfl rfl rfl rfl rfl rfl rfl rfl rfl rfl rfl rfl rfl rfl, rfl, .inl rfl, rfl, rfl⟩
theorem Thread.stop_idle (c : StopCause) (t : Thread) : Thread.Idle t (t.stop c) := by
  unfold Thread.stop
  refine .ite (fun _ => ?_) (fun _ => ?_)
  · exact ⟨.of_fields rfl rfl rfl rfl rfl rfl rfl rfl rfl rfl rfl rfl rfl rfl rfl rfl rfl, rfl, .inl rfl, rfl, rfl⟩
  · refine .ite (fun _ => ?_) (fun _ => ?_) <;> exact ⟨.of_fields rfl rfl rfl rfl rfl rfl rfl rfl rfl rfl rfl rfl rfl rfl rfl rfl rfl, rfl, .inl rfl, rfl, rfl⟩
theorem Thread.leaveBarrier_idle (t : Thread) (b : Nat) : Thread.Idle t (t.leaveBarrier b) := by
  unfold Thread.leaveBarrier
  have h : Thread.Idle t { t with arrived := t.arrived &&& ~~~(1#16 <<< b) } := ⟨.of_fields rfl rfl rfl rfl rfl rfl rfl rfl rfl rfl rfl rfl rfl rfl rfl rfl rfl, rfl, .inl rfl, rfl, rfl⟩
  exact .ite (fun _ => h.trans (Thread.wake_idle _)) (fun _ => h)
theorem Thread.lateArrival_idle (t : Thread) (b : Nat) : Thread.Idle t (t.lateArrival b) := by
  unfold Thread.lateArrival
  have h : Thread.Idle t { t with arrived := t.arrived ||| (1#16 <<< b) } := ⟨.of_fields rfl rfl rfl rfl rfl rfl rfl rfl rfl rfl rfl rfl rfl rfl rfl rfl rfl, rfl, .inl rfl, rfl, rfl⟩
  exact .ite (fun _ => h.trans (Thread.wake_idle _)) (fun _ => ⟨.of_fields rfl rfl rfl rfl rfl rfl rfl rfl rfl rfl rfl rfl rfl rfl rfl rfl rfl, rfl, .inl rfl, rfl, rfl⟩)

/-! ### Spans, stops -/

theorem endSpan_drift (s : State) : Drift s (endSpan s) := by
  unfold endSpan
  match s.waves with
  | [] => exact Drift.refl s
  | w :: ws =>
    refine Drift.ofThreads _ rfl rfl rfl rfl rfl (List.prefix_refl _) rfl (fun t => .ite (fun _ => ?_) (fun _ => .refl _))
    exact ⟨.of_fields rfl rfl rfl rfl rfl rfl rfl rfl rfl rfl rfl rfl rfl rfl rfl rfl rfl, rfl, .inl rfl, rfl, rfl⟩
theorem advance_drift (ends : Bool) (s : State) : Drift s (advance ends s) := by
  unfold advance
  match s.waves with
  | [] => exact Drift.refl s
  | w :: ws =>
    have h : Drift s { s with
        threads := s.threads.map (fun (t : Thread) => if w.members.contains t.uid && t.phase == .issuing then { t with pc := t.npc, passBp := false } else t)
        waves := { w with members := w.members.filter (fun u => (s.thr u).phase == .issuing), count := w.count + 1 } :: ws } := by
      refine Drift.ofThreads _ rfl rfl rfl rfl rfl (List.prefix_refl _) rfl (fun t => .ite (fun _ => ?_) (fun _ => .refl _))
      exact ⟨.of_fields rfl rfl rfl rfl rfl rfl rfl rfl rfl rfl rfl rfl rfl rfl rfl rfl rfl, rfl, .inr rfl, rfl, rfl⟩
    exact .ite (fun _ => h.trans (endSpan_drift _)) (fun _ => h)
theorem stopAll_drift (c : StopCause) (us : List Nat) (s : State) : Drift s (stopAll c us s) :=
  Drift.ofThreads _ rfl rfl rfl rfl rfl (List.prefix_refl _) rfl (fun t => .ite (fun _ => Thread.stop_idle c t) (fun _ => .refl _))
theorem fresh_drift (s : State) : Drift s s.fresh.2 := Drift.own rfl rfl rfl rfl rfl (List.prefix_refl _) rfl
theorem report_drift (s : State) (r : FaultRec) : Drift s { s with faults := s.faults ++ [r] } := Drift.own rfl rfl rfl rfl rfl (List.prefix_append _ _) rfl
theorem stopOwn_drift (c : StopCause) (cause : Cause) (kind : Nat) (fpc spc : Dword) (us : List Nat) (team : Nat) (s : State) :
    Drift s (stopOwn c cause kind fpc spc us team s) :=
  ((fresh_drift s).trans (report_drift _ _)).trans (stopAll_drift c _ _)
theorem stopOthers_drift (team : Nat) (s : State) : Drift s (stopOthers team s) := stopAll_drift .dbgstop _ _
theorem stopTeam_drift (c : StopCause) (cause : Cause) (kind : Nat) (fpc spc : Dword) (us : List Nat) (team : Nat) (s : State) :
    Drift s (stopTeam c cause kind fpc spc us team s) := (stopOwn_drift _ _ _ _ _ _ _ _).trans (stopOthers_drift _ _)
theorem stopMarked_drift (members : List Nat) (pc : Dword) (s : State) : Drift s (stopMarked members pc s) :=
  .ite (fun _ => .refl s) (fun _ => ((Drift.foldl _ _ (fun s tm => stopOwn_drift _ _ _ _ _ _ tm s) s).trans (Drift.foldl _ _ (fun s tm => stopOwn_drift _ _ _ _ _ _ tm s) _)).trans
    (Drift.foldl _ _ (fun s tm => stopOthers_drift tm s) _))

/-! ### Settling -/

theorem gridFaults_drift (s : State) (u k : Nat) : Drift s (s.modGrid u (fun g => { g with faults := g.faults + k })) :=
  Drift.own rfl rfl rfl rfl (grids_faults _ _ _) (List.prefix_refl _) rfl
theorem raiseWide_drift (cause : Cause) (d : Detail) (team : Nat) (s : State) : Drift s (raiseWide cause d team s) := by
  unfold raiseWide raiseWideBy
  match sortBy Thread.tid (s.liveOf team) with
  | [] => exact .refl s
  | t :: l =>
    exact (((fresh_drift s).trans (Drift.foldl _ _ (fun s (t : Thread) => Drift.modThr s t.uid Thread.fault Thread.fault_idle) _)).trans (report_drift _ _)).trans (gridFaults_drift _ _ _)
theorem setBar_same (t : Team) (b : Nat) (x : Bar) : Team.SameBut [] t (t.setBar b x) :=
  ⟨rfl, rfl, rfl, rfl, fun _ _ => rfl, fun _ _ => Iff.rfl, fun r _ => by cases r <;> rfl, rfl, rfl, rfl, rfl, rfl, rfl, rfl, rfl, rfl, rfl, rfl, rfl, rfl, rfl, rfl⟩
theorem completeBarrier_drift (team b : Nat) (s : State) : Drift s (completeBarrier team b s) := by
  unfold completeBarrier
  dsimp only
  refine Drift.trans (b := { s.modTeam team (fun t => t.setBar b (Bar.fresh (!(t.bar b).parity))) with
      threads := s.threads.map (fun (t : Thread) => if t.team = team then t.leaveBarrier b else t) }) ?_ ?_
  · exact (Drift.modTeam s team _ (fun t => setBar_same t _ _)).trans
      (Drift.ofThreads (fun (t : Thread) => if t.team = team then t.leaveBarrier b else t) rfl rfl rfl rfl rfl (List.prefix_refl _) rfl
        (fun t => .ite (fun _ => Thread.leaveBarrier_idle t b) (fun _ => .refl _)))
  · exact Drift.foldl _ _ (fun s (t : Thread) => (Drift.modTeam s team _ (fun t => setBar_same t _ _)).trans (Drift.modThr _ t.uid _ (fun t => Thread.lateArrival_idle t b))) _
theorem settleBarriers_drift (s : State) : Drift s (settleBarriers s) :=
  Drift.foldl _ _ (fun s _ => Drift.foldl _ _ (fun _ _ => .ite (fun _ => completeBarrier_drift _ _ _) (fun _ => .refl _)) s) s
theorem settleThreads_drift (s : State) : Drift s (settleThreads s) :=
  Drift.ofThreads _ rfl rfl rfl rfl rfl (List.prefix_refl _) rfl
    (fun t => .ite (fun _ => Thread.wake_idle t) (fun _ => .ite (fun _ => .ite (fun _ => Thread.wake_idle t) (fun _ => Thread.wakeAfresh_idle t)) (fun _ => .refl _)))
theorem grow_rv (v : List Word) (k n : Nat) : nth 0 (v ++ List.replicate k 0) n = nth 0 v n := by
  simp only [nth, List.getD_eq_getElem?_getD, List.getElem?_append, List.getElem?_replicate]
  split
  · rfl
  · split
    · rename_i h _; simp [List.getElem?_eq_none (Nat.le_of_not_lt h)]
    · rename_i h _; simp [List.getElem?_eq_none (Nat.le_of_not_lt h)]
theorem giveBlock_drift (u b : Nat) (s : State) : Drift s (giveBlock u b 0 s) := by
  unfold giveBlock
  dsimp only
  refine Drift.trans (Drift.modTeam s (s.thr u).team (fun tm => { tm with pool := setNth [] tm.pool (s.thr u).lane ((nth [] tm.pool (s.thr u).lane).filter (· ≠ b)) }) (fun t => ⟨rfl, rfl, rfl, rfl, fun _ _ => rfl, fun _ _ => Iff.rfl, fun r _ => by cases r <;> rfl, rfl, rfl, rfl, rfl, rfl, rfl, rfl, rfl, rfl, rfl, rfl, rfl, rfl, rfl, rfl⟩)) (Drift.modThr _ u _ (fun t => ?_))
  exact ⟨⟨rfl, rfl, rfl, rfl, fun n _ => grow_rv t.v 16 n, fun _ _ => Iff.rfl, fun _ _ => rfl, rfl, rfl, rfl, rfl, rfl, rfl, rfl, rfl, rfl, rfl⟩, rfl, .inl rfl, rfl, rfl⟩
theorem settleClaims_drift (s : State) : Drift s (settleClaims s) := by
  refine Drift.foldl _ _ (fun s t => ?_) s
  match freeBlock (s.tm t.team) t.lane with
  | some b => exact (giveBlock_drift _ _ _).trans (Drift.modThr _ t.uid _ Thread.wake_idle)
  | none => exact .refl _
theorem settleDeadlock_drift (s : State) : Drift s (settleDeadlock s) :=
  Drift.foldl _ _ (fun _ _ => .ite (fun _ => raiseWide_drift _ _ _ _) (fun _ => .refl _)) s

/-- A performance counter's write is seen at no other register. -/
theorem reg_setReg (s : State) (fn : Nat) (priv : Bool) (off : Nat) (v : Dword) (fn' : Nat) (priv' : Bool) (off' : Nat) :
    (s.setReg fn priv off v).reg fn' priv' off' = if fn' = fn ∧ priv' = priv ∧ off' = off then v else s.reg fn' priv' off' := by
  unfold State.reg State.setReg
  by_cases h : fn' = fn ∧ priv' = priv ∧ off' = off
  · obtain ⟨rfl, rfl, rfl⟩ := h; simp
  · rw [if_neg h]
    have h1 : ¬ (fn = fn' ∧ priv = priv' ∧ off = off') := fun k => h ⟨k.1.symm, k.2.1.symm, k.2.2.symm⟩
    rw [List.find?_cons_of_neg (by simpa [and_assoc] using h1)]
    congr 1
    rw [List.find?_filter]
    congr 1
    funext r
    by_cases hr : r.fn = fn' ∧ r.priv = priv' ∧ r.off = off'
    · obtain ⟨rfl, rfl, rfl⟩ := hr
      simp only [beq_self_eq_true, Bool.and_self, Bool.and_true, Bool.not_eq_true', Bool.and_eq_false_iff, beq_eq_false_iff_ne, ne_eq, decide_eq_true_eq]
      by_cases a : r.fn = fn <;> by_cases b : r.priv = priv <;> by_cases c : r.off = off <;> simp_all
    · by_cases a : r.fn = fn' <;> by_cases b : r.priv = priv' <;> by_cases c : r.off = off' <;> simp_all
/-- A change of performance counters. -/
theorem Drift.perf (s : State) (fn off : Nat) (v : Dword) (h : perfCounter false off = true) : Drift s (s.setReg fn false off v) := by
  refine ⟨fun u => .refl _, fun u => .refl _ _, ?_, rfl, id⟩
  refine { State.SameRest.refl s with bytes := fun _ _ _ => rfl, regs := fun fn' priv' off' ho => ?_ }
  rw [reg_setReg, if_neg]
  rintro ⟨-, rfl, rfl⟩
  simp [h] at ho
theorem count_drift (s : State) (fn code k : Nat) : Drift s (s.count fn code k) := by
  unfold State.count
  refine .ite (fun _ => .refl s) (fun _ => ?_)
  suffices ∀ (l : List Nat) (s : State), (∀ n ∈ l, n < 8) → Drift s (l.foldl (fun s n =>
      if (s.reg fn false (0x900 + 8 * n)).toNat % 256 == code then s.setReg fn false (0x980 + 8 * n) (s.reg fn false (0x980 + 8 * n) + BitVec.ofNat 64 k) else s) s) from
    this _ s (fun n hn => List.mem_range.1 hn)
  intro l
  induction l with
  | nil => exact fun s _ => Drift.refl s
  | cons n l ih =>
    intro s hl
    refine Drift.trans ?_ (ih _ (fun m hm => hl m (List.mem_cons_of_mem _ hm)))
    refine .ite (fun _ => ?_) (fun _ => .refl s)
    have := hl n List.mem_cons_self
    exact Drift.perf s fn _ _ (by simp [perfCounter]; omega)
theorem settleWatch_drift (s : State) : Drift s (settleWatch s) := by
  unfold settleWatch
  dsimp only
  refine Drift.trans (b := if s.gtick - s.watched = 0 || s.regs.isEmpty then s else (List.range 17).foldl (fun r fn => r.count fn 9 (s.gtick - s.watched)) s) ?_ ?_
  · exact .ite (fun _ => .refl _) (fun _ => Drift.foldl _ _ (fun s fn => count_drift _ _ _ _) _)
  · generalize (if s.gtick - s.watched = 0 || s.regs.isEmpty then s else (List.range 17).foldl (fun r fn => r.count fn 9 (s.gtick - s.watched)) s) = r
    refine Drift.of_map (fun t => t) _ (map_id_eq _) rfl rfl rfl rfl (List.prefix_refl _) rfl (fun t => .refl _) (fun t => ?_)
    exact .ite (fun _ => ⟨rfl, rfl, rfl, rfl, fun _ _ => rfl, fun _ _ => Iff.rfl, fun r _ => by cases r <;> rfl, rfl, rfl, rfl, rfl, rfl, rfl, rfl, rfl, rfl, rfl, rfl, rfl, rfl, rfl, rfl⟩)
      (fun _ => .ite (fun _ => ⟨rfl, rfl, rfl, rfl, fun _ _ => rfl, fun _ _ => Iff.rfl, fun r _ => by cases r <;> rfl, rfl, rfl, rfl, rfl, rfl, rfl, rfl, rfl, rfl, rfl, rfl, rfl, rfl, rfl, rfl⟩) (fun _ => .refl _ _))


/-! ### Images of saved threads, and the whole of settle -/

/-- A thread whose data, PC and next PC are kept. -/
structure Thread.Kept (a b : Thread) : Prop where
  same : Thread.SameBut [] [] a b
  npc : b.npc = a.npc
  pc : b.pc = a.pc ∨ b.pc = a.npc
theorem Thread.Kept.refl (a : Thread) : Thread.Kept a a := ⟨.refl _ _ _, rfl, .inl rfl⟩
theorem Thread.Kept.trans {a b c : Thread} (h : Thread.Kept a b) (k : Thread.Kept b c) : Thread.Kept a c := by
  refine ⟨h.same.trans k.same, k.npc.trans h.npc, ?_⟩
  rcases k.pc with e | e
  · rw [e]; exact h.pc
  · rw [e, h.npc]; exact .inr rfl

/-- Images are brought up to date: bytes change only in an image. -/
structure Imaged (s s' : State) : Prop where
  threads : ∀ u, Thread.Kept (s.thr u) (s'.thr u)
  teams : s'.teams = s.teams
  regs : s'.regs = s.regs
  grids : s'.grids = s.grids
  faults : s'.faults = s.faults
  others : s'.others = s.others
  canon : s.Canonical → s'.Canonical
theorem Imaged.refl (s : State) : Imaged s s := ⟨fun _ => .refl _, rfl, rfl, rfl, rfl, rfl, id⟩
theorem Imaged.trans {a b c : State} (h : Imaged a b) (k : Imaged b c) : Imaged a c :=
  ⟨fun u => (h.threads u).trans (k.threads u), k.teams.trans h.teams, k.regs.trans h.regs, k.grids.trans h.grids, k.faults.trans h.faults, k.others.trans h.others,
   fun ca => k.canon (h.canon ca)⟩
theorem keepPage_imaged (n : Nat) (s : State) : Imaged s (keepPage n s) := by
  refine ⟨fun _ => .refl _, rfl, rfl, rfl, rfl, ?_, id⟩
  have : (s.snaps.map (fun p => if p.pages.contains n then
      { p with pages := p.pages.filter (· ≠ n), pre := (n, s.mem.bytes.readN (n * 4096) 4096, (keepPage.span32 (n * 32)).filter s.mem.poison.contains) :: p.pre } else p)).map Snap.others =
      s.snaps.map Snap.others := by
    rw [List.map_map]; congr 1; funext p; simp only [Function.comp]; split <;> rfl
  simp only [State.others, keepPage, this]
@[simp] theorem keepPage_mem (n : Nat) (s : State) : (keepPage n s).mem = s.mem := rfl
theorem writeRecord_imaged (s : State) (t : Thread) (r : List Byte) : Imaged s (writeRecord s t r) := by
  have h : Imaged s (s.modThr t.uid (fun x => { x with image := r })) := by
    refine ⟨fun u => ?_, rfl, rfl, rfl, rfl, rfl, id⟩
    refine thr_rel (f := fun x => if x.uid = t.uid then { x with image := r } else x) rfl ?_ ?_ (.refl _) u
    · intro x; split <;> rfl
    · intro x; split
      · exact ⟨.of_fields rfl rfl rfl rfl rfl rfl rfl rfl rfl rfl rfl rfl rfl rfl rfl rfl rfl, rfl, .inl rfl⟩
      · exact .refl _
  have k := (h.trans (keepPage_imaged (t.imageAt / 4096) _)).trans (keepPage_imaged ((t.imageAt + 639) / 4096) _)
  exact ⟨k.threads, k.teams, k.regs, k.grids, k.faults, k.others, fun hc => writeChanged_wf _ _ _ (k.canon hc)⟩
theorem settleImages_imaged (s : State) : Imaged s (settleImages s) ∧ (s.Canonical → ∀ a, ¬ s.inImage a → (settleImages s).mem.bytes.read a = s.mem.bytes.read a) := by
  unfold settleImages
  suffices ∀ (l : List Thread) (c : State), Imaged c (l.foldl (fun s t => if t.image.isEmpty || threadRecord s t == t.image then s else writeRecord s t (threadRecord s t)) c) ∧
      (c.Canonical → ∀ a, (∀ t ∈ l, ¬ (t.image ≠ [] ∧ t.imageAt ≤ a ∧ a < t.imageAt + t.image.length)) →
        (l.foldl (fun s t => if t.image.isEmpty || threadRecord s t == t.image then s else writeRecord s t (threadRecord s t)) c).mem.bytes.read a = c.mem.bytes.read a) from
    ⟨(this s.threads s).1, fun hc a ha => (this s.threads s).2 hc a (fun t ht hi => ha ⟨t, ht, hi⟩)⟩
  intro l
  induction l with
  | nil => exact fun c => ⟨.refl c, fun _ _ _ => rfl⟩
  | cons t l ih =>
    intro c
    simp only [List.foldl_cons]
    split
    · exact ⟨(ih c).1, fun hc a ha => (ih c).2 hc a (fun x hx => ha x (List.mem_cons_of_mem _ hx))⟩
    · rename_i h
      have hs := writeRecord_imaged c t (threadRecord c t)
      refine ⟨hs.trans (ih _).1, fun hc a ha => ?_⟩
      refine ((ih _).2 (hs.canon hc) a (fun x hx => ha x (List.mem_cons_of_mem _ hx))).trans (writeChanged_read_out hc _ _ _ _ ?_)
      have := ha t List.mem_cons_self
      have h1 : t.image ≠ [] := fun e => h (by simp [e])
      by_contra hn
      refine this ⟨h1, ?_, ?_⟩ <;> omega

/-- What settling leaves alone. -/
structure Settled (s s' : State) : Prop where
  threads : ∀ u, Thread.Kept (s.thr u) (s'.thr u)
  teams : ∀ k, Team.SameBut [] (s.tm k) (s'.tm k)
  rest : State.SameRest s s'
  canon : s.Canonical → s'.Canonical
theorem Drift.settled {a b : State} (h : Drift a b) : Settled a b :=
  ⟨fun u => ⟨(h.threads u).same, (h.threads u).npc, (h.threads u).pc⟩, h.teams, h.rest, h.canon⟩
theorem Drift.thenSettled {a b c : State} (h : Drift a b) (k : Settled b c) : Settled a c :=
  ⟨fun u => (h.settled.threads u).trans (k.threads u), fun u => (h.teams u).trans (k.teams u), h.rest.trans k.rest (inImage_iff h.imgs) h.canon, fun ca => k.canon (h.canon ca)⟩
/-- SETTLING (the laws of what the machine does by itself after an instruction or event). -/
theorem settle_settled (s : State) : Settled s (settle s) := by
  have h := (((settleBarriers_drift s).trans (settleThreads_drift _)).trans (settleClaims_drift _)).trans ((settleDeadlock_drift _).trans (settleWatch_drift _))
  refine h.thenSettled ?_
  obtain ⟨k, kb⟩ := settleImages_imaged (settleWatch (settleDeadlock (settleClaims (settleThreads (settleBarriers s)))))
  refine ⟨k.threads, fun u => by unfold State.tm; rw [show (settle s).teams = _ from k.teams]; exact .refl _ _, ⟨kb, ?_, ?_, ?_, k.others⟩, k.canon⟩
  · intro fn priv off _; unfold State.reg; rw [show (settle s).regs = _ from k.regs]
  · rw [show (settle s).grids = _ from k.grids]
  · rw [show (settle s).faults = _ from k.faults]

end Sys2Proof.Machine
end

