-- ==== Sys2Proof/Laws/Issue.lean ====
section
/-! SUPPORT. What issuing an instruction does: a ready wave runs the body once on its active threads, in lane order, and moves on (R148); what a per-thread body does. -/
namespace Sys2Proof.Machine

/-! ### Sorting -/

theorem insertFront_perm {α : Type} (key : α → Nat) (x : α) (l : List α) : (sortBy.insertFront key x l).Perm (x :: l) := by
  induction l with
  | nil => exact .refl _
  | cons y l ih =>
    unfold sortBy.insertFront
    split
    · exact .refl _
    · exact (ih.cons y).trans (.swap x y l)
/-- Sorting keeps the elements. -/
theorem sortBy_perm {α : Type} (key : α → Nat) (l : List α) : (sortBy key l).Perm l := by
  unfold sortBy
  induction l with
  | nil => exact .refl _
  | cons x l ih => exact (insertFront_perm key x _).trans (ih.cons x)
theorem byLane_perm (s : State) (us : List Nat) : (s.byLane us).Perm us := sortBy_perm _ us
@[simp] theorem mem_byLane (s : State) (us : List Nat) (u : Nat) : u ∈ s.byLane us ↔ u ∈ us := (byLane_perm s us).mem_iff

/-! ### The wave moves on -/

/-- A thread after advance that was ISSUING in the wave stands at its next PC; the others are as before but for their span. -/
theorem advance_thr (ends : Bool) (s : State) {w : Wave} (hw : s.waves.head? = some w) (u : Nat) (hm : u ∈ w.members) (hi : (s.thr u).phase = .issuing) :
    ((advance ends s).thr u).pc = (s.thr u).npc ∧ ((advance ends s).thr u).npc = (s.thr u).npc := by
  have hex : (s.threads.find? (fun t => t.uid == u)).isSome := by
    by_contra h
    simp only [Option.not_isSome_iff_eq_none] at h
    simp [State.thr, h, Thread.blank] at hi
  have huid : (s.thr u).uid = u := by
    obtain ⟨t, ht⟩ := Option.isSome_iff_exists.1 hex
    have := List.find?_some ht
    simpa [State.thr, ht] using this
  unfold advance
  match hws : s.waves, hw with
  | w' :: ws, hw =>
    simp only [List.head?_cons, Option.some.injEq] at hw
    subst hw
    dsimp only
    generalize hs1 : ({ s with
        threads := s.threads.map (fun (t : Thread) => if w'.members.contains t.uid && t.phase == .issuing then { t with pc := t.npc, passBp := false } else t)
        waves := { w' with members := w'.members.filter (fun u => (s.thr u).phase == .issuing), count := w'.count + 1 } :: ws } : State) = s1
    have h1 : (s1.thr u).pc = (s.thr u).npc ∧ (s1.thr u).npc = (s.thr u).npc := by
      have := thr_map (s := s) (s' := s1) (f := fun (t : Thread) => if w'.members.contains t.uid && t.phase == .issuing then { t with pc := t.npc, passBp := false } else t)
        (by rw [← hs1]) (by intro t; split <;> rfl) u
      rw [this, if_pos hex]
      simp [huid, hm, hi]
    split
    · have := (endSpan_drift s1).threads u
      refine ⟨?_, this.npc.trans h1.2⟩
      rcases this.pc with e | e
      · exact e.trans h1.1
      · exact e.trans h1.2
    · exact h1

/-! ### Issuing -/

/-- The thread with another next PC. -/
def Thread.goesTo (t : Thread) (n : Dword) : Thread := { t with npc := n }
/-- The state in which the body of an instruction runs: the instruction is counted and the wave's threads have their next PC. -/
def begun (bytes : Nat) (w : Wave) (s : State) : State :=
  let s := s.count (s.ctxOf (w.members.headD 0)).1 1 w.members.length
  { s with
    issue := s.issue + 1
    threads := s.threads.map (fun (t : Thread) => if w.members.contains t.uid then { t with npc := t.pc + BitVec.ofNat 64 bytes } else t) }
/-- Counting an event changes device registers only. -/
theorem count_only (s : State) (fn code k : Nat) : s.count fn code k = { s with regs := (s.count fn code k).regs } := by
  unfold State.count
  split
  · rfl
  · generalize List.range 8 = l
    suffices ∀ c : State, { c with regs := s.regs } = { s with regs := s.regs } →
        { (l.foldl (fun s n => if (s.reg fn false (0x900 + 8 * n)).toNat % 256 == code then s.setReg fn false (0x980 + 8 * n) (s.reg fn false (0x980 + 8 * n) + BitVec.ofNat 64 k) else s) c) with regs := s.regs } = { s with regs := s.regs } by
      have h := this s rfl
      generalize (l.foldl (fun s n => if (s.reg fn false (0x900 + 8 * n)).toNat % 256 == code then s.setReg fn false (0x980 + 8 * n) (s.reg fn false (0x980 + 8 * n) + BitVec.ofNat 64 k) else s) s) = r at h
      have e : r = { ({ r with regs := s.regs } : State) with regs := r.regs } := rfl
      rw [h] at e; exact e
    induction l with
    | nil => exact fun c h => h
    | cons n l ih =>
      intro c h
      rw [List.foldl_cons]
      exact ih _ (by split <;> exact h)
theorem count_threads (s : State) (fn code k : Nat) : (s.count fn code k).threads = s.threads ∧ (s.count fn code k).teams = s.teams ∧ (s.count fn code k).waves = s.waves ∧ (s.count fn code k).grids = s.grids := by
  rw [count_only]; exact ⟨rfl, rfl, rfl, rfl⟩
theorem begun_threads (bytes : Nat) (w : Wave) (s : State) :
    (begun bytes w s).threads = s.threads.map (fun (t : Thread) => if w.members.contains t.uid then { t with npc := t.pc + BitVec.ofNat 64 bytes } else t) := by
  simp only [begun, (count_threads s _ _ _).1]
theorem begun_waves (bytes : Nat) (w : Wave) (s : State) : (begun bytes w s).waves = s.waves := (count_threads s _ _ _).2.2.1
theorem begun_grids (bytes : Nat) (w : Wave) (s : State) : (begun bytes w s).grids = s.grids := (count_threads s _ _ _).2.2.2
theorem begun_teams (bytes : Nat) (w : Wave) (s : State) : (begun bytes w s).teams = s.teams := (count_threads s _ _ _).2.1
theorem begun_thr (bytes : Nat) (w : Wave) (s : State) (u : Nat) (hm : u ∈ w.members) (he : ∃ t ∈ s.threads, t.uid = u) :
    (begun bytes w s).thr u = (s.thr u).goesTo ((s.thr u).pc + BitVec.ofNat 64 bytes) := by
  rw [thr_map_some (begun_threads bytes w s) (by intro t; split <;> rfl) he]
  have : (s.thr u).uid = u := by
    obtain ⟨t, ht, hu⟩ := he
    have hs : (s.threads.find? (fun t => t.uid == u)).isSome := by rw [List.find?_isSome]; exact ⟨t, ht, by simp [hu]⟩
    obtain ⟨x, hx⟩ := Option.isSome_iff_exists.1 hs
    have := List.find?_some hx
    simpa [State.thr, hx] using this
  simp [this, hm, Thread.goesTo]
theorem begun_thr_out (bytes : Nat) (w : Wave) (s : State) (u : Nat) (hm : u ∉ w.members) : (begun bytes w s).thr u = s.thr u := by
  rw [thr_map (begun_threads bytes w s) (by intro t; split <;> rfl) u]
  split
  · rename_i h
    obtain ⟨x, hx⟩ := Option.isSome_iff_exists.1 h
    have hu : (s.thr u).uid = u := by have := List.find?_some hx; simpa [State.thr, hx] using this
    simp [hu, hm]
  · rename_i h
    have : s.threads.find? (fun t => t.uid == u) = none := by simpa using h
    simp [State.thr, this]
theorem begun_tm (bytes : Nat) (w : Wave) (s : State) (k : Nat) : (begun bytes w s).tm k = s.tm k := by
  unfold State.tm; rw [begun_teams]
theorem begun_rest (bytes : Nat) (w : Wave) (s : State) : State.SameRest s (begun bytes w s) := by
  have h := (count_drift s (s.ctxOf (w.members.headD 0)).1 1 w.members.length).rest
  exact ⟨h.bytes, h.regs, h.grids, h.faults, h.others⟩
theorem begun_imgs (bytes : Nat) (w : Wave) (s : State) :
    (begun bytes w s).threads.map (fun t => (t.uid, t.imageAt, t.image)) = s.threads.map (fun t => (t.uid, t.imageAt, t.image)) := by
  rw [begun_threads, List.map_map]; congr 1; funext t; simp only [Function.comp]; split <;> rfl
theorem begun_canon (bytes : Nat) (w : Wave) (s : State) : s.Canonical → (begun bytes w s).Canonical :=
  (count_drift s _ _ _).canon
/-- A thread of the begun instruction: only its next PC is new. -/
theorem begun_thr_eq (bytes : Nat) (w : Wave) (s : State) (h : s.Issues w) (u : Nat) :
    ∃ n, (begun bytes w s).thr u = (s.thr u).goesTo n := by
  by_cases hm : u ∈ w.members
  · exact ⟨_, begun_thr bytes w s u hm (h.issuing u hm).1⟩
  · exact ⟨(s.thr u).npc, begun_thr_out bytes w s u hm⟩

/-- The names of a use. -/
def Use.names (u : Use) : Names := { rv := u.rv, wv := u.wv, rs := u.rs, ws := u.ws, rp := u.rp, wp := u.wp, rh := u.rh, cls := u.cls }
theorem free_not_blocked {s : State} {u : Use} {th : Nat} (h : s.Free u.g u.names th) (hv : ∀ r ∈ u.hv s th, r ∉ (s.thr th).pendV) : blocked u s th = false := by
  unfold blocked
  dsimp only
  have hg : (u.g.pred != 0 && (s.thr th).pendP.contains u.g.pred.toNat) = false := by
    by_cases hp : u.g.pred = 0
    · simp [hp]
    · simpa using fun _ => h.guard hp
  rw [hg, Bool.false_or]
  by_cases ht : (s.thr th).guard u.g = true
  · have h1 : (u.rv ++ u.wv).any (s.thr th).pendV.contains = false := by
      rw [List.any_eq_false]; intro x hx; simpa using h.pendV ht x hx
    have h6 : (u.hv s th).any (s.thr th).pendV.contains = false := by
      rw [List.any_eq_false]; intro x hx; simpa using hv x hx
    have h2 : (u.rp ++ u.wp).any (s.thr th).pendP.contains = false := by
      rw [List.any_eq_false]; intro x hx; simpa using h.pendP ht x hx
    have h3 : (u.rs ++ u.ws).any (s.tm (s.thr th).team).pendS.contains = false := by
      rw [List.any_eq_false]; intro x hx; simpa [State.teamOf] using h.pendS ht x hx
    have h4 : u.rh.any (s.tm (s.thr th).team).pendH.contains = false := by
      rw [List.any_eq_false]; intro x hx; simpa [State.teamOf] using h.pendH ht x hx
    have h5 : (u.cls != .none && decide (63 ≤ (s.thr th).counter u.cls)) = false := by
      by_cases hc : u.cls = .none
      · simp [hc]
      · have := h.counter ht hc; simp only [Use.names] at this; simp [hc]; omega
    rw [h1, h2, h3, h4, h5, h6]; simp
  · simp only [ht, Bool.false_and]
theorem free_checkRegs {s : State} {u : Use} {th : Nat} (h : s.Free u.g u.names th) (ht : (s.thr th).guard u.g = true) : checkRegs u s th = none := by
  unfold checkRegs
  dsimp only
  have h1 : (u.rv ++ u.wv).any (fun r => decide ((s.thr th).owned ≤ r)) = false := by
    rw [List.any_eq_false]; intro x hx; have := h.owned ht x hx; simp; omega
  have h2 : u.rv.any (s.thr th).poison.contains = false := by
    rw [List.any_eq_false]; intro x hx; simpa using h.poison ht x hx
  have h3 : u.rs.any (s.tm (s.thr th).team).sPoison.contains = false := by
    rw [List.any_eq_false]; intro x hx; simpa [State.teamOf] using h.sPoison ht x hx
  simp [h1, h2, h3]

/-- The active threads of a wave, in the order the body sees them. -/
def State.acting (s : State) (w : Wave) (g : Guard) : List Nat := s.byLane (w.members.filter (fun m => (s.thr m).guard g))
theorem foldl_fixed {α β : Type} (l : List α) (f : β → α → β) (b : β) (h : ∀ x ∈ l, f b x = b) : l.foldl f b = b := by
  induction l with
  | nil => rfl
  | cons x l ih =>
    rw [List.foldl_cons, h x List.mem_cons_self]
    exact ih (fun y hy => h y (List.mem_cons_of_mem _ hy))

/-- A READY WAVE ISSUES: no stall, no operand fault; the body runs once, for the active threads (with all: for every thread of the wave). -/
theorem issueFor_clear {s : State} {w : Wave} {u : Use} (h : s.Ready w u.g u.names)
    (hv : ∀ m ∈ w.members, ∀ r ∈ u.hv s m, r ∉ (s.thr m).pendV) (all ends : Bool) (body : List Nat → State → State) :
    ∃ pc, issueFor all u ends body s =
      done (stopMarked w.members pc (advance (ends || u.e) (body (if all then (begun u.bytes w s).byLane w.members else (begun u.bytes w s).acting w u.g) (begun u.bytes w s)))) := by
  have hw : s.wave? = some w := h.wave.first
  have hnb : w.members.any (blocked u s) = false := by
    rw [List.any_eq_false]; intro m hm; simp [free_not_blocked (h.free m hm) (hv m hm)]
  have hth : ∀ m ∈ w.members, (begun u.bytes w s).thr m = (s.thr m).goesTo ((s.thr m).pc + BitVec.ofNat 64 u.bytes) :=
    fun m hm => begun_thr _ _ _ m hm (h.wave.issuing m hm).1
  have hcheck : ∀ m ∈ (begun u.bytes w s).acting w u.g, operandFault u (begun u.bytes w s) m = begun u.bytes w s := by
    intro m hm
    simp only [State.acting, mem_byLane, List.mem_filter] at hm
    obtain ⟨hm, hg⟩ := hm
    have hg' : (s.thr m).guard u.g = true := by rw [hth m hm] at hg; exact hg
    have : checkRegs u (begun u.bytes w s) m = checkRegs u s m := by
      unfold checkRegs; simp only [hth m hm, begun_tm]; rfl
    unfold operandFault
    rw [this, free_checkRegs (h.free m hm) hg']
  have hall : ∀ us : List Nat, (∀ m ∈ us, m ∈ w.members) → us.filter (fun m => ((begun u.bytes w s).thr m).phase == .issuing) = us := by
    intro us hus
    rw [List.filter_eq_self]; intro m hm
    rw [hth m (hus m hm)]; simp [Thread.goesTo, (h.wave.issuing m (hus m hm)).2]
  refine ⟨((begun u.bytes w s).thr (w.members.headD 0)).pc, ?_⟩
  unfold issueFor
  rw [hw]
  dsimp only
  rw [hnb]
  simp only [Bool.false_eq_true, if_false]
  have hb : ({ (s.count (s.ctxOf (w.members.headD 0)).1 1 w.members.length) with
      issue := (s.count (s.ctxOf (w.members.headD 0)).1 1 w.members.length).issue + 1
      threads := (s.count (s.ctxOf (w.members.headD 0)).1 1 w.members.length).threads.map (fun (t : Thread) => if w.members.contains t.uid then { t with npc := t.pc + BitVec.ofNat 64 u.bytes } else t) } : State) = begun u.bytes w s := rfl
  rw [hb]
  have hfold := foldl_fixed ((begun u.bytes w s).acting w u.g) (operandFault u) (begun u.bytes w s) hcheck
  simp only [State.acting] at hfold
  rw [hfold]
  congr 4
  cases all
  · simp only [Bool.false_eq_true, if_false]
    exact hall _ (fun m hm => by simp only [mem_byLane, List.mem_filter] at hm; exact hm.1)
  · simp only [if_true]
    exact hall _ (fun m hm => by simpa using hm)
theorem issueFor_ready {s : State} {w : Wave} {u : Use} (h : s.Ready w u.g u.names) (hv : u.hv = fun _ _ => []) (all ends : Bool) (body : List Nat → State → State) :
    ∃ pc, issueFor all u ends body s =
      done (stopMarked w.members pc (advance (ends || u.e) (body (if all then (begun u.bytes w s).byLane w.members else (begun u.bytes w s).acting w u.g) (begun u.bytes w s)))) :=
  issueFor_clear h (fun m _ r hr => by rw [hv] at hr; exact absurd hr (by simp)) all ends body

/-! ### Per-thread bodies -/

theorem thr_uid {s : State} {u : Nat} (h : ∃ t ∈ s.threads, t.uid = u) : (s.thr u).uid = u := by
  obtain ⟨t, ht, hu⟩ := h
  have hs : (s.threads.find? (fun t => t.uid == u)).isSome := by rw [List.find?_isSome]; exact ⟨t, ht, by simp [hu]⟩
  obtain ⟨x, hx⟩ := Option.isSome_iff_exists.1 hs
  have := List.find?_some hx
  simpa [State.thr, hx] using this
/-- Threads looked up after a change of one of them. -/
theorem modThr_thr {s : State} {u : Nat} (h : ∃ t ∈ s.threads, t.uid = u) {f : Thread → Thread} (hf : ∀ t, (f t).uid = t.uid) (v : Nat) :
    (s.modThr u f).thr v = if v = u then f (s.thr u) else s.thr v := by
  rw [thr_map (s' := s.modThr u f) (f := fun t => if t.uid = u then f t else t) rfl (by intro t; split <;> simp [hf]) v]
  by_cases hvu : v = u
  · subst hvu
    have hs : (s.threads.find? (fun t => t.uid == v)).isSome := by
      obtain ⟨t, ht, hu⟩ := h; rw [List.find?_isSome]; exact ⟨t, ht, by simp [hu]⟩
    rw [if_pos hs, if_pos (thr_uid h), if_pos rfl]
  · rw [if_neg hvu]
    split
    · rename_i hs
      obtain ⟨x, hx⟩ := Option.isSome_iff_exists.1 hs
      have : (s.thr v).uid = v := by have := List.find?_some hx; simpa [State.thr, hx] using this
      rw [if_neg (by rw [this]; exact hvu)]
    · rename_i hs
      have : s.threads.find? (fun t => t.uid == v) = none := by simpa using hs
      simp [State.thr, this]
theorem modThr_exists {s : State} {u : Nat} {f : Thread → Thread} (hf : ∀ t, (f t).uid = t.uid) {v : Nat} (h : ∃ t ∈ s.threads, t.uid = v) :
    ∃ t ∈ (s.modThr u f).threads, t.uid = v := by
  obtain ⟨t, ht, hv⟩ := h
  refine ⟨_, List.mem_map_of_mem ht, ?_⟩
  split <;> simp [hf, hv]
/-- A state that differs in its threads only, in data that no other part of the frame names. -/
structure OnlyThreads (s t : State) : Prop where
  eq : t = { s with threads := t.threads }
  imgs : t.threads.map (fun t => (t.uid, t.imageAt, t.image)) = s.threads.map (fun t => (t.uid, t.imageAt, t.image))
theorem OnlyThreads.refl (s : State) : OnlyThreads s s := ⟨rfl, rfl⟩
theorem OnlyThreads.trans {a b c : State} (h : OnlyThreads a b) (k : OnlyThreads b c) : OnlyThreads a c :=
  ⟨by rw [k.eq, h.eq], k.imgs.trans h.imgs⟩
theorem OnlyThreads.modThr (s : State) (u : Nat) (f : Thread → Thread) (hf : ∀ t, (f t).uid = t.uid ∧ (f t).imageAt = t.imageAt ∧ (f t).image = t.image) :
    OnlyThreads s (s.modThr u f) := by
  refine ⟨rfl, ?_⟩
  simp only [State.modThr, List.map_map]
  congr 1; funext t; simp only [Function.comp]; split
  · rw [(hf t).1, (hf t).2.1, (hf t).2.2]
  · rfl
theorem OnlyThreads.tm {s t : State} (h : OnlyThreads s t) (k : Nat) : t.tm k = s.tm k := by rw [h.eq]; rfl
theorem OnlyThreads.waves {s t : State} (h : OnlyThreads s t) : t.waves = s.waves := by rw [h.eq]
theorem OnlyThreads.grids {s t : State} (h : OnlyThreads s t) : t.grids = s.grids := by rw [h.eq]
theorem OnlyThreads.rest {s t : State} (h : OnlyThreads s t) : State.SameRest s t := by
  refine ⟨fun _ _ _ => ?_, fun _ _ _ _ => ?_, ?_, ?_, ?_⟩
  · rw [h.eq]
  · rw [h.eq]; rfl
  · rw [h.eq]
  · rw [h.eq]
  · rw [h.eq]; rfl
theorem OnlyThreads.canon {s t : State} (h : OnlyThreads s t) (hc : s.Canonical) : t.Canonical := by rw [h.eq]; exact hc

/-- A per-thread fold: each listed thread is changed once, by a function of the state before. -/
theorem fold_thr (F : State → Nat → Thread → Thread) (hF : ∀ s u t, (F s u t).uid = t.uid ∧ (F s u t).imageAt = t.imageAt ∧ (F s u t).image = t.image)
    (hI : ∀ s s' u, OnlyThreads s s' → s'.thr u = s.thr u → F s' u = F s u) (us : List Nat) (hd : us.Nodup) (s : State) (he : ∀ u ∈ us, ∃ t ∈ s.threads, t.uid = u) :
    OnlyThreads s (us.foldl (fun s u => s.modThr u (F s u)) s) ∧
      ∀ v, (us.foldl (fun s u => s.modThr u (F s u)) s).thr v = if v ∈ us then F s v (s.thr v) else s.thr v := by
  induction us generalizing s with
  | nil => exact ⟨.refl s, fun v => by simp⟩
  | cons u us ih =>
    obtain ⟨hu, hd⟩ := List.nodup_cons.1 hd
    have h1 : OnlyThreads s (s.modThr u (F s u)) := .modThr s u _ (hF s u)
    have hm := modThr_thr (he u List.mem_cons_self) (f := F s u) (fun t => (hF s u t).1)
    obtain ⟨k1, k2⟩ := ih hd (s.modThr u (F s u)) (fun v hv => modThr_exists (fun t => (hF s u t).1) (he v (List.mem_cons_of_mem _ hv)))
    rw [List.foldl_cons]
    refine ⟨h1.trans k1, fun v => ?_⟩
    rw [k2, hm]
    by_cases hv : v = u
    · subst hv; simp [hu]
    · have e : (s.modThr u (F s u)).thr v = s.thr v := by rw [hm, if_neg hv]
      simp only [List.mem_cons, hv, false_or, if_false]
      rw [hI s _ v h1 e]

/-- AN INSTRUCTION WITH A PER-THREAD BODY, on a ready wave: it answers a next state, in which each active thread is what the body makes of it and stands past the instruction, and nothing else of the data has changed. The body may look at the state in which it starts. -/
theorem issue_fold {s : State} {w : Wave} {u : Use} (h : s.Ready w u.g u.names) (hv : u.hv = fun _ _ => []) (ends : Bool) (F : State → Nat → Thread → Thread)
    (hf : ∀ s m t, (F s m t).uid = t.uid ∧ (F s m t).imageAt = t.imageAt ∧ (F s m t).image = t.image ∧ (F s m t).phase = t.phase ∧ (F s m t).npc = t.npc)
    (hI : ∀ s s' u, OnlyThreads s s' → s'.thr u = s.thr u → F s' u = F s u) {P : Team → Thread → Thread → Prop}
    (hP : ∀ m ∈ w.members, (s.thr m).guard u.g = true → ∀ n b, (begun u.bytes w s).thr m = (s.thr m).goesTo n → Thread.SameBut [] [] (F (begun u.bytes w s) m ((s.thr m).goesTo n)) b → P (s.teamOf m) (s.thr m) b) :
    ∃ t, issue u ends (fun us s => us.foldl (fun s m => s.modThr m (F s m)) s) s = .next t ∧ Acts s t w u.g u.bytes P := by
  obtain ⟨pc, hi⟩ := issueFor_ready h hv false ends (fun us s => us.foldl (fun s m => s.modThr m (F s m)) s)
  refine ⟨_, hi, ?_⟩
  simp only [Bool.false_eq_true, if_false]
  generalize hs1 : begun u.bytes w s = s1
  have hex : ∀ m, (∃ t ∈ s.threads, t.uid = m) → ∃ t ∈ s1.threads, t.uid = m := by
    rintro m ⟨t, ht, hm⟩
    rw [← hs1, begun_threads]
    exact ⟨_, List.mem_map_of_mem ht, by split <;> simp [hm]⟩
  have hth : ∀ m ∈ w.members, s1.thr m = (s.thr m).goesTo ((s.thr m).pc + BitVec.ofNat 64 u.bytes) :=
    fun m hm => by rw [← hs1]; exact begun_thr _ _ _ m hm (h.wave.issuing m hm).1
  have htm : ∀ k, s1.tm k = s.tm k := fun k => by rw [← hs1]; exact begun_tm _ _ _ k
  have hact : ∀ m, m ∈ s1.acting w u.g ↔ s.Active w u.g m := by
    intro m; simp only [State.acting, mem_byLane, List.mem_filter, State.Active]
    constructor
    · rintro ⟨hm, hg⟩; rw [hth m hm] at hg; exact ⟨hm, hg⟩
    · rintro ⟨hm, hg⟩; refine ⟨hm, ?_⟩; rw [hth m hm]; exact hg
  have hnd : (s1.acting w u.g).Nodup := (byLane_perm _ _).nodup_iff.2 (h.wave.distinct.filter _)
  obtain ⟨ho, hb⟩ := fold_thr F (fun s u t => ⟨(hf s u t).1, (hf s u t).2.1, (hf s u t).2.2.1⟩) hI (s1.acting w u.g) hnd s1 (fun m hm => hex m (h.wave.issuing m ((hact m).1 hm).1).1)
  generalize hs2 : (s1.acting w u.g).foldl (fun s m => s.modThr m (F s m)) s1 = s2 at ho hb
  -- what goes on by itself from here
  have hd : Drift s2 (stopMarked w.members pc (advance (ends || u.e) s2)) := (advance_drift _ _).trans (stopMarked_drift _ _ _)
  have hset := hd.thenSettled (settle_settled _)
  have hset2 := (stopMarked_drift w.members pc (advance (ends || u.e) s2)).thenSettled (settle_settled _)
  generalize hs3 : settle (stopMarked w.members pc (advance (ends || u.e) s2)) = s3 at hset hset2
  have hmem : ∀ m ∈ w.members, (s2.thr m).npc = (s.thr m).pc + BitVec.ofNat 64 u.bytes ∧ (s2.thr m).phase = .issuing := by
    intro m hm
    rw [hb m]
    split
    · rw [(hf _ _ _).2.2.2.1, (hf _ _ _).2.2.2.2, hth m hm]; exact ⟨rfl, (h.wave.issuing m hm).2⟩
    · rw [hth m hm]; exact ⟨rfl, (h.wave.issuing m hm).2⟩
  refine ⟨?_, ?_, ?_, ?_, ?_⟩
  · intro m hm
    have e := hb m
    rw [if_pos ((hact m).2 hm), hth m hm.1] at e
    exact hP m hm.1 hm.2 _ _ (by rw [hs1]; exact hth m hm.1) (by rw [hs1]; exact e ▸ (hset.threads m).same)
  · intro m hm
    have e := hb m
    rw [if_neg (fun hc => hm ((hact m).1 hc))] at e
    obtain ⟨n, e1⟩ := begun_thr_eq u.bytes w s h.wave m
    rw [hs1] at e1
    refine Thread.SameBut.trans ?_ (hset.threads m).same
    rw [e, e1]
    exact .of_fields rfl rfl rfl rfl rfl rfl rfl rfl rfl rfl rfl rfl rfl rfl rfl rfl rfl
  · intro m hm
    obtain ⟨hn, hp⟩ := hmem m hm
    have hw : s2.waves.head? = some w := by rw [ho.waves, ← hs1, begun_waves]; exact h.wave.first
    obtain ⟨h1, h2⟩ := advance_thr (ends || u.e) s2 hw m hm hp
    rcases (hset2.threads m).pc with e | e
    · rw [e, h1, hn]
    · rw [e, h2, hn]
  · intro k
    have := hset.teams k
    rw [ho.tm, htm] at this
    exact this
  · have h1 : State.SameRest s s2 := by
      have := (begun_rest u.bytes w s).trans (c := s2) (by rw [hs1]; exact ho.rest) (inImage_iff (begun_imgs _ _ _)) (begun_canon _ _ _)
      exact this
    exact h1.trans hset.rest (inImage_iff (ho.imgs.trans (by rw [← hs1]; exact begun_imgs _ _ _)))
      (fun hc => ho.canon (by rw [← hs1]; exact begun_canon _ _ _ hc))
theorem issue_eachTeam {s : State} {w : Wave} {u : Use} (h : s.Ready w u.g u.names) (hv : u.hv = fun _ _ => []) (ends : Bool) (f : Team → Thread → Thread)
    (hf : ∀ tm t, (f tm t).uid = t.uid ∧ (f tm t).imageAt = t.imageAt ∧ (f tm t).image = t.image ∧ (f tm t).phase = t.phase ∧ (f tm t).npc = t.npc)
    {P : Team → Thread → Thread → Prop}
    (hP : ∀ m ∈ w.members, (s.thr m).guard u.g = true → ∀ n b, Thread.SameBut [] [] (f (s.teamOf m) ((s.thr m).goesTo n)) b → P (s.teamOf m) (s.thr m) b) :
    ∃ t, issue u ends (eachTeam f) s = .next t ∧ Acts s t w u.g u.bytes P := by
  refine issue_fold h hv ends (fun s m => f (s.teamOf m)) (fun _ _ _ => hf _ _) (fun a b m hab e => by simp only [State.teamOf, e, hab.tm]) (fun m hm hg n b hn hb => ?_)
  have : (begun u.bytes w s).teamOf m = s.teamOf m := by unfold State.teamOf; rw [begun_tm, hn]; rfl
  rw [this] at hb
  exact hP m hm hg n b hb
theorem issue_each {s : State} {w : Wave} {u : Use} (h : s.Ready w u.g u.names) (hv : u.hv = fun _ _ => []) (ends : Bool) (f : Thread → Thread)
    (hf : ∀ t, (f t).uid = t.uid ∧ (f t).imageAt = t.imageAt ∧ (f t).image = t.image ∧ (f t).phase = t.phase ∧ (f t).npc = t.npc)
    {P : Team → Thread → Thread → Prop}
    (hP : ∀ m ∈ w.members, (s.thr m).guard u.g = true → ∀ n b, Thread.SameBut [] [] (f ((s.thr m).goesTo n)) b → P (s.teamOf m) (s.thr m) b) :
    ∃ t, issue u ends (each f) s = .next t ∧ Acts s t w u.g u.bytes P :=
  issue_eachTeam h hv ends (fun _ t => f t) (fun _ t => hf t) hP

/-! ### Writes of a thread's registers -/

theorem wv_rv (t : Thread) (n : Nat) (x : Word) (h : n < t.owned) (k : Nat) : (t.wv n x).rv k = if k = n then x else t.rv k := by
  simp only [Thread.rv, Thread.wv, nth, List.getD_eq_getElem?_getD, List.getElem?_set]
  split
  · rename_i e; subst e; rw [if_pos (show n < t.v.length from h), if_pos rfl]; rfl
  · rename_i e; rw [if_neg (fun c => e c.symm)]
theorem wv_mark (t : Thread) (n : Nat) (x : Word) (k : Nat) : k ∈ (t.wv n x).poison ↔ k ∈ t.poison ∧ k ≠ n := by
  simp [Thread.wv]
theorem wv_owned (t : Thread) (n : Nat) (x : Word) : (t.wv n x).owned = t.owned := by simp [Thread.wv, Thread.owned]
theorem wv_same (t : Thread) (n : Nat) (x : Word) : Thread.SameBut [n] [] t (t.wv n x) := by
  refine ⟨rfl, rfl, rfl, rfl, fun k hk => ?_, fun k hk => ?_, fun _ _ => rfl, rfl, rfl, rfl, rfl, rfl, rfl, rfl, rfl, rfl, rfl⟩
  · simp only [Thread.rv, Thread.wv, nth, List.getD_eq_getElem?_getD, List.getElem?_set]
    rw [if_neg (fun c => hk (by simp [c]))]
  · rw [wv_mark]; exact ⟨fun h => h.1, fun h => ⟨h, fun c => hk (by simp [c])⟩⟩
theorem pairOf_words (x : Dword) : pairOf (lowWord x) (highWord x) = x := by
  apply BitVec.eq_of_getLsbD_eq
  intro i hi
  simp only [pairOf, lowWord, highWord, BitVec.getLsbD_append, BitVec.getLsbD_extractLsb, BitVec.getLsbD_setWidth]
  split
  · simp [*]
  · rename_i h
    have e : 32 + (i - 32) = i := by omega
    simp [e]; omega
theorem npc_same (t : Thread) (n : Dword) (vs ps : List Nat) : Thread.SameBut vs ps t (t.goesTo n) :=
  ⟨rfl, rfl, rfl, rfl, fun _ _ => rfl, fun _ _ => Iff.rfl, fun _ _ => rfl, rfl, rfl, rfl, rfl, rfl, rfl, rfl, rfl, rfl, rfl⟩
/-- A v register written in a thread that owns it. -/
theorem setsV_of {tm : Team} {t t1 b : Thread} {d : Nat} {x : Team → Thread → Word} {v : Word} (h1 : Thread.SameBut [] [] t t1) (hd : d < t1.owned)
    (hb : Thread.SameBut [] [] (t1.wv d v) b) (hx : v = x tm t) : SetsV d x tm t b := by
  subst hx
  refine ⟨?_, ?_, ?_⟩
  · rw [hb.rv d (by simp), wv_rv _ _ _ hd, if_pos rfl]
  · rw [hb.mark d (by simp), wv_mark]; simp
  · exact ((h1.weaken (by simp) (by simp)).trans (wv_same _ _ _)).trans (hb.weaken (by simp) (by simp))
theorem setsPair_of {tm : Team} {t t1 b : Thread} {d : Nat} {x : Team → Thread → Dword} {v : Dword} (h1 : Thread.SameBut [] [] t t1) (hd : d + 1 < t1.owned)
    (hb : Thread.SameBut [] [] (t1.wpair d v) b) (hx : v = x tm t) : SetsPair d x tm t b := by
  subst hx
  unfold Thread.wpair at hb
  have h2 : d + 1 < (t1.wv d (lowWord (x tm t))).owned := by rw [wv_owned]; exact hd
  refine ⟨?_, ?_, ?_, ?_⟩
  · rw [Thread.rpair, hb.rv d (by simp), hb.rv (d + 1) (by simp), wv_rv _ _ _ h2, wv_rv _ _ _ h2, if_neg (by omega), if_pos rfl, wv_rv _ _ _ (Nat.lt_of_succ_lt hd), if_pos rfl]
    exact pairOf_words _
  · rw [hb.mark d (by simp), wv_mark, wv_mark]; simp
  · rw [hb.mark (d + 1) (by simp), wv_mark]; simp
  · refine ((h1.weaken (by simp) (by simp)).trans ?_).trans (hb.weaken (by simp) (by simp))
    exact ((wv_same _ _ _).weaken (by simp) (by simp)).trans ((wv_same _ _ _).weaken (by simp) (by simp))
theorem wp_rp (t : Thread) (n : Nat) (hn : n < 8) (b : Bool) (k : Nat) : (t.wp n b).rp k = if k = n then n == 0 || b else t.rp k := by
  unfold Thread.wp
  split
  · rename_i h; subst h; split
    · rename_i h; subst h; simp [Thread.rp]
    · rfl
  · rename_i h0
    simp only [Thread.rp]
    by_cases hk : k = n
    · subst hk
      have h1 : (k == 0) = false := by simpa using h0
      cases b <;> simp [h1, hn]
    · rw [if_neg hk]
      cases b
      · simp only [Bool.false_eq_true, if_false]
        by_cases hk8 : k < 8
        · have : (BitVec.getLsbD (~~~(1#8 <<< n)) k) = true := by
            simp [hk8]; omega
          simp [this]
        · rw [BitVec.getLsbD_of_ge _ _ (by omega), BitVec.getLsbD_of_ge _ _ (by omega)]
      · simp only [if_true]
        have : (1#8 <<< n).getLsbD k = false := by
          simp; intro _ hle; omega
        simp [this]
theorem wp_same (t : Thread) (n : Nat) (hn : n < 8) (b : Bool) : Thread.SameBut [] [n] t (t.wp n b) := by
  have hr := wp_rp t n hn b
  unfold Thread.wp at hr ⊢
  split
  · exact .refl _ _ _
  · rename_i h0
    rw [if_neg h0] at hr
    exact ⟨rfl, rfl, rfl, rfl, fun _ _ => rfl, fun _ _ => Iff.rfl, fun k hk => by rw [hr k, if_neg (by simpa using hk)], rfl, rfl, rfl, rfl, rfl, rfl, rfl, rfl, rfl, rfl⟩
theorem setsP_of {tm : Team} {t t1 b : Thread} {p : Nat} {x : Team → Thread → Prop} {v : Bool} (hp : p < 8) (h1 : Thread.SameBut [] [] t t1)
    (hb : Thread.SameBut [] [] (t1.wp p v) b) (hx : v = true ↔ x tm t) : SetsP p x tm t b := by
  refine ⟨?_, ?_⟩
  · rw [hb.rp p (by simp), wp_rp _ _ hp, if_pos rfl, Bool.or_eq_true, beq_iff_eq, hx]
  · exact ((h1.weaken (by simp) (by simp)).trans (wp_same _ _ hp _)).trans (hb.weaken (by simp) (by simp))

/-- Names may be left out. -/
theorem State.Free.mono {s : State} {g : Guard} {a b : Names} {u : Nat} (h : s.Free g a u) (h1 : b.rv ⊆ a.rv) (h2 : b.wv ⊆ a.wv) (h3 : b.rs ⊆ a.rs) (h4 : b.ws ⊆ a.ws)
    (h5 : b.rp ⊆ a.rp) (h6 : b.wp ⊆ a.wp) (h7 : b.rh ⊆ a.rh) (h8 : b.cls = a.cls) : s.Free g b u := by
  have c1 : b.rv ++ b.wv ⊆ a.rv ++ a.wv := List.append_subset.2 ⟨List.Subset.trans h1 (List.subset_append_left _ _), List.Subset.trans h2 (List.subset_append_right _ _)⟩
  have c2 : b.rp ++ b.wp ⊆ a.rp ++ a.wp := List.append_subset.2 ⟨List.Subset.trans h5 (List.subset_append_left _ _), List.Subset.trans h6 (List.subset_append_right _ _)⟩
  have c3 : b.rs ++ b.ws ⊆ a.rs ++ a.ws := List.append_subset.2 ⟨List.Subset.trans h3 (List.subset_append_left _ _), List.Subset.trans h4 (List.subset_append_right _ _)⟩
  exact ⟨h.guard, fun k r hr => h.owned k r (c1 hr), fun k r hr => h.pendV k r (c1 hr), fun k r hr => h.pendP k r (c2 hr), fun k r hr => h.pendS k r (c3 hr),
    fun k r hr => h.pendH k r (h7 hr), fun k r hr => h.poison k r (h1 hr), fun k r hr => h.sPoison k r (h3 hr), fun k hc => by rw [h8] at hc ⊢; exact h.counter k hc⟩
theorem State.Ready.mono {s : State} {w : Wave} {g : Guard} {a b : Names} (h : s.Ready w g a) (h1 : b.rv ⊆ a.rv) (h2 : b.wv ⊆ a.wv) (h3 : b.rs ⊆ a.rs) (h4 : b.ws ⊆ a.ws)
    (h5 : b.rp ⊆ a.rp) (h6 : b.wp ⊆ a.wp) (h7 : b.rh ⊆ a.rh) (h8 : b.cls = a.cls) : s.Ready w g b :=
  ⟨h.wave, fun u hu => (h.free u hu).mono h1 h2 h3 h4 h5 h6 h7 h8⟩
theorem State.Ready.names {s : State} {w : Wave} {g : Guard} {a b : Names} (h : s.Ready w g a) (e : a = b) : s.Ready w g b := e ▸ h

/-! ### One v register, pair or predicate from the thread and its team -/

/-- A function of the thread that does not look at its next PC. -/
def NpcFree {α : Type} (x : Team → Thread → α) : Prop := ∀ tm t n, x tm (t.goesTo n) = x tm t
theorem issue_setsV {s : State} {w : Wave} {u : Use} (h : s.Ready w u.g u.names) (hv : u.hv = fun _ _ => []) (d : Nat) (hd : d ∈ u.wv) (x : Team → Thread → Word) (hx : NpcFree x) :
    ∃ t, issue u false (eachTeam (fun tm t => t.wv d (x tm t))) s = .next t ∧ Acts s t w u.g u.bytes (SetsV d x) :=
  issue_eachTeam h hv false (fun tm t => t.wv d (x tm t)) (fun _ _ => ⟨rfl, rfl, rfl, rfl, rfl⟩)
    (fun m hm hg n _ hb => setsV_of (npc_same _ n _ _) ((h.free m hm).owned hg d (List.mem_append_right _ hd)) hb (hx _ _ n))
theorem issue_setsPair {s : State} {w : Wave} {u : Use} (h : s.Ready w u.g u.names) (hv : u.hv = fun _ _ => []) (d : Nat) (hd : d + 1 ∈ u.wv) (x : Team → Thread → Dword) (hx : NpcFree x) :
    ∃ t, issue u false (eachTeam (fun tm t => t.wpair d (x tm t))) s = .next t ∧ Acts s t w u.g u.bytes (SetsPair d x) :=
  issue_eachTeam h hv false (fun tm t => t.wpair d (x tm t)) (fun _ _ => ⟨rfl, rfl, rfl, rfl, rfl⟩)
    (fun m hm hg n _ hb => setsPair_of (npc_same _ n _ _) ((h.free m hm).owned hg (d + 1) (List.mem_append_right _ hd)) hb (hx _ _ n))
theorem wp_fields (t : Thread) (p : Nat) (b : Bool) : (t.wp p b).uid = t.uid ∧ (t.wp p b).imageAt = t.imageAt ∧ (t.wp p b).image = t.image ∧ (t.wp p b).phase = t.phase ∧ (t.wp p b).npc = t.npc := by
  unfold Thread.wp; split <;> exact ⟨rfl, rfl, rfl, rfl, rfl⟩
theorem issue_setsP {s : State} {w : Wave} {u : Use} (h : s.Ready w u.g u.names) (hv : u.hv = fun _ _ => []) (p : Nat) (hp : p < 8) (x : Team → Thread → Bool) (hx : NpcFree x)
    (y : Team → Thread → Prop) (hy : ∀ tm t, x tm t = true ↔ y tm t) :
    ∃ t, issue u false (eachTeam (fun tm t => t.wp p (x tm t))) s = .next t ∧ Acts s t w u.g u.bytes (SetsP p y) :=
  issue_eachTeam h hv false (fun tm t => t.wp p (x tm t)) (fun _ _ => wp_fields _ _ _)
    (fun _ _ _ n _ hb => setsP_of hp (npc_same _ n _ _) hb (by rw [hx]; exact hy _ _))
/-- The effect may be said in another way. -/
theorem Acts.imp {s t : State} {w : Wave} {g : Guard} {bytes : Nat} {P Q : Team → Thread → Thread → Prop} (h : Acts s t w g bytes P)
    (k : ∀ u ∈ w.members, ∀ b, P (s.teamOf u) (s.thr u) b → Q (s.teamOf u) (s.thr u) b) : Acts s t w g bytes Q :=
  ⟨fun u hu => k u hu.1 _ (h.active u hu), h.idle, h.pc, h.teams, h.rest⟩

end Sys2Proof.Machine
end

