-- ==== Sys2Proof/Laws/Steady.lean ====
section
/-! SUPPORT. Threads that nothing wakes by itself: what an instruction leaves in them stays through the end of the step; what issuing does with a body that moves threads (R148, R323). -/
namespace Sys2Proof.Machine

/-! ### Settling keeps threads that do not wait for it -/

/-- The thread is in no wait that settling ends. -/
def Thread.Firm (t : Thread) : Prop :=
  t.waitsIn .barrier = false ∧ (t.phase = .counterWait → t.within t.wait.limits = false) ∧ t.phase ≠ .stalled ∧ t.phase ≠ .claimWait
/-- Nothing but the image and the barrier arrivals of a thread differs. -/
def Thread.Still (a b : Thread) : Prop := ∃ i r, b = { a with image := i, arrived := r }
theorem Thread.Still.refl (a : Thread) : Thread.Still a a := ⟨a.image, a.arrived, rfl⟩
theorem Thread.Still.trans {a b c : Thread} (h : Thread.Still a b) (k : Thread.Still b c) : Thread.Still a c := by
  obtain ⟨i, r, rfl⟩ := h; obtain ⟨j, q, rfl⟩ := k; exact ⟨j, q, rfl⟩
theorem Thread.Still.firm {a b : Thread} (h : Thread.Still a b) (hf : a.Firm) : b.Firm := by
  obtain ⟨i, r, rfl⟩ := h; exact hf
/-- The numbers of threads are distinct. -/
def State.Apart (s : State) : Prop := (s.threads.map Thread.uid).Nodup
/-- From s to s' the firm threads stay as they are. -/
structure Holds (s s' : State) : Prop where
  uids : s'.threads.map Thread.uid = s.threads.map Thread.uid
  firm : ∀ u, (s.thr u).Firm → Thread.Still (s.thr u) (s'.thr u)
theorem Holds.refl (s : State) : Holds s s := ⟨rfl, fun _ _ => .refl _⟩
theorem Holds.trans {a b c : State} (h : Holds a b) (k : Holds b c) : Holds a c :=
  ⟨k.uids.trans h.uids, fun u hf => (h.firm u hf).trans (k.firm u ((h.firm u hf).firm hf))⟩
theorem Holds.apart {a b : State} (h : Holds a b) (ha : a.Apart) : b.Apart := by unfold State.Apart; rw [h.uids]; exact ha
theorem Holds.foldl {α : Type} (l : List α) (f : State → α → State) (hf : ∀ s x, s.Apart → Holds s (f s x)) (s : State) (ha : s.Apart) : Holds s (l.foldl f s) := by
  induction l generalizing s with
  | nil => exact .refl s
  | cons x l ih => exact (hf s x ha).trans (ih _ ((hf s x ha).apart ha))
theorem Holds.ite {c : Prop} [Decidable c] {a b d : State} (h : c → Holds a b) (k : ¬ c → Holds a d) : Holds a (if c then b else d) := by
  split
  · exact h ‹_›
  · exact k ‹_›
/-- Every thread is changed by a function that keeps the firm ones. -/
theorem Holds.map {s s' : State} (f : Thread → Thread) (hs : s'.threads = s.threads.map f) (hu : ∀ t, (f t).uid = t.uid) (hf : ∀ t, t.Firm → Thread.Still t (f t)) :
    Holds s s' := by
  refine ⟨?_, ?_⟩
  · rw [hs, List.map_map]; exact List.map_congr_left (fun t _ => hu t)
  · intro u hfirm
    rw [thr_map hs hu u]
    split
    · exact hf _ hfirm
    · rename_i h
      have : s.threads.find? (fun t => t.uid == u) = none := by simpa using h
      rw [State.thr, this]; exact .refl _
theorem Holds.same {s s' : State} (h : s'.threads = s.threads) : Holds s s' :=
  ⟨by rw [h], fun u _ => by unfold State.thr; rw [h]; exact .refl _⟩
/-- A thread of the list is the thread of its number. -/
theorem Apart.thr {s : State} (h : s.Apart) {t : Thread} (ht : t ∈ s.threads) : s.thr t.uid = t := by
  unfold State.Apart at h
  unfold State.thr
  have hs : (s.threads.find? (fun x => x.uid == t.uid)).isSome := by rw [List.find?_isSome]; exact ⟨t, ht, by simp⟩
  obtain ⟨x, hx⟩ := Option.isSome_iff_exists.1 hs
  rw [hx]
  have hm := List.mem_of_find?_eq_some hx
  have hu : x.uid = t.uid := by simpa using List.find?_some hx
  exact List.inj_on_of_nodup_map h hm ht hu
/-- A change of one thread that is not firm. -/
theorem Holds.modThr {s : State} (u : Nat) (f : Thread → Thread) (hu : ∀ t, (f t).uid = t.uid) (hn : ¬ (s.thr u).Firm) : Holds s (s.modThr u f) := by
  refine ⟨?_, ?_⟩
  · unfold State.modThr; dsimp only; rw [List.map_map]; exact List.map_congr_left (fun t _ => by simp only [Function.comp]; split <;> simp [hu])
  · intro v hv
    have hvu : v ≠ u := by rintro rfl; exact hn hv
    rw [thr_map (s' := s.modThr u f) (f := fun t => if t.uid = u then f t else t) rfl (by intro t; split <;> simp [hu]) v]
    split
    · rename_i hs
      obtain ⟨x, hx⟩ := Option.isSome_iff_exists.1 hs
      have : (s.thr v).uid = v := by have := List.find?_some hx; simpa [State.thr, hx] using this
      rw [if_neg (by rw [this]; exact hvu)]; exact .refl _
    · rename_i h
      have : s.threads.find? (fun t => t.uid == v) = none := by simpa using h
      rw [State.thr, this]; exact .refl _
theorem Holds.modTeam (s : State) (k : Nat) (f : Team → Team) : Holds s (s.modTeam k f) := .same rfl

/-- Changes of threads of a list that are not firm at the start, one after another. -/
theorem Holds.list {s : State} (l : List Thread) (B : State → Thread → State) (hl : ∀ t ∈ l, ¬ (s.thr t.uid).Firm)
    (hB : ∀ s t, ∃ (f : Thread → Thread) (s1 : State), (∀ x : Thread, (f x).uid = x.uid) ∧ s1.threads = s.threads ∧ (B s t).threads = (s1.modThr t.uid f).threads) : Holds s (l.foldl B s) := by
  have key : ∀ c : State, c.threads.map Thread.uid = s.threads.map Thread.uid → (∀ u, (∀ t ∈ l, t.uid ≠ u) → c.thr u = s.thr u) →
      ∀ l' : List Thread, (∀ t ∈ l', t ∈ l) → (l'.foldl B c).threads.map Thread.uid = s.threads.map Thread.uid ∧ ∀ u, (∀ t ∈ l, t.uid ≠ u) → (l'.foldl B c).thr u = s.thr u := by
    intro c hc hk l'
    induction l' generalizing c with
    | nil => exact fun _ => ⟨hc, hk⟩
    | cons t l' ih =>
      intro hl'
      rw [List.foldl_cons]
      obtain ⟨f, s1, hf, e1, e2⟩ := hB c t
      refine ih _ ?_ ?_ (fun x hx => hl' x (List.mem_cons_of_mem _ hx))
      · rw [e2]; unfold State.modThr; dsimp only; rw [e1, ← hc, List.map_map]; exact List.map_congr_left (fun x _ => by simp only [Function.comp]; split <;> simp [hf])
      · intro u hu
        rw [← hk u hu]
        have hne := hu t (hl' t List.mem_cons_self)
        have : (B c t).thr u = (s1.modThr t.uid f).thr u := by unfold State.thr; rw [e2]
        rw [this, thr_map (s' := s1.modThr t.uid f) (s := c) (f := fun x => if x.uid = t.uid then f x else x) (by unfold State.modThr; dsimp only; rw [e1]) (by intro x; split <;> simp [hf]) u]
        split
        · rename_i hs
          obtain ⟨x, hx⟩ := Option.isSome_iff_exists.1 hs
          have : (c.thr u).uid = u := by have := List.find?_some hx; simpa [State.thr, hx] using this
          rw [if_neg (by rw [this]; exact fun e => hne e.symm)]
        · rename_i h
          have : c.threads.find? (fun t => t.uid == u) = none := by simpa using h
          rw [State.thr, this]; rfl
  obtain ⟨k1, k2⟩ := key s rfl (fun _ _ => rfl) l (fun _ h => h)
  refine ⟨k1, fun u hf => ?_⟩
  rw [k2 u (fun t ht e => hl t ht (e ▸ hf))]
  exact .refl _

theorem leaveBarrier_still (b : Nat) (t : Thread) (h : t.Firm) : Thread.Still t (t.leaveBarrier b) := by
  unfold Thread.leaveBarrier
  dsimp only
  have : ({ t with arrived := t.arrived &&& ~~~(1#16 <<< b) } : Thread).waitsIn .barrier = false := h.1
  rw [this]
  exact ⟨t.image, _, rfl⟩
theorem leaveBarrier_uid (b : Nat) (t : Thread) : (t.leaveBarrier b).uid = t.uid := (Thread.leaveBarrier_idle t b).same.uid
theorem completeBarrier_holds (team b : Nat) (s : State) (ha : s.Apart) : Holds s (completeBarrier team b s) := by
  unfold completeBarrier
  dsimp only
  generalize hs1 : ({ s.modTeam team (fun t => t.setBar b (Bar.fresh (!(t.bar b).parity))) with
      threads := (s.modTeam team (fun t => t.setBar b (Bar.fresh (!(t.bar b).parity)))).threads.map (fun (t : Thread) => if t.team = team then t.leaveBarrier b else t) } : State) = s1
  have h1 : Holds s s1 := by
    refine Holds.map (fun (t : Thread) => if t.team = team then t.leaveBarrier b else t) (by rw [← hs1]; rfl) ?_ ?_
    · intro t; split
      · exact leaveBarrier_uid b t
      · rfl
    · intro t ht; split
      · exact leaveBarrier_still b t ht
      · exact .refl _
  refine h1.trans (Holds.list _ _ ?_ ?_)
  · intro t ht
    obtain ⟨hm, hw⟩ := List.mem_filter.1 ht
    have hm' : t ∈ s1.threads := (List.mem_filter.1 hm).1
    rw [Apart.thr (h1.apart ha) hm']
    intro hf
    simp [hf.1] at hw
  · intro c t
    exact ⟨fun t => t.lateArrival b, c.modTeam team (fun tm => tm.setBar b ((tm.bar b).arrive t.wait.count [])), fun x => (Thread.lateArrival_idle x b).same.uid, rfl, rfl⟩
theorem settleBarriers_holds (s : State) (ha : s.Apart) : Holds s (settleBarriers s) := by
  unfold settleBarriers
  refine Holds.foldl _ _ (fun s t ha => Holds.foldl _ _ (fun s b ha => .ite (fun _ => completeBarrier_holds _ _ _ ha) (fun _ => .refl _)) s ha) s ha
theorem settleThreads_holds (s : State) : Holds s (settleThreads s) := by
  unfold settleThreads
  refine Holds.map _ rfl ?_ ?_
  · intro t; split
    · exact (Thread.wake_idle t).same.uid
    · split
      · split
        · exact (Thread.wake_idle t).same.uid
        · exact (Thread.wakeAfresh_idle t).same.uid
      · rfl
  · intro t ht
    have h1 : (t.phase == .counterWait && t.within t.wait.limits) = false := by
      by_cases hc : t.phase = .counterWait
      · rw [ht.2.1 hc, Bool.and_false]
      · simp [hc]
    have h2 : (t.phase == .stalled) = false := by simpa using ht.2.2.1
    rw [h1, h2]
    exact .refl _
theorem settleClaims_holds (s : State) (ha : s.Apart) : Holds s (settleClaims s) := by
  unfold settleClaims
  dsimp only
  refine Holds.list _ _ ?_ ?_
  · intro t ht
    have hm := (sortBy_perm _ _).mem_iff.1 ht
    obtain ⟨hm, hp⟩ := List.mem_filter.1 hm
    rw [Apart.thr ha hm]
    intro hf
    exact hf.2.2.2 (by simpa using hp)
  · intro c t
    cases hb : freeBlock (c.tm t.team) t.lane with
    | none => exact ⟨id, c, fun _ => rfl, rfl, by simp [State.modThr]⟩
    | some b =>
      refine ⟨fun x => (({ x with v := x.v ++ List.replicate 16 0, blocks := x.blocks ++ [b] } : Thread).wp 0 true).wake,
        c.modTeam (c.thr t.uid).team (fun tm => { tm with pool := setNth [] tm.pool (c.thr t.uid).lane ((nth [] tm.pool (c.thr t.uid).lane).filter (· ≠ b)) }), ?_, rfl, ?_⟩
      · intro x; exact (Thread.wake_idle _).same.uid
      · simp only [giveBlock, State.modThr, List.map_map]
        refine List.map_congr_left (fun x _ => ?_)
        simp only [Function.comp, State.modTeam]
        by_cases hx : x.uid = t.uid
        · simp [hx, Thread.wp]
        · simp [hx]
theorem modThr_list_holds {s : State} (l : List Thread) (f : Thread → Thread) (hu : ∀ t, (f t).uid = t.uid) (hl : ∀ t ∈ l, ¬ (s.thr t.uid).Firm) :
    Holds s (l.foldl (fun s t => s.modThr t.uid f) s) :=
  Holds.list l _ hl (fun c t => ⟨f, c, hu, rfl, rfl⟩)
theorem settleDeadlock_holds (s : State) (ha : s.Apart) : Holds s (settleDeadlock s) := by
  unfold settleDeadlock
  refine Holds.foldl _ _ (fun s t ha => .ite (fun hc => ?_) (fun _ => .refl _)) s ha
  unfold raiseWide raiseWideBy
  dsimp only
  match hl : sortBy Thread.tid (s.liveOf t.uid) with
  | [] => exact .refl _
  | x :: l =>
    dsimp only
    refine Holds.trans (b := ((x :: l).foldl (fun s t => s.modThr t.uid Thread.fault) s.fresh.2)) ?_ (.same rfl)
    refine Holds.trans (b := s.fresh.2) (.same rfl) (modThr_list_holds _ _ (fun _ => rfl) ?_)
    intro y hy
    have hy' : y ∈ s.liveOf t.uid := (sortBy_perm _ _).mem_iff.1 (by rw [hl]; exact hy)
    have hym : y ∈ s.threads := (List.mem_filter.1 (List.mem_filter.1 hy').1).1
    have : s.fresh.2.thr y.uid = y := Apart.thr (s := s.fresh.2) ha hym
    rw [this]
    intro hf
    simp only [Bool.and_eq_true, List.all_eq_true] at hc
    have := (hc.2 y hy').1
    exact hf.2.2.2 (by simpa using this)
theorem settleWatch_holds (s : State) : Holds s (settleWatch s) := by
  refine .same ?_
  unfold settleWatch
  dsimp only
  split
  · rfl
  · suffices ∀ l : List Nat, ∀ c : State, (l.foldl (fun (r : State) fn => r.count fn 9 (s.gtick - s.watched)) c).threads = c.threads from this _ s
    intro l
    induction l with
    | nil => exact fun _ => rfl
    | cons x l ih => intro c; rw [List.foldl_cons, ih]; exact (count_threads c _ _ _).1
theorem settleImages_holds (s : State) : Holds s (settleImages s) := by
  unfold settleImages
  suffices ∀ l : List Thread, ∀ c : State, Holds c (l.foldl (fun s t => if t.image.isEmpty || threadRecord s t == t.image then s else writeRecord s t (threadRecord s t)) c) from this _ s
  intro l
  induction l with
  | nil => exact fun c => .refl c
  | cons t l ih =>
    intro c
    rw [List.foldl_cons]
    refine Holds.trans (.ite (fun _ => .refl _) (fun _ => ?_)) (ih _)
    refine Holds.map (fun x => if x.uid = t.uid then { x with image := threadRecord c t } else x) rfl ?_ ?_
    · intro x; split <;> rfl
    · intro x _; split
      · exact ⟨_, x.arrived, rfl⟩
      · exact .refl _
/-- SETTLING keeps every thread that is in no wait of the kinds it ends. -/
theorem settle_holds (s : State) (ha : s.Apart) : Holds s (settle s) := by
  have h1 := settleBarriers_holds s ha
  have h2 := h1.trans (settleThreads_holds _)
  have h3 := h2.trans (settleClaims_holds _ (h2.apart ha))
  have h4 := h3.trans (settleDeadlock_holds _ (h3.apart ha))
  exact (h4.trans (settleWatch_holds _)).trans (settleImages_holds _)

/-! ### The end of a step -/

/-- A thread that debug may have stopped: nothing else differs. -/
def Thread.Stops (a b : Thread) : Prop := ∃ c st br, b = { a with stopped := c, step := st, brk := br }
theorem stop_stops (c : StopCause) (t : Thread) (h : t.phase ≠ .issuing) : Thread.Stops t (t.stop c) := by
  unfold Thread.stop
  have h' : (t.phase == .issuing) = false := by simpa using h
  split
  · exact ⟨t.stopped, false, none, rfl⟩
  · dsimp only; rw [h']; exact ⟨some c, false, none, rfl⟩
/-- From s to s' threads that are not ISSUING are at most stopped. -/
structure Stopping (s s' : State) : Prop where
  uids : s'.threads.map Thread.uid = s.threads.map Thread.uid
  thr : ∀ u, (s.thr u).phase ≠ .issuing → Thread.Stops (s.thr u) (s'.thr u)
theorem Stopping.refl (s : State) : Stopping s s := ⟨rfl, fun u _ => ⟨(s.thr u).stopped, (s.thr u).step, (s.thr u).brk, rfl⟩⟩
theorem Stopping.trans {a b c : State} (h : Stopping a b) (k : Stopping b c) : Stopping a c := by
  refine ⟨k.uids.trans h.uids, fun u hu => ?_⟩
  obtain ⟨c1, s1, b1, e1⟩ := h.thr u hu
  obtain ⟨c2, s2, b2, e2⟩ := k.thr u (by rw [e1]; exact hu)
  exact ⟨c2, s2, b2, by rw [e2, e1]⟩
theorem Stopping.foldl {α : Type} (l : List α) (f : State → α → State) (hf : ∀ s x, Stopping s (f s x)) (s : State) : Stopping s (l.foldl f s) := by
  induction l generalizing s with
  | nil => exact .refl s
  | cons x l ih => exact (hf s x).trans (ih _)
theorem Stopping.map {s s' : State} (f : Thread → Thread) (hs : s'.threads = s.threads.map f) (hu : ∀ t, (f t).uid = t.uid) (hf : ∀ t, t.phase ≠ .issuing → Thread.Stops t (f t)) :
    Stopping s s' := by
  refine ⟨?_, ?_⟩
  · rw [hs, List.map_map]; exact List.map_congr_left (fun t _ => hu t)
  · intro u hp
    rw [thr_map hs hu u]
    split
    · exact hf _ hp
    · rename_i h
      have : s.threads.find? (fun t => t.uid == u) = none := by simpa using h
      rw [State.thr, this]; exact ⟨_, _, _, rfl⟩
theorem stopAll_stopping (c : StopCause) (us : List Nat) (s : State) : Stopping s (stopAll c us s) := by
  refine Stopping.map (fun (t : Thread) => if us.contains t.uid then t.stop c else t) rfl ?_ ?_
  · intro t; split
    · exact (Thread.stop_idle c t).same.uid
    · rfl
  · intro t ht; split
    · exact stop_stops c t ht
    · exact ⟨t.stopped, t.step, t.brk, rfl⟩
theorem stopOwn_stopping (c : StopCause) (cause : Cause) (kind : Nat) (fpc spc : Dword) (us : List Nat) (team : Nat) (s : State) :
    Stopping s (stopOwn c cause kind fpc spc us team s) := by
  unfold stopOwn
  dsimp only
  refine Stopping.trans (b := _) ?_ (stopAll_stopping c _ _)
  exact ⟨rfl, fun u _ => ⟨(s.thr u).stopped, (s.thr u).step, (s.thr u).brk, rfl⟩⟩
theorem stopMarked_stopping (members : List Nat) (pc : Dword) (s : State) : Stopping s (stopMarked members pc s) := by
  unfold stopMarked
  dsimp only
  split
  · exact .refl s
  · exact ((Stopping.foldl _ _ (fun s tm => stopOwn_stopping _ _ _ _ _ _ tm s) s).trans (Stopping.foldl _ _ (fun s tm => stopOwn_stopping _ _ _ _ _ _ tm s) _)).trans
      (Stopping.foldl _ _ (fun s tm => stopAll_stopping .dbgstop _ _) _)
theorem endSpan_stopping (s : State) : Stopping s (endSpan s) := by
  unfold endSpan
  match s.waves with
  | [] => exact .refl s
  | w :: ws =>
    refine Stopping.map (fun (t : Thread) => if w.members.contains t.uid && t.phase == .issuing then { t with phase := .ready, age := 0 } else t) rfl ?_ ?_
    · intro t; split <;> rfl
    · intro t ht
      have : (t.phase == .issuing) = false := by simpa using ht
      rw [this, Bool.and_false]
      exact ⟨t.stopped, t.step, t.brk, rfl⟩
theorem advance_stopping (ends : Bool) (s : State) : Stopping s (advance ends s) := by
  unfold advance
  match hw : s.waves with
  | [] => exact .refl s
  | w :: ws =>
    dsimp only
    generalize hs1 : ({ s with
        threads := s.threads.map (fun (t : Thread) => if w.members.contains t.uid && t.phase == .issuing then { t with pc := t.npc, passBp := false } else t)
        waves := { w with members := w.members.filter (fun u => (s.thr u).phase == .issuing), count := w.count + 1 } :: ws } : State) = s1
    have h1 : Stopping s s1 := by
      refine Stopping.map (fun (t : Thread) => if w.members.contains t.uid && t.phase == .issuing then { t with pc := t.npc, passBp := false } else t) (by rw [← hs1]) ?_ ?_
      · intro t; split <;> rfl
      · intro t ht
        have : (t.phase == .issuing) = false := by simpa using ht
        rw [this, Bool.and_false]
        exact ⟨t.stopped, t.step, t.brk, rfl⟩
    split
    · exact h1.trans (endSpan_stopping s1)
    · exact h1

/-- What a step leaves in a thread that is not ISSUING and does not wait for settling. -/
def Thread.Ends (a b : Thread) : Prop := ∃ c st br i r, b = { a with stopped := c, step := st, brk := br, image := i, arrived := r }
/-- THE END OF A STEP: a thread that the body of an instruction leaves firm and not ISSUING stays so. -/
theorem finish_thr {s : State} (ha : s.Apart) (members : List Nat) (pc : Dword) (ends : Bool) (u : Nat) (hp : (s.thr u).phase ≠ .issuing) (hf : (s.thr u).Firm) :
    Thread.Ends (s.thr u) ((settle (stopMarked members pc (advance ends s))).thr u) := by
  have h := (advance_stopping ends s).trans (stopMarked_stopping members pc _)
  obtain ⟨c, st, br, e⟩ := h.thr u hp
  have hf' : ((stopMarked members pc (advance ends s)).thr u).Firm := by rw [e]; exact hf
  have ha' : (stopMarked members pc (advance ends s)).Apart := by unfold State.Apart; rw [h.uids]; exact ha
  obtain ⟨i, r, e2⟩ := (settle_holds _ ha').firm u hf'
  exact ⟨c, st, br, i, r, by rw [e2, e]⟩

end Sys2Proof.Machine
end

