-- ==== Sys2Proof/Laws/Act.lean ====
section
/-! SUPPORT. From the body of an instruction to the end of its step: what an instruction does that moves threads, parks them or changes their state. -/
namespace Sys2Proof.Machine

/-- What holds of the end t of a step whose body left s, for the wave w that issued. -/
structure Finished (s t : State) (w : Wave) : Prop where
  threads : ∀ u, Thread.SameBut [] [] (s.thr u) (t.thr u)
  goes : ∀ u ∈ w.members, (s.thr u).phase = .issuing → (t.thr u).pc = (s.thr u).npc
  ends : s.Apart → ∀ u, (s.thr u).phase ≠ .issuing → (s.thr u).Firm → Thread.Ends (s.thr u) (t.thr u)
  pc : ∀ u, (t.thr u).pc = (s.thr u).pc ∨ (t.thr u).pc = (s.thr u).npc
  teams : ∀ k, Team.SameBut [] (s.tm k) (t.tm k)
  rest : State.SameRest s t
  canon : s.Canonical → t.Canonical
theorem finished {s : State} {w : Wave} (hw : s.waves.head? = some w) (pc : Dword) (ends : Bool) :
    Finished s (settle (stopMarked w.members pc (advance ends s))) w := by
  have hd : Drift s (stopMarked w.members pc (advance ends s)) := (advance_drift _ _).trans (stopMarked_drift _ _ _)
  have hset := hd.thenSettled (settle_settled _)
  have hset2 := (stopMarked_drift w.members pc (advance ends s)).thenSettled (settle_settled _)
  refine ⟨fun u => (hset.threads u).same, ?_, fun ha u hp hf => finish_thr ha _ _ _ u hp hf, fun u => (hset.threads u).pc, hset.teams, hset.rest, hset.canon⟩
  intro u hm hp
  obtain ⟨h1, h2⟩ := advance_thr ends s hw u hm hp
  rcases (hset2.threads u).pc with e | e
  · rw [e, h1]
  · rw [e, h2]
theorem OnlyThreads.apart {s t : State} (h : OnlyThreads s t) (ha : s.Apart) : t.Apart := by
  unfold State.Apart at *
  have : t.threads.map Thread.uid = s.threads.map Thread.uid := by
    have := congrArg (List.map Prod.fst) h.imgs
    simpa [List.map_map, Function.comp_def] using this
  rw [this]; exact ha
theorem begun_apart (bytes : Nat) (w : Wave) (s : State) (ha : s.Apart) : (begun bytes w s).Apart := by
  unfold State.Apart at *
  have := congrArg (List.map Prod.fst) (begun_imgs bytes w s)
  simp only [List.map_map, Function.comp_def] at this
  rw [this]; exact ha

/-- What an instruction with a per-thread body leaves in the machine: F is what the body makes of a thread, given the state in which it starts. -/
structure Acted (s t : State) (w : Wave) (g : Guard) (bytes : Nat) (F : State → Nat → Thread → Thread) : Prop where
  same : ∀ u, s.Active w g u → Thread.SameBut [] [] (F (begun bytes w s) u ((s.thr u).goesTo ((s.thr u).pc + BitVec.ofNat 64 bytes))) (t.thr u)
  goes : ∀ u, s.Active w g u → (F (begun bytes w s) u ((s.thr u).goesTo ((s.thr u).pc + BitVec.ofNat 64 bytes))).phase = .issuing →
    (t.thr u).pc = (F (begun bytes w s) u ((s.thr u).goesTo ((s.thr u).pc + BitVec.ofNat 64 bytes))).npc
  ends : s.Apart → ∀ u, s.Active w g u → (F (begun bytes w s) u ((s.thr u).goesTo ((s.thr u).pc + BitVec.ofNat 64 bytes))).phase ≠ .issuing →
    (F (begun bytes w s) u ((s.thr u).goesTo ((s.thr u).pc + BitVec.ofNat 64 bytes))).Firm →
    Thread.Ends (F (begun bytes w s) u ((s.thr u).goesTo ((s.thr u).pc + BitVec.ofNat 64 bytes))) (t.thr u)
  idle : ∀ u, ¬ s.Active w g u → Thread.SameBut [] [] (s.thr u) (t.thr u)
  past : ∀ u ∈ w.members, ¬ s.Active w g u → (t.thr u).pc = (s.thr u).pc + BitVec.ofNat 64 bytes
  teams : ∀ k, Team.SameBut [] (s.tm k) (t.tm k)
  rest : State.SameRest s t
/-- AN INSTRUCTION WHOSE BODY CHANGES EACH ACTIVE THREAD BY ITSELF, on a ready wave. -/
theorem issue_act {s : State} {w : Wave} {u : Use} (h : s.Ready w u.g u.names)
    (hv : ∀ m ∈ w.members, ∀ r ∈ u.hv s m, r ∉ (s.thr m).pendV) (ends : Bool) (B : State → Nat → State) (F : State → Nat → Thread → Thread)
    (hf : ∀ s m t, (F s m t).uid = t.uid ∧ (F s m t).imageAt = t.imageAt ∧ (F s m t).image = t.image)
    (hI : ∀ s s' u, OnlyThreads s s' → s'.thr u = s.thr u → F s' u = F s u)
    (hB : ∀ s' m, OnlyThreads (begun u.bytes w s) s' → s.Active w u.g m → s'.thr m = (begun u.bytes w s).thr m → B s' m = s'.modThr m (F s' m)) :
    ∃ t, issue u ends (fun us s => us.foldl B s) s = .next t ∧ Acted s t w u.g u.bytes F := by
  obtain ⟨pc, hi⟩ := issueFor_clear h hv false ends (fun us s => us.foldl B s)
  refine ⟨_, hi, ?_⟩
  simp only [Bool.false_eq_true, if_false]
  generalize hs1 : begun u.bytes w s = s1 at *
  have hex : ∀ m, (∃ t ∈ s.threads, t.uid = m) → ∃ t ∈ s1.threads, t.uid = m := by
    rintro m ⟨t, ht, hm⟩
    rw [← hs1, begun_threads]
    exact ⟨_, List.mem_map_of_mem ht, by split <;> simp [hm]⟩
  have hth : ∀ m ∈ w.members, s1.thr m = (s.thr m).goesTo ((s.thr m).pc + BitVec.ofNat 64 u.bytes) :=
    fun m hm => by rw [← hs1]; exact begun_thr _ _ _ m hm (h.wave.issuing m hm).1
  have htm : ∀ k, s1.tm k = s.tm k := fun k => by rw [← hs1]; exact begun_tm _ _ _ k
  have hact : ∀ m, m ∈ s1.acting w u.g ↔ s.Active w u.g m := by
    intro m; simp only [State.acting, mem_byLane, List.mem_filter, State.Active]
    constructor
    · rintro ⟨hm, hg⟩; rw [hth m hm] at hg; exact ⟨hm, hg⟩
    · rintro ⟨hm, hg⟩; refine ⟨hm, ?_⟩; rw [hth m hm]; exact hg
  have hnd : (s1.acting w u.g).Nodup := (byLane_perm _ _).nodup_iff.2 (h.wave.distinct.filter _)
  have hcong : ∀ (l : List Nat), l.Nodup → (∀ m ∈ l, s.Active w u.g m) → (∀ m ∈ l, ∃ t ∈ s1.threads, t.uid = m) → ∀ c, OnlyThreads s1 c → (∀ m ∈ l, c.thr m = s1.thr m) →
      (∀ m ∈ l, ∃ t ∈ c.threads, t.uid = m) → l.foldl B c = l.foldl (fun s m => s.modThr m (F s m)) c := by
    intro l
    induction l with
    | nil => exact fun _ _ _ _ _ _ _ => rfl
    | cons m l ih =>
      intro hd ha he c hc hk hce
      obtain ⟨hm, hd⟩ := List.nodup_cons.1 hd
      rw [List.foldl_cons, List.foldl_cons, hB c m hc (ha m List.mem_cons_self) (hk m List.mem_cons_self)]
      refine ih hd (fun x hx => ha x (List.mem_cons_of_mem _ hx)) (fun x hx => he x (List.mem_cons_of_mem _ hx)) _ (hc.trans (.modThr c m _ (hf c m))) ?_ ?_
      · intro x hx
        rw [modThr_thr (hce m List.mem_cons_self) (fun t => (hf c m t).1), if_neg (show ¬ x = m from fun e => hm (e ▸ hx))]
        exact hk x (List.mem_cons_of_mem _ hx)
      · intro x hx; exact modThr_exists (fun t => (hf c m t).1) (hce x (List.mem_cons_of_mem _ hx))
  have hall : ∀ m ∈ s1.acting w u.g, ∃ t ∈ s1.threads, t.uid = m := fun m hm => hex m (h.wave.issuing m ((hact m).1 hm).1).1
  rw [hcong _ hnd (fun m hm => (hact m).1 hm) hall s1 (.refl _) (fun _ _ => rfl) hall]
  obtain ⟨ho, hb⟩ := fold_thr F hf hI (s1.acting w u.g) hnd s1 hall
  generalize hs2 : (s1.acting w u.g).foldl (fun s m => s.modThr m (F s m)) s1 = s2 at ho hb
  have hw : s2.waves.head? = some w := by rw [ho.waves, ← hs1, begun_waves]; exact h.wave.first
  have fin := finished hw pc (ends || u.e)
  generalize hs3 : settle (stopMarked w.members pc (advance (ends || u.e) s2)) = s3 at fin
  have hA : ∀ m, s.Active w u.g m → s2.thr m = F s1 m ((s.thr m).goesTo ((s.thr m).pc + BitVec.ofNat 64 u.bytes)) := by
    intro m hm; have e := hb m; rw [if_pos ((hact m).2 hm), hth m hm.1] at e; exact e
  have hN : ∀ m, ¬ s.Active w u.g m → s2.thr m = s1.thr m := by
    intro m hm; have e := hb m; rw [if_neg (fun hc => hm ((hact m).1 hc))] at e; exact e
  have hap : s.Apart → s2.Apart := fun ha => ho.apart (by rw [← hs1]; exact begun_apart _ _ _ ha)
  refine ⟨?_, ?_, ?_, ?_, ?_, ?_, ?_⟩
  · intro m hm; have := fin.threads m; rw [hA m hm] at this; rw [hs1]; exact this
  · intro m hm hp; rw [hs1] at hp ⊢; have := fin.goes m hm.1; rw [hA m hm] at this; exact this hp
  · intro ha m hm hp hfirm; rw [hs1] at hp hfirm ⊢; have := fin.ends (hap ha) m; rw [hA m hm] at this; exact this hp hfirm
  · intro m hm
    obtain ⟨n, e1⟩ := begun_thr_eq u.bytes w s h.wave m
    rw [hs1] at e1
    refine Thread.SameBut.trans ?_ (fin.threads m)
    rw [hN m hm, e1]
    exact .of_fields rfl rfl rfl rfl rfl rfl rfl rfl rfl rfl rfl rfl rfl rfl rfl rfl rfl
  · intro m hm hn
    have := fin.goes m hm
    rw [hN m hn, hth m hm] at this
    exact this (h.wave.issuing m hm).2
  · intro k
    have := fin.teams k
    rw [ho.tm, htm] at this
    exact this
  · have h1 : State.SameRest s s2 := by
      have := (begun_rest u.bytes w s).trans (c := s2) (by rw [hs1]; exact ho.rest) (inImage_iff (begun_imgs _ _ _)) (begun_canon _ _ _)
      exact this
    exact h1.trans fin.rest (inImage_iff (ho.imgs.trans (by rw [← hs1]; exact begun_imgs _ _ _)))
      (fun hc => ho.canon (by rw [← hs1]; exact begun_canon _ _ _ hc))

end Sys2Proof.Machine
end

