-- ==== Sys2Proof/Laws/Lone.lean ====
section
/-! SUPPORT. An instruction with one active thread: from what its body makes of the state to the end of the step. -/
namespace Sys2Proof.Machine

/-- The state a as the body of an instruction of the wave finds it, where a is s with changes: the instruction is counted and the wave's threads have their next PC. -/
def opened (bytes : Nat) (w : Wave) (s a : State) : State :=
  { a with
    regs := (begun bytes w s).regs
    issue := s.issue + 1
    threads := a.threads.map (fun (t : Thread) => if w.members.contains t.uid then t.goesTo (t.pc + BitVec.ofNat 64 bytes) else t) }
theorem begun_opened (bytes : Nat) (w : Wave) (s : State) : begun bytes w s = opened bytes w s s := by
  unfold opened begun
  dsimp only
  rw [count_only]
  rfl
/-- The begun state of an instruction is the state with other registers. -/
theorem begun_regs (bytes : Nat) (w : Wave) (s : State) (fn : Nat) (priv : Bool) (off : Nat) (h : perfCounter priv off = false) :
    (begun bytes w s).reg fn priv off = s.reg fn priv off := (begun_rest bytes w s).regs fn priv off h
theorem opened_imgs (bytes : Nat) (w : Wave) (s a : State) :
    (opened bytes w s a).threads.map (fun t => (t.uid, t.imageAt, t.image)) = a.threads.map (fun t => (t.uid, t.imageAt, t.image)) := by
  unfold opened; dsimp only; rw [List.map_map]; congr 1; funext t; simp only [Function.comp]; split <;> rfl
theorem opened_thr_same (bytes : Nat) (w : Wave) (s a : State) (u : Nat) : Thread.SameBut [] [] (a.thr u) ((opened bytes w s a).thr u) := by
  refine thr_rel (s := a) (s' := opened bytes w s a) (f := fun (t : Thread) => if w.members.contains t.uid then t.goesTo (t.pc + BitVec.ofNat 64 bytes) else t)
    (R := Thread.SameBut [] []) rfl (by intro t; split <;> rfl) ?_ (.refl _ _ _) u
  intro t; split
  · exact npc_same _ _ _ _
  · exact .refl _ _ _
theorem opened_thr (bytes : Nat) (w : Wave) (s a : State) (u : Nat) (hm : u ∈ w.members) (he : ∃ t ∈ a.threads, t.uid = u) :
    (opened bytes w s a).thr u = (a.thr u).goesTo ((a.thr u).pc + BitVec.ofNat 64 bytes) := by
  rw [thr_map_some (s := a) (s' := opened bytes w s a) (f := fun (t : Thread) => if w.members.contains t.uid then t.goesTo (t.pc + BitVec.ofNat 64 bytes) else t) rfl (by intro t; split <;> rfl) he]
  simp [thr_uid he, hm]
/-- The opened state differs from its own in next PCs, counters of events and the count of instructions. -/
theorem opened_rest (bytes : Nat) (w : Wave) (s a : State) (hr : a.regs = s.regs) : State.SameRest a (opened bytes w s a) :=
  ⟨fun _ _ _ => rfl, fun fn priv off h => by
    have := begun_regs bytes w s fn priv off h
    unfold State.reg at *
    rw [show (opened bytes w s a).regs = (begun bytes w s).regs from rfl, hr]; exact this, rfl, List.prefix_refl _, rfl⟩
theorem opened_tm (bytes : Nat) (w : Wave) (s a : State) (k : Nat) : (opened bytes w s a).tm k = a.tm k := rfl

theorem Then.refl (s : State) : s.Then s := ⟨fun _ => .refl _ _ _, fun _ => .refl _ _, .refl s⟩

/-- The state with another next fresh number. -/
def State.upTo (s : State) (n : Nat) : State := { s with nextId := n }
theorem lone_acting {s : State} {w : Wave} {g : Guard} {n : Names} {th : Nat} (h : s.Lone w g n th) (bytes : Nat) : (begun bytes w s).acting w g = [th] := by
  have hmem : ∀ m, m ∈ (begun bytes w s).acting w g ↔ m = th := by
    intro m
    simp only [State.acting, mem_byLane, List.mem_filter]
    rw [← h.only m]
    constructor
    · rintro ⟨hm, hg⟩
      rw [begun_thr _ _ _ m hm (h.ready.wave.issuing m hm).1] at hg; exact ⟨hm, hg⟩
    · rintro ⟨hm, hg⟩
      refine ⟨hm, ?_⟩
      rw [begun_thr _ _ _ m hm (h.ready.wave.issuing m hm).1]; exact hg
  have hnd : ((begun bytes w s).acting w g).Nodup := (byLane_perm _ _).nodup_iff.2 (h.ready.wave.distinct.filter _)
  have hp : ((begun bytes w s).acting w g).Perm [th] := (List.perm_ext_iff_of_nodup hnd (by simp)).2 (fun m => by simp [hmem m])
  exact List.perm_singleton.1 hp
/-- FROM THE BODY TO THE STEP, where no thread of the wave stays: the body of an instruction on its one active thread made a of the state s (with numbers handed out); a is s' but for what no frame names. -/
theorem effects_of {s s' a : State} {w : Wave} {i : Instr} {u : Use} {th n : Nat} {ends : Bool} {body : List Nat → State → State} {Q : State → Prop}
    (h : s.Lone w u.g u.names th) (hv : u.hv = fun _ _ => []) (hi : exec i s = issue u ends body s)
    (hb : body [th] (begun u.bytes w s) = (opened u.bytes w s a).upTo n) (hwv : a.waves = s.waves) (hr : a.regs = s.regs)
    (hx : ∀ v ∈ w.members, (∃ t ∈ a.threads, t.uid = v) ∧ (a.thr v).phase = .issuing ∧ (a.thr v).pc = (s.thr v).pc)
    (hthen : s'.Then a) (himg : ∀ x, a.inImage x ↔ s'.inImage x) (hcan : s'.Canonical → a.Canonical)
    (hQ : ∀ t, Finished ((opened u.bytes w s a).upTo n) t w → Q t) : Effects s w i (s.past u.bytes) s' Q := by
  obtain ⟨pc, e⟩ := issueFor_ready h.ready hv false ends body
  rw [if_neg (by simp), lone_acting h, hb] at e
  generalize hs2 : (opened u.bytes w s a).upTo n = s2 at e hQ
  have hthr : ∀ v, s2.thr v = (opened u.bytes w s a).thr v := fun v => by rw [← hs2]; rfl
  have hw : s2.waves.head? = some w := by rw [← hs2]; show a.waves.head? = some w; rw [hwv]; exact h.ready.wave.first
  have fin := finished hw pc (ends || u.e)
  refine ⟨_, by rw [hi]; exact e, ⟨?_, ?_, ?_⟩, ?_, hQ _ fin⟩
  · intro v
    exact (hthen.threads v).trans ((opened_thr_same _ _ _ _ v).trans (by rw [← hthr]; exact fin.threads v))
  · intro k
    exact (hthen.teams k).trans (by have := fin.teams k; rw [← hs2] at this ⊢; exact this)
  · have h1 : State.SameRest a s2 := by
      rw [← hs2]; have := opened_rest u.bytes w s a hr; exact ⟨this.bytes, this.regs, this.grids, this.faults, this.others⟩
    have himgs : s2.threads.map (fun t => (t.uid, t.imageAt, t.image)) = a.threads.map (fun t => (t.uid, t.imageAt, t.image)) := by
      rw [← hs2]; exact opened_imgs u.bytes w s a
    refine (hthen.rest.trans (h1.trans fin.rest (inImage_iff himgs) ?_) himg hcan)
    intro hc; rw [← hs2]; exact hc
  · intro v hv
    obtain ⟨h1, h2, h3⟩ := hx v hv
    have e2 : s2.thr v = (a.thr v).goesTo ((a.thr v).pc + BitVec.ofNat 64 u.bytes) := by rw [hthr]; exact opened_thr _ _ _ _ v hv h1
    rw [fin.goes v hv (by rw [e2]; exact h2), e2]
    show (a.thr v).pc + _ = _
    rw [h3]; rfl

end Sys2Proof.Machine
end

