-- ==== Sys2Proof/Laws/Access.lean ====
section
/-! SUPPORT. Accesses whose checks pass by cached translations (R234, R35): the checks leave the state alone and answer the places. -/
namespace Sys2Proof.Machine

/-- Two states that agree in what translation and the checks of an access look at. -/
structure AccessSame (s c : State) : Prop where
  mem : c.mem = s.mem
  decks : c.decks = s.decks
  copies : c.copies = s.copies
theorem judge_same {s c : State} (h : AccessSame s c) (n : Need) (va e size : Nat) : judge n va e size c = judge n va e size s := by
  unfold judge State.backed; rw [h.decks]
theorem judge_leaf {n : Need} {va e size pa mt leaf : Nat} {s : State} (h : judge n va e size s = .ok pa mt leaf) : leaf = e := by
  unfold judge at h
  split at h
  · cases h
  · dsimp only at h; split at h
    · cases h
    · injection h with _ _ h; exact h.symm
theorem xlate_maps {s c : State} (h : AccessSame s c) {u : Nat} {n : Need} {va pa mt leaf : Nat} (hm : s.Maps u n va pa mt leaf) :
    xlate n (s.teamOf u).core (s.ctxOf u).1 (s.ctxOf u).2 va c = (c, .ok pa mt leaf) := by
  obtain ⟨hc, e, he, hj⟩ := hm
  unfold xlate
  have h1 : tlbHit (s.teamOf u).core (s.ctxOf u).1 (s.ctxOf u).2 va c = some e := by unfold tlbHit at he ⊢; rw [h.mem]; exact he
  rw [hc, h1, ← judge_same h] at *
  simp only [Bool.not_true, Bool.false_eq_true, if_false]
  rw [hj]
theorem canonical_lt {va : Nat} (h : canonical va = true) : va < 2 ^ 64 := by
  simp only [canonical, Bool.or_eq_true, decide_eq_true_eq, Bool.and_eq_true] at h
  omega
theorem checkElem_ok {s c : State} (h : AccessSame s c) {u : Nat} {n : Need} {kind : Nat} {store : Bool} {va pa mt leaf size : Nat} (ha : va % size = 0) (hm : s.Maps u n va pa mt leaf)
    (hl : lockedGlobal (s.teamOf u).core (s.ctxOf u).1 (s.ctxOf u).2 store va size s = false) (hg : store = true → s.isMigrating (s.ctxOf u).1 (s.ctxOf u).2 va = false) :
    checkElem n kind store (s.teamOf u).core (s.ctxOf u).1 (s.ctxOf u).2 va size c = (c, .ok [placeOf va pa mt leaf]) := by
  have hlt := canonical_lt hm.1
  have hva : (BitVec.ofInt 64 (va : Int)).toNat = va := by
    rw [BitVec.toNat_ofInt]; omega
  have h1 : lockedGlobal (s.teamOf u).core (s.ctxOf u).1 (s.ctxOf u).2 store va size c = false := by unfold lockedGlobal at hl ⊢; rw [h.copies]; exact hl
  have h2 : (store && c.isMigrating (s.ctxOf u).1 (s.ctxOf u).2 va) = false := by
    cases store
    · rfl
    · have := hg rfl; unfold State.isMigrating at this ⊢; rw [h.mem, this]; rfl
  unfold checkElem
  dsimp only
  rw [hva, xlate_maps h hm, hm.1]
  have e1 : decide ((va : Int) < 0) = false := by simp
  have e2 : decide ((2 : Int) ^ 64 ≤ va) = false := by simp; omega
  rw [e1, e2, ha]
  simp only [Bool.not_true, Bool.or_self, Bool.false_eq_true, if_false, bne_self_eq_false, h1, h2]
/-- THE CHECKS OF AN ACCESS pass where every element has its place. -/
theorem checkAll_places {s c : State} (h : AccessSame s c) {u : Nat} {n : Need} {kind : Nat} {store : Bool} {size : Nat} {vas : List Nat} {ps : List Source}
    (hp : s.Places u n store size vas ps) :
    checkAll n kind store (s.teamOf u).core (s.ctxOf u).1 (s.ctxOf u).2 (vas.map (fun va : Nat => ((va : Int), size))) c = (c, .ok ps) := by
  induction hp with
  | nil => rfl
  | cons hx _ ih =>
    obtain ⟨ha, ⟨pa, mt, leaf, hm, rfl⟩, hl, hg⟩ := hx
    simp only [List.map_cons, checkAll]
    rw [checkElem_ok h ha hm hl hg]
    dsimp only
    rw [ih]
    rfl
theorem Acc.at_vas (x : Acc) (base : Dword) : x.at (x.addr base) = (x.vas base).map (fun va : Nat => ((va : Int), elemBytes x.ty)) := by
  unfold Acc.at Acc.vas
  rw [List.map_map]
  refine List.map_congr_left (fun e _ => ?_)
  simp [BitVec.toNat_ofNat]
theorem AccessSame.opened (bytes : Nat) (w : Wave) (s : State) : AccessSame s (opened bytes w s s) := ⟨rfl, rfl, rfl⟩

end Sys2Proof.Machine
end

