-- ==== Sys2Proof/Laws/Operands.lean ====
section
/-! SUPPORT. What the operand forms of the integer and pair instructions do on a ready wave. -/
namespace Sys2Proof.Machine

theorem val_npc (o : Opnd) (tm : Team) (t : Thread) (n : Dword) : o.val tm (t.goesTo n) = o.val tm t := by cases o <;> rfl
theorem pair_npc (o : Opnd) (tm : Team) (t : Thread) (n : Dword) : o.pair tm (t.goesTo n) = o.pair tm t := by cases o <;> rfl

theorem siOp_does {s : State} {w : Wave} {x : SI} (h : s.Ready w Guard.always { rv := [rn x.a], wv := [rn x.d] }) (imm : Word) (f : Word → Word → Word) :
    ∃ t, siOp x imm f s = .next t ∧ Acts s t w Guard.always 4 (SetsV (rn x.d) fun _ t => f (t.rv (rn x.a)) imm) :=
  issue_setsV (u := use4 x.e [rn x.a] [rn x.d]) h rfl (rn x.d) (by simp [use4]) (fun _ t => f (t.rv (rn x.a)) imm) (fun _ _ _ => rfl)
theorem saUn_does {s : State} {w : Wave} {x : SA} (h : s.Ready w Guard.always { rv := [rn x.a], wv := [rn x.d] }) (f : Word → Word) :
    ∃ t, saUn x f s = .next t ∧ Acts s t w Guard.always 4 (SetsV (rn x.d) fun _ t => f (t.rv (rn x.a))) :=
  issue_setsV (u := use4 x.e [rn x.a] [rn x.d]) h rfl (rn x.d) (by simp [use4]) (fun _ t => f (t.rv (rn x.a))) (fun _ _ _ => rfl)
theorem waUn_does {s : State} {w : Wave} {x : WA} (h : s.Ready w x.x.g { rv := [rn x.a], wv := [rn x.d] }) (f : Word → Word) :
    ∃ t, waUn x f s = .next t ∧ Acts s t w x.x.g 12 (SetsV (rn x.d) fun _ t => f (t.rv (rn x.a))) :=
  issue_setsV (u := use12 x.e x.x.g [rn x.a] [rn x.d]) h rfl (rn x.d) (by simp [use12]) (fun _ t => f (t.rv (rn x.a))) (fun _ _ _ => rfl)
theorem waBin_does {s : State} {w : Wave} {x : WA} (h : s.Ready w x.x.g { rv := rn x.a :: x.ob.vs false, wv := [rn x.d], rs := x.ob.ss false }) (f : Word → Word → Word) :
    ∃ t, waBin x f s = .next t ∧ Acts s t w x.x.g 12 (SetsV (rn x.d) fun tm t => f (t.rv (rn x.a)) (x.ob.val tm t)) :=
  issue_setsV (u := (use12 x.e x.x.g [rn x.a] [rn x.d]).reads [x.ob] false) (h.names (by simp [Use.names, Use.reads, use12])) rfl (rn x.d) (by simp [use12, Use.reads])
    (fun tm t => f (t.rv (rn x.a)) (x.ob.val tm t)) (fun tm t n => by simp only [val_npc]; rfl)
theorem waTer_does {s : State} {w : Wave} {x : WA}
    (h : s.Ready w x.x.g { rv := rn x.a :: (x.ob.vs false ++ x.x.oc.vs false), wv := [rn x.d], rs := x.ob.ss false ++ x.x.oc.ss false }) (f : Word → Word → Word → Word) :
    ∃ t, waTer x f s = .next t ∧ Acts s t w x.x.g 12 (SetsV (rn x.d) fun tm t => f (t.rv (rn x.a)) (x.ob.val tm t) (x.x.oc.val tm t)) :=
  issue_setsV (u := (use12 x.e x.x.g [rn x.a] [rn x.d]).reads [x.ob, x.x.oc] false) (h.names (by simp [Use.names, Use.reads, use12])) rfl (rn x.d) (by simp [use12, Use.reads])
    (fun tm t => f (t.rv (rn x.a)) (x.ob.val tm t) (x.x.oc.val tm t)) (fun tm t n => by simp only [val_npc]; rfl)
/-- The 64-bit instructions with a 32-bit operand. -/
theorem pairOp_does {s : State} {w : Wave} {u : Use} {b : Opnd} {d a : Nat}
    (h : s.Ready w u.g { rv := a :: (a + 1) :: b.vs false, wv := [d, d + 1], rs := u.rs ++ b.ss false, ws := u.ws, rp := u.rp, wp := u.wp, rh := u.rh, cls := u.cls }) (hv : u.hv = fun _ _ => [])
    (f : Dword → Dword → Dword) :
    ∃ t, pairOp u b d a f s = .next t ∧ Acts s t w u.g u.bytes (SetsPair d fun tm t => f (t.rpair a) ((b.val tm t).signExtend 64)) :=
  issue_setsPair (u := ({ u with rv := regs a true, wv := regs d true } : Use).reads [b] false) (h.names (by simp [Use.names, Use.reads, regs])) hv d (by simp [Use.reads, regs])
    (fun tm t => f (t.rpair a) ((b.val tm t).signExtend 64)) (fun tm t n => by simp only [val_npc]; rfl)

end Sys2Proof.Machine
end

