-- ==== Sys2Proof/Laws/Teams.lean ====
section
/-! SUPPORT. What a write of a team-scope register does on a ready wave (R156, R203). -/
namespace Sys2Proof.Machine

/-! ### Lookups after a change of one team -/

theorem tm_uid {s : State} {k : Nat} (h : ∃ t ∈ s.teams, t.uid = k) : (s.tm k).uid = k := by
  obtain ⟨t, ht, hk⟩ := h
  have hs : (s.teams.find? (fun t => t.uid == k)).isSome := by rw [List.find?_isSome]; exact ⟨t, ht, by simp [hk]⟩
  obtain ⟨x, hx⟩ := Option.isSome_iff_exists.1 hs
  have := List.find?_some hx
  simpa [State.tm, hx] using this
theorem modTeam_tm {s : State} {u : Nat} (h : ∃ t ∈ s.teams, t.uid = u) {f : Team → Team} (hf : ∀ t, (f t).uid = t.uid) (v : Nat) :
    (s.modTeam u f).tm v = if v = u then f (s.tm u) else s.tm v := by
  have e : (s.modTeam u f).tm v = ((s.teams.find? (fun t => t.uid == v)).map (fun t => if t.uid = u then f t else t)).getD Team.blank := by
    unfold State.tm State.modTeam
    rw [find_map s.teams Team.uid (fun t => if t.uid = u then f t else t) (by intro t; split <;> simp [hf]) v]
  rw [e]
  by_cases hvu : v = u
  · subst hvu
    have hs : (s.teams.find? (fun t => t.uid == v)).isSome := by
      obtain ⟨t, ht, hu⟩ := h; rw [List.find?_isSome]; exact ⟨t, ht, by simp [hu]⟩
    obtain ⟨x, hx⟩ := Option.isSome_iff_exists.1 hs
    have hx2 : x.uid = v := by simpa using List.find?_some hx
    rw [if_pos rfl, hx]
    simp [State.tm, hx, hx2]
  · rw [if_neg hvu]
    cases hx : s.teams.find? (fun t => t.uid == v) with
    | none => simp [State.tm, hx]
    | some x =>
      have hx2 : x.uid = v := by simpa using List.find?_some hx
      simp [State.tm, hx, hx2, hvu]
theorem modTeam_exists {s : State} {u : Nat} {f : Team → Team} (hf : ∀ t, (f t).uid = t.uid) {v : Nat} (h : ∃ t ∈ s.teams, t.uid = v) :
    ∃ t ∈ (s.modTeam u f).teams, t.uid = v := by
  obtain ⟨t, ht, hv⟩ := h
  refine ⟨_, List.mem_map_of_mem ht, ?_⟩
  split <;> simp [hf, hv]

/-- A state that differs in its teams only. -/
def OnlyTeams (s t : State) : Prop := t = { s with teams := t.teams }
theorem OnlyTeams.refl (s : State) : OnlyTeams s s := rfl
theorem OnlyTeams.trans {a b c : State} (h : OnlyTeams a b) (k : OnlyTeams b c) : OnlyTeams a c := by
  unfold OnlyTeams at *; rw [k, h]
theorem OnlyTeams.modTeam (s : State) (u : Nat) (f : Team → Team) : OnlyTeams s (s.modTeam u f) := rfl
theorem OnlyTeams.thr {s t : State} (h : OnlyTeams s t) (u : Nat) : t.thr u = s.thr u := by rw [h]; rfl
theorem OnlyTeams.threads {s t : State} (h : OnlyTeams s t) : t.threads = s.threads := by rw [h]
theorem OnlyTeams.waves {s t : State} (h : OnlyTeams s t) : t.waves = s.waves := by rw [h]
theorem OnlyTeams.rest {s t : State} (h : OnlyTeams s t) : State.SameRest s t := by
  refine ⟨fun _ _ _ => ?_, fun _ _ _ _ => ?_, ?_, ?_, ?_⟩
  · rw [h]
  · rw [h]; rfl
  · rw [h]
  · rw [h]
  · rw [h]; rfl
theorem OnlyTeams.canon {s t : State} (h : OnlyTeams s t) (hc : s.Canonical) : t.Canonical := by rw [h]; exact hc

/-- A fold over teams: each listed team is changed once, by a function of the state before. -/
theorem fold_tm (F : State → Nat → Team → Team) (hF : ∀ s u t, (F s u t).uid = t.uid ∧ (F s u t).grid = t.grid)
    (hI : ∀ s s' u, OnlyTeams s s' → (∀ k, (s'.tm k).grid = (s.tm k).grid) → F s' u = F s u) (us : List Nat) (hd : us.Nodup) (s : State) (he : ∀ u ∈ us, ∃ t ∈ s.teams, t.uid = u) :
    OnlyTeams s (us.foldl (fun s u => s.modTeam u (F s u)) s) ∧
      ∀ v, (us.foldl (fun s u => s.modTeam u (F s u)) s).tm v = if v ∈ us then F s v (s.tm v) else s.tm v := by
  induction us generalizing s with
  | nil => exact ⟨.refl s, fun v => by simp⟩
  | cons u us ih =>
    obtain ⟨hu, hd⟩ := List.nodup_cons.1 hd
    have h1 : OnlyTeams s (s.modTeam u (F s u)) := .modTeam s u _
    have hm := modTeam_tm (he u List.mem_cons_self) (f := F s u) (fun t => (hF s u t).1)
    obtain ⟨k1, k2⟩ := ih hd (s.modTeam u (F s u)) (fun v hv => modTeam_exists (fun t => (hF s u t).1) (he v (List.mem_cons_of_mem _ hv)))
    rw [List.foldl_cons]
    refine ⟨h1.trans k1, fun v => ?_⟩
    have hg : ∀ k, ((s.modTeam u (F s u)).tm k).grid = (s.tm k).grid := by
      intro k; rw [hm]; split
      · rename_i e; rw [(hF _ _ _).2, e]
      · rfl
    rw [k2, hm, hI s _ v h1 hg]
    by_cases hv : v = u
    · subst hv; simp [hu]
    · simp [hv]

/-! ### Teams of threads -/

theorem teamsIn_spec (s : State) (us : List Nat) : (teamsIn s us).Nodup ∧ ∀ k, k ∈ teamsIn s us ↔ ∃ u ∈ us, (s.thr u).team = k := by
  unfold teamsIn
  suffices ∀ (us l : List Nat), l.Nodup → (us.foldl (fun l u => let t := (s.thr u).team; if l.contains t then l else l ++ [t]) l).Nodup ∧
      ∀ k, k ∈ us.foldl (fun l u => let t := (s.thr u).team; if l.contains t then l else l ++ [t]) l ↔ k ∈ l ∨ ∃ u ∈ us, (s.thr u).team = k by
    have h := this us [] List.nodup_nil
    exact ⟨h.1, fun k => by rw [h.2]; simp⟩
  intro us
  induction us with
  | nil => intro l hl; exact ⟨hl, fun k => by simp⟩
  | cons u us ih =>
    intro l hl
    simp only [List.foldl_cons]
    by_cases hc : l.contains (s.thr u).team = true
    · rw [if_pos hc]
      obtain ⟨h1, h2⟩ := ih l hl
      refine ⟨h1, fun k => ?_⟩
      rw [h2]
      have hc' : (s.thr u).team ∈ l := by simpa using hc
      constructor
      · rintro (h | ⟨v, hv, e⟩)
        · exact .inl h
        · exact .inr ⟨v, List.mem_cons_of_mem _ hv, e⟩
      · rintro (h | ⟨v, hv, e⟩)
        · exact .inl h
        · rcases List.mem_cons.1 hv with rfl | hv
          · exact .inl (e ▸ hc')
          · exact .inr ⟨v, hv, e⟩
    · rw [if_neg hc]
      have hc' : (s.thr u).team ∉ l := by simpa using hc
      obtain ⟨h1, h2⟩ := ih (l ++ [(s.thr u).team]) (by rw [List.nodup_append]; exact ⟨hl, by simp, by intro a ha b hb; simp at hb; subst hb; rintro rfl; exact hc' ha⟩)
      refine ⟨h1, fun k => ?_⟩
      rw [h2]
      constructor
      · rintro (h | ⟨v, hv, e⟩)
        · rcases List.mem_append.1 h with h | h
          · exact .inl h
          · exact .inr ⟨u, List.mem_cons_self, by simp at h; exact h.symm⟩
        · exact .inr ⟨v, List.mem_cons_of_mem _ hv, e⟩
      · rintro (h | ⟨v, hv, e⟩)
        · exact .inl (List.mem_append_left _ h)
        · rcases List.mem_cons.1 hv with rfl | hv
          · exact .inl (List.mem_append_right _ (by simp [e]))
          · exact .inr ⟨v, hv, e⟩

theorem holdsAll_whole (s : State) (w : Wave) (k : Nat) : s.holdsAll w.members k = true ↔ s.Whole w k := by
  unfold State.holdsAll State.liveOf State.threadsOf State.Whole Thread.live
  simp only [List.all_eq_true, List.mem_filter, List.contains_iff_mem, beq_iff_eq, bne_iff_ne, ne_eq]
  constructor
  · intro h t ht e hp; exact h t ⟨⟨ht, e⟩, hp⟩
  · rintro h t ⟨⟨ht, e⟩, hp⟩; exact h t ht e hp

/-- A write for teams none of which is partial in a DET launch. -/
theorem teamWrite_fold (f : Bool → List Nat → Team → Team) (us : List Nat) (s : State) {w : Wave} (hw : s.waves.head? = some w)
    (hf : ∀ b l t, (f b l t).uid = t.uid ∧ (f b l t).grid = t.grid)
    (hm : ∀ k ∈ teamsIn s us, s.holdsAll w.members k = true ∨ s.det k = false) (he : ∀ k ∈ teamsIn s us, ∃ t ∈ s.teams, t.uid = k) :
    OnlyTeams s (teamWrite f us s) ∧ ∀ k, (teamWrite f us s).tm k = if k ∈ teamsIn s us then f (s.holdsAll w.members k) (writersOf s w.members k) (s.tm k) else s.tm k := by
  have hmem : s.members = w.members := by simp [State.members, State.wave?, hw]
  have key : ∀ (l : List Nat) (c : State), OnlyTeams s c → (∀ k, (c.tm k).grid = (s.tm k).grid) → (∀ k ∈ l, s.holdsAll w.members k = true ∨ s.det k = false) →
      (∀ k ∈ l, ∃ t ∈ c.teams, t.uid = k) →
      l.foldl (fun s tm =>
        let full := s.holdsAll w.members tm
        if !full && s.det tm then
          raiseAll .uniformMix {} (s.byLane (w.members.filter (fun m => (s.thr m).team == tm && (s.thr m).phase == .issuing))) s
        else s.modTeam tm (f full (writersOf s w.members tm))) c =
      l.foldl (fun s u => s.modTeam u ((fun s u => f (s.holdsAll w.members u) (writersOf s w.members u)) s u)) c := by
    intro l
    induction l with
    | nil => intros; rfl
    | cons k l ih =>
      intro c hc hg hm he
      simp only [List.foldl_cons]
      have h1 : c.holdsAll w.members k = s.holdsAll w.members k := by
        unfold State.holdsAll State.liveOf State.threadsOf; rw [hc.threads]
      have h2 : c.det k = s.det k := by
        unfold State.det State.gr; rw [hg k, hc]
      have h3 : (!c.holdsAll w.members k && c.det k) = false := by
        rw [h1, h2]; rcases hm k List.mem_cons_self with h | h <;> simp [h]
      simp only [h3, Bool.false_eq_true, if_false]
      refine ih _ (hc.trans (.modTeam _ _ _)) ?_ (fun j hj => hm j (List.mem_cons_of_mem _ hj)) (fun j hj => modTeam_exists (fun t => (hf _ _ t).1) (he j (List.mem_cons_of_mem _ hj)))
      intro j
      rw [modTeam_tm (he k List.mem_cons_self) (fun t => (hf _ _ t).1)]
      split
      · rename_i e; rw [(hf _ _ _).2, e, hg]
      · exact hg j
  obtain ⟨hn, hmem2⟩ := teamsIn_spec s us
  have hfold := key (teamsIn s us) s (.refl s) (fun _ => rfl) hm he
  have e : teamWrite f us s = (teamsIn s us).foldl (fun s u => s.modTeam u ((fun s u => f (s.holdsAll w.members u) (writersOf s w.members u)) s u)) s := by
    unfold teamWrite; rw [hmem]; exact hfold
  rw [e]
  refine fold_tm (fun s u => f (s.holdsAll w.members u) (writersOf s w.members u)) (fun s u t => hf _ _ t) ?_ _ hn s he
  intro a b u hab _
  have e1 : b.holdsAll w.members u = a.holdsAll w.members u := by unfold State.holdsAll State.liveOf State.threadsOf; rw [hab.threads]
  have e2 : writersOf b w.members u = writersOf a w.members u := by unfold writersOf; simp only [hab.thr]
  simp only [e1, e2]


/-! ### Issuing -/

theorem sortBy_sorted {α : Type} (key : α → Nat) (l : List α) : (sortBy key l).Pairwise (fun a b => key a ≤ key b) := by
  unfold sortBy
  induction l with
  | nil => exact List.Pairwise.nil
  | cons x l ih =>
    simp only [List.foldr_cons]
    generalize l.foldr (fun x acc => sortBy.insertFront key x acc) [] = m at ih
    induction m with
    | nil => simp [sortBy.insertFront]
    | cons y m ihm =>
      obtain ⟨h1, h2⟩ := List.pairwise_cons.1 ih
      unfold sortBy.insertFront
      split
      · rename_i hxy
        refine List.pairwise_cons.2 ⟨fun z hz => ?_, ih⟩
        rcases List.mem_cons.1 hz with rfl | hz
        · exact hxy
        · exact le_trans hxy (h1 z hz)
      · rename_i hxy
        refine List.pairwise_cons.2 ⟨fun z hz => ?_, ihm h2⟩
        have := (insertFront_perm key x m).mem_iff.1 hz
        rcases List.mem_cons.1 this with rfl | hz
        · exact le_of_lt (not_le.1 hxy)
        · exact h1 z hz

/-- AN INSTRUCTION WHOSE BODY CHANGES TEAMS, on a ready wave. -/
theorem issue_teams {s : State} {w : Wave} {u : Use} (h : s.Ready w u.g u.names) (hv : u.hv = fun _ _ => []) (ends : Bool) (body : List Nat → State → State) {P : Nat → Team → Team → Prop}
    (hb : ∀ us : List Nat, us.Nodup → (∀ m, m ∈ us ↔ s.Active w u.g m) → us.Pairwise (fun a b => (s.thr a).lane ≤ (s.thr b).lane) →
      OnlyTeams (begun u.bytes w s) (body us (begun u.bytes w s)) ∧
      (∀ k, s.ActiveTeam w u.g k → ∀ b, Team.SameBut [] ((body us (begun u.bytes w s)).tm k) b → P k (s.tm k) b) ∧
      (∀ k, ¬ s.ActiveTeam w u.g k → (body us (begun u.bytes w s)).tm k = s.tm k)) :
    ∃ t, issue u ends body s = .next t ∧ ActsTeams s t w u.g u.bytes P := by
  obtain ⟨pc, hi⟩ := issueFor_ready h hv false ends body
  refine ⟨_, hi, ?_⟩
  simp only [Bool.false_eq_true, if_false]
  have hth : ∀ m ∈ w.members, (begun u.bytes w s).thr m = (s.thr m).goesTo ((s.thr m).pc + BitVec.ofNat 64 u.bytes) :=
    fun m hm => begun_thr _ _ _ m hm (h.wave.issuing m hm).1
  have hact : ∀ m, m ∈ (begun u.bytes w s).acting w u.g ↔ s.Active w u.g m := by
    intro m; simp only [State.acting, mem_byLane, List.mem_filter, State.Active]
    constructor
    · rintro ⟨hm, hg⟩; rw [hth m hm] at hg; exact ⟨hm, hg⟩
    · rintro ⟨hm, hg⟩; refine ⟨hm, ?_⟩; rw [hth m hm]; exact hg
  have hnd : ((begun u.bytes w s).acting w u.g).Nodup := (byLane_perm _ _).nodup_iff.2 (h.wave.distinct.filter _)
  have hlane : ∀ m, ((begun u.bytes w s).thr m).lane = (s.thr m).lane := by
    intro m; obtain ⟨n, e⟩ := begun_thr_eq u.bytes w s h.wave m; rw [e]; rfl
  have hsort : ((begun u.bytes w s).acting w u.g).Pairwise (fun a b => (s.thr a).lane ≤ (s.thr b).lane) := by
    have := sortBy_sorted (fun m => ((begun u.bytes w s).thr m).lane) (w.members.filter (fun m => ((begun u.bytes w s).thr m).guard u.g))
    simp only [hlane] at this; unfold State.acting State.byLane; simp only [hlane]; exact this
  obtain ⟨ho, h1, h2⟩ := hb _ hnd hact hsort
  generalize hs2 : body ((begun u.bytes w s).acting w u.g) (begun u.bytes w s) = s2 at ho h1 h2
  have hd : Drift s2 (stopMarked w.members pc (advance (ends || u.e) s2)) := (advance_drift _ _).trans (stopMarked_drift _ _ _)
  have hset := hd.thenSettled (settle_settled _)
  have hset2 := (stopMarked_drift w.members pc (advance (ends || u.e) s2)).thenSettled (settle_settled _)
  generalize hs3 : settle (stopMarked w.members pc (advance (ends || u.e) s2)) = s3 at hset hset2
  refine ⟨fun k hk => h1 k hk _ (hset.teams k), fun k hk => ?_, fun m => ?_, fun m hm => ?_, ?_⟩
  · have := hset.teams k; rw [h2 k hk] at this; exact this
  · obtain ⟨n, e⟩ := begun_thr_eq u.bytes w s h.wave m
    have := (hset.threads m).same
    rw [ho.thr, e] at this
    exact (npc_same (s.thr m) n _ _).trans this
  · have e : s2.thr m = (s.thr m).goesTo ((s.thr m).pc + BitVec.ofNat 64 u.bytes) := by rw [ho.thr, hth m hm]
    have hp : (s2.thr m).phase = .issuing := by rw [e]; exact (h.wave.issuing m hm).2
    have hw : s2.waves.head? = some w := by rw [ho.waves, begun_waves]; exact h.wave.first
    obtain ⟨a1, a2⟩ := advance_thr (ends || u.e) s2 hw m hm hp
    rw [e] at a1 a2
    rcases (hset2.threads m).pc with e | e
    · rw [e, a1]; rfl
    · rw [e, a2]; rfl
  · have k1 : State.SameRest s s2 := (begun_rest u.bytes w s).trans ho.rest (inImage_iff (begun_imgs _ _ _)) (begun_canon _ _ _)
    exact k1.trans hset.rest (inImage_iff (by rw [ho.threads]; exact begun_imgs _ _ _)) (fun hc => ho.canon (begun_canon _ _ _ hc))

theorem begun_holdsAll (n : Nat) (w : Wave) (s : State) (k : Nat) : (begun n w s).holdsAll w.members k = true ↔ s.Whole w k := by
  rw [holdsAll_whole]
  unfold State.Whole
  rw [begun_threads]
  constructor
  · intro h t ht e hp
    have := h _ (List.mem_map_of_mem ht) (by split <;> exact e) (by split <;> exact hp)
    have e2 : (if w.members.contains t.uid then { t with npc := t.pc + BitVec.ofNat 64 n } else t).uid = t.uid := by split <;> rfl
    rw [e2] at this; exact this
  · intro h t ht e hp
    obtain ⟨x, hx, rfl⟩ := List.mem_map.1 ht
    have e1 : (if w.members.contains x.uid then { x with npc := x.pc + BitVec.ofNat 64 n } else x).team = x.team := by split <;> rfl
    have e2 : (if w.members.contains x.uid then { x with npc := x.pc + BitVec.ofNat 64 n } else x).phase = x.phase := by split <;> rfl
    have e3 : (if w.members.contains x.uid then { x with npc := x.pc + BitVec.ofNat 64 n } else x).uid = x.uid := by split <;> rfl
    rw [e3]; exact h x hx (e1 ▸ e) (e2 ▸ hp)
theorem begun_det (n : Nat) (w : Wave) (s : State) (k : Nat) : (begun n w s).det k = s.det k := by
  unfold State.det State.gr
  rw [begun_tm, begun_grids]
theorem begun_writers (n : Nat) (w : Wave) (s : State) (h : s.Issues w) (k : Nat) : writersOf (begun n w s) w.members k = writersOf s w.members k := by
  have ht : ∀ m, ((begun n w s).thr m).team = (s.thr m).team ∧ ((begun n w s).thr m).tid = (s.thr m).tid := by
    intro m; obtain ⟨p, e⟩ := begun_thr_eq n w s h m; rw [e]; exact ⟨rfl, rfl⟩
  unfold writersOf
  simp only [ht]
theorem begun_teamsIn (n : Nat) (w : Wave) (s : State) (h : s.Issues w) (us : List Nat) (k : Nat) : k ∈ teamsIn (begun n w s) us ↔ ∃ u ∈ us, (s.thr u).team = k := by
  rw [(teamsIn_spec _ us).2]
  have ht : ∀ m, ((begun n w s).thr m).team = (s.thr m).team := by
    intro m; obtain ⟨p, e⟩ := begun_thr_eq n w s h m; rw [e]; rfl
  simp only [ht]

/-- A TEAM-SCOPE WRITE on a ready wave, none of whose writes is partial in a DET launch. -/
theorem issue_teamWrite {s : State} {w : Wave} {u : Use} (h : s.Ready w u.g u.names) (hv : u.hv = fun _ _ => []) (hm : s.MayWrite w u.g) (f : Bool → List Nat → Team → Team)
    (hf : ∀ b l t, (f b l t).uid = t.uid ∧ (f b l t).grid = t.grid) {P : Nat → Team → Team → Prop}
    (hP : ∀ k, s.ActiveTeam w u.g k → ∀ full : Bool, (full = true ↔ s.Whole w k) → ∀ b, Team.SameBut [] (f full (writersOf s w.members k) (s.tm k)) b → P k (s.tm k) b) :
    ∃ t, issue u false (teamWrite f) s = .next t ∧ ActsTeams s t w u.g u.bytes P := by
  refine issue_teams h hv false (teamWrite f) (fun us hn hus _ => ?_)
  have hact : ∀ k, k ∈ teamsIn (begun u.bytes w s) us ↔ s.ActiveTeam w u.g k := by
    intro k; rw [begun_teamsIn _ _ _ h.wave]; unfold State.ActiveTeam; simp only [hus]
  obtain ⟨ho, hk⟩ := teamWrite_fold f us (begun u.bytes w s) (w := w) (by rw [begun_waves]; exact h.wave.first) hf
    (fun k hk => by
      obtain ⟨v, hv, rfl⟩ := (hact k).1 hk
      rw [begun_det, begun_holdsAll]; exact hm v hv)
    (fun k hk => by
      obtain ⟨v, hv, rfl⟩ := (hact k).1 hk
      rw [begun_teams]; exact h.wave.teamed v hv.1)
  refine ⟨ho, fun k hk' b hb => ?_, fun k hk' => ?_⟩
  · rw [hk k, if_pos ((hact k).2 hk'), begun_writers _ _ _ h.wave, begun_tm] at hb
    exact hP k hk' _ (begun_holdsAll _ _ _ _) b hb
  · rw [hk k, if_neg (fun hc => hk' ((hact k).1 hc)), begun_tm]


/-! ### Recording a write (R156) -/

theorem nth_setNth {α : Type} (d : α) (l : List α) (n : Nat) (x : α) (k : Nat) : nth d (setNth d l n x) k = if k = n then x else nth d l k := by
  induction l generalizing n k with
  | nil =>
    induction n generalizing k with
    | zero => cases k <;> simp [setNth, nth]
    | succ n ih =>
      cases k with
      | zero => simp [setNth, nth]
      | succ k => have := ih k; simp only [nth, List.getD_eq_getElem?_getD] at this ⊢; simpa [setNth] using this
  | cons y l ih =>
    cases n with
    | zero => cases k <;> simp [setNth, nth]
    | succ n =>
      cases k with
      | zero => simp [setNth, nth]
      | succ k => have := ih n k; simp only [nth, List.getD_eq_getElem?_getD] at this ⊢; simpa [setNth] using this
theorem setWriters_lastWriters (t : Team) (r q : TeamReg) (w : List Nat) : (t.setWriters r w).lastWriters q = if q = r then w else t.lastWriters q := by
  cases r <;> cases q <;> simp only [Team.setWriters, Team.lastWriters, nth_setNth, TeamReg.s.injEq, TeamReg.h.injEq, TeamReg.c.injEq, TeamReg.special.injEq, reduceCtorEq, if_false]
/-- The fields of a team that recording a write leaves alone. -/
theorem noteWrite_fields (t : Team) (full differs : Bool) (w : List Nat) (r : TeamReg) :
    let t' := t.noteWrite full differs w r
    t' = { t with teamstat := t'.teamstat, sLast := t'.sLast, hLast := t'.hLast, cLast := t'.cLast, tLast := t'.tLast } := by
  cases r <;> rfl
theorem noteWrite_teamstat (t : Team) (full differs : Bool) (w : List Nat) (r : TeamReg) :
    (t.noteWrite full differs w r).teamstat = if full = false ∧ t.lastWriters r ≠ w ∧ differs = true then t.teamstat ||| 1 else t.teamstat := by
  have : (t.noteWrite full differs w r).teamstat = if (!full && t.lastWriters r != w && differs) = true then t.teamstat ||| 1 else t.teamstat := by
    unfold Team.noteWrite; cases r <;> rfl
  rw [this]
  by_cases h : full = false ∧ t.lastWriters r ≠ w ∧ differs = true
  · rw [if_pos h, if_pos (by simp [h])]
  · rw [if_neg h, if_neg (by simpa [and_assoc] using h)]
theorem noteWrite_lastWriters (t : Team) (full differs : Bool) (w : List Nat) (r q : TeamReg) :
    (t.noteWrite full differs w r).lastWriters q = if q = r then w else t.lastWriters q := by
  unfold Team.noteWrite
  rw [setWriters_lastWriters]
  split
  · rfl
  · cases q <;> rfl
/-- A write recorded for a team, then other fields of the team written, then what goes on by itself. -/
theorem recorded_of {s : State} {w : Wave} {r : TeamReg} {k : Nat} {full differs : Bool} {a c b : Team} (hfull : full = true ↔ s.Whole w k) {D : Prop} (hD : differs = true ↔ D)
    (hw : ∀ q, c.lastWriters q = (a.noteWrite full differs (writersOf s w.members k) r).lastWriters q) (ht : c.teamstat = (a.noteWrite full differs (writersOf s w.members k) r).teamstat)
    (hbw : b.lastWriters r = c.lastWriters r) (hbt : b.teamstat = c.teamstat) : s.Recorded w r D k a b := by
  refine ⟨?_, fun h1 h2 h3 => ?_, fun h => ?_⟩
  · rw [hbw, hw, noteWrite_lastWriters, if_pos rfl]
  · rw [hbt, ht, noteWrite_teamstat, if_pos]
    exact ⟨by simpa [← hfull] using h1, h2, hD.2 h3⟩
  · rw [hbt, ht, noteWrite_teamstat, if_neg]
    rintro ⟨h1, h2, h3⟩
    rcases h with h | h | h
    · rw [← hfull, h1] at h; exact absurd h (by simp)
    · exact h2 h
    · exact h (hD.1 h3)
theorem ws_fields (a : Team) (full : Bool) (w : List Nat) (d : Nat) (v : Word) :
    (a.ws full w d v).uid = a.uid ∧ (a.ws full w d v).grid = a.grid := by
  unfold Team.ws Team.noteWrite Team.setWriters; exact ⟨rfl, rfl⟩
theorem ws_rs (a : Team) (full : Bool) (w : List Nat) (d : Nat) (v : Word) (k : Nat) : (a.ws full w d v).rs k = if k = d then v else a.rs k := by
  have : (a.ws full w d v).rs k = nth 0 (setNth 0 a.s d v) k := by unfold Team.ws Team.rs Team.noteWrite Team.setWriters; rfl
  rw [this, nth_setNth]; rfl
theorem ws_mark (a : Team) (full : Bool) (w : List Nat) (d : Nat) (v : Word) (k : Nat) : k ∈ (a.ws full w d v).sPoison ↔ k ∈ a.sPoison ∧ k ≠ d := by
  have : (a.ws full w d v).sPoison = a.sPoison.filter (· ≠ d) := by unfold Team.ws Team.noteWrite Team.setWriters; rfl
  rw [this]; simp
theorem ws_lastWriters (a : Team) (full : Bool) (w : List Nat) (d : Nat) (v : Word) (q : TeamReg) :
    (a.ws full w d v).lastWriters q = (a.noteWrite full (a.rs d != v) w (.s d)).lastWriters q := by
  cases q <;> rfl
theorem ws_same (a : Team) (full : Bool) (w : List Nat) (d : Nat) (v : Word) : Team.SameBut [d] { a with teamstat := (a.ws full w d v).teamstat } (a.ws full w d v) := by
  refine ⟨rfl, rfl, rfl, rfl, fun k hk => ?_, fun k hk => ?_, fun r hr => ?_, rfl, rfl, rfl, rfl, rfl, rfl, rfl, rfl, rfl, rfl, rfl, rfl, rfl, rfl, rfl⟩
  · rw [ws_rs, if_neg (by simpa using hk)]; rfl
  · rw [ws_mark]; exact ⟨fun h => h.1, fun h => ⟨h, by simpa using hk⟩⟩
  · rw [ws_lastWriters, noteWrite_lastWriters, if_neg (hr d (by simp))]; cases r <;> rfl
/-- A SCALAR WRITE, recorded under R156. -/
theorem setsS_of {s : State} {w : Wave} {d k : Nat} {x : Team → Word} {v : Word} {full : Bool} {a b : Team} (hfull : full = true ↔ s.Whole w k)
    (hx : v = x a) (hb : Team.SameBut [] (a.ws full (writersOf s w.members k) d v) b) : s.SetsS w d x k a b := by
  subst hx
  refine ⟨?_, ?_, ?_, ?_⟩
  · rw [hb.rs d (by simp), ws_rs, if_pos rfl]
  · rw [hb.mark d (by simp), ws_mark]; simp
  · refine recorded_of (c := a.ws full (writersOf s w.members k) d (x a)) (differs := a.rs d != x a) hfull (by simp) (fun q => ws_lastWriters _ _ _ _ _ _) rfl (hb.writers _ (by simp)) hb.teamstat
  · have := (ws_same a full (writersOf s w.members k) d (x a)).trans (hb.weaken (by simp))
    rw [hb.teamstat]; exact this
/-- A pair written. -/
theorem setsSPair_of {a b : Team} {full : Bool} {w : List Nat} {d : Nat} {v : Dword} (hb : Team.SameBut [] (a.wspair full w d v) b) :
    b.rspair d = v ∧ Team.SameBut [d, d + 1] { a with teamstat := b.teamstat } b := by
  unfold Team.wspair at hb
  refine ⟨?_, ?_⟩
  · rw [Team.rspair, hb.rs d (by simp), hb.rs (d + 1) (by simp), ws_rs, ws_rs, ws_rs, if_neg (by omega), if_pos rfl, if_pos rfl]
    exact pairOf_words v
  · have h1 := ws_same a full w d (lowWord v)
    have h2 := ws_same (a.ws full w d (lowWord v)) full w (d + 1) (highWord v)
    have h3 : Team.SameBut [d] { a with teamstat := b.teamstat } { (a.ws full w d (lowWord v)) with teamstat := b.teamstat } :=
      ⟨h1.uid, h1.grid, h1.id, h1.size, h1.rs, h1.mark, fun r hr => by have := h1.writers r hr; cases r <;> exact this, h1.h, h1.c, h1.mode, rfl, h1.lease, h1.view, h1.frame, h1.tcut, h1.near, h1.binstat, h1.scratch, h1.scratchPoison, h1.flagWord, h1.pendS, h1.pendH⟩
    have h4 := (h2.trans (hb.weaken (by simp)))
    rw [← hb.teamstat] at h4
    exact (h3.weaken (by simp)).trans (h4.weaken (by simp))


/-! ### Values from the lowest-lane thread (R203) -/

/-- The thread of a list that supplies the value for a team: the first of that team. -/
def supplier (s : State) (us : List Nat) (k : Nat) : Nat := (us.filter (fun u => (s.thr u).team == k)).headD 0
theorem teamsIn_one (s : State) (k : Nat) (us : List Nat) (h : ∀ u ∈ us, (s.thr u).team = k) (hne : us ≠ []) : teamsIn s us = [k] := by
  obtain ⟨hn, hm⟩ := teamsIn_spec s us
  have h1 : ∀ j ∈ teamsIn s us, j = k := by
    intro j hj; obtain ⟨u, hu, e⟩ := (hm j).1 hj; rw [← e, h u hu]
  have h2 : k ∈ teamsIn s us := by
    obtain ⟨u, us', rfl⟩ := List.exists_cons_of_ne_nil hne
    exact (hm k).2 ⟨u, List.mem_cons_self, h u List.mem_cons_self⟩
  match ht : teamsIn s us with
  | [] => rw [ht] at h2; simp at h2
  | [j] => rw [ht] at h1; rw [h1 j (by simp)]
  | i :: j :: l =>
    rw [ht] at h1 hn
    have := h1 i (by simp); have := h1 j (by simp); subst_vars
    simp at hn
theorem teamWriteFrom_fold (f : Thread → Bool → List Nat → Team → Team) (us : List Nat) (s : State) {w : Wave} (hw : s.waves.head? = some w)
    (hf : ∀ x b l t, (f x b l t).uid = t.uid ∧ (f x b l t).grid = t.grid)
    (hm : ∀ k ∈ teamsIn s us, s.holdsAll w.members k = true ∨ s.det k = false) (he : ∀ k ∈ teamsIn s us, ∃ t ∈ s.teams, t.uid = k) :
    OnlyTeams s (teamWriteFrom f us s) ∧ ∀ k, (teamWriteFrom f us s).tm k =
      if k ∈ teamsIn s us then f (s.thr (supplier s us k)) (s.holdsAll w.members k) (writersOf s w.members k) (s.tm k) else s.tm k := by
  have hmem : ∀ c, OnlyTeams s c → c.members = w.members := by
    intro c hc; simp [State.members, State.wave?, hc.waves, hw]
  have key : ∀ (l : List Nat) (c : State), OnlyTeams s c → (∀ k, (c.tm k).grid = (s.tm k).grid) → (∀ k ∈ l, k ∈ teamsIn s us) →
      (∀ k ∈ l, ∃ t ∈ c.teams, t.uid = k) →
      l.foldl (fun s tm =>
        let mine := us.filter (fun u => (s.thr u).team == tm)
        match mine with
        | [] => s
        | u :: _ => teamWrite (f (s.thr u)) mine s) c =
      l.foldl (fun c u => c.modTeam u ((fun _ u => f (s.thr (supplier s us u)) (s.holdsAll w.members u) (writersOf s w.members u)) c u)) c := by
    intro l
    induction l with
    | nil => intros; rfl
    | cons k l ih =>
      intro c hc hg hl he
      simp only [List.foldl_cons]
      have ht : ∀ u, (c.thr u) = s.thr u := hc.thr
      obtain ⟨v, hv, hvk⟩ := ((teamsIn_spec s us).2 k).1 (hl k List.mem_cons_self)
      simp only [ht]
      have hne : us.filter (fun u => (s.thr u).team == k) ≠ [] := by
        intro h; have := List.filter_eq_nil_iff.1 h v hv; simp [hvk] at this
      obtain ⟨u, rest, hur⟩ := List.exists_cons_of_ne_nil hne
      have hsup : supplier s us k = u := by unfold supplier; rw [hur]; rfl
      rw [hur]
      dsimp only
      have hall : ∀ x ∈ u :: rest, (c.thr x).team = k := by
        intro x hx; rw [← hur] at hx; rw [ht]; simpa using (List.mem_filter.1 hx).2
      have hone := teamsIn_one c k (u :: rest) hall (by simp)
      have hstep : teamWrite (f (s.thr u)) (u :: rest) c = c.modTeam k (f (s.thr u) (s.holdsAll w.members k) (writersOf s w.members k)) := by
        unfold teamWrite
        rw [hone, hmem c hc]
        simp only [List.foldl_cons, List.foldl_nil]
        have h1 : c.holdsAll w.members k = s.holdsAll w.members k := by unfold State.holdsAll State.liveOf State.threadsOf; rw [hc.threads]
        have h2 : c.det k = s.det k := by unfold State.det State.gr; rw [hg k, hc]
        have h4 : writersOf c w.members k = writersOf s w.members k := by unfold writersOf; simp only [hc.thr]
        have h3 : (!c.holdsAll w.members k && c.det k) = false := by
          rw [h1, h2]; rcases hm k (hl k List.mem_cons_self) with h | h <;> simp [h]
        rw [h1] at h3
        simp only [h1, h4, h3, Bool.false_eq_true, if_false]
      rw [hstep, hsup]
      refine ih _ (hc.trans (.modTeam _ _ _)) ?_ (fun j hj => hl j (List.mem_cons_of_mem _ hj)) (fun j hj => modTeam_exists (fun t => (hf _ _ _ t).1) (he j (List.mem_cons_of_mem _ hj)))
      intro j
      rw [modTeam_tm (he k List.mem_cons_self) (fun t => (hf _ _ _ t).1)]
      split
      · rename_i e; rw [(hf _ _ _ _).2, e, hg]
      · exact hg j
  have e := key (teamsIn s us) s (.refl s) (fun _ => rfl) (fun _ h => h) he
  have e' : teamWriteFrom f us s = (teamsIn s us).foldl (fun c u => c.modTeam u ((fun _ u => f (s.thr (supplier s us u)) (s.holdsAll w.members u) (writersOf s w.members u)) c u)) s := e
  rw [e']
  exact fold_tm (fun _ u => f (s.thr (supplier s us u)) (s.holdsAll w.members u) (writersOf s w.members u)) (fun _ u t => hf _ _ _ t) (fun _ _ _ _ _ => rfl) _ (teamsIn_spec s us).1 s he

/-- A TEAM-SCOPE WRITE FROM A PER-THREAD OPERAND, on a ready wave. -/
theorem issue_teamWriteFrom {s : State} {w : Wave} {u : Use} (h : s.Ready w u.g u.names) (hv : u.hv = fun _ _ => []) (hm : s.MayWrite w u.g) (f : Thread → Bool → List Nat → Team → Team)
    (hf : ∀ x b l t, (f x b l t).uid = t.uid ∧ (f x b l t).grid = t.grid) (hn : ∀ t n, f (t.goesTo n) = f t) {P : Nat → Team → Team → Prop}
    (hP : ∀ k v, s.Supplies w u.g k v → ∀ full : Bool, (full = true ↔ s.Whole w k) → ∀ b, Team.SameBut [] (f (s.thr v) full (writersOf s w.members k) (s.tm k)) b → P k (s.tm k) b) :
    ∃ t, issue u false (teamWriteFrom f) s = .next t ∧ ActsTeams s t w u.g u.bytes P := by
  refine issue_teams h hv false (teamWriteFrom f) (fun us hnd hus hsort => ?_)
  have hact : ∀ k, k ∈ teamsIn (begun u.bytes w s) us ↔ s.ActiveTeam w u.g k := by
    intro k; rw [begun_teamsIn _ _ _ h.wave]; unfold State.ActiveTeam; simp only [hus]
  have hteam : ∀ m, ((begun u.bytes w s).thr m).team = (s.thr m).team := by
    intro m; obtain ⟨p, e⟩ := begun_thr_eq u.bytes w s h.wave m; rw [e]; rfl
  obtain ⟨ho, hk⟩ := teamWriteFrom_fold f us (begun u.bytes w s) (w := w) (by rw [begun_waves]; exact h.wave.first) hf
    (fun k hk => by
      obtain ⟨v, hv, rfl⟩ := (hact k).1 hk
      rw [begun_det, begun_holdsAll]; exact hm v hv)
    (fun k hk => by
      obtain ⟨v, hv, rfl⟩ := (hact k).1 hk
      rw [begun_teams]; exact h.wave.teamed v hv.1)
  refine ⟨ho, fun k hk' b hb => ?_, fun k hk' => ?_⟩
  · rw [hk k, if_pos ((hact k).2 hk'), begun_writers _ _ _ h.wave, begun_tm] at hb
    obtain ⟨p, e⟩ := begun_thr_eq u.bytes w s h.wave (supplier (begun u.bytes w s) us k)
    rw [e, hn] at hb
    refine hP k _ ?_ _ (begun_holdsAll _ _ _ _) b hb
    obtain ⟨v, hv, hvk⟩ := hk'
    have hvu := (hus v).2 hv
    unfold supplier
    simp only [hteam]
    have hmemv : v ∈ us.filter (fun u => (s.thr u).team == k) := List.mem_filter.2 ⟨hvu, by simp [hvk]⟩
    have hsf : (us.filter (fun u => (s.thr u).team == k)).Pairwise (fun a b => (s.thr a).lane ≤ (s.thr b).lane) := hsort.filter _
    have hin : ∀ x, x ∈ us.filter (fun u => (s.thr u).team == k) ↔ s.Active w u.g x ∧ (s.thr x).team = k := by
      intro x; rw [List.mem_filter, hus]; simp
    match hl : us.filter (fun u => (s.thr u).team == k) with
    | [] => rw [hl] at hmemv; simp at hmemv
    | y :: l =>
      rw [hl] at hsf hin
      simp only [List.headD_cons]
      obtain ⟨hy1, hy2⟩ := (hin y).1 List.mem_cons_self
      refine ⟨hy1, hy2, fun z hz hzk => ?_⟩
      rcases List.mem_cons.1 ((hin z).2 ⟨hz, hzk⟩) with rfl | hz'
      · exact le_refl _
      · exact (List.pairwise_cons.1 hsf).1 z hz'
  · rw [hk k, if_neg (fun hc => hk' ((hact k).1 hc)), begun_tm]

end Sys2Proof.Machine
end

