-- ==== Sys2Proof/Laws/Words.lean ====
section
/-! SUPPORT. The integer arithmetic of the model said on words: exact integers of a type, wrapping and saturating results, counts and fields of bits. -/
namespace Sys2Proof.Machine

theorem intOf_i32 (a : Word) : intOf .i32 a.toNat = a.toInt := by
  have h : a.toNat % 2 ^ 32 = a.toNat := Nat.mod_eq_of_lt a.isLt
  have := a.isLt
  simp only [intOf, ElemType.width, ElemType.signed, Bool.true_and, decide_eq_true_eq, h, BitVec.toInt_eq_toNat_cond]
  split <;> split <;> omega
theorem intOf_n32 (a : Word) : intOf .n32 a.toNat = a.toNat := by
  have h : a.toNat % 2 ^ 32 = a.toNat := Nat.mod_eq_of_lt a.isLt
  simp only [intOf, ElemType.width, ElemType.signed, Bool.false_and, Bool.false_eq_true, if_false, h]
theorem intOf_read {ty : ElemType} (h : ty = .i32 ∨ ty = .n32) (a : Word) : intOf ty a.toNat = readWord ty a := by
  rcases h with rfl | rfl
  · exact intOf_i32 a
  · exact intOf_n32 a
theorem ofNat_emod (z : Int) : BitVec.ofNat 32 ((z % (2 ^ 32 : Nat)).toNat) = BitVec.ofInt 32 z := by
  apply BitVec.eq_of_toNat_eq
  rw [BitVec.toNat_ofNat, BitVec.toNat_ofInt]
  have : 0 ≤ z % (2 ^ 32 : Nat) := Int.emod_nonneg _ (by norm_num)
  have h2 : z % (2 ^ 32 : Nat) < (2 ^ 32 : Nat) := Int.emod_lt_of_pos _ (by norm_num)
  rw [Nat.mod_eq_of_lt]; omega
theorem intResult_fit {ty : ElemType} (h : ty = .i32 ∨ ty = .n32) (sat : Bool) (z : Int) : BitVec.ofNat 32 (intResult ty sat z) = fitWord ty sat z := by
  have h1 : intMin .i32 = -2 ^ 31 := rfl
  have h2 : intMax .i32 = 2 ^ 31 - 1 := rfl
  have h3 : intMin .n32 = 0 := rfl
  have h4 : intMax .n32 = 2 ^ 32 - 1 := rfl
  have e1 : ∀ z, BitVec.ofNat 32 (wrapInt .i32 z) = BitVec.ofInt 32 z := ofNat_emod
  have e2 : ∀ z, BitVec.ofNat 32 (wrapInt .n32 z) = BitVec.ofInt 32 z := ofNat_emod
  rcases h with rfl | rfl <;> cases sat <;> simp [intResult, fitWord, e1, e2, clampInt, h1, h2, h3, h4, min_comm]
theorem fit_add (a b : Word) : fitWord .i32 false (a.toInt + b.toInt) = a + b := by simp [fitWord, BitVec.ofInt_add]
theorem fit_sub (a b : Word) : fitWord .i32 false (a.toInt - b.toInt) = a - b := by
  simp [fitWord, Int.sub_eq_add_neg, BitVec.ofInt_add, BitVec.sub_eq_add_neg, BitVec.ofInt_neg]
theorem fit_mul (a b : Word) : fitWord .i32 false (a.toInt * b.toInt) = a * b := by simp [fitWord, BitVec.ofInt_mul]


/-! ### The word functions of the integer instructions -/

theorem popCount_countP (a : Word) : popCount a = BitVec.ofNat 32 ((List.range 32).countP a.getLsbD) := by
  have : ∀ n, onesBelow a n = (List.range n).countP a.getLsbD := by
    intro n; induction n with
    | zero => rfl
    | succ n ih => rw [List.range_succ, List.countP_append, ← ih]; simp [onesBelow]
  rw [popCount, this]
/-- The length of the run of a property from 0 on. -/
theorem takeWhile_range (p : Nat → Bool) (n m : Nat) (hm : m ≤ n) (h1 : ∀ k < m, p k = true) (h2 : m = n ∨ p m = false) : ((List.range n).takeWhile p).length = m := by
  obtain ⟨d, rfl⟩ := Nat.exists_eq_add_of_le hm
  rw [List.range_add, List.takeWhile_append_of_pos (fun k hk => h1 k (List.mem_range.1 hk)), List.length_append, List.length_range]
  cases d with
  | zero => simp
  | succ d =>
    rcases h2 with h2 | h2
    · omega
    · simp [List.range_succ_eq_map, h2]
theorem leadingZeros_takeWhile (a : Word) : leadingZeros a = BitVec.ofNat 32 ((List.range 32).takeWhile (fun k => !a.getMsbD k)).length := by
  unfold leadingZeros bitLen
  by_cases h0 : a.toNat = 0
  · have : a = 0#32 := BitVec.eq_of_toNat_eq (by simpa using h0)
    subst this
    rw [takeWhile_range _ 32 32 (le_refl _) (by simp) (.inl rfl)]
    rfl
  · rw [if_neg h0]
    have hl : a.toNat.log2 < 32 := (Nat.log2_lt h0).2 a.isLt
    rw [takeWhile_range _ 32 (31 - a.toNat.log2) (by omega) ?_ (.inr ?_)]
    · congr 1; omega
    · intro k hk
      rw [BitVec.getMsbD_eq_getLsbD, BitVec.getLsbD, Nat.testBit_lt_two_pow]
      · simp
      · exact lt_of_lt_of_le ((Nat.log2_lt h0).1 (Nat.lt_succ_self _)) (Nat.pow_le_pow_right (by norm_num) (by omega))
    · rw [BitVec.getMsbD_eq_getLsbD, BitVec.getLsbD]
      have e : 32 - 1 - (31 - a.toNat.log2) = a.toNat.log2 := by omega
      rw [e]
      have : a.toNat.testBit a.toNat.log2 = true := by
        rw [Nat.testBit_eq_decide_div_mod_eq, decide_eq_true_eq]
        have h1 := Nat.log2_self_le h0
        have h2 : a.toNat < 2 ^ (a.toNat.log2 + 1) := (Nat.log2_lt h0).1 (Nat.lt_succ_self _)
        have h3 : 1 ≤ a.toNat / 2 ^ a.toNat.log2 := (Nat.one_le_div_iff (by positivity)).2 h1
        have h4 : a.toNat / 2 ^ a.toNat.log2 < 2 := by rw [Nat.div_lt_iff_lt_mul (by positivity)]; rw [pow_succ] at h2; omega
        omega
      rw [this]; simp; omega
theorem intAbs_word (a : Word) : intAbs false a = if a.toInt < 0 then -a else a := by
  rw [intAbs, intResult_fit (.inl rfl)]
  simp only [fitWord, Bool.false_eq_true, if_false]
  split
  · rename_i h
    rw [Int.ofNat_natAbs_of_nonpos (le_of_lt h), BitVec.ofInt_neg, BitVec.ofInt_toInt]
  · rename_i h
    rw [Int.natAbs_of_nonneg (not_lt.1 h), BitVec.ofInt_toInt]
theorem shiftLeft_word (a x : Word) : shiftLeft a x = a <<< x.toNat := by
  unfold shiftLeft; split
  · rfl
  · rw [BitVec.shiftLeft_eq_zero (by omega)]; rfl
theorem shiftRight_word (a x : Word) : shiftRight a x = a >>> x.toNat := by
  unfold shiftRight; split
  · rfl
  · rw [BitVec.ushiftRight_eq_zero (by omega)]; rfl
theorem shiftArith_word (a x : Word) : shiftArith a x = a.sshiftRight x.toNat := by
  unfold shiftArith
  apply BitVec.eq_of_getLsbD_eq; intro i hi
  simp only [BitVec.getLsbD_sshiftRight]
  by_cases h : x.toNat ≤ 31
  · rw [min_eq_left h]
  · rw [min_eq_right (by omega)]
    have h1 : ¬ (x.toNat + i < 32) := by omega
    simp only [h1, if_false]
    by_cases h2 : 31 + i < 32
    · have : i = 0 := by omega
      subst this; simp [BitVec.msb_eq_getLsbD_last]
    · simp [h2]
theorem rotate_word (a x : Word) : rotate a x = a.rotateLeft x.toNat := by
  unfold rotate; simp [BitVec.rotateLeft, BitVec.rotateLeftAux]
theorem intMinOp_word (un : Bool) (a b : Word) : intMinOp un a b = if readWord (if un then .n32 else .i32) a ≤ readWord (if un then .n32 else .i32) b then a else b := by
  cases un <;> simp only [intMinOp, readWord, BitVec.slt, BitVec.ult, if_true, if_false, Bool.false_eq_true, decide_eq_true_eq, reduceCtorEq]
  · by_cases h : a.toInt = b.toInt
    · have := BitVec.eq_of_toInt_eq h; subst this; simp
    · split <;> split <;> first | rfl | (exfalso; omega)
  · by_cases h : a.toNat = b.toNat
    · have := BitVec.eq_of_toNat_eq h; subst this; simp
    · split <;> split <;> first | rfl | (exfalso; omega)
theorem intMaxOp_word (un : Bool) (a b : Word) : intMaxOp un a b = if readWord (if un then .n32 else .i32) a ≤ readWord (if un then .n32 else .i32) b then b else a := by
  cases un <;> simp only [intMaxOp, readWord, BitVec.slt, BitVec.ult, if_true, if_false, Bool.false_eq_true, decide_eq_true_eq, reduceCtorEq]
  · by_cases h : a.toInt = b.toInt
    · have := BitVec.eq_of_toInt_eq h; subst this; simp
    · split <;> split <;> first | rfl | (exfalso; omega)
  · by_cases h : a.toNat = b.toNat
    · have := BitVec.eq_of_toNat_eq h; subst this; simp
    · split <;> split <;> first | rfl | (exfalso; omega)
theorem mulHigh_word (un : Bool) (a b : Word) :
    mulHigh un a b = BitVec.ofInt 32 (readWord (if un then .n32 else .i32) a * readWord (if un then .n32 else .i32) b / 2 ^ 32) := by
  cases un
  · simp [mulHigh, readWord]
  · simp only [mulHigh, readWord, if_true]
    rw [← BitVec.ofInt_natCast]; push_cast; rfl
theorem reverseBits_bit (a : Word) (k : Nat) (hk : k < 32) : (reverseBits a).getLsbD k = a.getLsbD (31 - k) := by
  unfold reverseBits
  rw [BitVec.getLsbD_reverse, BitVec.getMsbD_eq_getLsbD]
  simp [hk]
theorem bitExtract_word (sg : Bool) (a b : Word) : bitExtract sg a b =
    (if b.toNat % 256 ≥ 32 ∨ min (b.toNat / 256 % 256) (32 - b.toNat % 256) = 0 then 0
     else if sg then (a.extractLsb' (b.toNat % 256) (min (b.toNat / 256 % 256) (32 - b.toNat % 256))).signExtend 32
     else (a.extractLsb' (b.toNat % 256) (min (b.toNat / 256 % 256) (32 - b.toNat % 256))).setWidth 32) := by
  have e1 : bitsOf b.toNat 7 0 = b.toNat % 256 := by simp [bitsOf]
  have e2 : bitsOf b.toNat 15 8 = b.toNat / 256 % 256 := by simp [bitsOf, Nat.shiftRight_eq_div_pow]
  unfold bitExtract fieldWidth
  simp only [e1, e2]
  by_cases h : 32 ≤ b.toNat % 256
  · simp [h]
  · simp only [h, if_false, ge_iff_le, false_or]
    generalize min (b.toNat / 256 % 256) (32 - b.toNat % 256) = n
    generalize b.toNat % 256 = pos
    by_cases hn : n = 0
    · simp [hn]
    · simp only [hn, if_false]
      have hx : (a.extractLsb' pos n).toNat = a.toNat / 2 ^ pos % 2 ^ n := by
        rw [BitVec.extractLsb'_toNat, Nat.shiftRight_eq_div_pow]
      cases sg
      · simp only [Bool.false_and, Bool.false_eq_true, if_false]
        apply BitVec.eq_of_toNat_eq
        rw [BitVec.toNat_setWidth, hx, BitVec.toNat_ofNat]
      · simp only [Bool.true_and, if_true, decide_eq_true_eq]
        rw [BitVec.signExtend, BitVec.toInt_eq_toNat_cond, hx]
        have h2 : 2 ^ n = 2 * 2 ^ (n - 1) := by rw [← pow_succ']; congr 1; omega
        by_cases hc : 2 ^ (n - 1) ≤ a.toNat / 2 ^ pos % 2 ^ n
        · rw [if_pos hc, if_neg (by omega)]
        · rw [if_neg hc, if_pos (by omega), BitVec.ofInt_natCast]

end Sys2Proof.Machine
end

