-- ==== Sys2Proof/Tests/Slice0.lean ====
section
/-! SUPPORT. Tests: words of the spec's encodings, terms that WellFormed refuses, small runs of one instruction with results from the spec, and for each statement states and operands that meet its hypotheses. -/
namespace Sys2Proof.Tests
open Sys2Proof Sys2Proof.Machine
set_option Elab.async false

/-! ### States of the tests -/

/-- The state of a program's first instruction: one thread, uid 3, of team 2 in grid 1. -/
def base : State := State.reset.withFetchWord 32 0
/-- Registers of a thread: v8 a global address (MT 00), v10 one of MT 01, v12 one of host memory, their high words 0. -/
def regsOf (k : Nat) : List Word := (List.range 128).map (fun n =>
  if n = 8 then BitVec.ofNat 32 (0x1100 + 16 * k) else if n = 10 then BitVec.ofNat 32 (0x200100 + 16 * k) else if n = 12 then BitVec.ofNat 32 (0x400000 + 16 * k)
  else if n = 9 ∨ n = 11 ∨ n = 13 then 0 else BitVec.ofNat 32 (n * 0x01010101 * k + 7 * k))
/-- A thread of the team. -/
def thread (uid tid : Nat) : Thread :=
  { (base.threads.headD Thread.blank) with uid := uid, tid := tid, lane := tid % 32, slot := 0, v := regsOf (tid + 1), p := if tid % 2 = 0 then 0b10101011#8 else 0b01010101#8 }
/-- Cached translations of three pages of 2 MiB: MT 00, MT 01, and one of the host. -/
def cached : List Tlb := [⟨true, 0, 0, 0xFFF, 0, 0x200000, 0x2001BF, 0x103000⟩, ⟨true, 0, 0, 0xFFF, 0x200000, 0x200000, 0x4005BF, 0x103008⟩, ⟨true, 0, 0, 0xFFF, 0x400000, 0x200000, 0x80000000009BF, 0x103010⟩]
/-- Two threads, uid 3 and 4, in one wave. -/
def two : State :=
  { base with
    threads := [thread 3 0, thread 4 1], nextId := 5
    teams := base.teams.map (fun (t : Team) => { t with size := 2, s := (List.range 64).map (fun n => BitVec.ofNat 32 (n * 0x0301 + 5)) })
    waves := [⟨0, 0, [3, 4], 0⟩], gtick := 10
    mem := { base.mem with tlb := cached } }
def wave2 : Wave := ⟨0, 0, [3, 4], 0⟩
/-- One thread, uid 3. -/
def one : State := { two with threads := [thread 3 0], waves := [⟨0, 0, [3], 0⟩] }
def wave1 : Wave := ⟨0, 0, [3], 0⟩
/-- Each thread, each team, changed. -/
def thm (f : Thread → Thread) (s : State) : State := { s with threads := s.threads.map f }
def tmm (f : Team → Team) (s : State) : State := { s with teams := s.teams.map f }
/-- Registers of every thread take values. -/
def regs (l : List (Nat × Nat)) (s : State) : State := thm (fun t => { t with v := l.foldl (fun v p => v.set p.1 (BitVec.ofNat 32 p.2)) t.v }) s
/-- Bytes of memory. -/
def wr (pa : Nat) (b : List Byte) (s : State) : State := { s with mem := { s.mem with bytes := s.mem.bytes.writeN pa b } }
/-- Lines that L2 holds, last accessed at tick 5. -/
def l2s (pas : List Nat) (s : State) : State := { s with mem := { s.mem with l2 := pas.map (fun pa => (⟨pa / 128, 0, 0, 0, 0, 5, false, none⟩ : L2Line)) } }
/-- A leased copy in L1 of the line at va, bytes b from va on. -/
def l1c (va : Nat) (b : List Byte) (s : State) : State :=
  { s with mem := { s.mem with l1 := ⟨0, 0, 0xFFF, va / 128, some (List.replicate (va % 128) 0 ++ b ++ List.replicate (128 - va % 128 - b.length) 0, 100000, 1, false), [], false, 2, false, 0⟩ :: s.mem.l1 } }
/-- Little-endian fields: pairs of a value and a size. -/
def flat (l : List (Nat × Nat)) : List Byte := l.flatMap (fun p => leBytes p.1 p.2)
/-- An extension word with some of its fields set. -/
def ext (g : Guard := Guard.always) (fn : Nat := 0) (ty : ElemType := .i32) (c : Nat := 0) (sel : Nat := 0) (w2 : Word := 0) (lit : Bool := false) (rnd : Nat := 0) (sat : Bool := false) (cs : Bool := false) : Ext :=
  ⟨g, BitVec.ofNat 8 fn, BitVec.ofNat 7 c, cs, ty, BitVec.ofNat 3 rnd, sat, lit, BitVec.ofNat 3 sel, w2⟩
def sa (d a b : Nat) (bs : Bool := false) : SA := ⟨false, BitVec.ofNat 7 d, BitVec.ofNat 7 a, BitVec.ofNat 7 b, bs⟩
def si (d a imm : Nat) : SI := ⟨false, BitVec.ofNat 7 d, BitVec.ofNat 7 a, BitVec.ofNat 8 imm⟩
def sm (d a off : Nat) : SM := ⟨false, BitVec.ofNat 7 d, BitVec.ofNat 7 a, BitVec.ofNat 8 off⟩
def ss (d a b : Nat) (fn : Nat := 0) : SS := ⟨false, BitVec.ofNat 6 d, BitVec.ofNat 6 a, BitVec.ofNat 6 b, BitVec.ofNat 4 fn⟩
def wa (d a b : Nat) (x : Ext) (bs : Bool := false) : WA := ⟨false, BitVec.ofNat 7 d, BitVec.ofNat 7 a, BitVec.ofNat 7 b, bs, x⟩
def ws (d a b : Nat) (x : Ext) (fn : Nat := 0) : WS := ⟨false, BitVec.ofNat 6 d, BitVec.ofNat 6 a, BitVec.ofNat 6 b, BitVec.ofNat 4 fn, x⟩
def wm (d a off : Nat) (x : Ext) : WM := ⟨false, BitVec.ofNat 7 d, BitVec.ofNat 7 a, BitVec.ofNat 8 off, x⟩
/-- Guard p1. -/
def p1 : Guard := ⟨false, 1⟩

/-! ### Checkers of the hypotheses -/

/-- Wave w issues, and nothing that its threads or teams hold is pending, poisoned or at its limit; each owns its 128 registers. -/
def clear (s : State) (w : Wave) : Bool :=
  s.waves.head? == some w && decide w.members.Nodup &&
  w.members.all (fun u => s.threads.any (fun t => t.uid == u) && (s.thr u).phase == .issuing && s.teams.any (fun k => k.uid == (s.thr u).team) &&
    (s.thr u).pendV.isEmpty && (s.thr u).pendP.isEmpty && (s.thr u).poison.isEmpty && (s.thr u).owned == 128 &&
    decide ((s.thr u).ld < 63) && decide ((s.thr u).st < 63) && decide ((s.thr u).cp < 63) && decide ((s.thr u).tl < 63) &&
    (s.teamOf u).pendS.isEmpty && (s.teamOf u).pendH.isEmpty && (s.teamOf u).sPoison.isEmpty)
/-- Registers of the instruction lie below 128. -/
def Small (n : Names) : Prop := ∀ r ∈ n.rv ++ n.wv, r < 128

theorem issues_of {s : State} {w : Wave} (h : clear s w = true) : s.Issues w := by
  simp only [clear, Bool.and_eq_true, beq_iff_eq, decide_eq_true_eq, List.all_eq_true] at h
  exact ⟨h.1.1, h.1.2, fun u hu => by have := h.2 u hu; simp_all, fun u hu => by have := h.2 u hu; simp_all⟩

theorem ready_of {s : State} {w : Wave} {g : Guard} {n : Names} (h : clear s w = true) (hn : Small n) : s.Ready w g n := by
  refine ⟨issues_of h, fun u hu => ?_⟩
  simp only [clear, Bool.and_eq_true, beq_iff_eq, decide_eq_true_eq, List.all_eq_true, List.isEmpty_iff] at h
  obtain ⟨⟨⟨⟨⟨⟨⟨⟨⟨⟨⟨⟨⟨_, _⟩, _⟩, h1⟩, h2⟩, h3⟩, h4⟩, h5⟩, h6⟩, h7⟩, h8⟩, h9⟩, h10⟩, h11⟩ := h.2 u hu
  constructor <;> simp_all [Small]
  intro _ _
  cases n.cls <;> simp_all [Thread.counter]

/-- The numbers of threads and teams are distinct and below the next one. -/
def numbered (s : State) : Bool :=
  decide (s.threads.map Thread.uid).Nodup && decide (s.teams.map Team.uid).Nodup && s.threads.all (fun t => decide (t.uid < s.nextId)) && s.teams.all (fun t => decide (t.uid < s.nextId))
theorem numbered_of {s : State} (h : numbered s = true) : s.Numbered := by
  simp only [numbered, Bool.and_eq_true, decide_eq_true_eq, List.all_eq_true] at h
  exact ⟨h.1.1.1, h.1.1.2, h.1.2, h.2⟩

/-- Thread u is the one active thread of wave w. -/
def alone (s : State) (w : Wave) (g : Guard) (u : Nat) : Bool := clear s w && numbered s && w.members.filter (fun v => (s.thr v).guard g) == [u]
theorem lone_of {s : State} {w : Wave} {g : Guard} {n : Names} {u : Nat} (h : alone s w g u = true) (hn : Small n) : s.Lone w g n u := by
  simp only [alone, Bool.and_eq_true, beq_iff_eq] at h
  refine ⟨ready_of h.1.1 hn, fun v => ?_, numbered_of h.1.2⟩
  rw [State.Active, ← List.mem_filter (p := fun v => (s.thr v).guard g), h.2, List.mem_singleton]

/-- The place of an access that a cached translation serves. -/
def hit (s : State) (core fn ctx : Nat) (n : Need) (va : Nat) : Option (Nat × Nat × Nat) :=
  if canonical va then match tlbHit core fn ctx va s with
    | some e => match judge n va e.leaf.toNat e.size s with | .ok pa mt leaf => some (pa, mt, leaf) | _ => none
    | none => none
  else none
theorem hits_of {s : State} {core fn ctx va pa mt leaf : Nat} {n : Need} (h : hit s core fn ctx n va = some (pa, mt, leaf)) : s.Hits core fn ctx n va pa mt leaf := by
  unfold hit at h
  split at h
  · split at h
    · split at h <;> simp_all [State.Hits]
    · simp at h
  · simp at h
/-- The places of accesses that pass their checks. -/
def places (s : State) (u : Nat) (n : Need) (store : Bool) (size : Nat) : List Nat → Option (List Source)
  | [] => some []
  | va :: vas => match hit s (s.teamOf u).core (s.ctxOf u).1 (s.ctxOf u).2 n va with
    | some (pa, mt, leaf) =>
      if va % size = 0 ∧ lockedGlobal (s.teamOf u).core (s.ctxOf u).1 (s.ctxOf u).2 store va size s = false ∧ s.isMigrating (s.ctxOf u).1 (s.ctxOf u).2 va = false then
        (places s u n store size vas).map (placeOf va pa mt leaf :: ·)
      else none
    | none => none
theorem places_of {s : State} {u size : Nat} {n : Need} {store : Bool} {vas : List Nat} {ps : List Source} (h : places s u n store size vas = some ps) : s.Places u n store size vas ps := by
  induction vas generalizing ps with
  | nil => simp only [places, Option.some.injEq] at h; subst h; exact .nil
  | cons va vas ih =>
    simp only [places] at h
    split at h
    · rename_i pa mt leaf he
      split at h
      · rename_i hc
        cases hp : places s u n store size vas with
        | none => simp [hp] at h
        | some qs =>
          simp only [hp, Option.map_some, Option.some.injEq] at h
          subst h
          exact .cons ⟨hc.1, ⟨pa, mt, leaf, hits_of he, rfl⟩, hc.2.1, fun _ => hc.2.2⟩ (ih hp)
      · simp at h
    · simp at h

/-! ### Issue -/

theorem two_clear : clear two wave2 = true := by decide +kernel
theorem one_alone : alone one wave1 Guard.always 3 = true := by decide +kernel
/-- Wave [3, 4] is ready for every instruction, under every guard. -/
theorem witness_ready (g : Guard) (n : Names) (hn : Small n) : two.Ready wave2 g n := ready_of two_clear hn
/-- Thread 3 alone issues. -/
theorem witness_lone (n : Names) (hn : Small n) : one.Lone wave1 Guard.always n 3 := lone_of one_alone hn
/-- Under p1 thread 3 alone is active in the wave of two. -/
theorem witness_guarded (n : Names) (hn : Small n) : two.Lone wave2 p1 n 3 := lone_of (by decide +kernel) hn
theorem witness_loads_place : one.Places 3 .read false 4 [0x1110, 0x1114] [.glob 0x1110 0x201110 0, .glob 0x1114 0x201114 0] := places_of (by decide +kernel)

/-! ### Words of the spec's encodings: the fields of Tables 9.1 and 9.2 at their places, the majors and FN values of Tables 9.4 to 9.7 -/

/-- Guard p2. -/
def p2 : Guard := ⟨false, 2⟩
/-- Each list of words decodes to the instruction beside it. -/
def decodes (l : List (List Word × Instr)) : Bool := l.all (fun p => decodeWords p.1 == .instr p.2)
/-- 32-bit forms of majors 0x00 to 0x1F. -/
theorem test_words_shortA : decodes [
    ([0x00000000], .nop (sa 0 0 0)),
    ([0x00490037], .mov (sa 18 0 27 true)),
    ([0x0089140C], .movi (si 18 20 12)),
    ([0x0109140C], .iadd (si 18 20 12)),
    ([0x0149140C], .isub (si 18 20 12)),
    ([0x0189140C], .imul (si 18 20 12)),
    ([0x01C9140C], .imulh (si 18 20 12)),
    ([0x0249140C], .imin (si 18 20 12)),
    ([0x0289140C], .imax (si 18 20 12)),
    ([0x02C91400], .iabs (sa 18 20 0)),
    ([0x0309140C], .and (si 18 20 12)),
    ([0x0349140C], .or (si 18 20 12)),
    ([0x0389140C], .xor (si 18 20 12)),
    ([0x03C91400], .not (sa 18 20 0)),
    ([0x0409140C], .shl (si 18 20 12)),
    ([0x0449140C], .shr (si 18 20 12)),
    ([0x0489140C], .sar (si 18 20 12)),
    ([0x04C9140C], .rot (si 18 20 12)),
    ([0x05091400], .popc (sa 18 20 0)),
    ([0x05491400], .clz (sa 18 20 0)),
    ([0x05891400], .brev (sa 18 20 0)),
    ([0x07091437], .add64 (sa 18 20 27 true)),
    ([0x07491437], .sub64 (sa 18 20 27 true))] = true := by decide +kernel
/-- 32-bit forms of majors 0x20 to 0x3F. -/
theorem test_words_shortB : decodes [
    ([0x08125090], .uadd (ss 18 20 9)),
    ([0x08525090], .usub (ss 18 20 9)),
    ([0x08925090], .umul (ss 18 20 9)),
    ([0x08D25093], .ulog (ss 18 20 9 3)),
    ([0x09125093], .ushift (ss 18 20 9 3)),
    ([0x09525000], .umov (ss 18 20 0)),
    ([0x09C65160], .uadd64 (ss 6 20 22)),
    ([0x0A49000C], .uconst (si 18 0 12)),
    ([0x0A850003], .plog (ss 5 0 0 3)),
    ([0x0AC9000C], .sprd (si 18 0 12)),
    ([0x0B001411], .spwr (si 0 20 17)),
    ([0x0C2AFFFD], .br ⟨false, Guard.ofCode 10, 0x2FFFD⟩),
    ([0x0C6AFFFD], .bru ⟨false, Guard.ofCode 10, 0x2FFFD⟩),
    ([0x0C801400], .jmp (sa 0 20 0)),
    ([0x0CEAFFFD], .call ⟨false, Guard.ofCode 10, 0x2FFFD⟩),
    ([0x0D001400], .ret (sa 0 20 0)),
    ([0x0D400000], .exit (sa 0 0 0)),
    ([0x0D800000], .yield (sa 0 0 0)),
    ([0x0E40140C], .regroup (si 0 20 12)),
    ([0x0E850000], .claim (ss 5 0 0)),
    ([0x0E800001], .claimw (ss 0 0 0 1)),
    ([0x0E800002], .give (ss 0 0 0 2)),
    ([0x0EC5FC9F], .waitc ⟨false, 5, 63, 9, 15⟩),
    ([0x0F001400], .sleept (sa 0 20 0)),
    ([0x0F450000], .barSync (ss 5 0 0)),
    ([0x0F450001], .barArrive (ss 5 0 0 1)),
    ([0x0F450002], .barWait (ss 5 0 0 2)),
    ([0x0F850000], .trapSvc (ss 5 0 0)),
    ([0x0F850001], .trapBrk (ss 5 0 0 1))] = true := by decide +kernel
/-- 32-bit forms of majors 0x40 to 0x5F. -/
theorem test_words_shortC : decodes [
    ([0x100914D4], .ld (sm 18 20 212)),
    ([0x104914D4], .st (sm 18 20 212)),
    ([0x108914D4], .lds (sm 18 20 212)),
    ([0x10C914D4], .sts (sm 18 20 212)),
    ([0x110914D4], .ldu (sm 18 20 212)),
    ([0x114914D4], .stu (sm 18 20 212)),
    ([0x120914D4], .gld (sm 18 20 212)),
    ([0x124914D4], .gst (sm 18 20 212)),
    ([0x128014D4], .pref (sm 0 20 212)),
    ([0x13C00000], .aflush (sa 0 0 0)),
    ([0x14000000], .fenceRel (ss 0 0 0)),
    ([0x14000001], .fenceAcq (ss 0 0 0 1)),
    ([0x14000002], .fenceAr (ss 0 0 0 2)),
    ([0x144014D4], .invl1 (sm 0 20 212)),
    ([0x148014D4], .pin (sm 0 20 212)),
    ([0x14C014D4], .unpin (sm 0 20 212)),
    ([0x15031400], .hbind (sa 6 20 0)),
    ([0x15C90000], .cpyq (sa 18 0 0))] = true := by decide +kernel
/-- 32-bit forms of majors 0x60 to 0x7F. -/
theorem test_words_shortD : decodes [
    ([0x18091437], .fadd (sa 18 20 27 true)),
    ([0x18491437], .fsub (sa 18 20 27 true)),
    ([0x18891437], .fmul (sa 18 20 27 true)),
    ([0x19091437], .fminmax (sa 18 20 27 true)),
    ([0x19891400], .fspc (sa 18 20 0)),
    ([0x19C91400], .fclass (sa 18 20 0)),
    ([0x1E800000], .keys (sa 0 0 0)),
    ([0x1EC9140C], .ecol (si 18 20 12))] = true := by decide +kernel
/-- 96-bit forms of majors 0x00 to 0x1F. -/
theorem test_words_wideA : decodes [
    ([0x40000000, 0x20000000, 0x00000000], .nopWide (wa 0 0 0 (ext (g := p2)))),
    ([0x40428000, 0x20000008, 0x00000007], .movWide (wa 5 0 0 (ext (g := p2) (w2 := 7) (lit := true)))),
    ([0x40828000, 0x20000008, 0x00000007], .moviWide (wa 5 0 0 (ext (g := p2) (w2 := 7) (lit := true)))),
    ([0x41091400, 0x20000018, 0x00000007], .iaddWide (wa 18 20 0 (ext (g := p2) (w2 := 7) (lit := true) (sat := true)))),
    ([0x41491400, 0x20000018, 0x00000007], .isubWide (wa 18 20 0 (ext (g := p2) (w2 := 7) (lit := true) (sat := true)))),
    ([0x41891400, 0x20000018, 0x00000007], .imulWide (wa 18 20 0 (ext (g := p2) (w2 := 7) (lit := true) (sat := true)))),
    ([0x41C91400, 0x20000008, 0x00000007], .imulhWide (wa 18 20 0 (ext (g := p2) (w2 := 7) (lit := true)))),
    ([0x42091400, 0x20036018, 0x00000007], .imad (wa 18 20 0 (ext (g := p2) (c := 27) (w2 := 7) (lit := true) (sat := true)))),
    ([0x42491400, 0x20000008, 0x00000007], .iminWide (wa 18 20 0 (ext (g := p2) (w2 := 7) (lit := true)))),
    ([0x42891400, 0x20000008, 0x00000007], .imaxWide (wa 18 20 0 (ext (g := p2) (w2 := 7) (lit := true)))),
    ([0x42C91400, 0x20000010, 0x00000000], .iabsWide (wa 18 20 0 (ext (g := p2) (sat := true)))),
    ([0x43091400, 0x20000008, 0x00000007], .andWide (wa 18 20 0 (ext (g := p2) (w2 := 7) (lit := true)))),
    ([0x43491400, 0x20000008, 0x00000007], .orWide (wa 18 20 0 (ext (g := p2) (w2 := 7) (lit := true)))),
    ([0x43891400, 0x20000008, 0x00000007], .xorWide (wa 18 20 0 (ext (g := p2) (w2 := 7) (lit := true)))),
    ([0x43C91400, 0x20000000, 0x00000000], .notWide (wa 18 20 0 (ext (g := p2)))),
    ([0x44091400, 0x20000008, 0x00000007], .shlWide (wa 18 20 0 (ext (g := p2) (w2 := 7) (lit := true)))),
    ([0x44491400, 0x20000008, 0x00000007], .shrWide (wa 18 20 0 (ext (g := p2) (w2 := 7) (lit := true)))),
    ([0x44891400, 0x20000008, 0x00000007], .sarWide (wa 18 20 0 (ext (g := p2) (w2 := 7) (lit := true)))),
    ([0x44C91400, 0x20000008, 0x00000007], .rotWide (wa 18 20 0 (ext (g := p2) (w2 := 7) (lit := true)))),
    ([0x45091400, 0x20000000, 0x00000000], .popcWide (wa 18 20 0 (ext (g := p2)))),
    ([0x45491400, 0x20000000, 0x00000000], .clzWide (wa 18 20 0 (ext (g := p2)))),
    ([0x45891400, 0x20000000, 0x00000000], .brevWide (wa 18 20 0 (ext (g := p2)))),
    ([0x45C91400, 0x20000008, 0x00000007], .bfx (wa 18 20 0 (ext (g := p2) (w2 := 7) (lit := true)))),
    ([0x46091400, 0x20036008, 0x00000007], .bfi (wa 18 20 0 (ext (g := p2) (c := 27) (w2 := 7) (lit := true)))),
    ([0x46491400, 0x2000A008, 0x00000007], .sel (wa 18 20 0 (ext (g := p2) (c := 5) (w2 := 7) (lit := true)))),
    ([0x46831400, 0x20000008, 0x00000007], .icmp (wa 6 20 0 (ext (g := p2) (w2 := 7) (lit := true)))),
    ([0x46C91400, 0x2000A008, 0x00000007], .iaddc (wa 18 20 0 (ext (g := p2) (c := 5) (w2 := 7) (lit := true)))),
    ([0x47091400, 0x20000008, 0x00000007], .add64Wide (wa 18 20 0 (ext (g := p2) (w2 := 7) (lit := true)))),
    ([0x47491400, 0x20000008, 0x00000007], .sub64Wide (wa 18 20 0 (ext (g := p2) (w2 := 7) (lit := true)))),
    ([0x47891400, 0x2000A008, 0x00000007], .lea64 (wa 18 20 0 (ext (g := p2) (c := 5) (w2 := 7) (lit := true)))),
    ([0x47C31400, 0x20000008, 0x00000007], .cmp64 (wa 6 20 0 (ext (g := p2) (w2 := 7) (lit := true))))] = true := by decide +kernel
/-- 96-bit forms of majors 0x20 to 0x3F. -/
theorem test_words_wideB : decodes [
    ([0x48125000, 0x20000018, 0x00000007], .uaddWide (ws 18 20 0 (ext (g := p2) (w2 := 7) (lit := true) (sat := true)))),
    ([0x48525000, 0x20000018, 0x00000007], .usubWide (ws 18 20 0 (ext (g := p2) (w2 := 7) (lit := true) (sat := true)))),
    ([0x48925000, 0x20000018, 0x00000007], .umulWide (ws 18 20 0 (ext (g := p2) (w2 := 7) (lit := true) (sat := true)))),
    ([0x48D25000, 0x20000008, 0x00000007], .ulogWide (ws 18 20 0 (ext (g := p2) (w2 := 7) (lit := true)))),
    ([0x49125000, 0x20000008, 0x00000007], .ushiftWide (ws 18 20 0 (ext (g := p2) (w2 := 7) (lit := true)))),
    ([0x49450000, 0x20000008, 0x00000007], .umovWide (ws 5 0 0 (ext (g := p2) (w2 := 7) (lit := true)))),
    ([0x49865000, 0x20000008, 0x00000007], .ucmp (ws 6 20 0 (ext (g := p2) (w2 := 7) (lit := true)))),
    ([0x49D25000, 0x20000008, 0x00000007], .uadd64Wide (ws 18 20 0 (ext (g := p2) (w2 := 7) (lit := true)))),
    ([0x4A091400, 0x20000000, 0x00000000], .uread (wa 18 20 0 (ext (g := p2)))),
    ([0x4A490000, 0x20000000, 0x00000007], .uconstWide (wa 18 0 0 (ext (g := p2) (w2 := 7)))),
    ([0x4A850000, 0x20000000, 0x00000000], .plogWide (ws 5 0 0 (ext (g := p2)))),
    ([0x4AC28000, 0x20000000, 0x00000007], .sprdWide (wa 5 0 0 (ext (g := p2) (w2 := 7)))),
    ([0x4B001400, 0x20000000, 0x00000013], .spwrWide (wa 0 20 0 (ext (g := p2) (w2 := 0x13)))),
    ([0x4B491412, 0x20000000, 0x00000007], .shfl (wa 18 20 9 (ext (g := p2) (w2 := 7)))),
    ([0x4B828000, 0x20000000, 0x00000007], .vote (wa 5 0 0 (ext (g := p2) (w2 := 7)))),
    ([0x4BC91400, 0x20000770, 0x00000007], .vred (wa 18 20 0 (ext (g := p2) (ty := .f32) (w2 := 7) (rnd := 3) (sat := true)))),
    ([0x4C280000, 0x00000008, 0x00000007], .brWide ⟨false, Guard.ofCode 10, 0x0, (ext (w2 := 7) (lit := true))⟩),
    ([0x4C680000, 0x00000008, 0x00000007], .bruWide ⟨false, Guard.ofCode 10, 0x0, (ext (w2 := 7) (lit := true))⟩),
    ([0x4C801400, 0x20000000, 0x00000000], .jmpWide (wa 0 20 0 (ext (g := p2)))),
    ([0x4CE80000, 0x00130000, 0x00000000], .callWide ⟨false, Guard.ofCode 10, 0x0, (ext (fn := 1) (c := 24))⟩),
    ([0x4D001400, 0x20000000, 0x00000000], .retWide (wa 0 20 0 (ext (g := p2)))),
    ([0x4D400000, 0x20000000, 0x00000000], .exitWide (wa 0 0 0 (ext (g := p2)))),
    ([0x4D800000, 0x20000000, 0x00000000], .yieldWide (wa 0 0 0 (ext (g := p2)))),
    ([0x4DC31400, 0x20000008, 0x00000007], .cinit (wa 6 20 0 (ext (g := p2) (w2 := 7) (lit := true)))),
    ([0x4E000000, 0x20000000, 0x00000007], .csign (wa 0 0 0 (ext (g := p2) (w2 := 7)))),
    ([0x4E401400, 0x20000000, 0x00000007], .regroupWide (wa 0 20 0 (ext (g := p2) (w2 := 7)))),
    ([0x4E850000, 0x20000000, 0x00000000], .claimWide (ws 5 0 0 (ext (g := p2)))),
    ([0x4E800000, 0x20100000, 0x00000000], .claimwWide (ws 0 0 0 (ext (g := p2) (fn := 1)))),
    ([0x4E800000, 0x20200000, 0x00000000], .giveWide (ws 0 0 0 (ext (g := p2) (fn := 2)))),
    ([0x4EC00000, 0x20000000, 0x00000007], .waitcWide ⟨false, 0, (ext (g := p2) (w2 := 7))⟩),
    ([0x4F001400, 0x20000000, 0x00000000], .sleeptWide (wa 0 20 0 (ext (g := p2)))),
    ([0x4F450000, 0x20000008, 0x00000007], .barSyncWide (ws 5 0 0 (ext (g := p2) (w2 := 7) (lit := true)))),
    ([0x4F450000, 0x20100008, 0x00000007], .barArriveWide (ws 5 0 0 (ext (g := p2) (fn := 1) (w2 := 7) (lit := true)))),
    ([0x4F450000, 0x20200000, 0x00000000], .barWaitWide (ws 5 0 0 (ext (g := p2) (fn := 2)))),
    ([0x4F850000, 0x20000000, 0x00000000], .trapSvcWide (ws 5 0 0 (ext (g := p2)))),
    ([0x4F850000, 0x20100000, 0x00000000], .trapBrkWide (ws 5 0 0 (ext (g := p2) (fn := 1)))),
    ([0x4FC01400, 0x20000000, 0x00000000], .launch (wa 0 20 0 (ext (g := p2)))),
    ([0x4FC31400, 0x20100000, 0x00000000], .spawn (wa 6 20 0 (ext (g := p2) (fn := 1)))),
    ([0x4FC01400, 0x20200008, 0x00000007], .ctradd (wa 0 20 0 (ext (g := p2) (fn := 2) (w2 := 7) (lit := true)))),
    ([0x4FC01400, 0x20300008, 0x00000007], .ctrwait (wa 0 20 0 (ext (g := p2) (fn := 3) (w2 := 7) (lit := true)))),
    ([0x4FC01400, 0x20400008, 0x00000007], .resume (wa 0 20 0 (ext (g := p2) (fn := 4) (w2 := 7) (lit := true))))] = true := by decide +kernel
/-- 96-bit forms of majors 0x40 to 0x5F. -/
theorem test_words_wideC : decodes [
    ([0x50091400, 0x20100708, 0x00000007], .ldWide (wm 18 20 0 (ext (g := p2) (fn := 1) (ty := .f32) (w2 := 7) (lit := true)))),
    ([0x50491400, 0x20100708, 0x00000007], .stWide (wm 18 20 0 (ext (g := p2) (fn := 1) (ty := .f32) (w2 := 7) (lit := true)))),
    ([0x50891400, 0x20100708, 0x00000007], .ldsWide (wm 18 20 0 (ext (g := p2) (fn := 1) (ty := .f32) (w2 := 7) (lit := true)))),
    ([0x50C91400, 0x20100708, 0x00000007], .stsWide (wm 18 20 0 (ext (g := p2) (fn := 1) (ty := .f32) (w2 := 7) (lit := true)))),
    ([0x51091400, 0x20100708, 0x00000007], .lduWide (wm 18 20 0 (ext (g := p2) (fn := 1) (ty := .f32) (w2 := 7) (lit := true)))),
    ([0x51491400, 0x20100708, 0x00000007], .stuWide (wm 18 20 0 (ext (g := p2) (fn := 1) (ty := .f32) (w2 := 7) (lit := true)))),
    ([0x51891400, 0x20000000, 0x00000007], .ldt (wa 18 20 0 (ext (g := p2) (w2 := 7)))),
    ([0x51C91400, 0x20000000, 0x00000007], .stt (wa 18 20 0 (ext (g := p2) (w2 := 7)))),
    ([0x52091400, 0x20100708, 0x00000007], .gldWide (wm 18 20 0 (ext (g := p2) (fn := 1) (ty := .f32) (w2 := 7) (lit := true)))),
    ([0x52491400, 0x20100708, 0x00000007], .gstWide (wm 18 20 0 (ext (g := p2) (fn := 1) (ty := .f32) (w2 := 7) (lit := true)))),
    ([0x52801400, 0x20000008, 0x00000007], .prefWide (wm 0 20 0 (ext (g := p2) (w2 := 7) (lit := true)))),
    ([0x52C91400, 0x2120000A, 0x00000007], .atom (wa 18 20 0 (ext (g := p2) (fn := 18) (sel := 2) (w2 := 7) (lit := true)))),
    ([0x53091400, 0x2203600A, 0x00000007], .atomc (wa 18 20 0 (ext (g := p2) (fn := 32) (c := 27) (sel := 2) (w2 := 7) (lit := true)))),
    ([0x53491400, 0x2200076A, 0x00000007], .atomf (wa 18 20 0 (ext (g := p2) (fn := 32) (ty := .f32) (sel := 2) (w2 := 7) (lit := true) (rnd := 3)))),
    ([0x53801400, 0x20000768, 0x00000007], .red (wa 0 20 0 (ext (g := p2) (ty := .f32) (w2 := 7) (lit := true) (rnd := 3)))),
    ([0x53C00000, 0x20000000, 0x00000000], .aflushWide (wa 0 0 0 (ext (g := p2)))),
    ([0x54000000, 0x20000002, 0x00000000], .fenceRelWide (ws 0 0 0 (ext (g := p2) (sel := 2)))),
    ([0x54000000, 0x20100002, 0x00000000], .fenceAcqWide (ws 0 0 0 (ext (g := p2) (fn := 1) (sel := 2)))),
    ([0x54000000, 0x20200002, 0x00000000], .fenceArWide (ws 0 0 0 (ext (g := p2) (fn := 2) (sel := 2)))),
    ([0x544014D1, 0x20000000, 0x00000007], .invl1Wide (wm 0 20 209 (ext (g := p2) (w2 := 7)))),
    ([0x548014D1, 0x20000000, 0x00000007], .pinWide (wm 0 20 209 (ext (g := p2) (w2 := 7)))),
    ([0x54C014D1, 0x20000000, 0x00000007], .unpinWide (wm 0 20 209 (ext (g := p2) (w2 := 7)))),
    ([0x55031400, 0x20000000, 0x00000000], .hbindWide (wa 6 20 0 (ext (g := p2)))),
    ([0x55428000, 0x20000000, 0x00000007], .hqry (wa 5 0 0 (ext (g := p2) (w2 := 7)))),
    ([0x55891400, 0x20030008, 0x00000007], .cpy (wa 18 20 0 (ext (g := p2) (c := 24) (w2 := 7) (lit := true)))),
    ([0x55C90000, 0x20000000, 0x00000000], .cpyqWide (wa 18 0 0 (ext (g := p2)))),
    ([0x56091400, 0x20036008, 0x00000007], .dsend (wa 18 20 0 (ext (g := p2) (c := 27) (w2 := 7) (lit := true)))),
    ([0x56401412, 0x20136760, 0x00000007], .dcomb (wa 0 20 9 (ext (g := p2) (fn := 1) (ty := .f32) (c := 27) (w2 := 7) (rnd := 3)))),
    ([0x56801400, 0x20000000, 0x00000000], .coll (wa 0 20 0 (ext (g := p2))))] = true := by decide +kernel
/-- 96-bit forms of majors 0x60 to 0x7F. -/
theorem test_words_wideD : decodes [
    ([0x58091400, 0x20000778, 0x00000007], .faddWide (wa 18 20 0 (ext (g := p2) (ty := .f32) (w2 := 7) (lit := true) (rnd := 3) (sat := true)))),
    ([0x58491400, 0x20000778, 0x00000007], .fsubWide (wa 18 20 0 (ext (g := p2) (ty := .f32) (w2 := 7) (lit := true) (rnd := 3) (sat := true)))),
    ([0x58891400, 0x20000778, 0x00000007], .fmulWide (wa 18 20 0 (ext (g := p2) (ty := .f32) (w2 := 7) (lit := true) (rnd := 3) (sat := true)))),
    ([0x58C91400, 0x20036778, 0x00000007], .ffma (wa 18 20 0 (ext (g := p2) (ty := .f32) (c := 27) (w2 := 7) (lit := true) (rnd := 3) (sat := true)))),
    ([0x59091400, 0x20000708, 0x00000007], .fminmaxWide (wa 18 20 0 (ext (g := p2) (ty := .f32) (w2 := 7) (lit := true)))),
    ([0x59431400, 0x20000708, 0x00000007], .fcmp (wa 6 20 0 (ext (g := p2) (ty := .f32) (w2 := 7) (lit := true)))),
    ([0x59891400, 0x20000710, 0x00000000], .fspcWide (wa 18 20 0 (ext (g := p2) (ty := .f32) (sat := true)))),
    ([0x59C91400, 0x20000700, 0x00000000], .fclassWide (wa 18 20 0 (ext (g := p2) (ty := .f32)))),
    ([0x5A091400, 0x20000770, 0x00000000], .cvt (wa 18 20 0 (ext (g := p2) (ty := .f32) (rnd := 3) (sat := true)))),
    ([0x5A491400, 0x20000878, 0x00000007], .pack (wa 18 20 0 (ext (g := p2) (ty := .f16) (w2 := 7) (lit := true) (rnd := 3) (sat := true)))),
    ([0x5A891400, 0x20800700, 0x00000000], .unpk (wa 18 20 0 (ext (g := p2) (fn := 8) (ty := .f32)))),
    ([0x5AC91400, 0x20036878, 0x00000007], .ffmap (wa 18 20 0 (ext (g := p2) (ty := .f16) (c := 27) (w2 := 7) (lit := true) (rnd := 3) (sat := true)))),
    ([0x5B091400, 0x20036A78, 0x00000007], .qdot (wa 18 20 0 (ext (g := p2) (ty := .e4m3) (c := 27) (w2 := 7) (lit := true) (rnd := 3) (sat := true)))),
    ([0x5B491400, 0x20036418, 0x00000007], .idot (wa 18 20 0 (ext (g := p2) (ty := .i8) (c := 27) (w2 := 7) (lit := true) (sat := true)))),
    ([0x5B891400, 0x20036A02, 0x00000007], .mxsc (wa 18 20 0 (ext (g := p2) (ty := .e4m3) (c := 27) (sel := 2) (w2 := 7)))),
    ([0x5BC91400, 0x2000047A, 0x00000007], .qntRow (wa 18 20 0 (ext (g := p2) (ty := .i8) (sel := 2) (w2 := 7) (lit := true) (rnd := 3) (sat := true)))),
    ([0x5BC91400, 0x20136A00, 0x00000003], .qntBlock (wa 18 20 0 (ext (g := p2) (fn := 1) (ty := .e4m3) (c := 27) (w2 := 3)))),
    ([0x5C03142C, 0x20700760, 0x00000007], .mma (wa 6 20 22 (ext (g := p2) (fn := 7) (ty := .f32) (w2 := 7) (rnd := 3)))),
    ([0x5C43142C, 0x20700760, 0x00000007], .mmas (wa 6 20 22 (ext (g := p2) (fn := 7) (ty := .f32) (w2 := 7) (rnd := 3)))),
    ([0x5C828000, 0x20000700, 0x00000007], .amovFrom (wa 5 0 0 (ext (g := p2) (ty := .f32) (w2 := 7)))),
    ([0x5C801400, 0x20100700, 0x00000007], .amovInto (wa 0 20 0 (ext (g := p2) (fn := 1) (ty := .f32) (w2 := 7)))),
    ([0x5C800000, 0x20200000, 0x00000007], .amovZero (wa 0 0 0 (ext (g := p2) (fn := 2) (w2 := 7)))),
    ([0x5CC01412, 0x20000000, 0x00000007], .tdef (wa 0 20 9 (ext (g := p2) (w2 := 7)))),
    ([0x5D090012, 0x20000000, 0x00000007], .tld (wa 18 0 9 (ext (g := p2) (w2 := 7)))),
    ([0x5D400000, 0x20000000, 0x00000007], .tkill (wa 0 0 0 (ext (g := p2) (w2 := 7)))),
    ([0x5D891400, 0x20000008, 0x00000007], .eqry (wa 18 20 0 (ext (g := p2) (w2 := 7) (lit := true)))),
    ([0x5DC91400, 0x20000008, 0x00000007], .elook (wa 18 20 0 (ext (g := p2) (w2 := 7) (lit := true)))),
    ([0x5E00142C, 0x20000000, 0x00000007], .eeditNew (wa 0 20 22 (ext (g := p2) (w2 := 7)))),
    ([0x5E001400, 0x20100000, 0x00000007], .eeditDel (wa 0 20 0 (ext (g := p2) (fn := 1) (w2 := 7)))),
    ([0x5E001400, 0x20200008, 0x00000007], .eeditAdd (wa 0 20 0 (ext (g := p2) (fn := 2) (w2 := 7) (lit := true)))),
    ([0x5E001400, 0x20300008, 0x00000007], .eeditRem (wa 0 20 0 (ext (g := p2) (fn := 3) (w2 := 7) (lit := true)))),
    ([0x5E400000, 0x20000000, 0x00000007], .eviewOpen (wa 0 0 0 (ext (g := p2) (w2 := 7)))),
    ([0x5E400000, 0x20100000, 0x00000007], .eviewClose (wa 0 0 0 (ext (g := p2) (fn := 1) (w2 := 7)))),
    ([0x5E800000, 0x20000000, 0x00000000], .keysWide (wa 0 0 0 (ext (g := p2)))),
    ([0x5EC91400, 0x20000008, 0x00000007], .ecolWide (wa 18 20 0 (ext (g := p2) (w2 := 7) (lit := true)))),
    ([0x5F091400, 0x20000008, 0x00000007], .sproj (wa 18 20 0 (ext (g := p2) (w2 := 7) (lit := true)))),
    ([0x5F400000, 0x20000000, 0x00000007], .sbin (wa 0 0 0 (ext (g := p2) (w2 := 7)))),
    ([0x5F891400, 0x20000008, 0x00000000], .sblendFwd (wa 18 20 0 (ext (g := p2) (lit := true)))),
    ([0x5F801400, 0x20100008, 0x00000000], .sblendBack (wa 0 20 0 (ext (g := p2) (fn := 1) (lit := true)))),
    ([0x5FC01400, 0x20000000, 0x00000000], .sctlSet (wa 0 20 0 (ext (g := p2)))),
    ([0x5FC28000, 0x20100000, 0x00000003], .sctlGet (wa 5 0 0 (ext (g := p2) (fn := 1) (w2 := 3))))] = true := by decide +kernel
/-- MOVL (R189): 160 bits. -/
theorem test_words_movl : decodeWords [0x80C90000, 0xA0000000, 0, 0x89ABCDEF, 0x01234567] = .instr (.movl ⟨false, 18, 0, ext (g := ⟨true, 2⟩), 0x0123456789ABCDEF⟩) := by decide +kernel

/-! ### Terms that WellFormed refuses, one for each check -/

/-- Every term is refused by its function code. -/
def noFn (l : List Instr) : Bool := l.all (fun i => !i.fnOk && !i.wf)
/-- Every term has an assigned function code and is refused by a field. -/
def badField (l : List Instr) : Bool := l.all (fun i => i.fnOk && !i.fieldsOk && !i.wf)
/-- FN values that Tables 9.4 to 9.7 do not assign. -/
theorem test_refuses_fn : noFn [
    .uadd (ss 1 2 3 1), .ulog (ss 1 2 3 5), .ushift (ss 1 2 3 4), .plog (ss 1 2 3 7), .claim (ss 1 0 0 1), .barSync (ss 1 0 0 3), .trapSvc (ss 1 0 0 2), .fenceRel (ss 1 0 0 3), .fspc (sa 1 2 7),
    .iaddWide (wa 1 2 3 (ext (fn := 1))), .imulhWide (wa 1 2 3 (ext (fn := 2))), .bfx (wa 1 2 3 (ext (fn := 2))), .icmp (wa 1 2 3 (ext (fn := 10))), .iaddc (wa 1 2 3 (ext (fn := 2))), .shfl (wa 1 2 3 (ext (fn := 4))),
    .vote (wa 1 2 0 (ext (fn := 3))), .vred (wa 1 2 0 (ext (fn := 7))), .brWide ⟨false, p1, 0, ext (fn := 2)⟩, .spawn (wa 1 2 0 (ext (fn := 5))), .cpy (wa 2 4 5 (ext (fn := 4))), .dcomb (wa 0 2 4 (ext (fn := 2))), .coll (wa 0 2 0 (ext (fn := 5))),
    .fminmaxWide (wa 1 2 3 (ext (fn := 4))), .fcmp (wa 1 2 3 (ext (fn := 8))), .fspcWide (wa 1 2 0 (ext (fn := 7))), .cvt (wa 1 2 0 (ext (fn := 16))), .mma (wa 1 2 3 (ext (fn := 1))), .mma (wa 1 2 3 (ext (fn := 0x47))),
    .ldWide (wm 2 4 0 (ext (fn := 8))), .ldWide (wm 2 4 0 (ext (fn := 1) (ty := .i16))), .ldWide (wm 2 4 0 (ext (fn := 16))), .ldsWide (wm 2 4 0 (ext (fn := 4))), .atom (wa 1 2 3 (ext (fn := 7))), .atomc (wa 1 2 3 (ext (fn := 1))), .red (wa 0 2 3 (ext (fn := 16))), .atom (wa 1 2 3 (ext (fn := 64))),
    .movl ⟨false, 2, 0, ext (fn := 1), 0⟩] = true := by decide +kernel
/-- Fields of the 32-bit formats (R181, R192). -/
theorem test_refuses_short : badField [
    .nop (sa 0 0 1), .nop (sa 1 0 0), .mov (sa 1 1 2), .mov (sa 1 0 64 true), .iabs (sa 1 2 3), .iabs (sa 1 2 0 true), .shl (si 1 2 32), .rot (si 1 2 255), .popc (sa 1 2 1), .add64 (sa 1 2 3), .add64 (sa 2 3 3), .add64 (sa 2 2 64 true),
    .ulog (ss 1 2 1 4), .umov (ss 1 2 1), .uadd64 (ss 1 2 4), .uadd64 (ss 2 3 4), .uadd64 (ss 2 4 3), .uconst (si 1 0 3), .uconst (si 2 1 3), .uconst (si 2 0 64), .plog (ss 8 1 1), .plog (ss 1 8 1), .plog (ss 1 1 8), .plog (ss 1 1 1 5),
    .sprd (si 2 1 4), .sprd (si 2 0 1), .sprd (si 2 0 3), .sprd (si 2 0 0x18), .sprd (si 3 0 0), .spwr (si 1 2 0x11), .spwr (si 0 2 0x10), .spwr (si 0 2 0x14), .br ⟨false, ⟨true, 0⟩, 1⟩, .jmp (sa 1 2 0), .jmp (sa 0 3 0), .jmp (sa 0 2 1), .exit (sa 0 1 0),
    .regroup (si 1 2 3), .regroup (si 0 2 0), .regroup (si 0 2 129), .claim (ss 8 0 0), .claim (ss 1 1 0), .give (ss 1 0 0 2), .sleept (sa 0 3 0), .barSync (ss 16 0 0), .barSync (ss 1 0 2), .barSync (ss 1 1 0), .barWait (ss 1 0 1 2),
    .trapSvc (ss 1 4 0), .trapSvc (ss 1 0 1), .trapBrk (ss 1 8 0 1), .ld (sm 1 3 0), .ldu (sm 1 64 0), .stu (sm 64 2 0), .pref (sm 1 2 0), .fenceRel (ss 5 0 0), .fenceAcq (ss 0 1 0 1), .hbind (sa 16 2 0), .hbind (sa 1 3 0), .cpyq (sa 3 0 0), .fspc (sa 1 2 1 true), .ecol (si 1 2 3)] = true := by decide +kernel
/-- Fields of word 1 and word 2 that an entry does not use or admit (R181, R184, R185, R187, R188). -/
theorem test_refuses_ext : badField [
    .nopWide (wa 0 0 0 (ext (g := ⟨true, 0⟩))), .andWide (wa 1 2 3 (ext (ty := .n32))), .andWide (wa 1 2 3 (ext (rnd := 1))), .andWide (wa 1 2 3 (ext (sat := true))), .andWide (wa 1 2 3 (ext (sel := 1))), .andWide (wa 1 2 3 (ext (c := 1))),
    .andWide (wa 1 2 3 (ext (cs := true))), .andWide (wa 1 2 3 (ext (w2 := 1))), .andWide (wa 1 2 3 (ext (lit := true))), .andWide (wa 1 2 64 ext true), .notWide (wa 1 2 1 ext), .notWide (wa 1 2 0 (ext (lit := true))),
    .iaddWide (wa 1 2 3 (ext (ty := .i16))), .imad (wa 1 2 3 (ext (c := 64) (cs := true))), .moviWide (wa 1 0 0 ext), .sel (wa 1 2 3 (ext (c := 8))), .lea64 (wa 2 4 3 (ext (c := 16))), .cmp64 (wa 1 2 3 ext), .cmp64 (wa 8 2 4 ext), .iaddc (wa 1 2 3 (ext (c := 8))),
    .faddWide (wa 1 2 3 (ext (ty := .f32) (rnd := 5))), .faddWide (wa 1 2 3 (ext (ty := .i32))), .faddWide (wa 1 2 3 (ext (ty := .f32) (sel := 1))), .faddWide (wa 1 2 3 (ext (ty := .f16) (sel := 2))), .faddWide (wa 3 2 2 (ext (ty := .f64))),
    .faddWide (wa 1 2 0 (ext (ty := .f16) (lit := true) (w2 := 0x10000))), .cvt (wa 1 2 0 (ext (fn := 4) (ty := .i8) (sel := 4))), .cvt (wa 1 2 0 (ext (fn := 0) (ty := .i4x))), .cvt (wa 1 2 0 (ext (fn := 2) (ty := .f32) (w2 := 2))),
    .pack (wa 1 2 3 (ext (fn := 7) (ty := .f32))), .pack (wa 1 2 3 (ext (fn := 7) (ty := .f16) (sel := 1))), .unpk (wa 127 2 0 (ext (fn := 8) (ty := .f32))), .ffmap (wa 1 2 3 (ext (ty := .f32))), .qdot (wa 1 2 3 (ext (ty := .f16))), .idot (wa 1 2 3 (ext (ty := .i32))),
    .mxsc (wa 1 2 0 (ext (ty := .i4x))), .qntRow (wa 1 2 3 (ext (ty := .f32))), .qntBlock (wa 1 97 0 (ext (fn := 1) (ty := .e4m3))), .qntBlock (wa 121 0 0 (ext (fn := 1) (ty := .e4m3))), .vred (wa 1 2 0 (ext (fn := 3) (ty := .f32))), .vred (wa 1 2 0 (ext (fn := 6)))] = true := by decide +kernel
/-- Fields of the scalar, control and memory forms. -/
theorem test_refuses_wide : badField [
    .uaddWide (ws 1 2 3 ext 1), .uaddWide (ws 1 2 3 (ext (lit := true) (w2 := 5))), .ulogWide (ws 1 2 3 (ext (fn := 4))), .umovWide (ws 1 2 0 (ext (lit := true))), .ucmp (ws 8 2 3 ext), .uadd64Wide (ws 2 3 4 ext), .uread (wa 64 2 0 ext), .uconstWide (wa 2 0 0 (ext (w2 := 64))),
    .sprdWide (wa 2 0 0 (ext (w2 := 1))), .spwrWide (wa 0 2 0 (ext (w2 := 4))), .shfl (wa 1 2 3 (ext (w2 := 8))), .vote (wa 1 8 0 ext), .vote (wa 8 1 0 ext), .brWide ⟨false, p1, 1, ext (lit := true)⟩, .brWide ⟨false, p1, 0, ext⟩, .brWide ⟨false, p1, 0, ext (fn := 1) (c := 3)⟩,
    .brWide ⟨false, p1, 0, ext (g := p1) (lit := true)⟩, .callWide ⟨false, p1, 4, ext (w2 := 3)⟩, .callWide ⟨false, p1, 4, ext (w2 := 128)⟩, .cinit (wa 8 2 3 ext), .csign (wa 1 0 0 ext), .regroupWide (wa 0 2 0 ext), .regroupWide (wa 0 2 0 (ext (w2 := 129))),
    .waitcWide ⟨false, 1, ext⟩, .waitcWide ⟨false, 0, ext (w2 := 0x1000000)⟩, .barSyncWide (ws 16 0 0 ext), .trapSvcWide (ws 1 4 0 ext), .launch (wa 0 3 0 ext), .spawn (wa 8 2 0 (ext (fn := 1))), .ctradd (wa 1 2 3 (ext (fn := 2))), .ctrwait (wa 0 2 3 (ext (fn := 3))),
    .ldWide (wm 2 3 0 ext), .ldWide (wm 126 2 0 (ext (fn := 3))), .ldWide (wm 3 2 0 (ext (ty := .i64))), .ldWide (wm 2 2 1 (ext (lit := true))), .ldWide (wm 2 2 0 (ext (ty := .f16))), .ldWide (wm 2 2 0 (ext (sel := 1))), .ldWide (wm 2 2 0 (ext (fn := 4) (sel := 5))), .lduWide (wm 63 2 0 (ext (fn := 1))),
    .ldt (wa 2 3 4 ext), .ldt (wa 2 3 0 (ext (w2 := 0x40))), .ldt (wa 2 3 0 (ext (w2 := 0x2000))), .atom (wa 1 3 2 ext), .atom (wa 1 2 3 (ext (ty := .f32))), .atom (wa 1 2 3 (ext (sel := 1))), .atomf (wa 1 2 3 (ext (fn := 1) (ty := .f32) (rnd := 1))), .red (wa 1 2 3 ext), .red (wa 0 2 3 (ext (fn := 3) (ty := .f32))),
    .fenceRelWide (ws 0 0 0 (ext (sel := 5))), .fenceRelWide (ws 1 0 0 ext), .pinWide (wm 0 2 0 (ext (w2 := 0x1000))), .invl1Wide (wm 0 2 0 (ext (lit := true))), .hqry (wa 1 0 0 (ext (w2 := 0x100))), .cpy (wa 2 3 5 (ext (c := 4))), .cpy (wa 2 4 5 (ext (c := 3))), .cpy (wa 3 4 5 (ext (c := 4))),
    .dcomb (wa 0 2 4 (ext (ty := .f32) (c := 2))), .dcomb (wa 0 2 4 (ext (ty := .f32) (w2 := 0x80))), .dsend (wa 1 3 4 ext)] = true := by decide +kernel
/-- Fields of the matrix, tile, world and splat instructions. -/
theorem test_refuses_units : badField [
    .mma (wa 1 2 40 (ext (fn := 7) (ty := .f64))), .mma (wa 16 2 40 (ext (fn := 7) (ty := .f16))), .mma (wa 1 113 40 (ext (fn := 7) (ty := .f16))), .mma (wa 1 2 40 (ext (fn := 7) (ty := .f16) (c := 2))), .mma (wa 1 2 40 (ext (fn := 7) (ty := .f16) (w2 := 8))),
    .mma (wa 1 2 40 (ext (fn := 0x27) (ty := .f16))), .mma (wa 1 2 40 (ext (fn := 7) (ty := .f16) (w2 := 0x100))), .mma (wa 1 2 40 (ext (fn := 7) (ty := .f16) (w2 := 0x1000000))), .mma (wa 1 2 40 (ext (fn := 0x17) (ty := .f16) (c := 3))), .mmas (wa 1 3 40 (ext (fn := 7) (ty := .f16))), .mmas (wa 1 2 40 (ext (fn := 7) (ty := .f16) (c := 2))),
    .amovFrom (wa 97 0 0 (ext (ty := .f32))), .amovFrom (wa 1 1 0 (ext (ty := .f32))), .amovInto (wa 0 97 0 (ext (fn := 1) (ty := .f32))), .amovInto (wa 0 1 0 (ext (fn := 1) (ty := .i16))), .amovZero (wa 0 0 0 (ext (fn := 2) (w2 := 8))), .tdef (wa 1 2 3 ext), .tdef (wa 0 2 3 (ext (w2 := 0x400))), .tld (wa 1 0 3 (ext (w2 := 0x8040))), .tkill (wa 0 0 0 (ext (w2 := 0x10000))),
    .eqry (wa 1 2 3 ext), .eqry (wa 2 2 3 (ext (w2 := 8))), .elook (wa 2 3 3 ext), .eeditNew (wa 0 2 3 ext), .eeditDel (wa 0 2 1 (ext (fn := 1))), .eeditAdd (wa 1 2 3 (ext (fn := 2))), .eviewOpen (wa 0 1 0 ext), .keysWide (wa 0 0 0 (ext (w2 := 1))), .ecolWide (wa 2 1 0 ext), .ecolWide (wa 2 1 0 (ext (lit := true) (w2 := 1024))),
    .sproj (wa 1 3 2 ext), .sbin (wa 1 0 0 ext), .sblendFwd (wa 1 2 3 (ext (w2 := 1))), .sblendBack (wa 1 2 3 (ext (fn := 1))), .sctlSet (wa 0 3 0 ext), .sctlSet (wa 0 2 0 (ext (w2 := 3))), .sctlGet (wa 1 0 0 (ext (fn := 1))), .sctlGet (wa 2 0 0 (ext (fn := 1) (w2 := 4))), .movl ⟨false, 3, 0, ext, 0⟩, .movl ⟨false, 2, 1, ext, 0⟩] = true := by decide +kernel

/-! ### One instruction on a small state: results from the spec's rules -/

/-- The state after an instruction. -/
def run (i : Instr) (s : State) : State := match exec i s with | .next t => t | _ => s
/-- Register d of a thread after it, from registers given. -/
def val (i : Instr) (l : List (Nat × Nat)) (d : Nat) : Nat := ((run i (regs l one)).thr 3).rv d |>.toNat
/-- The thread's FLAGS after it. -/
def flg (i : Instr) (l : List (Nat × Nat)) : Nat := ((run i (regs l one)).thr 3).flags.toNat

/-- R206: IMM8 = 0xFF is −1. -/
theorem test_iadd : val (.iadd (si 1 2 0xFF)) [(2, 5)] 1 = 4 ∧ val (.isub (si 1 2 1)) [(2, 0)] 1 = 0xFFFFFFFF := by decide +kernel
/-- R204: MOVI takes A:IMM8 as one signed number of 15 bits. -/
theorem test_movi : val (.movi (si 1 0x7F 0xFE)) [] 1 = 0xFFFFFFFE ∧ val (.movi (si 1 0x3F 0xFF)) [] 1 = 0x3FFF := by decide +kernel
/-- R206: high word of a product, signed and unsigned. -/
theorem test_imulh : val (.imulhWide (wa 1 2 3 ext)) [(2, 0xFFFFFFFF), (3, 2)] 1 = 0xFFFFFFFF ∧ val (.imulhWide (wa 1 2 3 (ext (fn := 1)))) [(2, 0xFFFFFFFF), (3, 2)] 1 = 1 := by decide +kernel
/-- R206: SAT clamps to the range of TYPE. -/
theorem test_saturates : val (.iaddWide (wa 1 2 3 (ext (sat := true)))) [(2, 0x7FFFFFFF), (3, 1)] 1 = 0x7FFFFFFF ∧ val (.isubWide (wa 1 2 3 (ext (ty := .n32) (sat := true)))) [(2, 1), (3, 2)] 1 = 0 := by decide +kernel
/-- R207: a shift by 32 gives 0 or the sign, a rotate takes its count modulo 32; logic zero-extends its immediate. -/
theorem test_shifts : val (.shlWide (wa 1 2 3 ext)) [(2, 5), (3, 32)] 1 = 0 ∧ val (.sarWide (wa 1 2 3 ext)) [(2, 0x80000000), (3, 40)] 1 = 0xFFFFFFFF ∧
    val (.rotWide (wa 1 2 3 ext)) [(2, 0x80000001), (3, 33)] 1 = 3 ∧ val (.or (si 1 2 0xFF)) [(2, 0)] 1 = 0xFF := by decide +kernel
/-- R207: BFX sign-extends a field of 8 bits at 4; BFI puts a field into C. -/
theorem test_fields : val (.bfx (wa 1 2 0 (ext (fn := 1) (lit := true) (w2 := 0x804)))) [(2, 0x00000F80)] 1 = 0xFFFFFFF8 ∧
    val (.bfi (wa 1 2 0 (ext (c := 4) (lit := true) (w2 := 0x804)))) [(2, 0xAB), (4, 0xFFFFFFFF)] 1 = 0xFFFFFABF := by decide +kernel
/-- R208: IADDC carries out of 32 bits into predicate 3, and takes the carry of predicate 1. -/
theorem test_iaddc : val (.iaddc (wa 1 2 3 (ext (c := 0x31)))) [(2, 0xFFFFFFFF), (3, 0)] 1 = 0 ∧ ((run (.iaddc (wa 1 2 3 (ext (c := 0x31)))) (regs [(2, 0xFFFFFFFF), (3, 0)] one)).thr 3).rp 3 = true := by decide +kernel
/-- R208: LT is signed, LTU unsigned. -/
theorem test_icmp : ((run (.icmp (wa 5 2 3 (ext (fn := 2)))) (regs [(2, 0xFFFFFFFF), (3, 0)] one)).thr 3).rp 5 = true ∧ ((run (.icmp (wa 5 2 3 (ext (fn := 6)))) (regs [(2, 0xFFFFFFFF), (3, 0)] one)).thr 3).rp 5 = false := by decide +kernel
/-- R210: a 64-bit sum carries into the high word. -/
theorem test_add64 : val (.add64 (sa 2 4 6)) [(4, 0xFFFFFFFF), (5, 0), (6, 1)] 3 = 1 ∧ val (.sub64 (sa 2 4 6)) [(4, 0), (5, 0), (6, 1)] 3 = 0xFFFFFFFF := by decide +kernel
/-- R167, R266: 1 + 2⁻²⁴ is a tie that goes to even, and inexact. -/
theorem test_fadd : val (.fadd (sa 1 2 3)) [(2, 0x3F800000), (3, 0x33800000)] 1 = 0x3F800000 ∧ flg (.fadd (sa 1 2 3)) [(2, 0x3F800000), (3, 0x33800000)] = 16 ∧
    val (.faddWide (wa 1 2 3 (ext (ty := .f32) (rnd := 3)))) [(2, 0x3F800000), (3, 0x33800000)] 1 = 0x3F800001 := by decide +kernel
/-- R165: ∞ − ∞ is the canonical NaN and invalid; a quiet NaN sets nothing. -/
theorem test_fsub : flg (.fsub (sa 1 2 3)) [(2, 0x7F800000), (3, 0x7F800000)] = 1 ∧ flg (.fsub (sa 1 2 3)) [(2, 0x7FC00001), (3, 0x3F800000)] = 0 := by decide +kernel
/-- R168: overflow under RNE and under RTZ. -/
theorem test_fmul : val (.fmul (sa 1 2 3)) [(2, 0x7F7FFFFF), (3, 0x40000000)] 1 = 0x7F800000 ∧ flg (.fmul (sa 1 2 3)) [(2, 0x7F7FFFFF), (3, 0x40000000)] = 20 ∧
    val (.fmulWide (wa 1 2 3 (ext (ty := .f32) (rnd := 1)))) [(2, 0x7F7FFFFF), (3, 0x40000000)] 1 = 0x7F7FFFFF := by decide +kernel
/-- R166: an exact zero of opposite signs is +0, under RDN −0. -/
theorem test_ffma : val (.ffma (wa 1 2 3 (ext (ty := .f32) (c := 4)))) [(2, 0x3F800000), (3, 0x3F800000), (4, 0xBF800000)] 1 = 0 ∧ val (.ffma (wa 1 2 3 (ext (ty := .f32) (c := 4) (rnd := 2)))) [(2, 0x3F800000), (3, 0x3F800000), (4, 0xBF800000)] 1 = 0x80000000 := by decide +kernel
/-- R170: RCP of 0 is ∞ and sets DZ. -/
theorem test_fspc : val (.fspc (sa 1 2 0)) [(2, 0)] 1 = 0x7F800000 ∧ flg (.fspc (sa 1 2 0)) [(2, 0)] = 2 := by decide +kernel
/-- R173: the element SEL of a register takes the value, the other stays. -/
theorem test_element : val (.faddWide (wa 1 2 3 (ext (ty := .f16) (sel := 1)))) [(1, 0x1234), (2, 0x3C000000), (3, 0x3C000000)] 1 = 0x40001234 := by decide +kernel
/-- R186: a write to p0 is discarded. -/
theorem test_p0 : ((run (.icmp (wa 0 2 3 (ext (fn := 1)))) (regs [(2, 1), (3, 1)] one)).thr 3).rp 0 = true := by decide +kernel
/-- R185: under a false guard nothing is written and the PC moves on. -/
theorem test_guard : ((run (.iaddWide (wa 1 2 3 (ext (g := p1)))) two).thr 4).rv 1 = (two.thr 4).rv 1 ∧ ((run (.iaddWide (wa 1 2 3 (ext (g := p1)))) two).thr 4).pc = (two.thr 4).pc + 12 := by decide +kernel
/-- R203: the lowest active lane supplies UREAD; R156: a partial write that differs sets UMIX only after another writer set. -/
theorem test_uread : ((run (.uread (wa 5 2 0 ext)) two).tm 2).rs 5 = (two.thr 3).rv 2 ∧ ((run (.uread (wa 5 2 0 ext)) two).tm 2).teamstat = 0 := by decide +kernel
/-- R211: USHIFT FN 2 keeps the sign. -/
theorem test_ushift : ((run (.ushift (ss 5 2 3 2)) (tmm (fun t => { t with s := (t.s.set 2 0x80000000).set 3 31 }) one)).tm 2).rs 5 = 0xFFFFFFFF := by decide +kernel
/-- R217: a branch back by one word; a thread whose condition is false goes on. -/
theorem test_br : ((run (.br ⟨false, p1, 0x3FFFF⟩) two).thr 3).pc = (two.thr 3).pc - 4 ∧ ((run (.br ⟨false, p1, 0x3FFFF⟩) two).thr 4).pc = (two.thr 4).pc + 4 := by decide +kernel
/-- R218: CALL links in v126:127. -/
theorem test_call : ((run (.call ⟨false, Guard.always, 8⟩) one).thr 3).rpair 126 = (one.thr 3).pc + 4 := by decide +kernel
/-- R219, R222: WAITC waits where LD is above its limit. -/
theorem test_waitc : ((run (.waitc ⟨false, 0, 63, 63, 15⟩) (thm (fun t => { t with ld := 1 }) one)).thr 3).phase = .counterWait ∧ ((run (.waitc ⟨false, 1, 63, 63, 15⟩) (thm (fun t => { t with ld := 1 }) one)).thr 3).phase ≠ .counterWait := by decide +kernel
/-- R237: a store to the scratchpad, and a load that extends the sign. -/
theorem test_scratch : ((run (.ldsWide (wm 1 2 3 (ext (ty := .i8)))) (tmm (fun t => { t with scratchSize := 4, scratch := [(3, 0x80#8)] }) (regs [(2, 0)] one))).thr 3).rv 1 = 0xFFFFFF80 ∧
    ((run (.sts (sm 3 2 1)) (tmm (fun t => { t with scratchSize := 8 }) (regs [(2, 0), (3, 0x01020304)] one))).tm 2).scratch.read 5 = 3#8 := by decide +kernel
/-- R235, R50: a store to an MT 00 page puts dirty bytes into L1 and sets D; memory keeps its byte. -/
theorem test_st : ((run (.st (sm 3 8 0)) (regs [(3, 0xAABBCCDD)] one)).l1? 0 0 0xFFF 0x22).map (fun x => x.dirtyAt 0x10) = some (some 0xDD#8) ∧ (run (.st (sm 3 8 0)) one).mem.bytes.read 0x201110 = 0#8 := by decide +kernel
/-- R231: a load is a request that counts in LD and makes its register pending. -/
theorem test_ld : ((run (.ld (sm 1 8 0)) one).thr 3).ld = 1 ∧ ((run (.ld (sm 1 8 0)) one).thr 3).pendV = [1] ∧ (run (.ld (sm 1 8 0)) one).reqs.length = 1 := by decide +kernel
/-- R15, R323: a misaligned load faults with both PCs at the load. -/
theorem test_alignment : ((run (.ld (sm 1 8 0)) (regs [(8, 0x1112)] one)).faults.map (fun (r : FaultRec) => (r.cause, r.fpc, r.spc))) = [(.alignment, (one.thr 3).pc, (one.thr 3).pc)] ∧ ((run (.ld (sm 1 8 0)) (regs [(8, 0x1112)] one)).thr 3).phase = .faulted := by decide +kernel
/-- R225: TRAP.BRK records its code and goes past. -/
theorem test_brk : ((run (.trapBrk (ss 7 0 0 1)) one).faults.map (fun (r : FaultRec) => (r.cause, r.detail.kind))) = [(.brk, 7)] ∧ ((run (.trapBrk (ss 7 0 0 1)) one).thr 3).pc = (one.thr 3).pc + 4 := by decide +kernel
/-- R224: TRAP.SVC queues a service record with the eight registers. -/
theorem test_svc : ((run (.trapSvc (ss 9 8 0)) one).services.map (fun (r : SvcRec) => r.code)) = [9] ∧ ((run (.trapSvc (ss 9 8 0)) one).thr 3).phase = .parked .service := by decide +kernel
/-- R223: with no block in its pool a CLAIM says false. -/
theorem test_claim : ((run (.claim (ss 5 0 0)) one).thr 3).rp 5 = false ∧ ((run (.claim (ss 5 0 0)) (tmm (fun t => { t with pool := List.replicate 32 [2, 1] }) (thm (fun t => { t with v := t.v.take 64 }) one))).thr 3).blocks = [1] := by decide +kernel
/-- R215: BALLOT by index; R214: SHFL IDX takes the source's value. -/
theorem test_sets : ((run (.vote (wa 20 1 0 (ext (fn := 2) (w2 := 3)))) (tmm (fun t => t.setConv 3 ⟨0, 3, 0, []⟩) two)).thr 3).rv 20 = 1#32 ∧
    ((run (.shfl (wa 20 2 0 (ext (w2 := 3)) true)) (tmm (fun t => { t.setConv 3 ⟨0, 3, 0, []⟩ with s := t.s.set 0 1 }) two)).thr 3).rv 20 = (two.thr 4).rv 2 := by decide +kernel
/-- R212: GTICK and the clamp of LEASE. -/
theorem test_special : val (.sprd (si 2 0 0)) [] 2 = 10 ∧ ((run (.spwr (si 0 2 0x13)) (regs [(2, 5)] one)).tm 2).lease = 256 := by decide +kernel
/-- R248: outside a DET launch an AFLUSH with nothing outstanding passes. -/
theorem test_aflush : ((run (.aflush (sa 0 0 0)) one).thr 3).pc = (one.thr 3).pc + 4 := by decide +kernel
/-- R3: a step of the clock; R191: a step runs the word at the PC. -/
theorem test_steps : (run .gtickAdvance one).gtick = 11 ∧ (match step (State.reset.withFetchWord 32 0x010082FF) with | .next t => (t.thr 3).rv 1 | _ => 0) = 0xFFFFFFFF := by decide +kernel

/-! ### Hypotheses of the statements about issue: registers, transfers, threads -/

/-- What holds of every active thread of a wave of states that a test gives. -/
theorem all_active {s : State} {w : Wave} {g : Guard} {P : Nat → Prop} (h : ∀ u ∈ w.members, (s.thr u).guard g = true → P u) : ∀ u, s.Active w g u → P u := fun u hu => h u hu.1 hu.2
/-- The lowest lane of a wave of one team with the given leader. -/
def leads (s : State) (w : Wave) (g : Guard) (l : Nat) : Bool := w.members.contains l && (s.thr l).guard g && w.members.all (fun v => !(s.thr v).guard g || decide ((s.thr l).lane ≤ (s.thr v).lane))
theorem supplies_of {s : State} {w : Wave} {g : Guard} {l : Nat} (h : leads s w g l = true) : s.Supplies w g (s.thr l).team l := by
  simp only [leads, Bool.and_eq_true, List.contains_iff_mem, List.all_eq_true, Bool.or_eq_true, Bool.not_eq_true', decide_eq_true_eq] at h
  refine ⟨⟨h.1.1, h.1.2⟩, rfl, fun v hv _ => ?_⟩
  rcases h.2 v hv.1 with h' | h'
  · simp [hv.2] at h'
  · exact h'
/-- A state in a DET launch. -/
def det (s : State) : State := { s with grids := s.grids.map (fun (g : Grid) => { g with record := g.record.set 29 1 }) }
theorem one_ready (n : Names) (hn : Small n) : one.Ready wave1 Guard.always n := (witness_lone n hn).ready
/-- Writes of a team's register: outside DET, and whole in DET. -/
theorem witness_writes (g : Guard) : two.MayWrite wave2 g ∧ (det two).MayWrite wave2 g ∧ (det two).det 2 = true := by
  refine ⟨fun u hu => .inr ?_, all_active fun u _ _ => .inl ?_, by decide +kernel⟩
  · have : ∀ u ∈ wave2.members, two.det (two.thr u).team = false := by decide +kernel
    exact this u hu.1
  · have : ∀ t ∈ (det two).threads, t.uid ∈ wave2.members := by decide +kernel
    exact fun t ht _ _ => this t ht
/-- IntegerShort, LogicWide, FloatShort: every instruction of 32 bits or 96 bits on registers of the thread; registers at both ends of the file. -/
theorem witness_registers : two.Ready wave2 p1 { rv := [0, 127], wv := [127], rs := [63], rp := [7] } ∧ two.Ready wave2 Guard.always { rv := [0, 127], wv := [0], rs := [0] } :=
  ⟨witness_ready _ _ (by unfold Small; decide), witness_ready _ _ (by unfold Small; decide)⟩
/-- IntegerWide, PredicateResults, ScalarResults, PairResults, FloatWide, PackedResults: the instructions are well formed, with a literal, a scalar operand, the largest function code. -/
theorem witness_forms : [Instr.iaddWide (wa 1 2 0 (ext (g := p1) (ty := .n32) (lit := true) (w2 := 0xFFFFFFFF) (sat := true))), .imulhWide (wa 1 2 3 (ext (fn := 1))), .imad (wa 1 2 63 (ext (c := 63) (cs := true)) true), .iabsWide (wa 1 2 0 (ext (sat := true))),
    .icmp (wa 0 2 3 (ext (fn := 9))), .cmp64 (wa 7 2 4 (ext (fn := 9))), .cmp64 (wa 7 2 4 (ext (fn := 9)) true), .ucmp (ws 7 2 3 (ext (fn := 9))), .iaddc (wa 1 2 3 (ext (fn := 1) (c := 0x70))), .plog (ss 7 6 0 6), .plogWide (ws 7 6 5 (ext (fn := 4))),
    .uaddWide (ws 1 2 0 (ext (lit := true) (sat := true))), .ulogWide (ws 1 2 0 (ext (fn := 4))), .ushiftWide (ws 1 2 3 (ext (fn := 3))), .faddWide (wa 2 4 6 (ext (ty := .f64) (rnd := 4))), .fminmaxWide (wa 1 2 3 (ext (fn := 3) (ty := .bf16) (sel := 1))),
    .ffma (wa 1 2 3 (ext (c := 9) (ty := .f16) (sat := true))), .fcmp (wa 7 2 3 (ext (fn := 7) (ty := .f32))), .fspcWide (wa 1 2 0 (ext (fn := 6) (ty := .f16) (sel := 1))), .fclassWide (wa 1 2 0 (ext (ty := .e2m1) (sel := 7))), .cvt (wa 1 2 0 (ext (fn := 6) (ty := .e8m0) (sel := 3))),
    .pack (wa 1 2 3 (ext (fn := 7) (ty := .e2m1) (sel := 6))), .unpk (wa 124 2 0 (ext (fn := 12) (ty := .f64) (sel := 6))), .ffmap (wa 1 2 3 (ext (c := 4) (ty := .bf16))), .qdot (wa 1 2 3 (ext (c := 4) (ty := .e2m1))), .idot (wa 1 2 3 (ext (c := 4) (ty := .i4x))),
    .qntRow (wa 1 2 3 (ext (ty := .i8) (sel := 3))), .qntBlock (wa 120 96 0 (ext (fn := 1) (ty := .e5m2) (c := 90) (w2 := 3)))].all Instr.wf = true := by decide +kernel
/-- SpecialReads, SpecialWrites: every index of Table 10.5 is read by both forms, the three writable ones are written. -/
theorem witness_special : (0 :: 2 :: (List.range 20).map (· + 4)).all (fun k => (Instr.sprd (si 2 0 k)).wf && (Instr.sprdWide (wa 2 0 0 (ext (w2 := BitVec.ofNat 32 k)))).wf) = true ∧
    [0x11, 0x12, 0x13].all (fun k => (Instr.spwr (si 0 2 k)).wf && (Instr.spwrWide (wa 0 2 0 (ext (w2 := BitVec.ofNat 32 k)))).wf) = true := by decide +kernel
/-- MovlForms: a first word of major 0x03 with LEN 00, one of LEN 10 with another major. -/
theorem witness_movl : (bitsOf (0x00C00000 : Word).toNat 31 30 ≠ 2 ∧ bitsOf (0x00C00000 : Word).toNat 28 22 = 3) ∧ (bitsOf (0x81000000 : Word).toNat 31 30 = 2 ∧ bitsOf (0x81000000 : Word).toNat 28 22 ≠ 3) := by decide
/-- Transfers: aligned targets, the link pair free. -/
theorem witness_transfers : (∀ u, two.Active wave2 p1 u → ((two.thr u).pc + 4 * (0x3FFFF : BitVec 18).signExtend 64).toNat % 4 = 0) ∧ (∀ u, two.Active wave2 p1 u → 128 ≤ (two.thr u).owned ∧ 126 ∉ (two.thr u).pendV ∧ 127 ∉ (two.thr u).pendV) ∧
    (∀ u ∈ wave2.members, (((regs [(6, 0x2000), (7, 0)] two).thr u).rpair 6).toNat % 4 = 0) :=
  ⟨all_active (by decide +kernel), all_active (by decide +kernel), by decide +kernel⟩
/-- UniformBranches: with UBCHK = 1 and threads that agree. -/
def checked : State := tmm (fun t => { t with mode := 1 }) two
theorem witness_bru : checked.Ready wave2 Guard.always { rp := [0] } ∧ checked.Supplies wave2 Guard.always 2 3 ∧ ∀ l u, checked.Supplies wave2 Guard.always (checked.thr u).team l → u ∈ wave2.members →
    ((checked.teamOf u).mode.getLsbD 0 = true → (checked.thr u).guard Guard.always = (checked.thr l).guard Guard.always) ∧ ((checked.thr l).guard Guard.always = true → ((checked.thr l).pc + 4 * (1 : BitVec 18).signExtend 64).toNat % 4 = 0) := by
  refine ⟨ready_of (by decide +kernel) (by unfold Small; decide), supplies_of (l := 3) (by decide +kernel), fun l u hl hu => ?_⟩
  have : ∀ u ∈ wave2.members, ∀ l ∈ wave2.members, ((checked.teamOf u).mode.getLsbD 0 = true → (checked.thr u).guard Guard.always = (checked.thr l).guard Guard.always) ∧ ((checked.thr l).guard Guard.always = true → ((checked.thr l).pc + 4 * (1 : BitVec 18).signExtend 64).toNat % 4 = 0) := by decide +kernel
  exact this u hu l hl.1.1
/-- NopAndYield, StateChanges: numbers are distinct; a sleeper whose tick is the view, one whose tick lies above it; REGROUP of all registers of its grid. -/
theorem witness_states : two.Numbered ∧ (∀ u, (regs [(6, 10), (7, 0)] two).Active wave2 p1 u → ∀ c ∈ two.copies, c.th = u → two.viewOf c.fn < c.promise) ∧
    ((regs [(6, 10), (7, 0)] two).viewOf 0 = 10) ∧ (((regs [(6, 11), (7, 0)] two).thr 3).rpair 6 = 11) ∧ (∀ u, two.Active wave2 p1 u → 128 ≤ (two.gridOf u).bregs) :=
  ⟨numbered_of (by decide +kernel), all_active (by decide +kernel), by decide +kernel, by decide +kernel, all_active (by decide +kernel)⟩
/-- Breaks. -/
theorem witness_breaks : (∀ u ∈ wave2.members, (two.thr u).stopped = none ∧ (two.thr u).brk = none ∧ (two.thr u).step = false) ∧ (∀ u ∈ wave2.members, ∀ v ∈ wave2.members, (two.thr u).pc = (two.thr v).pc) := by decide +kernel

/-! ### Hypotheses of the statements about issue: memory -/

/-- Loads, Stores: three registers through MT 01, a pair of host memory, an acquiring and a releasing byte, in the pages the thread's core has cached; no collector entry, no fault. -/
theorem witness_loads :
    (Instr.ldWide (wm 20 10 10 (ext (g := p1) (fn := 2)))).wf = true ∧ two.Places 3 .read false 4 ((wmData (wm 20 10 10 (ext (g := p1) (fn := 2)))).vas ((two.thr 3).rpair 10)) [.glob 0x200138 0x400138 1, .glob 0x20013C 0x40013C 1, .glob 0x200140 0x400140 1] ∧
    (Instr.ldWide (wm 20 12 0 (ext (g := p1) (ty := .i64)))).wf = true ∧ two.Places 3 .read false 8 ((wmData (wm 20 12 0 (ext (g := p1) (ty := .i64)))).vas ((two.thr 3).rpair 12)) [.glob 0x400010 0x8000000000010 2] ∧
    (Instr.ldWide (wm 20 8 0 (ext (g := p1) (fn := 4) (ty := .i8) (sel := 3)))).wf = true ∧ (wmData (wm 20 8 0 (ext (g := p1) (fn := 4) (ty := .i8) (sel := 3)))).order = some 3 ∧
    (Instr.gld (sm 20 8 3)).wf = true ∧ one.Places 3 .read false 4 ((smAcc (sm 20 8 3) 4).vas ((one.thr 3).rpair 8)) [.glob 0x111C 0x20111C 0] ∧
    (one.collOf 0).length < 511 ∧ (∀ r ∈ one.faults, r.issue ≤ one.issue) ∧ [Source.glob 0x400010 0x8000000000010 2].any Source.outside = true ∧ [Source.glob 0x111C 0x20111C 0].any Source.outside = false :=
  ⟨by decide +kernel, places_of (by decide +kernel), by decide +kernel, places_of (by decide +kernel), by decide +kernel, by decide +kernel, by decide +kernel, places_of (by decide +kernel), by decide +kernel, by decide +kernel, by decide +kernel, by decide +kernel⟩
theorem witness_stores :
    (Instr.st (sm 20 8 0)).wf = true ∧ one.Places 3 .write true 4 ((smAcc (sm 20 8 0) 4).vas ((one.thr 3).rpair 8)) [.glob 0x1110 0x201110 0] ∧ olderMeets one.nextId (one.issue + 1) [3] (Work.store 3 [⟨.glob 0x1110 0x201110 0, [1, 2, 3, 4], none⟩]).extents one = false ∧
    one.l1? 0 0 0xFFF (0x1110 / 128) = none ∧ (one.teamOf 3).saved = none ∧ (one.mem.l1.filter (fun x => x.core == 0)).length + 1 ≤ one.l1Lines 0 ∧
    (Instr.stWide (wm 20 8 0 (ext (g := p1) (fn := 4) (ty := .i16) (sel := 3)))).wf = true ∧ (thm (fun t => { t with relDone := true }) two).Released 3 3 :=
  ⟨by decide +kernel, places_of (by decide +kernel), by decide +kernel, by decide +kernel, by decide +kernel, by decide +kernel, by decide +kernel, .inl (by decide +kernel)⟩
/-- A release with nothing to wait for, of every scope. -/
def settled (s : State) (u : Nat) : Bool := !memPending u s && s.coll.all (fun e => e.reqs.all (fun r => !r.threads.contains u)) && (s.thr u).lost.isEmpty && (s.dirtyOf (s.thr u).team).isEmpty && (s.thr u).wait.req == 0 && decide ((s.thr u).maxTw ≤ s.gtick) && !ackPending u s
theorem settling_of {s : State} {u : Nat} (h : settled s u = true) (scope : Nat) : s.Settling u scope := by
  simp only [settled, Bool.and_eq_true, Bool.not_eq_true', List.all_eq_true, List.isEmpty_iff, beq_iff_eq, decide_eq_true_eq] at h
  exact ⟨h.1.1.1.1.1.1, fun e he r hr => by simpa using h.1.1.1.1.1.2 e he r hr, h.1.1.1.1.2, fun _ => h.1.1.1.2⟩
theorem released_of {s : State} {u : Nat} (h : settled s u = true) (scope : Nat) : s.Released u scope := by
  refine .inr ⟨settling_of h scope, ?_⟩
  simp only [settled, Bool.and_eq_true, Bool.not_eq_true', beq_iff_eq, decide_eq_true_eq] at h
  exact ⟨h.1.1.2, fun _ => h.1.2, fun _ => h.2⟩
theorem witness_released (scope : Nat) : one.Released 3 scope ∧ two.Settling 3 scope := ⟨released_of (by decide +kernel) scope, settling_of (by decide +kernel) scope⟩
/-- Scratchpads, TeamAccesses, Handles, Layouts: a window of 4,096 bytes, s registers that hold addresses, three records in the layout cache. -/
def record (ty gran rank pad rw base m : Nat) (e : List Nat) (st : List Nat) (pv : Nat) : List Byte :=
  flat [(base, 8), (m, 8)] ++ flat (e.map (fun n => (n, 4))) ++ flat (st.map (fun n => (n, 6))) ++ leBytes (ty + 16 * (rank - 1) + 64 * pad + 256 * rw + 1024 * gran + 2 ^ 32 * pv) 8
def rec0 : List Byte := record 0 0 2 1 3 0x2000 0 [8, 4, 1, 1] [4, 32, 0, 0] 0x55
def rec1 : List Byte := record 6 0 1 2 3 0x202000 0 [8, 1, 1, 1] [8, 0, 0, 0] 0
def rec2 : List Byte := record 12 0 1 0 3 0x2000 0 [8, 1, 1, 1] [0, 0, 0, 0] 0
def handles (s : State) : State :=
  { tmm (fun (t : Team) => { t with
      scratchSize := 4096, scratch := [(0x20, 0x80#8)], scratchPoison := [0x23]
      s := (List.range 64).map (fun n => if n = 8 then 0x1200 else if n = 10 then 0x200200 else if n = 12 then 0x400300 else 0)
      h := [some 0x3000, some 0x3040, some 0x3080] ++ List.replicate 13 none }) (regs [(14, 0x20), (15, 0), (16, 2), (17, 3), (18, 0), (19, 0), (24, 0x3000), (25, 0)] s) with
    mem := { s.mem with layouts := [⟨0, 0, 0xFFF, 0x3000, rec0⟩, ⟨0, 0, 0xFFF, 0x3040, rec1⟩, ⟨0, 0, 0xFFF, 0x3080, rec2⟩] } }
theorem handles_ready (g : Guard) (n : Names) (hn : Small n) : (handles two).Ready wave2 g n := ready_of (by decide +kernel) hn
theorem handles_lone (n : Names) (hn : Small n) : (handles two).Lone wave2 p1 n 3 := lone_of (by decide +kernel) hn
/-- The last 8 bytes of the window, and its first. -/
theorem witness_scratchpads : (Instr.ldsWide (wm 20 14 0xFF (ext (g := p1) (ty := .f64)))).wf = true ∧ (∀ a ∈ [0, 4088], a % 8 = 0 ∧ a + 8 ≤ ((handles two).teamOf 3).scratchSize ∧ ∀ store, lockedScratch 2 store a 8 (handles two) = false) := by decide +kernel
theorem witness_team_accesses : (Instr.lduWide (wm 20 10 0 (ext (g := p1) (fn := 2)))).wf = true ∧ (handles two).MayWrite wave2 p1 ∧
    (handles two).Places 3 .read false 4 ((wmData (wm 20 10 0 (ext (g := p1) (fn := 2)))).vas (((handles two).teamOf 3).rspair 10)) [.glob 0x200200 0x400200 1, .glob 0x200204 0x400204 1, .glob 0x200208 0x400208 1] ∧
    (Instr.stu (sm 20 8 1)).wf = true ∧ (handles two).Places 3 .write true 4 ((smAcc (sm 20 8 1) 4).vas (((handles two).teamOf 3).rspair 8)) [.glob 0x1204 0x201204 0] ∧
    (Instr.stuWide (wm 20 8 0 (ext (fn := 4) (sel := 4)))).wf = true ∧ (wmData (wm 20 8 0 (ext (fn := 4) (sel := 4)))).order = some 4 ∧ (handles two).Settling 3 4 :=
  ⟨by decide +kernel, all_active fun u hu _ => .inr ((by decide +kernel : ∀ u ∈ wave2.members, (handles two).det ((handles two).thr u).team = false) u hu), places_of (by decide +kernel), by decide +kernel, places_of (by decide +kernel), by decide +kernel, by decide +kernel, settling_of (by decide +kernel) 4⟩
theorem witness_handles : (Instr.hbindWide (wa 15 24 0 (ext (g := p1)))).wf = true ∧ (handles two).Places 3 .read false 64 [(((handles two).thr 3).rpair 24).toNat] [.glob 0x3000 0x203000 0] ∧ (((handles two).thr 3).rpair 18).toNat = 0 ∧
    [0x00, 0x41, 0xA2].all (fun w => (Instr.hqry (wa 20 0 0 (ext (w2 := BitVec.ofNat 32 w)))).wf) = true ∧ (∀ h ∈ [0, 1, 2], ∀ u ∈ wave2.members, (nth none ((handles two).teamOf u).h h).bind ((handles two).layout? 0 0 0xFFF) ≠ none) :=
  ⟨by decide +kernel, places_of (by decide +kernel), by decide +kernel, by decide +kernel, by decide +kernel⟩
/-- Layouts: coordinates (2, 3) and (3, 3) of a rank-2 record, a 64-bit element, an element of 4 bits. -/
theorem witness_layouts :
    ((nth none ((handles two).teamOf 3).h 0).bind ((handles two).layout? 0 0 0xFFF) = some rec0 ∧ (layTy rec0).width = 32 ∧ (layCtl rec0).testBit 8 = true ∧ (layCtl rec0).testBit 9 = true ∧
      layPlace rec0 false [2, 3, 0, 0] = .addr 0x2068 none ∧ layPlace rec0 true [3, 3, 0, 0] = .addr 0x206C none ∧ (layPlace rec0 false [8, 3, 0, 0] = .pad 0x55)) ∧
    (layTy rec1).width = 64 ∧ layPlace rec1 false [3, 0, 0, 0] = .addr 0x202018 none ∧ (layTy rec2).width = 4 ∧ layPlace rec2 true [3, 0, 0, 0] = .addr 0x2001 (some true) ∧
    (handles two).Places 3 .write true 4 [0x2068, 0x206C] [.glob 0x2068 0x202068 0, .glob 0x206C 0x20206C 0] ∧ (handles two).Places 3 .read false 8 [0x202018] [.glob 0x202018 0x402018 1] ∧
    (Instr.stt (wa 20 16 17 (ext (g := p1) (fn := 1) (w2 := 0x10)))).wf = true ∧ (Instr.ldt (wa 20 17 0 (ext (g := p1) (w2 := 0x1)))).wf = true :=
  ⟨by decide +kernel, by decide +kernel, by decide +kernel, by decide +kernel, by decide +kernel, places_of (by decide +kernel), places_of (by decide +kernel), by decide +kernel, by decide +kernel⟩
/-- LineOps: clean, dirty and fresh copies in L1, pinned and free lines in L2. -/
def lines (s : State) : State :=
  { s with mem := { s.mem with
      l1 := [⟨0, 0, 0xFFF, 0x22, some (List.replicate 128 1, 1000, 5, false), [], false, 2, false, 0⟩, ⟨0, 0, 0xFFF, 0x23, some (List.replicate 128 1, 1000, 5, false), [(0, 7)], false, 2, false, 0⟩]
      l2 := [⟨0x201100 / 128, 0, 0, 0, 0, 5, false, some (0, 0xFFF, 2, 0x22)⟩, ⟨0x201180 / 128, 0, 0, 0, 0, 5, false, none⟩] } }
theorem lines_lone (n : Names) (hn : Small n) : (lines two).Lone wave2 p1 n 3 := lone_of (by decide +kernel) hn
theorem witness_lines : (Instr.prefWide (wm 0 8 0 (ext (g := p1)))).wf = true ∧ (lines two).Maps 3 .read 0x1100 0x201100 0 0x2001BF ∧ (Instr.invl1Wide (wm 0 8 0 (ext (g := p1) (w2 := 2)))).wf = true ∧ (Instr.unpin (sm 0 8 0)).wf = true ∧
    List.Forall₂ (fun l pa => ∃ mt leaf, (lines two).Maps 3 .read (l * 128) pa mt leaf) [0x22] [0x201100] ∧ (Instr.pin (sm 0 8 1)).wf = true ∧
    (lines two).Places 3 .read false 1 [0x1180] [.glob 0x1180 0x201180 0] ∧ (lines two).l2line? (0x201180 / 128) = some ⟨0x201180 / 128, 0, 0, 0, 0, 5, false, none⟩ ∧ (lines two).waysOf 0 ≠ [] ∧ (Instr.pinWide (wm 0 8 1 (ext (g := p1) (w2 := 0x0)))).wf = true :=
  ⟨by decide +kernel, hits_of (by decide +kernel), by decide +kernel, by decide +kernel, .cons ⟨0, 0x2001BF, hits_of (by decide +kernel)⟩ .nil, by decide +kernel, places_of (by decide +kernel), by decide +kernel, by decide +kernel, by decide +kernel⟩
/-- Atomics: a returning one of 64 bits in DET, one of host memory, a RED in DET with room in the buffer. -/
theorem witness_atomics : (Instr.atom (wa 20 10 20 (ext (g := p1) (fn := 0x20) (ty := .i64) (sel := 2)))).wf = true ∧ (det two).Lone wave2 p1 { rv := [10, 11, 20, 21], wv := [20, 21], cls := .ld } 3 ∧
    (det two).Places 3 .atomic true 8 [(((det two).thr 3).rpair 10).toNat] [.glob 0x200110 0x400110 1] ∧ (Instr.atomf (wa 20 12 20 (ext (g := p1) (fn := 0x30) (ty := .f32) (sel := 2)))).wf = true ∧
    two.Places 3 .atomic true 4 [((two.thr 3).rpair 12).toNat] [.glob 0x400010 0x8000000000010 2] ∧ (Instr.atomc (wa 20 10 20 (ext (g := p1) (fn := 0x10) (ty := .i64) (sel := 2) (c := 22)))).wf = true ∧
    (Instr.red (wa 0 10 20 (ext (g := p1) (ty := .f32)))).wf = true ∧ two.det 2 = false ∧ (det two).det 2 = true ∧ bufferOf 0 (det two) < 2048 ∧ (det two).waits = false :=
  ⟨by decide +kernel, lone_of (by decide +kernel) (by unfold Small; decide), places_of (by decide +kernel), by decide +kernel, places_of (by decide +kernel), by decide +kernel, by decide +kernel, by decide +kernel, by decide +kernel, by decide +kernel, by decide +kernel⟩
/-- A thread with a load outstanding. -/
def busy (s : State) : State := { s with reqs := [⟨77, 1, .ld, [3], 0, 2, .load 3 [⟨.glob 0x200100 0x400100 1, 4, 20, .i32, none⟩], 0, 0, false, none, 0, 0⟩], nextId := 90, threads := s.threads.map (fun (t : Thread) => if t.uid = 3 then { t with ld := 1, pendV := [20] } else t) }
theorem uncollected_of {s : State} {u : Nat} (h : s.coll = []) : s.Uncollected u := fun e he => by simp [h] at he
/-- Fences: with nothing outstanding, with a load outstanding, in a DET launch. -/
theorem witness_fences : one.Uncollected 3 ∧ (busy one).Uncollected 3 ∧ ((busy one).thr 3).relDone = false ∧ memPending 3 (busy one) = true ∧ ((busy one).thr 3).ld ≠ 0 ∧ (det one).det 2 = true ∧ one.det 2 = false ∧
    [Instr.fenceRel (ss 4 0 0), .fenceArWide (ws 0 0 0 (ext (fn := 2) (sel := 4))), .fenceAcq (ss 0 0 0 1), .aflush (sa 0 0 0), .aflushWide (wa 0 0 0 (ext (g := p1)))].all Instr.wf = true :=
  ⟨(settling_of (by decide +kernel) 0).2.1, uncollected_of (by decide +kernel) , by decide +kernel, by decide +kernel, by decide +kernel, by decide +kernel, by decide +kernel, by decide +kernel⟩
/-- Counters: a counter in a line that L2 holds, and one of the host; thresholds at and above it. -/
theorem witness_counters : (Instr.ctradd (wa 0 10 20 (ext (fn := 2)))).wf = true ∧ one.Places 3 .atomic true 8 [((one.thr 3).rpair 10).toNat] [.glob 0x200110 0x400110 1] ∧ (∃ m leaf, one.Maps 3 .atomic 0x200110 0x400110 m leaf ∧ m < 2) ∧ one.Released 3 3 ∧
    (Instr.ctrwait (wa 0 10 0 (ext (fn := 3) (lit := true) (w2 := 7)))).wf = true ∧ (l2s [0x400110] one).Places 3 .read false 8 [0x200110] [.glob 0x200110 0x400110 1] ∧
    (regionOf 0x400110).local = true ∧ 0x400110 / 128 ∉ (l2s [0x400110] one).mem.poison ∧ (l2s [0x400110] one).l2line? (0x400110 / 128) = some ⟨0x400110 / 128, 0, 0, 0, 0, 5, false, none⟩ ∧ (l2s [0x400110] one).gtick ≠ 5 ∧ leNat ((wr 0x400110 [7] one).mem.bytes.readN 0x400110 8) = 7 :=
  ⟨by decide +kernel, places_of (by decide +kernel), ⟨1, 0x4005BF, hits_of (by decide +kernel), by decide⟩, released_of (by decide +kernel) 3, by decide +kernel, places_of (by decide +kernel), by decide +kernel, by decide +kernel, by decide +kernel, by decide +kernel, by decide +kernel⟩
/-- Copies: length 0, 64 bytes with room and with the queue full; the promises of a thread's copies. -/
def copying (s : State) : State := { s with copies := (List.range 32).map (fun n => (⟨1000 + n, 3, 0, 2, 0, 0xFFF, true, 0x5000, true, 0x6000, 64, 0, 50, 0, false, false, none, false, 0⟩ : Copy)), nextId := 2000 }
theorem witness_copies : (Instr.cpy (wa 40 30 34 (ext (g := p1) (c := 32)))).wf = true ∧ (copying two).Lone wave2 p1 { rv := [30, 31, 32, 33, 34], wv := [40, 41], cls := .cp } 3 ∧ queued 0 two < 32 ∧ queued 0 (copying two) = 32 ∧
    (let s := regs [(30, 0x2000), (31, 0), (32, 0x3000), (33, 0), (34, 64)] two; ((s.thr 3).rpair 30).toNat + 64 ≤ ((s.thr 3).rpair 32).toNat ∧ canonical 0x2000 = true ∧ canonical 0x203F = true) ∧
    (∀ u, (copying two).Active wave2 p1 u → ∀ c ∈ (copying two).copies, c.th = u → (copying two).viewOf c.fn < c.promise) :=
  ⟨by decide +kernel, lone_of (by decide +kernel) (by unfold Small; decide), by decide +kernel, by decide +kernel, by decide +kernel, all_active (by decide +kernel)⟩

/-! ### Hypotheses of the statements about issue: sets, barriers, engines -/

/-- The threads of a wave are the whole set of register n of team k. -/
def meets (s : State) (w : Wave) (n k : Nat) : Bool :=
  w.members.all (fun u => (s.thr u).team == k && ((s.tm k).conv n).isMember (s.thr u).tid) && ((s.tm k).conv n).members.all (fun m => w.members.any (fun u => (s.thr u).tid == m.2)) && ((s.tm k).conv n).signed.isEmpty &&
  w.members.all (fun u => w.members.all (fun v => (s.thr u).pc == (s.thr v).pc && ((s.thr u).lane != (s.thr v).lane || u == v))) &&
  s.threads.all (fun t => t.team != k || w.members.all (fun u => t.tid != (s.thr u).tid || t.uid == u))
theorem meets_of {s : State} {w : Wave} {n k : Nat} (h : meets s w n k = true) : s.Meets w n k := by
  simp only [meets, Bool.and_eq_true, List.all_eq_true, beq_iff_eq, List.isEmpty_iff, Bool.or_eq_true, bne_iff_ne, ne_eq] at h
  obtain ⟨⟨⟨⟨h1, h2⟩, h4⟩, h5⟩, h6⟩ := h
  refine ⟨fun u hu => (h1 u hu).1, fun tid => ⟨fun hm => ?_, ?_⟩, h4, fun u hu v hv => (h5 u hu v hv).1, fun u hu v hv e => ?_, fun t ht hk u hu e => ?_⟩
  · unfold Conv.isMember at hm
    obtain ⟨m, hm, e⟩ := List.any_eq_true.1 hm
    obtain ⟨u, hu, e'⟩ := List.any_eq_true.1 (h2 m hm)
    exact ⟨u, hu, by simp_all⟩
  · rintro ⟨u, hu, rfl⟩
    exact (h1 u hu).2
  · exact (h5 u hu v hv).2.resolve_left (fun h' => h' e)
  · exact ((h6 t ht).resolve_left (fun h' => h' hk) u hu).resolve_left (fun h' => h' e)
/-- Register 3 of every team holds TIDs 0 and 1, or those of a mask. -/
def sets (m : Word) (s : State) : State := tmm (fun t => t.setConv 3 ⟨0, m, 0, []⟩) s
/-- Collectives: every form of the whole set, under a guard that is false in one member, and for each type. -/
theorem witness_collectives : (sets 3 two).Meets wave2 3 2 ∧ (∀ (g : Guard) (n : Names), Small n → (sets 3 two).Ready wave2 g n) ∧
    [Instr.csign (wa 0 0 0 (ext (w2 := 3))), .shfl (wa 20 21 22 (ext (g := p1) (fn := 3) (w2 := 3))), .vote (wa 2 3 0 (ext (fn := 1) (w2 := 3))), .vote (wa 20 3 0 (ext (fn := 2) (w2 := 3))), .vred (wa 20 30 0 (ext (fn := 0) (ty := .f64) (rnd := 4) (w2 := 3))),
      .vred (wa 20 31 0 (ext (fn := 5) (ty := .n32) (w2 := 3))), .vred (wa 20 31 0 (ext (fn := 6) (ty := .f16) (sel := 1) (w2 := 3))), .mxsc (wa 20 30 0 (ext (g := p1) (ty := .e2m1) (sel := 7) (c := 25) (w2 := 0x33)))].all Instr.wf = true :=
  ⟨meets_of (by decide +kernel), fun _ _ hn => ready_of (by decide +kernel) hn, by decide +kernel⟩
/-- Sets: a set of both threads; a thread that signs first. -/
theorem witness_sets : (Instr.cinit (wa 7 30 31 ext)).wf = true ∧ (let s := regs [(30, 0), (31, 3)] two
      s.Supplies wave2 Guard.always 2 3 ∧ ((s.thr 3).rv 30).toNat % 32 = 0 ∧ ((s.tm 2).conv 7).signed = [] ∧ (∀ i < 32, ((s.thr 3).rv 31).getLsbD i = true → ((s.thr 3).rv 30).toNat + i < (s.tm 2).size) ∧
      (∀ t ∈ s.threads, ∀ t' ∈ s.threads, t.team = 2 → t'.team = 2 → t.lane = t'.lane → Conv.isMember ⟨0, 3, 0, []⟩ t.tid = true → Conv.isMember ⟨0, 3, 0, []⟩ t'.tid = true → t.tid = t'.tid)) ∧
    (Instr.csign (wa 0 0 0 (ext (w2 := 3)))).wf = true ∧ (sets 3 one).Numbered ∧ (((sets 3 one).tm 2).conv 3).isMember 0 = true ∧ (((sets 3 one).tm 2).conv 3).isMember 1 = true ∧ (∀ b, (1, b) ∉ (((sets 3 one).tm 2).conv 3).signed) :=
  ⟨by decide +kernel, ⟨supplies_of (s := regs [(30, 0), (31, 3)] two) (l := 3) (by decide +kernel), by decide +kernel⟩, by decide +kernel, numbered_of (by decide +kernel), by decide +kernel, by decide +kernel, by decide +kernel⟩
/-- Blocks: a pool with two blocks, an empty one, a thread with one block, a thread with 128 registers. -/
def pools (p : List Nat) (own : Nat) (bl : List Nat) (s : State) : State := tmm (fun (t : Team) => { t with pool := (t.pool.set 0 p).set 1 p }) (thm (fun (t : Thread) => if t.uid = 3 then { t with v := t.v.take own, blocks := bl } else t) s)
/-- A thread that owns fewer registers, an instruction that names none. -/
theorem bare_ready {s : State} {w : Wave} {g : Guard} {n : Names} (hs : (s.waves.head? == some w && decide w.members.Nodup && w.members.all (fun u => s.threads.any (fun t => t.uid == u) && (s.thr u).phase == .issuing && s.teams.any (fun k => k.uid == (s.thr u).team) && (s.thr u).pendP.isEmpty)) = true)
    (hn : n.rv = [] ∧ n.wv = [] ∧ n.rs = [] ∧ n.ws = [] ∧ n.rh = [] ∧ n.cls = .none) : s.Ready w g n := by
  simp only [Bool.and_eq_true, beq_iff_eq, decide_eq_true_eq, List.all_eq_true, List.isEmpty_iff, List.any_eq_true] at hs
  obtain ⟨⟨h1, h2⟩, h3⟩ := hs
  obtain ⟨n1, n2, n3, n4, n5, n6⟩ := hn
  refine ⟨⟨h1, h2, fun u hu => ⟨?_, (h3 u hu).1.1.2⟩, fun u hu => ?_⟩, fun u hu => ?_⟩
  · obtain ⟨t, ht, e⟩ := (h3 u hu).1.1.1; exact ⟨t, ht, e⟩
  · obtain ⟨k, hk, e⟩ := (h3 u hu).1.2; exact ⟨k, hk, e⟩
  · have := (h3 u hu).2
    constructor <;> simp_all
theorem witness_blocks : (pools [2, 3] 32 [1] one).Ready wave1 Guard.always { wp := [2] } ∧ (pools [2, 3] 32 [1] one).Numbered ∧ (∀ v, (pools [2, 3] 32 [1] one).Active wave1 Guard.always v ↔ v = 3) ∧
    (let s := pools [2, 3] 32 [1] one; (2 ∈ nth [] (s.tm 2).pool (s.thr 3).lane ∧ ∀ c ∈ nth [] (s.tm 2).pool (s.thr 3).lane, 2 ≤ c) ∧ (s.thr 3).owned + 16 ≤ 128 ∧ (∀ t ∈ s.threads, t.phase ≠ .claimWait) ∧ (s.thr 3).blocks = [1]) ∧
    (let s := pools [] 128 [] two; nth [] (s.tm 2).pool (s.thr 3).lane = [] ∧ 128 < (s.thr 3).owned + 16 ∧ (s.thr 3).blocks = [] ∧ ∃ t ∈ s.threads, t.team = (s.thr 3).team ∧ t.uid ≠ 3 ∧ t.phase ≠ .exited ∧ t.phase ≠ .claimWait) ∧
    [Instr.claim (ss 7 0 0), .claimWide (ws 0 0 0 ext), .claimw (ss 0 0 0 1), .give (ss 0 0 0 2)].all Instr.wf = true := by
  refine ⟨bare_ready (by decide +kernel) (by decide), numbered_of (by decide +kernel), fun v => ⟨fun h => ?_, fun h => ?_⟩, by decide +kernel, by decide +kernel, by decide +kernel⟩
  · have := h.1; simpa [wave1] using this
  · subst h; exact ⟨by decide, by decide +kernel⟩
/-- Barriers: the first arrival of a team of two; the last one with another waiting; a thread that has arrived. -/
def waiting : State :=
  { tmm (fun t => t.setBar 2 ((t.bar 2).arrive none [])) (thm (fun (t : Thread) => if t.uid = 4 then { t with arrived := 4, phase := .barrier, npc := 0x1004, wait := { t.wait with reg := 2 } } else t) two) with waves := [wave1] }
def arrivedOnce : State := thm (fun (t : Thread) => { t with arrived := if t.uid = 3 then 4 else 0 }) one
theorem witness_barriers : two.Lone wave2 p1 {} 3 ∧ (two.thr 3).arrived.getLsbD 2 = false ∧ (∀ e ∈ two.coll, ∀ r ∈ e.reqs, 3 ∉ r.threads) ∧
    barrierDone 2 2 ((two.modTeam 2 (fun tm => tm.setBar 2 ((tm.bar 2).arrive none (arrivalReqs 3 two)))).modThr 3 (fun t => { t with arrived := t.arrived ||| (1#16 <<< 2) })) = false ∧
    waiting.Lone wave1 Guard.always {} 3 ∧ barrierDone 2 2 ((waiting.modTeam 2 (fun tm => tm.setBar 2 ((tm.bar 2).arrive none (arrivalReqs 3 waiting)))).modThr 3 (fun t => { t with arrived := t.arrived ||| (1#16 <<< 2) })) = true ∧
    (∀ v ∈ waiting.threads, v.team = 2 → v.waitsIn .barrier = true → v.wait.reg = 2 → v.wait.mode = 0) ∧ (∃ v ∈ waiting.threads, v.phase = .barrier) ∧
    (arrivedOnce.thr 3).arrived.getLsbD 2 = true ∧ barrierDone 2 2 arrivedOnce = false ∧ [Instr.barSync (ss 15 5 1), .barArriveWide (ws 2 0 0 (ext (fn := 1))), .barSyncWide (ws 2 0 0 (ext (lit := true) (w2 := 0x1))), .barWait (ss 2 0 0 2)].all Instr.wf = true :=
  ⟨lone_of (by decide +kernel) (by unfold Small; decide), by decide +kernel, by decide +kernel, by decide +kernel, lone_of (by decide +kernel) (by unfold Small; decide), by decide +kernel, by decide +kernel, by decide +kernel, by decide +kernel, by decide +kernel, by decide +kernel⟩
/-- Services: thread 3 of a service context names record 0 of its ring, an open ALIGNMENT record of thread 4. -/
def faulted : State :=
  { regs [(8, 0x1000), (20, 0)] two with
    contexts := two.contexts.map (fun (c : Context) => { c with desc := leBytes 0 28 ++ leBytes 1 4 ++ leBytes 0 16 ++ leBytes 0x200000 8 ++ leBytes 0 72, seq := 1 })
    threads := (regs [(8, 0x1000), (20, 0)] one).threads ++ [{ thread 4 1 with phase := .faulted }], waves := [wave1]
    faults := [⟨1, .alignment, {}, 0, 0xFFF, 1, 0, 2, 0, 0x1000, 0x1000, 2, [4], 3, 0, false, 0, 0, false, some 0, 0⟩] }
theorem witness_services : (Instr.trapSvcWide (ws 63 56 0 (ext (g := p1)))).wf = true ∧ (Instr.resume (wa 0 8 20 (ext (fn := 4)))).wf = true ∧ faulted.Lone wave1 Guard.always { rv := [8, 9, 20] } 3 ∧ (faulted.thr 3).rv 20 = 0 ∧
    (∃ c, faulted.context? 0 0xFFF = some c ∧ (fieldOf c.desc 28 4).testBit 0 = true) ∧ faulted.Maps 3 .read ((faulted.thr 3).rpair 8).toNat 0x201000 0 0x2001BF ∧
    (∃ r ∈ faulted.faults, recordAt 0 0x201000 faulted = .faultRec r ∧ r.deferred = false ∧ r.wide = false ∧ r.threads = [4] ∧ r.cause = .alignment ∧ (∀ q ∈ faulted.faults, 4 ∈ q.threads ∨ q.id = r.id → q = r) ∧ r.id < faulted.nextId) ∧
    (faulted.thr 4).phase = .faulted ∧ (faulted.thr 4).image = [] ∧ (∃ t ∈ faulted.threads, t.uid = 4) :=
  ⟨by decide +kernel, by decide +kernel, lone_of (by decide +kernel) (by unfold Small; decide), by decide +kernel, ⟨_, rfl, by decide +kernel⟩, hits_of (by decide +kernel), by decide +kernel, by decide +kernel, by decide +kernel, by decide +kernel⟩

/-! ### Hypotheses of the statements about engine requests -/

/-- The bytes at va come from a usable copy in L1. -/
def l1Holds (s : State) (u va n : Nat) (bs : List Byte) : Bool :=
  match places s u .read false n [va] with
  | some [.glob va' _ 0] => va' == va && (match s.l1? (s.teamOf u).core (s.ctxOf u).1 (s.ctxOf u).2 (va / 128) with
    | some x => (x.dirty.isEmpty || x.team == (s.teamOf u).uid) && usable (s.teamOf u) x s && x.bytes (va % 128) n == (bs, false)
    | none => false)
  | _ => false
theorem cached_of {s : State} {u va n : Nat} {bs : List Byte} (h : l1Holds s u va n bs = true) : s.Cached u va n bs := by
  unfold l1Holds at h
  split at h
  · rename_i va' pa he
    simp only [Bool.and_eq_true, beq_iff_eq] at h
    obtain ⟨rfl, h⟩ := h
    split at h
    · rename_i x hx
      simp only [Bool.and_eq_true, beq_iff_eq, Bool.or_eq_true, List.isEmpty_iff] at h
      exact ⟨pa, x, places_of he, hx, h.1.1, h.1.2, h.2⟩
    · simp at h
  · simp at h
/-- The bytes at va lie in lines that L2 holds. -/
def l2Holds (s : State) (u : Nat) : List Nat → List Nat → List L2Line → Bool
  | [], [], [] => true
  | va :: vs, pa :: ps, l :: ls =>
    (match hit s (s.teamOf u).core (s.ctxOf u).1 (s.ctxOf u).2 .read va with | some (a, _, _) => a == pa | none => false) && (regionOf pa).local && pa % 128 == va % 128 && !s.mem.poison.contains (pa / 128) &&
    s.l2line? (pa / 128) == some l && l.last != s.gtick && l2Holds s u vs ps ls
  | _, _, _ => false
theorem resident_of {s : State} {u va n : Nat} {ls : List L2Line} {bs : List Byte} (pas : List Nat) (h : l2Holds s u (chunks va n) pas ls = true) (hl : (ls.map L2Line.line).Nodup)
    (hb : bs = ((chunks va n).zip pas).flatMap (fun c => s.mem.bytes.readN c.2 (min (va + n - c.1) (128 - c.1 % 128)))) : s.Resident u va n ls bs := by
  refine ⟨pas, ?_, ?_, hl, hb⟩ <;> clear hb hl
  all_goals
    generalize chunks va n = cs at h
    induction cs generalizing pas ls with
    | nil => cases pas <;> cases ls <;> simp_all [l2Holds]
    | cons c cs ih =>
      cases pas with
      | nil => simp [l2Holds] at h
      | cons p ps =>
        cases ls with
        | nil => simp [l2Holds] at h
        | cons l ls =>
          simp only [l2Holds, Bool.and_eq_true, beq_iff_eq, bne_iff_ne, ne_eq, Bool.not_eq_true'] at h
          obtain ⟨⟨⟨⟨⟨⟨h1, h2⟩, h3⟩, h4⟩, h5⟩, h6⟩, h7⟩ := h
          split at h1
          · rename_i a mt leaf he
            have hp : a = p := by simpa using h1
            subst hp
            first
              | exact .cons ⟨mt, leaf, hits_of he, h2, h3, by simpa using h4⟩ (ih ps h7)
              | exact .cons ⟨h5, h6⟩ (ih ps h7)
          · simp at h1
/-- No dirty line of a team is left. -/
theorem settledAt_of {s : State} {k : Nat} (h : s.dirtyOf k = []) (va n : Nat) : s.Settled k va n := fun x hx => by simp [h] at hx

/-- TileRequests: a name of the instruction, one of an s register at the largest value with the last part; every kind. -/
def tileX (d a b w2 : Nat) : WA := wa d a b (ext (g := p1) (w2 := BitVec.ofNat 32 w2))
theorem witness_tiles : [Instr.tdef (tileX 0 16 24 0x20470009), .tdef (tileX 0 16 24 0x20478009), .tld (tileX 16 0 24 0x20470009), .tkill (tileX 0 0 0 9)].all Instr.wf = true ∧
    (⟨0, false, 9, 0x2047, 16, 24⟩ : TileForm).bad = false ∧ (tileX 0 16 24 0x20470009).x.w2.getLsbD 15 = false ∧ bitsOf (tileX 0 16 24 0x20470009).x.w2.toNat 31 16 = 0x2047 ∧ bitsOf (tileX 0 16 24 0x20470009).x.w2.toNat 9 0 = 9 ∧
    (let s := tmm (fun t => { t with s := t.s.set 9 1023 }) (regs [(24, 31)] two)
     (∀ n, Small n → s.Lone wave2 p1 n 3) ∧ ((s.teamOf 3).rs 9).toNat = 1023 ∧ ((s.thr 3).rv 24).toNat = 31) :=
  ⟨by decide +kernel, by decide +kernel, by decide +kernel, by decide +kernel, by decide +kernel, fun _ hn => lone_of (by decide +kernel) hn, by decide +kernel, by decide +kernel⟩
/-- MatrixRequests: room in the table and a full one, records with and without zero blocks in the layout cache. -/
def recA : List Byte := record 8 1 2 1 3 0x2000 0x5000 [8, 4, 1, 1] [2, 32, 0, 0] 0x55
def recB : List Byte := record 8 0 2 1 3 0x2000 0 [8, 4, 1, 1] [2, 32, 0, 0] 0x55
def matrix : State :=
  let s := sets 3 (regs [(20, 0), (21, 0), (22, 0), (23, 0)] two)
  { tmm (fun t => { t with h := [some 0x3000, some 0x3040] ++ List.replicate 14 none }) s with mem := { s.mem with layouts := [⟨0, 0, 0xFFF, 0x3000, recA⟩, ⟨0, 0, 0xFFF, 0x3040, recB⟩] } }
def mm (d a b c : Nat) (ty : ElemType) (fn w2 : Nat) : WA := wa d a b (ext (fn := fn) (ty := ty) (c := c) (w2 := BitVec.ofNat 32 w2))
def fullTable : State := { matrix with reqs := (List.range 16).map (fun i => (⟨100 + i, 50 + i, .tl, [], 0, 2, .matrix ⟨.mma (mm 0 16 24 0 .f16 7 3), [], [], [], [], [], none, true, none, 0⟩, 0, 0, false, none, 0, 0⟩ : Req)), nextId := 900 }
theorem witness_matrix : matrix.Numbered ∧ matrix.Meets wave2 3 2 ∧ (∀ (g : Guard) (n : Names), Small n → matrix.Ready wave2 g n) ∧ (matrix.actives wave2 Guard.always 3 2).map (·.1) = [3, 4] ∧ (matrix.tm 2).saved = none ∧
    ((tableOf (clusterOf (matrix.tm 2).core) matrix).length < 16 ∧ tableHeld (clusterOf (matrix.tm 2).core) matrix.nextId matrix = false) ∧ ¬ (tableOf (clusterOf (fullTable.tm 2).core) fullTable).length < 16 ∧
    [Instr.mma (mm 0 16 32 0 .f16 7 3), .mma (mm 0 32 48 20 .f16 0x17 3), .mmas (mm 0 20 22 0 .f16 7 0x113), .mmas (mm 0 20 22 0 .f16 0x17 0x103), .amovFrom (mm 96 0 0 0 .f32 0 3), .amovInto (mm 0 112 0 0 .f64 1 3), .amovZero (mm 0 0 0 0 .i32 2 3)].all Instr.wf = true ∧
    mmaZs (mm 0 16 32 0 .f16 7 3) = false ∧ mmaZs (mm 0 32 48 20 .f16 0x17 3) = true ∧ (nth none (matrix.tm 2).h 0).bind (matrix.layout? 0 0 0xFFF) = some recA ∧ layGran recA ≠ 0 ∧ (layCtl recA).testBit 8 = true ∧
    (nth none (matrix.tm 2).h 1).bind (matrix.layout? 0 0 0xFFF) = some recB ∧ layTy recB = .f16 ∧ matrix.dirtyOf 2 = [] :=
  ⟨numbered_of (by decide +kernel), meets_of (by decide +kernel), fun _ _ hn => ready_of (by decide +kernel) hn, by decide +kernel, by decide +kernel, by decide +kernel, by decide +kernel, by decide +kernel, by decide +kernel, by decide +kernel, by decide +kernel, by decide +kernel, by decide +kernel, by decide +kernel, by decide +kernel, by decide +kernel⟩
/-- Transports: descriptors in L1, the row and the rank table in L2, an older store to the row. -/
def sendDesc : List Byte := flat [(0x200000, 8), (16, 4), (8, 4), (0x100, 8), (2, 4), (0, 4), (0x40, 8), (0, 24)]
def sending : State := l1c 0x1100 sendDesc (l2s [0x400000] (regs [(8, 0x1100), (20, 0x20003), (21, 2)] two))
def row : L2Line := ⟨0x400000 / 128, 0, 0, 0, 0, 5, false, none⟩
def lateStore : State := { sending with reqs := [⟨77, 1, .st, [3], 0, 2, .store 3 [⟨.glob 0x200020 0x400020 1, [1, 2], none⟩], 0, 0, false, none, 0, 0⟩], nextId := 90 }
theorem witness_dsend : sending.Cached 3 0x1100 64 sendDesc ∧ (Instr.dsend (wa 40 8 20 (ext (g := p1) (c := 21)))).wf = true ∧ (∀ n, Small n → sending.Lone wave2 p1 n 3 ∧ lateStore.Lone wave2 p1 n 3) ∧ sendBad sendDesc = false ∧ routeBad 0x20003 = false ∧ routeExpert 0x20003 < 8 ∧
    sending.Settled 2 0x200020 16 ∧ sourceLate sending.nextId 3 2 0x200020 16 sending = false ∧ sourceLate lateStore.nextId 3 2 0x200020 16 lateStore = true ∧ sending.Resident 3 0x200020 16 [row] (sending.mem.bytes.readN 0x400020 16) :=
  ⟨cached_of (by decide +kernel), by decide +kernel, fun _ hn => ⟨lone_of (by decide +kernel) hn, lone_of (by decide +kernel) hn⟩, by decide +kernel, by decide +kernel, by decide +kernel, settledAt_of (by decide +kernel) _ _, by decide +kernel, by decide +kernel,
    resident_of [0x400020] (by decide +kernel) (by decide) (by decide +kernel)⟩
def combDesc : List Byte := flat [(0x200000, 8), (16, 4), (8, 4), (0x100, 8), (2, 4), (4, 4), (0, 32)]
def combining : State := l1c 0x1100 combDesc (regs [(8, 0x1100), (20, 0x20003), (21, 2), (22, 0x00003), (23, 5), (24, 0xFFFFFFFF), (30, 7), (31, 0x3F800000), (32, 0x3F800000)] two)
theorem witness_dcomb : combining.Cached 3 0x1100 64 combDesc ∧ (Instr.dcomb (wa 0 8 20 (ext (g := p1) (fn := 1) (ty := .f32) (c := 31) (w2 := 30)))).wf = true ∧ (∀ n, Small n → combining.Lone wave2 p1 n 3) ∧ combBad combDesc 4 = false ∧
    (∀ r ∈ combRegs (wa 0 8 20 (ext (g := p1) (fn := 1) (ty := .f32) (c := 31) (w2 := 30))) 2, r < (combining.thr 3).owned ∧ r ∉ (combining.thr 3).poison ∧ r ∉ (combining.thr 3).pendV) ∧ (combining.thr 3).pendV = [] ∧
    (∀ r ∈ [0x20003, 0x00003], routeBad r = false ∧ routeExpert r < 4) :=
  ⟨cached_of (by decide +kernel), by decide +kernel, fun _ hn => lone_of (by decide +kernel) hn, by decide +kernel, by decide +kernel, by decide +kernel, by decide +kernel⟩
def collDesc : List Byte := flat [(0x200000, 8), (0x201000, 8), (4, 4), (2, 1), (1, 1), (0, 1), (0x06, 1), (7, 2), (0, 2), (0, 4), (0x40, 8), (0x200080, 8), (0, 16)]
def collecting : State := l1c 0x1100 collDesc (l2s [0x400080] (regs [(8, 0x1100)] (wr 0x400080 [1, 0] two)))
theorem witness_coll : collecting.Cached 3 0x1100 64 collDesc ∧ (Instr.coll (wa 0 8 0 (ext (g := p1)))).wf = true ∧ (∀ n, Small n → collecting.Lone wave2 p1 n 3) ∧ collBad 0 collDesc = false ∧ collecting.Settled 2 (fieldOf collDesc 0 8) (collBytes 0 collDesc).1 ∧
    collecting.Resident 3 (fieldOf collDesc 40 8) 32 [⟨0x400080 / 128, 0, 0, 0, 0, 5, false, none⟩] (collecting.mem.bytes.readN 0x400080 32) ∧ ((collecting.mem.bytes.readN 0x400080 32).take (fieldOf collDesc 20 1)).Nodup :=
  ⟨cached_of (by decide +kernel), by decide +kernel, fun _ hn => lone_of (by decide +kernel) hn, by decide +kernel, settledAt_of (by decide +kernel) _ _, resident_of [0x400080] (by decide +kernel) (by decide) (by decide +kernel), by decide +kernel⟩
/-- Worlds: a bound world of two types with one shape; a query in L1; a view that is open; a compaction that follows the publish. -/
def worldDesc : List Byte := flat [(0x100000, 8), (0xFFF, 2), (0, 6), (0x10000, 8), (16, 4), (16, 4), (0x11000, 8), (0x12000, 8), (0x13000, 8), (0x14000, 8), (0x20000, 8), (16, 4), (0x10000, 4), (0x15000, 8), (0x15100, 8)] ++ List.replicate 160 0
def table1 : Tables := ⟨4, [⟨1, [(0, 8), (1, 4)]⟩], [⟨0, 1, 3, 5⟩], [⟨0, 0, true, 1, 0, 0⟩, ⟨2, 1, true, 1, 0, 2⟩], 0⟩
def world5 : World := ⟨0, 5, worldDesc, [table1], 4, [], 0, 0, [], 0, 0, 0, 3, [], [], [], [], none, List.replicate 12 0, 0, none, false, false⟩
def viewed : World := { world5 with viewTeams := [(2, 3)], tables := [table1, { table1 with gen := 3, views := 1 }] }
def living (y : World) : State :=
  let s := wr 0x214000 (flat [(8, 2), (4, 2), (4, 2)]) (l1c 0x1100 (flat [(0x010101, 4), (0, 4), (1, 4), (2, 4)]) (regs [(8, 0x1100), (20, 9), (6, 7), (7, 0x05000000)] two))
  { s with worlds := [y], grids := s.grids.map (fun (g : Grid) => { g with world := some 5 }) }
theorem witness_worlds : (living world5).worldOf 3 = some world5 ∧ (∀ n, Small n → (living world5).Lone wave2 p1 n 3 ∧ (living viewed).Lone wave2 p1 n 3) ∧
    [Instr.eqry (wa 30 8 20 (ext (g := p1) (w2 := 2))), .elook (wa 30 8 20 (ext (g := p1) (w2 := 7))), .eeditNew (wa 0 8 10 (ext (g := p1) (w2 := 2))), .eeditDel (wa 0 6 0 (ext (g := p1) (fn := 1))), .eeditAdd (wa 0 6 20 (ext (g := p1) (fn := 2))), .eeditRem (wa 0 6 20 (ext (g := p1) (fn := 3))),
      .eviewOpen (wa 0 0 0 (ext (g := p1) (w2 := 2))), .eviewClose (wa 0 0 0 (ext (g := p1) (fn := 1))), .ecol (si 30 20 255), .ecolWide (wa 30 20 0 (ext (g := p1) (lit := true) (w2 := 1023))), .keys (sa 0 0 0), .keysWide (wa 0 0 0 (ext (g := p1)))].all Instr.wf = true ∧
    countsBad 0x010101 = false ∧ (∀ j < 4, (living world5).Cached 3 (0x1100 + 4 * j) 4 (leBytes (nth 0 [0x010101, 0, 1, 2] j) 4)) ∧ (0 ∉ (typeSizes world5 [0, 1, 2] (living world5)).2) ∧ (typeSizes world5 [0, 1, 2] (living world5)).1.mem.bytes = (living world5).mem.bytes ∧
    (((living world5).thr 3).rpair 6).toNat / 2 ^ 56 % 256 = world5.id ∧ (((living world5).thr 3).rv 20).toNat = 9 ∧ (((living world5).thr 3).rpair 8).toNat % 4 = 0 ∧ (((living world5).thr 3).rpair 10).toNat % 8 = 0 ∧
    (living world5).MayWrite wave2 p1 ∧ world5.viewTeams.any (fun v => v.1 == 2) = false ∧ (living viewed).worldOf 3 = some viewed ∧ viewed.viewTeams.any (fun v => v.1 == 2) = true ∧ world5.compacted = false ∧ (living world5).det 2 = false ∧ (det (living world5)).det 2 = true ∧ (living world5).Released 3 3 := by
  refine ⟨by decide +kernel, fun _ hn => ⟨lone_of (by decide +kernel) hn, lone_of (by decide +kernel) hn⟩, by decide +kernel, by decide +kernel, ?_, by decide +kernel, by decide +kernel, by decide +kernel, by decide +kernel, by decide +kernel, by decide +kernel, ?_, by decide +kernel, by decide +kernel, by decide +kernel, by decide +kernel, by decide +kernel, by decide +kernel, released_of (by decide +kernel) 3⟩
  · have : ∀ j < 4, l1Holds (living world5) 3 (0x1100 + 4 * j) 4 (leBytes (nth 0 [0x010101, 0, 1, 2] j) 4) = true := by decide +kernel
    exact fun j hj => cached_of (this j hj)
  · exact all_active fun u hu _ => .inr ((by decide +kernel : ∀ u ∈ wave2.members, (living world5).det ((living world5).thr u).team = false) u hu)
/-- Splats: a frame in L2, room in the binner's queue and a full one. -/
def frame : List Byte := leBytes 0 64 ++ flat [(64, 4), (64, 4)] ++ List.replicate 16 0 ++ flat [(16, 4), (0, 4)] ++ List.replicate 96 0
def framed : State := tmm (fun t => { t with frame := 0x200000, near := 0x3F800000, tcut := 0x3F000000 }) (l2s [0x400000, 0x400080] (regs [(20, 3), (22, 5), (24, 0x2000), (25, 0), (30, 0x3F800000)] (wr 0x400000 frame two)))
def fullBins : State := { framed with bins := (List.range 4).map (fun i => (⟨600 + i, 0, 2, [], 0, 0, false, false, 0, none, none, 0, [], 0⟩ : BinReq)), nextId := 900 }
theorem witness_splats : (∀ (g : Guard) (n : Names), Small n → framed.Ready wave2 g n) ∧ (∀ n, Small n → framed.Lone wave2 p1 n 3 ∧ fullBins.Lone wave2 p1 n 3) ∧ (∀ u, framed.Active wave2 p1 u → positiveFinite ((framed.thr u).rv 30).toNat = true) ∧
    [Instr.sctlSet (wa 0 24 0 (ext (g := p1) (w2 := 0))), .sctlSet (wa 0 30 0 (ext (g := p1) (w2 := 2))), .sctlGet (wa 30 0 0 (ext (fn := 1) (w2 := 3))), .sproj (wa 40 24 20 (ext (g := p1) (w2 := 2))), .sblendFwd (wa 40 20 22 (ext (g := p1))), .sblendBack (wa 0 20 22 (ext (g := p1) (fn := 1))), .sbin (wa 0 0 0 (ext (g := p1) (w2 := 2)))].all Instr.wf = true ∧
    (framed.teamOf 3).frame ≠ 0 ∧ (framed.teamOf 3).frame.toNat % 64 = 0 ∧ framed.Resident 3 0x200000 192 [⟨0x400000 / 128, 0, 0, 0, 0, 5, false, none⟩, ⟨0x400080 / 128, 0, 0, 0, 0, 5, false, none⟩] frame ∧ frameBad frame = false ∧
    (binQueue (clusterOf (framed.teamOf 3).core) framed).length < 4 ∧ (binQueue (clusterOf (fullBins.teamOf 3).core) fullBins).length = 4 ∧ ((framed.thr 3).rv 20).toNat < fieldOf frame 64 4 ∧ ((framed.thr 3).rv 22).toNat < fieldOf frame 68 4 ∧ ((framed.thr 3).rpair 24).toNat % 64 = 0 :=
  ⟨fun _ _ hn => ready_of (by decide +kernel) hn, fun _ hn => ⟨lone_of (by decide +kernel) hn, lone_of (by decide +kernel) hn⟩, all_active (by decide +kernel), by decide +kernel, by decide +kernel, by decide +kernel, resident_of [0x400000, 0x400080] (by decide +kernel) (by decide) (by decide +kernel), by decide +kernel, by decide +kernel, by decide +kernel, by decide +kernel, by decide +kernel, by decide +kernel⟩
/-- Launches: a task record and a launch record in L2; a grid with a task pool and one without. -/
def task0 : List Byte := flat [(0x1000, 8), (5, 8), (0, 32), (0x4000, 8), (0x5000, 8)]
def spawning : State := { l2s [0x201400] (regs [(8, 0x1400), (9, 0)] (wr 0x201400 task0 two)) with grids := two.grids.map (fun (g : Grid) => { g with record := leBytes 0 88 ++ leBytes 10 4 ++ leBytes 0 164 }) }
theorem witness_spawn : (Instr.spawn (wa 2 8 0 (ext (g := p1) (fn := 1)))).wf = true ∧ (∀ n, Small n → spawning.Lone wave2 p1 n 3) ∧ ((spawning.thr 3).rpair 8).toNat % 64 = 0 ∧ spawning.Released 3 2 ∧ spawning.Resident 3 0x1400 64 [⟨0x201400 / 128, 0, 0, 0, 0, 5, false, none⟩] task0 ∧ taskBad task0 = false ∧
    (∀ o ∈ spawning.tasks, o.id < spawning.nextId) ∧ ¬ (spawning.gridOf 3).field 88 4 ≤ (spawning.tasks.filter (fun (t : Task) => t.grid == (spawning.gridOf 3).uid)).length ∧ (two.gridOf 3).field 88 4 = 0 :=
  ⟨by decide +kernel, fun _ hn => lone_of (by decide +kernel) hn, by decide +kernel, released_of (by decide +kernel) 2, resident_of [0x201400] (by decide +kernel) (by decide) (by decide +kernel), by decide +kernel, by decide +kernel, by decide +kernel, by decide +kernel⟩
def launchRec : List Byte := flat [(0x1000, 8), (2, 4), (1, 4), (1, 4), (32, 2), (1, 2), (1, 2), (128, 1), (0, 1), (0, 1), (0, 1), (0, 1), (0, 1), (0, 4), (0, 4), (0, 4), (0, 4), (0x200000, 8), (0, 48)] ++ leBytes 0 152
def launching : State := l2s [0x201400, 0x201480, 0x400000, 0x400080, 0x400100, 0x400180] (regs [(8, 0x1400), (9, 0)] (wr 0x201400 launchRec two))
def recLines : List L2Line := [⟨0x201400 / 128, 0, 0, 0, 0, 5, false, none⟩, ⟨0x201480 / 128, 0, 0, 0, 0, 5, false, none⟩]
theorem witness_launch : (Instr.launch (wa 0 8 0 (ext (g := p1)))).wf = true ∧ (∀ n, Small n → launching.Lone wave2 p1 n 3) ∧ (launching.thr 3).tid = 0 ∧ (launching.gridOf 3).depth < 10 ∧ ((launching.thr 3).rpair 8).toNat % 256 = 0 ∧ launching.Released 3 3 ∧ launching.Resident 3 0x1400 256 recLines launchRec ∧
    (∃ r, (checkLaunch 0 0 0xFFF launchRec (launching.touched recLines)).2 = some r) ∧ (launching.grids.filter (fun h => h.pendingOn == some 0)).length < 4 :=
  ⟨by decide +kernel, fun _ hn => lone_of (by decide +kernel) hn, by decide +kernel, by decide +kernel, by decide +kernel, released_of (by decide +kernel) 3, resident_of [0x201400, 0x201480] (by decide +kernel) (by decide) (by decide +kernel),
    Option.isSome_iff_exists.1 (by decide +kernel), by decide +kernel⟩
/-- EVIEW.OPEN beside a keystone that has planned its compaction; LAUNCH with four pending ones. -/
def compacting : World := { world5 with next := some { table1 with gen := 5 } }
def fourPending : State := { launching with grids := launching.grids ++ (List.range 4).map (fun n => { Grid.blank with uid := 50 + n, pendingOn := some 0 }), nextId := 100 }
theorem witness_late : compacting.compacted = true ∧ (living compacting).worldOf 3 = some compacting ∧ (∀ n, Small n → (living compacting).Lone wave2 p1 n 3) ∧ (fourPending.grids.filter (fun h => h.pendingOn == some 0)).length = 4 ∧ (∀ n, Small n → fourPending.Lone wave2 p1 n 3) :=
  ⟨by decide +kernel, by decide +kernel, fun _ hn => lone_of (by decide +kernel) hn, by decide +kernel, fun _ hn => lone_of (by decide +kernel) hn⟩

/-! ### Hypotheses of the statements about steps: threads, caches, translation -/

/-- No wave issues; thread 3 changed. -/
def alter (f : Thread → Thread) (s : State) : State := { thm (fun t => if t.uid = 3 then f t else t) s with waves := [], nextId := 100 }
/-- Departures: an exiting thread, alone in its team or not; a release under way, started or not; a sleeper; a waiter on a counter. -/
def exiting (s : State) : State := alter (fun t => { t with phase := .exiting, maxTw := 9, blocks := [1], v := t.v.take 48 }) s
def releasing (started : Bool) (scope : Nat) (s : State) : State := alter (fun t => { t with phase := .stalled, maxTw := 9, rel := some ⟨scope, started, 9, 0⟩ }) s
def sleeping : State := alter (fun t => { t with phase := .sleep, npc := 0x1004, age := 3, wait := { t.wait with tick := 10 } }) two
def counting (thr : Nat) : State := l2s [0x400110] (wr 0x400110 [7] (alter (fun t => { t with phase := .parked .ctrWait, npc := 0x1004, wait := { t.wait with addr := 0x200110, thr := thr } }) two))
theorem witness_departures :
    ((exiting two).Numbered ∧ (∃ t ∈ (exiting two).threads, t.uid = 3) ∧ ((exiting two).thr 3).stopped = none ∧ ((exiting two).thr 3).phase = .exiting ∧ ((exiting two).thr 3).ld = 0 ∧ ((exiting two).thr 3).st = 0 ∧ ((exiting two).thr 3).tl = 0 ∧ (∃ m ∈ (exiting two).teams, m.uid = 2) ∧
      (∀ n < 8, (((exiting two).tm 2).conv n).isMember 0 = true → (((exiting two).tm 2).conv n).signed = []) ∧ (∃ v ∈ (exiting two).threads, v.team = 2 ∧ v.uid ≠ 3 ∧ v.phase ≠ .exited) ∧
      (∀ v ∈ (exiting one).threads, v.team = 2 → v.uid ≠ 3 → v.phase = .exited) ∧ (∀ v ∈ (exiting one).threads, v.team = 2 → v.lost = []) ∧ (exiting one).dirtyOf 2 = []) ∧
    (∀ started, ∀ scope < 5, let s := releasing started scope two; s.Numbered ∧ (s.thr 3).rel = some ⟨scope, started, 9, 0⟩ ∧ (s.thr 3).lost = [] ∧ ackPending 3 s = false ∧ (s.thr 3).phase = .stalled ∧ (s.thr 3).wait = {} ∧ (∀ q ∈ s.reqs, q.id ≠ 0) ∧ memPending 3 s = false ∧ s.dirtyOf 2 = [] ∧ 9 ≤ s.gtick) ∧
    (sleeping.Numbered ∧ (sleeping.thr 3).phase = .sleep ∧ (sleeping.thr 3).wait.tick ≤ sleeping.viewOf (sleeping.gridOf 3).fn ∧ (sleeping.tm 2).saved = none ∧ ∀ c ∈ sleeping.copies, c.th = 3 → sleeping.viewOf c.fn < c.promise) ∧
    (∀ thr ∈ [7, 8], ((counting thr).thr 3).phase = .parked .ctrWait ∧ (counting thr).Places 3 .read false 8 [0x200110] [.glob 0x200110 0x400110 1] ∧ (∃ m leaf, (counting thr).Maps 3 .read 0x200110 0x400110 m leaf ∧ m < 2) ∧ (regionOf 0x400110).local = true ∧
      0x400110 / 128 ∉ (counting thr).mem.poison ∧ (counting thr).l2line? (0x400110 / 128) = some ⟨0x400110 / 128, 0, 0, 0, 0, 5, false, none⟩ ∧ (counting thr).gtick ≠ 5 ∧ leNat ((counting thr).mem.bytes.readN 0x400110 8) = 7) := by
  refine ⟨⟨numbered_of (by decide +kernel), by decide +kernel⟩, ?_, ⟨numbered_of (by decide +kernel), by decide +kernel⟩, ?_⟩
  · have : ∀ started, ∀ scope < 5, let s := releasing started scope two
        numbered s = true ∧ (s.thr 3).rel = some ⟨scope, started, 9, 0⟩ ∧ (s.thr 3).lost = [] ∧ ackPending 3 s = false ∧ (s.thr 3).phase = .stalled ∧ (s.thr 3).wait = {} ∧ (∀ q ∈ s.reqs, q.id ≠ 0) ∧ memPending 3 s = false ∧ s.dirtyOf 2 = [] ∧ 9 ≤ s.gtick := by decide +kernel
    exact fun started scope h => ⟨numbered_of (this started scope h).1, (this started scope h).2⟩
  · simp only [List.forall_mem_cons, List.not_mem_nil, false_imp_iff, implies_true, and_true]
    refine ⟨⟨by decide +kernel, places_of (by decide +kernel), ⟨1, 0x4005BF, hits_of (by decide +kernel), by decide⟩, by decide +kernel⟩, ⟨by decide +kernel, places_of (by decide +kernel), ⟨1, 0x4005BF, hits_of (by decide +kernel), by decide⟩, by decide +kernel⟩⟩
/-- Regroups: two threads with keys 5 and 4, poisoned registers on both sides of the largest count. -/
def regrouping : State := { thm (fun t => { t with phase := .regroupWait, npc := 0x1004, poison := [7, 70], wait := { t.wait with key := 5 - BitVec.ofNat 32 t.tid, num := 50 } }) two with waves := [] }
theorem witness_regroups : regrouping.Numbered ∧ (let lives := regrouping.threads.filter (fun t => t.team == 2 && t.phase != .exited); let b := (regrouping.gr (regrouping.tm 2).grid).bregs
    lives ≠ [] ∧ (∀ t ∈ lives, t.phase = .regroupWait ∧ t.ld = 0 ∧ t.tl = 0 ∧ t.stopped = none ∧ t.tid < 1024 ∧ t.owned = b + 16 * t.blocks.length ∧ t.wait.num ≤ b) ∧ (∀ t ∈ lives, ∀ t' ∈ lives, t.tid = t'.tid → t.uid = t'.uid)) :=
  ⟨numbered_of (by decide +kernel), by decide +kernel⟩
/-- Grants: two ready threads, one aged. -/
def granting : State := { thm (fun t => { t with phase := .ready, age := if t.tid = 1 then 1024 else 10 }) two with waves := [] }
theorem witness_grants : granting.Numbered ∧ (∀ w ∈ granting.waves, w.core = 0 → w.slot ≠ 0) ∧ (granting.core 0).switchUntil ≤ granting.gtick ∧ (∀ t ∈ granting.threads, t.lane < 32) ∧
    (∃ t ∈ granting.threads, t.uid = 4 ∧ granting.mayIssue t = true ∧ (∃ m ∈ granting.teams, m.uid = t.team ∧ m.core = 0 ∧ m.saved = none ∧ m.bank = (granting.core 0).active) ∧ 1024 ≤ (granting.thr 4).age) :=
  ⟨numbered_of (by decide +kernel), by decide +kernel, by decide +kernel, by decide +kernel, by decide +kernel⟩

/-- One request of thread 3, which waits for it. -/
def req (cls : Cls) (work : Work) : Req := ⟨77, 9, cls, [3], 0, 2, work, 0x1000, 0, false, none, 0, 0⟩
def pend (r : Req) (s : State) : State :=
  { alter (fun t => { t with phase := .ready, ld := if r.cls == .ld then 1 else 0, st := if r.cls == .st then 1 else 0, cp := if r.cls == .cp then 1 else 0, tl := if r.cls == .tl then 1 else 0, pendV := [20, 21], poison := [20] }) s with reqs := [r] }
theorem pending_of {s : State} {r : Req} (h : (s.reqs == [r] && s.coll.isEmpty && (s.req? r.id == some r)) = true) : s.Pending r := by
  simp only [Bool.and_eq_true, beq_iff_eq, List.isEmpty_iff] at h
  refine ⟨h.2, fun q hq _ => ?_, fun e he => ?_, fun q hq hne => ?_⟩
  · simpa [h.1.1] using hq
  · simp [h.1.2] at he
  · simp [State.allReqs, h.1.1, h.1.2] at hq
    exact absurd (by rw [hq]) hne
def elem4 : Elem := ⟨.glob 0x200100 0x400100 1, 4, 20, .i32, none⟩
def elem1 : Elem := ⟨.glob 0x200105 0x400105 1, 1, 21, .i8, none⟩
def elem8 : Elem := ⟨.glob 0x400100 0x8000000000100 2, 8, 20, .f64, none⟩
def elemL1 : Elem := ⟨.glob 0x1100 0x201100 0, 4, 20, .i32, none⟩
def filled (s : State) : State := wr 0x400100 [0x84, 1, 2, 3, 4, 0xF5] (l2s [0x400100] s)
/-- Replies: loads from L2 and from an L1 copy, one of the host, an LDU, an HBIND, a reply, an atomic outside the device. -/
theorem witness_replies :
    (let r := req .ld (.load 3 [elem4, elem1]); let s := pend r (filled two)
     s.Pending r ∧ s.Numbered ∧ r.ats = 0 ∧ r.heldBack s = false ∧ r.yields s = false ∧ (∃ m ∈ s.teams, m.uid = r.team) ∧ r.work.places.any Source.outside = false ∧ [elem4, elem1].Pairwise (fun a b => ∀ x ∈ a.regs, x ∉ b.regs) ∧
      s.Gives (s.tm 2) 0 0xFFF 4 4 elem4.src [0x84, 1, 2, 3] false ∧ s.Gives (s.tm 2) 0 0xFFF 4 1 elem1.src [0xF5] false) ∧
    (let r := req .ld (.load 3 [elem8]); let s := pend r two
     s.Pending r ∧ r.heldBack s = false ∧ r.work.places.any Source.outside = true ∧ (takeData [elem8] [1, 2, 3, 4, 5, 6, 7, 8]).map (·.2) = [some [1, 2, 3, 4, 5, 6, 7, 8]]) ∧
    (let r := req .ld (.load 3 [elemL1]); let s := pend r (l1c 0x1100 [5, 6, 7, 8] two)
     s.Pending r ∧ s.Gives (s.tm 2) 0 0xFFF 2 4 elemL1.src [5, 6, 7, 8] false) ∧
    (let r := req .ld (.loadTeam [elem4, elem1] false [3]); let s := pend r (filled two); s.Pending r ∧ r.heldBack s = false) ∧
    (let r := req .ld (.hbind 5 0x200100 0x400100 1 false [3]); let s := pend r (wr 0x400100 rec0 (l2s [0x400100] two))
     s.Pending r ∧ r.heldBack s = false ∧ layMalformed rec0 = false ∧ lockedGlobal 0 0 0xFFF false 0x200100 64 s = false ∧ (∃ m leaf, s.Hits 0 0 0xFFF .read 0x200100 0x400100 m leaf ∧ placeOf 0x200100 0x400100 m leaf = .glob 0x200100 0x400100 1) ∧ s.Gives (s.tm 2) 0 0xFFF 2 64 (.glob 0x200100 0x400100 1) rec0 false) ∧
    (let r := req .ld (.reply 3 (some 20) true 0x123456789 true 3); let s := pend r two; s.Pending r ∧ r.heldBack s = false) ∧
    (let r := req .st (.atomic 3 0x400100 0x8000000000100 2 ⟨3, 0, .i32, 0, 5, 0⟩ none); let s := pend r two; s.Pending r ∧ r.heldBack s = false ∧ r.work.places.any Source.outside = true) :=
  ⟨⟨pending_of (by decide +kernel), numbered_of (by decide +kernel), by decide +kernel, by decide +kernel, by decide +kernel, by decide +kernel, by decide +kernel, by decide +kernel, by constructor <;> decide +kernel, by constructor <;> decide +kernel⟩,
    ⟨pending_of (by decide +kernel), by decide +kernel, by decide +kernel, by decide +kernel⟩,
    ⟨pending_of (by decide +kernel), ⟨0, 0, 0xFFF, 0x1100 / 128, some ([5, 6, 7, 8] ++ List.replicate 124 0, 100000, 1, false), [], false, 2, false, 0⟩, List.replicate 0 0 ++ [5, 6, 7, 8] ++ List.replicate 124 0, 100000, 1, false, by decide +kernel, by decide +kernel, by decide +kernel, by decide +kernel, by decide +kernel, by decide +kernel⟩,
    ⟨pending_of (by decide +kernel), by decide +kernel⟩,
    ⟨pending_of (by decide +kernel), by decide +kernel, by decide +kernel, by decide +kernel, ⟨1, 0x4005BF, hits_of (by decide +kernel), by decide +kernel⟩, by constructor <;> decide +kernel⟩,
    ⟨pending_of (by decide +kernel), by decide +kernel⟩, ⟨pending_of (by decide +kernel), by decide +kernel, by decide +kernel⟩⟩
/-- Lines: a prefetch, a load's fill; a clean and a dirty line of L1; translations; a record to fetch again; entries of the collector. -/
def dirtyL1 : L1Line := ⟨0, 0, 0xFFF, 0x23, none, [(4, 7)], false, 2, false, 0⟩
def evicting : State :=
  { two with mem := { two.mem with l1 := [⟨0, 0, 0xFFF, 0x22, some (List.replicate 128 1, 1000, 5, false), [], false, 2, false, 0⟩, dirtyL1], walk := [⟨0, 0x100000, 0x101001⟩], atc := [(0, 0xFFF, 7)] } }
def collLoad : CollEntry := ⟨0, 0, 0xFFF, 2, false, 0x400100 / 128, 5, [req .ld (.load 3 [elem4])]⟩
def collStore : CollEntry := ⟨0, 0, 0xFFF, 2, true, 0x400180 / 128, 6, [req .st (.store 3 [⟨.glob 0x200180 0x400180 1, [1, 2, 3, 4], none⟩])]⟩
def gathering : State := { alter (fun t => { t with phase := .ready, ld := 1, st := 1 }) two with coll := [collLoad, collStore] }
theorem witness_lines_steps :
    (let r := req .none (.prefetch 0x1100 0x201100 0); let s := pend r two; s.Pending r ∧ (∃ m ∈ s.teams, m.uid = 2) ∧ s.l1? 0 0 0xFFF (0x1100 / 128) = none ∧ (s.mem.l1.filter (fun x => x.core == 0)).length + 1 ≤ s.l1Lines 0) ∧
    (let r := req .ld (.load 3 [elemL1]); let s := pend r two; s.req? 77 = some r ∧ r.ats = 0 ∧ r.outranked s = false) ∧
    (∃ x, evicting.l1? 0 0 0xFFF (0x1100 / 128) = some x ∧ x.dirty = []) ∧
    (evicting.l1? 0 0 0xFFF (0x1180 / 128) = some dirtyL1 ∧ dirtyL1.dirtyPoison = false ∧ evicting.isMigrating 0 0xFFF 0x1180 = false ∧ evicting.Hits 0 0 0xFFF .write 0x1180 0x201180 0 0x2001BF ∧ (0x2001BF : Nat).testBit 8 = true ∧ (regionOf 0x201180).local = true ∧ evicting.Takes 0x201180 128) ∧
    (evicting.mem.tlb.length = 3 ∧ evicting.mem.walk.length = 1 ∧ evicting.mem.atc.length = 1) ∧
    (let s := wr 0x203000 rec0 (l1c 0x3000 rec0 (handles two)); nth none (s.tm 2).h 0 = some 0x3000 ∧ lockedGlobal 0 0 0xFFF false 0x3000 64 s = false ∧ s.Hits 0 0 0xFFF .read 0x3000 0x203000 0 0x2001BF ∧ s.Gives (s.tm 2) 0 0xFFF 2 64 (.glob 0x3000 0x203000 0) rec0 false) ∧
    ((gathering.collOf 0)[0]? = some collLoad ∧ (gathering.collOf 0)[1]? = some collStore ∧ collStore.waits gathering = false ∧ gathering.reqs = [] ∧ gathering.Takes 0x400180 4) :=
  ⟨⟨pending_of (by decide +kernel), by decide +kernel⟩, by decide +kernel, ⟨_, rfl, rfl⟩, ⟨by decide +kernel, by decide, by decide +kernel, hits_of (by decide +kernel), by decide, by decide +kernel, by unfold State.Takes; decide +kernel⟩, by decide +kernel,
    ⟨by decide +kernel, by decide +kernel, hits_of (by decide +kernel), ⟨0, 0, 0xFFF, 0x3000 / 128, some (rec0 ++ List.replicate 64 0, 100000, 1, false), [], false, 2, false, 0⟩, rec0 ++ List.replicate 64 0, 100000, 1, false, by decide +kernel⟩, by unfold State.Takes; decide +kernel⟩
/-- Walks: a leaf of 2 MiB at level 2, and one of 64 KiB of a group at level 1. -/
def tables2 : List Nat := [0x100000, 0x101000, 0x102000, 0x103000]
def deep : State := wr 0x103000 (leBytes 0x104001 8) (wr 0x104000 (leBytes 0x20023F 8) two)
theorem witness_walks : two.Canonical ∧ (two.context? 0 0xFFF).isSome = true ∧ canonical 0x1000 = true ∧ tables2.length = 6 - 2 ∧ nth 0 tables2 0 = two.rootOf 0 0xFFF ∧
    (∀ j < 4, two.backedLocal (nth 0 tables2 j) = true) ∧ two.mem.walk = [] ∧
    (∀ j < 3, (two.entry (nth 0 tables2 j)).testBit 0 = true ∧ (two.entry (nth 0 tables2 j)).testBit 1 = false ∧ entryReserved (two.entry (nth 0 tables2 j)) = false ∧ bitsOf (two.entry (nth 0 tables2 j)) 51 12 * 4096 = nth 0 tables2 (j + 1)) ∧
    (two.entry 0x103000).testBit 0 = true ∧ (two.entry 0x103000).testBit 1 = true ∧
    (deep.Canonical ∧ deep.backedLocal 0x104000 = true ∧ bitsOf (deep.entry 0x103000) 51 12 * 4096 = 0x104000 ∧ (deep.entry 0x103000).testBit 1 = false ∧ deep.entry 0x104000 % 4 = 3 ∧ (deep.entry 0x104000).testBit 9 = true) :=
  ⟨by unfold State.Canonical; decide +kernel, by decide +kernel, by decide +kernel, by decide, by decide +kernel, by decide +kernel, by decide +kernel, by decide +kernel, by decide +kernel, by decide +kernel, by unfold State.Canonical; decide +kernel, by decide +kernel⟩
/-- Performs: stores to L1, to L2, to the host; an atomic at L2 with a clean copy in L1. -/
theorem witness_performs :
    (let r := req .st (.store 3 [⟨.glob 0x200180 0x400180 1, [1, 2, 3, 4], none⟩]); let s := pend r two
     s.Pending r ∧ r.heldBack s = false ∧ r.work.waitsPage 0 0xFFF s = false ∧ r.waitsRelease = false ∧ r.work.places.any Source.outside = false ∧ r.yields s = false ∧ s.Takes 0x400180 4) ∧
    (let r := req .st (.store 3 [⟨.glob 0x1100 0x201100 0, [1, 2], none⟩]); let s := pend r two; s.Pending r ∧ r.heldBack s = false ∧ (s.tm 2).saved = none ∧ s.l1? 0 0 0xFFF (0x1100 / 128) = none) ∧
    (let r := req .st (.store 3 [⟨.glob 0x400100 0x8000000000100 2, [1, 2], none⟩]); let s := pend r two; s.Pending r ∧ r.heldBack s = false ∧ r.work.places.any Source.outside = true ∧ r.work.places.any Source.onPeer = false) ∧
    (let r := req .ld (.atomic 3 0x200100 0x400100 1 ⟨0, 2, .i32, 0, 5, 0⟩ (some 20)); let s := pend r (filled two)
     s.Pending r ∧ r.heldBack s = false ∧ r.work.waitsPage 0 0xFFF s = false ∧ r.yields s = false ∧ s.Takes 0x400100 4 ∧ s.l1? 0 0 0xFFF (0x200100 / 128) = none ∧ leNat (s.mem.bytes.readN 0x400100 4) = 0x03020184) := by
  refine ⟨⟨pending_of (by decide +kernel), ?_⟩, ⟨pending_of (by decide +kernel), ?_⟩, ⟨pending_of (by decide +kernel), ?_⟩, ⟨pending_of (by decide +kernel), ?_⟩⟩ <;> (try unfold State.Takes) <;> decide +kernel
/-- HostTranslation: a request that asks the host, one with a page request, one whose time is over, one that a peer refuses. -/
def asking (ats asked : Nat) (s : State) : State × Req :=
  let r : Req := { req .ld (.load 3 [elem8]) with ats := ats, asked := asked, pc := 0x1000 }
  ({ pend r s with threads := (pend r s).threads.map (fun (t : Thread) => { t with phase := .stalled }) }, r)
theorem witness_host : (∀ ats ∈ [1, 2], (asking ats 0 two).1.Pending (asking ats 0 two).2 ∧ (asking ats 0 two).2.ats = ats ∧ (∀ u ∈ (asking ats 0 two).2.threads, (∃ t ∈ (asking ats 0 two).1.threads, t.uid = u) ∧ ((asking ats 0 two).1.thr u).team = 2 ∧ ((asking ats 0 two).1.thr u).pc = 0x1000 ∧ ((asking ats 0 two).1.thr u).phase = .stalled)) ∧
    (asking 1 0 two).2.asked + 10000000 ≤ ({ two with gtick := 10000000 } : State).gtick ∧ (∀ q ∈ two.faults, q.issue ≠ 9) ∧
    (let r := req .ld (.load 3 [⟨.glob 0x600000 0x7080000000000 2, 4, 20, .i32, none⟩]); let s := pend r two; s.Pending r ∧ r.work.places.any Source.onPeer = true ∧ r.heldBack s = false ∧ r.threads.Nodup ∧ (s.thr 3).phase ≠ .exited) := by
  refine ⟨?_, by decide +kernel, by decide +kernel, pending_of (by decide +kernel), by decide +kernel⟩
  simp only [List.forall_mem_cons, List.not_mem_nil, false_imp_iff, implies_true, and_true]
  exact ⟨⟨pending_of (by decide +kernel), by decide +kernel⟩, ⟨pending_of (by decide +kernel), by decide +kernel⟩⟩
/-- Inbound: a write and a read of backed local memory, and of an address that is not. -/
theorem witness_inbound : (regionOf 0x400100).local = true ∧ two.backed 0x400100 = true ∧ two.backed 0x400103 = true ∧ regionOf 0x400103 = regionOf 0x400100 ∧ two.migratesFrom 0x400100 4 = false ∧ 0x400100 / 128 ∉ two.mem.poison ∧ two.isCow (0x400100 / 4096) = false ∧
    (regionOf 0x8000000000100).local = false ∧ two.migratesFrom 0x8000000000100 4 = false := by decide +kernel

/-! ### Hypotheses of the statements about engine steps -/

/-- CopySteps: a copy with bytes to move, between every pair of kinds, waiting or under way; one that is moved; one that met a fault. -/
def copy1 (dg sg : Bool) (prog : Nat) (started : Bool) (fault : Option (Cause × Detail)) : Copy := ⟨50, 3, 0, 2, 0, 0xFFF, dg, 0x2040, sg, if sg then 0x3040 else 0x40, 80, prog, 90, 5, started, started, fault, false, 0x1000⟩
def copyState (c : Copy) : State := { handles (alter (fun t => { t with phase := .ready, cp := 1 }) two) with copies := [c] }
theorem witness_copy_steps :
    (∀ dg sg started, let c := copy1 dg sg 16 started none; let s := copyState c
      s.copies.find? (fun d => d.id == c.id) = some c ∧ c.stopped = false ∧ c.fault = none ∧ c.prog + 48 ≤ c.len ∧ (c.dst + c.prog) % 128 + 48 ≤ 128 ∧ (c.src + c.prog) % 128 + 48 ≤ 128) ∧
    (let s := copyState (copy1 true true 16 false none)
     sourceLate 50 3 2 0x3050 48 s = false ∧ s.Settled 2 0x3050 48 ∧ s.Hits 0 0 0xFFF .read 0x3050 0x203050 0 0x2001BF ∧ (regionOf 0x203050).local = true ∧ 0x203050 / 128 ∉ s.mem.poison ∧ s.isMigrating 0 0xFFF 0x3050 = false ∧
     s.Hits 0 0 0xFFF .write 0x2050 0x202050 0 0x2001BF ∧ (0x2001BF : Nat).testBit 8 = true ∧ (regionOf 0x202050).local = true ∧ s.Takes 0x202050 48 ∧ s.isMigrating 0 0xFFF 0x2050 = false) ∧
    (∀ o, 0x50 ≤ o → o < 0x80 → o ∉ ((copyState (copy1 false false 16 false none)).tm 2).scratchPoison) ∧
    (let c := copy1 true true 80 true none; (copyState c).copies.find? (fun d => d.id == c.id) = some c ∧ c.prog = c.len ∧ c.maxTw ≤ (copyState c).gtick) ∧
    (let c := copy1 true true 16 true (some (.pageNotPresent, {})); (copyState c).copies.find? (fun d => d.id == c.id) = some c ∧ ((copyState c).thr 3).phase = .ready ∧ ((copyState c).thr 3).stopped = none) :=
  ⟨by decide +kernel, ⟨by decide +kernel, settledAt_of (by decide +kernel) _ _, hits_of (by decide +kernel), by decide +kernel, by decide +kernel, by decide +kernel, hits_of (by decide +kernel), by decide, by decide +kernel, by unfold State.Takes; decide +kernel, by decide +kernel⟩,
    fun o a b => (by decide +kernel : ∀ o < 0x80, 0x50 ≤ o → o ∉ ((copyState (copy1 false false 16 false none)).tm 2).scratchPoison) o b a, by decide +kernel, by decide +kernel⟩
/-- TileSteps: a name in each of its states, with 31 or 3 parts in; a struck part; parts in the backing area; a delivery. -/
def space9 (e : TileName) : Space := ⟨60, 0, 0xFFF, some 0, 1, [e]⟩
def name9 (state : Nat) (parts : List Nat) (krem : Nat) (poison : List Nat) (place : Nat) : TileName := ⟨9, state, parts, krem, 2, 7, 0, 1, 6, [(0, 5), (64, 6)], poison, List.replicate 32 place⟩
def tileReq (kind part : Nat) : Req := req (if kind = 0 then .none else .tl) (.tile 3 false kind 9 0x2047 part 16 (List.replicate 4 7))
def tiling (r : Req) (e : TileName) (s : State) : State := { pend r s with spaces := [space9 e], teams := s.teams }
def deliveryReq : Req := req .tl (.tile 3 true 60 9 0x2047 5 16 [1, 2, 3, 4])
theorem witness_tile_steps :
    (∀ kind < 3, ∀ e ∈ [TileName.undefined 9 6, name9 1 (List.range 31) 0 [] 0, name9 1 [4, 2, 31] 0 [] 0, name9 2 (List.range 32) 3 [5] 0, name9 2 (List.range 32) 1 [] 2, name9 3 (List.range 32) 0 [] 0],
      let r := tileReq kind 31; let s := tiling r e two
      s.Pending r ∧ tileBefore r s = false ∧ (s.tm r.team).saved = none ∧ (∃ t ∈ s.threads, t.uid = 3) ∧ (∀ q ∈ s.faults, q.issue ≠ r.group) ∧ liveSpace (s.gridOf 3).fn (s.gridOf 3).ctx (clusterOf (s.teamOf 3).core) s = some (space9 e) ∧ s.space? 60 = some (space9 e)) ∧
    tileWords 0x2047 = 4 ∧ (name9 2 (List.range 32) 1 [] 2).shape = tileShape 0x2047 ∧
    (∀ part ∈ [5, 31], let p := (name9 2 (List.range 32) 1 [] 2).payload / 32; let pa := (space9 (name9 2 (List.range 32) 1 [] 2)).base two + 0x2000 + 9 * 0x1000 + part * p; 1 ≤ p ∧ pa % 128 + p ≤ 128 ∧ pa / 128 ∉ two.mem.poison ∧ two.Takes pa p) ∧
    (∀ e ∈ [name9 2 (List.range 32) 1 [] 2, name9 3 (List.range 32) 0 [] 0], let s := tiling deliveryReq e two; s.Pending deliveryReq ∧ s.space? 60 = some (space9 e)) ∧ (space9 (name9 2 (List.range 32) 1 [] 2)).cluster ≠ none :=
  ⟨by
      have : ∀ kind < 3, ∀ e ∈ [TileName.undefined 9 6, name9 1 (List.range 31) 0 [] 0, name9 1 [4, 2, 31] 0 [] 0, name9 2 (List.range 32) 3 [5] 0, name9 2 (List.range 32) 1 [] 2, name9 3 (List.range 32) 0 [] 0],
          let r := tileReq kind 31; let s := tiling r e two
          (s.reqs == [r] && s.coll.isEmpty && (s.req? r.id == some r)) = true ∧ tileBefore r s = false ∧ (s.tm r.team).saved = none ∧ (∃ t ∈ s.threads, t.uid = 3) ∧ (∀ q ∈ s.faults, q.issue ≠ r.group) ∧ liveSpace (s.gridOf 3).fn (s.gridOf 3).ctx (clusterOf (s.teamOf 3).core) s = some (space9 e) ∧ s.space? 60 = some (space9 e) := by decide +kernel
      exact fun k hk e he => ⟨pending_of (this k hk e he).1, (this k hk e he).2⟩,
    by decide +kernel, by decide +kernel, by unfold State.Takes; decide +kernel,
    by simp only [List.forall_mem_cons, List.not_mem_nil, false_imp_iff, implies_true, and_true]; exact ⟨⟨pending_of (by decide +kernel), by decide +kernel⟩, ⟨pending_of (by decide +kernel), by decide +kernel⟩⟩, by decide +kernel⟩
/-- MatrixSteps and PassGrants: a held entry; one that lacks a side-array line, in the cluster's cache or in L2, poisoned or not; a faulted one; entries at their last pass. -/
def mreq (cls : Cls) (us : List Nat) (fault : Option (Cause × Detail)) (m : Matrix) : Req := ⟨77, 9, cls, us, 0, 2, .matrix m, 0x1000, 0, false, fault, 0, 0⟩
def work (i : Instr) (frags : List (List Word)) (accepted : Bool) (left : Option Nat) (recs : List (List Byte)) (waiting : List Nat) : Matrix := ⟨i, [(3, 0), (4, 1)], waiting, frags, recs, [], none, accepted, left, 300⟩
def frags (n : Nat) : List (List Word) := [(List.range n).map (fun i => BitVec.ofNat 32 (0x01FF7F80 + i)), (List.range n).map (fun i => BitVec.ofNat 32 (0x80010203 * i))]
def entering : Req := mreq .none [] none (work (.mma (mm 0 16 32 0 .i8 0 3)) (frags 20) false none [] [4])
def lacking : Req := mreq .tl [3, 4] none (work (.mma (mm 0 32 48 20 .f16 0x17 3)) [List.replicate 40 0, List.replicate 40 0] true none [recA] [])
def failing : Req := mreq .tl [3, 4] (some (.metadata, { kind := 2, addr := 0x5000 })) (work (.mma (mm 0 32 48 20 .f16 0x17 3)) [List.replicate 40 0, List.replicate 40 0] true none [recA] [])
def granted (i : Instr) (n left : Nat) : Req := mreq .tl [3, 4] none (work i (frags n) true (some left) [] [])
def engine (r : Req) (s : State) : State := { alter (fun t => { t with phase := .ready, tl := 1 }) s with reqs := [r], threads := (alter id s).threads.map (fun (t : Thread) => { t with phase := if t.uid = 4 ∧ r.threads = [] then .convWait else .ready, tl := 1 }) }
def lineIn (s : State) : State := { s with mem := { s.mem with metaLines := [⟨0, 0, 0xFFF, 0xA0, 5000, List.replicate 128 3⟩] } }
def struck (s : State) : State := { s with mem := { s.mem with poison := [0x205000 / 128] } }
theorem witness_matrix_steps :
    (∀ r ∈ [entering, lacking, failing], (engine r two).req? r.id = some r ∧ ((engine r two).tm r.team).saved = none) ∧
    (tableOf (clusterOf entering.core) (engine entering two)).length < 16 ∧ (∀ m, entering.work = .matrix m → m.lacks = [] ∧ m.left = none ∧ m.accepted = false) ∧ ((engine entering two).thr 4).phase = .convWait ∧
    (∀ m, lacking.work = .matrix m → m.lacks = [0xA0, 0xA0] ∧ m.left = none ∧ m.accepted = true ∧ ∀ x, m.instr ≠ .mmas x) ∧
    (((lineIn (engine lacking two)).mem.metaLines.find? (fun l => l.cluster == 0 && l.fn == 0 && l.ctx == 0xFFF && l.line == 0xA0 && decide ((engine lacking two).gtick < l.expiry))).isSome = true) ∧
    ((engine lacking two).mem.metaLines = [] ∧ (engine lacking two).Hits 0 0 0xFFF .read (0xA0 * 128) 0x205000 0 0x2001BF ∧ (struck (engine lacking two)).Hits 0 0 0xFFF .read (0xA0 * 128) 0x205000 0 0x2001BF ∧ (regionOf 0x205000).local = true ∧ 0x205000 % 128 = 0 ∧ 0x205000 / 128 ∉ (engine lacking two).mem.poison ∧ 0x205000 / 128 ∈ (struck (engine lacking two)).mem.poison) ∧
    (failing.issuers.Nodup ∧ (∀ u ∈ failing.issuers, ((engine failing two).thr u).phase ≠ .faulted ∧ ((engine failing two).thr u).stopped = none ∧ ∃ v ∈ (engine failing two).threads, v.uid = u) ∧ (engine failing two).faults = []) :=
  ⟨by decide +kernel, by decide +kernel, fun m h => by cases h; decide +kernel, by decide +kernel, fun m h => by cases h; exact ⟨by decide +kernel, rfl, rfl, fun x h => by cases h⟩, by decide +kernel,
    ⟨by decide +kernel, hits_of (by decide +kernel), hits_of (by decide +kernel), by decide +kernel⟩, by decide +kernel⟩
theorem witness_grants_of_passes : ∀ r ∈ [granted (.mma (mm 0 16 32 0 .i8 0 3)) 20 1, granted (.mma (mm 0 16 32 0 .i8 0 3)) 20 0, granted (.mma (mm 0 16 32 0 .i8 0 3)) 20 2, granted (.mmas (mm 0 20 22 0 .f16 7 0x113)) 6 1, granted (.amovFrom (mm 96 0 0 0 .f32 0 3)) 0 1, granted (.amovInto (mm 0 112 0 0 .f64 1 3)) 32 1, granted (.amovZero (mm 0 0 0 0 .i32 2 3)) 0 1],
    let s := engine r two; let l := (tableOf 0 s).filter (fun r => matrixReady r s)
    (s.reqs.map Req.id).Nodup ∧ (s.reqs == [r] && s.coll.isEmpty && (s.req? r.id == some r)) = true ∧ l = [r] ∧ tableOf 0 s = [r] ∧ (∃ m n, r.work = .matrix m ∧ m.left = some n ∧ r.threads = m.members.map (·.1)) ∧ (s.gr (s.tm r.team).grid).priority ≤ 7 := by
  simp only [List.forall_mem_cons, List.not_mem_nil, false_imp_iff, implies_true, and_true]
  refine ⟨?_, ?_, ?_, ?_, ?_, ?_, ?_⟩ <;> exact ⟨by decide +kernel, by decide +kernel, by decide +kernel, by decide +kernel, ⟨_, _, rfl, rfl, rfl⟩, by decide +kernel⟩

/-! ### Hypotheses of the statements about transfers -/

theorem pend_pending {s : State} {r : Req} (h : s.coll = []) : (pend r s).Pending r := by
  have hc : (pend r s).coll = [] := h
  refine ⟨by simp [State.req?, pend], fun q hq _ => by simpa [pend] using hq, fun e he => by simp [hc] at he, fun q hq hne => ?_⟩
  have hq : q = r := by simpa [State.allReqs, pend, hc, show (alter _ s).coll = [] from h] using hq
  exact absurd (by rw [hq]) hne
/-- Bytes that an engine reads through cached translations. -/
def readsB (s : State) (core fn ctx : Nat) : List Nat → List Nat → Bool
  | [], [] => true
  | a :: as, p :: ps => (match hit s core fn ctx .read a with | some (q, _, _) => q == p | none => false) && (regionOf p).local && p % 128 == a % 128 && !s.mem.poison.contains (p / 128) && readsB s core fn ctx as ps
  | _, _ => false
theorem reads_of {s : State} {core fn ctx va n : Nat} {bs : List Byte} (pas : List Nat) (h : readsB s core fn ctx (chunks va n) pas = true)
    (hb : bs = ((chunks va n).zip pas).flatMap (fun c => s.mem.bytes.readN c.2 (min (va + n - c.1) (128 - c.1 % 128)))) : s.Reads core fn ctx va n bs := by
  refine ⟨pas, ?_, hb⟩
  clear hb
  generalize chunks va n = cs at h
  induction cs generalizing pas with
  | nil => cases pas <;> simp_all [readsB]
  | cons a as ih =>
    cases pas with
    | nil => simp [readsB] at h
    | cons p ps =>
      simp only [readsB, Bool.and_eq_true, beq_iff_eq, Bool.not_eq_true'] at h
      obtain ⟨⟨⟨⟨h1, h2⟩, h3⟩, h4⟩, h5⟩ := h
      split at h1
      · rename_i q mt leaf he
        have hq : q = p := by simpa using h1
        subst hq
        exact .cons ⟨⟨mt, leaf, hits_of he⟩, h2, h3, by simpa using h4⟩ (ih ps h5)
      · simp at h1
/-- Bytes that take an engine's write. -/
def opensB (s : State) (core fn ctx last : Nat) : List Nat → List Nat → Bool
  | [], [] => true
  | a :: as, p :: ps => (match hit s core fn ctx .write a with | some (q, _, leaf) => q == p && leaf.testBit 8 | none => false) && !s.isMigrating fn ctx a && (regionOf p).local &&
      decide (p % 128 + min (last - a) (128 - a % 128) ≤ 128) && !s.mem.poison.contains (p / 128) && !s.isCow (p / 4096) && opensB s core fn ctx last as ps
  | _, _ => false
theorem open_of {s : State} {core fn ctx va n : Nat} {pas : List Nat} (hw : s.waits = false) (h : opensB s core fn ctx (va + n) (chunks va n) pas = true) : s.Open core fn ctx va n pas := by
  refine ⟨hw, ?_⟩
  generalize chunks va n = cs at h
  induction cs generalizing pas with
  | nil => cases pas <;> simp_all [opensB]
  | cons a as ih =>
    cases pas with
    | nil => simp [opensB] at h
    | cons p ps =>
      simp only [opensB, Bool.and_eq_true, Bool.not_eq_true', decide_eq_true_eq] at h
      obtain ⟨⟨⟨⟨⟨⟨h1, h2⟩, h3⟩, h4⟩, h5⟩, h6⟩, h7⟩ := h
      split at h1
      · rename_i q mt leaf he
        simp only [Bool.and_eq_true, beq_iff_eq] at h1
        obtain ⟨rfl, hl⟩ := h1
        exact .cons ⟨⟨mt, leaf, hits_of he, hl⟩, h2, h3, h4, by simpa using h5, h6⟩ (ih h7)
      · simp at h1
theorem plain_of {s : State} {pa n : Nat} (h : (s.mem.poison.isEmpty && s.snaps.isEmpty) = true) : s.Plain pa n := by
  simp only [Bool.and_eq_true, List.isEmpty_iff] at h
  exact fun l _ _ => ⟨by simp [h.1], by simp [State.isCow, h.2]⟩

/-- DispatchSteps: a DSEND at each of its stages, to the issuing device and to another; a DCOMB of two routes, one to the issuing device, before and after its writes. -/
def routeTo (p : Nat) : Nat := p * 65536 + 3
theorem route_peer (p : Nat) (h : p < 32) : bitsOf (routeTo p) 20 16 = p ∧ bitsOf (routeTo p) 11 0 = 3 := by simp only [bitsOf, routeTo, Nat.shiftRight_eq_div_pow]; omega
def dsendX : WA := wa 20 8 30 (ext (c := 31))
def sendReq (args : List Nat) (stage : Nat) (row : List Byte) : Req := req .cp (.dispatch 3 (.dsend dsendX) (sendDesc ++ row) args stage 0 0x1000)
def row16 : List Byte := (List.range 16).map (BitVec.ofNat 8)
def sendState (r : Req) : State := pend r (wr 0x400020 row16 two)
theorem witness_dsend_steps : ∀ p < 32, bitsOf (routeTo p) 20 16 = p ∧
    (∀ stage ≤ 3, let r := sendReq [routeTo p, 0] stage (if stage = 3 then [] else row16); let s := sendState r
      s.Pending r ∧ r.fault = none ∧ (∃ t ∈ s.threads, t.uid = 3) ∧ 20 ∈ (s.thr 3).pendV) ∧
    (let r := sendReq [routeTo p, 0x200020] 3 []; let s := sendState r
      s.Pending r ∧ sourceLate 77 3 2 0x200020 16 s = false ∧ s.Settled 2 0x200020 16 ∧ s.Reads 0 0 0xFFF 0x200020 16 row16) ∧
    (let r := sendReq [routeTo p, 0] 0 row16; let s := sendState r
      s.admits (s.tagOf 0) 0x118 8 = true ∧ s.Takes 0x118 8 ∧ leNat (s.mem.bytes.readN 0x118 8) < 2 ∧ (s.put 0x118 (leBytes 1 8)).admits (s.tagOf 0) 0x8160 16 = true ∧ s.Plain 0x8160 16) ∧
    (let r := sendReq [routeTo p, 0] 1 row16; let s := sendState r; s.admits (s.tagOf 0) 0x40 8 = true ∧ s.Takes 0x40 8) := by
  have k : ∀ p < 32, (∀ stage ≤ 3, let s := sendState (sendReq [routeTo p, 0] stage (if stage = 3 then [] else row16)); (∃ t ∈ s.threads, t.uid = 3) ∧ 20 ∈ (s.thr 3).pendV) ∧
      (let s := sendState (sendReq [routeTo p, 0x200020] 3 []); sourceLate 77 3 2 0x200020 16 s = false ∧ s.dirtyOf 2 = [] ∧ readsB s 0 0 0xFFF (chunks 0x200020 16) [0x400020] = true ∧
        row16 = ((chunks 0x200020 16).zip [0x400020]).flatMap (fun c => s.mem.bytes.readN c.2 (min (0x200020 + 16 - c.1) (128 - c.1 % 128)))) ∧
      (let s := sendState (sendReq [routeTo p, 0] 0 row16); s.admits (s.tagOf 0) 0x118 8 = true ∧ s.isCow (0x118 / 4096) = false ∧ leNat (s.mem.bytes.readN 0x118 8) < 2 ∧ (s.put 0x118 (leBytes 1 8)).admits (s.tagOf 0) 0x8160 16 = true ∧ s.mem.poison = [] ∧ s.snaps = [] ∧
        s.admits (s.tagOf 0) 0x40 8 = true ∧ s.isCow (0x40 / 4096) = false) := by decide +kernel
  intro p hp
  obtain ⟨k1, ⟨k2, k3, k4, k5⟩, k6, k7, k8, k9, k10, k11, k12, k13⟩ := k p hp
  refine ⟨(route_peer p hp).1, fun stage h => ⟨pend_pending (by decide +kernel), rfl, (k1 stage h).1, (k1 stage h).2⟩, ⟨pend_pending (by decide +kernel), k2, settledAt_of k3 _ _, reads_of [0x400020] k4 k5⟩,
    ⟨k6, ⟨by decide, by rw [k10]; simp, k7⟩, k8, k9, plain_of (by simp [k10, k11])⟩, k12, ⟨by decide, ?_, k13⟩⟩
  rw [show (sendState (sendReq [routeTo p, 0] 1 row16)).mem = (sendState (sendReq [routeTo p, 0] 0 row16)).mem from rfl, k10]; simp
def combX : WA := wa 0 8 20 (ext (fn := 1) (ty := .f32) (c := 31) (w2 := 30))
def combReq (stage : Nat) : Req := req .cp (.dispatch 3 (.dcomb combX) combDesc (if stage = 0 then [7, 5, 0, 0x3F800000, 0x8161] else [3, 9]) stage 0 0x1000)
theorem witness_dcomb_steps : (∀ stage ≤ 1, (pend (combReq stage) two).Pending (combReq stage) ∧ (combReq stage).fault = none ∧ ∃ t ∈ (pend (combReq stage) two).threads, t.uid = 3) ∧
    (let s := pend (combReq 0) two; 0 < elemBytes combX.x.ty ∧ fieldOf combDesc 8 4 % elemBytes combX.x.ty = 0 ∧ s.admits (s.tagOf 0) 0x8160 16 = true ∧ s.mem.poison = [] ∧ s.Open 0 0 0xFFF (fieldOf combDesc 16 8 + 7 * 16 + 0) 16 [0x200170]) ∧ 9 ≤ two.gtick :=
  ⟨fun _ _ => ⟨pend_pending (by decide +kernel), rfl, by simp [pend, alter, thm, two, thread]⟩, ⟨by decide +kernel, by decide +kernel, by decide +kernel, by decide +kernel, open_of (by decide +kernel) (by decide +kernel)⟩, by decide +kernel⟩
/-- CollectiveSteps: two ranks, this one rank 1; the other's descriptor the same or not; before and after the writes; every operation. -/
def collReq (fn stage : Nat) : Req := req .cp (.dispatch 3 (.coll (wa 0 8 0 (ext (fn := fn)))) collDesc (if stage = 0 then [3] else [3, 1, 9]) stage 0 0x1000)
def rank0 (fn : Nat) (same : Bool) : RankData := ⟨0, fn, if same then collDesc else collDesc.set 16 9, two.tagOf 0, 3, true, (List.range 64).map (fun n => BitVec.ofNat 8 (n % 16 + 0x30)), []⟩
theorem witness_coll_steps :
    (∀ fn ≤ 4, (pend (collReq fn 0) two).Pending (collReq fn 0) ∧ (∀ b, [rank0 fn b].find? (fun d => d.rank == 0) = some (rank0 fn b)) ∧ (rank0 fn true).tag = two.tagOf 0 ∧ two.halted = [] ∧ (∀ b, fieldOf (rank0 fn b).desc 24 4 = fieldOf collDesc 24 4) ∧ fieldOf collDesc 20 1 = 2 ∧ fieldOf collDesc 21 1 = 1 ∧
      ((rank0 fn true).desc.length = 64 ∧ ((rank0 fn true).desc.drop 16).take 5 = (collDesc.drop 16).take 5 ∧ ((rank0 fn true).desc.drop 22).take 2 = (collDesc.drop 22).take 2) ∧ ((rank0 fn false).desc.drop 16).take 5 ≠ (collDesc.drop 16).take 5 ∧ collBad fn collDesc = false ∧
      (let s := pend (collReq fn 0) two; sourceLate 77 3 2 0x200000 (collBytes fn collDesc).1 s = false ∧ s.Settled 2 0x200000 (collBytes fn collDesc).1 ∧ s.Reads 0 0 0xFFF 0x200000 (collBytes fn collDesc).1 (s.mem.bytes.readN 0x400000 (collBytes fn collDesc).1) ∧ s.Open 0 0 0xFFF 0x201000 (collBytes fn collDesc).2 [0x401000])) ∧
    (let s := pend (collReq 0 1) two; s.Pending (collReq 0 1) ∧ 9 ≤ s.gtick ∧ s.Counts 0 0 0xFFF 0x40 0x200040) := by
  have k : ∀ fn ≤ 4, (∀ b, [rank0 fn b].find? (fun d => d.rank == 0) = some (rank0 fn b)) ∧ (rank0 fn true).tag = two.tagOf 0 ∧ two.halted = [] ∧ (∀ b, fieldOf (rank0 fn b).desc 24 4 = fieldOf collDesc 24 4) ∧ fieldOf collDesc 20 1 = 2 ∧ fieldOf collDesc 21 1 = 1 ∧
      ((rank0 fn true).desc.length = 64 ∧ ((rank0 fn true).desc.drop 16).take 5 = (collDesc.drop 16).take 5 ∧ ((rank0 fn true).desc.drop 22).take 2 = (collDesc.drop 22).take 2) ∧ ((rank0 fn false).desc.drop 16).take 5 ≠ (collDesc.drop 16).take 5 ∧ collBad fn collDesc = false ∧
      (let s := pend (collReq fn 0) two; let n := (collBytes fn collDesc).1; sourceLate 77 3 2 0x200000 n s = false ∧ readsB s 0 0 0xFFF (chunks 0x200000 n) [0x400000] = true ∧
        s.mem.bytes.readN 0x400000 n = ((chunks 0x200000 n).zip [0x400000]).flatMap (fun c => s.mem.bytes.readN c.2 (min (0x200000 + n - c.1) (128 - c.1 % 128))) ∧
        opensB s 0 0 0xFFF (0x201000 + (collBytes fn collDesc).2) (chunks 0x201000 (collBytes fn collDesc).2) [0x401000] = true ∧ s.waits = false ∧ s.dirtyOf 2 = []) := by decide +kernel
  refine ⟨fun fn h => ?_, pend_pending (by decide +kernel), by decide +kernel, by decide +kernel, by decide +kernel, by decide +kernel, ⟨0, 0x2001BF, hits_of (by decide +kernel), by decide +kernel⟩, by decide +kernel, by unfold State.Takes; decide +kernel⟩
  obtain ⟨k1, k2, k3, k4, k5, k6, k7, k8, k9, k10, k11, k12, k13, k14, k15⟩ := k fn h
  exact ⟨pend_pending (by decide +kernel), k1, k2, k3, k4, k5, k6, k7, k8, k9, k10, settledAt_of k15 _ _, reads_of [0x400000] k11 k12, open_of k14 k13⟩
/-- ReductionSteps: entries at two addresses, at a flush point and at the end; a log with room; a flush whose writes are at their ticks. -/
def redE (tid seq va b : Nat) : RedEntry := ⟨2, tid, seq, 0, va, ⟨0, 0, .i32, 0, b, 0⟩, false, false⟩
def reduce (reds : List RedEntry) (flush : Option Nat) (s : State) : State :=
  { thm (fun t => { t with phase := .parked .keys, flushPoints := 1, npc := 0x1004 }) s with
    waves := [], nextId := 100
    grids := s.grids.map (fun (g : Grid) => { g with record := (g.record.set 29 1).take 96 ++ leBytes 0x200800 8 ++ (g.record.drop 104), reds := reds, logCap := 4, flushTick := flush, next := 9999 }) }
def reds4 : List RedEntry := [redE 1 0 0x200100 5, redE 0 1 0x200100 7, redE 0 0 0x200108 9, redE 0 0 0x200100 1]
def mineOf (p : Nat × Nat) : List RedEntry := if p.1 = 0x200100 then [redE 0 0 0x200100 1, redE 0 1 0x200100 7, redE 1 0 0x200100 5] else [redE 0 0 0x200108 9]
theorem flush_at {s : State} {grid k : Nat}
    (h : (decide ((s.gr grid).teamCount ≤ (s.gr grid).next) && s.threads.any (fun t => t.phase != .exited && s.teams.any (fun m => m.grid == grid && m.uid == t.team)) &&
      s.threads.all (fun t => t.phase == .exited || !s.teams.any (fun m => m.grid == grid && m.uid == t.team) || (t.flushPoints == k && t.phase == .parked .keys && t.stopped == none))) = true) : s.FlushAt grid k := by
  simp only [Bool.and_eq_true, decide_eq_true_eq, List.any_eq_true, List.all_eq_true, bne_iff_ne, beq_iff_eq, Bool.or_eq_true, Bool.not_eq_true', List.any_eq_false] at h
  refine ⟨h.1.1, ?_, fun t ht => ?_⟩
  · obtain ⟨t, h1, h2, m, h3, h4, h5⟩ := h.1.2
    exact ⟨t, h1, h2, m, h3, h4, h5⟩
  · obtain ⟨h1, h2, m, h3, h4, h5⟩ := ht
    rcases h.2 t h1 with (h | h) | h
    · exact absurd h h2
    · exact absurd ⟨h4, h5⟩ (h m h3)
    · exact ⟨h.1.1, h.1.2, h.2⟩
theorem witness_reduction_steps :
    (∀ f ∈ [none, some 9], (reduce reds4 f two).Numbered ∧ ((reduce reds4 f two).grids.map Grid.uid).Nodup ∧ (∃ h ∈ (reduce reds4 f two).grids, h.uid = 1)) ∧
    (let s := reduce reds4 none two; (s.gr 1).reds.find? (fun r => !r.spilled) = some (redE 1 0 0x200100 5) ∧ (s.gr 1).logFull = false ∧ ((s.gr 1).reds.filter (·.spilled)).length < (s.gr 1).logCap ∧ (s.gr 1).field 96 8 = 0x200800 ∧ s.waits = false ∧
      s.isMigrating 0 0xFFF 0x200840 = false ∧ s.Hits 0 0 0xFFF .write 0x200840 0x400840 1 0x4005BF ∧ (0x4005BF : Nat).testBit 8 = true ∧ (regionOf 0x400840).local = true ∧ s.Takes 0x400840 32 ∧
      s.Canonical ∧ (s.gr 1).done = false ∧ (s.gr 1).det = true ∧ (s.gr 1).flushTick = none ∧ (∀ r ∈ (s.gr 1).reds, r.bad = false) ∧ s.FlushAt 1 ((s.gr 1).flushed + 1) ∧ flushAddrs (s.gr 1) = [(0x200100, 4), (0x200108, 4)] ∧
      (∀ p ∈ flushAddrs (s.gr 1), s.isMigrating 0 0xFFF p.1 = false ∧ (∃ mt leaf, s.Hits 0 0 0xFFF .read p.1 (p.1 + 0x200000) mt leaf ∧ s.Hits 0 0 0xFFF .write p.1 (p.1 + 0x200000) mt leaf ∧ leaf.testBit 8 = true) ∧ (regionOf (p.1 + 0x200000)).local = true ∧ s.Takes (p.1 + 0x200000) p.2) ∧
      (flushAddrs (s.gr 1)).Pairwise (fun p q => p.1 + 0x200000 + p.2 ≤ q.1 + 0x200000 ∨ q.1 + 0x200000 + q.2 ≤ p.1 + 0x200000) ∧
      (∀ p ∈ flushAddrs (s.gr 1), (mineOf p).Perm ((s.gr 1).reds.filter (fun r => r.va == p.1 && elemBytes r.o.ty == p.2)) ∧ (mineOf p).Pairwise (fun a b => (a.team * 1024 + a.tid) * 2 ^ 32 + a.seq < (b.team * 1024 + b.tid) * 2 ^ 32 + b.seq))) ∧
    (let s := { reduce reds4 none two with teams := [], threads := [] }; s.AllOver 1 ∧ (s.gr 1).ended = false) ∧
    (let s := reduce [] (some 9) two; (s.gr 1).flushTick = some 9 ∧ 9 ≤ s.gtick ∧ (s.gr 1).lost = [] ∧ s.faults = [] ∧ s.FlushAt 1 ((s.gr 1).flushed + 1)) := by
  refine ⟨?_, ⟨by decide +kernel, by decide +kernel, by decide +kernel, by decide +kernel, by decide +kernel, by decide +kernel, hits_of (by decide +kernel), by decide, by decide +kernel, by unfold State.Takes; decide +kernel,
    by unfold State.Canonical; decide +kernel, by decide +kernel, by decide +kernel, by decide +kernel, by decide +kernel, flush_at (by decide +kernel), by decide +kernel, ?_, by decide +kernel, by decide +kernel⟩, by unfold State.AllOver; decide +kernel, by decide +kernel, by decide +kernel, by decide +kernel, by decide +kernel, flush_at (by decide +kernel)⟩
  · simp only [List.forall_mem_cons, List.not_mem_nil, false_imp_iff, implies_true, and_true]
    exact ⟨⟨numbered_of (by decide +kernel), by decide +kernel⟩, ⟨numbered_of (by decide +kernel), by decide +kernel⟩⟩
  · rw [show flushAddrs ((reduce reds4 none two).gr 1) = [(0x200100, 4), (0x200108, 4)] by decide +kernel]
    simp only [List.forall_mem_cons, List.not_mem_nil, false_imp_iff, implies_true, and_true]
    exact ⟨⟨by decide +kernel, ⟨1, 0x4005BF, hits_of (by decide +kernel), hits_of (by decide +kernel), by decide⟩, by decide +kernel, by unfold State.Takes; decide +kernel⟩,
      ⟨by decide +kernel, ⟨1, 0x4005BF, hits_of (by decide +kernel), hits_of (by decide +kernel), by decide⟩, by decide +kernel, by unfold State.Takes; decide +kernel⟩⟩

/-! ### Hypotheses of the statements about the splat pipeline -/

/-- A frame of 16 × 16 pixels: view identity, focal lengths and centre 8, tables in memory of MT 01, background (1, 1, 1). -/
def f32s (l : List Nat) : List Byte := flat (l.map (fun n => (n, 4)))
def one32 : Nat := 0x3F800000
def frame16 : List Byte := f32s [one32, 0, 0, 0, one32, 0, 0, 0, one32, 0, 0, 0, 0x41000000, 0x41000000, 0x41000000, 0x41000000, 16, 16] ++ flat [(0x201000, 8), (0x202000, 8), (16, 4), (0, 4), (0x200100, 8), (0x203000, 8), (0x204000, 8), (0x205000, 8), (0x206000, 8), (0x207000, 8)] ++ f32s [one32, one32, one32] ++ List.replicate 36 0
/-- A Gaussian at (0, 0, 2): scale 1, unit quaternion, opacity and colours. -/
def gauss : List Byte := f32s [0, 0, 0x40000000, one32, one32, one32, one32, 0, 0, 0, 0x3F000000, one32, 0, one32, 0, 0]
def keyOf (tile depth id : Nat) : List Byte := f32s [tile, depth, id, 0]
def splatB (u : Nat) : List Byte := f32s [u, 0x41000000, 0x3D800000, 0, 0x3D800000, 0x3F000000] ++ flat [(0x3C00, 2), (0x3800, 2), (0, 2), (3, 2)]
def pixelB : List Byte := f32s [0, 0, 0, 0x3F000000, 2, one32, one32, 0x3F000000]
/-- The tables of the frame: keys, a count of 3, sorted keys, one tile of two splats, the pixel (8, 8). -/
def tables (s : State) : State :=
  wr 0x400000 frame16 (wr 0x400100 [3] (wr 0x402000 (keyOf 0 9 2 ++ keyOf 0 5 1 ++ keyOf 0 5 0) (wr 0x403000 (keyOf 0 5 0 ++ keyOf 0 9 1) (wr 0x401000 (splatB 0x41000000 ++ splatB 0x41080000) (wr 0x405000 (f32s [0, 2]) (wr (0x406000 + 32 * 136) pixelB (wr 0x400200 gauss (tmm (fun t => { t with frame := 0x200000, lease := 100 }) s))))))))
def binReq (started : Bool) (target : Option Nat) (saved : Bool) : BinReq := ⟨60, 0, 2, [3], 2, 0x200000, started, saved, 0x1000, none, target, 3, [], 0⟩
def binning (count : Nat) (b : BinReq) : State := { alter (fun t => { t with phase := .ready, tl := 1, pendP := [2] }) (wr 0x400100 [BitVec.ofNat 8 count] (tables two)) with bins := [b] }
def calledOff : State := binning 3 (binReq false none true)
def asked (s : State) : State := s.setReg 0 false 0x680 0xC0FFF000
/-- What a read of n bytes at va through the places pas gives. -/
def readBack (s : State) (va n : Nat) (pas : List Nat) : List Byte := ((chunks va n).zip pas).flatMap (fun c => s.mem.bytes.readN c.2 (min (va + n - c.1) (128 - c.1 % 128)))
theorem witness_binner_steps :
    (calledOff.bins.find? (fun c => c.cluster == 0 && binBack c calledOff) = some (binReq false none true)) ∧
    (∀ p ∈ [(3, binReq false none false), (3, binReq true none false), (17, binReq true none false), (3, binReq true (some 9) false)], binQueue 0 (binning p.1 p.2) = [p.2] ∧ (∀ c ∈ (binning p.1 p.2).bins, ¬ (c.cluster = 0 ∧ binBack c (binning p.1 p.2) = true)) ∧ 9 ≤ (binning p.1 p.2).gtick) ∧
    (∀ s ∈ [binning 3 (binReq true none false), asked (binning 3 (binReq true none false))], s.waits = false ∧ frameBad frame16 = false ∧ s.Reads 0 0 0xFFF 0x200000 192 frame16 ∧ s.Reads 0 0 0xFFF 0x200100 8 (leBytes 3 8) ∧ s.Reads 0 0 0xFFF 0x202000 48 (keyOf 0 9 2 ++ keyOf 0 5 1 ++ keyOf 0 5 0) ∧
      s.Open 0 0 0xFFF 0x204000 48 [0x404000] ∧ s.Open 0 0 0xFFF 0x203000 48 [0x403000] ∧ s.Open 0 0 0xFFF 0x205000 8 [0x405000]) ∧
    (let s := binning 17 (binReq true none false); s.Reads 0 0 0xFFF 0x200000 192 frame16 ∧ s.Reads 0 0 0xFFF 0x200100 8 (leBytes 17 8)) ∧
    (let s := asked (binning 3 (binReq true none false)); binQueue 0 s = [binReq true none false] ∧ saveAsked 0 0 0 0xFFF s = true ∧ (s.thr 3).lane < 32) := by
  have hb : (∀ s ∈ [binning 3 (binReq true none false), asked (binning 3 (binReq true none false)), binning 17 (binReq true none false)], frame16 = readBack s 0x200000 192 [0x400000, 0x400080] ∧ readsB s 0 0 0xFFF (chunks 0x200000 192) [0x400000, 0x400080] = true ∧ readsB s 0 0 0xFFF (chunks 0x200100 8) [0x400100] = true) ∧
      (∀ s ∈ [binning 3 (binReq true none false), asked (binning 3 (binReq true none false))], leBytes 3 8 = readBack s 0x200100 8 [0x400100] ∧ keyOf 0 9 2 ++ keyOf 0 5 1 ++ keyOf 0 5 0 = readBack s 0x202000 48 [0x402000] ∧ readsB s 0 0 0xFFF (chunks 0x202000 48) [0x402000] = true ∧ s.waits = false ∧ frameBad frame16 = false) ∧
      leBytes 17 8 = readBack (binning 17 (binReq true none false)) 0x200100 8 [0x400100] := by decide +kernel
  simp only [List.forall_mem_cons, List.not_mem_nil, false_imp_iff, implies_true, and_true] at hb
  obtain ⟨⟨⟨a1, a2, a3⟩, ⟨b1, b2, b3⟩, c1, c2, c3⟩, ⟨⟨d1, d2, d3, d4, d5⟩, e1, e2, e3, e4, e5⟩, f⟩ := hb
  refine ⟨by decide +kernel, by decide +kernel, ?_, ⟨reads_of _ c2 c1, reads_of _ c3 f⟩, by decide +kernel⟩
  simp only [List.forall_mem_cons, List.not_mem_nil, false_imp_iff, implies_true, and_true]
  exact ⟨⟨d4, d5, reads_of _ a2 a1, reads_of _ a3 d1, reads_of _ d3 d2, open_of (by decide +kernel) (by decide +kernel), open_of (by decide +kernel) (by decide +kernel), open_of (by decide +kernel) (by decide +kernel)⟩,
    e4, e5, reads_of _ b2 b1, reads_of _ b3 e1, reads_of _ e3 e2, open_of (by decide +kernel) (by decide +kernel), open_of (by decide +kernel) (by decide +kernel), open_of (by decide +kernel) (by decide +kernel)⟩
/-- SplatSteps: SPROJ of a Gaussian before and past the near plane, with and without room for its keys; SBLEND.FWD and SBLEND.BACK of a pixel with two splats; a request whose writes are at their tick. -/
def splatReq (i : Instr) (near a b : Nat) : Req := req .tl (.splat 3 i ([0, 0, near, 0, a, b] ++ frame16.map BitVec.toNat) 0x1000)
def projReq (near : Nat) : Req := splatReq (.sproj (wa 40 24 20 (ext (w2 := 2)))) near 0x200200 3
def fwdReq : Req := splatReq (.sblendFwd (wa 40 20 22 ext)) 0x38D1B717 8 8
def backReq : Req := splatReq (.sblendBack (wa 0 20 22 (ext (fn := 1)))) 0 8 8
def doneReq : Req := req .tl (.splat 3 (.sblendBack (wa 0 20 22 (ext (fn := 1)))) ([1, 9, 0, 0, 8, 8] ++ frame16.map BitVec.toNat) 0x1000)
def splatting (count : Nat) (r : Req) : State := pend r (wr 0x400100 [BitVec.ofNat 8 count] (tables two))
theorem witness_splat_steps : (∀ count, ∀ r, (splatting count r).Pending r) ∧
    (∀ r ∈ [projReq 0x3E4CCCCD, fwdReq, backReq, doneReq], r.fault = none ∧ (∃ t ∈ (splatting 3 r).threads, t.uid = 3) ∧ ((splatting 3 r).thr 3).team = r.team ∧ (∃ m ∈ (splatting 3 r).teams, m.uid = r.team) ∧ ((splatting 3 r).grids.map Grid.uid).Nodup ∧ ∃ h ∈ (splatting 3 r).grids, h.uid = ((splatting 3 r).tm r.team).grid) ∧
    9 ≤ (splatting 3 doneReq).gtick ∧
    ((project frame16 gauss 0x40400000).1 = none ∧ (project frame16 gauss 0x3E4CCCCD).1.any (fun p => p.splat.length == 32 && p.tiles == [0]) = true) ∧
    (∀ c ∈ [3, 16], let s := splatting c (projReq 0x3E4CCCCD); s.waits = false ∧ s.Reads 0 0 0xFFF 0x200200 64 gauss ∧ s.Open 0 0 0xFFF (frameAt frame16 72 32 3) 32 [0x401060] ∧ s.isMigrating 0 0xFFF 0x200100 = false ∧ (s.mem.l1 = []) ∧
      s.Hits 0 0 0xFFF .atomic 0x200100 0x400100 1 0x4005BF ∧ s.Takes 0x400100 8 ∧ s.Open 0 0 0xFFF (frameAt frame16 80 16 3) 16 [0x402030]) ∧
    (let s := splatting 3 fwdReq; s.Reads 0 0 0xFFF 0x205000 8 (f32s [0, 2]) ∧ s.Reads 0 0 0xFFF 0x203000 16 (keyOf 0 5 0) ∧ s.Reads 0 0 0xFFF 0x203010 16 (keyOf 0 9 1) ∧ s.Reads 0 0 0xFFF 0x201000 32 (splatB 0x41000000) ∧ s.Reads 0 0 0xFFF 0x201020 32 (splatB 0x41080000) ∧ s.Open 0 0 0xFFF 0x207100 20 [0x407100]) ∧
    (let s := splatting 3 backReq; s.Reads 0 0 0xFFF 0x207100 32 pixelB ∧ s.waits = false ∧ s.mem.l1 = [] ∧ s.det 2 = false ∧ (det s).det 2 = true ∧ bufferOf 0 (det s) = 0 ∧
      (∀ a < 19, s.isMigrating 0 0xFFF (0x207000 + 4 * a) = false ∧ s.isCow ((0x407000 + 4 * a) / 4096) = false) ∧ s.Hits 0 0 0xFFF .atomic 0x207000 0x407000 1 0x4005BF ∧ s.Hits 0 0 0xFFF .atomic 0x207048 0x407048 1 0x4005BF) := by
  have hb : (∀ c ∈ [3, 16], gauss = readBack (splatting c (projReq 0x3E4CCCCD)) 0x200200 64 [0x400200] ∧ readsB (splatting c (projReq 0x3E4CCCCD)) 0 0 0xFFF (chunks 0x200200 64) [0x400200] = true) ∧
      (let s := splatting 3 fwdReq; ∀ x ∈ [(0x205000, 0x405000, f32s [0, 2]), (0x203000, 0x403000, keyOf 0 5 0), (0x203010, 0x403010, keyOf 0 9 1), (0x201000, 0x401000, splatB 0x41000000), (0x201020, 0x401020, splatB 0x41080000)],
        x.2.2 = readBack s x.1 x.2.2.length [x.2.1] ∧ readsB s 0 0 0xFFF (chunks x.1 x.2.2.length) [x.2.1] = true) ∧
      pixelB = readBack (splatting 3 backReq) 0x207100 32 [0x407100] ∧ readsB (splatting 3 backReq) 0 0 0xFFF (chunks 0x207100 32) [0x407100] = true := by decide +kernel
  simp only [List.forall_mem_cons, List.not_mem_nil, false_imp_iff, implies_true, and_true] at hb
  obtain ⟨⟨⟨a1, a2⟩, b1, b2⟩, ⟨⟨f1, f2⟩, ⟨g1, g2⟩, ⟨h1, h2⟩, ⟨i1, i2⟩, j1, j2⟩, k1, k2⟩ := hb
  refine ⟨fun count r => pend_pending (by rw [show (wr 0x400100 [BitVec.ofNat 8 count] (tables two)).coll = two.coll from rfl]; decide +kernel), by decide +kernel, by decide +kernel, by decide +kernel, ?_, ?_, ?_⟩
  · simp only [List.forall_mem_cons, List.not_mem_nil, false_imp_iff, implies_true, and_true]
    exact ⟨⟨by decide +kernel, reads_of _ a2 a1, open_of (by decide +kernel) (by decide +kernel), by decide +kernel, by decide +kernel, hits_of (by decide +kernel), by unfold State.Takes; decide +kernel, open_of (by decide +kernel) (by decide +kernel)⟩,
      by decide +kernel, reads_of _ b2 b1, open_of (by decide +kernel) (by decide +kernel), by decide +kernel, by decide +kernel, hits_of (by decide +kernel), by unfold State.Takes; decide +kernel, open_of (by decide +kernel) (by decide +kernel)⟩
  · exact ⟨reads_of _ f2 f1, reads_of _ g2 g1, reads_of _ h2 h1, reads_of _ i2 i1, reads_of _ j2 j1, open_of (by decide +kernel) (by decide +kernel)⟩
  · exact ⟨reads_of _ k2 k1, by decide +kernel, by decide +kernel, by decide +kernel, by decide +kernel, by decide +kernel, by decide +kernel, hits_of (by decide +kernel), hits_of (by decide +kernel)⟩

/-! ### Hypotheses of the statements about queues, launches, tasks and completion -/

/-- QueueSteps: a descriptor, its context descriptor and image header; a malformed descriptor; a queue that is off, pending or served. -/
def qDesc (n : Nat) : List Byte := flat [(0x400500, 8), (0x400600, 8), (n, 4), (0, 4), (3, 4), (0, 4), (0, 32)]
def cDesc (ctx : Nat) : List Byte := flat [(0x100000, 8), (ctx, 4), (0, 28), (1, 4), (0, 4), (0x400800, 8), (0, 72)]
def queue (tail : Nat) (resident admitted : Bool) (ctx : Nat) : Queue := ⟨7, 0, 0x400401, tail, 0, 0x400500, 0x400600, 16, 3, 0, 0, resident, 4, admitted, false, false, ctx⟩
def queuing (n ctx : Nat) (x : Queue) : State := { wr 0x400400 (qDesc n) (wr 0x400500 (cDesc ctx) (wr 0x400810 [2] two)) with waves := [], queues := [x], qown := [(7, 0), (8, 0)], nextId := 100 }
theorem phys_of {s : State} {fn pa n : Nat} {bs : List Byte} (h : (s.physOk fn pa n && s.mem.poison.isEmpty && s.snaps.isEmpty && bs == s.mem.bytes.readN pa n) = true) : s.Phys fn pa n bs := by
  simp only [Bool.and_eq_true, beq_iff_eq] at h
  exact ⟨h.1.1.1, plain_of (by simp [h.1.1.2, h.1.2]), h.2⟩
theorem witness_queue_steps :
    (∀ n ∈ [16, 5], ∀ x ∈ [queue 0 false false 0, queue 1 false false 0, queue 1 false true 0xFFF, queue 40 false false 0], let s := queuing n 0x123 x
      (∀ y ∈ s.queues, ∀ z ∈ s.queues, y.q = z.q → y = z) ∧ (s.queue 7).q = 7 ∧ lookupD 0 s.qown 7 = 0 ∧ lookupD 0 s.qown 7 ≠ 1) ∧
    ((0x400401 : Dword).getLsbD 0 = true ∧ (0x400400 : Dword).getLsbD 0 = false ∧ queueBad (qDesc 16) = false ∧ queueBad (qDesc 5) = true) ∧
    (∀ n ∈ [16, 5], (queuing n 0x123 (queue 1 false false 0)).Phys 0 0x400400 64 (qDesc n) ∧ (queuing n 0x123 (queue 1 false false 0)).Phys 0 0x40041C 4 [0, 0, 0, 0]) ∧
    (let s := queuing 16 0x123 (queue 1 false false 0); s.serves (s.queue 7) = true ∧ (s.queue 7).resident = false ∧ (s.queues.filter (·.resident)).length < 256 ∧ contextBad (cDesc 0x123) = false ∧ s.Phys 0 0x400500 128 (cDesc 0x123) ∧ s.Phys 0 0x400800 20 (leBytes (2 * 2 ^ 128) 20) ∧
      (∀ g ∈ s.grids, g.ctx ≠ 0x123) ∧ s.slots = []) ∧
    (let s := queuing 16 0xFFF (queue 1 false false 0); s.Phys 0 0x400500 128 (cDesc 0xFFF) ∧ ∃ g ∈ s.grids, g.fn = 0 ∧ g.ctx = 0xFFF ∧ g.killed = false) := by
  refine ⟨by decide +kernel, by decide +kernel, ?_, ⟨by decide +kernel, by decide +kernel, by decide +kernel, by decide +kernel, phys_of (by decide +kernel), phys_of (by decide +kernel), by decide +kernel, by decide +kernel⟩, phys_of (by decide +kernel), by decide +kernel⟩
  simp only [List.forall_mem_cons, List.not_mem_nil, false_imp_iff, implies_true, and_true]
  exact ⟨⟨phys_of (by decide +kernel), phys_of (by decide +kernel)⟩, phys_of (by decide +kernel), phys_of (by decide +kernel)⟩
/-- EntrySteps: a resident queue at an entry of each operation, a malformed one, and a launch record that is accepted or refused. -/
def entryB (op fence va arg : Nat) : List Byte := flat [(op, 1), (fence, 1), (0, 6), (va, 8), (arg, 8), (0, 40)]
def dieTlb (s : State) : State := { s with mem := { s.mem with tlb := cached.map (fun t => { t with place := baseDie }) } }
def launchBadRec : List Byte := launchRec.set 20 0
def serving (e : List Byte) (r : List Byte) (others : List Queue) : State := dieTlb { wr 0x400600 e (wr 0x400110 [7] (wr 0x401400 r (queuing 16 0xFFF (queue 1 true true 0xFFF)))) with queues := queue 1 true true 0xFFF :: others }
def launchParts (s : State) : List Dword × List Dword × Nat × Nat := (dwordsOf 64 (s.mem.bytes.readN 0x400000 512), dwordsOf 16 (leBytes 0 128), 0, 4 * (two.clusters.filter (fun (c : Cluster) => c.v && c.owner == 0 && !c.margin)).length)
theorem serving_clusters (e r : List Byte) (o : List Queue) : (serving e r o).clusters = two.clusters := rfl
theorem witness_entry_steps :
    (∀ e ∈ [entryB 4 0 0 0, entryB 0 1 0 0, entryB 2 0 0x200110 7, entryB 2 0 0x200110 8, entryB 3 0 0x200110 5, entryB 1 0 0x201400 0], let s := serving e launchRec []
      (s.queue 7).q = 7 ∧ s.serves (s.queue 7) = true ∧ (s.queue 7).resident = true ∧ s.Phys 0 0x400600 64 e ∧ s.Phys 0 0x400414 4 [0, 0, 0, 0] ∧ s.Phys 0 0x40041C 4 [0, 0, 0, 0] ∧ (s.queue 7).unreported = false ∧ ∀ g ∈ s.grids, g.queue ≠ some 7) ∧
    ((∀ e ∈ [entryB 0 1 0 0, entryB 2 0 0x200110 7, entryB 3 0 0x200110 5, entryB 1 0 0x201400 0], entryBad e = false) ∧ entryBad (entryB 4 0 0 0) = true) ∧
    (let s := serving (entryB 3 0 0x200110 5) launchRec []; s.Counts baseDie 0 0xFFF 0x200110 0x400110 ∧ s.Hits baseDie 0 0xFFF .read 0x200110 0x400110 1 0x4005BF ∧ leNat (s.mem.bytes.readN 0x400110 8) = 7 ∧ (s.put 0x400110 (leBytes 12 8)).physOk 0 0x400414 4 = true ∧ (∀ y ∈ s.queues, s.serves y = true → y.resident = true)) ∧
    (let s := serving (entryB 2 0 0x200110 8) launchRec [{ queue 1 false true 0xFFF with q := 8 }]; ∃ y ∈ s.queues, s.serves y = true ∧ y.resident = false) ∧
    (let s := serving (entryB 1 0 0x201400 0) launchRec []; s.Reads baseDie 0 0xFFF 0x201400 256 launchRec ∧ s.Accepts baseDie 0 0xFFF launchRec (launchParts s)) ∧
    (let s := serving (entryB 1 0 0x201400 0) launchBadRec []; s.Reads baseDie 0 0xFFF 0x201400 256 launchBadRec ∧ launchBad launchBadRec = true ∧ (s.put 0x40041C (leBytes (3 * 2 ^ 24) 4)).physOk 0 0x400414 4 = true) := by
  have hb : (let s := serving (entryB 1 0 0x201400 0) launchRec []; launchRec = readBack s 0x201400 256 [0x401400, 0x401480] ∧ readsB s baseDie 0 0xFFF (chunks 0x201400 256) [0x401400, 0x401480] = true ∧
        s.mem.bytes.readN 0x400000 512 = readBack s 0x200000 512 [0x400000, 0x400080, 0x400100, 0x400180] ∧ readsB s baseDie 0 0xFFF (chunks 0x200000 512) [0x400000, 0x400080, 0x400100, 0x400180] = true) ∧
      (let s := serving (entryB 1 0 0x201400 0) launchBadRec []; launchBadRec = readBack s 0x201400 256 [0x401400, 0x401480] ∧ readsB s baseDie 0 0xFFF (chunks 0x201400 256) [0x401400, 0x401480] = true) := by decide +kernel
  obtain ⟨⟨a1, a2, a3, a4⟩, b1, b2⟩ := hb
  refine ⟨?_, by decide +kernel, ⟨⟨by decide, by decide +kernel, by decide +kernel, ⟨1, 0x4005BF, hits_of (by decide +kernel), by decide, by decide⟩, by decide +kernel, by unfold State.Takes; decide +kernel⟩, hits_of (by decide +kernel), by decide +kernel, by decide +kernel, by decide +kernel⟩,
    by decide +kernel, ⟨reads_of _ a2 a1,
      ⟨(serving (entryB 1 0 0x201400 0) launchRec []).mem.bytes.readN 0x400000 512, leBytes 0 128, by decide +kernel, by decide +kernel, reads_of _ a4 a3, by rw [if_pos (by decide +kernel)], fun a ha => .inl (by rw [(by decide +kernel : dwordsOf 16 (leBytes 0 128) = List.replicate 16 0)] at ha; exact List.eq_of_mem_replicate ha), by simp only [launchParts], by simp only [launchParts], by rw [if_neg (by decide +kernel)]; simp only [launchParts], by rw [if_neg (by decide +kernel), serving_clusters]; rfl, fun h => absurd h (by decide +kernel)⟩⟩, reads_of _ b2 b1, by decide +kernel⟩
  have : ∀ e ∈ [entryB 4 0 0 0, entryB 0 1 0 0, entryB 2 0 0x200110 7, entryB 2 0 0x200110 8, entryB 3 0 0x200110 5, entryB 1 0 0x201400 0], let s := serving e launchRec []
      (s.physOk 0 0x400600 64 && s.mem.poison.isEmpty && s.snaps.isEmpty && e == s.mem.bytes.readN 0x400600 64) = true ∧ (s.physOk 0 0x400414 4 && s.mem.poison.isEmpty && s.snaps.isEmpty && [0, 0, 0, 0] == s.mem.bytes.readN 0x400414 4) = true ∧
      (s.physOk 0 0x40041C 4 && s.mem.poison.isEmpty && s.snaps.isEmpty && [0, 0, 0, 0] == s.mem.bytes.readN 0x40041C 4) = true ∧
      (s.queue 7).q = 7 ∧ s.serves (s.queue 7) = true ∧ (s.queue 7).resident = true ∧ (s.queue 7).unreported = false ∧ ∀ g ∈ s.grids, g.queue ≠ some 7 := by decide +kernel
  intro e he
  obtain ⟨k1, k2, k3, k4, k5, k6, k7, k8⟩ := this e he
  exact ⟨k4, k5, k6, phys_of k1, phys_of k2, phys_of k3, k7, k8⟩

/-! ### Hypotheses of the statements about placement, tasks and retirement -/

/-- A device whose cluster 0 belongs to function 0, with two teams of 32 threads of which one is placed. -/
def gridOf (f : Grid → Grid) (s : State) : State := { s with waves := [], nextId := 100, grids := s.grids.map (fun (g : Grid) => f { g with record := launchRec, ncores := 4, next := 1, htab := List.replicate 16 0 }) }
def owned (s : State) : State := { s with decks := List.replicate 8 true, clusters := [⟨0, true, 0, 31, 0, false, false, 0, 0, 0, 8⟩] }
def placing : State := owned (gridOf (fun g => { g with next := 1 }) two)
def placingDet : State := owned (gridOf (fun g => { g with next := 1, record := launchRec.set 29 1, lmap := [1], lnext := [1] }) two)
def nowhere : State := { gridOf (fun g => { g with next := 1 }) two with gtick := 100010, decks := List.replicate 8 true }
def grid1 (s : State) : Grid := s.gr 1
theorem zero_handles {l : List Dword} (h : l = List.replicate 16 0) : ∀ d ∈ l, d = 0 := fun _ hd => List.eq_of_mem_replicate (h ▸ hd)
theorem witness_placement :
    (∀ s ∈ [placing, placingDet], s.Numbered ∧ (s.grids.map Grid.uid).Nodup ∧ s.grids = [grid1 s] ∧ (grid1 s).next < (grid1 s).teamCount ∧ (grid1 s).killed = false ∧ placeable (grid1 s) 1 s = true ∧ preceded (grid1 s) s = false ∧ (∀ m ∈ s.teams, m.grid = (grid1 s).uid → m.saved = none) ∧
      nextTeam (grid1 s) 1 = some 1 ∧ bankFor 1 (grid1 s).fn (grid1 s).ctx s = some 0 ∧ s.mem.l1 = [] ∧ (grid1 s).htab = List.replicate 16 0) ∧
    (nowhere.grids = [grid1 nowhere] ∧ (grid1 nowhere).next < (grid1 nowhere).teamCount ∧ (grid1 nowhere).killed = false ∧ (grid1 nowhere).hold = false ∧ (grid1 nowhere).waitSince + 100000 ≤ nowhere.gtick ∧ ∀ c < 512, placeable (grid1 nowhere) c nowhere = false) ∧
    (grid1 placingDet ∈ placingDet.grids ∧ (grid1 placingDet).det = true ∧ (grid1 placingDet).done = false ∧ 2 < (grid1 placingDet).ncores ∧ inPartition (grid1 placingDet).fn (clusterOf 3) placingDet = true ∧
      ∀ m ∈ placingDet.teams, m.grid = (grid1 placingDet).uid → m.saved = none → m.task = false → m.id % (grid1 placingDet).ncores ≠ 2) := by
  refine ⟨?_, by decide +kernel, by decide +kernel⟩
  simp only [List.forall_mem_cons, List.not_mem_nil, false_imp_iff, implies_true, and_true]
  exact ⟨⟨numbered_of (by decide +kernel), by decide +kernel⟩, numbered_of (by decide +kernel), by decide +kernel⟩
/-- TaskSteps: a task with two counters, its thresholds met or not, beside an earlier task that conflicts or does not; two eligible tasks. -/
def taskB (thr wlen done : Nat) : List Byte := flat [(0x1000, 8), (0x12345678, 8), (0x200110, 8), (2 ^ 31 + thr, 4), (2 ^ 31 + 2 ^ 20, 4), (0, 8), (done, 4), (0, 2), (wlen, 2), (0x4000, 8), (0x5000, 8)]
def taskOf (id thr wlen done : Nat) (since : Option Nat) : Task := ⟨id, 1, 0, taskB thr wlen done, true, since.isSome, since, none, none⟩
def tasking (l : List Task) : State := { wr 0x400110 [7] placing with tasks := l, teams := placing.teams }
theorem witness_task_steps :
    (∀ l ∈ [[taskOf 40 7 2 0 none, taskOf 50 7 2 0 none], [taskOf 40 7 0 0 none, taskOf 50 8 2 0 none]], let s := tasking l
      s.Numbered ∧ (s.tasks.map Task.id).Nodup ∧ (s.grids.map Grid.uid).Nodup ∧ (∀ x ∈ s.tasks, x.since = none) ∧
      s.Hits 0 0 0xFFF .read 0x200110 0x400110 1 0x4005BF ∧ s.Hits 0 0 0xFFF .read 0x200118 0x400118 1 0x4005BF ∧ leNat (s.mem.bytes.readN 0x400110 8) = 7 ∧ leNat (s.mem.bytes.readN 0x400118 8) = 0 ∧ s.mem.poison = []) ∧
    (taskOf 50 7 2 0 none).deps = [(0x200110, 7), (0x200118, 0)] ∧ tasksConflict (taskOf 40 7 2 0 none) (taskOf 50 7 2 0 none) = true ∧ tasksConflict (taskOf 40 7 0 0 none) (taskOf 50 7 2 0 none) = false ∧
    (let s := { tasking [taskOf 40 7 0 0 (some 5), taskOf 50 7 2 0 (some 6)] with gtick := 2000 }; s.Numbered ∧ gathered 0 s = [taskOf 40 7 0 0 (some 5), taskOf 50 7 2 0 (some 6)] ∧ (∀ x ∈ s.tasks, x.formed.isSome = true → x.team.isSome = true) ∧ (∃ h ∈ s.grids, h.uid = 1) ∧
      fits 1 (s.gr 1) 2 s = true ∧ bankFor 1 0 0xFFF s = some 0 ∧ 5 + 1024 ≤ s.gtick) := by
  refine ⟨?_, by decide +kernel, by decide +kernel, by decide +kernel, numbered_of (by decide +kernel), by decide +kernel⟩
  simp only [List.forall_mem_cons, List.not_mem_nil, false_imp_iff, implies_true, and_true]
  constructor <;> exact ⟨numbered_of (by decide +kernel), by decide +kernel, by decide +kernel, by decide +kernel, hits_of (by decide +kernel), hits_of (by decide +kernel), by decide +kernel⟩
/-- Retirement: a team whose exit release is at its target, with no task and with one that adds to a counter; a grid at its end, its record not yet written, written, killed, and with a world. -/
def leaving (l : List Task) : State :=
  let s := tmm (fun t => { t with exitRel := some ⟨3, true, 9, 0⟩, flagWord := 5, teamstat := 0x207 }) (tasking l)
  { s with threads := s.threads.map (fun (t : Thread) => { t with phase := .exited }) }
def retireRec : List Byte := launchRec.take 64 ++ flat [(0x200110, 8), (5, 8), (0x200400, 8)] ++ launchRec.drop 88
def ending (f : Grid → Grid) : State := { gridOf (fun g => f { g with next := 2, record := retireRec, queue := some 7 }) (wr 0x400110 [7] (dieTlb two)) with teams := [], threads := [] }
theorem witness_retirement :
    (∀ l ∈ [[], [{ taskOf 40 7 0 (2 ^ 31 + 3) (some 5) with formed := some 7, team := some 2 }]], let s := leaving l
      s.Numbered ∧ (s.grids.map Grid.uid).Nodup ∧ s.waits = false ∧ (∃ tm ∈ s.teams, tm.uid = 2 ∧ tm.exitRel = some ⟨3, true, 9, 0⟩ ∧ tm.saved = none) ∧ 9 ≤ s.gtick ∧ (∀ v ∈ s.threads, v.lost = []) ∧ s.copies = [] ∧ s.reqs = [] ∧ s.faults = [] ∧ s.Counts 0 0 0xFFF 0x200110 0x400110) ∧
    (∀ f ∈ [none, some 9], let s := ending (fun g => { g with closing := f }); s.Numbered ∧ s.waits = false ∧ (∃ g ∈ s.grids, g.uid = 1 ∧ g.done = false ∧ g.closing = f ∧ g.world = none ∧ g.flushTick = none ∧ g.det = false ∧ g.lost = [] ∧ g.field 80 8 = 0x200400 ∧ g.field 64 8 = 0x200110) ∧ (∀ h ∈ s.grids, h.parent ≠ 1) ∧ s.AllOver 1 ∧
      s.Counts baseDie 0 0xFFF 0x200110 0x400110 ∧ s.Open baseDie 0 0xFFF 0x200400 64 [0x400400]) ∧
    (let s := ending (fun g => { g with world := some 3 }); (∃ g ∈ s.grids, g.uid = 1 ∧ g.world = some 3 ∧ g.killed = false ∧ g.endKey = false) ∧ s.worlds = []) ∧
    (let s := ending (fun g => { g with killed := true, record := launchRec }); ∃ g ∈ s.grids, g.killed = true ∧ g.field 80 8 = 0 ∧ g.field 64 8 = 0) := by
  refine ⟨?_, ?_, by decide +kernel, by decide +kernel⟩ <;> simp only [List.forall_mem_cons, List.not_mem_nil, false_imp_iff, implies_true, and_true]
  · constructor <;> exact ⟨numbered_of (by decide +kernel), by decide +kernel, by decide +kernel, by decide +kernel, by decide +kernel, by decide +kernel, by decide +kernel, by decide +kernel, by decide +kernel,
      by decide, by decide +kernel, by decide +kernel, ⟨1, 0x4005BF, hits_of (by decide +kernel), by decide, by decide⟩, by decide +kernel, by unfold State.Takes; decide +kernel⟩
  · constructor <;> exact ⟨numbered_of (by decide +kernel), by decide +kernel, by decide +kernel, by decide +kernel, by unfold State.AllOver; decide +kernel,
      ⟨by decide, by decide +kernel, by decide +kernel, ⟨1, 0x4005BF, hits_of (by decide +kernel), by decide, by decide⟩, by decide +kernel, by unfold State.Takes; decide +kernel⟩, open_of (by decide +kernel) (by decide +kernel)⟩

/-! ### Hypotheses of the statements about switches, saves and restores -/

/-- A context with room for images, its time slice 5 ticks. -/
def imageDesc (ctx : Nat) : List Byte := flat [(0x100000, 8), (ctx, 4), (0, 20), (0, 8), (0, 4), (5, 4), (0x1000000, 8), (0, 72)]
def imaged (s : State) : State := { s with waves := [], nextId := 100, contexts := [⟨0, 0xFFF, imageDesc 0xFFF, 2, 0, none, none⟩, ⟨0, 0x123, imageDesc 0x123, 2, 0, none, none⟩] }
def phases (p : Phase) (s : State) : State := thm (fun t => { t with phase := p }) s
/-- Switches: a READY thread in bank 1; the slice is over, bank 0's threads wait, or bank 1's grid comes first. -/
def rival (prio : Nat) (s : State) : State :=
  { (imaged s).setBank 0 1 { Bank.reset with ctx := some (0, 0x123) } with
    grids := s.grids ++ s.grids.map (fun (g : Grid) => { g with uid := 50, ctx := 0x123, record := launchRec.set 29 (BitVec.ofNat 8 (4 * prio)) })
    teams := s.teams ++ s.teams.map (fun (m : Team) => { m with uid := 51, grid := 50, bank := 1 })
    threads := s.threads ++ [{ thread 52 0 with team := 51, phase := .ready }] }
theorem witness_switches :
    (∀ s ∈ [rival 0 (phases .ready two), rival 0 (phases .barrier two), rival 1 (phases .ready two)], s.Numbered ∧ (s.core 0).switchUntil ≤ s.gtick ∧ (s.core 0).active = 0 ∧ (s.bank 0 0).ctx = some (0, 0xFFF) ∧
      ∃ t ∈ s.threads, ∃ m ∈ s.teams, m.uid = t.team ∧ m.core = 0 ∧ m.saved = none ∧ m.bank = 1 ∧ t.phase = .ready ∧ t.stopped = none ∧ ∀ h ∈ s.halted, h.1 ≠ (s.gr m.grid).fn) ∧
    (let s := rival 0 (phases .ready two); ∃ k, s.context? 0 0xFFF = some k ∧ (s.core 0).since + k.slice ≤ s.gtick) ∧
    (let s := rival 0 (phases .barrier two); ∀ t ∈ s.threads, ∀ m ∈ s.teams, m.uid = t.team → m.bank = 0 → t.phase = .barrier) ∧
    (let s := rival 1 (phases .ready two); 0 < (s.gr 50).priority ∧ ∀ g ∈ s.grids, g.ctx = 0xFFF → g.priority < (s.gr 50).priority) := by
  refine ⟨?_, by decide +kernel, by decide +kernel, by decide +kernel⟩
  simp only [List.forall_mem_cons, List.not_mem_nil, false_imp_iff, implies_true, and_true]
  exact ⟨⟨numbered_of (by decide +kernel), by decide +kernel⟩, ⟨numbered_of (by decide +kernel), by decide +kernel⟩, numbered_of (by decide +kernel), by decide +kernel⟩
theorem free_of {s : State} (h : s.threads.all (fun t => t.image.isEmpty) = true) (a : Nat) : ¬ s.inImage a := fun ⟨t, ht, hi, _⟩ => hi (by simpa using List.all_eq_true.mp h t ht)
/-- Saves: a bank that DBGCMD asks for, without and with an interrupted binner request; a waiting team in the place of a larger one. -/
def interrupted : BinReq := ⟨60, 0, 2, [], 0, 0, false, false, 0, none, none, 0, List.replicate 2048 3, 0⟩
def saving (bins : List BinReq) : State := { (imaged (phases .ready two)).setReg 0 false 0x680 0xC0FFF000 with bins := bins }
def larger : Grid := { (two.grids.headD Grid.blank) with uid := 50, record := (launchRec.set 20 0).set 21 4 }
def yielding : State := owned (imaged (thm (fun t => { t with phase := if t.uid = 3 then .parked .ctrWait else .barrier, wait := { t.wait with addr := 0x200110 } }) { two with grids := two.grids.map (fun (g : Grid) => { g with record := launchRec, next := 2 }) ++ [larger] }))
def savedOf (s : State) : List Thread := (sortBy Team.grid (sortBy Team.id (s.teams.filter (fun m => m.uid == 2)))).flatMap (fun m => sortBy Thread.tid (s.threads.filter (fun t => t.team == m.uid)))
theorem witness_saves :
    (∀ s ∈ [saving [], saving [interrupted], yielding], s.Numbered ∧ s.Canonical ∧ s.context? 0 0xFFF = some ⟨0, 0xFFF, imageDesc 0xFFF, 2, 0, none, none⟩ ∧ freeSaveSlot ⟨0, 0xFFF, imageDesc 0xFFF, 2, 0, none, none⟩ s = some 0 ∧
      slotBase ⟨0, 0xFFF, imageDesc 0xFFF, 2, 0, none, none⟩ 0 = 0x1010000 ∧ pastDeadline (clusterOf 0) s = false ∧ saveWaits 0 0 0xFFF [2] s = false ∧ liveSpace 0 0xFFF (clusterOf 0) s = none ∧ s.mem.l1 = [] ∧ s.physOk 0 0x1010000 16 = true ∧
      (∀ k < 2, s.physOk 0 (0x1010100 + 640 * k) 640 = true) ∧ (savedOf s).length = 2 ∧ (∀ a n, s.Plain a n) ∧ (∀ a, ¬ s.inImage a)) ∧
    (∀ s ∈ [saving [], saving [interrupted]], s.teams.filter (fun (m : Team) => m.core == 0 && m.saved.isNone && m.bank == 0) = [s.tm 2] ∧ (s.bank 0 0).ctx = some (0, 0xFFF) ∧ saveAsked 0 0 0 0xFFF s = true ∧ s.coll = []) ∧
    (interrupted.record.length = 2048 ∧ (saving [interrupted]).physOk 0 (0x1010000 + 0x600000 - 0x800) 2048 = true) ∧
    ((∃ m ∈ yielding.teams, m.uid = 2 ∧ m.core = 0 ∧ m.saved = none) ∧ teamIdle 2 yielding = true ∧ .next larger ∈ waiters yielding ∧ (yielding.gr (yielding.tm 2).grid).priority ≤ larger.priority ∧ (Waiter.next larger).fits 0 yielding = false ∧
      (Waiter.next larger).fits 0 { yielding with teams := yielding.teams.filter (fun (k : Team) => k.uid != 2) } = true ∧ yielding.Hits 0 0 0xFFF .read 0x200110 0x400110 1 0x4005BF) := by
  refine ⟨?_, by decide +kernel, by decide +kernel, by decide +kernel, by decide +kernel, by decide +kernel, by decide +kernel, by decide +kernel, by decide +kernel, hits_of (by decide +kernel)⟩
  simp only [List.forall_mem_cons, List.not_mem_nil, false_imp_iff, implies_true, and_true]
  refine ⟨?_, ?_, ?_⟩ <;> exact ⟨numbered_of (by decide +kernel), by unfold State.Canonical; decide +kernel, by decide +kernel, by decide +kernel, by decide, by decide +kernel, by decide +kernel, by decide +kernel, by decide +kernel, by decide +kernel, by decide +kernel, by decide +kernel,
    fun a n => plain_of (by decide +kernel), free_of (by decide +kernel)⟩
/-- Restores: a saved bank whose records stand as written, one in which a stopped thread's register was changed, one in which a waiting thread's was. -/
def zeros640 : List Byte := List.replicate 640 0
def saved (stop : Bool) (b : List Byte) : State := owned (wr 0x1010100 b (imaged (tmm (fun m => { m with saved := some 0 }) (thm (fun t => { t with phase := .barrier, stopped := if stop then some .dbgstop else none, image := zeros640, imageAt := 0x1010100 + 640 * t.tid })
  { (two.setBank 0 0 Bank.reset) with slots := [⟨0, 0xFFF, 0, false, [2], none, [], [], 5⟩] }))))
def changed : List Byte := zeros640.set 8 5
theorem witness_restores :
    (∀ s ∈ [saved false [], saved true changed, saved false changed], s.Numbered ∧ (s.grids.map Grid.uid).Nodup ∧ s.slots = [⟨0, 0xFFF, 0, false, [2], none, [], [], 5⟩] ∧ (∃ m ∈ s.teams, m.uid = 2) ∧ (s.tm 2).saved.isSome = true ∧
      preceded ((Waiter.slot ⟨0, 0xFFF, 0, false, [2], none, [], [], 5⟩).grid s) s = false ∧ inPartition 0 (clusterOf 1) s = true ∧ bankFor 1 0 0xFFF s = some 0 ∧ (s.bank 1 0).ctx = none ∧ fitTogether 1 (some 0) [2] s = true ∧
      spacePermits ⟨0, 0xFFF, 0, false, [2], none, [], [], 5⟩ 1 s = true ∧ detPermits ⟨0, 0xFFF, 0, false, [2], none, [], [], 5⟩ 1 s = true ∧ s.mem.l1 = [] ∧ s.context? 0 0xFFF = some ⟨0, 0xFFF, imageDesc 0xFFF, 2, 0, none, none⟩ ∧
      s.physOk 0 0x1010000 4 = true ∧ s.Plain 0x1010000 4) ∧
    (∀ s ∈ [saved false [], saved true changed], ∀ t ∈ s.threads, recordDiffOk t t.image (s.mem.bytes.readN t.imageAt 640) = true ∧ fieldOf (s.mem.bytes.readN t.imageAt 640) 512 8 % 4 = 0) ∧
    (∃ t ∈ (saved false changed).threads, recordDiffOk t t.image ((saved false changed).mem.bytes.readN t.imageAt 640) = false) := by
  refine ⟨?_, by decide +kernel, by decide +kernel⟩
  simp only [List.forall_mem_cons, List.not_mem_nil, false_imp_iff, implies_true, and_true]
  refine ⟨?_, ?_, ?_⟩ <;> exact ⟨numbered_of (by decide +kernel), by decide +kernel, by decide +kernel, by decide +kernel, by decide +kernel, by decide +kernel, by decide +kernel, by decide +kernel, by decide +kernel, by decide +kernel, by decide +kernel, by decide +kernel, by decide +kernel, by decide +kernel, by decide +kernel, plain_of (by decide +kernel)⟩

/-! ### Hypotheses of the statements about kills, records, debugging and errors -/

/-- VFKILL with GO for function 0, without, and for no function. -/
theorem witness_vfkill : two.Numbered ∧ (two.grids.map Grid.uid).Nodup ∧ (two.faults.map FaultRec.id).Nodup ∧ (0x80000000 : Word).getLsbD 31 = true ∧ (0x80000000 : Word).toNat % 32 ≤ 16 ∧ (0 : Word).getLsbD 31 = false ∧ 16 < (0x80000011 : Word).toNat % 32 ∧ two.ctxLive 0 0xFFF = true :=
  ⟨numbered_of (by decide +kernel), by decide +kernel⟩
/-- RingWrites: signals that are due, a fault record and a service record that wait. -/
def ringDesc : List Byte := flat [(0x100000, 8), (0xFFF, 4), (0, 20), (0x400800, 8), (4, 4), (5, 4), (0x1000000, 8), (0, 72)]
def ringCtx (f v : Option Nat) : Context := ⟨0, 0xFFF, ringDesc, 2, 1, f, v⟩
def rec7 (w : Option Nat) : FaultRec := ⟨7, .alignment, {}, 0, 0xFFF, 1, 1, 2, 0, 0x1000, 0x1000, 1, [3], 5, 0, false, 9, 0, false, w, 0⟩
def svc8 (w : Option Nat) : SvcRec := ⟨8, 0, 0xFFF, 1, 0, 5, 0x1000, [(0, 3, 20, List.replicate 8 6)], w⟩
def ringing (f v : Option Nat) (l : List FaultRec) (k : List SvcRec) : State := { alter (fun t => { t with phase := if l.isEmpty then .parked .service else .faulted }) two with contexts := [ringCtx f v], faults := l, services := k }
theorem witness_ring_writes :
    (∀ s ∈ [ringing (some 9) none [] [], ringing none (some 9) [] [], ringing none none [rec7 none] [], ringing none none [] [svc8 none]], ∃ c, s.context? 0 0xFFF = some c ∧ (s.faults.map FaultRec.id).Nodup ∧ (s.services.map SvcRec.id).Nodup ∧ c.imageArea = 0x1000000 ∧ c.sring = 0x400800) ∧
    ((regionOf 0x1000008).local = true ∧ (regionOf 0x400808).local = true ∧ 9 ≤ two.gtick ∧ two.Takes 0x1000008 8 ∧ two.Takes 0x400808 8) ∧
    (let s := ringing none none [rec7 none] []; s.faults.find? (fun r => r.fn == 0 && r.ctx == 0xFFF && r.written.isNone) = some (rec7 none) ∧ recordOpen (rec7 none) s = false ∧ s.Phys 0 0x1000004 4 [0, 0, 0, 0] ∧ s.physOk 0 0x1001080 128 = true ∧ s.physOk 0 0x1000000 4 = true ∧ ∀ a n, s.Plain a n) ∧
    (let s := ringing none none [] [svc8 none]; s.services.find? (fun r => r.fn == 0 && r.ctx == 0xFFF && r.written.isNone) = some (svc8 none) ∧ s.Phys 0 0x400800 8 [0, 0, 0, 0, 0, 0, 0, 0] ∧ s.physOk 0 0x400840 64 = true ∧ s.physOk 0 (0x400840 + 64) 32 = true ∧ s.physOk 0 0x400800 4 = true ∧ ∀ a n, s.Plain a n) :=
  ⟨by decide +kernel, ⟨by decide, by decide, by decide +kernel, by unfold State.Takes; decide +kernel, by unfold State.Takes; decide +kernel⟩,
    ⟨by decide +kernel, by decide +kernel, phys_of (by decide +kernel), by decide +kernel, by decide +kernel, fun a n => plain_of (by decide +kernel)⟩, by decide +kernel, phys_of (by decide +kernel), by decide +kernel, by decide +kernel, by decide +kernel, fun a n => plain_of (by decide +kernel)⟩
/-- FaultService: the register names no record, one that is not open, a fault record, one of two that name the thread, a service record that software has answered. -/
def naming (pa : Nat) (s : State) : State := wr 0x400840 (leBytes 0 20 ++ leBytes 1 4 ++ leBytes 0 40 ++ leBytes 77 32) (s.setReg 0 false 0x500 (BitVec.ofNat 64 pa))
def fsvcs : List State := [naming 0 (ringing none none [] []), naming 0x1001000 (ringing none none [] []), naming 0x1001000 (ringing none none [rec7 (some 0)] []),
  naming 0x1001000 (ringing none none [rec7 (some 0), { rec7 none with id := 9 }] []), naming 0x400840 (ringing none none [] [svc8 (some 0)])]
theorem witness_fault_service :
    (∀ s ∈ fsvcs, s.Numbered ∧ s.Canonical ∧ (s.grids.map Grid.uid).Nodup ∧ (s.faults.map FaultRec.id).Nodup ∧ s.contexts = [ringCtx none none] ∧ ∀ a n, s.Plain a n) ∧
    (∀ n, recordPa (ringCtx none none) n ≠ 0 ∧ servicePa (ringCtx none none) n ≠ 0) ∧ recordPa (ringCtx none none) 0 = 0x1001000 ∧ fsvcs.map (fun s => recordAt 0 (bitsOf (s.reg 0 false 0x500).toNat 51 6 * 64) s) = [.nothing, .notOpen, .faultRec (rec7 (some 0)), .faultRec (rec7 (some 0)), .svcRec (svc8 (some 0)) 0x400840] ∧
    (∀ s ∈ [fsvcs[2], fsvcs[3]], (∀ k < 3, accepts (rec7 (some 0)) k s = true) ∧ accepts (rec7 (some 0)) 3 s = false ∧ bindRecord (rec7 (some 0)) = false ∧ s.physOk 0 (0x1001000 + 72) 4 = true ∧ (s.thr 3).phase = .faulted ∧ (s.thr 3).image = [] ∧ skipTo (rec7 (some 0)) 3 s = some 0x1004) ∧
    (∃ q ∈ fsvcs[3].faults, q.id ≠ 7 ∧ q.state = 0 ∧ 3 ∈ q.threads ∧ q.cause ≠ .brk ∧ q.cause ≠ .step) ∧
    (let s := fsvcs[4]; fieldOf (s.mem.bytes.readN 0x400840 1088) 20 4 = 1 ∧ (s.thr 3).phase = .parked .service ∧ ∃ t ∈ s.threads, t.uid = 3) := by
  refine ⟨?_, fun n => ?_, by decide +kernel, by decide +kernel, by decide +kernel, by decide +kernel, by decide +kernel⟩
  · unfold fsvcs
    simp only [List.forall_mem_cons, List.not_mem_nil, false_imp_iff, implies_true, and_true]
    refine ⟨?_, ?_, ?_, ?_, ?_⟩ <;> exact ⟨numbered_of (by decide +kernel), by unfold State.Canonical; decide +kernel, by decide +kernel, by decide +kernel, by decide +kernel, fun a n => plain_of (by decide +kernel)⟩
  · have h1 : (ringCtx none none).imageArea = 0x1000000 := by decide +kernel
    have h2 : (ringCtx none none).sring = 0x400800 := by decide +kernel
    simp only [recordPa, servicePa, h1, h2]; omega
/-- Debug: commands that match no thread and that match, a stopped thread at STEPPC, one at an armed breakpoint in a wave of two. -/
def stepping : State := ((alter (fun t => { t with phase := .ready, stopped := some .dbgstop }) two).setReg 0 false 0x684 0xFFFFFFFF).setReg 0 false 0x688 0x1000
def breaking : State := (({ (thm (fun t => { t with passBp := false }) two) with waves := [wave2] }).setReg 0 false 0x600 0x1001).setReg 0 false 0x608 0x80000FFF
theorem witness_debug :
    (∀ s ∈ [stepping, breaking], s.Numbered ∧ ∀ t ∈ s.threads, t.image = [] ∧ t.lane < 32 ∧ ∃ m ∈ s.teams, m.uid = t.team) ∧
    (bitsOf (0x123000 : Word).toNat 23 12 = 0x123 ∧ bitsOf (0xFFF000 : Word).toNat 23 12 = 0xFFF ∧ ∀ m ∈ stepping.teams, (stepping.gr m.grid).fn = 0 ∧ (stepping.gr m.grid).ctx = 0xFFF) ∧
    ((stepping.reg 0 false 0x684).toNat = 0xFFFFFFFF ∧ (∃ t ∈ stepping.threads, t.uid = 3 ∧ t.stopped.isSome = true ∧ t.phase = .ready ∧ t.pc = stepping.reg 0 false 0x688 ∧ (stepping.tm t.team).saved = none ∧ (stepping.core 0).switchUntil ≤ stepping.gtick ∧ (stepping.core 0).active = (stepping.tm t.team).bank) ∧
      (∀ t ∈ stepping.threads, t.uid ≠ 3 → t.stopped = none) ∧ stepping.halted = [] ∧ stepping.waves = []) ∧
    (atBreakpoint 3 breaking = some 0 ∧ breaking.waves.find? (fun w => w.members.contains 3) = some wave2 ∧ ∀ u ∈ wave2.members, (∃ t ∈ breaking.threads, t.uid = u) ∧ (breaking.thr u).pc = (breaking.thr 3).pc ∧ (atBreakpoint u breaking).isSome = true) := by
  refine ⟨?_, by decide +kernel, by decide +kernel, by decide +kernel⟩
  simp only [List.forall_mem_cons, List.not_mem_nil, false_imp_iff, implies_true, and_true]
  exact ⟨⟨numbered_of (by decide +kernel), by decide +kernel⟩, numbered_of (by decide +kernel), by decide +kernel⟩
/-- SoftErrors: a team past its watchdog; what an error strikes; writes, of a thread and of a grid, whose Tw lies ahead. -/
def watched : State := (tmm (fun m => { m with watch := 2000000 }) two).setReg 0 false 0x700 5
def late : State := { thm (fun t => if t.uid = 3 then { t with tail := [(0x400180 / 128, 50, 0x200180 / 128)] } else t) evicting with grids := evicting.grids.map (fun (g : Grid) => { g with tail := [(0x400180 / 128, 60)] }), spaces := [space9 (name9 1 (List.range 31) 0 [] 0)] }
theorem witness_soft_errors :
    watched.Numbered ∧ late.Numbered ∧ (∃ m ∈ watched.teams, (watched.reg (watched.gr m.grid).fn false 0x700).toNat = 5 ∧ max 5 1000000 ≤ m.watch ∧ watchCounts watched m = true) ∧
    (∃ t ∈ late.threads, t.uid = 3 ∧ 5 < t.owned) ∧ (∃ t ∈ (handles late).teams, t.uid = 2 ∧ 4 < t.scratchSize) ∧ (handles late).Numbered ∧ late.backedLocal 0x400180 = true ∧ late.l1? 0 0 0xFFF (0x1180 / 128) = some dirtyL1 ∧
    ((late.thr 3).tail.filter (fun w => decide (late.gtick < w.2.1))).head? = some (0x400180 / 128, 50, 0x200180 / 128) ∧ (∀ w ∈ (late.thr 1).tail, w.2.1 ≤ late.gtick) ∧ ((late.gr 1).tail.filter (fun w => decide (late.gtick < w.2))).head? = some (0x400180 / 128, 60) ∧
    (let s := living { compacting with maxTw := 50 }; ∃ x, s.world? 0 5 = some x ∧ x.running = true ∧ s.gtick < x.maxTw ∧ s.Numbered) ∧
    ((late.grids.map Grid.uid).Nodup ∧ (late.faults.map FaultRec.id).Nodup ∧ late.ctxLive 0 0xFFF = true) :=
  ⟨numbered_of (by decide +kernel), numbered_of (by decide +kernel), by decide +kernel, by decide +kernel, by decide +kernel, numbered_of (by decide +kernel), by decide +kernel, by decide +kernel, by decide +kernel, by decide +kernel, by decide +kernel,
    ⟨_, rfl, rfl, by decide +kernel, numbered_of (by decide +kernel)⟩, by decide +kernel⟩

/-! ### Hypotheses of the statements about address changes, owners, links and devices -/

/-- Shootdowns: commands that are taken, refused and ignored, one under way. -/
theorem witness_shootdowns :
    (let s := two; (s.reg 0 false 0x408).getLsbD 31 = false ∧ (0x80FFF000 : Word).getLsbD 31 = true ∧ bitsOf (0x80FFF000 : Word).toNat 9 8 = 0 ∧ (s.reg 0 false 0x400).toNat % 0x1000 = 0 ∧ addressed 0 (0x80FFF000 : Word) ≤ 16 ∧ bitsOf (0x80FFF300 : Word).toNat 9 8 = 3 ∧ s.coll = []) ∧
    ((two.setReg 0 false 0x408 0x80000000).reg 0 false 0x408).getLsbD 31 = true ∧
    (let s := { two with shoots := [⟨some 0, 0, 0xFFF, 0, 0, 0x1000, 4⟩] }; s.shoots.find? (fun x => x.page == some 0) = some ⟨some 0, 0, 0xFFF, 0, 0, 0x1000, 4⟩ ∧ s.reqs = []) ∧ two.allReqs = [] := by decide +kernel
/-- Migrations: the page of 2 MiB at 0x200000, with destinations that take it and that do not, in functions that own it and that do not. -/
def migCmd (f ctx code : Nat) : Word := BitVec.ofNat 32 (2 ^ 31 + f * 2 ^ 24 + ctx * 2 ^ 12 + code * 2 ^ 10)
def migr (va dst : Nat) (s : State) : State := (s.setReg 0 false 0x440 (BitVec.ofNat 64 va)).setReg 0 false 0x448 (BitVec.ofNat 64 dst)
/-- Function 1 with the same tables; its owner bytes give it the pages but not the destination. -/
def tenant (s : State) : State := (wr 0x10000000 [1, 1, 1, 0, 0] { s with contexts := s.contexts ++ s.contexts.map (fun c => { c with fn := 1 }) }).setReg 0 true 0x1E00 0x10000000
def heldOf (s : State) (v : Word) : State := s.setReg 0 false 0x450 (BitVec.ofNat 64 (Nat.land v.toNat 0x1FFFFC00))
def mapped : State := wr 0x103008 (leBytes 0x4005BF 8) two
def locking : State := { mapped with mem := { mapped.mem with migrating := [⟨0, 0, 0xFFF, 0x200000, 0x200000, 0x800000, 0x400000, 3⟩] } }
theorem witness_migrations :
    (∀ s ∈ [migr 0x200000 0x800000 mapped, migr 0x200001 0x800000 mapped, migr 0x400000 0x800000 mapped, migr 0x200000 0x8000000000000 mapped, migr 0x200000 0x800000 (tenant mapped)], (s.reg 0 false 0x450).getLsbD 31 = false) ∧
    (addressed 0 (migCmd 0 0xFFF 2) = 0 ∧ addressed 0 (migCmd 1 0xFFF 2) = 1 ∧ (migCmd 1 0xFFF 2).getLsbD 31 = true ∧ bitsOf (migCmd 1 0xFFF 2).toNat 30 29 = 0 ∧ bitsOf (migCmd 1 0xFFF 2).toNat 9 0 = 0 ∧ bitsOf (migCmd 1 0xFFF 2).toNat 23 12 = 0xFFF ∧ bitsOf (migCmd 1 0xFFF 2).toNat 11 10 = 2 ∧
      0x200001 % 0x200000 ≠ 0 ∧ mapped.context? 0 0x123 = none ∧ canonical 0x200000 = true ∧ (mapped.context? 0 0xFFF).isSome = true) ∧
    ((walk 0 0xFFF 0x200000 (heldOf (migr 0x200000 0x800000 mapped) (migCmd 0 0xFFF 2))).2 = .leaf 0x4005BF 0x200000 0x103008 ∧ (walk 0 0xFFF 0x600000 (heldOf (migr 0x600000 0x800000 mapped) (migCmd 0 0xFFF 2))).2 = .bad .pageNotPresent 0 ∧
      (walk 1 0xFFF 0x200000 (heldOf (migr 0x200000 0x800000 (tenant mapped)) (migCmd 1 0xFFF 2))).2 = .leaf 0x4005BF 0x200000 0x103008) ∧
    (entryAddr (mapped.entry 0x103008) = 0x400000 ∧ mapped.backedLocal 0x400000 = true ∧ mapped.backedLocal 0x800000 = true ∧ mapped.backedLocal 0x8000000000000 = false ∧ regionOf 0x800000 = .hbm ∧ mapped.ownsRange 0 0x800000 0x200000 = true ∧
      (heldOf (migr 0x200000 0x800000 (tenant mapped)) (migCmd 1 0xFFF 2)).ownsRange 1 0x800000 0x200000 = false) ∧
    (locking.Canonical ∧ locking.mem.migrating.find? (fun m => m.page == 0) = some ⟨0, 0, 0xFFF, 0x200000, 0x200000, 0x800000, 0x400000, 3⟩ ∧ readsLeft ⟨0, 0, 0xFFF, 0x200000, 0x200000, 0x800000, 0x400000, 3⟩ locking = false ∧ locking.coll = [] ∧
      (walk 0 0xFFF 0x200000 locking).2 = .leaf 0x4005BF 0x200000 0x103008 ∧ locking.mem.poison = [] ∧ ∀ a n, locking.Plain a n) :=
  ⟨by decide +kernel, by decide +kernel, by decide +kernel, by decide +kernel, by unfold State.Canonical; decide +kernel, by decide +kernel, by decide +kernel, by decide +kernel, by decide +kernel, by decide +kernel, fun a n => plain_of (by decide +kernel)⟩
/-- Owners: GRANTCMD idle and under way, commands in range and past the table; L2SCRUB idle and under way; a slice and way with a fill history. -/
theorem witness_owners :
    ((two.reg 0 true 0x1E08).getLsbD 63 = false ∧ (two.reg 0 true 0x1E00).toNat = 0 ∧ ((tenant two).reg 0 true 0x1E00).toNat ≠ 0 ∧ ¬ 984064 ≤ bitsOf (0x8002_00001_00007 : Dword).toNat 19 0 + bitsOf (0x8002_00001_00007 : Dword).toNat 39 20 ∧ (tenant two).topo.2.1 = 0 ∧
      ¬ 0x10000000 / 0x200000 ≤ 8) ∧
    (let s := two.setReg 0 true 0x1E08 0x8000_0200_0010_0007; (s.reg 0 true 0x1E08).getLsbD 63 = true ∧ (s.reg 0 true 0x1E08).toNat.testBit 63 = true ∧ ∀ a n, s.Plain a n) ∧
    ((two.reg 0 true 0x1110).getLsbD 31 = false ∧ (let s := two.setReg 0 true 0x1110 0x83000005; (s.reg 0 true 0x1110).getLsbD 31 = true ∧ (s.reg 0 true 0x1110).toNat.testBit 31 = true)) ∧
    (let s := { two with mem := { two.mem with history := [(16 * 5 + 3, 0, 1)] } }; s.Numbered ∧ (∀ r ∈ s.faults, r.id < s.nextId) ∧ (s.grids.map Grid.uid).Nodup ∧ s.ctxLive 0 0xFFF = true) :=
  ⟨by decide +kernel, ⟨by decide +kernel, by decide +kernel, fun a n => plain_of (by decide +kernel)⟩, by decide +kernel, numbered_of (by decide +kernel), by decide +kernel⟩
/-- Devices: a buffer for the report, an image that an older counter refuses, an encoder that is free, owned, busy, its owner descheduled, its job malformed, written, or good. A signature that verifies, and the length of a bitstream, are what Config leaves open: whatever they are, one clause or the other applies. -/
def job (fmt : Nat) : List Byte := flat [(fmt, 1), (0, 3), (8, 2), (8, 2), (0x200000, 8), (0x201000, 8), (4096, 4), (0, 4), (0x200110, 8), (0x202000, 8), (0, 16)]
def encoding (fmt : Nat) (post : Option Nat) : State := (((dieTlb (wr 0x400500 (job fmt) two)).setReg 0 true 0x1900 0x80000FFF).setReg 0 false 0xB00 0x400500 |>.setReg 0 false 0xB08 1).setEncoder ⟨0, 0, false, 4, post⟩
def lines64 (pa : Nat) (n : Nat) : List Nat := (List.range n).map (fun k => pa + 128 * k)
theorem witness_devices :
    (two.watched = two.watched ∧ ({ two with watched := 10 } : State).watched = two.gtick) ∧ (lowestContext 1 two = none ∧ (0x200001 : Dword).toNat % 64 ≠ 0 ∧ lowestContext 0 (dieTlb two) = some 0xFFF) ∧
    ((dieTlb two).Reads baseDie 0 0xFFF 0x200000 64 (List.replicate 64 0) ∧ (dieTlb two).Open baseDie 0 0xFFF 0x200000 4928 (lines64 0x400000 39)) ∧ ¬ ({ two with firmware := ([], 1) } : State).firmware.2 ≤ 0 ∧
    ((encoding 0 none).encoder 0).head = 0 ∧ ((encoding 0 none).reg 0 true 0x1900).toNat = 0x80000FFF ∧ ((encoding 0 none).reg 0 false 0xB08).toNat = 1 ∧ (two.reg 0 true 0x1900).toNat = 0 ∧
    (∃ h ∈ ({ encoding 0 none with halted := [(0, 5)] } : State).halted, h.1 = 0) ∧ ((encoding 0 none).encoder 0).paused = false ∧ (encoding 0 none).halted = [] ∧
    ((encoding 0 none).setReg 0 false 0xB00 0x8000000000000).physOk 0 0x8000000000000 64 = false ∧
    (∀ s ∈ [encoding 2 none, encoding 0 none], s.Phys 0 0x400500 64 (if s = encoding 2 none then job 2 else job 0) ∧ (s.encoder 0).post = none ∧ s.Open baseDie 0 0xFFF 0x202000 8 [0x402000]) ∧
    (let s := encoding 0 (some 9); (s.encoder 0).post = some 9 ∧ 9 ≤ s.gtick ∧ s.Phys 0 0x400500 64 (job 0) ∧ s.Counts baseDie 0 0xFFF 0x200110 0x400110) ∧
    (jobBad (job 2) = true ∧ jobBad (job 0) = false ∧ (encoding 0 none).Reads baseDie 0 0xFFF 0x200000 192 (List.replicate 192 0) ∧ (encoding 0 none).Open baseDie 0 0xFFF 0x201000 64 [0x401000] ∧ (encoding 0 none).physOk 0 0x400530 8 = true) := by
  refine ⟨by decide +kernel, by decide +kernel, ⟨reads_of [0x400000] (by decide +kernel) (by decide +kernel), open_of (by decide +kernel) (by decide +kernel)⟩, by decide +kernel, by decide +kernel, by decide +kernel, by decide +kernel, by decide +kernel, by decide +kernel, by decide +kernel, by decide +kernel, by decide +kernel, ?_,
    ⟨by decide +kernel, by decide +kernel, phys_of (by decide +kernel), ⟨by decide, by decide +kernel, by decide +kernel, ⟨1, 0x4005BF, hits_of (by decide +kernel), by decide, by decide⟩, by decide +kernel, by unfold State.Takes; decide +kernel⟩⟩,
    by decide +kernel, by decide +kernel, reads_of [0x400000, 0x400080] (by decide +kernel) (by decide +kernel), open_of (by decide +kernel) (by decide +kernel), by decide +kernel⟩
  simp only [List.forall_mem_cons, List.not_mem_nil, false_imp_iff, implies_true, and_true]
  refine ⟨⟨phys_of (by decide +kernel), by decide +kernel, open_of (by decide +kernel) (by decide +kernel)⟩, phys_of (by decide +kernel), by decide +kernel, open_of (by decide +kernel) (by decide +kernel)⟩
/-- Uttenlink: accesses whose granules carry the tag, of each payload, and one of memory that is absent; requests that a lost flit ends. -/
def peerElem : Elem := ⟨.glob 0x600000 0x7080000000000 2, 4, 20, .i32, none⟩
def peerReqs : List Req := [req .st (.store 3 [⟨.glob 0x600000 0x7080000000000 2, [1, 2], none⟩]), req .ld (.atomic 3 0x600000 0x7080000000000 2 ⟨0, 2, .i32, 0, 5, 0⟩ (some 20)), req .ld (.load 3 [peerElem]), req .ld (.loadTeam [peerElem] false [3]), req .ld (.hbind 5 0x600000 0x7080000000000 2 false [3])]
theorem witness_uttenlink :
    (two.backedLocal 0x400100 = true ∧ two.backedLocal 0x400107 = true ∧ regionOf 0x400107 = regionOf 0x400100 ∧ two.ownerOf (granuleOf 0x400000) = 0 ∧ two.reg 0 true 0x1A00 = 0 ∧ two.backedLocal 0x8000000000000 = false ∧ two.migratesFrom 0x400100 8 = false ∧ two.Takes 0x400100 8 ∧ (∀ a n, two.Plain a n) ∧
      lookupD 0 two.mem.streams 7 ≤ two.gtick) ∧
    (∀ r ∈ peerReqs, (pend r two).Pending r ∧ (pend r two).Numbered ∧ r.work.places ≠ [] ∧ (∀ p ∈ r.work.places, p.onPeer = true) ∧ r.heldBack (pend r two) = false ∧ r.threads = [3] ∧ (∃ x ∈ (pend r two).threads, x.uid = 3) ∧ ((pend r two).thr 3).team = r.team ∧ ((pend r two).thr 3).pc = r.pc ∧ (pend r two).faults = [] ∧ ∃ x ∈ (pend r two).teams, x.uid = r.team) ∧
    (let r := sendReq [routeTo 1, 0] 1 row16; (sendState r).Pending r ∧ (sendState r).Numbered ∧ r.fault = none) := by
  refine ⟨⟨by decide +kernel, by decide +kernel, by decide +kernel, by decide +kernel, by decide +kernel, by decide +kernel, by decide +kernel, by unfold State.Takes; decide +kernel, fun a n => plain_of (by decide +kernel), by decide +kernel⟩, ?_,
    pending_of (by decide +kernel), numbered_of (by decide +kernel), by decide⟩
  simp only [peerReqs, List.forall_mem_cons, List.not_mem_nil, false_imp_iff, implies_true, and_true]
  refine ⟨?_, ?_, ?_, ?_, ?_⟩ <;> exact ⟨pending_of (by decide +kernel), numbered_of (by decide +kernel), by decide +kernel⟩

/-! ### Hypotheses of the statements about clusters, shares, decks, worlds and checkpoints -/

theorem no_context {s : State} {c lo hi : Nat} (hc : ∀ core, clusterOf core = c → lo ≤ core ∧ core < hi) (h : ∀ core < hi, lo ≤ core → ∀ b < 2, (s.bank core b).ctx = none) :
    ¬ ∃ core b k, clusterOf core = c ∧ b < 2 ∧ (s.bank core b).ctx = some k ∧ True := by
  rintro ⟨core, b, k, h1, h2, h3, _⟩
  rw [h core (hc core h1).2 (hc core h1).1 b h2] at h3
  exact absurd h3 (by simp)
/-- Clusters: commands on a cluster at home, on one of the margin, on a lent one; one under revocation, empty or with a context past its deadline; a lent one whose owner waits. -/
def clustered (l : List Cluster) : State := { owned (gridOf id two) with clusters := l }
def pcmd (op f c : Nat) : Word := BitVec.ofNat 32 (2 ^ 31 + op * 2 ^ 28 + 7 * 2 ^ 25 + f * 2 ^ 20 + c)
theorem witness_clusters :
    (∀ op < 3, (pcmd op 1 5).getLsbD 31 = true ∧ bitsOf (pcmd op 1 5).toNat 29 28 = op ∧ bitsOf (Nat.land (pcmd op 1 5).toNat 0x3FF0007F) 24 20 = 1 ∧ bitsOf (Nat.land (pcmd op 1 5).toNat 0x3FF0007F) 6 0 = 5) ∧
    (∀ k < 3, let s := clustered [⟨5, true, 0, 1, k, false, true, 5, 0, 0, 8⟩]; (s.reg 0 true 0x1500).getLsbD 31 = false ∧ (s.cluster 5).v = true ∧ (s.cluster 5).margin = true ∧ (s.cluster 5).cstate = k ∧ (s.cluster 5).owner = 0 ∧ s.spaces = [] ∧ nth true s.decks (5 / 16) = true ∧
      ¬ ∃ core b k, clusterOf core = 5 ∧ b < 2 ∧ (s.bank core b).ctx = some k ∧ True) ∧
    (two.setReg 0 true 0x1500 0x80000000).reg 0 true 0x1500 = 0x80000000 ∧
    (let s := { nowhere with clusters := [⟨0, true, 0, 1, 1, true, true, 0, 0, 0, 8⟩] }; (s.cluster 0).auto = true ∧ (s.cluster 0).cstate = 1 ∧ ownerWaits 0 s = true) ∧
    (let s := clustered [⟨0, true, 0, 1, 2, true, true, 5, 0, 0, 8⟩]; (s.cluster 0).cstate = 2 ∧ s.Numbered ∧ (s.grids.map Grid.uid).Nodup ∧ (s.faults.map FaultRec.id).Nodup ∧ pastDeadline 0 s = true ∧ clusterOf 0 = 0 ∧ (s.bank 0 0).ctx = some (0, 0xFFF)) :=
  ⟨by decide, fun k hk => ⟨by decide +kernel +revert, by decide +kernel +revert, by decide +kernel +revert, by decide +kernel +revert, by decide +kernel +revert, by decide +kernel +revert, by decide +kernel +revert,
      no_context (lo := 20) (hi := 24) (fun core h => by simp only [clusterOf] at h; omega) (by clear hk; revert k; exact fun k => (by decide +kernel : ∀ core < 24, 20 ≤ core → ∀ b < 2, (two.bank core b).ctx = none))⟩,
    by decide +kernel, by decide +kernel, by decide +kernel, numbered_of (by decide +kernel), by decide +kernel⟩
/-- Shares: floors below and above the sum; a window that is over; functions that run, are descheduled, do not exist; clocks with and without a sag. -/
theorem witness_shares :
    ((((List.range 17).filter (· ≠ 1)).map (fun g => bitsOf (two.reg 0 true (0x1600 + 8 * g)).toNat 15 0)).sum = 0 ∧ ({ two with gtick := 10001 } : State).window + 10000 ≤ 10001) ∧
    ((0x80000100 : Word).getLsbD 8 = true ∧ bitsOf (Nat.land (0x80000111 : Word).toNat 0x11F) 4 0 = 17 ∧ (0x80000000 : Word).getLsbD 8 = false ∧ two.halted = [] ∧ (∃ h ∈ ({ two with halted := [(0, 5)] } : State).halted, h.1 = 0)) ∧
    (((two.setClock { two.clockOf 1 with sag := true }).clockOf 1).sag = true ∧ (two.clockOf 1).sag = false ∧ 25 * ((owned two).clockOf 1).steps + 25 < 1350 ∧ (owned two).decks.countP id = 8) := by decide +kernel
/-- Decks: commands refused for each reason, one without effect, one that starts; each step of a change of either role. -/
def changing (step : Nat) (compute : Bool) (s : State) : State := { owned s with topo := (0, step, 1), decks := (owned s).decks.set 1 compute }
theorem witness_decks :
    ((owned two).topo.2.1 = 0 ∧ ((owned two).decks.set 1 false).countP id ≠ 0 ∧ ((owned two).cluster 0).v = true ∧ (∀ c < 128, c / 16 = 1 → ((owned two).cluster c).v = false) ∧ ([true].set 0 false).countP id = 0) ∧
    (let s := changing 1 true two; s.topo.2.1 = 1 ∧ nth true s.decks 1 = true ∧ ∀ core < 128, 64 ≤ core → ∀ b < 2, (s.bank core b).ctx = none) ∧
    (let s := changing 1 false two; nth true s.decks 1 = false ∧ (s.reg 0 true 0x1818).toNat = 0) ∧
    (let s := ((changing 1 false (dieTlb two)).setReg 0 true 0x1818 1).setReg 0 true 0x1810 0x200000; lowestContext 0 s = some 0xFFF ∧ (migrateList 0xFFF 0x200000 1 s).isSome = true) ∧
    (let s := changing 2 false two; s.ownerOf (196608 + 128) ≠ 0xFF) ∧
    (∀ compute, (changing 3 compute two).Canonical) :=
  ⟨by decide +kernel, by decide +kernel, by decide +kernel, by decide +kernel, by decide +kernel, fun _ => (by unfold State.Canonical; decide +kernel : two.Canonical)⟩
theorem settled_pages {s : State} (h : s.mem.migrating = []) (fn ctx va : Nat) : s.isMigrating fn ctx va = false := by simp [State.isMigrating, h]
/-- Keystones: one that is asked for, one that stopped, one at its end before, between and at its publish tick, with threads parked for it. -/
def keyed (y : World) : State := let s := living y; { thm (fun t => { t with phase := .parked .keys, npc := 0x1004, keysTick := 5, wait := { t.wait with mode := 1, thr := if y.next.isSome then 1 else 0 } }) s with waves := [] }
theorem witness_keystones :
    (∀ y ∈ [{ world5 with keyReq := [1] }, { compacting with stopped := true }, compacting, { compacting with pubAt := some 9 }, { compacting with pubAt := some 10 }], (keyed y).Numbered ∧ (keyed y).waits = false ∧ (keyed y).world? 0 5 = some y ∧ (∀ va, (keyed y).isMigrating 0 y.ctx va = false) ∧
      (keyed y).gtick = 10 ∧ y.gen? y.cur = some table1 ∧ y.todo = [] ∧ y.lost = false ∧ y.maxTw ≤ 12 ∧ ∃ v ∈ (keyed y).threads, ((keyed y).gr ((keyed y).tm v.team).grid).world = some 5 ∧ v.phase = .parked .keys) := by
  simp only [List.forall_mem_cons, List.not_mem_nil, false_imp_iff, implies_true, and_true]
  refine ⟨?_, ?_, ?_, ?_, ?_⟩ <;> exact ⟨numbered_of (by decide +kernel), by decide +kernel, by decide +kernel, fun va => settled_pages (by decide +kernel) _ _ va, by decide +kernel⟩
/-- WorldBindings: descriptors that are good, malformed and out of reach; worlds that are idle and that are not. -/
theorem witness_world_bindings :
    (two.world? 0 7 = none ∧ (living world5).world? 0 5 = some world5 ∧ (0x400001 : Dword).getLsbD 0 = true ∧ (0x400000 : Dword).getLsbD 0 = false ∧ two.physOk 0 0x8000000000000 256 = false ∧ bitsOf (0x400001 : Dword).toNat 63 52 = 0) ∧
    ((wr 0x400000 worldDesc two).Phys 0 0x400000 256 worldDesc ∧ worldBad worldDesc = false ∧ two.Phys 0 0x400000 256 (List.replicate 256 0) ∧ worldBad (List.replicate 256 0) = true) ∧
    (∀ g ∈ ({ two with worlds := [world5] } : State).grids, ¬ (g.fn = 0 ∧ g.world = some 5)) ∧ (∃ g ∈ (living world5).grids, g.fn = 0 ∧ g.world = some 5) :=
  ⟨by decide +kernel, ⟨phys_of (by decide +kernel), by decide +kernel, phys_of (by decide +kernel), by decide +kernel⟩, by decide +kernel, by decide +kernel⟩
/-- WorldReplies: queries with an answer and past the last, handles that resolve and that do not, rows of a live segment, edits with room in the queue and with none, views. -/
def ask (kind : Nat) (args : List Nat) : Req := req .ld (.world 3 kind args 20 5)
def replying (kind : Nat) (args : List Nat) (y : World) : State := { pend (ask kind args) (living y) with worlds := [y] }
def handle0 (n : Nat) : Nat := 5 * 2 ^ 56 + n
def fullQueue : World := { world5 with edits := List.replicate 16 ⟨1, 0, 1, 0, 0, 0, handle0 0, 0⟩ }
theorem witness_world_replies :
    (∀ x ∈ [(0, [0, 1, 0], world5), (0, [2, 1, 0], world5), (1, [handle0 0, 1], world5), (1, [handle0 7, 1], world5), (2, [2, 1], world5), (3, [1, handle0 0, 1], world5), (3, [1, handle0 0, 1], fullQueue), (4, [0], world5), (4, [0], viewed)],
      let s := replying x.1 x.2.1 x.2.2; s.Pending (ask x.1 x.2.1) ∧ s.Numbered ∧ (s.thr 3).team = 2 ∧ (∃ t ∈ s.threads, t.uid = 3) ∧ s.worldOf 3 = some x.2.2 ∧ s.waits = false ∧ s.mem.migrating = [] ∧ (s.thr 3).phase ≠ .exited ∧ s.faults = []) ∧
    (readGen world5 2 = some table1 ∧ queryRanges table1 (queryOf [1, 0]) = [(0, 0, 1), (0, 2, 1)] ∧ (resolve world5 table1 (handle0 0)).isSome = true ∧ resolve world5 table1 (handle0 7) = none ∧ world5.gen? world5.cur = some table1 ∧ (∀ e ∈ [resolve world5 table1 (handle0 0)], ∀ x ∈ e, (table1.shape x.shape).isSome = true) ∧
      (table1.segment 0).isSome = true ∧ world5.qcap ≤ fullQueue.edits.length ∧ world5.edits.length < world5.qcap ∧ world5.compacted = false ∧ viewed.viewTeams.any (fun v => v.1 == 2) = true ∧ world5.viewTeams = []) := by
  refine ⟨?_, by decide +kernel⟩
  simp only [List.forall_mem_cons, List.not_mem_nil, false_imp_iff, implies_true, and_true]
  refine ⟨?_, ?_, ?_, ?_, ?_, ?_, ?_, ?_, ?_⟩ <;> exact ⟨pending_of (by decide +kernel), numbered_of (by decide +kernel), by decide +kernel⟩
/-- Snapshots: one armed, one due with regions that are good, malformed, not mapped; a store held at a page of one; one to stream, and at each later stage. -/
def tensor (va rank : Nat) : List Byte := flat [(va, 8), (0, 1), (0, 1), (rank, 1), (0, 5), (9, 8), (0, 32), (4, 4), (0, 12), (4, 6), (0, 18)]
def snap (due cut : Option Nat) (stage : Nat) : Snap := ⟨0, 0, 0x200000, 0x203000, 0x1_0000_0007, due, cut, if cut.isSome then [⟨tensor 0x201000 1, [(0x201, 0x401)]⟩] else [], [], if cut.isSome then [0x401] else [], [], stage, 9⟩
def snapping (e : List Byte) (p : Snap) : State := { dieTlb (wr 0x400000 e two) with snaps := [p] }
def held : Req := req .st (.store 3 [⟨.glob 0x201000 0x401000 1, [1, 2, 3, 4], none⟩])
theorem witness_snapshots :
    (two.snaps = [] ∧ (snapping [] (snap none none 0)).snaps.find? (fun p => p.fn == 0) = some (snap none none 0) ∧ 1 < bitsOf (Nat.land (0x82000000 : Word).toNat 0x03FF0FFF) 25 24) ∧
    ((regionList 0 0xFFF regionFuel 0x200000 (snapping (tensor 0x201000 1) (snap (some 0xFFF) none 0))).2 = some [tensor 0x201000 1] ∧ (regionList 0 0xFFF regionFuel 0x200000 (snapping (tensor 0x201000 5) (snap (some 0xFFF) none 0))).2 = none ∧
      (cutRegions 0 0xFFF [tensor 0x201000 1] (snapping (tensor 0x201000 1) (snap (some 0xFFF) none 0))).2 = some [⟨tensor 0x201000 1, [(0x201, 0x401)]⟩] ∧
      (cutRegions 0 0xFFF [tensor 0x601000 1] (snapping (tensor 0x601000 1) (snap (some 0xFFF) none 0))).2 = none) ∧
    (let s := { pend held two with snaps := [snap (some 0xFFF) (some 8) 0] }; s.Pending held ∧ held.work.cowPages s = [0x401] ∧ held.heldBack s = false ∧ held.yields s = false ∧ held.work.waitsPage 0 0xFFF (keepPage 0x401 s) = false ∧ held.waitsRelease = false ∧ (∃ m ∈ s.teams, m.uid = 2) ∧ (regionOf 0x401000).local = true ∧ s.mem.poison = []) ∧
    (∀ stage < 3, let s := snapping [] (snap (some 0xFFF) (some 8) stage); s.snaps.find? (fun p => p.fn == 0) = some (snap (some 0xFFF) (some 8) stage) ∧ (snap (some 0xFFF) (some 8) stage).target ≤ s.gtick) ∧
    (let s := { snapping [] (snap (some 0xFFF) (some 8) 1) with snaps := [{ snap (some 0xFFF) (some 8) 1 with pages := [] }] }; s.Open baseDie 0 0xFFF 0x203014 4 [0x403014]) := by
  refine ⟨by decide +kernel, by decide +kernel, ⟨pending_of (by decide +kernel), by decide +kernel⟩, by decide +kernel, open_of (by decide +kernel) (by decide +kernel)⟩
/-- Reloads: no context, no manifest, and a manifest of no shards, whose digest, the value that Config leaves open, stands in it. -/
def manifest0 : Manifest := ⟨flat [(1, 8), (7, 8), (0, 4), (1, 4)] ++ digestOf [] ++ List.replicate 168 0, []⟩
theorem witness_reloads : (∀ c ∈ two.contexts, c.fn ≠ 1) ∧ lowestContext 0 two = some 0xFFF ∧ two.waits = false ∧ (0x80000000 : Word).getLsbD 31 = true ∧ bitsOf (0x80000000 : Word).toNat 23 0 = 0 ∧
    (readManifests 0 0xFFF 0 0 two).2 = [] ∧ pickStep [] (stepsOf []) false = none ∧ pickStep [manifest0] (stepsOf [manifest0]) false = some (7, false) ∧
    (regionList 0 0xFFF regionFuel 0x200000 (dieTlb two)).2 = some [] ∧ allWrites 0 [] [] two = some ([], []) ∧ writable 0 0xFFF [] two = true ∧ (regionList 0 0xFFF regionFuel 0x200000 (snapping (tensor 0x201000 5) (snap none none 0))).2 = none ∧ allWrites 0 [] [tensor 0x201000 1] two = none ∧
    writable 0 0xFFF [(0x401000, [1])] (dieTlb two) = false := by
  have h : stepOf manifest0.head = 7 := by
    simp only [stepOf, fieldOf, manifest0, flat, List.flatMap_cons, List.flatMap_nil, leBytes, List.cons_append, List.nil_append]; decide
  have hd : (digestOf []).length = 64 := by simp [digestOf]
  have hu : manifest0.usable = true := by
    simp only [Manifest.usable, manifest0, List.all_nil, List.flatMap_nil, fieldOf, Bool.and_true, Bool.and_eq_true, beq_iff_eq]
    refine ⟨by simp [flat, leBytes, leNat], ?_⟩
    rw [show flat [(1, 8), (7, 8), (0, 4), (1, 4)] = (flat [(1, 8), (7, 8), (0, 4), (1, 4)]) from rfl, List.append_assoc, List.drop_left' (by decide), List.take_left' hd]
  refine ⟨by decide +kernel, by decide +kernel, by decide +kernel, by decide, by decide, by decide +kernel, by decide, ?_, by decide +kernel, by decide +kernel, by decide +kernel, by decide +kernel, by decide +kernel, by decide +kernel⟩
  rw [(by simp only [stepsOf, List.map_cons, List.map_nil, h]; decide : stepsOf [manifest0] = [7])]
  simp [pickStep, h, hu]

/-! ### Hypotheses of the statements about the step and about faults -/

/-- A program's words at the PC, reached through the cached translation. -/
def coded (ws : List Nat) (s : State) : State := wr 0x201000 (ws.flatMap (fun w => leBytes w 4)) s
def codeHits (s : State) (w : Wave) (pc : Nat) : List Word → Bool
  | [] => true
  | x :: l => hit s w.core (s.gridOf (w.members.headD 0)).fn (s.gridOf (w.members.headD 0)).ctx .exec pc == some (0x200000 + pc, 0, 0x2001BF) && (regionOf (0x200000 + pc)).local && !s.mem.poison.contains ((0x200000 + pc) / 128) &&
      leNat (s.mem.bytes.readN (0x200000 + pc) 4) == x.toNat && codeHits s w (pc + 4) l
theorem codes_of {s : State} {w : Wave} {pc : Nat} {ws : List Word} (h : codeHits s w pc ws = true) (k : Nat) (hk : k < ws.length) :
    ∃ pa mt leaf, s.Hits w.core (s.gridOf (w.members.headD 0)).fn (s.gridOf (w.members.headD 0)).ctx .exec (pc + 4 * k) pa mt leaf ∧ (regionOf pa).local = true ∧ pa / 128 ∉ s.mem.poison ∧ leNat (s.mem.bytes.readN pa 4) = ws[k].toNat := by
  induction ws generalizing pc k with
  | nil => simp at hk
  | cons x l ih =>
    simp only [codeHits, Bool.and_eq_true, beq_iff_eq, Bool.not_eq_true'] at h
    obtain ⟨⟨⟨⟨h1, h2⟩, h3⟩, h4⟩, h5⟩ := h
    cases k with
    | zero => exact ⟨_, _, _, hits_of h1, h2, by simpa using h3, h4⟩
    | succ k =>
      have := ih h5 k (by simpa using hk)
      rw [show pc + 4 + 4 * k = pc + 4 * (k + 1) from by omega] at this
      simpa using this
/-- StepRunsDecoded: words of one, three and five words at the PC; a step that the agenda names. -/
def shortW : List Nat := [0x10489401]
def wideW : List Nat := [0x46818312, 0x00600000, 0]
def longW : List Nat := [0x80C10000, 0, 0, 0x55667788, 0x11223344]
def wordsOf' (l : List Nat) : List Word := l.map (BitVec.ofNat 32)
theorem witness_step :
    (∀ l ∈ [shortW, wideW, longW], let s := coded l one; dueCut s = none ∧ s.agenda = [] ∧ s.beat = 0 ∧ (s.thr 3).pc.toNat % 4 = 0 ∧ s.waves ≠ [] ∧ (chooseWave { s with beat := 1 }).waves = [wave1] ∧ atBreakpoint 3 s = none ∧ (s.gridOf 3).safe = false ∧
      (∀ k, (h : k < (wordsOf' l).length) → ∃ pa mt leaf, s.Hits wave1.core (s.gridOf 3).fn (s.gridOf 3).ctx .exec ((s.thr 3).pc.toNat + 4 * k) pa mt leaf ∧ (regionOf pa).local = true ∧ pa / 128 ∉ s.mem.poison ∧ leNat (s.mem.bytes.readN pa 4) = (wordsOf' l)[k].toNat)) ∧
    (decodeWords (wordsOf' shortW) = .instr (.st ⟨false, 17, 20, 1⟩) ∧ decodeWords (wordsOf' wideW) = .instr (.icmp ⟨false, 3, 3, 9, false, ⟨Guard.always, 6, 0, false, .i32, 0, false, false, 0, 0⟩⟩) ∧
      decodeWords (wordsOf' longW) = .instr (.movl ⟨false, 2, 0, ⟨Guard.always, 0, 0, false, .i32, 0, false, false, 0, 0⟩, 0x1122334455667788⟩)) ∧
    (let s := { one with agenda := [.supplySagStretch 0] }; dueCut s = none ∧ s.agenda = [.supplySagStretch 0] ∧ encode (.supplySagStretch 0) = []) := by
  refine ⟨?_, by decide +kernel, by decide +kernel⟩
  simp only [List.forall_mem_cons, List.not_mem_nil, false_imp_iff, implies_true, and_true]
  refine ⟨?_, ?_, ?_⟩ <;> exact ⟨by decide +kernel, by decide +kernel, by decide +kernel, by decide +kernel, by decide +kernel, by decide +kernel, by decide +kernel, by decide +kernel, fun k h => codes_of (w := wave1) (by decide +kernel) k h⟩
/-- DecodeFaults: a PC that is not canonical; words with length code 11, that name no operation, with a reserved field; a long form in a SAFE launch. -/
def safely (s : State) : State := { s with grids := s.grids.map (fun (g : Grid) => { g with record := launchRec.set 29 2 }) }
def lostPc : State := thm (fun t => { t with pc := 0x8000_0000_0000_0000 }) two
theorem witness_decode_faults :
    (∀ s ∈ [lostPc, coded [0xC0000000] two, coded [0x16C00000] two, coded [1] two, safely (coded wideW two)], dueCut s = none ∧ s.agenda = [] ∧ s.beat = 0 ∧ s.waves = [wave2] ∧ s.Issues wave2 ∧ (∀ v ∈ wave2.members, atBreakpoint v s = none ∧ (s.thr v).pc = (s.thr 3).pc) ∧ (∀ r ∈ s.faults, r.issue ≤ s.issue)) ∧
    canonical (lostPc.thr 3).pc.toNat = false ∧ (∀ v ∈ wave2.members, ((safely (coded wideW two)).gridOf v).safe = true) ∧ (∀ v ∈ wave2.members, (two.gridOf v).safe = false) ∧
    (∀ l ∈ [[0xC0000000], [0x16C00000], [1]], codeHits (coded l two) wave2 0x1000 (wordsOf' l) = true) ∧ codeHits (safely (coded wideW two)) wave2 0x1000 (wordsOf' [0x46818312]) = true ∧ (two.thr 3).pc = 0x1000 ∧
    (decodeWords (wordsOf' [0x16C00000]) = .illegalOpcode ∧ decodeWords (wordsOf' [1]) = .reservedField ∧ wordCount 0x16C00000 = some 1 ∧ wordCount 1 = some 1) := by
  refine ⟨?_, by decide +kernel, by decide +kernel, by decide +kernel, by decide +kernel, by decide +kernel, by decide +kernel, by decide +kernel⟩
  simp only [List.forall_mem_cons, List.not_mem_nil, false_imp_iff, implies_true, and_true]
  refine ⟨?_, ?_, ?_, ?_, ?_⟩ <;> exact ⟨by decide +kernel, by decide +kernel, by decide +kernel, by decide +kernel, issues_of (by decide +kernel), by decide +kernel, by decide +kernel⟩
/-- PreciseFaults: a register not owned, a poisoned one, addresses that are misaligned and not canonical, a partial write in a DET launch, a checked BRU on which threads disagree. -/
theorem bare_lone {s : State} {n : Names} {u : Nat} (h : (s.waves.head? == some wave1 && decide wave1.members.Nodup && wave1.members.all (fun u => s.threads.any (fun t => t.uid == u) && (s.thr u).phase == .issuing && s.teams.any (fun k => k.uid == (s.thr u).team) && (s.thr u).pendP.isEmpty)) = true)
    (hn : n.rv = [] ∧ n.wv = [] ∧ n.rs = [] ∧ n.ws = [] ∧ n.rh = [] ∧ n.cls = .none) (ha : wave1.members.filter (fun v => (s.thr v).guard Guard.always) = [u]) (hm : numbered s = true) : s.Lone wave1 Guard.always n u :=
  ⟨bare_ready h hn, fun v => by rw [State.Active, ← List.mem_filter (p := fun v => (s.thr v).guard Guard.always), ha, List.mem_singleton], numbered_of hm⟩
def owning (n : Nat) (p : List Nat) : State := thm (fun t => { t with v := t.v.take n, poison := p }) one
def addressing (hi lo : Nat) : State := regs [(8, lo), (9, hi)] one
def partOf (s : State) : State := { det s with threads := s.threads ++ [{ thread 40 5 with phase := .ready }], nextId := 41 }
theorem witness_precise_faults :
    ((Instr.iaddWide (wa 1 2 3 ext)).wf = true ∧ (owning 2 []).Lone wave1 Guard.always { rs := (wa 1 2 3 ext).ob.ss false } 3 ∧ (owning 128 [2]).Lone wave1 Guard.always { rs := (wa 1 2 3 ext).ob.ss false } 3 ∧ ((owning 2 []).thr 3).owned = 2 ∧
      (wa 1 2 3 ext).ob.vs false = [3] ∧ ((owning 2 []).thr 3).pendV = [] ∧ ((owning 128 [2]).thr 3).owned = 128 ∧ 2 ∈ ((owning 128 [2]).thr 3).poison ∧ ∀ r ∈ one.faults, r.issue ≤ one.issue) ∧
    ((Instr.ldWide (wm 20 8 0 ext)).wf = true ∧ (∀ s ∈ [addressing 0x80000000 0, addressing 0 0x1101], ∀ n, Small n → s.Lone wave1 Guard.always n 3) ∧
      ((wmData (wm 20 8 0 ext)).vas (((addressing 0x80000000 0).thr 3).rpair 8)).head? = some 0x8000000000000000 ∧ canonical 0x8000000000000000 = false ∧ ((wmData (wm 20 8 0 ext)).vas (((addressing 0 0x1101).thr 3).rpair 8)).head? = some 0x1101) ∧
    ((Instr.uadd (ss 5 2 3)).wf = true ∧ (∀ n, Small n → (partOf two).Ready wave2 Guard.always n) ∧ (partOf two).Numbered ∧ (∀ u ∈ wave2.members, ((partOf two).thr u).team = 2) ∧ ¬ (partOf two).Whole wave2 2 ∧ (partOf two).det 2 = true) ∧
    ((Instr.bru ⟨false, p1, 4⟩).wf = true ∧ (let s := tmm (fun t => { t with mode := 1 }) two; (∀ n, Small n → s.Ready wave2 Guard.always n) ∧ s.Numbered ∧ (∀ v ∈ wave2.members, (s.thr v).team = 2) ∧ (s.tm 2).mode.getLsbD 0 = true ∧ s.Supplies wave2 Guard.always 2 3 ∧ (s.thr 4).guard p1 ≠ (s.thr 3).guard p1)) := by
  refine ⟨⟨by decide +kernel, bare_lone (by decide +kernel) (by decide) (by decide +kernel) (by decide +kernel), bare_lone (by decide +kernel) (by decide) (by decide +kernel) (by decide +kernel), by decide +kernel⟩,
    ⟨by decide +kernel, ?_, by decide +kernel⟩, ⟨by decide +kernel, fun n hn => ready_of (by decide +kernel) hn, numbered_of (by decide +kernel), by decide +kernel, ?_, by decide +kernel⟩,
    by decide +kernel, fun n hn => ready_of (by decide +kernel) hn, numbered_of (by decide +kernel), by decide +kernel, by decide +kernel, ⟨⟨by decide, by decide +kernel⟩, by decide +kernel, ?_⟩, by decide +kernel⟩
  · simp only [List.forall_mem_cons, List.not_mem_nil, false_imp_iff, implies_true, and_true]
    exact ⟨fun n hn => lone_of (by decide +kernel) hn, fun n hn => lone_of (by decide +kernel) hn⟩
  · intro h
    obtain ⟨t, ht, h1, h2, h3⟩ := (by decide +kernel : ∃ t ∈ (partOf two).threads, t.team = 2 ∧ t.phase ≠ .exited ∧ t.uid ∉ wave2.members)
    exact h3 (h t ht h1 h2)
  · exact fun v hv _ => (by decide +kernel : ∀ v ∈ wave2.members, ((tmm (fun t => { t with mode := 1 }) two).thr 3).lane ≤ ((tmm (fun t => { t with mode := 1 }) two).thr v).lane) v hv.1
/-- EncodeDecode, CanonicalKept, NumbersKept: an instruction that has words, the state of a program's first instruction, and the state after its step. -/
theorem witness_invariants : (Instr.iadd (si 1 2 0xFF)).wf = true ∧ encode (.iadd (si 1 2 0xFF)) ≠ [] ∧ decodeWords [0x010082FF] = .instr (.iadd (si 1 2 0xFF)) ∧
    (coded [0x010082FF] one).Canonical ∧ (coded [0x010082FF] one).Numbered ∧ (∃ t, step (coded [0x010082FF] one) = .next t) ∧ State.reset.Canonical ∧ State.reset.Numbered := by
  refine ⟨by decide, by decide, by decide +kernel, by unfold State.Canonical; decide +kernel, numbered_of (by decide +kernel), ?_, by unfold State.Canonical; decide +kernel, numbered_of (by decide +kernel)⟩
  have hk : (match step (coded [0x010082FF] one) with | .next _ => true | _ => false) = true := by decide +kernel
  cases h : step (coded [0x010082FF] one) with
  | next t => exact ⟨t, rfl⟩
  | fault f => simp [h] at hk
  | refused r => simp [h] at hk
end Sys2Proof.Tests
end

section
/-! What a step that ends by settling leaves of a state; the state after a reset; the writes of device registers. -/
namespace Sys2Proof.Machine

/-! ### A step that ends by settling -/

/-- What follows by itself is what `State.Then` allows. -/
theorem settle_then (s : State) : s.Then (settle s) :=
  let h := settle_settled s
  ⟨fun u => (h.threads u).same, h.teams, h.rest⟩
/-- A step that ends by settling a state leads to that state. -/
theorem leads_of_done {i : Instr} {s s' : State} (h : exec i s = done s') : Leads i s s' := ⟨settle s', h, settle_then s'⟩

/-! ### The state after a reset (R349, R352) -/

/-- Without a held register every register has its reset value. -/
theorem reg_of_regs_nil {s : State} (h : s.regs = []) (fn : Nat) (priv : Bool) (off : Nat) : s.reg fn priv off = regReset fn priv off := by
  simp [State.reg, h]
/-- Settling a machine without threads, teams and held registers only brings the watchdogs' tick up to date. -/
theorem settle_empty {s : State} (ht : s.threads = []) (hm : s.teams = []) (hr : s.regs = []) :
    settle s = { s with watched := s.gtick, waits := false } := by
  cases s
  subst ht hm hr
  simp [settle, settleBarriers, settleThreads, settleClaims, settleDeadlock, settleWatch, settleImages, sortBy]
/-- One deck at least is a compute deck at boot (R2, notes/assumptions 3): the one that the configuration names. -/
theorem reset_computes : State.reset.decks.countP id ≠ 0 := by
  rw [← Nat.pos_iff_ne_zero, List.countP_pos_iff]
  exact ⟨true, List.mem_map.2 ⟨Config.bootDeck % 8, List.mem_range.2 (Nat.mod_lt _ (by decide)), by simp⟩, rfl⟩
/-- No bank holds a context at reset. -/
theorem reset_bank (core b : Nat) : (State.reset.bank core b).ctx = none := by
  change (nth Bank.reset [Bank.reset, Bank.reset] b).ctx = none
  match b with
  | 0 | 1 | _ + 2 => rfl

/-- Settles O53: the fields of State.reset, its registers' reset values, and its deck that the configuration names. -/
theorem resetValues : Obligations.ResetValues := by
  unfold Obligations.ResetValues
  have wdog (fn : Nat) (h : fn ≤ 16) : (State.reset.reg fn false 0x700).toNat = 10000000000 := by
    rw [reg_of_regs_nil rfl, regReset, if_neg (by decide), if_pos ⟨rfl, h⟩]; simp
  have mask (fn : Nat) (h : fn ≤ 16) : (State.reset.reg 0 true (0x1000 + 4 * fn)).toNat = 0xFFFF := by
    rw [reg_of_regs_nil rfl, regReset, if_pos rfl, if_pos (by omega)]; simp
  have weight (fn : Nat) (h : fn ≤ 16) : (State.reset.reg 0 true (0x1600 + 8 * fn)).toNat = 2 ^ 32 := by
    rw [reg_of_regs_nil rfl, regReset, if_pos rfl, if_neg (by omega), if_pos (by omega)]; simp
  exact ⟨rfl, rfl, rfl, rfl, rfl, rfl, rfl, rfl, rfl, rfl, rfl, rfl, reset_computes, fun fn h => ⟨wdog fn h, mask fn h, weight fn h⟩, reset_bank, rfl,
    ⟨List.nodup_nil, List.nodup_nil, fun t h => absurd h List.not_mem_nil, fun t h => absurd h List.not_mem_nil⟩⟩

/-! ### Writes of device registers (R7, R358) -/

/-- A function's write to its own page. -/
theorem exec_writePage {fn : Nat} (h : fn ≤ 16) (off : Nat) (v : Dword) (s : State) : exec (.registerWrite fn false off v) s = writePage fn off v s := by
  change execRegisterWrite fn false off v s = _
  rw [execRegisterWrite, if_neg (by simpa using h), if_neg (by decide)]
/-- The physical function's write to the privileged page. -/
theorem exec_writePriv (off : Nat) (v : Dword) (s : State) : exec (.registerWrite 0 true off v) s = writePriv off v s := rfl
/-- An offset of a function's page that names neither a command nor an entry of the tables of counters, encoders, worlds and queues. -/
def PlainOffset (off : Nat) : Prop :=
  off ≠ 0x408 ∧ off ≠ 0x450 ∧ off ≠ 0x508 ∧ off ≠ 0x680 ∧ off ≠ 0x818 ∧ off ≠ 0x890 ∧ off ≠ 0xA00 ∧
    ¬ (0x900 ≤ off ∧ off < 0xA00) ∧ ¬ (0xB00 ≤ off ∧ off < 0xC00) ∧ ¬ (0x2000 ≤ off ∧ off < 0x3000) ∧ ¬ (0x8000 ≤ off ∧ off < 0x18000)
/-- An offset of a function's page with no function of its own is a held register, or none. -/
theorem writePage_held {off : Nat} (h : PlainOffset off) (fn : Nat) (v : Dword) (s : State) :
    writePage fn off v s = writeHeld fn false off (pageMask off) v s := by
  unfold PlainOffset at h
  rw [writePage, if_neg (by omega), if_neg (by omega), if_neg (by omega), if_neg (by omega), if_neg (by omega), if_neg (by omega), if_neg (by omega), if_neg (by omega),
    if_neg (by omega), if_neg (by omega), if_neg (by omega), if_neg (by omega), if_neg (by omega), if_neg (by omega), if_neg (by omega)]

/-- A held register of a function's page takes its writable bits. -/
theorem leads_masked {fn off mask : Nat} (hf : fn ≤ 16) (ho : PlainOffset off) (hm : pageMask off = some mask) (v : Dword) (s : State) :
    Leads (.registerWrite fn false off v) s (s.setReg fn false off (BitVec.ofNat 64 (Nat.land v.toNat mask))) :=
  leads_of_done (by rw [exec_writePage hf, writePage_held ho, hm]; rfl)
/-- A register that is read only, or an offset that names none, is left alone. -/
theorem leads_unheld {fn off : Nat} (hf : fn ≤ 16) (ho : PlainOffset off) (hm : pageMask off = none) (v : Dword) (s : State) :
    Leads (.registerWrite fn false off v) s s :=
  leads_of_done (by rw [exec_writePage hf, writePage_held ho, hm]; rfl)
/-- All 64 bits of a value are its writable bits. -/
theorem ofNat_land_ones (v : Dword) : BitVec.ofNat 64 (Nat.land v.toNat 0xFFFFFFFFFFFFFFFF) = v := by
  have h : Nat.land v.toNat (2 ^ 64 - 1) = v.toNat % 2 ^ 64 := Nat.and_two_pow_sub_one_eq_mod _ 64
  rw [show (0xFFFFFFFFFFFFFFFF : Nat) = 2 ^ 64 - 1 from rfl, h, Nat.mod_eq_of_lt v.isLt, BitVec.ofNat_toNat, BitVec.setWidth_eq]
/-- Past the registers of its queues a function's page has none (R358). -/
theorem pageMask_beyond {off : Nat} (h : 0x18000 ≤ off) : pageMask off = none := by
  have ne (n : Nat) (hn : n < 0x18000) : (off == n) = false := by simp; omega
  simp only [pageMask, ne, Nat.reduceLT, Bool.or_self, Bool.false_eq_true, if_false]
  rw [if_neg (by omega), if_neg (by omega)]
/-- The address of a breakpoint is held but for its bit 1. -/
theorem pageMask_bpAddr {n : Nat} (h : n < 8) : pageMask (0x600 + 16 * n) = some 0xFFFFFFFFFFFFFFFD := by
  interval_cases n <;> rfl
/-- The control word of a breakpoint holds its flag and its context (R336). -/
theorem pageMask_bpCtl {n : Nat} (h : n < 8) : pageMask (0x608 + 16 * n) = some 0x80000FFF := by
  interval_cases n <;> rfl
/-- A register of the privileged page that is written by its mask. -/
theorem writePriv_held {off : Nat} (h : (0x1000 ≤ off ∧ off ≤ 0x1040) ∨ (0x1A00 ≤ off ∧ off ≤ 0x1A80)) (v : Dword) (s : State) :
    writePriv off v s = writeHeld 0 true off (privMask off) v s := by
  rw [writePriv, if_neg (by omega), if_neg (by omega), if_neg (by omega), if_neg (by omega), if_neg (by omega), if_neg (by omega), if_neg (by omega), if_neg (by omega),
    if_neg (by omega), if_neg (by omega), if_neg (by omega)]
theorem privMask_wayMask {f : Nat} (h : f ≤ 16) : privMask (0x1000 + 4 * f) = some 0xFFFF := by
  rw [privMask, if_pos (by omega)]
theorem privMask_tenant {f : Nat} (h : f ≤ 16) : privMask (0x1A00 + 8 * f) = some 0xFFFFFFFFFFFFFFFF := by
  interval_cases f <;> rfl
theorem writePriv_qown {q : Nat} (h : q < 4096) (v : Dword) (s : State) : writePriv (0x4000 + q) v s = done { s with qown := insertKey s.qown q (v.toNat % 256) } := by
  rw [writePriv, if_neg (by omega), if_neg (by omega), if_neg (by omega), if_neg (by omega), if_neg (by omega), if_neg (by omega), if_neg (by omega), if_neg (by omega),
    if_neg (by omega), if_neg (by omega), if_pos (by omega), show 0x4000 + q - 0x4000 = q by omega]

/-- A write of FSVC_CTL with GO is the command that its ACT names (R330). -/
theorem writePage_fsvc {fn : Nat} (hf : fn ≤ 16) {v : Dword} (hg : v.getLsbD 31 = true) (s : State) :
    writePage fn 0x508 v s = exec (match bitsOf (lowWord v).toNat 1 0 with | 0 => .fsvcRetry fn | 1 => .fsvcSkip fn | 2 => .fsvcKill fn | _ => .fsvcAnswer fn) s := by
  have hw : (lowWord v).getLsbD 31 = true := by simpa [lowWord] using hg
  have hle : ¬ 16 < fn := by omega
  have ha : bitsOf (lowWord v).toNat 1 0 < 4 := Nat.mod_lt _ (by decide)
  change writeFsvc fn (lowWord v) s = _
  rw [writeFsvc, if_pos hw]
  generalize bitsOf (lowWord v).toNat 1 0 = a at ha
  match a, ha with
  | 0, _ => exact (if_neg hle).symm
  | 1, _ => exact (if_neg hle).symm
  | 2, _ => exact (if_neg hle).symm
  | 3, _ => exact (if_neg hle).symm
/-- Offsets in a page's tables of registers go to the tables' own functions. -/
theorem writePage_perfsel {n : Nat} (h : n < 8) (fn : Nat) (v : Dword) (s : State) : writePage fn (0x900 + 8 * n) v s = execPerfselWrite fn n v s := by
  interval_cases n <;> rfl
theorem writePage_perfcnt {n : Nat} (h : n < 8) (fn : Nat) (v : Dword) (s : State) : writePage fn (0x980 + 8 * n) v s = execPerfcntWrite fn n v s := by
  interval_cases n <;> rfl
theorem writePage_encdoor {n : Nat} (h : n < 8) (fn : Nat) (v : Dword) (s : State) : writePage fn (0xB08 + 16 * n) v s = execEncdoorWrite fn n v s := by
  interval_cases n <;> rfl
/-- The registers of queue q. -/
theorem writePage_queue {q : Nat} (h : q < 4096) (fn : Nat) (v : Dword) (s : State) :
    writePage fn (0x8000 + 16 * q) v s = execQdescWrite fn q v s ∧ writePage fn (0x8008 + 16 * q) v s = execQdoorWrite fn q v s := by
  constructor
  · rw [writePage, if_neg (by omega), if_neg (by omega), if_neg (by omega), if_neg (by omega), if_neg (by omega), if_neg (by omega), if_neg (by omega), if_neg (by omega),
      if_neg (by omega), if_neg (by omega), if_neg (by omega), if_neg (by omega), if_neg (by omega), if_pos (by omega), show (0x8000 + 16 * q - 0x8000) / 16 = q by omega]
  · rw [writePage, if_neg (by omega), if_neg (by omega), if_neg (by omega), if_neg (by omega), if_neg (by omega), if_neg (by omega), if_neg (by omega), if_neg (by omega),
      if_neg (by omega), if_neg (by omega), if_neg (by omega), if_neg (by omega), if_neg (by omega), if_neg (by omega), if_pos (by omega),
      show (0x8008 + 16 * q - 0x8000) / 16 = q by omega]
/-- WDESC of world w. -/
theorem writePage_wdesc {w : Nat} (h : w < 256) (fn : Nat) (v : Dword) (s : State) :
    writePage fn (0x2000 + 16 * w) v s = if v.getLsbD 0 then execWdescBind fn w v s else execWdescUnbind fn w v s := by
  rw [writePage, if_neg (by omega), if_neg (by omega), if_neg (by omega), if_neg (by omega), if_neg (by omega), if_neg (by omega), if_neg (by omega), if_neg (by omega),
    if_neg (by omega), if_neg (by omega), if_neg (by omega), if_pos (by omega), show (0x2000 + 16 * w - 0x2000) / 16 = w by omega]

/-- What DEVICE_RESET leaves before settling is, but for the fresh number, the reset machine with what stays of memory, firmware and worlds. -/
theorem deviceReset_leads (s : State) :
    LeadsTo .deviceReset s { State.reset with mem := { Mem.reset with bytes := s.mem.bytes, poison := s.mem.poison }, firmware := s.firmware, kept := s.kept, free := s.free }
      (fun t => t.threads = [] ∧ t.teams = [] ∧ t.grids = [] ∧ ∀ fn priv off, perfCounter priv off = false → t.reg fn priv off = regReset fn priv off) := by
  have hs : exec .deviceReset s = .next { State.reset with
      mem := { Mem.reset with bytes := s.mem.bytes, poison := s.mem.poison }, firmware := s.firmware, kept := s.kept, free := s.free, nextId := s.nextId } := by
    change Host.Outcome.next (settle _) = _
    rw [settle_empty rfl rfl rfl]; rfl
  refine ⟨_, hs, ?_, rfl, rfl, rfl, fun fn priv off _ => reg_of_regs_nil rfl fn priv off⟩
  exact ⟨fun u => .refl _ _ _, fun k => .refl _ _, ⟨fun _ _ _ => rfl, fun _ _ _ _ => rfl, rfl, List.prefix_refl _, rfl⟩⟩

/-- Offsets that name a command go to the command's own function. -/
theorem writePage_commands (fn : Nat) (v : Dword) (s : State) :
    writePage fn 0x408 v s = execXinvGo fn (lowWord v) s ∧ writePage fn 0x450 v s = execMigrate fn (lowWord v) s ∧ writePage fn 0x818 v s = execSnapctlGo fn (lowWord v) s ∧
    writePage fn 0x890 v s = execRestctlGo fn (lowWord v) s ∧ writePage fn 0xA00 v s = execAttreqWrite fn v s := by
  simp [writePage]

/-- Settles O45: each offset's branch of the page's write, and the reset machine. -/
theorem registerWrites : Obligations.RegisterWrites := by
  unfold Obligations.RegisterWrites
  intro s fn v hf
  have held (off : Nat) (ho : off ∈ [0x400, 0x440, 0x688, 0x700, 0x800, 0x808, 0x810, 0x880, 0x888]) : Leads (.registerWrite fn false off v) s (s.setReg fn false off v) := by
    have hm : pageMask off = some 0xFFFFFFFFFFFFFFFF := by
      simp only [List.mem_cons, List.not_mem_nil, or_false] at ho
      rcases ho with rfl | rfl | rfl | rfl | rfl | rfl | rfl | rfl | rfl <;> rfl
    have h := leads_masked hf (by simp only [List.mem_cons, List.not_mem_nil, or_false] at ho; unfold PlainOffset; omega) hm v s
    rwa [ofNat_land_ones] at h
  have readOnly (off : Nat) (ho : off ∈ [0x40C, 0x410, 0x454, 0x458, 0x50C, 0x690, 0xA08]) : Leads (.registerWrite fn false off v) s s := by
    have hm : pageMask off = none := by
      simp only [List.mem_cons, List.not_mem_nil, or_false] at ho
      rcases ho with rfl | rfl | rfl | rfl | rfl | rfl | rfl <;> rfl
    exact leads_unheld hf (by simp only [List.mem_cons, List.not_mem_nil, or_false] at ho; unfold PlainOffset; omega) hm v s
  have tenant (f : Nat) (h : f ≤ 16) : Leads (.registerWrite 0 true (0x1A00 + 8 * f) v) s (s.setReg 0 true (0x1A00 + 8 * f) v) :=
    leads_of_done (by rw [exec_writePriv, writePriv_held (by omega), privMask_tenant h, writeHeld, ofNat_land_ones])
  have wayMask (f : Nat) (h : f ≤ 16) : Leads (.registerWrite 0 true (0x1000 + 4 * f) v) s (s.setReg 0 true (0x1000 + 4 * f) (BitVec.ofNat 64 (Nat.land v.toNat 0xFFFF))) :=
    leads_of_done (by rw [exec_writePriv, writePriv_held (by omega), privMask_wayMask h]; rfl)
  have qown (q : Nat) (h : q < 4096) : Leads (.registerWrite 0 true (0x4000 + q) v) s { s with qown := insertKey s.qown q (v.toNat % 256) } :=
    leads_of_done (by rw [exec_writePriv, writePriv_qown h])
  obtain ⟨xinv, migrate, snapctl, restctl, attreq⟩ := writePage_commands fn v s
  refine ⟨held, leads_masked hf (by unfold PlainOffset; omega) rfl v s, leads_masked hf (by unfold PlainOffset; omega) rfl v s, leads_masked hf (by unfold PlainOffset; omega) rfl v s,
    fun n hn => ⟨leads_masked hf (by unfold PlainOffset; omega) (pageMask_bpAddr hn) v s, leads_masked hf (by unfold PlainOffset; omega) (pageMask_bpCtl hn) v s⟩, readOnly,
    fun off ho => leads_unheld hf (by unfold PlainOffset; omega) (pageMask_beyond ho) v s, ?_, (exec_writePage hf _ v s).trans xinv, (exec_writePage hf _ v s).trans migrate, (exec_writePage hf _ v s).trans snapctl,
    (exec_writePage hf _ v s).trans restctl, (exec_writePage hf _ v s).trans attreq,
    fun hg => (exec_writePage hf _ v s).trans (writePage_fsvc hf hg s),
    fun n hn => ⟨(exec_writePage hf _ v s).trans (writePage_perfsel hn fn v s), (exec_writePage hf _ v s).trans (writePage_perfcnt hn fn v s),
      (exec_writePage hf _ v s).trans (writePage_encdoor hn fn v s)⟩,
    fun q hq => ⟨(exec_writePage hf _ v s).trans (writePage_queue hq fn v s).1, (exec_writePage hf _ v s).trans (writePage_queue hq fn v s).2⟩,
    fun w hw => (exec_writePage hf _ v s).trans ((writePage_wdesc hw fn v s).trans ?_), deviceReset_leads s⟩
  · rintro rfl
    exact ⟨fun f h => ⟨tenant f h, wayMask f h⟩, qown⟩
  · split <;> rfl

end Sys2Proof.Machine
end

section
/-! Refutations of the statements about issue grants and about saves: a state that meets a statement's hypotheses, and what the model's step makes of it. -/
namespace Sys2Proof.Machine

/-- A step leads to a next state of which P holds. -/
def nextHolds (P : State → Bool) : Out State → Bool
  | .next t => P t
  | _ => false
/-- What is checked of the next state holds of the one that a step is known to lead to. -/
theorem nextHolds_next {P : State → Bool} {o : Out State} {t : State} (h : nextHolds P o = true) (ht : o = .next t) : P t = true := by
  rw [ht] at h; exact h

/-! ### The seed of an issue grant (R146, R147) -/

/-- A READY thread of team 1, in lane 0. -/
def readyThread (uid tid age : Nat) : Thread := { Thread.blank with uid := uid, team := 1, tid := tid, phase := .ready, age := age }
/-- Team 1 of grid 4 on core 0 with two READY threads at one PC, whose AGE has passed 4,095: R147 stops the count there, so that no run comes so far, but the statement does not ask that its state be one of a run. -/
def overaged : State :=
  { State.reset with threads := [readyThread 2 0 4096, readyThread 3 1 4097], teams := [{ Team.blank with uid := 1, grid := 4 }], grids := [{ Grid.blank with uid := 4 }], nextId := 5 }
/-- The grant's wave is thread 2 alone, the younger one: the rank of aged seeds takes both ages for 4,095. -/
theorem overaged_grant : nextHolds (fun t => t.waves == [⟨0, 0, [2], 0⟩]) (exec (.issueGrant 0 0) overaged) = true := by decide +kernel
/-- The identities of its objects are all distinct and below the next one. -/
theorem overaged_numbered : overaged.Numbered := ⟨by decide, by decide, by decide, by decide⟩

/-- A READY thread of overaged is ready in the sense of the statement. -/
theorem overaged_ready {t : Thread} (ht : t ∈ overaged.threads) : overaged.mayIssue t = true ∧ ∃ m ∈ overaged.teams, m.uid = t.team ∧ m.core = 0 ∧ m.saved = none ∧ m.bank = (overaged.core 0).active :=
  (by decide +kernel : ∀ t ∈ overaged.threads, overaged.mayIssue t = true ∧ ∃ m ∈ overaged.teams, m.uid = t.team ∧ m.core = 0 ∧ m.saved = none ∧ m.bank = (overaged.core 0).active) t ht
/-- The statement about grants asks for a seed of the largest age, and the grant to overaged takes the other thread. -/
theorem not_grants : ¬ Claims.Grants := by
  intro h
  obtain ⟨_, grant⟩ := h overaged
  have ready (t : Thread) (ht : t ∈ overaged.threads) :
      ∃ x ∈ overaged.threads, x.uid = t.uid ∧ overaged.mayIssue x = true ∧ ∃ m ∈ overaged.teams, m.uid = x.team ∧ m.core = 0 ∧ m.saved = none ∧ m.bank = (overaged.core 0).active :=
    ⟨t, ht, rfl, overaged_ready ht⟩
  obtain ⟨us, seed, s1, hseed, _, _, _, _, oldest, _, t, ht, _, hw, _⟩ := grant 0 0 (by decide) (by decide) overaged_numbered (by decide) (by decide) (by decide) (by decide)
    (.inl ⟨2, ready _ List.mem_cons_self, by decide⟩)
  have hus : us = [2] := by
    have := nextHolds_next overaged_grant ht
    rw [hw] at this
    simpa [overaged, State.reset] using this
  have h2 : seed = 2 := by simpa [hus] using hseed
  have := oldest ⟨2, ready _ List.mem_cons_self, by decide⟩ 3 (ready _ (List.mem_cons_of_mem _ List.mem_cons_self))
  rw [h2] at this
  exact absurd this (by decide)

/-- Refutes O28: nothing bounds AGE by the 4,095 at which the machine stops counting (R147), and of two threads beyond it the grant does not seed the older one. -/
theorem not_regrouping : ¬ Obligations.Regrouping := by
  unfold Obligations.Regrouping
  exact fun ⟨_, _, h⟩ => not_grants h

/-! ### A save slot that holds owner bytes (R28, R29, R333) -/

/-- A context of function 0 with one save slot, which begins at 0x200000000; its image area stands in its descriptor (Table 14.1). -/
def imageContext : Context := ⟨0, 0, List.replicate 48 0 ++ leBytes 0x1FFFF0000 8 ++ List.replicate 72 0, 1, 0, none, none⟩
/-- A team of the context with one thread, in bank 0 of core 0. -/
def residentThread : Thread := { Thread.blank with uid := 2, team := 1, phase := .barrier }
def residentTeam : Team := { Team.blank with uid := 1, grid := 4 }
/-- DBGCMD asks for the context's save, and the owner bytes of Table 2.8 stand from GRANTAB = 0x1FFFFF000 on: that of granule 4,096, in which the slot lies, is the slot's own first byte. -/
def selfOwned : State :=
  { State.reset with
    threads := [residentThread], teams := [residentTeam], grids := [{ Grid.blank with uid := 4 }], contexts := [imageContext], nextId := 5
    cores := [{ Core.reset 0 with banks := [{ Bank.reset with ctx := some (0, 0) }, Bank.reset] }]
    regs := [⟨0, false, 0x680, 0xC0000000⟩, ⟨0, true, 0x1E00, 0x1FFFFF000⟩] }
/-- The place of the thread's record in the slot (R333, R335). -/
def recordPlace : Nat := slotBase imageContext 0 + 0x100 + 640 * 0
/-- The header's first byte makes function 1 the owner of the granule, so the thread's record is not written. -/
theorem selfOwned_save : nextHolds (fun t => t.mem.bytes.readN recordPlace 640 != threadRecord t (t.thr 2)) (exec (.bankSave 0 0) selfOwned) = true := by decide +kernel

/-- The hypotheses of the statement about saves, on selfOwned: identities, bytes that no engine holds, and no image in flight. -/
theorem selfOwned_numbered : selfOwned.Numbered := ⟨by decide, by decide, by decide, by decide⟩
theorem selfOwned_plain (pa n : Nat) : selfOwned.Plain pa n := fun _ _ _ => ⟨List.not_mem_nil, rfl⟩
theorem selfOwned_noImage (a : Nat) : ¬ selfOwned.inImage a := fun ⟨t, ht, hi, _⟩ => hi ((by decide : ∀ t ∈ selfOwned.threads, t.image = []) t ht)
/-- Before the save function 0 may write the header and the record. -/
theorem selfOwned_physOk : selfOwned.physOk 0 (slotBase imageContext 0) 16 = true ∧ selfOwned.physOk 0 recordPlace 640 = true := by decide +kernel
/-- The thread whose record the save takes. -/
theorem selfOwned_saves : (sortBy Team.grid (sortBy Team.id [residentTeam])).flatMap (fun m => sortBy Thread.tid (selfOwned.threads.filter (fun t => t.team == m.uid))) = [residentThread] := by decide +kernel
/-- The statement about saves asks for the thread's record in the slot, and the save of selfOwned does not write it. -/
theorem not_saves : ¬ Claims.Saves := by
  intro h
  obtain ⟨_, _, t, ht, _, _, _, record⟩ := h selfOwned (.bankSave 0 0) imageContext 0 0 0 [residentTeam] false selfOwned_numbered rfl (by decide +kernel) (by decide +kernel)
    (.inl ⟨rfl, by decide, rfl, by decide +kernel, by decide, by decide +kernel, by decide +kernel, nofun⟩)
    (by decide +kernel) (by decide +kernel) (by decide +kernel) nofun selfOwned_physOk.1
    (fun k hk => by
      rw [selfOwned_saves, List.length_singleton, Nat.lt_one_iff] at hk
      rw [hk]; exact selfOwned_physOk.2)
    (selfOwned_plain _ _) List.nodup_nil nofun (fun a _ _ => selfOwned_noImage a)
  have written : t.mem.bytes.readN recordPlace 640 = threadRecord t (t.thr 2) := record 0 residentThread (by rw [selfOwned_saves]; rfl)
  exact absurd written (by simpa using nextHolds_next selfOwned_save ht)

/-- Refutes O41: the hypotheses let a save slot hold the owner bytes of its own granule; the header's write gives the granule to another function (R28, R29), and the threads' records are not written after it. -/
theorem not_savesAndRestores : ¬ Obligations.SavesAndRestores := by
  unfold Obligations.SavesAndRestores
  exact fun ⟨_, h, _⟩ => not_saves h

end Sys2Proof.Machine
end
